-- ==== Sys2Proof/Word.lean ====
section
/-! DEFINITION. The plain values the part works on: bytes of the control line, 24-bit samples with their valid flag,
frames of eight slots, and time stamps. -/

namespace Sys2Proof

/-- A byte of the control line (R181). -/
abbrev Byte := BitVec 8

/-- An audio sample: 24-bit two's complement (00_scope.md, Samples). -/
abbrev Sample := BitVec 24

/-- A house sample count: 32 bits, wrapping (R88). -/
abbrev Stamp := BitVec 32

/-- A sample with its valid flag: one slot of a frame (1.1) and one word of delay memory (chapter 3). -/
structure Slot where
  sample : Sample
  valid : Bool
  deriving DecidableEq, Repr

/-- Sample 0 with valid flag false: what a zeroed slot, a silent converter and a cleared word hold (R5, R17, R52). -/
def Slot.silent : Slot := ⟨0, false⟩

/-- The eight slots of one audio frame (1.1). -/
abbrev AudioFrame := Vector Slot 8

/-- Eight slots each of sample 0 with valid flag false (R5, R17). -/
def silentFrame : AudioFrame := Vector.replicate 8 Slot.silent

end Sys2Proof
end

