-- ==== Sys2Proof/Config.lean ====
section
/-! DEFINITION. The constants the spec fixes for the part. The spec leaves no value open, so no free value stands here. -/

namespace Sys2Proof.Config

/-- House samples in a block (00_scope.md, House time). -/
abbrev blockLength : Nat := 4800

/-- Pages of delay memory, sample words in a page, and words in all (chapter 3). -/
abbrev pages : Nat := 4096
abbrev pageWords : Nat := 512
abbrev memWords : Nat := 2097152

/-- One frame, or a ratio of 1, in units of 2^-20 (R14). -/
abbrev unit20 : Nat := 1048576

/-- The bounds of the ratio R (R19). -/
abbrev ratioMin : Nat := 611669
abbrev ratioMax : Nat := 2184533

/-- The FIFO fill that re-centrings and slips return to (R22, R28, R29). -/
abbrev fifoCentre : Nat := 32

/-- The saturation values of 16- and 32-bit counts (R4, R105). -/
abbrev max16 : Nat := 65535
abbrev max32 : Nat := 4294967295

/-- The family code, part number and revision of IDENTIFY (R189). -/
abbrev familyCode : List Byte := [0x53, 0x5A]
abbrev partNumber : Nat := 4180
abbrev revision : Nat := 1

end Sys2Proof.Config
end

