-- ==== Sys2Proof/Syntax.lean ====
section
/-! DEFINITION. The commands of the part: one constructor for each row of spec/opcode_table.json. A request row is a whole
request frame, its TAG and BODY bytes (its CODE is the row's; UNKNOWN carries its own), as R181 lays frames out. -/

namespace Sys2Proof

/-- Why the receiver discards a whole control frame (R183): its LEN byte, its check, or two frames already held. -/
inductive DiscardCause where
  | badLen (len : Byte)
  | badCheck
  | holdingFull
  deriving DecidableEq, Repr

/-- The commands, in the table's order. -/
inductive Instr where
  /-- RESETn held low, and let rise (R187). -/
  | powerOnReset
  /-- The end of the start-up period (R187, R188). -/
  | startUpEnd
  /-- A complete frame arrives on an input link (R1). -/
  | frameArrival (link : Fin 8) (slots : AudioFrame) (parityOk : Bool)
  /-- A rising edge of HSCK, with the levels of FRM, CUE0 and CUE1 sampled at it (R89, R90, R93). -/
  | houseSample (frm cue0 cue1 : Bool)
  /-- The house sample now due reaches one move unit, whose move ends at it (R71). -/
  | moveEnd (p : Fin 8)
  /-- The house sample now due reaches one corrector, whose applied gain steps at it (R137). -/
  | appliedGainStep (p : Fin 8)
  /-- The house sample now due brings the frame reference to its absence limit (R91). -/
  | frameReferenceAbsent
  /-- The house sample now due is the sixth since the programme's last clearing step (R52). -/
  | pageClearStep (p : Fin 8)
  /-- The block phase passes from 4,799 to 0 (R89). -/
  | blockEnd
  /-- The block end now due reaches one move unit, whose cue wait times out at it (R75). -/
  | cueTimeout (p : Fin 8)
  /-- The block end now due reaches one level source before a report of that block end (R151), and the source qualifies where
  its raise timer runs out (R149). -/
  | sourceQualifies (n : Fin 59)
  /-- The block end now due reaches one level source before a report of that block end (R151), and the source loses
  qualification where its clear timer runs out (R150). -/
  | sourceLosesQualification (n : Fin 59)
  /-- The block end now due reaches one contact, which releases at it (R170). -/
  | contactRelease (c : Fin 4)
  /-- A whole control frame arrives and is discarded (R183). -/
  | requestFrameDiscard (cause : DiscardCause)
  /-- More than 5 ms pass since the last byte on CRX (R183). -/
  | interByteGap
  /-- The last byte of the reply in progress has been sent (R184). -/
  | replySent
  /-- A checked request frame whose CODE names no message (R185). -/
  | unknown (code tag : Byte) (body : List Byte)
  | identify (tag : Byte) (body : List Byte)
  | reset (tag : Byte) (body : List Byte)
  /-- The last byte of the RESET reply has been sent (R188). -/
  | resetTakesEffect
  | houseStatus (tag : Byte) (body : List Byte)
  | linkSet (tag : Byte) (body : List Byte)
  | linkStatus (tag : Byte) (body : List Byte)
  | routeSet (tag : Byte) (body : List Byte)
  | routeGet (tag : Byte) (body : List Byte)
  | progOpen (tag : Byte) (body : List Byte)
  | progClose (tag : Byte) (body : List Byte)
  | progStatus (tag : Byte) (body : List Byte)
  | progGroup (tag : Byte) (body : List Byte)
  | moveSet (tag : Byte) (body : List Byte)
  | moveGo (tag : Byte) (body : List Byte)
  | moveDiscard (tag : Byte) (body : List Byte)
  | moveHold (tag : Byte) (body : List Byte)
  | moveFinish (tag : Byte) (body : List Byte)
  | moveResume (tag : Byte) (body : List Byte)
  | moveHoldall (tag : Byte) (body : List Byte)
  | moveStatus (tag : Byte) (body : List Byte)
  | moveReports (tag : Byte) (body : List Byte)
  | cueSet (tag : Byte) (body : List Byte)
  | cueFire (tag : Byte) (body : List Byte)
  | snapRead (tag : Byte) (body : List Byte)
  | loudSet (tag : Byte) (body : List Byte)
  | loudRead (tag : Byte) (body : List Byte)
  | loudRestart (tag : Byte) (body : List Byte)
  | gainSet (tag : Byte) (body : List Byte)
  | gainRead (tag : Byte) (body : List Byte)
  | almSet (tag : Byte) (body : List Byte)
  | almNext (tag : Byte) (body : List Byte)
  | almLook (tag : Byte) (body : List Byte)
  | almClose (tag : Byte) (body : List Byte)
  | almLevel (tag : Byte) (body : List Byte)
  | almList (tag : Byte) (body : List Byte)
  | contactSet (tag : Byte) (body : List Byte)
  | countSet (tag : Byte) (body : List Byte)
  | countRead (tag : Byte) (body : List Byte)
  | countClear (tag : Byte) (body : List Byte)
  /-- One byte arrives on CRX (R182). -/
  | controlByte (b : Byte)
  deriving DecidableEq, Repr

end Sys2Proof
end

