-- ==== Sys2Proof/WellFormed.lean ====
section
/-! DEFINITION. Which commands can be: a request body fits LEN, an UNKNOWN frame's code is in no catalogue row, the source
of a qualification or of a block end taken first is a level source, and a discard for LEN names a LEN outside its range. -/

namespace Sys2Proof

/-- The 38 codes of the message catalogue (section 11.5). -/
def catalogue : List Byte :=
  [0x01, 0x02, 0x03, 0x10, 0x11, 0x12, 0x13, 0x20, 0x21, 0x22, 0x23,
   0x30, 0x31, 0x32, 0x33, 0x34, 0x35, 0x36, 0x37, 0x38, 0x40, 0x41, 0x42,
   0x50, 0x51, 0x52, 0x53, 0x54, 0x60, 0x61, 0x62, 0x63, 0x64, 0x65, 0x66, 0x70, 0x71, 0x72]

/-- A request body is 0 to 250 bytes (R181). -/
def bodyFits (body : List Byte) : Bool := decide (body.length ≤ 250)

/-- LEN is 2 to 252 (R181). -/
def lenInRange (len : Byte) : Bool := decide (2 ≤ len.toNat ∧ len.toNat ≤ 252)

/-- Source n follows a condition: SILENCE, LOUD_HIGH, LOUD_LOW, LOCK or FRAME_REF (R143). -/
def isLevelSource (n : Nat) : Bool :=
  if n < 40 then decide (n % 5 < 3) else if n < 56 then n % 2 == 0 else n == 57

/-- The check of a command before it is given to the part. -/
def Instr.wellFormed : Instr → Bool
  | .powerOnReset | .startUpEnd | .frameArrival _ _ _ | .houseSample _ _ _ | .blockEnd | .moveEnd _ | .appliedGainStep _
  | .frameReferenceAbsent | .pageClearStep _ | .cueTimeout _ | .contactRelease _ | .interByteGap
  | .replySent | .resetTakesEffect | .controlByte _ => true
  | .sourceQualifies n | .sourceLosesQualification n => isLevelSource n
  | .requestFrameDiscard (.badLen len) => !lenInRange len
  | .requestFrameDiscard .badCheck | .requestFrameDiscard .holdingFull => true
  | .unknown code _ body => !catalogue.contains code && bodyFits body
  | .identify _ body | .reset _ body | .houseStatus _ body | .linkSet _ body | .linkStatus _ body | .routeSet _ body
  | .routeGet _ body | .progOpen _ body | .progClose _ body | .progStatus _ body | .progGroup _ body | .moveSet _ body
  | .moveGo _ body | .moveDiscard _ body | .moveHold _ body | .moveFinish _ body | .moveResume _ body
  | .moveHoldall _ body | .moveStatus _ body | .moveReports _ body | .cueSet _ body | .cueFire _ body
  | .snapRead _ body | .loudSet _ body | .loudRead _ body | .loudRestart _ body | .gainSet _ body | .gainRead _ body
  | .almSet _ body | .almNext _ body | .almLook _ body | .almClose _ body | .almLevel _ body | .almList _ body
  | .contactSet _ body | .countSet _ body | .countRead _ body | .countClear _ body => bodyFits body

end Sys2Proof
end

