-- ==== Sys2Proof/Machine/State.lean ====
section
/-! DEFINITION. The state of the part as plain data, block by block, with the values after power-on reset, and the machine's
faults and refusals. -/

namespace Sys2Proof.Machine

/-! ### Input links (chapter 1) and rate converters (chapter 2) -/

/-- Treatment of a frame with parity_ok false (R2). -/
inductive ParityPolicy where
  | pass | substitute | zero
  deriving DecidableEq, Repr

/-- Treatment of a slot whose valid flag is false (R2). -/
inductive SlotPolicy where
  | pass | zero
  deriving DecidableEq, Repr

/-- The state of a link receiver (R2). -/
structure Receiver where
  enable : Bool
  parityPolicy : ParityPolicy
  slotPolicy : SlotPolicy
  lastAccepted : Option AudioFrame
  arrivalCount : Nat
  deriving DecidableEq, Repr

/-- The nominal rate families (R23). -/
inductive Family where
  | f32k | f44k1 | f48k | f88k2 | f96k | offNominal
  deriving DecidableEq, Repr

/-- What a converter holds in LOCKED and HOLDOVER and nowhere else: R, N_ref, CL and the family (R14). -/
structure Lock where
  ratio : Nat
  nRef : Nat
  cl : Nat
  family : Family
  deriving DecidableEq, Repr

/-- The converter states, each with what R14 says is present in it: ACQUIRE holds N_prev and the good-window tally,
LOCKED and HOLDOVER the lock, HOLDOVER the bad-window tally. -/
inductive ConvState where
  | off
  | seek
  | acquire (nPrev tally : Nat)
  | locked (k : Lock)
  | holdover (k : Lock) (bad : Nat)
  deriving DecidableEq, Repr

/-- The state of a rate converter (R14). The front of the FIFO is the head of the list. -/
structure Converter where
  state : ConvState
  fifo : List AudioFrame
  readPhase : Nat
  lastRead : Option AudioFrame
  n : Nat
  slipCount : BitVec 16
  notLocked : Bool
  deriving DecidableEq, Repr

/-- One input link: its receiver and its converter. -/
structure Link where
  rx : Receiver
  conv : Converter
  deriving DecidableEq, Repr

/-! ### Lanes, programmes and delay memory (chapter 3) -/

/-- A route table entry (R39). -/
inductive Route where
  | unrouted
  | pair (link slot : Fin 8)
  deriving DecidableEq, Repr

/-- A lane of a programme's lane list with its weight in units of 1/256 (R45). -/
structure LaneWeight where
  lane : Fin 32
  weight : Nat
  deriving DecidableEq, Repr

/-- A run of consecutive pages (R49). -/
structure Extent where
  start : Nat
  len : Nat
  deriving DecidableEq, Repr

/-- What a programme record holds in CLEARING and LIVE and nowhere else (R45). -/
structure Held where
  lanes : List LaneWeight
  rl : Nat
  extent : Extent
  deriving DecidableEq, Repr

/-- A programme's state with what is present in it (R45): CLEARING holds pages left and the house samples counted toward
the next clearing step (R52), LIVE the write index W. -/
inductive Life where
  | closed
  | clearing (h : Held) (pagesLeft count : Nat)
  | live (h : Held) (w : Nat)
  deriving DecidableEq, Repr

inductive ReportPolicy where
  | overwrite | block
  deriving DecidableEq, Repr

/-! ### Move units (chapter 4) -/

/-- The kind of a move with the field present for it (R65): the fade length F, the rate r. -/
inductive MoveKind where
  | jump
  | fade (length : Nat)
  | glide (rate : Nat)
  deriving DecidableEq, Repr

/-- A move record (R65). -/
structure MoveRecord where
  tag : Byte
  kind : MoveKind
  target : Nat
  cued : Bool
  clamped : Bool
  deriving DecidableEq, Repr

inductive Phase where
  | none | fadeOut | fadeIn | fadeBack
  deriving DecidableEq, Repr

inductive MoveOutcome where
  | reached | halted | cancelled | cueMissed
  deriving DecidableEq, Repr

/-- The outcome CANCELLED kept while the unit waits for a report slot, with the D_cur and HSC of the hold (R80). -/
structure Decided where
  dcur : Nat
  hsc : Stamp
  deriving DecidableEq, Repr

/-- The move states, each with the current record and what R62 says is present in it. -/
inductive MoveState where
  | still
  | moving (r : MoveRecord) (phase : Phase) (fadePos : Nat)
  | cueWait (r : MoveRecord) (count : Nat)
  | readWait (r : MoveRecord) (decided : Option Decided)
  | halted (r : MoveRecord)
  deriving DecidableEq, Repr

/-- The staged slot (R62). -/
inductive Staged where
  | empty
  | draft (r : MoveRecord)
  | committed (r : MoveRecord)
  deriving DecidableEq, Repr

/-- The report of a move (R83). -/
structure Report where
  tag : Byte
  kind : MoveKind
  outcome : MoveOutcome
  dcur : Nat
  hsc : Stamp
  clamped : Bool
  deriving DecidableEq, Repr

/-- The state of a move unit (R62). `pos` is P; D_cur is floor(P / 65,536) at all times (R63). `reports` holds the oldest
and then the newest unread report. -/
structure MoveUnit where
  state : MoveState
  pos : Nat
  staged : Staged
  reports : List Report
  lost : Nat
  deriving DecidableEq, Repr

/-! ### Loudness meters (chapter 6) -/

/-- A binary floating-point number, `sig * 2 ^ exp`, of a 53-bit significand (R107): `sig` is 0 with `exp` 0, or has
exactly 53 bits. R107 gives the exponent no bounds (log entry 10). -/
structure F53 where
  sig : Int
  exp : Int
  deriving DecidableEq, Repr

/-- The memory of one second-order section: its last two inputs and outputs (R107). -/
structure SectionMem where
  x1 : F53
  x2 : F53
  v1 : F53
  v2 : F53
  deriving DecidableEq, Repr

/-- An exact sum of squares, `num / 2 ^ scale` of full scale squared (R108). -/
structure Energy where
  num : Nat
  scale : Nat
  deriving DecidableEq, Repr

/-- What the meter holds for each lane of the lane list (R105). -/
structure LaneMeter where
  shelf : SectionMem
  lowCut : SectionMem
  acc : Energy
  blockMax : Nat
  peakHold : Int
  deriving DecidableEq, Repr

/-- An entry of the block ring: E_p in units of 2^-48 and the suspect flag (R111, R113). -/
structure RingEntry where
  energy : Nat
  suspect : Bool
  deriving DecidableEq, Repr

/-- A histogram bin that is not (0, 0): its level, count and energy sum in units of 2^-50 (R120, R121). -/
structure Bin where
  level : Int
  count : Nat
  sum : Nat
  deriving DecidableEq, Repr

/-- The settings of LOUD.SET, in tenths (R123). -/
structure LoudSettings where
  target : Int
  upper : Int
  lower : Int
  silence : Int
  ceiling : Int
  deriving DecidableEq, Repr

/-- The state of a loudness meter (R105). The newest ring entry is the head of the list; `hist` lists the bins that are
not (0, 0) in rising level order. -/
structure Meter where
  lanes : List LaneMeter
  opening : Bool
  ring : List RingEntry
  n : Nat
  m : Int
  s : Int
  hist : List Bin
  integrated : Option Int
  gate : Option Int
  entered : Nat
  suspects : Nat
  settings : LoudSettings
  deriving DecidableEq, Repr

/-! ### Gain correctors (chapter 7) -/

inductive GainMode where
  | off | track | fixed
  deriving DecidableEq, Repr

inductive Freeze where
  | none | silent | suspect
  deriving DecidableEq, Repr

/-- The settings of GAIN.SET, in tenths (R129). -/
structure GainSettings where
  boost : Int
  cut : Int
  rise : Int
  fall : Int
  fixed : Int
  deriving DecidableEq, Repr

/-- An entry of the gain schedule (R128). -/
structure ScheduleEntry where
  due : Int
  value : Int
  deriving DecidableEq, Repr

/-- The state of a gain corrector (R128). The oldest schedule entry is the head of the list. -/
structure Corrector where
  mode : GainMode
  settings : GainSettings
  g : Int
  schedule : List ScheduleEntry
  taken : Int
  applied : Int
  ramp : Nat
  freeze : Freeze
  clip : Nat
  deriving DecidableEq, Repr

/-- One programme: its record (R45), move unit, meter and corrector. -/
structure Programme where
  life : Life
  dmax : Nat
  low : Nat
  high : Nat
  group : Option (Fin 4)
  policy : ReportPolicy
  move : MoveUnit
  meter : Meter
  gain : Corrector
  deriving DecidableEq, Repr

/-! ### Reference unit, cue groups and snapshots (chapter 5) -/

/-- The state of the reference unit (R88, R90, R93). `started` says whether the first house sample since the reset has
been taken, `blockEndTaken` whether the block end that falls after phase 4,799 has been (R89). The interval history is
oldest first. -/
structure RefUnit where
  started : Bool
  hsc : Stamp
  phase : Nat
  blockNo : BitVec 32
  blockEndTaken : Bool
  frmPrev : Bool
  edgePrev : Option Stamp
  edgeAccepted : Option Stamp
  history : List Nat
  run : Nat
  present : Bool
  cue0Prev : Bool
  cue1Prev : Bool
  deriving DecidableEq, Repr

inductive CueSource where
  | none | cue0 | cue1 | frame | message
  deriving DecidableEq, Repr

/-- A cue-group record (R94). Its member and waiting sets are read from the programmes. -/
structure CueGroup where
  source : CueSource
  timeout : Nat
  restart : Bool
  snapshot : Bool
  armed : Bool
  cueCount : BitVec 16
  deriving DecidableEq, Repr

/-- A member record of a snapshot (R102). -/
structure SnapMember where
  programme : Fin 8
  pathDelay : Nat
  integrated : Option Int
  shortTerm : Int
  applied : Int
  deriving DecidableEq, Repr

/-- A snapshot record (R102). -/
structure Snapshot where
  group : Fin 4
  cueNumber : BitVec 16
  hsc : Stamp
  unread : Bool
  members : List SnapMember
  deriving DecidableEq, Repr

/-- An entry of the snapshot store, with the overrun flag that belongs to the entry (R102). -/
structure SnapEntry where
  snap : Option Snapshot
  overrun : Bool
  deriving DecidableEq, Repr

/-! ### Alarm sources, service and contacts (chapters 8 and 9) -/

/-- A source record (R144); its number, kind and owner are its place in the table (R143). -/
structure Source where
  priority : Nat
  masked : Bool
  raiseTime : Nat
  clearTime : Nat
  condition : Bool
  qualified : Bool
  timer : Nat
  pending : Bool
  accepted : Bool
  again : Bool
  raiseCount : Nat
  lastRaise : Option Stamp
  deriving DecidableEq, Repr

/-- A contact record (R168); ceiling `none` is DISABLED. -/
structure Contact where
  ceiling : Option Nat
  minOn : Nat
  asserted : Bool
  onTime : Nat
  deriving DecidableEq, Repr

/-! ### Statistics bank (chapter 10) -/

/-- The counting events (section 10.1). -/
inductive CountEvent where
  | frameSubst | slotInvalid | slip | lockLoss | fifoOcc | clipped | gainLate | gainSkipped | moveDone | reportLost
  | cueTaken | blockFrozen | controlErr | memOcc | alarmRaise | blocks
  deriving DecidableEq, Repr

inductive CountMode where
  | wrap | saturate
  deriving DecidableEq, Repr

/-- A counter record (R174); event `none` is NONE, and bit k of the qualifier is 1 when owner k is in the set. -/
structure Counter where
  event : Option CountEvent
  qualifier : BitVec 8
  mode : CountMode
  clearOnRead : Bool
  alarmEnable : Bool
  value : BitVec 32
  half : Bool
  deriving DecidableEq, Repr

/-! ### Control port (chapter 11) -/

inductive RxState where
  | hunt | length | collect
  deriving DecidableEq, Repr

/-- A checked request frame (R181). -/
structure Request where
  tag : Byte
  code : Byte
  body : List Byte
  deriving DecidableEq, Repr

/-- The state of the control port (R181). `reception` holds the bytes of the frame now arriving from LEN onward, `holding`
the frame in hand and then the frame waiting, `reply` the bytes of the reply in progress. -/
structure Port where
  rx : RxState
  reception : List Byte
  holding : List Request
  reply : Option (List Byte)
  deriving DecidableEq, Repr

/-- A unit that has already taken its share of the house sample or block end now due (the model's own, log entry 4). -/
inductive Ahead where
  | move (p : Fin 8)
  | gain (p : Fin 8)
  | clear (p : Fin 8)
  | frameRef
  | cueWait (p : Fin 8)
  | source (n : Fin 59)
  | contact (c : Fin 4)
  deriving DecidableEq, Repr

/-! ### The whole part -/

/-- The state of the part. `attn` and each contact's `asserted` are the pins; `outLinks` are the frames OL0 to OL3 sent at
the last house sample, `outPipe` the lane outputs on their way to them, oldest first (R44); `feeds` the links that fed
each lane in the current block (R42). `pending` is the queue of commands and `ahead` the model's own mark (log 4). -/
structure State where
  links : Vector Link 8
  routes : Vector Route 32
  feeds : Vector (List (Fin 8)) 32
  progs : Vector Programme 8
  freeList : List Extent
  mem : List (Nat × Slot)
  outPipe : List (Vector Slot 32)
  outLinks : Vector AudioFrame 4
  ref : RefUnit
  groups : Vector CueGroup 4
  snaps : Vector SnapEntry 4
  sources : Vector Source 59
  threshold : Nat
  attn : Bool
  contacts : Vector Contact 4
  counters : Vector Counter 8
  port : Port
  startUp : Bool
  ahead : List Ahead
  pending : List Instr
  deriving DecidableEq, Repr

/-- What stops the machine. -/
inductive Fault where
  /-- Raised by HOUSE_SAMPLE and PAGE_CLEAR_STEP when the extent of an open programme reaches past page 4,095, or its
  rings past its extent: pages the spec says do not exist. No opening makes such an extent (R49, R50). Safe: the part
  goes on nowhere the model stops, since no run reaches it (log entry 9). -/
  | extentOutsideMemory (p : Fin 8)
  deriving DecidableEq, Repr

/-- Why a command has no meaning. -/
inductive Refusal where
  /-- A command whose arm has no meaning yet; no arm answers it. Safe. -/
  | notModelled (mnemonic : String)
  deriving DecidableEq, Repr

/-! ### Values after power-on reset -/

/-- R2, last column. -/
def Receiver.reset : Receiver :=
  { enable := false, parityPolicy := .substitute, slotPolicy := .pass, lastAccepted := none, arrivalCount := 0 }

/-- R14, last column. -/
def Converter.reset : Converter :=
  { state := .off, fifo := [], readPhase := 0, lastRead := none, n := 0, slipCount := 0, notLocked := true }

def Link.reset : Link := ⟨Receiver.reset, Converter.reset⟩

/-- R62, last column. -/
def MoveUnit.reset : MoveUnit := { state := .still, pos := 0, staged := .empty, reports := [], lost := 0 }

/-- R123, defaults. -/
def LoudSettings.defaults : LoudSettings :=
  { target := -230, upper := 20, lower := 40, silence := -500, ceiling := -10 }

/-- R105, reset column. -/
def Meter.reset : Meter :=
  { lanes := [], opening := false, ring := [], n := 0, m := -1000, s := -1000, hist := [], integrated := none,
    gate := none, entered := 0, suspects := 0, settings := LoudSettings.defaults }

/-- R129, defaults. -/
def GainSettings.defaults : GainSettings := { boost := 60, cut := 150, rise := 2, fall := 10, fixed := 0 }

/-- R128, last column. -/
def Corrector.reset : Corrector :=
  { mode := .off, settings := GainSettings.defaults, g := 0, schedule := [], taken := 0, applied := 0, ramp := 0,
    freeze := .none, clip := 0 }

/-- R45, last column, with the programme's units at theirs. -/
def Programme.reset : Programme :=
  { life := .closed, dmax := 0, low := 0, high := 0, group := none, policy := .overwrite, move := MoveUnit.reset,
    meter := Meter.reset, gain := Corrector.reset }

/-- R88, R90 and R93. -/
def RefUnit.reset : RefUnit :=
  { started := false, hsc := 0, phase := 0, blockNo := 0, blockEndTaken := false, frmPrev := true, edgePrev := none,
    edgeAccepted := none, history := [], run := 0, present := false, cue0Prev := true, cue1Prev := true }

/-- R94, last column. -/
def CueGroup.reset : CueGroup :=
  { source := .none, timeout := 100, restart := false, snapshot := false, armed := false, cueCount := 0 }

/-- R144, last column. -/
def Source.reset : Source :=
  { priority := 7, masked := false, raiseTime := 0, clearTime := 0, condition := false, qualified := false, timer := 0,
    pending := false, accepted := false, again := false, raiseCount := 0, lastRaise := none }

/-- R168, last column. -/
def Contact.reset : Contact := { ceiling := none, minOn := 0, asserted := false, onTime := 0 }

/-- R174, last column. -/
def Counter.reset : Counter :=
  { event := none, qualifier := 0, mode := .wrap, clearOnRead := false, alarmEnable := false, value := 0, half := false }

/-- R181, last column. -/
def Port.reset : Port := { rx := .hunt, reception := [], holding := [], reply := none }

/-- The part right after power-on reset: every block at its reset values, the start-up period running (R187), nothing
pending. No word of delay memory is listed (log entry 8). -/
def State.reset : State where
  links := Vector.replicate 8 Link.reset
  routes := Vector.replicate 32 Route.unrouted
  feeds := Vector.replicate 32 []
  progs := Vector.replicate 8 Programme.reset
  freeList := [⟨0, Config.pages⟩]
  mem := []
  outPipe := List.replicate 8 (Vector.replicate 32 Slot.silent)
  outLinks := Vector.replicate 4 silentFrame
  ref := RefUnit.reset
  groups := Vector.replicate 4 CueGroup.reset
  snaps := Vector.replicate 4 ⟨none, false⟩
  sources := Vector.replicate 59 Source.reset
  threshold := 7
  attn := false
  contacts := Vector.replicate 4 Contact.reset
  counters := Vector.replicate 8 Counter.reset
  port := Port.reset
  startUp := true
  ahead := []
  pending := []

end Sys2Proof.Machine
end

