-- ==== Sys2Proof/Machine/Arith.lean ====
section
/-! DEFINITION. The arithmetic of the spec: rounding and clamping (00_scope.md), the meter's floating point (R107), levels
(R112, R115) and gain factors (R138). Every logarithm and power is decided exactly, by comparing whole powers. -/

namespace Sys2Proof.Machine

/-! ### Rounding and clamping (00_scope.md, Rounding and clamping) -/

/-- `n / d` rounded, half away from zero. -/
def roundDiv (n : Int) (d : Nat) : Int :=
  if 0 ≤ n then (2 * n + d) / (2 * d) else -((2 * (-n) + d) / (2 * d))

/-- `n / d` rounded half up. -/
def roundHalfUp (n d : Nat) : Nat := (2 * n + d) / (2 * d)

/-- Clamp to `lo`..`hi`. -/
def clampNat (lo hi v : Nat) : Nat := max lo (min hi v)
def clampInt (lo hi v : Int) : Int := max lo (min hi v)

/-- Saturation to the 24-bit range (R139). -/
def saturate24 (v : Int) : Int := clampInt (-8388608) 8388607 v

/-- The greatest `k` of `lo`..`lo + 2 ^ fuel - 1` with `q k`, for a `q` that holds at `lo` and, once false, stays false. -/
def greatest (q : Nat → Bool) : Nat → Nat → Nat
  | 0, lo => lo
  | fuel + 1, lo => if q (lo + 2 ^ fuel) then greatest q fuel (lo + 2 ^ fuel) else greatest q fuel lo

/-! ### Levels -/

/-- `round (100 * log10 (num / den)) ≥ k - 1000`, half away from zero, decided by whole powers: `(num / den) ^ 200`
against `10 ^ (2 * (k - 1000) - 1)`. -/
def centibelAtLeast (num den k : Nat) : Bool :=
  if 1000 < k then decide (10 ^ (2 * (k - 1000) - 1) * den ^ 200 ≤ num ^ 200)
  else decide (den ^ 200 ≤ num ^ 200 * 10 ^ (2 * (1000 - k) + 1))

/-- `round (100 * log10 (num / den))` for an energy of at least 10^-10 (R112). The search spans -1,000 up to a value no
energy of `num` can pass. -/
def centibel (num den : Nat) : Int :=
  (greatest (centibelAtLeast num den) (Nat.log2 (1000 + 31 * (Nat.log2 num + 1)) + 1) 0 : Nat) - 1000

/-- The level of the energy `num / den` in tenths of dBL (R112). -/
def level (num den : Nat) : Int :=
  if num * 10 ^ 10 < den then -1000 else max (-1000) (centibel num den - 7)

/-- `round (200 * log10 (x / 2 ^ 23)) ≥ -k` decided by whole powers. -/
def peakAtLeast (x k : Nat) : Bool := decide ((2 ^ 23) ^ 400 ≤ x ^ 400 * 10 ^ (2 * k + 1))

/-- A lane's block peak in tenths of dBFS, from its block maximum `x`, 0 to 2^23 (R115): the peak is `-k` for the least
`k` with `peakAtLeast x k`, and -1,000 below -1,000. -/
def peakLevel (x : Nat) : Int :=
  if peakAtLeast x 0 then 0
  else if !peakAtLeast x 1000 then -1000
  else -((greatest (fun k => !peakAtLeast x k) 10 0 : Nat) + 1 : Int)

/-! ### Gain factors -/

/-- `g ≤ round (10 ^ (a / 200) * 2 ^ 24)`, decided by whole powers. -/
def gainAtLeast (a : Int) (g : Nat) : Bool :=
  if g = 0 then true
  else decide ((2 * g - 1) ^ 200 * 10 ^ (-a).toNat ≤ 10 ^ a.toNat * 2 ^ 5000)

/-- The gain factor g(a) of R138, below 2^28 for every gain of -300 to +200. -/
def gainFactor (a : Int) : Nat := greatest (gainAtLeast a) 28 0

/-! ### Floating point with a 53-bit significand, rounded to nearest with ties to even (R107) -/

def F53.zero : F53 := ⟨0, 0⟩

/-- The significand `m`, positive, at its 53 bits, with the exponent that goes with it: exact where `m` has no more bits
than 53, rounded to nearest with ties to even where it has. -/
def roundSig (m : Nat) (e : Int) : Nat × Int :=
  let bits := Nat.log2 m + 1
  if bits ≤ 53 then (m * 2 ^ (53 - bits), e - ((53 - bits : Nat) : Int))
  else
    let sh := bits - 53
    let q := m / 2 ^ sh
    let r := m % 2 ^ sh
    let half := 2 ^ (sh - 1)
    let q' := if half < r || (r == half && q % 2 == 1) then q + 1 else q
    if q' = 2 ^ 53 then (2 ^ 52, e + sh + 1) else (q', e + sh)

/-- The number of the format nearest to `n * 2 ^ e`. -/
def F53.ofScaled (n : Int) (e : Int) : F53 :=
  if n = 0 then F53.zero
  else
    let r := roundSig n.natAbs e
    ⟨if n < 0 then -(r.1 : Int) else r.1, r.2⟩

/-- The number of the format nearest to the decimal `n / d`: the quotient to 200 bits past the point, with a last bit that
says whether anything is left over. -/
def F53.ofRatio (n : Int) (d : Nat) : F53 :=
  let m := n.natAbs * 2 ^ 200
  let q := 2 * (m / d) + (if m % d = 0 then 0 else 1)
  F53.ofScaled (if n < 0 then -(q : Int) else q) (-201)

def F53.mul (a b : F53) : F53 := F53.ofScaled (a.sig * b.sig) (a.exp + b.exp)

def F53.add (a b : F53) : F53 :=
  if a.sig = 0 then b
  else if b.sig = 0 then a
  else
    let e := min a.exp b.exp
    F53.ofScaled (a.sig * 2 ^ (a.exp - e).toNat + b.sig * 2 ^ (b.exp - e).toNat) e

def F53.sub (a b : F53) : F53 := F53.add a ⟨-b.sig, b.exp⟩

/-- The magnitude of the number is above 1. -/
def F53.exceedsOne (a : F53) : Bool :=
  if 0 ≤ a.exp then a.sig != 0 && (decide (1 < a.sig.natAbs) || decide (0 < a.exp))
  else decide (2 ^ (-a.exp).toNat < a.sig.natAbs)

/-- The number limited to -1..+1 (R107). -/
def F53.limit (a : F53) : F53 :=
  if a.exceedsOne then ⟨if a.sig < 0 then -(2 ^ 52) else 2 ^ 52, -52⟩ else a

/-- The exact square (R108). -/
def F53.square (a : F53) : Energy := ⟨a.sig.natAbs ^ 2 * 2 ^ (2 * a.exp).toNat, (-(2 * a.exp)).toNat⟩

def Energy.zero : Energy := ⟨0, 0⟩

/-- The exact sum (R108). -/
def Energy.add (a b : Energy) : Energy :=
  let k := max a.scale b.scale
  ⟨a.num * 2 ^ (k - a.scale) + b.num * 2 ^ (k - b.scale), k⟩

/-! ### The weighting filter (R107) -/

/-- The coefficients of one second-order section. -/
structure Coeffs where
  b0 : F53
  b1 : F53
  b2 : F53
  a1 : F53
  a2 : F53

/-- The high-frequency shelf. -/
def shelfCoeffs : Coeffs :=
  { b0 := F53.ofRatio 153512485958697 (10 ^ 14), b1 := F53.ofRatio (-269169618940638) (10 ^ 14),
    b2 := F53.ofRatio 119839281085285 (10 ^ 14), a1 := F53.ofRatio (-169065929318241) (10 ^ 14),
    a2 := F53.ofRatio 73248077421585 (10 ^ 14) }

/-- The low cut. -/
def lowCutCoeffs : Coeffs :=
  { b0 := F53.ofRatio 1 1, b1 := F53.ofRatio (-2) 1, b2 := F53.ofRatio 1 1,
    a1 := F53.ofRatio (-199004745483398) (10 ^ 14), a2 := F53.ofRatio 99007225036621 (10 ^ 14) }

def SectionMem.zero : SectionMem := ⟨F53.zero, F53.zero, F53.zero, F53.zero⟩

/-- One section's output for the input `x`: products, sums and differences from left to right (R107). -/
def sectionOut (c : Coeffs) (m : SectionMem) (x : F53) : F53 :=
  (((F53.mul c.b0 x |>.add (F53.mul c.b1 m.x1)).add (F53.mul c.b2 m.x2)).sub (F53.mul c.a1 m.v1)).sub
    (F53.mul c.a2 m.v2)

/-- The section's memory after the input `x` gave the output `v`. -/
def SectionMem.push (m : SectionMem) (x v : F53) : SectionMem := ⟨x, m.x1, v, m.v1⟩

end Sys2Proof.Machine
end

