-- ==== Sys2Proof/Machine/Ops.lean ====
section
/-! DEFINITION. The named operations over the parts of the state, delay memory, the page allocator's list, and the
big-endian bytes of replies. -/

namespace Sys2Proof.Machine

/-! ### Reading and writing the parts of the state -/

def State.link (s : State) (l : Fin 8) : Link := s.links[l]
def State.setLink (s : State) (l : Fin 8) (x : Link) : State := { s with links := s.links.set l x }
def State.setRx (s : State) (l : Fin 8) (x : Receiver) : State := s.setLink l { s.link l with rx := x }
def State.setConv (s : State) (l : Fin 8) (x : Converter) : State := s.setLink l { s.link l with conv := x }

def State.prog (s : State) (p : Fin 8) : Programme := s.progs[p]
def State.setProg (s : State) (p : Fin 8) (x : Programme) : State := { s with progs := s.progs.set p x }
def State.setMove (s : State) (p : Fin 8) (x : MoveUnit) : State := s.setProg p { s.prog p with move := x }
def State.setMeter (s : State) (p : Fin 8) (x : Meter) : State := s.setProg p { s.prog p with meter := x }
def State.setGain (s : State) (p : Fin 8) (x : Corrector) : State := s.setProg p { s.prog p with gain := x }
def State.setLife (s : State) (p : Fin 8) (x : Life) : State := s.setProg p { s.prog p with life := x }

def State.group (s : State) (g : Fin 4) : CueGroup := s.groups[g]
def State.setGroup (s : State) (g : Fin 4) (x : CueGroup) : State := { s with groups := s.groups.set g x }
def State.snap (s : State) (g : Fin 4) : SnapEntry := s.snaps[g]
def State.setSnap (s : State) (g : Fin 4) (x : SnapEntry) : State := { s with snaps := s.snaps.set g x }

def State.source (s : State) (n : Fin 59) : Source := s.sources[n]
def State.contact (s : State) (c : Fin 4) : Contact := s.contacts[c]
def State.setContact (s : State) (c : Fin 4) (x : Contact) : State := { s with contacts := s.contacts.set c x }
def State.counter (s : State) (c : Fin 8) : Counter := s.counters[c]
def State.setCounter (s : State) (c : Fin 8) (x : Counter) : State := { s with counters := s.counters.set c x }

def State.route (s : State) (n : Fin 32) : Route := s.routes[n]

/-- Apply a step to every index in turn, from 0 upward. -/
def forEach (n : Nat) (f : Fin n → State → State) (s : State) : State := (List.finRange n).foldl (fun t i => f i t) s

/-! ### What is read from a record -/

/-- The lock a converter holds: present in LOCKED and HOLDOVER (R14). -/
def ConvState.lock? : ConvState → Option Lock
  | .locked k => some k
  | .holdover k _ => some k
  | .off | .seek | .acquire _ _ => none

/-- CL: present in LOCKED and HOLDOVER, absent otherwise (R32). -/
def Converter.cl (c : Converter) : Option Nat := c.state.lock?.map Lock.cl

/-- The window tally: good windows in ACQUIRE, bad windows in HOLDOVER, otherwise 0 (R14). -/
def ConvState.tally : ConvState → Nat
  | .acquire _ t => t
  | .holdover _ b => b
  | .off | .seek | .locked _ => 0

def ConvState.isLocked : ConvState → Bool
  | .locked _ => true
  | .off | .seek | .acquire _ _ | .holdover _ _ => false

def ConvState.isOff : ConvState → Bool
  | .off => true
  | .seek | .acquire _ _ | .locked _ | .holdover _ _ => false

/-- What the programme holds in CLEARING and LIVE. -/
def Life.held? : Life → Option Held
  | .closed => none
  | .clearing h _ _ => some h
  | .live h _ => some h

def Life.isLive : Life → Bool
  | .live _ _ => true
  | .closed | .clearing _ _ _ => false

def Life.isClosed : Life → Bool
  | .closed => true
  | .clearing _ _ _ | .live _ _ => false

/-- The lane list: empty when CLOSED (R45). -/
def Life.lanes (x : Life) : List LaneWeight := (x.held?.map Held.lanes).getD []

def Life.pagesLeft : Life → Nat
  | .clearing _ k _ => k
  | .closed | .live _ _ => 0

/-- The number of a lane is in the list. -/
def hasLane (ls : List LaneWeight) (n : Fin 32) : Bool := ls.any (fun x => x.lane == n)

/-- D_cur is floor(P / 65,536) at all times (R63). -/
def MoveUnit.dcur (u : MoveUnit) : Nat := u.pos / 65536

def MoveState.isCueWait : MoveState → Bool
  | .cueWait _ _ => true
  | .still | .moving _ _ _ | .readWait _ _ | .halted _ => false

/-- The member set of a group: the programmes in CLEARING or LIVE whose group it is, in programme order (R94). -/
def State.members (s : State) (g : Fin 4) : List (Fin 8) :=
  (List.finRange 8).filter (fun p => !(s.prog p).life.isClosed && (s.prog p).group == some g)

/-- The waiting set of a group: the members whose move unit is in CUE_WAIT, in programme order (R94). -/
def State.waiting (s : State) (g : Fin 4) : List (Fin 8) :=
  (s.members g).filter (fun p => (s.prog p).move.state.isCueWait)

/-! ### Delay memory (chapter 3) -/

/-- What a word that is not listed reads as (log entry 8). -/
def unlistedWord : Slot := Slot.silent

/-- The word at an address. -/
def readWord : List (Nat × Slot) → Nat → Slot
  | [], _ => unlistedWord
  | (k, v) :: t, a => if k = a then v else readWord t a

/-- Write a word, keeping addresses rising and listing no word that equals an unlisted one. -/
def writeWord : List (Nat × Slot) → Nat → Slot → List (Nat × Slot)
  | [], a, v => if v = unlistedWord then [] else [(a, v)]
  | (k, w) :: t, a, v =>
    if a < k then (if v = unlistedWord then (k, w) :: t else (a, v) :: (k, w) :: t)
    else if a = k then (if v = unlistedWord then t else (a, v) :: t)
    else (k, w) :: writeWord t a v

/-- Write sample 0 with valid flag false to every word of a page (R52). -/
def clearPage (m : List (Nat × Slot)) (page : Nat) : List (Nat × Slot) :=
  m.filter (fun c => decide (c.1 < page * Config.pageWords) || decide ((page + 1) * Config.pageWords ≤ c.1))

/-- The canonical form of delay memory: addresses strictly rising, all within memory, no word listed that equals an
unlisted one. -/
def memWf (m : List (Nat × Slot)) : Bool :=
  decide (m.Pairwise (fun a b => a.1 < b.1)) && m.all (fun c => decide (c.1 < Config.memWords) && c.2 != unlistedWord)

/-- The address of position `j` of the ring of the `k`-th lane (R55). -/
def ringAddr (h : Held) (k j : Nat) : Nat := (h.extent.start + k * (h.rl / Config.pageWords)) * Config.pageWords + j

/-- The pages of an open programme lie within memory and its rings within its extent (R45, R49). -/
def Life.extentInside : Life → Bool
  | .closed => true
  | .clearing h left _ => decide (h.extent.start + h.extent.len ≤ Config.pages) && decide (left ≤ h.extent.len)
  | .live h _ =>
    decide (h.extent.start + h.extent.len ≤ Config.pages) && decide (0 < h.rl) && decide (h.rl % Config.pageWords = 0)
      && decide (h.lanes.length * (h.rl / Config.pageWords) ≤ h.extent.len)

/-- The first programme whose pages do not lie within memory. -/
def State.extentOutside? (s : State) : Option (Fin 8) :=
  (List.finRange 8).find? (fun p => !(s.prog p).life.extentInside)

/-! ### The page allocator's list (R49 to R51) -/

/-- First fit from the lowest start page: the granted start page and the list that is left (R50). -/
def allocate : List Extent → Nat → Option (Nat × List Extent)
  | [], _ => none
  | e :: t, n =>
    if n = e.len then some (e.start, t)
    else if n < e.len then some (e.start, ⟨e.start + n, e.len - n⟩ :: t)
    else (allocate t n).map (fun r => (r.1, e :: r.2))

/-- Return an extent in start-page order, merged with its neighbours (R51). -/
def release : List Extent → Extent → List Extent
  | [], x => [x]
  | e :: t, x =>
    if x.start + x.len = e.start then ⟨x.start, x.len + e.len⟩ :: t
    else if x.start < e.start then x :: e :: t
    else if e.start + e.len = x.start then
      match t with
      | [] => [⟨e.start, e.len + x.len⟩]
      | f :: t' =>
        if x.start + x.len = f.start then ⟨e.start, e.len + x.len + f.len⟩ :: t'
        else ⟨e.start, e.len + x.len⟩ :: f :: t'
    else e :: release t x

/-- Free pages, the sum of the free-extent lengths (R54). -/
def freePages (fl : List Extent) : Nat := (fl.map Extent.len).sum

/-! ### Counts -/

/-- Add 1, staying at `top` once there. -/
def satInc (top n : Nat) : Nat := if n < top then n + 1 else top

/-! ### Big-endian bytes of replies (R191) -/

def byte1 (n : Nat) : List Byte := [BitVec.ofNat 8 n]
def byte2 (n : Nat) : List Byte := [BitVec.ofNat 8 (n / 256), BitVec.ofNat 8 n]
def byte4 (n : Nat) : List Byte :=
  [BitVec.ofNat 8 (n / 16777216), BitVec.ofNat 8 (n / 65536), BitVec.ofNat 8 (n / 256), BitVec.ofNat 8 n]

/-- A signed 16-bit number in two's complement. -/
def signed2 (v : Int) : List Byte := byte2 (v % 65536).toNat

/-- A flag: 0x00 no, 0x01 yes. -/
def flagByte (b : Bool) : List Byte := [if b then 0x01 else 0x00]

/-- An optional field with its presence byte. -/
def optField {α : Type} (f : α → List Byte) : Option α → List Byte
  | none => [0x00]
  | some x => 0x01 :: f x

/-- A list with its count. -/
def listField {α : Type} (f : α → List Byte) (xs : List α) : List Byte :=
  BitVec.ofNat 8 xs.length :: xs.flatMap f

end Sys2Proof.Machine
end

