-- ==== Sys2Proof/Machine/Flags.lean ====
section
/-! DEFINITION. The flags the blocks share: counters and half flags (chapter 10), alarm sources with their qualification and
raises (chapter 8), eligibility and ATTN, and the demand of the contacts (chapter 9). Every change of a source record goes
through `State.setSource`, which judges ATTN and the contacts again. -/

namespace Sys2Proof.Machine

/-! ### Eligibility, ATTN and contacts -/

/-- The accept level: the lowest priority number among accepted sources, 8 when there is none (R158). -/
def acceptLevel (src : Vector Source 59) : Nat :=
  src.toList.foldl (fun m r => if r.accepted && decide (r.priority < m) then r.priority else m) 8

/-- A source is eligible under an accept level and a threshold (R159). -/
def Source.eligible (lvl thr : Nat) (r : Source) : Bool :=
  r.pending && !r.masked && decide (r.priority < lvl) && decide (r.priority ≤ thr)

/-- At least one source is eligible (R159). -/
def anyEligible (src : Vector Source 59) (thr : Nat) : Bool :=
  src.toList.any (Source.eligible (acceptLevel src) thr)

/-- The demand of a contact with this ceiling (R169). -/
def demand (src : Vector Source 59) : Option Nat → Bool
  | none => false
  | some c => src.toList.any (fun r => (r.pending || r.accepted) && !r.masked && decide (r.priority ≤ c))

/-- A contact judged under a demand: it asserts when the demand is true, and releases when it is false and the on-time
count has reached the minimum (R169, R170). -/
def Contact.judge (d : Bool) (c : Contact) : Contact :=
  if d && !c.asserted then { c with asserted := true, onTime := 0 }
  else if !d && c.asserted && decide (c.minOn ≤ c.onTime) then { c with asserted := false, onTime := 0 }
  else c

/-- ATTN and every contact judged again (R159, R169). -/
def State.judge (s : State) : State :=
  { s with attn := anyEligible s.sources s.threshold
           contacts := s.contacts.map (fun c => c.judge (demand s.sources c.ceiling)) }

/-- Replace a source record and judge ATTN and the contacts again. -/
def State.setSource (s : State) (n : Fin 59) (r : Source) : State :=
  State.judge { s with sources := s.sources.set n r }

/-! ### Counters -/

/-- The owner kind of a counting event is none (section 10.1). -/
def CountEvent.ownerless : CountEvent → Bool
  | .controlErr | .memOcc | .alarmRaise | .blocks => true
  | .frameSubst | .slotInvalid | .slip | .lockLoss | .fifoOcc | .clipped | .gainLate | .gainSkipped | .moveDone
  | .reportLost | .cueTaken | .blockFrozen => false

/-- The counter matches the event (R175). -/
def Counter.matchesEvent (c : Counter) (e : CountEvent) (owner : Option (Fin 8)) : Bool :=
  c.event == some e &&
    (c.qualifier == 0 || match owner with
      | some k => c.qualifier.getLsbD k
      | none => false)

/-- The value after an amount is added (R175). -/
def Counter.sum (c : Counter) (amount : Nat) : Nat :=
  match c.mode with
  | .wrap => (c.value.toNat + amount) % 4294967296
  | .saturate => min (c.value.toNat + amount) Config.max32

/-- The addition takes the value from below 2^31 to 2^31 or above while the half flag is clear (R176). -/
def Counter.crosses (c : Counter) (amount : Nat) : Bool :=
  !c.half && decide (c.value.toNat < 2147483648) && decide (2147483648 ≤ c.sum amount)

/-- A counter offered an event (R175, R176). -/
def Counter.offer (e : CountEvent) (owner : Option (Fin 8)) (amount : Nat) (c : Counter) : Counter :=
  if c.matchesEvent e owner then
    { c with value := BitVec.ofNat 32 (c.sum amount), half := c.half || c.crosses amount }
  else c

/-- The counter sends a COUNTER latched event when offered the event (R176). -/
def Counter.alarms (e : CountEvent) (owner : Option (Fin 8)) (amount : Nat) (c : Counter) : Bool :=
  c.matchesEvent e owner && c.crosses amount && c.alarmEnable

/-- The event offered to all eight counters, without the COUNTER events it causes. -/
def State.offerEvent (s : State) (e : CountEvent) (owner : Option (Fin 8)) (amount : Nat) : State :=
  { s with counters := s.counters.map (Counter.offer e owner amount) }

/-- How many COUNTER latched events the event causes. -/
def State.counterAlarms (s : State) (e : CountEvent) (owner : Option (Fin 8)) (amount : Nat) : Nat :=
  s.counters.toList.countP (Counter.alarms e owner amount)

/-! ### Raises -/

/-- The raise count and the stamp of a raise (R153 steps 1 and 2). -/
def Source.raised (hsc : Stamp) (r : Source) : Source :=
  { r with raiseCount := satInc 255 r.raiseCount, lastRaise := some hsc }

/-- The flags after a latched event: pending on a source not accepted, repeat on an accepted one (R152). -/
def Source.latched (r : Source) : Source :=
  if r.accepted then { r with again := true } else { r with pending := true }

/-- The source that COUNTER latched events reach (R143). -/
def counterSource : Fin 59 := 56

/-- A latched event at a source, but for its ALARM_RAISE counting event (R152, R153). -/
def State.latchFlags (s : State) (n : Fin 59) : State := s.setSource n ((s.source n).raised s.ref.hsc).latched

/-- `k` COUNTER latched events, but for their ALARM_RAISE counting events. -/
def State.latchCounter : Nat → State → State
  | 0, s => s
  | k + 1, s => State.latchCounter k (s.latchFlags counterSource)

/-- Count the ALARM_RAISE events of `k` raises. Such a count may take a counter to half range and so raise source 56,
which is a raise in its turn (R176, last paragraph). A counter crosses half range once, so eight raises can follow at
most, and the fuel of 9 is never spent by fewer than that. -/
def countRaises : Nat → Nat → State → State
  | 0, _, s => s
  | _ + 1, 0, s => s
  | fuel + 1, k + 1, s =>
    let j := s.counterAlarms .alarmRaise none 1
    countRaises fuel (k + j) (State.latchCounter j (s.offerEvent .alarmRaise none 1))

/-- A latched event at a source (R152, R153). -/
def State.latch (s : State) (n : Fin 59) : State := countRaises 9 1 (s.latchFlags n)

/-- A counting event arrives at the statistics bank (R175, R176). -/
def State.count (s : State) (e : CountEvent) (owner : Option (Fin 8)) (amount : Nat) : State :=
  let j := s.counterAlarms e owner amount
  countRaises 9 j (State.latchCounter j (s.offerEvent e owner amount))

/-! ### Level sources -/

/-- The kind of a source (R143). -/
def sourceIsLevel (n : Fin 59) : Bool :=
  if n.val < 40 then decide (n.val % 5 < 3) else if n.val < 56 then n.val % 2 == 0 else n.val == 57

/-- The record of a level source that qualifies (R149): qualified, its timer stopped, raised, and pending unless accepted. -/
def Source.qualifiedAt (hsc : Stamp) (r : Source) : Source :=
  { r.raised hsc with qualified := true, timer := 0, pending := r.pending || !r.accepted }

/-- The record of a level source that loses qualification (R150). -/
def Source.unqualified (r : Source) : Source := { r with qualified := false, timer := 0, pending := false }

/-- A level source qualifies (R149). -/
def State.qualify (s : State) (n : Fin 59) : State := countRaises 9 1 (s.setSource n ((s.source n).qualifiedAt s.ref.hsc))

/-- A level source loses qualification (R150). -/
def State.loseQualification (s : State) (n : Fin 59) : State := s.setSource n (s.source n).unqualified

/-- A condition report at a level source (R145 to R147). -/
def State.report (s : State) (n : Fin 59) (v : Bool) : State :=
  let r := s.source n
  if r.condition = v then s
  else
    let s := s.setSource n { r with condition := v, timer := 0 }
    if v then (if !r.qualified && r.raiseTime == 0 then s.qualify n else s)
    else (if r.qualified && r.clearTime == 0 then s.loseQualification n else s)

/-- The running timer of a level source is at or past its end: a raise timer (first) or a clear timer (second). -/
def Source.raiseOver (r : Source) (count : Nat) : Bool := r.condition && !r.qualified && decide (r.raiseTime ≤ count)
def Source.clearOver (r : Source) (count : Nat) : Bool := !r.condition && r.qualified && decide (r.clearTime ≤ count)

/-- The timer step of one level source at a block end (R148). -/
def State.timerStep (s : State) (n : Fin 59) : State :=
  let r := s.source n
  if r.condition == r.qualified then s
  else if r.raiseOver (r.timer + 1) then s.qualify n
  else if r.clearOver (r.timer + 1) then s.loseQualification n
  else s.setSource n { r with timer := r.timer + 1 }

/-! ### Source numbers (R143) -/

def silenceSource (p : Fin 8) : Fin 59 := ⟨p * 5, by omega⟩
def loudHighSource (p : Fin 8) : Fin 59 := ⟨p * 5 + 1, by omega⟩
def loudLowSource (p : Fin 8) : Fin 59 := ⟨p * 5 + 2, by omega⟩
def overloadSource (p : Fin 8) : Fin 59 := ⟨p * 5 + 3, by omega⟩
def moveSource (p : Fin 8) : Fin 59 := ⟨p * 5 + 4, by omega⟩
def lockSource (l : Fin 8) : Fin 59 := ⟨40 + l * 2, by omega⟩
def slipSource (l : Fin 8) : Fin 59 := ⟨41 + l * 2, by omega⟩
def frameRefSource : Fin 59 := 57
def controlSource : Fin 59 := 58

end Sys2Proof.Machine
end

