-- ==== Sys2Proof/Machine/Operands.lean ====
section
/-! DEFINITION. Reading request bodies (R191): numbers most significant byte first, presence bytes, flags and enumeration
codes (section 12.2); statuses (R186); and the answer an owning block hands back (R185). -/

namespace Sys2Proof.Machine

/-! ### Statuses and answers -/

/-- The status codes (R186). -/
inductive Status where
  | ok | adjusted | empty | unknown | malformed | range | state | noSpace | committed | inUse
  deriving DecidableEq, Repr

def statusCode : Status → Byte
  | .ok => 0x00 | .adjusted => 0x01 | .empty => 0x02 | .unknown => 0x10 | .malformed => 0x11 | .range => 0x12
  | .state => 0x13 | .noSpace => 0x14 | .committed => 0x15 | .inUse => 0x16

/-- What the owning block hands back for a request: the state it leaves, a status and a reply body (R185). -/
structure Answer where
  state : State
  status : Status
  body : List Byte
  deriving DecidableEq, Repr

/-- A refusal changes no state and carries an empty body (R185, R186). -/
def refuse (s : State) (st : Status) : Answer := ⟨s, st, []⟩

/-- ADJUSTED when something was clamped, OK otherwise (R186). -/
def okOrAdjusted (clamped : Bool) : Status := if clamped then .adjusted else .ok

/-! ### Numbers -/

def nat2 (a b : Byte) : Nat := a.toNat * 256 + b.toNat
def nat4 (a b c d : Byte) : Nat := ((a.toNat * 256 + b.toNat) * 256 + c.toNat) * 256 + d.toNat

/-- A signed 16-bit number. -/
def int2 (a b : Byte) : Int := (a ++ b).toInt

/-- A flag byte: 0x00 or 0x01 and nothing else (R191). -/
def readFlag (b : Byte) : Option Bool := if b = 0x00 then some false else if b = 0x01 then some true else none

/-- An optional 16-bit field with its presence byte, and what follows it (R191). -/
def readOpt2 : List Byte → Option (Option Nat × List Byte)
  | p :: rest =>
    if p = 0x00 then some (none, rest)
    else if p = 0x01 then
      match rest with
      | a :: b :: rest' => some (some (nat2 a b), rest')
      | _ => none
    else none
  | [] => none

/-- An identifier below `n`. -/
def readId (n : Nat) (b : Byte) : Option (Fin n) := if h : b.toNat < n then some ⟨b.toNat, h⟩ else none

/-! ### Enumeration codes of request fields (section 12.2) -/

def readParityPolicy (b : Byte) : Option ParityPolicy :=
  if b = 0x00 then some .pass else if b = 0x01 then some .substitute else if b = 0x02 then some .zero else none

def readSlotPolicy (b : Byte) : Option SlotPolicy :=
  if b = 0x00 then some .pass else if b = 0x02 then some .zero else none

def readReportPolicy (b : Byte) : Option ReportPolicy :=
  if b = 0x00 then some .overwrite else if b = 0x01 then some .block else none

/-- A group: G0 to G3, or none as 0xFF; any other byte is a group number above 3. -/
def readGroup (b : Byte) : Option (Option (Fin 4)) :=
  if b = 0xFF then some none else (readId 4 b).map some

/-- The three kinds of a move as MOVE.SET names them (section 12.2). -/
inductive KindCode where
  | jump | fade | glide
  deriving DecidableEq, Repr

def readKind (b : Byte) : Option KindCode :=
  if b = 0x00 then some .jump else if b = 0x01 then some .fade else if b = 0x02 then some .glide else none

/-- The units of a MOVE.SET target (R66). -/
inductive TargetUnit where
  | samples | tenthsMs | frames
  deriving DecidableEq, Repr

def readUnit (b : Byte) : Option TargetUnit :=
  if b = 0x00 then some .samples else if b = 0x01 then some .tenthsMs else if b = 0x02 then some .frames else none

def readCueSource (b : Byte) : Option CueSource :=
  if b = 0x00 then some .none else if b = 0x01 then some .cue0 else if b = 0x02 then some .cue1
  else if b = 0x03 then some .frame else if b = 0x04 then some .message else none

def readGainMode (b : Byte) : Option GainMode :=
  if b = 0x00 then some .off else if b = 0x01 then some .track else if b = 0x02 then some .fixed else none

/-- A contact ceiling: 0 to 7, or DISABLED as 0xFF. -/
def readCeiling (b : Byte) : Option (Option Nat) :=
  if b = 0xFF then some none else if b.toNat ≤ 7 then some (some b.toNat) else none

/-- The counting events in the order of their codes, 0x01 onward. -/
def countEvents : List CountEvent :=
  [.frameSubst, .slotInvalid, .slip, .lockLoss, .fifoOcc, .clipped, .gainLate, .gainSkipped, .moveDone, .reportLost,
   .cueTaken, .blockFrozen, .controlErr, .memOcc, .alarmRaise, .blocks]

/-- A counter event code: NONE as 0x00, or one of the sixteen. -/
def readCountEvent (b : Byte) : Option (Option CountEvent) :=
  if b = 0x00 then some none else (countEvents[b.toNat - 1]?).map some

def readCountMode (b : Byte) : Option CountMode :=
  if b = 0x00 then some .wrap else if b = 0x01 then some .saturate else none

/-! ### Enumeration codes of reply fields (section 12.2) -/

def parityPolicyCode : ParityPolicy → Byte
  | .pass => 0x00 | .substitute => 0x01 | .zero => 0x02

def slotPolicyCode : SlotPolicy → Byte
  | .pass => 0x00 | .zero => 0x02

def convStateCode : ConvState → Byte
  | .off => 0x00 | .seek => 0x01 | .acquire _ _ => 0x02 | .locked _ => 0x03 | .holdover _ _ => 0x04

def familyByte : Family → Byte
  | .f32k => 0x00 | .f44k1 => 0x01 | .f48k => 0x02 | .f88k2 => 0x03 | .f96k => 0x04 | .offNominal => 0x05

def lifeCode : Life → Byte
  | .closed => 0x00 | .clearing _ _ _ => 0x01 | .live _ _ => 0x02

def groupCode : Option (Fin 4) → Byte
  | none => 0xFF
  | some g => BitVec.ofNat 8 g.val

def reportPolicyCode : ReportPolicy → Byte
  | .overwrite => 0x00 | .block => 0x01

def kindCode : MoveKind → Byte
  | .jump => 0x00 | .fade _ => 0x01 | .glide _ => 0x02

def moveStateCode : MoveState → Byte
  | .still => 0x00 | .moving _ _ _ => 0x01 | .cueWait _ _ => 0x02 | .readWait _ _ => 0x03 | .halted _ => 0x04

def stagedCode : Staged → Byte
  | .empty => 0x00 | .draft _ => 0x01 | .committed _ => 0x02

def phaseCode : Phase → Byte
  | .none => 0x00 | .fadeOut => 0x01 | .fadeIn => 0x02 | .fadeBack => 0x03

def outcomeCode : MoveOutcome → Byte
  | .reached => 0x00 | .halted => 0x01 | .cancelled => 0x02 | .cueMissed => 0x03

def cueSourceCode : CueSource → Byte
  | .none => 0x00 | .cue0 => 0x01 | .cue1 => 0x02 | .frame => 0x03 | .message => 0x04

def gainModeCode : GainMode → Byte
  | .off => 0x00 | .track => 0x01 | .fixed => 0x02

/-- The freeze reason: absent when the block was not frozen (R140). -/
def freezeReason : Freeze → Option Byte
  | .none => none | .silent => some 0x01 | .suspect => some 0x02

def ceilingCode : Option Nat → Byte
  | none => 0xFF
  | some k => BitVec.ofNat 8 k

/-- The code of a counter's event; NONE is 0x00. -/
def countEventCode : Option CountEvent → Byte
  | none => 0x00
  | some .frameSubst => 0x01 | some .slotInvalid => 0x02 | some .slip => 0x03 | some .lockLoss => 0x04
  | some .fifoOcc => 0x05 | some .clipped => 0x06 | some .gainLate => 0x07 | some .gainSkipped => 0x08
  | some .moveDone => 0x09 | some .reportLost => 0x0A | some .cueTaken => 0x0B | some .blockFrozen => 0x0C
  | some .controlErr => 0x0D | some .memOcc => 0x0E | some .alarmRaise => 0x0F | some .blocks => 0x10

def countModeCode : CountMode → Byte
  | .wrap => 0x00 | .saturate => 0x01

/-- The family code of the owner of an alarm source, and its number: 0xFF for the part (R143, section 12.4). -/
def sourceOwner (n : Fin 59) : Byte × Byte :=
  if n.val < 40 then (0x00, BitVec.ofNat 8 (n.val / 5))
  else if n.val < 56 then (0x01, BitVec.ofNat 8 ((n.val - 40) / 2))
  else (0x02, 0xFF)

end Sys2Proof.Machine
end

