-- ==== Sys2Proof/Machine/Links.lean ====
section
/-! DEFINITION. Input links and frame acceptance (chapter 1) and the rate converters (chapter 2). -/

namespace Sys2Proof.Machine

/-! ### Taking a frame (R3 to R10) -/

/-- What the parity and slot steps make of a frame: the slots delivered, whether they become the last accepted frame, and
the counting events. -/
structure Taken where
  slots : AudioFrame
  accepted : Bool
  substituted : Bool
  zeroed : Nat
  deriving DecidableEq, Repr

/-- One slot under the invalid-slot policy (R7). -/
def slotStep (pol : SlotPolicy) (x : Slot) : Slot :=
  match pol with
  | .pass => x
  | .zero => if x.valid then x else Slot.silent

/-- The slots the slot step zeroes (R7). -/
def zeroedSlots (pol : SlotPolicy) (f : AudioFrame) : Nat :=
  match pol with
  | .pass => 0
  | .zero => f.toList.countP (fun x => !x.valid)

/-- A frame taken from the wire (R7, R8). -/
def fromWire (r : Receiver) (f : AudioFrame) : Taken :=
  { slots := f.map (slotStep r.slotPolicy), accepted := true, substituted := false, zeroed := zeroedSlots r.slotPolicy f }

/-- A frame whose slots are replaced (R5, R6). -/
def replacedBy (f : AudioFrame) : Taken := { slots := f, accepted := false, substituted := true, zeroed := 0 }

/-- The parity step and then the slot step (R5 to R7). -/
def takeFrame (r : Receiver) (f : AudioFrame) (parityOk : Bool) : Taken :=
  if parityOk then fromWire r f
  else
    match r.parityPolicy with
    | .pass => fromWire r f
    | .zero => replacedBy silentFrame
    | .substitute =>
      match r.lastAccepted with
      | some a => replacedBy a
      | none => replacedBy silentFrame

/-- The receiver after a frame is taken (R4, R8). -/
def Receiver.take (r : Receiver) (t : Taken) : Receiver :=
  { r with arrivalCount := satInc Config.max16 r.arrivalCount
           lastAccepted := if t.accepted then some t.slots else r.lastAccepted }

/-! ### Frames into the FIFO (R15, R28) -/

/-- Drop the oldest frames so that at most `n` are held. -/
def keepNewest (n : Nat) (q : List AudioFrame) : List AudioFrame := q.drop (q.length - n)

/-- The FIFO of a converter after a delivery, and whether an overflow slip was made. -/
def Converter.deliver (c : Converter) (f : AudioFrame) : Converter × Bool :=
  let q := c.fifo ++ [f]
  match c.state with
  | .off => (c, false)
  | .seek => ({ c with fifo := keepNewest 32 q }, false)
  | .acquire _ _ => ({ c with fifo := keepNewest 32 q }, false)
  | .holdover _ _ => ({ c with fifo := keepNewest 64 q }, false)
  | .locked _ =>
    if 60 ≤ q.length then ({ c with fifo := q.drop 28, slipCount := c.slipCount + 1 }, true)
    else ({ c with fifo := q }, false)

/-- The events of a slip: SLIP to the statistics bank and to the link's alarm source (R30), in this order (log entry 31). -/
def State.slipEvents (s : State) (l : Fin 8) : State := (s.count .slip (some l) 1).latch (slipSource l)

/-- The counting events of a frame taken (R10). -/
def State.acceptanceEvents (s : State) (l : Fin 8) (t : Taken) : State :=
  let s := if t.substituted then s.count .frameSubst (some l) 1 else s
  if t.zeroed = 0 then s else (List.replicate t.zeroed ()).foldl (fun u _ => u.count .slotInvalid (some l) 1) s

/-- A frame arrival on a link (R1, R3 to R10, R15, R28): the receiver's counting events before those of an overflow slip (log
entry 31). -/
def State.arrive (s : State) (l : Fin 8) (f : AudioFrame) (parityOk : Bool) : State :=
  let rx := (s.link l).rx
  if !rx.enable then s
  else
    let t := takeFrame rx f parityOk
    let d := (s.link l).conv.deliver t.slots
    let s := ((s.setRx l (rx.take t)).setConv l d.1).acceptanceEvents l t
    if d.2 then s.slipEvents l else s

/-! ### Output reads (R16, R17, R29) -/

/-- What one converter does at a house sample: the converter after it, the frame it delivers to the router, whether it
sounds, and whether it made an underflow slip. -/
structure ConvRead where
  conv : Converter
  frame : AudioFrame
  sounding : Bool
  slip : Bool
  deriving DecidableEq, Repr

/-- One converted slot sample between `a` and `b` at read phase `phi` (R16). -/
def interpolate (phi : Nat) (a b : Sample) : Sample :=
  BitVec.ofInt 24 (roundDiv (a.toInt * ((Config.unit20 : Int) - phi) + b.toInt * phi) Config.unit20)

/-- The converted frame (R16): `last` is the last frame read, `front` the frame now at the front of the FIFO. Either
stands for the other when it is absent. -/
def convertedFrame (phi : Nat) (last front : Option AudioFrame) : AudioFrame :=
  match last, front with
  | none, none => silentFrame
  | some a, none => a
  | none, some b => b
  | some a, some b => Vector.ofFn (fun k => ⟨interpolate phi a[k].sample b[k].sample, b[k].valid⟩)

/-- One output read at the ratio R (R16). -/
def Converter.readOnce (c : Converter) (ratio : Nat) : ConvRead :=
  if c.fifo.isEmpty then { conv := c, frame := silentFrame, sounding := false, slip := false }
  else
    let sum := c.readPhase + ratio
    let k := sum / Config.unit20
    let removed := c.fifo.take k
    let rest := c.fifo.drop k
    let last := (removed.getLast?).orElse (fun _ => c.lastRead)
    let phi := sum % Config.unit20
    { conv := { c with fifo := rest, readPhase := phi, lastRead := last }
      frame := convertedFrame phi last rest.head?, sounding := true, slip := false }

/-- Copies of the last frame read at the front of the FIFO until the fill is 32 (R27, R29). Where no frame was ever read
the front frame stands for it, as in R16 (log entry 13). -/
def refill (c : Converter) : Converter :=
  match c.lastRead.orElse (fun _ => c.fifo.head?) with
  | none => c
  | some a => { c with fifo := List.replicate (Config.fifoCentre - c.fifo.length) a ++ c.fifo }

/-- A house sample at a converter (R16, R17, R29). -/
def Converter.read (c : Converter) : ConvRead :=
  match c.state with
  | .off => { conv := c, frame := silentFrame, sounding := false, slip := false }
  | .seek => { conv := c, frame := silentFrame, sounding := false, slip := false }
  | .acquire _ _ => { conv := c, frame := silentFrame, sounding := false, slip := false }
  | .holdover k _ => c.readOnce k.ratio
  | .locked k =>
    let r := c.readOnce k.ratio
    if r.conv.fifo.length ≤ 3 then
      { r with conv := { refill r.conv with slipCount := c.slipCount + 1 }, slip := true }
    else r

/-- Every converter's read of a house sample. -/
def State.reads (s : State) : Vector ConvRead 8 := s.links.map (fun x => x.conv.read)

/-- The converters after their reads, with the events of their slips. -/
def State.readConverters (s : State) (rs : Vector ConvRead 8) : State :=
  forEach 8 (fun l t =>
    let t := t.setConv l rs[l].conv
    if rs[l].slip then t.slipEvents l else t) s

/-! ### Windows (R18 to R27) -/

/-- N in range (R18). -/
def inRange (n : Nat) : Bool := decide (2800 ≤ n) && decide (n ≤ 10000)

/-- The measured ratio of a window (R19). -/
def measuredRatio (n : Nat) : Nat :=
  clampNat Config.ratioMin Config.ratioMax (roundDiv ((n * Config.unit20 : Nat) : Int) Config.blockLength).toNat

/-- The window count a ratio stands for (R22, R25). -/
def refCount (ratio : Nat) : Nat := (roundDiv ((ratio * Config.blockLength : Nat) : Int) Config.unit20).toNat

/-- The declared latency of a ratio (R22). -/
def latency (ratio : Nat) : Nat := 24 + roundHalfUp (16 * Config.unit20) ratio

/-- The family of a reference count (R23). -/
def familyOf (nRef : Nat) : Family :=
  if 3184 ≤ nRef ∧ nRef ≤ 3216 then .f32k
  else if 4388 ≤ nRef ∧ nRef ≤ 4432 then .f44k1
  else if 4776 ≤ nRef ∧ nRef ≤ 4824 then .f48k
  else if 8776 ≤ nRef ∧ nRef ≤ 8864 then .f88k2
  else if 9552 ≤ nRef ∧ nRef ≤ 9648 then .f96k
  else .offNominal

/-- The lock entered on a window (R22 steps 1 to 4). -/
def lockOf (n : Nat) : Lock :=
  let r := measuredRatio n
  { ratio := r, nRef := refCount r, cl := latency r, family := familyOf (refCount r) }

/-- The FIFO re-centred at entry to LOCKED (R22 step 5). -/
def recentreNewest (q : List AudioFrame) : List AudioFrame :=
  let q := keepNewest Config.fifoCentre q
  match q.getLast? with
  | none => q
  | some a => q ++ List.replicate (Config.fifoCentre - q.length) a

/-- The window is good against N_ref (R24). -/
def goodWindow (nRef n : Nat) : Bool := decide ((n : Int) - nRef ≤ max 2 (nRef / 200) ∧ (nRef : Int) - n ≤ max 2 (nRef / 200))

/-- The lock refined by a good window with the FIFO at `fill` (R25). -/
def Lock.refine (k : Lock) (n fill : Nat) : Lock :=
  let r := clampInt Config.ratioMin Config.ratioMax
    ((k.ratio : Int) + ((measuredRatio n : Int) - k.ratio).tdiv 16 + ((fill : Int) - 32) * 8)
  { k with ratio := r.toNat, nRef := refCount r.toNat }

/-- What the judgement of a window comes to: the converter after it, and whether it lost lock or slipped. -/
structure Judged where
  conv : Converter
  lockLoss : Bool
  slip : Bool
  deriving DecidableEq, Repr

/-- The judgement of a window that leaves lock loss and slip aside. -/
def judgedAs (c : Converter) : Judged := { conv := c, lockLoss := false, slip := false }

/-- A window judged by the state the converter is in (R18 to R27). An OFF converter disregards it. -/
def Converter.judgeWindow (c0 : Converter) (n : Nat) : Judged :=
  let c := { c0 with n := n }
  match c0.state with
  | .off => judgedAs c0
  | .seek => if inRange n then judgedAs { c with state := .acquire n 1 } else judgedAs c
  | .acquire prev tally =>
    if !inRange n then judgedAs { c with state := .seek }
    else if decide ((n : Int) - prev ≤ 2) && decide ((prev : Int) - n ≤ 2) then
      if 4 ≤ tally + 1 then
        judgedAs { c with state := .locked (lockOf n), fifo := recentreNewest c.fifo, readPhase := 0 }
      else judgedAs { c with state := .acquire n (tally + 1) }
    else judgedAs { c with state := .acquire n 1 }
  | .locked k =>
    if goodWindow k.nRef n then judgedAs { c with state := .locked (k.refine n c.fifo.length) }
    else judgedAs { c with state := .holdover k 1 }
  | .holdover k bad =>
    if goodWindow k.nRef n then
      let c := { c with state := .locked k }
      if 60 ≤ c.fifo.length then
        { conv := { c with fifo := keepNewest Config.fifoCentre c.fifo, slipCount := c.slipCount + 1 }
          lockLoss := false, slip := true }
      else if c.fifo.length ≤ 3 then
        { conv := { refill c with slipCount := c.slipCount + 1 }, lockLoss := false, slip := true }
      else judgedAs c
    else if bad < 4 then judgedAs { c with state := .holdover k (bad + 1) }
    else
      { conv := { c with state := .seek, fifo := [], readPhase := 0, lastRead := none }, lockLoss := true, slip := false }

/-- The LOCK condition of a link (R34). -/
def Link.lockCondition (x : Link) : Bool := x.rx.enable && !x.conv.state.isLocked

/-- The receiver at a block end: the count handed on, the last accepted frame dropped when it is 0 (R8, R11). -/
def Receiver.blockEnd (r : Receiver) : Receiver :=
  { r with arrivalCount := 0, lastAccepted := if r.arrivalCount = 0 then none else r.lastAccepted }

/-- The block end at one link (R11, R18, R33 to R36). LOCK_LOSS, the events of a re-centring slip, FIFO_OCC and the LOCK report
are sent in this order, where the rules give none; a contact whose demand passes from SLIP to LOCK or back sees the order:
DESIGN CHOICE, log entry 11. -/
def State.linkBlockEnd (s : State) (l : Fin 8) : State :=
  let x := s.link l
  let fill := x.conv.fifo.length
  let j := x.conv.judgeWindow x.rx.arrivalCount
  let s := s.setLink l ⟨x.rx.blockEnd, { j.conv with notLocked := !j.conv.state.isLocked }⟩
  let s := if j.lockLoss then s.count .lockLoss (some l) 1 else s
  let s := if j.slip then s.slipEvents l else s
  let s := if x.conv.state.isOff then s else s.count .fifoOcc (some l) fill
  s.report (lockSource l) (s.link l).lockCondition

/-- The not-locked marks of the block just ended (R33). -/
def State.marks (s : State) : Vector Bool 8 := s.links.map (fun x => x.conv.notLocked)

/-! ### Setting and reading a link (R12, R13, R31, R37) -/

/-- The converter at a change of the enable (R31): the slip count is kept. -/
def Converter.enabled (c : Converter) : Converter :=
  { Converter.reset with state := .seek, slipCount := c.slipCount, notLocked := true }

def Converter.disabled (c : Converter) : Converter :=
  { Converter.reset with slipCount := c.slipCount, notLocked := true }

/-- LINK.SET once it has passed its checks (R12, R13, R31, R34). A request that leaves the enable unchanged does not reach
the converter. -/
def State.setLinkPolicy (s : State) (l : Fin 8) (en : Bool) (pp : ParityPolicy) (sp : SlotPolicy) : State :=
  let x := s.link l
  let rx := { x.rx with enable := en, parityPolicy := pp, slotPolicy := sp }
  if x.rx.enable == en then s.setRx l rx
  else
    (s.setLink l ⟨{ rx with arrivalCount := 0, lastAccepted := none },
      if en then x.conv.enabled else x.conv.disabled⟩).report (lockSource l) en

/-- LINK.SET (R12). -/
def takeLinkSet (body : List Byte) (s : State) : Answer :=
  match body with
  | [l, e, pp, sp] =>
    match readFlag e, readParityPolicy pp, readSlotPolicy sp with
    | some en, some par, some slot =>
      match readId 8 l with
      | some l => ⟨s.setLinkPolicy l en par slot, .ok, []⟩
      | none => refuse s .range
    | _, _, _ => refuse s .malformed
  | _ => refuse s .malformed

/-- The link status record (R37, section 12.4). -/
def linkStatusRecord (l : Fin 8) (x : Link) : List Byte :=
  byte1 l ++ flagByte x.rx.enable ++ [parityPolicyCode x.rx.parityPolicy, slotPolicyCode x.rx.slotPolicy,
    convStateCode x.conv.state] ++ byte2 x.conv.n
  ++ optField (fun k : Lock => byte4 k.ratio) x.conv.state.lock? ++ byte1 x.conv.fifo.length
  ++ optField (fun k : Lock => byte1 k.cl) x.conv.state.lock? ++ optField (fun k : Lock => byte2 k.nRef) x.conv.state.lock?
  ++ optField (fun k : Lock => [familyByte k.family]) x.conv.state.lock? ++ byte2 x.conv.slipCount.toNat
  ++ byte1 x.conv.state.tally

/-- LINK.STATUS (R37). -/
def takeLinkStatus (body : List Byte) (s : State) : Answer :=
  match body with
  | [l] =>
    match readId 8 l with
    | some l => ⟨s, .ok, linkStatusRecord l (s.link l)⟩
    | none => refuse s .range
  | _ => refuse s .malformed

end Sys2Proof.Machine
end

