-- ==== Sys2Proof/Machine/Lanes.lean ====
section
/-! DEFINITION. The lane router, the rings of delay memory, page clearing and the output stage (chapter 3). -/

namespace Sys2Proof.Machine

/-! ### The route table (R39 to R41) -/

/-- Add a route's link to the links that fed a lane in the current block (R42). -/
def feedWith (fed : List (Fin 8)) : Route → List (Fin 8)
  | .unrouted => fed
  | .pair l _ => if fed.contains l then fed else fed ++ [l]

/-- Replace a lane's route; both sides of the change feed the lane in this block (R40, R42). -/
def State.setRoute (s : State) (n : Fin 32) (r : Route) : State :=
  { s with routes := s.routes.set n r, feeds := s.feeds.set n (feedWith s.feeds[n] r) }

/-- The feeding sets of a block that begins: each lane's route as it stands (R42). -/
def State.resetFeeds (s : State) : State := { s with feeds := s.routes.map (feedWith []) }

/-- ROUTE.SET (R40). -/
def takeRouteSet (body : List Byte) (s : State) : Answer :=
  match body with
  | [n, kind, l, k] =>
    if kind = 0x01 then
      match readId 32 n with
      | some n => ⟨s.setRoute n .unrouted, .ok, []⟩
      | none => refuse s .range
    else if kind = 0x00 then
      match readId 32 n, readId 8 l, readId 8 k with
      | some n, some l, some k => ⟨s.setRoute n (.pair l k), .ok, []⟩
      | _, _, _ => refuse s .range
    else refuse s .malformed
  | _ => refuse s .malformed

/-- One entry of the ROUTE.GET reply; the link and slot of an UNROUTED entry are sent 0x00 (log entry 14). -/
def routeRecord : Route → List Byte
  | .unrouted => [0x01, 0x00, 0x00]
  | .pair l k => [0x00, BitVec.ofNat 8 l.val, BitVec.ofNat 8 k.val]

/-- ROUTE.GET (R41). -/
def takeRouteGet (body : List Byte) (s : State) : Answer :=
  match body with
  | [] => ⟨s, .ok, s.routes.toList.flatMap routeRecord⟩
  | _ => refuse s .malformed

/-! ### What the router hands a lane (R42) -/

structure LaneIn where
  slot : Slot
  sounding : Bool
  cl : Option Nat
  deriving DecidableEq, Repr

/-- The router's four items for a lane with this route (R42). -/
def laneIn (rs : Vector ConvRead 8) : Route → LaneIn
  | .unrouted => { slot := Slot.silent, sounding := false, cl := none }
  | .pair l k => { slot := rs[l].frame[k], sounding := rs[l].sounding, cl := rs[l].conv.cl }

def State.laneIns (s : State) (rs : Vector ConvRead 8) : Vector LaneIn 32 := s.routes.map (laneIn rs)

/-- The slot of a lane that passes through, and the word a LIVE programme writes for it: the router's sample and valid
flag while the converter sounds, sample 0 with valid false otherwise (R43, R55). -/
def LaneIn.passed (x : LaneIn) : Slot := if x.sounding then x.slot else Slot.silent

/-! ### The rings (R55, R56) -/

/-- The words of one house sample written into the rings of a programme (R55). -/
def writeRings (ins : Vector LaneIn 32) (h : Held) (w : Nat) (m : List (Nat × Slot)) : List (Nat × Slot) :=
  h.lanes.zipIdx.foldl (fun m x => writeWord m (ringAddr h x.2 (w % h.rl)) ins[x.1.lane].passed) m

/-- The ring position of a tap (R56): (W - tap) mod RL, a non-negative remainder. -/
def tapPosition (h : Held) (w tap : Nat) : Nat := (((w : Int) - tap) % h.rl).toNat

/-- The tap of a lane (R56). -/
def laneTap (dcur cl : Nat) : Nat := dcur + 51 - cl

/-- The word read at the tap of the `k`-th lane (R56). -/
def ringRead (m : List (Nat × Slot)) (h : Held) (k w dcur cl : Nat) : Slot :=
  readWord m (ringAddr h k (tapPosition h w (laneTap dcur cl)))

/-! ### Page clearing (R52, R53) -/

/-- The house sample at the clearing of one programme: the sixth since the last step clears the next page, and the last
page makes the programme LIVE with W = 0 (R52, R53). -/
def State.clearStep (s : State) (p : Fin 8) : State :=
  match (s.prog p).life with
  | .clearing h left count =>
    if count + 1 < 6 then s.setLife p (.clearing h left (count + 1))
    else
      let s := { s with mem := clearPage s.mem (h.extent.start + (h.extent.len - left)) }
      if left ≤ 1 then s.setLife p (.live h 0) else s.setLife p (.clearing h (left - 1) 0)
  | .closed => s
  | .live _ _ => s

/-! ### The output stage (R44) -/

/-- The frame of output link `o` in a house sample's lane outputs: lane n is slot n mod 8 of link n div 8 (R44). -/
def outFrame (lanes : Vector Slot 32) (o : Fin 4) : AudioFrame := Vector.ofFn (fun k => lanes[o.val * 8 + k.val])

/-- A house sample's lane outputs enter the output stage, and those of 8 house samples before reach the links (R44). -/
def State.pushOutputs (s : State) (lanes : Vector Slot 32) : State :=
  let pipe := s.outPipe ++ [lanes]
  { s with outPipe := pipe.drop 1
           outLinks := Vector.ofFn (fun o => outFrame (pipe.headD (Vector.replicate 32 Slot.silent)) o) }

end Sys2Proof.Machine
end

