-- ==== Sys2Proof/Machine/Meter.lean ====
section
/-! DEFINITION. The loudness meter (chapter 6). -/

namespace Sys2Proof.Machine

/-! ### Clearing and restarting (R105, R124) -/

def LaneMeter.fresh : LaneMeter :=
  { shelf := SectionMem.zero, lowCut := SectionMem.zero, acc := Energy.zero, blockMax := 0, peakHold := -1000 }

/-- The meter as PROG.OPEN leaves it for a programme of `lanes` lanes (R105). -/
def Meter.opened (lanes : Nat) : Meter :=
  { Meter.reset with lanes := List.replicate lanes LaneMeter.fresh, opening := true }

/-- The meter as PROG.CLOSE leaves it: the settings stay (R105, R127). -/
def Meter.closed (m : Meter) : Meter := { Meter.reset with settings := m.settings }

/-- A restart of the integrated measurement (R124). -/
def Meter.restart (m : Meter) : Meter :=
  { m with hist := [], integrated := none, gate := none, entered := 0, suspects := 0 }

/-! ### Taking samples (R106 to R108) -/

/-- The meter of one lane takes the sample written into the lane's ring (R106 to R108). -/
def LaneMeter.take (x : Sample) (m : LaneMeter) : LaneMeter :=
  let inp := F53.ofScaled x.toInt (-23)
  let v := sectionOut shelfCoeffs m.shelf inp
  let y := sectionOut lowCutCoeffs m.lowCut v
  { m with shelf := m.shelf.push inp v, lowCut := m.lowCut.push v y
           acc := m.acc.add y.limit.square, blockMax := max m.blockMax x.toInt.natAbs }

/-- The samples of one house sample, in lane-list order. -/
def Meter.take (ins : Vector LaneIn 32) (lanes : List LaneWeight) (m : Meter) : Meter :=
  { m with lanes := List.zipWith (fun lw lm => LaneMeter.take ins[lw.lane].passed.sample lm) lanes m.lanes }

/-! ### The block result (R109 to R116) -/

/-- The lane block energy in units of 2^-48, truncated (R111). -/
def LaneMeter.energy (m : LaneMeter) : Nat := m.acc.num * 2 ^ 48 / (Config.blockLength * 2 ^ m.acc.scale)

/-- E_p in units of 2^-48, truncated (R111). -/
def Meter.blockEnergy (lanes : List LaneWeight) (m : Meter) : Nat :=
  (List.zipWith (fun lw lm => lw.weight * LaneMeter.energy lm) lanes m.lanes).sum / 256

/-- A link that fed a lane of the programme was marked (R110). -/
def suspectBlock (feeds : Vector (List (Fin 8)) 32) (marks : Vector Bool 8) (lanes : List LaneWeight) : Bool :=
  lanes.any (fun lw => feeds[lw.lane].any (fun l => marks[l]))

/-- The level of the mean of ring energies in units of 2^-48 (R112, R114). -/
def meanLevel (es : List RingEntry) : Int := level (es.map RingEntry.energy).sum (es.length * 2 ^ 48)

/-- The accumulators and block maxima closed (R108). -/
def LaneMeter.zeroed (m : LaneMeter) : LaneMeter := { m with acc := Energy.zero, blockMax := 0 }

/-- A bin takes a window energy, unless its count stands at the top (R120). -/
def enterBin (lvl : Int) (e : Nat) : List Bin → List Bin
  | [] => [⟨lvl, 1, e⟩]
  | b :: t =>
    if lvl < b.level then ⟨lvl, 1, e⟩ :: b :: t
    else if lvl = b.level then { b with count := b.count + 1, sum := b.sum + e } :: t
    else b :: enterBin lvl e t

/-- The bin of this level stands at the top of its count (R120). -/
def binFull (lvl : Int) (hist : List Bin) : Bool := hist.any (fun b => b.level == lvl && decide (Config.max32 ≤ b.count))

/-- The gating window of the newest four entries offered to the histogram (R120). Its energy is their sum in units of
2^-50. -/
def Meter.offerWindow (m : Meter) : Meter :=
  let w := m.ring.take 4
  let e := (w.map RingEntry.energy).sum
  let lvl := level e (2 ^ 50)
  let bin := min lvl 50
  if decide (4 ≤ m.n) && w.all (fun x => !x.suspect) && decide (-700 ≤ lvl) && !binFull bin m.hist then
    { m with hist := enterBin bin e m.hist, entered := satInc Config.max32 m.entered }
  else m

/-- The sums of the energies and the counts of a list of bins. -/
def binSums (hist : List Bin) : Nat := (hist.map Bin.sum).sum
def binCounts (hist : List Bin) : Nat := (hist.map Bin.count).sum

/-- Gamma and I computed again from the histogram (R122). -/
def Meter.gating (m : Meter) : Meter :=
  if m.hist.isEmpty then { m with integrated := none, gate := none }
  else
    let gate := level (binSums m.hist) (binCounts m.hist * 2 ^ 50) - 100
    let counted := m.hist.filter (fun b => decide (gate ≤ b.level))
    { m with gate := some gate, integrated := some (level (binSums counted) (binCounts counted * 2 ^ 50)) }

/-- What the meter hands on at a block result (R116). -/
structure BlockResult where
  m : Int
  s : Int
  peaks : List Int
  pMax : Int
  freeze : Freeze
  deriving DecidableEq, Repr

/-- The highest of the lane peaks (R115). -/
def highest (peaks : List Int) : Int := peaks.foldl max (-1000)

/-- The freeze indication (R116). -/
def freezeOf (suspect : Bool) (m silence : Int) : Freeze :=
  if suspect then .suspect else if m < silence then .silent else .none

/-- The block result of a meter whose programme has these lanes: the meter after it and what it hands on (section 6.3). -/
def Meter.result (lanes : List LaneWeight) (suspect : Bool) (m : Meter) : Meter × BlockResult :=
  let ring := (⟨m.blockEnergy lanes, suspect⟩ :: m.ring).take 30
  let n := satInc Config.max32 m.n
  let peaks := m.lanes.map (fun x => peakLevel x.blockMax)
  let mom := meanLevel (ring.take (min 4 n))
  let short := meanLevel (ring.take (min 30 n))
  let m' : Meter := { m with
    ring := ring, n := n, m := mom, s := short
    suspects := if suspect then satInc Config.max32 m.suspects else m.suspects
    lanes := m.lanes.map (fun x => { x.zeroed with peakHold := max x.peakHold (peakLevel x.blockMax) }) }
  (m'.offerWindow.gating,
   { m := mom, s := short, peaks := peaks, pMax := highest peaks, freeze := freezeOf suspect mom m.settings.silence })

/-- The opening block end: accumulators and maxima discarded, no block result (R109). -/
def Meter.closeOpening (m : Meter) : Meter := { m with opening := false, lanes := m.lanes.map LaneMeter.zeroed }

/-! ### Conditions and OVERLOAD (R117 to R119) -/

/-- The conditions and the OVERLOAD event of a block result (R117 to R119). They are sent in this order, SILENCE, LOUD_HIGH,
LOUD_LOW and OVERLOAD, where R145 asks none; a contact whose demand passes from one of the sources to another sees the order:
DESIGN CHOICE, log entry 11. -/
def State.meterEvents (s : State) (p : Fin 8) (set : LoudSettings) (r : BlockResult) : State :=
  let awake := r.freeze == .none
  let s := s.report (silenceSource p) (decide (r.m < set.silence))
  let s := s.report (loudHighSource p) (awake && decide (set.target + set.upper < r.s))
  let s := s.report (loudLowSource p) (awake && decide (r.s < set.target - set.lower))
  if r.peaks.any (fun x => decide (set.ceiling ≤ x)) then s.latch (overloadSource p) else s

/-! ### Requests (R123 to R125) -/

/-- The settings clamped to their ranges (R123). -/
def LoudSettings.clamped (x : LoudSettings) : LoudSettings :=
  { target := clampInt (-400) (-100) x.target, upper := clampInt 0 200 x.upper, lower := clampInt 0 200 x.lower
    silence := clampInt (-900) (-300) x.silence, ceiling := clampInt (-200) 0 x.ceiling }

def loudSettingsRecord (x : LoudSettings) : List Byte :=
  signed2 x.target ++ signed2 x.upper ++ signed2 x.lower ++ signed2 x.silence ++ signed2 x.ceiling

/-- LOUD.SET (R123). -/
def takeLoudSet (body : List Byte) (s : State) : Answer :=
  match body with
  | [p, a1, a0, b1, b0, c1, c0, d1, d0, e1, e0] =>
    match readId 8 p with
    | none => refuse s .range
    | some p =>
      if (s.prog p).life.isClosed then refuse s .state
      else
        let asked : LoudSettings :=
          { target := int2 a1 a0, upper := int2 b1 b0, lower := int2 c1 c0, silence := int2 d1 d0, ceiling := int2 e1 e0 }
        let x := asked.clamped
        ⟨s.setMeter p { (s.prog p).meter with settings := x }, okOrAdjusted (x != asked), loudSettingsRecord x⟩
  | _ => refuse s .malformed

/-- A request that carries a programme number alone and is refused on a CLOSED programme (R124, R125, R140). -/
def withOpenProgramme (body : List Byte) (s : State) (f : Fin 8 → Answer) : Answer :=
  match body with
  | [p] =>
    match readId 8 p with
    | none => refuse s .range
    | some p => if (s.prog p).life.isClosed then refuse s .state else f p
  | _ => refuse s .malformed

/-- LOUD.RESTART (R124). -/
def takeLoudRestart (body : List Byte) (s : State) : Answer :=
  withOpenProgramme body s (fun p => ⟨s.setMeter p (s.prog p).meter.restart, .ok, []⟩)

/-- The peak hold list: each lane with its peak (R125). -/
def peakHoldRecord (lanes : List LaneWeight) (m : Meter) : List Byte :=
  listField (fun x : LaneWeight × LaneMeter => byte1 x.1.lane ++ signed2 x.2.peakHold) (lanes.zip m.lanes)

/-- The meter record (R125, section 12.4). -/
def meterRecord (p : Fin 8) (lanes : List LaneWeight) (m : Meter) : List Byte :=
  byte1 p ++ byte4 m.n ++ signed2 m.m ++ signed2 m.s ++ optField signed2 m.integrated ++ optField signed2 m.gate
  ++ byte4 m.entered ++ byte4 m.suspects ++ peakHoldRecord lanes m

/-- Every lane's peak hold at the floor (R125). -/
def Meter.clearPeaks (m : Meter) : Meter := { m with lanes := m.lanes.map (fun x => { x with peakHold := -1000 }) }

/-- LOUD.READ (R125). -/
def takeLoudRead (body : List Byte) (s : State) : Answer :=
  withOpenProgramme body s (fun p =>
    ⟨s.setMeter p (s.prog p).meter.clearPeaks, .ok, meterRecord p (s.prog p).life.lanes (s.prog p).meter⟩)

end Sys2Proof.Machine
end

