-- ==== Sys2Proof/Machine/Gain.lean ====
section
/-! DEFINITION. The gain corrector and its schedule (chapter 7). -/

namespace Sys2Proof.Machine

/-- The corrector as PROG.CLOSE of a LIVE programme leaves it: mode and settings stay (R128). -/
def Corrector.closed (c : Corrector) : Corrector := { Corrector.reset with mode := c.mode, settings := c.settings }

/-- The range of G and the schedule entries (R130). -/
def GainSettings.limit (x : GainSettings) (v : Int) : Int := clampInt (-x.cut) x.boost v

/-- A new taken value; one that equals the applied gain zeroes the ramp count (R131, R137; log entry 17). -/
def Corrector.setTaken (c : Corrector) (v : Int) : Corrector :=
  { c with taken := v, ramp := if v = c.applied then 0 else c.ramp }

/-! ### GAIN.SET (R129 to R131) -/

/-- The settings clamped to their ranges (R129). -/
def GainSettings.clamped (x : GainSettings) : GainSettings :=
  { boost := clampInt 0 200 x.boost, cut := clampInt 0 300 x.cut, rise := clampInt 1 50 x.rise
    fall := clampInt 1 100 x.fall, fixed := clampInt (-300) 200 x.fixed }

/-- G, the schedule and in TRACK the taken value clamped to new settings (R130). -/
def Corrector.withSettings (c : Corrector) (x : GainSettings) : Corrector :=
  let c := { c with settings := x, g := x.limit c.g
                    schedule := c.schedule.map (fun e => { e with value := x.limit e.value }) }
  if c.mode = .track then c.setTaken (x.limit c.taken) else c

/-- GAIN.SET acts on the mode (R131). -/
def Corrector.setMode (c : Corrector) (m : GainMode) : Corrector :=
  match c.mode, m with
  | .track, .track => c
  | .off, .track => { c with mode := .track, g := c.settings.limit c.applied }.setTaken (c.settings.limit c.applied)
  | .fixed, .track => { c with mode := .track, g := c.settings.limit c.applied }.setTaken (c.settings.limit c.applied)
  | .track, .off => { c with mode := .off, schedule := [] }.setTaken 0
  | .track, .fixed => { c with mode := .fixed, schedule := [] }.setTaken c.settings.fixed
  | .off, .off => { c with mode := .off }.setTaken 0
  | .fixed, .off => { c with mode := .off }.setTaken 0
  | .off, .fixed => { c with mode := .fixed }.setTaken c.settings.fixed
  | .fixed, .fixed => { c with mode := .fixed }.setTaken c.settings.fixed

def gainSettingsRecord (x : GainSettings) : List Byte :=
  signed2 x.boost ++ signed2 x.cut ++ signed2 x.rise ++ signed2 x.fall ++ signed2 x.fixed

/-- GAIN.SET (R129). -/
def takeGainSet (body : List Byte) (s : State) : Answer :=
  match body with
  | [p, md, a1, a0, b1, b0, c1, c0, d1, d0, e1, e0] =>
    match readGainMode md with
    | none => refuse s .malformed
    | some mode =>
      match readId 8 p with
      | none => refuse s .range
      | some p =>
        if (s.prog p).life.isClosed then refuse s .state
        else
          let asked : GainSettings :=
            { boost := int2 a1 a0, cut := int2 b1 b0, rise := int2 c1 c0, fall := int2 d1 d0, fixed := int2 e1 e0 }
          let x := asked.clamped
          ⟨s.setGain p (((s.prog p).gain.withSettings x).setMode mode), okOrAdjusted (x != asked),
            gainModeCode mode :: gainSettingsRecord x⟩
  | _ => refuse s .malformed

/-! ### The block end in TRACK (R132 to R134, R139) -/

/-- The wanted gain, clamped and guarded against the block's highest peak (R133 steps 1 to 3). -/
def wantedGain (x : GainSettings) (set : LoudSettings) (r : BlockResult) : Int :=
  max (min (x.limit (set.target - r.s)) (set.ceiling - r.pMax)) (-x.cut)

/-- G stepped toward a wanted gain (R133 step 4). -/
def stepToward (x : GainSettings) (g gd : Int) : Int :=
  if g < gd then min gd (g + x.rise) else if gd < g then max gd (g - x.fall) else g

/-- The block's entry appended to the schedule, or taken at once when already due (R134): the corrector after it, and
whether it was late. `rp` is R_p of the last house sample taken. -/
def Corrector.append (c : Corrector) (due rp : Int) : Corrector × Bool :=
  if due ≤ rp then (c.setTaken c.g, true)
  else ({ c with schedule := c.schedule ++ [⟨due, c.g⟩] }, false)

/-- The corrector's share of a block result (R132 to R134). `w` is the next write index, so the block just ended began
4,800 before it. -/
def State.gainResult (s : State) (p : Fin 8) (set : LoudSettings) (r : BlockResult) (w : Nat) : State :=
  let x := s.prog p
  let c : Corrector := { x.gain with freeze := r.freeze }
  if c.mode = .track then
    let frozen := r.freeze != .none
    let c := if frozen then c else { c with g := stepToward c.settings c.g (wantedGain c.settings set r) }
    let a := c.append ((w : Int) - Config.blockLength) ((w : Int) - 1 - x.move.dcur)
    let s := s.setGain p a.1
    let s := if frozen then s.count .blockFrozen (some p) 1 else s
    if a.2 then s.count .gainLate (some p) 1 else s
  else s.setGain p c

/-- The clip count sent and zeroed (R139). -/
def State.sendClipped (s : State) (p : Fin 8) : State :=
  let c := (s.prog p).gain
  if c.clip = 0 then s else (s.setGain p { c with clip := 0 }).count .clipped (some p) c.clip

/-! ### The house sample (R135, R137 to R139) -/

/-- The schedule taken against R_p (R135): the corrector after it and how many entries were skipped. -/
def Corrector.takeDue (c : Corrector) (rp : Int) : Corrector × Nat :=
  if c.mode = .track then
    let due := c.schedule.filter (fun e => decide (e.due ≤ rp))
    match due.getLast? with
    | none => (c, 0)
    | some e => ({ c with schedule := c.schedule.filter (fun e => !decide (e.due ≤ rp)) }.setTaken e.value, due.length - 1)
  else (c, 0)

/-- The ramp count reaches 48 at the next ramp step (R137). -/
def Corrector.rampDue (c : Corrector) : Bool := c.applied != c.taken && decide (48 ≤ c.ramp + 1)

/-- The applied gain moved toward the taken value (R137). -/
def Corrector.rampStep (c : Corrector) : Corrector :=
  if c.applied = c.taken then { c with ramp := 0 }
  else if 48 ≤ c.ramp + 1 then
    { c with applied := if c.applied < c.taken then c.applied + 1 else c.applied - 1, ramp := 0 }
  else { c with ramp := c.ramp + 1 }

/-- The corrector's take and ramp at a house sample of a programme at write index `w` (R135, R137). -/
def State.gainStep (s : State) (p : Fin 8) (w : Nat) : State :=
  let x := s.prog p
  let t := x.gain.takeDue ((w : Int) - x.move.dcur)
  let s := s.setGain p t.1.rampStep
  if t.2 = 0 then s
  else (List.replicate t.2 ()).foldl (fun u _ => u.count .gainSkipped (some p) 1) s

/-- The fade factor as a fraction: the fade position over the current FADE's length while the phase is other than NONE,
and 1 otherwise (R63). -/
def MoveUnit.fade (u : MoveUnit) : Nat × Nat :=
  match u.state with
  | .moving r ph pos =>
    match r.kind with
    | .fade f => if ph = .none then (1, 1) else (pos, f)
    | .jump => (1, 1)
    | .glide _ => (1, 1)
  | .still => (1, 1)
  | .cueWait _ _ => (1, 1)
  | .readWait _ _ => (1, 1)
  | .halted _ => (1, 1)

/-- The output multiply, before saturation (R138). -/
def multiplied (x : Sample) (g : Nat) (fade : Nat × Nat) : Int :=
  roundDiv (x.toInt * g * fade.1) (16777216 * fade.2)

/-- The multiply result saturated (R139). -/
def outputSlot (x : Slot) (g : Nat) (fade : Nat × Nat) : Slot :=
  ⟨BitVec.ofInt 24 (saturate24 (multiplied x.sample g fade)), x.valid⟩

/-- The multiply result lies outside the 24-bit range (R139). -/
def clips (x : Slot) (g : Nat) (fade : Nat × Nat) : Bool :=
  multiplied x.sample g fade != saturate24 (multiplied x.sample g fade)

/-- The output of the `k`-th lane of a LIVE programme, and whether it was saturated (R57, R138, R139). -/
def liveOutput (m : List (Nat × Slot)) (h : Held) (w dcur g : Nat) (fade : Nat × Nat) (k : Nat) (x : LaneIn) : Slot × Bool :=
  match x.sounding, x.cl with
  | true, some cl =>
    let r := ringRead m h k w dcur cl
    (outputSlot r g fade, clips r g fade)
  | true, none => (Slot.silent, false)
  | false, _ => (Slot.silent, false)

/-! ### GAIN.READ (R140) -/

/-- The corrector record (R140, section 12.4). -/
def correctorRecord (p : Fin 8) (c : Corrector) : List Byte :=
  byte1 p ++ [gainModeCode c.mode] ++ signed2 c.g ++ signed2 c.taken ++ signed2 c.applied ++ byte1 c.schedule.length
  ++ flagByte (c.freeze != .none) ++ optField (fun b => [b]) (freezeReason c.freeze)

/-- GAIN.READ (R140). -/
def takeGainRead (body : List Byte) (s : State) : Answer :=
  withOpenProgramme body s (fun p => ⟨s, .ok, correctorRecord p (s.prog p).gain⟩)

end Sys2Proof.Machine
end

