-- ==== Sys2Proof/Machine/Moves.lean ====
section
/-! DEFINITION. The move units: lip-sync delay moves (chapter 4), with the arming of cue groups that goes with waiting
moves (R96, R101). -/

namespace Sys2Proof.Machine

/-! ### Arming (R96, R101) -/

/-- The group of a programme arms (R96). -/
def State.armGroup (s : State) : Option (Fin 4) → State
  | none => s
  | some g => s.setGroup g { s.group g with armed := true }

/-- A member has left the waiting set other than on a cue: the armed flag clears when nobody waits (R96, R101). -/
def State.leftWaiting (s : State) : Option (Fin 4) → State
  | none => s
  | some g => if (s.waiting g).isEmpty then s.setGroup g { s.group g with armed := false } else s

/-! ### Reports and the end of a move (R71, R83, R84) -/

/-- The move unit of a programme, changed. -/
def State.setMoveState (s : State) (p : Fin 8) (x : MoveState) : State := s.setMove p { (s.prog p).move with state := x }
def State.setStaged (s : State) (p : Fin 8) (x : Staged) : State := s.setMove p { (s.prog p).move with staged := x }

/-- A report of a record at the unit's D_cur and a stamp (R83). -/
def reportOf (r : MoveRecord) (o : MoveOutcome) (dcur : Nat) (hsc : Stamp) : Report :=
  { tag := r.tag, kind := r.kind, outcome := o, dcur := dcur, hsc := hsc, clamped := r.clamped }

/-- A report written into the slots; with both full the newest is replaced, and REPORT_LOST is sent (R83). -/
def State.writeReport (s : State) (p : Fin 8) (x : Report) : State :=
  let u := (s.prog p).move
  match u.reports with
  | [] => s.setMove p { u with reports := [x] }
  | [a] => s.setMove p { u with reports := [a, x] }
  | a :: _ :: _ => (s.setMove p { u with reports := [a, x], lost := satInc 255 u.lost }).count .reportLost (some p) 1

/-- The events of a move's end (R71 step 2, R84). -/
def State.moveEvents (s : State) (p : Fin 8) (o : MoveOutcome) : State :=
  let s := s.count .moveDone (some p) 1
  if o = .reached then s else s.latch (moveSource p)

/-- A move ends CUE_MISSED: reported, the staged slot emptied, the unit STILL (R71 steps 1 to 3). -/
def State.endMissed (s : State) (p : Fin 8) (r : MoveRecord) : State :=
  let s := (s.writeReport p (reportOf r .cueMissed (s.prog p).move.dcur s.ref.hsc)).moveEvents p .cueMissed
  s.setMove p { (s.prog p).move with state := .still, staged := .empty }

/-- The state in which a record starts moving (R72, R73): a FADE begins its fade-out at full level. -/
def startState (r : MoveRecord) : MoveState :=
  match r.kind with
  | .fade f => .moving r .fadeOut f
  | .jump => .moving r .none 0
  | .glide _ => .moving r .none 0

/-- A record that becomes current is entered (R70). -/
def State.enterRecord (s : State) (p : Fin 8) (r : MoveRecord) : State :=
  let x := s.prog p
  if x.policy = .block ∧ 2 ≤ x.move.reports.length then s.setMoveState p (.readWait r none)
  else if r.cued then
    match x.group with
    | none => s.endMissed p r
    | some g => (s.setMoveState p (.cueWait r 0)).armGroup (some g)
  else s.setMoveState p (startState r)

/-- After a move has ended with an outcome other than CUE_MISSED: a committed record is entered, or the unit goes to
HALTED or STILL (R71 steps 4 and 5). -/
def State.afterEnd (s : State) (p : Fin 8) (r : MoveRecord) (o : MoveOutcome) : State :=
  match (s.prog p).move.staged with
  | .committed c => (s.setStaged p .empty).enterRecord p c
  | .empty => s.setMoveState p (if o = .halted then .halted r else .still)
  | .draft _ => s.setMoveState p (if o = .halted then .halted r else .still)

/-- A move ends REACHED, HALTED or CANCELLED with its report written (R71). The unit leaves MOVING or CUE_WAIT first, so
the phase, the fade position and the cue wait count are gone before a following record is entered. -/
def State.endMove (s : State) (p : Fin 8) (r : MoveRecord) (o : MoveOutcome) : State :=
  let s := (s.writeReport p (reportOf r o (s.prog p).move.dcur s.ref.hsc)).moveEvents p o
  s.afterEnd p r o

/-! ### The step of a house sample (R72 to R74, R77) -/

/-- The step of a GLIDE in units of 2^-16 sample (R74). -/
def glideStep (rate : Nat) : Nat := roundHalfUp (rate * 65536) Config.blockLength

/-- P one GLIDE step nearer the target (R74). -/
def glideTo (pos goal step : Nat) : Nat :=
  if pos ≤ goal then (if goal - pos ≤ step then goal else pos + step)
  else (if pos - goal ≤ step then goal else pos - step)

/-- What one step of a moving record comes to: the new P, the state it goes on in, or the outcome it ends with. -/
structure Stepped where
  pos : Nat
  state : MoveState
  ends : Option MoveOutcome
  deriving DecidableEq, Repr

/-- The step of a MOVING unit at a house sample (R72 to R74, R77). -/
def stepRecord (r : MoveRecord) (ph : Phase) (fadePos pos : Nat) : Stepped :=
  let goal := r.target * 65536
  match r.kind with
  | .jump => { pos := goal, state := .moving r ph fadePos, ends := some .reached }
  | .glide rate =>
    let pos' := glideTo pos goal (glideStep rate)
    { pos := pos', state := .moving r ph fadePos, ends := if pos' = goal then some .reached else none }
  | .fade f =>
    match ph with
    | .fadeOut =>
      if 0 < fadePos then { pos := pos, state := .moving r .fadeOut (fadePos - 1), ends := none }
      else { pos := goal, state := .moving r .fadeIn 1, ends := if f ≤ 1 then some .reached else none }
    | .fadeIn => { pos := pos, state := .moving r .fadeIn (fadePos + 1), ends := if f ≤ fadePos + 1 then some .reached else none }
    | .fadeBack => { pos := pos, state := .moving r .fadeBack (fadePos + 1), ends := if f ≤ fadePos + 1 then some .halted else none }
    | .none => { pos := pos, state := .moving r .none fadePos, ends := none }

/-- The move unit's step for a house sample (R63). -/
def State.moveStep (s : State) (p : Fin 8) : State :=
  let u := (s.prog p).move
  match u.state with
  | .moving r ph fadePos =>
    let t := stepRecord r ph fadePos u.pos
    let s := s.setMove p { u with pos := t.pos, state := t.state }
    match t.ends with
    | none => s
    | some o => s.endMove p r o
  | .still => s
  | .cueWait _ _ => s
  | .readWait _ _ => s
  | .halted _ => s

/-- The unit's next step ends its move. -/
def MoveUnit.endsNext (u : MoveUnit) : Bool :=
  match u.state with
  | .moving r ph fadePos => (stepRecord r ph fadePos u.pos).ends.isSome
  | .still => false
  | .cueWait _ _ => false
  | .readWait _ _ => false
  | .halted _ => false

/-! ### The cue wait (R75) -/

/-- The timeout of a group in blocks (R75, R94). -/
def State.timeoutOf (s : State) : Option (Fin 4) → Nat
  | some g => (s.group g).timeout
  | none => 0

/-- The cue wait count of a waiting unit reaches its group's timeout at the next block end (R75). -/
def State.cueTimesOut (s : State) (p : Fin 8) : Bool :=
  match (s.prog p).move.state with
  | .cueWait _ count => decide (s.timeoutOf (s.prog p).group ≤ count + 1)
  | .still => false
  | .moving _ _ _ => false
  | .readWait _ _ => false
  | .halted _ => false

/-- The block end at a move unit (R75, R101). -/
def State.cueWaitStep (s : State) (p : Fin 8) : State :=
  match (s.prog p).move.state with
  | .cueWait r count =>
    if s.cueTimesOut p then (s.endMissed p r).leftWaiting (s.prog p).group
    else s.setMoveState p (.cueWait r (count + 1))
  | .still => s
  | .moving _ _ _ => s
  | .readWait _ _ => s
  | .halted _ => s

/-! ### Requests (R64 to R69, R76 to R82, R85, R86) -/

/-- A request that carries a programme number alone and is refused unless the programme is LIVE (R64). -/
def withLiveProgramme (body : List Byte) (s : State) (f : Fin 8 → Answer) : Answer :=
  match body with
  | [p] =>
    match readId 8 p with
    | none => refuse s .range
    | some p => if (s.prog p).life.isLive then f p else refuse s .state
  | _ => refuse s .malformed

/-- A target value in samples (R67). -/
def targetSamples (u : TargetUnit) (value : Nat) (history : List Nat) : Nat :=
  match u with
  | .samples => value
  | .tenthsMs => roundHalfUp (value * 48) 10
  | .frames => roundHalfUp (value * history.sum) 5

/-- A kind with its field, clamped or defaulted, and whether it was clamped (R67). -/
def clampKind (k : KindCode) (rate fade : Option Nat) : MoveKind × Bool :=
  match k with
  | .jump => (.jump, false)
  | .fade =>
    match fade with
    | none => (.fade 240, false)
    | some f => (.fade (clampNat 48 4800 f), clampNat 48 4800 f != f)
  | .glide => (.glide (clampNat 1 480 (rate.getD 0)), clampNat 1 480 (rate.getD 0) != rate.getD 0)

/-- The presence of a rate and a fade length that a kind allows (R66). -/
def kindFieldsOk (k : KindCode) (rate fade : Option Nat) : Bool :=
  match k with
  | .jump => rate.isNone && fade.isNone
  | .fade => rate.isNone
  | .glide => rate.isSome && fade.isNone

/-- A move record on the wire (section 12.4). -/
def moveRecordBytes (r : MoveRecord) : List Byte :=
  [r.tag, kindCode r.kind] ++ byte4 r.target
  ++ optField byte2 (match r.kind with | .glide v => some v | .jump => none | .fade _ => none)
  ++ optField byte2 (match r.kind with | .fade v => some v | .jump => none | .glide _ => none)
  ++ flagByte r.cued ++ flagByte r.clamped

/-- The staged slot holds a committed record. -/
def Staged.isCommitted : Staged → Bool
  | .committed _ => true
  | .empty => false
  | .draft _ => false

/-- MOVE.SET after its body has been read (R64, R66, R67). The cued flag is checked after the programme's state. -/
def moveSetChecked (s : State) (p : Fin 8) (tag : Byte) (kind : KindCode) (unit : TargetUnit) (value : Nat)
    (rate fade : Option Nat) (cuedByte : Byte) : Answer :=
  match kindFieldsOk kind rate fade, readFlag cuedByte with
  | true, some cued =>
    if unit = .frames ∧ s.ref.history.length < 5 then refuse s .range
    else
      let x := s.prog p
      if x.move.staged.isCommitted then refuse s .committed
      else
        let asked := targetSamples unit value s.ref.history
        let target := clampNat x.low x.high asked
        let k := clampKind kind rate fade
        let r : MoveRecord := { tag := tag, kind := k.1, target := target, cued := cued, clamped := target != asked }
        ⟨s.setStaged p (.draft r), okOrAdjusted (r.clamped || k.2), moveRecordBytes r⟩
  | _, _ => refuse s .malformed

/-- MOVE.SET (R66). -/
def takeMoveSet (body : List Byte) (s : State) : Answer :=
  match body with
  | p :: tag :: kind :: unit :: a :: b :: c :: d :: rest =>
    match readOpt2 rest with
    | none => refuse s .malformed
    | some (rate, rest) =>
      match readOpt2 rest with
      | some (fade, [cued]) =>
        match readKind kind, readUnit unit with
        | some kind, some unit =>
          match readId 8 p with
          | none => refuse s .range
          | some p =>
            if (s.prog p).life.isLive then moveSetChecked s p tag kind unit (nat4 a b c d) rate fade cued
            else refuse s .state
        | _, _ => refuse s .malformed
      | _ => refuse s .malformed
  | _ => refuse s .malformed

/-- MOVE.GO (R69). -/
def takeMoveGo (body : List Byte) (s : State) : Answer :=
  withLiveProgramme body s (fun p =>
    let x := s.prog p
    match x.move.staged with
    | .empty => refuse s .state
    | .committed _ => refuse s .committed
    | .draft r =>
      let start : Answer :=
        if r.cued && x.group.isNone then refuse s .state else ⟨(s.setStaged p .empty).enterRecord p r, .ok, []⟩
      match x.move.state with
      | .still => start
      | .halted _ => start
      | .moving _ _ _ => ⟨s.setStaged p (.committed r), .ok, []⟩
      | .cueWait _ _ => ⟨s.setStaged p (.committed r), .ok, []⟩
      | .readWait _ _ => ⟨s.setStaged p (.committed r), .ok, []⟩)

/-- MOVE.DISCARD (R68). -/
def takeMoveDiscard (body : List Byte) (s : State) : Answer :=
  withLiveProgramme body s (fun p =>
    match (s.prog p).move.staged with
    | .empty => refuse s .state
    | .draft _ => ⟨s.setStaged p .empty, .ok, []⟩
    | .committed _ => ⟨s.setStaged p .empty, .ok, []⟩)

/-- A MOVING unit takes a hold (R76, R77). -/
def State.holdMoving (s : State) (p : Fin 8) (r : MoveRecord) (ph : Phase) (fadePos : Nat) : State :=
  match r.kind with
  | .jump => s
  | .glide _ => (s.setMove p { (s.prog p).move with pos := (s.prog p).move.dcur * 65536 }).endMove p r .halted
  | .fade f =>
    match ph with
    | .fadeOut => if f ≤ fadePos then s.endMove p r .halted else s.setMoveState p (.moving r .fadeBack fadePos)
    | .fadeIn => s
    | .fadeBack => s
    | .none => s

/-- A move unit of a LIVE programme takes a hold: the staged slot is emptied first (R76 to R78, R80). -/
def State.hold (s : State) (p : Fin 8) : State :=
  let s := s.setStaged p .empty
  match (s.prog p).move.state with
  | .still => s
  | .halted _ => s
  | .moving r ph fadePos => s.holdMoving p r ph fadePos
  | .cueWait r _ => (s.endMove p r .cancelled).leftWaiting (s.prog p).group
  | .readWait _ (some _) => s
  | .readWait r none =>
    (s.setMoveState p (.readWait r (some ⟨(s.prog p).move.dcur, s.ref.hsc⟩))).moveEvents p .cancelled

/-- MOVE.HOLD (R76 to R78, R80). -/
def takeMoveHold (body : List Byte) (s : State) : Answer := withLiveProgramme body s (fun p => ⟨s.hold p, .ok, []⟩)

/-- MOVE.FINISH (R81). -/
def takeMoveFinish (body : List Byte) (s : State) : Answer :=
  withLiveProgramme body s (fun p => ⟨s.setStaged p .empty, .ok, []⟩)

/-- MOVE.RESUME (R79). -/
def takeMoveResume (body : List Byte) (s : State) : Answer :=
  withLiveProgramme body s (fun p =>
    match (s.prog p).move.state with
    | .halted r => ⟨s.enterRecord p { r with cued := false }, .ok, []⟩
    | .still => refuse s .state
    | .moving _ _ _ => refuse s .state
    | .cueWait _ _ => refuse s .state
    | .readWait _ _ => refuse s .state)

/-- MOVE.HOLDALL (R82). All the units take their hold at the one command, so a simultaneous house sample comes before it at
every unit or after it at every unit: DESIGN CHOICE, log entry 27. -/
def takeMoveHoldall (body : List Byte) (s : State) : Answer :=
  match body with
  | [] => ⟨forEach 8 (fun p t => if (t.prog p).life.isLive then t.hold p else t) s, .ok, []⟩
  | _ => refuse s .malformed

/-- The current record of a move state: absent in STILL (R62). -/
def MoveState.record? : MoveState → Option MoveRecord
  | .still => none
  | .moving r _ _ => some r
  | .cueWait r _ => some r
  | .readWait r _ => some r
  | .halted r => some r

def MoveState.phase : MoveState → Phase
  | .moving _ ph _ => ph
  | .still => .none
  | .cueWait _ _ => .none
  | .readWait _ _ => .none
  | .halted _ => .none

def MoveState.fadePos : MoveState → Nat
  | .moving _ _ k => k
  | .still => 0
  | .cueWait _ _ => 0
  | .readWait _ _ => 0
  | .halted _ => 0

/-- The cue wait count: present in CUE_WAIT (R86). -/
def MoveState.waitCount? : MoveState → Option Nat
  | .cueWait _ k => some k
  | .still => none
  | .moving _ _ _ => none
  | .readWait _ _ => none
  | .halted _ => none

/-- The decided outcome: present only in READ_WAIT after a hold (R80, R86). -/
def MoveState.decided? : MoveState → Option Decided
  | .readWait _ d => d
  | .still => none
  | .moving _ _ _ => none
  | .cueWait _ _ => none
  | .halted _ => none

def Staged.record? : Staged → Option MoveRecord
  | .empty => none
  | .draft r => some r
  | .committed r => some r

/-- The move status record (R86, section 12.4). -/
def moveStatusRecord (u : MoveUnit) : List Byte :=
  [moveStateCode u.state] ++ byte4 u.dcur ++ optField moveRecordBytes u.state.record? ++ [phaseCode u.state.phase]
  ++ byte2 u.state.fadePos ++ optField byte2 u.state.waitCount?
  ++ optField (fun _ : Decided => [outcomeCode .cancelled]) u.state.decided?
  ++ [stagedCode u.staged] ++ optField moveRecordBytes u.staged.record? ++ byte1 u.reports.length ++ byte1 u.lost

/-- MOVE.STATUS (R86): refused on a CLOSED programme only (R64). -/
def takeMoveStatus (body : List Byte) (s : State) : Answer :=
  withOpenProgramme body s (fun p => ⟨s, .ok, moveStatusRecord (s.prog p).move⟩)

/-- A report record (section 12.4). -/
def reportBytes (x : Report) : List Byte :=
  [x.tag, kindCode x.kind, outcomeCode x.outcome] ++ byte4 x.dcur ++ byte4 x.hsc.toNat ++ flagByte x.clamped

/-- The MOVE.REPORTS reply body: the oldest slot, the newest slot and the lost count (R85). -/
def reportsRecord (u : MoveUnit) : List Byte :=
  optField reportBytes u.reports[0]? ++ optField reportBytes u.reports[1]? ++ byte1 u.lost

/-- A unit in READ_WAIT goes on once its slots have been emptied (R85). -/
def State.afterRead (s : State) (p : Fin 8) : State :=
  match (s.prog p).move.state with
  | .readWait r (some d) => (s.writeReport p (reportOf r .cancelled d.dcur d.hsc)).afterEnd p r .cancelled
  | .readWait r none => s.enterRecord p r
  | .still => s
  | .moving _ _ _ => s
  | .cueWait _ _ => s
  | .halted _ => s

/-- MOVE.REPORTS (R85). -/
def takeMoveReports (body : List Byte) (s : State) : Answer :=
  withLiveProgramme body s (fun p =>
    let u := (s.prog p).move
    ⟨(s.setMove p { u with reports := [], lost := 0 }).afterRead p, .ok, reportsRecord u⟩)

end Sys2Proof.Machine
end

