-- ==== Sys2Proof/Machine/Cues.lean ====
section
/-! DEFINITION. The cue controller, the snapshot store, and the reference unit's frame pulse and cue lines (chapter 5). -/

namespace Sys2Proof.Machine

/-! ### Taking a cue (R99, R103) -/

/-- The member record of a LIVE programme (R102). -/
def snapMember (s : State) (p : Fin 8) : SnapMember :=
  let x := s.prog p
  { programme := p, pathDelay := x.move.dcur + 59, integrated := x.meter.integrated, shortTerm := x.meter.s
    applied := x.gain.applied }

/-- The LIVE members of a group, in programme order. -/
def State.liveMembers (s : State) (g : Fin 4) : List (Fin 8) := (s.members g).filter (fun p => (s.prog p).life.isLive)

/-- A snapshot written into a group's entry: overrun is set over an unread one (R103). -/
def State.writeSnapshot (s : State) (g : Fin 4) (x : Snapshot) : State :=
  let e := s.snap g
  s.setSnap g { snap := some x, overrun := e.overrun || (match e.snap with | some y => y.unread | none => false) }

/-- A waiting move started by a cue (R75, R99 step 3). -/
def State.startWaiting (s : State) (p : Fin 8) : State :=
  match (s.prog p).move.state with
  | .cueWait r _ => s.setMoveState p (startState r)
  | .still => s
  | .moving _ _ _ => s
  | .readWait _ _ => s
  | .halted _ => s

/-- Apply a step to each programme of a list. -/
def forProgs (ps : List (Fin 8)) (f : Fin 8 → State → State) (s : State) : State := ps.foldl (fun t p => f p t) s

/-- The cue is counted, and CUE_TAKEN sent for each member (R99 steps 1 and 2), in programme order (log entry 31). -/
def State.countCue (s : State) (g : Fin 4) : State :=
  let s := s.setGroup g { s.group g with cueCount := (s.group g).cueCount + 1 }
  forProgs (s.members g) (fun p t => t.count .cueTaken (some p) 1) s

/-- The snapshot of a cue taken at a cue time, when the group asks for one (R99 step 4, R102). -/
def State.snapshotCue (s : State) (g : Fin 4) (time : Stamp) : State :=
  if (s.group g).snapshot then
    s.writeSnapshot g { group := g, cueNumber := (s.group g).cueCount, hsc := time, unread := true
                        members := (s.liveMembers g).map (snapMember s) }
  else s

/-- The integrated measurements of the LIVE members begun again, when the group asks for it (R99 step 5, R124). -/
def State.restartCue (s : State) (g : Fin 4) : State :=
  if (s.group g).restart then forProgs (s.liveMembers g) (fun p t => t.setMeter p (t.prog p).meter.restart) s else s

/-- A group takes a cue at a cue time (R99). -/
def State.takeCue (s : State) (g : Fin 4) (time : Stamp) : State :=
  let s := s.countCue g
  let s := forProgs (s.waiting g) (fun p t => t.startWaiting p) s
  let s := (s.snapshotCue g time).restartCue g
  s.setGroup g { s.group g with armed := false }

/-- Every group that an edge cues takes its cue, in group order (R97). -/
def State.cueGroups (s : State) (cued : CueGroup → Bool) (time : Stamp) : State :=
  forEach 4 (fun g t => if cued (t.group g) then t.takeCue g time else t) s

/-! ### The frame reference (R90 to R92) -/

/-- At least one group has source FRAME. -/
def State.anyFrameGroup (s : State) : Bool := s.groups.toList.any (fun g => g.source == .frame)

/-- The FRAME_REF condition sent to source 57 (R92): ABSENT while a group has source FRAME. A value equal to the one held
changes nothing (R145). -/
def State.reportFrameRef (s : State) : State := s.report frameRefSource (!s.ref.present && s.anyFrameGroup)

/-- The interval since the previous edge is accepted (R90). -/
def RefUnit.acceptedInterval (r : RefUnit) : Option Nat :=
  match r.edgePrev with
  | none => none
  | some t =>
    let d := (r.hsc - t).toNat
    if 768 ≤ d ∧ d ≤ 2400 then some d else none

/-- A rising edge on FRM at the house sample just counted (R90, R91). -/
def RefUnit.frmEdge (r : RefUnit) : RefUnit :=
  match r.acceptedInterval with
  | none => { r with edgePrev := some r.hsc }
  | some d =>
    let h := r.history ++ [d]
    let run := if r.run < 2 then r.run + 1 else 2
    { r with edgePrev := some r.hsc, edgeAccepted := some r.hsc, history := h.drop (h.length - 5), run := run
             present := r.present || run == 2 }

/-- The absence limit (R91): max(3 × newest interval, 9,600). -/
def RefUnit.absenceLimit (r : RefUnit) : Nat := max (3 * (r.history.getLast?).getD 0) 9600

/-- A PRESENT reference has reached its absence limit at the house sample just counted (R91). -/
def RefUnit.absenceDue (r : RefUnit) : Bool :=
  r.present && (match r.edgeAccepted with
    | some t => decide (r.absenceLimit ≤ (r.hsc - t).toNat)
    | none => false)

/-- The reference becomes ABSENT (R91, R92). -/
def State.becomeAbsent (s : State) : State := State.reportFrameRef { s with ref := { s.ref with present := false, run := 0 } }

/-- FRM sampled at a house sample (R90, R91, R97): a rising edge is timed, and an accepted one is a cue for every armed
group with source FRAME. The FRAME_REF report (R92) is sent before the cues and their CUE_TAKEN events, where the rules give no
order; a contact whose demand passes from FRAME_REF to COUNTER sees it: DESIGN CHOICE, log entry 31. -/
def State.sampleFrm (s : State) (lvl : Bool) : State :=
  let rising := lvl && !s.ref.frmPrev
  let accepted := rising && s.ref.acceptedInterval.isSome
  let r := if rising then s.ref.frmEdge else s.ref
  let s := { s with ref := { r with frmPrev := lvl } }
  if accepted then s.reportFrameRef.cueGroups (fun g => g.source == .frame && g.armed) s.ref.hsc else s

/-- The absence test of a house sample, unless the reference unit has already taken it (R91, log entry 4). -/
def State.absenceTest (s : State) : State :=
  if !s.ahead.contains .frameRef && s.ref.absenceDue then s.becomeAbsent else s

/-- CUE0 and CUE1 sampled at a house sample (R93, R97). -/
def State.sampleCues (s : State) (c0 c1 : Bool) : State :=
  let e0 := c0 && !s.ref.cue0Prev
  let e1 := c1 && !s.ref.cue1Prev
  let s := { s with ref := { s.ref with cue0Prev := c0, cue1Prev := c1 } }
  let s := if e0 then s.cueGroups (fun g => g.source == .cue0) s.ref.hsc else s
  if e1 then s.cueGroups (fun g => g.source == .cue1) s.ref.hsc else s

/-! ### Requests (R95, R98, R104) -/

/-- A programme set as a list of numbers with its count. -/
def progList (ps : List (Fin 8)) : List Byte := listField (fun p : Fin 8 => byte1 p) ps

/-- The group record of the CUE.SET reply (section 12.4). -/
def groupRecord (s : State) (g : Fin 4) : List Byte :=
  let x := s.group g
  [cueSourceCode x.source] ++ byte2 x.timeout ++ flagByte x.restart ++ flagByte x.snapshot ++ flagByte x.armed
  ++ byte2 x.cueCount.toNat ++ progList (s.members g) ++ progList (s.waiting g)

/-- CUE.SET (R95). -/
def takeCueSet (body : List Byte) (s : State) : Answer :=
  match body with
  | [g, src, t1, t0, rs, sn] =>
    match readCueSource src, readFlag rs, readFlag sn with
    | some src, some restart, some snapshot =>
      match readId 4 g with
      | none => refuse s .range
      | some g =>
        let timeout := clampNat 1 6000 (nat2 t1 t0)
        let s := (s.setGroup g { s.group g with source := src, timeout := timeout, restart := restart
                                                snapshot := snapshot }).reportFrameRef
        ⟨s, okOrAdjusted (timeout != nat2 t1 t0), groupRecord s g⟩
    | _, _, _ => refuse s .malformed
  | _ => refuse s .malformed

/-- CUE.FIRE (R98): the group and its cue count as it stands after the request. -/
def takeCueFire (body : List Byte) (s : State) : Answer :=
  match body with
  | [g] =>
    match readId 4 g with
    | none => refuse s .range
    | some g =>
      let done (t : State) : Answer := ⟨t, .ok, byte1 g ++ byte2 (t.group g).cueCount.toNat⟩
      match (s.group g).source with
      | .none => refuse s .state
      | .frame => done (s.armGroup (some g))
      | .message => done (s.takeCue g s.ref.hsc)
      | .cue0 => done (s.takeCue g s.ref.hsc)
      | .cue1 => done (s.takeCue g s.ref.hsc)
  | _ => refuse s .malformed

/-- A member record on the wire (section 12.4). -/
def snapMemberBytes (x : SnapMember) : List Byte :=
  byte1 x.programme ++ byte4 x.pathDelay ++ optField signed2 x.integrated ++ signed2 x.shortTerm ++ signed2 x.applied

/-- The snapshot on the wire with the entry's overrun flag (section 12.4). -/
def snapshotBytes (x : Snapshot) (overrun : Bool) : List Byte :=
  byte1 x.group ++ byte2 x.cueNumber.toNat ++ byte4 x.hsc.toNat ++ flagByte x.unread ++ flagByte overrun
  ++ listField snapMemberBytes x.members

/-- SNAP.READ (R104). -/
def takeSnapRead (body : List Byte) (s : State) : Answer :=
  match body with
  | [g] =>
    match readId 4 g with
    | none => refuse s .range
    | some g =>
      match (s.snap g).snap with
      | none => ⟨s, .empty, []⟩
      | some x =>
        ⟨s.setSnap g { snap := some { x with unread := false }, overrun := false }, .ok, snapshotBytes x (s.snap g).overrun⟩
  | _ => refuse s .malformed

end Sys2Proof.Machine
end

