-- ==== Sys2Proof/Machine/Programmes.lean ====
section
/-! DEFINITION. The programme table: opening, closing, membership and status (chapter 3), with what a close does to the
programme's alarm sources (R154). -/

namespace Sys2Proof.Machine

/-! ### PROG.OPEN (R46 to R48) -/

/-- The entries of a PROG.OPEN lane list as they are sent: the lane byte and an optional weight. -/
def readLaneEntries : Nat → List Byte → Option (List (Byte × Option Nat) × List Byte)
  | 0, bs => some ([], bs)
  | n + 1, bs =>
    match bs with
    | [] => none
    | l :: rest =>
      match readOpt2 rest with
      | none => none
      | some (w, rest) => (readLaneEntries n rest).map (fun r => ((l, w) :: r.1, r.2))

/-- A lane entry with its weight clamped or defaulted (R47), if the lane number is in range. -/
def laneWeight (x : Byte × Option Nat) : Option LaneWeight :=
  (readId 32 x.1).map (fun n => ⟨n, clampNat 0 512 (x.2.getD 256)⟩)

/-- What PROG.OPEN asks for after its body has been read (stage 1 of R46). -/
structure OpenRequest where
  programme : Byte
  entries : List (Byte × Option Nat)
  dmax : Nat
  low : Nat
  high : Nat
  policy : ReportPolicy
  group : Byte
  deriving DecidableEq, Repr

/-- The body of PROG.OPEN (R46 stage 1, section 12.3). -/
def readOpen : List Byte → Option OpenRequest
  | p :: n :: rest =>
    match readLaneEntries n.toNat rest with
    | some (es, [a, b, c, d, e, f, g, h, i, j, k, l, pol, grp]) =>
      (readReportPolicy pol).map (fun pol =>
        { programme := p, entries := es, dmax := nat4 a b c d, low := nat4 e f g h, high := nat4 i j k l
          policy := pol, group := grp })
    | _ => none
  | _ => none

/-- Every lane of the request, in order, if each number is in range. -/
def OpenRequest.lanes? (x : OpenRequest) : Option (List LaneWeight) := x.entries.mapM laneWeight

/-- The lane numbers of a list are distinct. -/
def distinctLanes (ls : List LaneWeight) : Bool := decide ((ls.map LaneWeight.lane).Nodup)

/-- Stage 2 of R46: the programme, lanes and group of a request whose numbers are in range. -/
def OpenRequest.inRange? (x : OpenRequest) : Option (Fin 8 × List LaneWeight × Option (Fin 4)) :=
  match readId 8 x.programme, x.lanes?, readGroup x.group with
  | some p, some ls, some g =>
    if 1 ≤ ls.length ∧ ls.length ≤ 8 ∧ distinctLanes ls = true ∧ x.dmax ≤ 192000 then some (p, ls, g) else none
  | _, _, _ => none

/-- The lane is in the list of a programme in CLEARING or LIVE. -/
def State.laneTaken (s : State) (n : Fin 32) : Bool :=
  (List.finRange 8).any (fun p => hasLane (s.prog p).life.lanes n)

/-- The ring length per lane (R47). -/
def ringLength (dmax : Nat) : Nat := (dmax + 511) / 512 * 512 + 512

/-- The pages needed (R47). -/
def pagesNeeded (lanes dmax : Nat) : Nat := lanes * ringLength dmax / 512

/-- A weight was clamped (R47). -/
def weightClamped (x : Byte × Option Nat) : Bool := decide (512 < x.2.getD 256)

/-- The programme as an opening leaves it (R48). -/
def openedProgramme (x : OpenRequest) (ls : List LaneWeight) (g : Option (Fin 4)) (e : Extent) : Programme :=
  let high := min x.high x.dmax
  let low := min x.low high
  { life := .clearing { lanes := ls, rl := ringLength x.dmax, extent := e } e.len 0
    dmax := x.dmax, low := low, high := high, group := g, policy := x.policy
    move := { MoveUnit.reset with pos := low * 65536 }
    meter := Meter.opened ls.length
    gain := Corrector.reset }

/-- The PROG.OPEN reply (section 12.4). -/
def openRecord (e : Extent) (low high : Nat) : List Byte := byte2 e.start ++ byte2 e.len ++ byte4 low ++ byte4 high

/-- PROG.OPEN (R46 to R48). -/
def takeProgOpen (body : List Byte) (s : State) : Answer :=
  match readOpen body with
  | none => refuse s .malformed
  | some x =>
    match x.inRange? with
    | none => refuse s .range
    | some (p, ls, g) =>
      if !(s.prog p).life.isClosed || ls.any (fun lw => s.laneTaken lw.lane) then refuse s .state
      else
        match allocate s.freeList (pagesNeeded ls.length x.dmax) with
        | none => refuse s .noSpace
        | some (start, free) =>
          let e : Extent := ⟨start, pagesNeeded ls.length x.dmax⟩
          let y := openedProgramme x ls g e
          ⟨State.setProg { s with freeList := free } p y,
            okOrAdjusted (x.entries.any weightClamped || y.high != x.high || y.low != x.low), openRecord e y.low y.high⟩

/-! ### PROG.CLOSE (R58, R59, R154) -/

/-- What a close does to one level source: condition false, timer stopped, qualification lost at once (R154). -/
def State.closeSource (s : State) (n : Fin 59) : State :=
  let r := s.source n
  s.setSource n { r with condition := false, timer := 0, qualified := false, pending := r.pending && !r.qualified }

/-- The close of a CLEARING programme (R58). -/
def Programme.closedClearing (x : Programme) : Programme :=
  { x with life := .closed, group := none, meter := x.meter.closed }

/-- The close of a LIVE programme (R59). -/
def Programme.closedLive (x : Programme) : Programme :=
  { x with life := .closed, group := none
           move := { x.move with state := .still, staged := .empty, reports := [], lost := 0 }
           meter := x.meter.closed, gain := x.gain.closed }

/-- An extent returned (R51). -/
def State.releaseExtent (s : State) (e : Extent) : State := { s with freeList := release s.freeList e }

/-- PROG.CLOSE (R58, R59). The three level sources are closed in the order of their numbers (log entry 31). -/
def takeProgClose (body : List Byte) (s : State) : Answer :=
  match body with
  | [p] =>
    match readId 8 p with
    | none => refuse s .range
    | some p =>
      let x := s.prog p
      match x.life with
      | .closed => refuse s .state
      | .clearing h _ _ => ⟨(s.setProg p x.closedClearing).releaseExtent h.extent, .ok, []⟩
      | .live h _ =>
        let s := (s.setProg p x.closedLive).releaseExtent h.extent
        let s := if x.move.state.isCueWait then s.leftWaiting x.group else s
        ⟨((s.closeSource (silenceSource p)).closeSource (loudHighSource p)).closeSource (loudLowSource p), .ok, []⟩
  | _ => refuse s .malformed

/-! ### PROG.GROUP and PROG.STATUS (R60, R61) -/

/-- PROG.GROUP (R60). -/
def takeProgGroup (body : List Byte) (s : State) : Answer :=
  match body with
  | [p, g] =>
    match readId 8 p, readGroup g with
    | some p, some g =>
      let x := s.prog p
      if x.life.isClosed || x.move.state.isCueWait then refuse s .state
      else ⟨s.setProg p { x with group := g }, .ok, []⟩
    | _, _ => refuse s .range
  | _ => refuse s .malformed

/-- The programme status record (R61, section 12.4). A CLOSED programme reports no field of its last life. -/
def programmeRecord (p : Fin 8) (x : Programme) : List Byte :=
  let h := x.life.held?
  byte1 p ++ [lifeCode x.life]
  ++ listField (fun lw : LaneWeight => byte1 lw.lane ++ byte2 lw.weight) x.life.lanes
  ++ optField (fun _ : Held => byte4 x.dmax) h ++ optField (fun _ : Held => byte4 x.low) h
  ++ optField (fun _ : Held => byte4 x.high) h
  ++ optField (fun k : Held => byte2 k.extent.start ++ byte2 k.extent.len) h
  ++ byte2 x.life.pagesLeft ++ [groupCode (if x.life.isClosed then none else x.group)]
  ++ optField (fun _ : Held => [reportPolicyCode x.policy]) h

/-- PROG.STATUS (R61). -/
def takeProgStatus (body : List Byte) (s : State) : Answer :=
  match body with
  | [p] =>
    match readId 8 p with
    | none => refuse s .range
    | some p => ⟨s, .ok, programmeRecord p (s.prog p)⟩
  | _ => refuse s .malformed

end Sys2Proof.Machine
end

