-- ==== Sys2Proof/Machine/AlarmService.lean ====
section
/-! DEFINITION. ALM.SET (chapter 8), the alarm service requests and the contacts (chapter 9). -/

namespace Sys2Proof.Machine

/-! ### Records on the wire (section 12.4) -/

/-- The alarm source record. -/
def sourceRecord (n : Fin 59) (r : Source) : List Byte :=
  byte1 n ++ [if sourceIsLevel n then 0x00 else 0x01, (sourceOwner n).1, (sourceOwner n).2] ++ byte1 r.priority
  ++ flagByte r.masked ++ byte2 r.raiseTime ++ byte2 r.clearTime ++ flagByte r.condition ++ flagByte r.qualified
  ++ byte2 r.timer ++ flagByte r.pending ++ flagByte r.accepted ++ flagByte r.again ++ byte1 r.raiseCount
  ++ optField (fun t : Stamp => byte4 t.toNat) r.lastRaise

/-- The contact record of the CONTACT.SET reply. -/
def contactRecord (c : Fin 4) (x : Contact) : List Byte :=
  byte1 c ++ [ceilingCode x.ceiling] ++ byte1 x.minOn ++ flagByte x.asserted ++ byte1 x.onTime

/-- The numbers of the sources with a flag, ascending. -/
def State.sourcesWith (s : State) (q : Source → Bool) : List (Fin 59) := (List.finRange 59).filter (fun n => q (s.source n))

def sourceList (ns : List (Fin 59)) : List Byte := listField (fun n : Fin 59 => byte1 n) ns

/-! ### ALM.SET (R156, R157, R166) -/

/-- What ALM.SET stores: the clamped priority, the mask and the clamped times; a latched source's times are 0 (R156). -/
def Source.withSettings (lvl : Bool) (prio : Nat) (masked : Bool) (rt ct : Nat) (r : Source) : Source :=
  { r with priority := min prio 7, masked := masked
           raiseTime := if lvl then min rt 6000 else 0, clearTime := if lvl then min ct 6000 else 0 }

/-- The settings stored, with the running timer tested against the new times (R157). ATTN and the contacts are judged once,
on the record that both leave, and not between the two: DESIGN CHOICE, log entry 28. -/
def State.storeSettings (s : State) (n : Fin 59) (x : Source) : State :=
  if sourceIsLevel n && x.raiseOver x.timer then countRaises 9 1 (s.setSource n (x.qualifiedAt s.ref.hsc))
  else if sourceIsLevel n && x.clearOver x.timer then s.setSource n x.unqualified
  else s.setSource n x

/-- ALM.SET (R156, R157), judged once for the whole request (log entry 28). -/
def takeAlmSet (body : List Byte) (s : State) : Answer :=
  match body with
  | [n, prio, mask, r1, r0, c1, c0] =>
    match readFlag mask with
    | none => refuse s .malformed
    | some masked =>
      match readId 59 n with
      | none => refuse s .range
      | some n =>
        let r := s.source n
        if r.accepted && min prio.toNat 7 != r.priority then refuse s .inUse
        else
          let x := r.withSettings (sourceIsLevel n) prio.toNat masked (nat2 r1 r0) (nat2 c1 c0)
          let s := s.storeSettings n x
          ⟨s, okOrAdjusted (x.priority != prio.toNat || x.raiseTime != nat2 r1 r0 || x.clearTime != nat2 c1 c0),
            sourceRecord n (s.source n)⟩
  | _ => refuse s .malformed

/-! ### ALM.LEVEL, ALM.NEXT, ALM.LOOK (R161 to R163) -/

/-- ALM.LEVEL (R161). -/
def takeAlmLevel (body : List Byte) (s : State) : Answer :=
  match body with
  | [t] =>
    let s := State.judge { s with threshold := min t.toNat 7 }
    ⟨s, okOrAdjusted (decide (7 < t.toNat)), byte1 s.threshold ++ byte1 (acceptLevel s.sources)⟩
  | _ => refuse s .malformed

/-- The lower of two picks: the lower priority number, and among equals the lower source number (R162). -/
def betterPick (s : State) (a b : Fin 59) : Fin 59 := if (s.source b).priority < (s.source a).priority then b else a

/-- The source ALM.NEXT picks from the eligible set (R162). -/
def State.pick (s : State) : Option (Fin 59) :=
  match s.sourcesWith (Source.eligible (acceptLevel s.sources) s.threshold) with
  | [] => none
  | n :: ns => some (ns.foldl (betterPick s) n)

/-- ALM.NEXT (R162). -/
def takeAlmNext (body : List Byte) (s : State) : Answer :=
  match body with
  | [] =>
    match s.pick with
    | none => ⟨s, .empty, []⟩
    | some n =>
      let s := s.setSource n { s.source n with pending := false, accepted := true }
      ⟨s, .ok, sourceRecord n (s.source n)⟩
  | _ => refuse s .malformed

/-- ALM.LOOK (R163). -/
def takeAlmLook (body : List Byte) (s : State) : Answer :=
  match body with
  | [] =>
    match s.pick with
    | none => ⟨s, .empty, []⟩
    | some n => ⟨s, .ok, sourceRecord n (s.source n)⟩
  | _ => refuse s .malformed

/-! ### ALM.CLOSE (R164) -/

/-- The source after a close: pending again when it is a qualified level source or its repeat flag is set (R164). -/
def Source.closed (lvl : Bool) (r : Source) : Source :=
  { r with accepted := false, pending := (lvl && r.qualified) || r.again, again := false }

/-- The accepted source with the lowest priority number (R164). -/
def State.top (s : State) : Option (Fin 59) :=
  match s.sourcesWith Source.accepted with
  | [] => none
  | n :: ns => some (ns.foldl (betterPick s) n)

/-- An accepted source is closed (R164). -/
def closeAnswer (s : State) (n : Fin 59) : Answer :=
  let s := s.setSource n ((s.source n).closed (sourceIsLevel n))
  ⟨s, .ok, sourceRecord n (s.source n)⟩

/-- ALM.CLOSE (R164). -/
def takeAlmClose (body : List Byte) (s : State) : Answer :=
  match body with
  | [b] =>
    if b = 0xFF then
      match s.top with
      | none => refuse s .state
      | some n => closeAnswer s n
    else
      match readId 59 b with
      | none => refuse s .range
      | some n => if (s.source n).accepted then closeAnswer s n else refuse s .state
  | _ => refuse s .malformed

/-! ### ALM.LIST (R167) -/

/-- ALM.LIST (R167). ATTN and the contacts are sent as flags, 0x01 asserted (log entry 14). -/
def takeAlmList (body : List Byte) (s : State) : Answer :=
  match body with
  | [] =>
    ⟨s, .ok, sourceList (s.sourcesWith Source.pending) ++ sourceList (s.sourcesWith Source.accepted)
      ++ sourceList (s.sourcesWith Source.qualified) ++ byte1 s.threshold ++ byte1 (acceptLevel s.sources)
      ++ flagByte s.attn ++ s.contacts.toList.flatMap (fun c => flagByte c.asserted)⟩
  | _ => refuse s .malformed

/-! ### Contacts (R170, R171) -/

/-- An asserted contact's on-time count stepped, and its release when the demand is false (R170). -/
def Contact.step (d : Bool) (c : Contact) : Contact :=
  if c.asserted then
    let k := satInc 100 c.onTime
    if !d && decide (c.minOn ≤ k) then { c with asserted := false, onTime := 0 } else { c with onTime := k }
  else c

/-- The contact releases at the next block end (R170). -/
def Contact.releasesNext (d : Bool) (c : Contact) : Bool := c.asserted && !d && decide (c.minOn ≤ satInc 100 c.onTime)

/-- The block end at a contact (R170). -/
def State.contactStep (s : State) (c : Fin 4) : State :=
  s.setContact c ((s.contact c).step (demand s.sources (s.contact c).ceiling))

/-- CONTACT.SET judges the contact at the request: DISABLED releases at once (R171). -/
def Contact.set (d : Bool) (ceiling : Option Nat) (minOn : Nat) (c : Contact) : Contact :=
  match ceiling with
  | none => { ceiling := none, minOn := minOn, asserted := false, onTime := 0 }
  | some k => Contact.judge d { c with ceiling := some k, minOn := minOn }

/-- CONTACT.SET (R171). -/
def takeContactSet (body : List Byte) (s : State) : Answer :=
  match body with
  | [c, ceil, m1, m0] =>
    match readCeiling ceil with
    | none => refuse s .malformed
    | some ceiling =>
      match readId 4 c with
      | none => refuse s .range
      | some c =>
        let minOn := min (nat2 m1 m0) 100
        let x := (s.contact c).set (demand s.sources ceiling) ceiling minOn
        ⟨s.setContact c x, okOrAdjusted (minOn != nat2 m1 m0), contactRecord c x⟩
  | _ => refuse s .malformed

end Sys2Proof.Machine
end

