-- ==== Sys2Proof/Machine/Statistics.lean ====
section
/-! DEFINITION. The requests to the statistics bank (chapter 10). -/

namespace Sys2Proof.Machine

/-- The counter record (R174, section 12.4). -/
def counterRecord (c : Fin 8) (x : Counter) : List Byte :=
  byte1 c ++ [countEventCode x.event, x.qualifier, countModeCode x.mode] ++ flagByte x.clearOnRead ++ flagByte x.alarmEnable
  ++ byte4 x.value.toNat ++ flagByte x.half

/-- Value 0 and the half flag clear; the configuration is kept (R177, R178). -/
def Counter.zeroed (x : Counter) : Counter := { x with value := 0, half := false }

/-- COUNT.READ (R177). -/
def takeCountRead (body : List Byte) (s : State) : Answer :=
  match body with
  | [c] =>
    match readId 8 c with
    | none => refuse s .range
    | some c =>
      let x := s.counter c
      ⟨if x.clearOnRead then s.setCounter c x.zeroed else s, .ok, counterRecord c x⟩
  | _ => refuse s .malformed

/-- COUNT.CLEAR (R178): one counter, or all eight as 0xFF. All eight take the clear at the one command, so a simultaneous event
comes before it at every counter or after it at every counter: DESIGN CHOICE, log entry 27. -/
def takeCountClear (body : List Byte) (s : State) : Answer :=
  match body with
  | [c] =>
    if c = 0xFF then ⟨{ s with counters := s.counters.map Counter.zeroed }, .ok, []⟩
    else
      match readId 8 c with
      | none => refuse s .range
      | some c => ⟨s.setCounter c (s.counter c).zeroed, .ok, []⟩
  | _ => refuse s .malformed

/-- A non-empty qualifier with an event of owner kind none, or with NONE (R179). -/
def qualifierMisused (e : Option CountEvent) (q : BitVec 8) : Bool :=
  q != 0 && (match e with
    | none => true
    | some e => e.ownerless)

/-- COUNT.SET (R179). -/
def takeCountSet (body : List Byte) (s : State) : Answer :=
  match body with
  | [c, e, q, m, cr, ha] =>
    match readCountEvent e, readCountMode m, readFlag cr, readFlag ha with
    | some ev, some mode, some clr, some alarm =>
      if qualifierMisused ev q then refuse s .malformed
      else
        match readId 8 c with
        | none => refuse s .range
        | some c =>
          let x : Counter :=
            { event := ev, qualifier := q, mode := mode, clearOnRead := clr, alarmEnable := alarm, value := 0, half := false }
          ⟨s.setCounter c x, .ok, counterRecord c x⟩
    | _, _, _, _ => refuse s .malformed
  | _ => refuse s .malformed

end Sys2Proof.Machine
end

