-- ==== Sys2Proof/Machine/HouseTime.lean ====
section
/-! DEFINITION. House samples and block ends as they are delivered to every block (R89), and the share of either that one
unit can take ahead of the rest (log entry 4). -/

namespace Sys2Proof.Machine

/-! ### The clock (R88, R89) -/

/-- A house sample at the reference unit's counts: the first after the reset has HSC 0 and phase 0. -/
def RefUnit.tick (r : RefUnit) : RefUnit :=
  if r.started then
    { r with hsc := r.hsc + 1, phase := if r.phase = 4799 then 0 else r.phase + 1, blockEndTaken := false }
  else { r with started := true }

/-- The block end falls next: the last house sample had phase 4,799 and its block has not been ended (R89). -/
def State.blockEndDue (s : State) : Bool :=
  !s.startUp && s.ref.started && s.ref.phase == 4799 && !s.ref.blockEndTaken

/-- A house sample falls next. -/
def State.sampleDue (s : State) : Bool := !s.startUp && !s.blockEndDue

/-- The units whose share of a house sample may have been taken ahead, and those of a block end. -/
def Ahead.ofSample : Ahead → Bool
  | .move _ => true
  | .gain _ => true
  | .clear _ => true
  | .frameRef => true
  | .cueWait _ => false
  | .source _ => false
  | .contact _ => false

/-- Do a unit's share unless it has been taken ahead. -/
def State.unlessAhead (s : State) (a : Ahead) (f : State → State) : State := if s.ahead.contains a then s else f s

/-! ### The block end -/

/-- The meter and corrector of one programme at a block end (R109, R110 to R119, R132 to R134, R139). -/
def State.programmeBlockEnd (marks : Vector Bool 8) (p : Fin 8) (s : State) : State :=
  let x := s.prog p
  match x.life with
  | .closed => s
  | .clearing _ _ _ => s
  | .live h w =>
    if x.meter.opening then (s.setMeter p x.meter.closeOpening).sendClipped p
    else
      let r := x.meter.result h.lanes (suspectBlock s.feeds marks h.lanes)
      (((s.setMeter p r.1).gainResult p x.meter.settings r.2 w).meterEvents p x.meter.settings r.2).sendClipped p

/-- The timer steps of a block end at the level sources, but for those taken ahead (R148). -/
def State.stepTimers (s : State) : State :=
  forEach 59 (fun n t => if sourceIsLevel n then t.unlessAhead (.source n) (fun u => u.timerStep n) else t) s

/-- The block end delivered to every block, in the model's order (log entry 11). A level source that has taken it ahead gets
its owner's report behind its timer step, and every other one before it (R151, log entry 30). -/
def State.takeBlockEnd (s : State) : State :=
  let marks := s.marks
  let s := { s with ref := { s.ref with blockNo := s.ref.blockNo + 1, blockEndTaken := true } }
  let s := forEach 4 (fun c t => t.unlessAhead (.contact c) (fun u => u.contactStep c)) s
  let s := forEach 8 (fun l t => t.linkBlockEnd l) s
  let s := s.count .memOcc none (Config.pages - freePages s.freeList)
  let s := s.count .blocks none 1
  let s := forEach 8 (State.programmeBlockEnd marks) s
  let s := s.resetFeeds
  let s := forEach 8 (fun p t => t.unlessAhead (.cueWait p) (fun u => u.cueWaitStep p)) s
  let s := s.stepTimers
  { s with ahead := s.ahead.filter Ahead.ofSample }

/-! ### The house sample -/

/-- The lane outputs so far with those of a lane list silent (R43). -/
def silenced (lanes : List LaneWeight) (out : Vector Slot 32) : Vector Slot 32 :=
  lanes.foldl (fun o lw => o.set lw.lane Slot.silent) out

/-- What the lanes of a LIVE programme put out, in lane-list order, and whether each was saturated (R57, R138, R139). -/
def liveOutputs (ins : Vector LaneIn 32) (m : List (Nat × Slot)) (h : Held) (w : Nat) (x : Programme) :
    List (Fin 32 × (Slot × Bool)) :=
  let g := gainFactor x.gain.applied
  h.lanes.zipIdx.map (fun y =>
    (y.1.lane, liveOutput m h w x.move.dcur g x.move.fade y.2 ins[y.1.lane]))

/-- The house sample at a LIVE programme: the move step, the schedule take and the ramp, the ring write, the meter, and
the lane outputs (R63, R135, R137, R55, R106, R57). -/
def State.liveSample (ins : Vector LaneIn 32) (p : Fin 8) (h : Held) (w : Nat) (s : State) : State × List (Fin 32 × (Slot × Bool)) :=
  let s := s.unlessAhead (.move p) (fun u => u.moveStep p)
  let s := s.unlessAhead (.gain p) (fun u => u.gainStep p w)
  let x := s.prog p
  let m := writeRings ins h w s.mem
  let outs := liveOutputs ins m h w x
  let y := { x with life := .live h ((w + 1) % 281474976710656), meter := x.meter.take ins h.lanes
                    gain := { x.gain with clip := x.gain.clip + outs.countP (fun o => o.2.2) } }
  (State.setProg { s with mem := m } p y, outs)

/-- The house sample at one programme, with the lane outputs of the house sample so far (R43). A programme whose last page
is cleared at this very house sample is silent in it (R53). -/
def programmeSample (ins : Vector LaneIn 32) (acc : State × Vector Slot 32) (p : Fin 8) : State × Vector Slot 32 :=
  match (acc.1.prog p).life with
  | .closed => acc
  | .clearing h _ _ => (acc.1, silenced h.lanes acc.2)
  | .live h w =>
    if acc.1.ahead.contains (.clear p) then (acc.1, silenced h.lanes acc.2)
    else
      let r := acc.1.liveSample ins p h w
      (r.1, r.2.foldl (fun o x => o.set x.1 x.2.1) acc.2)

/-- A house sample delivered to every block, in the model's order (log entry 12): a block end that falls before it, the
clock, the output reads, the programmes, the output stage, page clearing, FRM, the absence test and the cue lines. -/
def State.takeHouseSample (s : State) (frm c0 c1 : Bool) : State :=
  let s := if s.blockEndDue then s.takeBlockEnd else s
  let s := { s with ref := s.ref.tick }
  let rs := s.reads
  let s := s.readConverters rs
  let ins := s.laneIns rs
  let r := (List.finRange 8).foldl (programmeSample ins) (s, ins.map LaneIn.passed)
  let s := r.1.pushOutputs r.2
  let s := forEach 8 (fun p t => t.unlessAhead (.clear p) (fun u => u.clearStep p)) s
  let s := ((s.sampleFrm frm).absenceTest).sampleCues c0 c1
  { s with ahead := s.ahead.filter (fun a => !a.ofSample) }

/-! ### A share taken ahead (log entry 4) -/

/-- A unit's share of the house sample now due, taken at that sample's house time, which the reference unit has yet to
count. -/
def State.onSample (s : State) (f : State → State) : State :=
  let t := f { s with ref := s.ref.tick }
  { t with ref := { t.ref with started := s.ref.started, hsc := s.ref.hsc, phase := s.ref.phase
                               blockEndTaken := s.ref.blockEndTaken } }

/-- The unit has taken its share. -/
def State.markAhead (s : State) (a : Ahead) : State := { s with ahead := a :: s.ahead }

/-- A house sample or block end of which a unit has taken its share ahead is taken by every other unit too, the house sample
with FRM, CUE0 and CUE1 as they were sampled last. So a request, an arrival or a discard finds the part before a house sample
or block end or after it, never between two units' shares of one (R89, R99; log entry 4; `State.settledFor` has the exception).
Where a house sample would stop (log entry 9) it is not taken. -/
def State.settled (s : State) : State :=
  if s.ahead.isEmpty then s
  else if s.blockEndDue then { s.takeBlockEnd with ahead := [] }
  else
    match s.extentOutside? with
    | some _ => s
    | none => { s.takeHouseSample s.ref.frmPrev s.ref.cue0Prev s.ref.cue1Prev with ahead := [] }

/-- The write index of a programme that takes the house sample now due as LIVE. -/
def State.liveIndex? (s : State) (p : Fin 8) : Option Nat :=
  match (s.prog p).life with
  | .live _ w => if s.ahead.contains (.clear p) then none else some w
  | .closed => none
  | .clearing _ _ _ => none

/-! ### The meanings of the events of house time -/

/-- HOUSE_SAMPLE (R89). House time does not run during start-up (R187). -/
def execHouseSample (frm c0 c1 : Bool) (s : State) : Host.Outcome State Fault Refusal :=
  if s.startUp then .next s
  else
    match s.extentOutside? with
    | some p => .fault (.extentOutsideMemory p)
    | none => .next (s.takeHouseSample frm c0 c1)

/-- BLOCK_END (R89): the block end that falls after phase 4,799. -/
def execBlockEnd (s : State) : Host.Outcome State Fault Refusal :=
  .next (if s.blockEndDue then s.takeBlockEnd else s)

/-- MOVE_END (R71): the step of the house sample now due ends the programme's move. -/
def execMoveEnd (p : Fin 8) (s : State) : Host.Outcome State Fault Refusal :=
  .next (if s.sampleDue && (s.liveIndex? p).isSome && !s.ahead.contains (.move p) && (s.prog p).move.endsNext then
      (s.onSample (fun u => u.moveStep p)).markAhead (.move p)
    else s)

/-- APPLIED_GAIN_STEP (R137): the ramp count reaches 48 at the house sample now due. The move unit's step and the take of
that house sample come before it (R63, R135). -/
def execAppliedGainStep (p : Fin 8) (s : State) : Host.Outcome State Fault Refusal :=
  .next (match s.liveIndex? p with
    | none => s
    | some w =>
      let t := if s.ahead.contains (.move p) then s else (s.onSample (fun u => u.moveStep p)).markAhead (.move p)
      if s.sampleDue && !s.ahead.contains (.gain p)
          && ((t.prog p).gain.takeDue ((w : Int) - (t.prog p).move.dcur)).1.rampDue then
        (t.onSample (fun u => u.gainStep p w)).markAhead (.gain p)
      else s)

/-- FRAME_REFERENCE_ABSENT (R91): the house sample now due reaches the absence limit. -/
def execFrameReferenceAbsent (s : State) : Host.Outcome State Fault Refusal :=
  .next (if s.sampleDue && !s.ahead.contains .frameRef && s.ref.tick.absenceDue then
      (s.onSample State.becomeAbsent).markAhead .frameRef
    else s)

/-- The house sample now due is the sixth since the programme's last clearing step (R52). -/
def Life.clearsNext : Life → Bool
  | .clearing _ _ count => decide (6 ≤ count + 1)
  | .closed => false
  | .live _ _ => false

/-- PAGE_CLEAR_STEP (R52). -/
def execPageClearStep (p : Fin 8) (s : State) : Host.Outcome State Fault Refusal :=
  if s.sampleDue && !s.ahead.contains (.clear p) && (s.prog p).life.clearsNext then
    if (s.prog p).life.extentInside then .next ((s.onSample (fun u => u.clearStep p)).markAhead (.clear p))
    else .fault (.extentOutsideMemory p)
  else .next s

/-- CUE_TIMEOUT (R75): the wait count reaches the group's timeout at the block end now due. -/
def execCueTimeout (p : Fin 8) (s : State) : Host.Outcome State Fault Refusal :=
  .next (if s.blockEndDue && !s.ahead.contains (.cueWait p) && s.cueTimesOut p then
      (s.cueWaitStep p).markAhead (.cueWait p)
    else s)

/-- The level source has yet to take the block end now due. -/
def State.sourceDue (s : State) (n : Fin 59) : Bool := s.blockEndDue && sourceIsLevel n && !s.ahead.contains (.source n)

/-- SOURCE_QUALIFIES (R148, R149): the source takes the block end now due ahead of a report of that block end (R151, log entry
30), and qualifies where its raise timer runs out. A source whose clear timer runs out has SOURCE_LOSES_QUALIFICATION. -/
def execSourceQualifies (n : Fin 59) (s : State) : Host.Outcome State Fault Refusal :=
  .next (if s.sourceDue n && !(s.source n).clearOver ((s.source n).timer + 1) then (s.timerStep n).markAhead (.source n) else s)

/-- SOURCE_LOSES_QUALIFICATION (R148, R150): the source takes the block end now due ahead of a report of that block end (R151,
log entry 30), and loses qualification where its clear timer runs out. A source whose raise timer runs out has
SOURCE_QUALIFIES. -/
def execSourceLosesQualification (n : Fin 59) (s : State) : Host.Outcome State Fault Refusal :=
  .next (if s.sourceDue n && !(s.source n).raiseOver ((s.source n).timer + 1) then (s.timerStep n).markAhead (.source n) else s)

/-- CONTACT_RELEASE (R170): the on-time count reaches the minimum at the block end now due. -/
def execContactRelease (c : Fin 4) (s : State) : Host.Outcome State Fault Refusal :=
  .next (if s.blockEndDue && !s.ahead.contains (.contact c)
      && (s.contact c).releasesNext (demand s.sources (s.contact c).ceiling) then
      (s.contactStep c).markAhead (.contact c)
    else s)

end Sys2Proof.Machine
end

