-- ==== Sys2Proof/Machine/Control.lean ====
section
/-! DEFINITION. The control port (chapter 11): the receiver, the check, the holding, dispatch and replies, the part's own
messages, and the resets. -/

namespace Sys2Proof.Machine

/-! ### The check (R182) -/

/-- One bit of the check, generator x^16 + x^12 + x^5 + 1. -/
def crcBit (c : BitVec 16) : BitVec 16 := if c.msb then (c <<< 1) ^^^ 0x1021 else c <<< 1

/-- One byte, most significant bit first. -/
def crcByte (c : BitVec 16) (b : Byte) : BitVec 16 :=
  crcBit (crcBit (crcBit (crcBit (crcBit (crcBit (crcBit (crcBit (c ^^^ (b.setWidth 16 <<< 8)))))))))

/-- The check over a run of bytes, from 0xFFFF with no final inversion (R182). -/
def crc (bs : List Byte) : BitVec 16 := bs.foldl crcByte 0xFFFF

/-- The two CHECK bytes, high byte first. -/
def checkBytes (bs : List Byte) : List Byte := [(crc bs).extractLsb' 8 8, (crc bs).extractLsb' 0 8]

/-! ### Replies (R185) -/

/-- A reply's bytes from LEN to the last body byte (R185, section 12.1). The CODE of the reply is one byte, so that of an
unknown request code of 0x80 to 0xFF wraps modulo 256: DESIGN CHOICE, log entry 29. -/
def replyContent (r : Request) (st : Status) (body : List Byte) : List Byte :=
  BitVec.ofNat 8 (body.length + 3) :: r.tag :: (r.code + 0x80) :: statusCode st :: body

/-- The reply frame (R185). -/
def replyFrame (r : Request) (st : Status) (body : List Byte) : List Byte :=
  0xC5 :: (replyContent r st body ++ checkBytes (replyContent r st body))

/-! ### The part's own messages (R188 to R190) -/

/-- IDENTIFY (R189). -/
def takeIdentify (body : List Byte) (s : State) : Answer :=
  match body with
  | [] =>
    ⟨s, .ok, Config.familyCode ++ byte2 Config.partNumber ++ byte1 Config.revision ++ byte1 8 ++ byte1 32 ++ byte1 8
      ++ byte2 Config.pages⟩
  | _ => refuse s .malformed

/-- RESET (R188): the reply is sent first, and the reset takes effect at its last byte. -/
def takeReset (body : List Byte) (s : State) : Answer :=
  match body with
  | [] => ⟨s, .ok, []⟩
  | _ => refuse s .malformed

/-- HOUSE.STATUS (R190). -/
def takeHouseStatus (body : List Byte) (s : State) : Answer :=
  match body with
  | [] =>
    ⟨s, .ok, byte4 s.ref.hsc.toNat ++ byte2 s.ref.phase ++ byte4 s.ref.blockNo.toNat ++ flagByte s.ref.present
      ++ optField byte2 s.ref.history.getLast?⟩
  | _ => refuse s .malformed

/-! ### Dispatch (R185) -/

/-- The owning block's taking of each message of the catalogue (section 11.5). -/
def requestTable : List (Byte × (List Byte → State → Answer)) :=
  [(0x01, takeIdentify), (0x02, takeReset), (0x03, takeHouseStatus), (0x10, takeLinkSet), (0x11, takeLinkStatus),
   (0x12, takeRouteSet), (0x13, takeRouteGet), (0x20, takeProgOpen), (0x21, takeProgClose), (0x22, takeProgStatus),
   (0x23, takeProgGroup), (0x30, takeMoveSet), (0x31, takeMoveGo), (0x32, takeMoveDiscard), (0x33, takeMoveHold),
   (0x34, takeMoveFinish), (0x35, takeMoveResume), (0x36, takeMoveHoldall), (0x37, takeMoveStatus),
   (0x38, takeMoveReports), (0x40, takeCueSet), (0x41, takeCueFire), (0x42, takeSnapRead), (0x50, takeLoudSet),
   (0x51, takeLoudRead), (0x52, takeLoudRestart), (0x53, takeGainSet), (0x54, takeGainRead), (0x60, takeAlmSet),
   (0x61, takeAlmNext), (0x62, takeAlmLook), (0x63, takeAlmClose), (0x64, takeAlmLevel), (0x65, takeAlmList),
   (0x66, takeContactSet), (0x70, takeCountSet), (0x71, takeCountRead), (0x72, takeCountClear)]

/-- The owning block takes the request; a CODE that names no message is answered UNKNOWN (R185). -/
def takeRequest (code : Byte) (body : List Byte) (s : State) : Answer :=
  match requestTable.find? (fun e => e.1 == code) with
  | some e => e.2 body s
  | none => refuse s .unknown

def State.setPort (s : State) (x : Port) : State := { s with port := x }

/-- The frame in hand is dispatched, and its reply is in progress (R185). -/
def State.dispatch (s : State) (r : Request) : State :=
  let a := takeRequest r.code r.body s
  a.state.setPort { a.state.port with reply := some (replyFrame r a.status a.body) }

/-! ### Discards (R183) -/

/-- The receiver returns to HUNT with no frame in reception. -/
def State.hunt (s : State) : State := s.setPort { s.port with rx := .hunt, reception := [] }

/-- The frame in reception is discarded: CONTROL to source 58 and CONTROL_ERR to the statistics bank (R183), in this order (log
entry 31). A house sample or
block end that has been taken in part is taken whole first (log entry 4). -/
def State.discardFrame (s : State) : State := (s.hunt.settled.latch controlSource).count .controlErr none 1

/-! ### The holding (R184) -/

/-- The requests that reach the move units one by one, each before or after its own share of a block end: MOVE.HOLDALL (R82),
CUE.SET (R95) and CUE.FIRE (R100, R101). -/
def Request.reachesUnits (r : Request) : Bool := [0x36, 0x40, 0x41].contains r.code

/-- The state in which a request is dispatched (log entry 4). A house sample or block end that has been taken in part is taken
whole first, but for a block end before a request that reaches the move units one by one: a cue comes after the timeouts that
have been taken and before the others (R101). -/
def State.settledFor (s : State) (r : Request) : State := if s.blockEndDue && r.reachesUnits then s else s.settled

/-- A checked frame is offered to the holding (R184): with none held it is dispatched, behind one it waits, and behind
two it is discarded. The receiver is in HUNT after it (R182). -/
def State.receive (s : State) (r : Request) : State :=
  match s.port.holding with
  | [] =>
    let s := s.hunt.settledFor r
    (s.setPort { s.port with holding := [r] }).dispatch r
  | [x] => s.hunt.setPort { s.hunt.port with holding := [x, r] }
  | _ :: _ :: _ => s.discardFrame

/-- A whole request frame reaches the part. During start-up its bytes are dropped (R187). -/
def State.offer (s : State) (r : Request) : State := if s.startUp then s else s.receive r

/-! ### Receiving bytes (R182) -/

/-- A frame whose bytes from LEN onward are complete: its check is tested (R182). -/
def State.completeFrame (s : State) (bytes : List Byte) : State :=
  match bytes with
  | len :: rest =>
    let content := rest.take len.toNat
    match content with
    | tag :: code :: body =>
      if rest.drop len.toNat = checkBytes (len :: content) then s.receive ⟨tag, code, body⟩ else s.discardFrame
    | [] => s.discardFrame
    | [_] => s.discardFrame
  | [] => s.discardFrame

/-- One byte taken by the receiver (R182). -/
def State.takeByte (s : State) (b : Byte) : State :=
  match s.port.rx with
  | .hunt => if b = 0xC5 then s.setPort { s.port with rx := .length, reception := [] } else s
  | .length =>
    if 2 ≤ b.toNat ∧ b.toNat ≤ 252 then s.setPort { s.port with rx := .collect, reception := [b] } else s.discardFrame
  | .collect =>
    let bytes := s.port.reception ++ [b]
    if (bytes.headD 0).toNat + 3 ≤ bytes.length then s.completeFrame bytes
    else s.setPort { s.port with reception := bytes }

/-! ### Resets (R187, R188) -/

/-- Every block at its values after power-on reset, start-up running. The contents of delay memory are not changed (R49),
nor is the queue of commands, which stands outside the part. -/
def State.resetAll (s : State) : State := { State.reset with mem := s.mem, pending := s.pending }

/-- The frame in hand is a RESET that was accepted: its reply is followed by the reset (R188). -/
def State.resetInHand (s : State) : Bool :=
  match s.port.holding with
  | r :: _ => r.code == 0x02 && r.body.isEmpty
  | [] => false

/-- The last byte of the reply has been sent: the frame in hand leaves, and the waiting frame goes into hand (R184) and is
dispatched as in `State.receive`. -/
def State.replyDone (s : State) : State :=
  match s.port.holding.drop 1 with
  | [] => s.setPort { s.port with holding := [], reply := none }
  | r :: rest =>
    let s := s.settledFor r
    (s.setPort { s.port with holding := r :: rest, reply := none }).dispatch r

end Sys2Proof.Machine
end

