-- ==== Sys2Proof/Machine/Requests.lean ====
section
/-! DEFINITION. The meanings of the pins, the control line and the requests. A request row is a whole checked request frame:
it is offered to the holding (R184), and the owning block takes it when it goes into hand (R185). -/

namespace Sys2Proof.Machine

/-! ### Resets (R187, R188) -/

/-- POWER_ON_RESET (R187): RESETn low, and its rise. -/
def execPowerOnReset (s : State) : Host.Outcome State Fault Refusal := .next s.resetAll

/-- START_UP_END (R187): the receiver is in HUNT with the holding empty, and house time begins. Outside start-up there is
no such end. -/
def execStartUpEnd (s : State) : Host.Outcome State Fault Refusal := .next { s with startUp := false }

/-- RESET_TAKES_EFFECT (R188): the last byte of the reply to an accepted RESET has been sent. -/
def execResetTakesEffect (s : State) : Host.Outcome State Fault Refusal :=
  .next (if s.port.reply.isSome && s.resetInHand then s.resetAll else s)

/-! ### Input links (R1) -/

/-- FRAME_ARRIVAL (R1, R3). A house sample or block end that has been taken in part is taken whole before a frame that an
enabled link takes (log entry 4). -/
def execFrameArrival (l : Fin 8) (slots : AudioFrame) (parityOk : Bool) (s : State) : Host.Outcome State Fault Refusal :=
  .next (if (s.link l).rx.enable then s.settled.arrive l slots parityOk else s)

/-! ### The control line (R182 to R185) -/

/-- CONTROL_BYTE (R182). During start-up the byte is dropped (R187). A byte is one command, with no start bit of its own: one
whose start bit came during start-up stands before START_UP_END in the queue, also when its stop bit comes after, and any other
stands at its end: DESIGN CHOICE, log entry 19. -/
def execControlByte (b : Byte) (s : State) : Host.Outcome State Fault Refusal :=
  .next (if s.startUp then s else s.takeByte b)

/-- A frame that arrives whole is discarded for this cause (R183). -/
def State.discards (s : State) : DiscardCause → Bool
  | .badLen len => !lenInRange len
  | .badCheck => true
  | .holdingFull => decide (2 ≤ s.port.holding.length)

/-- REQUEST_FRAME_DISCARD (R183). -/
def execRequestFrameDiscard (cause : DiscardCause) (s : State) : Host.Outcome State Fault Refusal :=
  .next (if !s.startUp && s.discards cause then s.discardFrame else s)

/-- A frame is being received: the receiver is in LENGTH or COLLECT. -/
def Port.receiving (x : Port) : Bool := x.rx != .hunt

/-- INTER_BYTE_GAP (R183). -/
def execInterByteGap (s : State) : Host.Outcome State Fault Refusal :=
  .next (if !s.startUp && s.port.receiving then s.discardFrame else s)

/-- REPLY_SENT (R184). The reply of an accepted RESET is followed by the reset (R188). -/
def execReplySent (s : State) : Host.Outcome State Fault Refusal :=
  .next (if s.port.reply.isNone then s else if s.resetInHand then s.resetAll else s.replyDone)

/-! ### Requests -/

/-- UNKNOWN (R185). -/
def execUnknown (code tag : Byte) (body : List Byte) (s : State) : Host.Outcome State Fault Refusal :=
  .next (s.offer ⟨tag, code, body⟩)

/-- IDENTIFY (R189). -/
def execIdentify (tag : Byte) (body : List Byte) (s : State) : Host.Outcome State Fault Refusal :=
  .next (s.offer ⟨tag, 0x01, body⟩)

/-- RESET (R188). -/
def execReset (tag : Byte) (body : List Byte) (s : State) : Host.Outcome State Fault Refusal :=
  .next (s.offer ⟨tag, 0x02, body⟩)

/-- HOUSE_STATUS (R190). -/
def execHouseStatus (tag : Byte) (body : List Byte) (s : State) : Host.Outcome State Fault Refusal :=
  .next (s.offer ⟨tag, 0x03, body⟩)

/-- LINK_SET (R12). -/
def execLinkSet (tag : Byte) (body : List Byte) (s : State) : Host.Outcome State Fault Refusal :=
  .next (s.offer ⟨tag, 0x10, body⟩)

/-- LINK_STATUS (R37). -/
def execLinkStatus (tag : Byte) (body : List Byte) (s : State) : Host.Outcome State Fault Refusal :=
  .next (s.offer ⟨tag, 0x11, body⟩)

/-- ROUTE_SET (R40). -/
def execRouteSet (tag : Byte) (body : List Byte) (s : State) : Host.Outcome State Fault Refusal :=
  .next (s.offer ⟨tag, 0x12, body⟩)

/-- ROUTE_GET (R41). -/
def execRouteGet (tag : Byte) (body : List Byte) (s : State) : Host.Outcome State Fault Refusal :=
  .next (s.offer ⟨tag, 0x13, body⟩)

/-- PROG_OPEN (R46). -/
def execProgOpen (tag : Byte) (body : List Byte) (s : State) : Host.Outcome State Fault Refusal :=
  .next (s.offer ⟨tag, 0x20, body⟩)

/-- PROG_CLOSE (R58). -/
def execProgClose (tag : Byte) (body : List Byte) (s : State) : Host.Outcome State Fault Refusal :=
  .next (s.offer ⟨tag, 0x21, body⟩)

/-- PROG_STATUS (R61). -/
def execProgStatus (tag : Byte) (body : List Byte) (s : State) : Host.Outcome State Fault Refusal :=
  .next (s.offer ⟨tag, 0x22, body⟩)

/-- PROG_GROUP (R60). -/
def execProgGroup (tag : Byte) (body : List Byte) (s : State) : Host.Outcome State Fault Refusal :=
  .next (s.offer ⟨tag, 0x23, body⟩)

/-- MOVE_SET (R66). -/
def execMoveSet (tag : Byte) (body : List Byte) (s : State) : Host.Outcome State Fault Refusal :=
  .next (s.offer ⟨tag, 0x30, body⟩)

/-- MOVE_GO (R69). -/
def execMoveGo (tag : Byte) (body : List Byte) (s : State) : Host.Outcome State Fault Refusal :=
  .next (s.offer ⟨tag, 0x31, body⟩)

/-- MOVE_DISCARD (R68). -/
def execMoveDiscard (tag : Byte) (body : List Byte) (s : State) : Host.Outcome State Fault Refusal :=
  .next (s.offer ⟨tag, 0x32, body⟩)

/-- MOVE_HOLD (R76). -/
def execMoveHold (tag : Byte) (body : List Byte) (s : State) : Host.Outcome State Fault Refusal :=
  .next (s.offer ⟨tag, 0x33, body⟩)

/-- MOVE_FINISH (R81). -/
def execMoveFinish (tag : Byte) (body : List Byte) (s : State) : Host.Outcome State Fault Refusal :=
  .next (s.offer ⟨tag, 0x34, body⟩)

/-- MOVE_RESUME (R79). -/
def execMoveResume (tag : Byte) (body : List Byte) (s : State) : Host.Outcome State Fault Refusal :=
  .next (s.offer ⟨tag, 0x35, body⟩)

/-- MOVE_HOLDALL (R82). -/
def execMoveHoldall (tag : Byte) (body : List Byte) (s : State) : Host.Outcome State Fault Refusal :=
  .next (s.offer ⟨tag, 0x36, body⟩)

/-- MOVE_STATUS (R86). -/
def execMoveStatus (tag : Byte) (body : List Byte) (s : State) : Host.Outcome State Fault Refusal :=
  .next (s.offer ⟨tag, 0x37, body⟩)

/-- MOVE_REPORTS (R85). -/
def execMoveReports (tag : Byte) (body : List Byte) (s : State) : Host.Outcome State Fault Refusal :=
  .next (s.offer ⟨tag, 0x38, body⟩)

/-- CUE_SET (R95). -/
def execCueSet (tag : Byte) (body : List Byte) (s : State) : Host.Outcome State Fault Refusal :=
  .next (s.offer ⟨tag, 0x40, body⟩)

/-- CUE_FIRE (R98). -/
def execCueFire (tag : Byte) (body : List Byte) (s : State) : Host.Outcome State Fault Refusal :=
  .next (s.offer ⟨tag, 0x41, body⟩)

/-- SNAP_READ (R104). -/
def execSnapRead (tag : Byte) (body : List Byte) (s : State) : Host.Outcome State Fault Refusal :=
  .next (s.offer ⟨tag, 0x42, body⟩)

/-- LOUD_SET (R123). -/
def execLoudSet (tag : Byte) (body : List Byte) (s : State) : Host.Outcome State Fault Refusal :=
  .next (s.offer ⟨tag, 0x50, body⟩)

/-- LOUD_READ (R125). -/
def execLoudRead (tag : Byte) (body : List Byte) (s : State) : Host.Outcome State Fault Refusal :=
  .next (s.offer ⟨tag, 0x51, body⟩)

/-- LOUD_RESTART (R124). -/
def execLoudRestart (tag : Byte) (body : List Byte) (s : State) : Host.Outcome State Fault Refusal :=
  .next (s.offer ⟨tag, 0x52, body⟩)

/-- GAIN_SET (R129). -/
def execGainSet (tag : Byte) (body : List Byte) (s : State) : Host.Outcome State Fault Refusal :=
  .next (s.offer ⟨tag, 0x53, body⟩)

/-- GAIN_READ (R140). -/
def execGainRead (tag : Byte) (body : List Byte) (s : State) : Host.Outcome State Fault Refusal :=
  .next (s.offer ⟨tag, 0x54, body⟩)

/-- ALM_SET (R156). -/
def execAlmSet (tag : Byte) (body : List Byte) (s : State) : Host.Outcome State Fault Refusal :=
  .next (s.offer ⟨tag, 0x60, body⟩)

/-- ALM_NEXT (R162). -/
def execAlmNext (tag : Byte) (body : List Byte) (s : State) : Host.Outcome State Fault Refusal :=
  .next (s.offer ⟨tag, 0x61, body⟩)

/-- ALM_LOOK (R163). -/
def execAlmLook (tag : Byte) (body : List Byte) (s : State) : Host.Outcome State Fault Refusal :=
  .next (s.offer ⟨tag, 0x62, body⟩)

/-- ALM_CLOSE (R164). -/
def execAlmClose (tag : Byte) (body : List Byte) (s : State) : Host.Outcome State Fault Refusal :=
  .next (s.offer ⟨tag, 0x63, body⟩)

/-- ALM_LEVEL (R161). -/
def execAlmLevel (tag : Byte) (body : List Byte) (s : State) : Host.Outcome State Fault Refusal :=
  .next (s.offer ⟨tag, 0x64, body⟩)

/-- ALM_LIST (R167). -/
def execAlmList (tag : Byte) (body : List Byte) (s : State) : Host.Outcome State Fault Refusal :=
  .next (s.offer ⟨tag, 0x65, body⟩)

/-- CONTACT_SET (R171). -/
def execContactSet (tag : Byte) (body : List Byte) (s : State) : Host.Outcome State Fault Refusal :=
  .next (s.offer ⟨tag, 0x66, body⟩)

/-- COUNT_SET (R179). -/
def execCountSet (tag : Byte) (body : List Byte) (s : State) : Host.Outcome State Fault Refusal :=
  .next (s.offer ⟨tag, 0x70, body⟩)

/-- COUNT_READ (R177). -/
def execCountRead (tag : Byte) (body : List Byte) (s : State) : Host.Outcome State Fault Refusal :=
  .next (s.offer ⟨tag, 0x71, body⟩)

/-- COUNT_CLEAR (R178). -/
def execCountClear (tag : Byte) (body : List Byte) (s : State) : Host.Outcome State Fault Refusal :=
  .next (s.offer ⟨tag, 0x72, body⟩)

end Sys2Proof.Machine
end

