-- ==== Sys2Proof/Machine/Dispatch.lean ====
section
/-! DEFINITION. One arm for each command. -/

namespace Sys2Proof.Machine

def exec (i : Instr) (s : State) : Host.Outcome State Fault Refusal :=
  match i with
  | .powerOnReset => Sys2Proof.Machine.execPowerOnReset s
  | .startUpEnd => Sys2Proof.Machine.execStartUpEnd s
  | .frameArrival link slots parityOk => Sys2Proof.Machine.execFrameArrival link slots parityOk s
  | .houseSample frm cue0 cue1 => Sys2Proof.Machine.execHouseSample frm cue0 cue1 s
  | .moveEnd p => Sys2Proof.Machine.execMoveEnd p s
  | .appliedGainStep p => Sys2Proof.Machine.execAppliedGainStep p s
  | .frameReferenceAbsent => Sys2Proof.Machine.execFrameReferenceAbsent s
  | .pageClearStep p => Sys2Proof.Machine.execPageClearStep p s
  | .blockEnd => Sys2Proof.Machine.execBlockEnd s
  | .cueTimeout p => Sys2Proof.Machine.execCueTimeout p s
  | .sourceQualifies n => Sys2Proof.Machine.execSourceQualifies n s
  | .sourceLosesQualification n => Sys2Proof.Machine.execSourceLosesQualification n s
  | .contactRelease c => Sys2Proof.Machine.execContactRelease c s
  | .requestFrameDiscard cause => Sys2Proof.Machine.execRequestFrameDiscard cause s
  | .interByteGap => Sys2Proof.Machine.execInterByteGap s
  | .replySent => Sys2Proof.Machine.execReplySent s
  | .unknown code tag body => Sys2Proof.Machine.execUnknown code tag body s
  | .identify tag body => Sys2Proof.Machine.execIdentify tag body s
  | .reset tag body => Sys2Proof.Machine.execReset tag body s
  | .resetTakesEffect => Sys2Proof.Machine.execResetTakesEffect s
  | .houseStatus tag body => Sys2Proof.Machine.execHouseStatus tag body s
  | .linkSet tag body => Sys2Proof.Machine.execLinkSet tag body s
  | .linkStatus tag body => Sys2Proof.Machine.execLinkStatus tag body s
  | .routeSet tag body => Sys2Proof.Machine.execRouteSet tag body s
  | .routeGet tag body => Sys2Proof.Machine.execRouteGet tag body s
  | .progOpen tag body => Sys2Proof.Machine.execProgOpen tag body s
  | .progClose tag body => Sys2Proof.Machine.execProgClose tag body s
  | .progStatus tag body => Sys2Proof.Machine.execProgStatus tag body s
  | .progGroup tag body => Sys2Proof.Machine.execProgGroup tag body s
  | .moveSet tag body => Sys2Proof.Machine.execMoveSet tag body s
  | .moveGo tag body => Sys2Proof.Machine.execMoveGo tag body s
  | .moveDiscard tag body => Sys2Proof.Machine.execMoveDiscard tag body s
  | .moveHold tag body => Sys2Proof.Machine.execMoveHold tag body s
  | .moveFinish tag body => Sys2Proof.Machine.execMoveFinish tag body s
  | .moveResume tag body => Sys2Proof.Machine.execMoveResume tag body s
  | .moveHoldall tag body => Sys2Proof.Machine.execMoveHoldall tag body s
  | .moveStatus tag body => Sys2Proof.Machine.execMoveStatus tag body s
  | .moveReports tag body => Sys2Proof.Machine.execMoveReports tag body s
  | .cueSet tag body => Sys2Proof.Machine.execCueSet tag body s
  | .cueFire tag body => Sys2Proof.Machine.execCueFire tag body s
  | .snapRead tag body => Sys2Proof.Machine.execSnapRead tag body s
  | .loudSet tag body => Sys2Proof.Machine.execLoudSet tag body s
  | .loudRead tag body => Sys2Proof.Machine.execLoudRead tag body s
  | .loudRestart tag body => Sys2Proof.Machine.execLoudRestart tag body s
  | .gainSet tag body => Sys2Proof.Machine.execGainSet tag body s
  | .gainRead tag body => Sys2Proof.Machine.execGainRead tag body s
  | .almSet tag body => Sys2Proof.Machine.execAlmSet tag body s
  | .almNext tag body => Sys2Proof.Machine.execAlmNext tag body s
  | .almLook tag body => Sys2Proof.Machine.execAlmLook tag body s
  | .almClose tag body => Sys2Proof.Machine.execAlmClose tag body s
  | .almLevel tag body => Sys2Proof.Machine.execAlmLevel tag body s
  | .almList tag body => Sys2Proof.Machine.execAlmList tag body s
  | .contactSet tag body => Sys2Proof.Machine.execContactSet tag body s
  | .countSet tag body => Sys2Proof.Machine.execCountSet tag body s
  | .countRead tag body => Sys2Proof.Machine.execCountRead tag body s
  | .countClear tag body => Sys2Proof.Machine.execCountClear tag body s
  | .controlByte b => Sys2Proof.Machine.execControlByte b s

end Sys2Proof.Machine
end

