-- ==== Sys2Proof/Safety.lean ====
section
/-! DEFINITION. What claims about the part are stated in: the requests of the rows, the parts of the state, runs of commands,
and the safe states. A run is safe when every state it reaches is. -/

namespace Sys2Proof.Machine

/-! ### Requests -/

/-- The request frame of a request row, and none for the other rows. -/
def requestOf : Instr → Option Request
  | .powerOnReset => none
  | .startUpEnd => none
  | .frameArrival _ _ _ => none
  | .houseSample _ _ _ => none
  | .moveEnd _ => none
  | .appliedGainStep _ => none
  | .frameReferenceAbsent => none
  | .pageClearStep _ => none
  | .blockEnd => none
  | .cueTimeout _ => none
  | .sourceQualifies _ => none
  | .sourceLosesQualification _ => none
  | .contactRelease _ => none
  | .requestFrameDiscard _ => none
  | .interByteGap => none
  | .replySent => none
  | .resetTakesEffect => none
  | .controlByte _ => none
  | .unknown code tag body => some ⟨tag, code, body⟩
  | .identify tag body => some ⟨tag, 0x01, body⟩
  | .reset tag body => some ⟨tag, 0x02, body⟩
  | .houseStatus tag body => some ⟨tag, 0x03, body⟩
  | .linkSet tag body => some ⟨tag, 0x10, body⟩
  | .linkStatus tag body => some ⟨tag, 0x11, body⟩
  | .routeSet tag body => some ⟨tag, 0x12, body⟩
  | .routeGet tag body => some ⟨tag, 0x13, body⟩
  | .progOpen tag body => some ⟨tag, 0x20, body⟩
  | .progClose tag body => some ⟨tag, 0x21, body⟩
  | .progStatus tag body => some ⟨tag, 0x22, body⟩
  | .progGroup tag body => some ⟨tag, 0x23, body⟩
  | .moveSet tag body => some ⟨tag, 0x30, body⟩
  | .moveGo tag body => some ⟨tag, 0x31, body⟩
  | .moveDiscard tag body => some ⟨tag, 0x32, body⟩
  | .moveHold tag body => some ⟨tag, 0x33, body⟩
  | .moveFinish tag body => some ⟨tag, 0x34, body⟩
  | .moveResume tag body => some ⟨tag, 0x35, body⟩
  | .moveHoldall tag body => some ⟨tag, 0x36, body⟩
  | .moveStatus tag body => some ⟨tag, 0x37, body⟩
  | .moveReports tag body => some ⟨tag, 0x38, body⟩
  | .cueSet tag body => some ⟨tag, 0x40, body⟩
  | .cueFire tag body => some ⟨tag, 0x41, body⟩
  | .snapRead tag body => some ⟨tag, 0x42, body⟩
  | .loudSet tag body => some ⟨tag, 0x50, body⟩
  | .loudRead tag body => some ⟨tag, 0x51, body⟩
  | .loudRestart tag body => some ⟨tag, 0x52, body⟩
  | .gainSet tag body => some ⟨tag, 0x53, body⟩
  | .gainRead tag body => some ⟨tag, 0x54, body⟩
  | .almSet tag body => some ⟨tag, 0x60, body⟩
  | .almNext tag body => some ⟨tag, 0x61, body⟩
  | .almLook tag body => some ⟨tag, 0x62, body⟩
  | .almClose tag body => some ⟨tag, 0x63, body⟩
  | .almLevel tag body => some ⟨tag, 0x64, body⟩
  | .almList tag body => some ⟨tag, 0x65, body⟩
  | .contactSet tag body => some ⟨tag, 0x66, body⟩
  | .countSet tag body => some ⟨tag, 0x70, body⟩
  | .countRead tag body => some ⟨tag, 0x71, body⟩
  | .countClear tag body => some ⟨tag, 0x72, body⟩

/-- Start-up is over, no frame is held and no unit has taken a share of a house sample or block end ahead of the rest, so a
checked frame is dispatched at once (R184) in the state it finds (log entry 4). -/
def State.ready (s : State) : Prop := s.startUp = false ∧ s.port.holding = [] ∧ s.ahead = []

/-- No frame is held and the block end falls next, which some units may have taken: a request that reaches the move units one by
one is dispatched between their shares of it (R82, R101; log entry 4). -/
def State.amidBlockEnd (s : State) : Prop := s.port.holding = [] ∧ s.blockEndDue = true

/-- The request is dispatched at once, in the state it finds. -/
def State.dispatchesAtOnce (s : State) (r : Request) : Prop := s.ready ∨ (s.amidBlockEnd ∧ r.reachesUnits = true)

/-- The state in which the owning block takes the request: the frame is in hand and the receiver in HUNT (R182, R184). -/
def State.taking (s : State) (r : Request) : State :=
  { s with port := { s.port with rx := .hunt, reception := [], holding := [r] } }

/-- The state with the reply to the frame in hand in progress (R185). -/
def State.answered (s : State) (r : Request) (st : Status) (body : List Byte) : State :=
  { s with port := { rx := .hunt, reception := [], holding := [r], reply := some (replyFrame r st body) } }

/-- The port while the reply to the frame in hand is being sent. -/
def replyPort (r : Request) (st : Status) (body : List Byte) : Port :=
  { rx := .hunt, reception := [], holding := [r], reply := some (replyFrame r st body) }

/-- The answer of an owning block, sent as the reply to the frame in hand (R185). -/
def Answer.sent (a : Answer) (r : Request) : State :=
  a.state.setPort { a.state.port with reply := some (replyFrame r a.status a.body) }

/-- The command completes with the reply status and body, and what it leaves satisfies `q`. -/
def Completes (c : Instr) (s : State) (st : Status) (body : List Byte) (q : State → Prop) : Prop :=
  ∃ r t, requestOf c = some r ∧ exec c s = .next t ∧ t.port = replyPort r st body ∧ q t

/-- The command is refused with the status: an empty reply body, and no state changed but the port's (R186). -/
def RefusedWith (c : Instr) (s : State) (st : Status) : Prop :=
  ∃ r, requestOf c = some r ∧ exec c s = .next (s.answered r st [])

/-! ### Frames -/

/-- The parts of the state. -/
inductive Part where
  | links | routes | feeds | progs | freeList | mem | outPipe | outLinks | ref | groups | snaps
  | sources | threshold | attn | contacts | counters | port | startUp | ahead | pending
  deriving DecidableEq, Repr

/-- One part is the same in two states. -/
def Part.same (s t : State) : Part → Prop
  | .links => s.links = t.links
  | .routes => s.routes = t.routes
  | .feeds => s.feeds = t.feeds
  | .progs => s.progs = t.progs
  | .freeList => s.freeList = t.freeList
  | .mem => s.mem = t.mem
  | .outPipe => s.outPipe = t.outPipe
  | .outLinks => s.outLinks = t.outLinks
  | .ref => s.ref = t.ref
  | .groups => s.groups = t.groups
  | .snaps => s.snaps = t.snaps
  | .sources => s.sources = t.sources
  | .threshold => s.threshold = t.threshold
  | .attn => s.attn = t.attn
  | .contacts => s.contacts = t.contacts
  | .counters => s.counters = t.counters
  | .port => s.port = t.port
  | .startUp => s.startUp = t.startUp
  | .ahead => s.ahead = t.ahead
  | .pending => s.pending = t.pending

/-- Nothing but the listed parts differs. -/
def State.sameBut (ps : List Part) (s t : State) : Prop := ∀ q, q ∉ ps → q.same s t

/-- The parts that events reach: the alarm sources, ATTN, the contacts and the counters. -/
def eventParts : List Part := [.sources, .attn, .contacts, .counters]

def State.otherLinks (l : Fin 8) (s t : State) : Prop := ∀ k, k ≠ l → t.link k = s.link k
def State.otherProgs (p : Fin 8) (s t : State) : Prop := ∀ k, k ≠ p → t.prog k = s.prog k

/-- No source but those listed and COUNTER, which any counting event may raise (R176), differs. -/
def State.otherSources (ns : List (Fin 59)) (s t : State) : Prop :=
  ∀ n, n ∉ ns → n ≠ counterSource → t.source n = s.source n

/-- No counter but those that count the listed events or ALARM_RAISE differs (R175). -/
def State.otherCounters (es : List CountEvent) (s t : State) : Prop :=
  ∀ c, (∀ e, (s.counter c).event = some e → e ∉ es ∧ e ≠ .alarmRaise) → t.counter c = s.counter c

/-! ### Events sent -/

/-- Latched events have been sent to a source, `times` of them and at least one, all at this stamp (R152, R153). -/
def State.latchedIn (n : Fin 59) (times : Nat) (stamp : Stamp) (s t : State) : Prop :=
  (t.source n).raiseCount = min 255 ((s.source n).raiseCount + times) ∧ (t.source n).lastRaise = some stamp
    ∧ ((s.source n).accepted = false → (t.source n).pending = true)
    ∧ ((s.source n).accepted = true → (t.source n).again = true)

/-- Counting events of one kind have been sent, `times` of them: every counter that counts this kind of event has been offered
each (R175). -/
def State.countedIn (e : CountEvent) (owner : Option (Fin 8)) (times : Nat) (s t : State) : Prop :=
  ∀ c, (s.counter c).event = some e → t.counter c = Nat.repeat (Counter.offer e owner 1) times (s.counter c)

/-- How many COUNTER latched events the bank has sent: one for each counter with its alarm enabled whose half flag has been set
(R176). -/
def State.crossings (s t : State) : Nat :=
  (List.finRange 8).countP (fun c => (t.counter c).alarmEnable && !(s.counter c).half && (t.counter c).half)

/-- Every counter of ALARM_RAISE has been offered one event for each of `own` raises, and one for each COUNTER raise that came
of crossings of half range (R153, R176). -/
def State.raisesCounted (own : Nat) (s t : State) : Prop := s.countedIn .alarmRaise none (own + s.crossings t) t

/-- Source 56 has taken the COUNTER latched events of the crossings, and nothing else (R176). -/
def State.crossingsLatched (s t : State) : Prop :=
  (s.crossings t = 0 → t.source counterSource = s.source counterSource)
    ∧ (0 < s.crossings t → s.latchedIn counterSource (s.crossings t) s.ref.hsc t)

/-- A move unit with a report in its slots: with both full the newest is replaced and the lost count goes up (R83). -/
def MoveUnit.reported (u : MoveUnit) (x : Report) : MoveUnit :=
  if u.reports.length < 2 then { u with reports := u.reports ++ [x] }
  else { u with reports := u.reports.take 1 ++ [x], lost := min 255 (u.lost + 1) }

/-- How many reports are lost when one more is written: one when both slots are full (R83). -/
def MoveUnit.loses (u : MoveUnit) : Nat := if u.reports.length < 2 then 0 else 1

/-! ### Shares of a house sample and of a block end -/

/-- The word that the router hands a lane at the house sample now due: its route's converted slot while that converter
sounds, and silence otherwise (R42, R43, R55). -/
def State.laneWord (s : State) (n : Fin 32) : Slot :=
  match s.route n with
  | .unrouted => ⟨0, false⟩
  | .pair l k => if (s.link l).conv.read.sounding then (s.link l).conv.read.frame[k] else ⟨0, false⟩

/-- A programme takes its move step at the house sample now due: it is LIVE and has not taken the step ahead (R63). -/
def State.stepsAt (s : State) (p : Fin 8) : Bool := (s.liveIndex? p).isSome && !s.ahead.contains (.move p)

/-- The state after the move step of one programme at the house sample now due, which has this stamp (R63). -/
def State.steppedAt (s : State) (stamp : Stamp) (p : Fin 8) : State :=
  if s.stepsAt p then State.moveStep { s with ref := { s.ref with hsc := stamp } } p else s

/-- The record of a level source after a report of this value at this stamp (R145 to R147, R149, R150). -/
def Source.reported (hsc : Stamp) (v : Bool) (r : Source) : Source :=
  if r.condition = v then r
  else if v = true ∧ r.qualified = false ∧ r.raiseTime = 0 then Source.qualifiedAt hsc { r with condition := v }
  else if v = false ∧ r.qualified = true ∧ r.clearTime = 0 then Source.unqualified { r with condition := v }
  else { r with condition := v, timer := 0 }

/-- The record of a level source after its timer step of a block end at this stamp (R148 to R150). -/
def Source.stepped (hsc : Stamp) (r : Source) : Source :=
  if r.condition = r.qualified then r
  else if r.condition = true ∧ r.raiseTime ≤ r.timer + 1 then r.qualifiedAt hsc
  else if r.condition = false ∧ r.clearTime ≤ r.timer + 1 then r.unqualified
  else { r with timer := r.timer + 1 }

/-! ### The meter's numbers -/

/-- The number a floating-point record stands for (R107). -/
def F53.value (a : F53) : ℚ := a.sig * 2 ^ a.exp

/-- The energy that an exact sum stands for (R108). -/
def Energy.value (a : Energy) : ℚ := a.num / 2 ^ a.scale

/-! ### Runs of commands -/

/-- Run a list of commands in order, stopping at the first fault or refusal. -/
def execAll : List Instr → State → Host.Outcome State Fault Refusal
  | [], s => .next s
  | c :: cs, s =>
    match exec c s with
    | .next t => execAll cs t
    | .fault f => .fault f
    | .refused r => .refused r

/-- The bytes of a request frame on the line (R181), with these check bytes. -/
def frameBytes (r : Request) (check : List Byte) : List Byte :=
  0xC5 :: BitVec.ofNat 8 (r.body.length + 2) :: r.tag :: r.code :: (r.body ++ check)

/-- The check bytes of a request frame (R182). -/
def requestCheck (r : Request) : List Byte := checkBytes (BitVec.ofNat 8 (r.body.length + 2) :: r.tag :: r.code :: r.body)

/-- `n` steps of a moving record, from a state and a position (R72 to R74): the state and position after them, and the
outcome and the number of the step at which the move ended, if it has. -/
structure MoveRun where
  state : MoveState
  pos : Nat
  ended : Option (Nat × MoveOutcome)
  deriving DecidableEq, Repr

def stepOnce (k : Nat) (x : MoveRun) : MoveRun :=
  match x.ended, x.state with
  | none, .moving r ph fadePos =>
    let t := stepRecord r ph fadePos x.pos
    { state := t.state, pos := t.pos, ended := t.ends.map (fun o => (k, o)) }
  | none, .still => x
  | none, .cueWait _ _ => x
  | none, .readWait _ _ => x
  | none, .halted _ => x
  | some _, _ => x

def runMove : Nat → MoveRun → MoveRun
  | 0, x => x
  | n + 1, x => stepOnce (n + 1) (runMove n x)

/-! ### Safe states -/

/-- Delay memory keeps its canonical form (chapter 3). -/
def State.memSafe (s : State) : Prop := memWf s.mem = true

/-- The values a lock can hold (R19, R22). -/
def Lock.safe (k : Lock) : Prop :=
  Config.ratioMin ≤ k.ratio ∧ k.ratio ≤ Config.ratioMax ∧ 32 ≤ k.cl ∧ k.cl ≤ 51

/-- A converter with its receiver's arrival count: the fills of R15, R28 and R29, the tallies of R14 and the mark of R33. -/
def Converter.safe (c : Converter) (arrivals : Nat) : Prop :=
  c.fifo.length ≤ 64 ∧ c.readPhase < Config.unit20 ∧ (c.state.isLocked = false → c.notLocked = true) ∧
  match c.state with
  | .off => c.fifo = [] ∧ arrivals = 0
  | .seek => c.fifo.length ≤ 32 ∧ (0 < arrivals → c.fifo ≠ [])
  | .acquire _ t => c.fifo.length ≤ 32 ∧ (0 < arrivals → c.fifo ≠ []) ∧ 1 ≤ t ∧ t ≤ 3
  | .locked k => k.safe ∧ 4 ≤ c.fifo.length ∧ c.fifo.length ≤ 59
  | .holdover k bad => k.safe ∧ (c.fifo = [] → c.lastRead.isSome) ∧ 1 ≤ bad ∧ bad ≤ 4

/-- Every link: an enabled link's converter is not OFF, a disabled link's is, and LOCK stands as R34 says. -/
def State.linksSafe (s : State) : Prop :=
  ∀ l, (s.link l).conv.safe (s.link l).rx.arrivalCount
    ∧ (s.link l).rx.enable = !(s.link l).conv.state.isOff
    ∧ (s.source (lockSource l)).condition = (s.link l).lockCondition

/-- A page lies in an extent. -/
def Extent.has (e : Extent) (page : Nat) : Prop := e.start ≤ page ∧ page < e.start + e.len

/-- The extent of a programme, while it holds one. -/
def Life.extent? (x : Life) : Option Extent := x.held?.map Held.extent

/-- The page lies in the extent of this programme. -/
def State.holdsPage (s : State) (p : Fin 8) (page : Nat) : Prop := ∃ e, (s.prog p).life.extent? = some e ∧ e.has page

/-- The allocator's law (R49, R52): the free list ascends with no two entries adjacent and each entry at least one page long,
all pages lie within memory, no page is held twice, and a CLEARING programme has pages of its extent left. -/
def State.pagesSafe (s : State) : Prop :=
  s.freeList.Pairwise (fun a b => a.start + a.len < b.start)
    ∧ (∀ e ∈ s.freeList, 1 ≤ e.len ∧ e.start + e.len ≤ Config.pages)
    ∧ (∀ p e, (s.prog p).life.extent? = some e → e.start + e.len ≤ Config.pages)
    ∧ (∀ page, page < Config.pages → (∃ e ∈ s.freeList, e.has page) ∨ ∃ p, s.holdsPage p page)
    ∧ (∀ page p, s.holdsPage p page → ¬ ∃ e ∈ s.freeList, e.has page)
    ∧ (∀ page p q, s.holdsPage p page → s.holdsPage q page → p = q)
    ∧ (∀ p h left k, (s.prog p).life = .clearing h left k → 1 ≤ left ∧ left ≤ h.extent.len)

/-- An open programme's lanes and rings (R45, R47): 1 to 8 distinct lanes, held by no other programme, and a ring length
that fits the extent. -/
def State.lanesSafe (s : State) : Prop :=
  (∀ p h, (s.prog p).life.held? = some h →
      1 ≤ h.lanes.length ∧ h.lanes.length ≤ 8 ∧ (h.lanes.map LaneWeight.lane).Nodup
        ∧ (s.prog p).dmax ≤ 192000 ∧ h.rl = ringLength (s.prog p).dmax ∧ h.extent.len = h.lanes.length * h.rl / 512)
    ∧ ∀ p q n, hasLane (s.prog p).life.lanes n = true → hasLane (s.prog q).life.lanes n = true → p = q

/-- The router's law (R42): the link that a lane is routed to has fed it in the current block. -/
def State.feedsSafe (s : State) : Prop := ∀ n l k, s.route n = .pair l k → l ∈ s.feeds[n]

/-- The output stage (R44): the lane outputs of the last 8 house samples are on their way. -/
def State.outStageSafe (s : State) : Prop := s.outPipe.length = 8

/-- The reference unit (R88, R90, R91): a phase of 0 to 4,799, at most five intervals of 768 to 2,400 each, a run of at most 2 and
no longer than the history, and PRESENT exactly with a run of 2, behind an accepted edge. -/
def RefUnit.safe (r : RefUnit) : Prop :=
  r.phase ≤ 4799 ∧ r.history.length ≤ 5 ∧ (∀ d ∈ r.history, 768 ≤ d ∧ d ≤ 2400)
    ∧ r.run ≤ 2 ∧ r.run ≤ r.history.length ∧ (r.present = true ↔ r.run = 2) ∧ (0 < r.run → r.edgeAccepted.isSome = true)

def State.refSafe (s : State) : Prop := s.ref.safe

/-- A move record's target lies within the limits (R65). -/
def MoveRecord.within (r : MoveRecord) (low high : Nat) : Prop := low ≤ r.target ∧ r.target ≤ high

/-- The move unit of an open programme (R62, R68, R70, R83, R94): the delay and every target within the limits, a COMMITTED
record only behind a move, at most two reports, and under BLOCK no loss and a slot free for the move in progress. -/
def Programme.moveSafe (x : Programme) : Prop :=
  x.life.isClosed = false →
    x.low ≤ x.high ∧ x.high ≤ x.dmax ∧ x.low ≤ x.move.dcur ∧ x.move.pos ≤ x.high * 65536
    ∧ (∀ r, x.move.state.record? = some r → r.within x.low x.high)
    ∧ (∀ r, x.move.staged.record? = some r → r.within x.low x.high)
    ∧ (x.move.staged.isCommitted = true → x.move.state ≠ .still ∧ ∀ r, x.move.state ≠ .halted r)
    ∧ x.move.reports.length ≤ 2
    ∧ (x.policy = .block → x.move.lost = 0)
    ∧ (x.policy = .block → ∀ r ph k, x.move.state = .moving r ph k → x.move.reports.length ≤ 1)
    ∧ (x.policy = .block → ∀ r k, x.move.state = .cueWait r k → x.move.reports.length ≤ 1)
    ∧ (∀ r k, x.move.state = .cueWait r k → x.group.isSome)
    ∧ (∀ r d, x.move.state = .readWait r d → x.policy = .block ∧ x.move.reports.length = 2)

def State.movesSafe (s : State) : Prop := ∀ p, (s.prog p).moveSafe

/-- A gain corrector (R129, R130, R137): settings in their ranges, G and every schedule entry within the limits, the taken
value and the applied gain within -300 to +200, the ramp count below 48. -/
def Corrector.safe (c : Corrector) : Prop :=
  c.settings.clamped = c.settings
    ∧ -c.settings.cut ≤ c.g ∧ c.g ≤ c.settings.boost
    ∧ (∀ e ∈ c.schedule, -c.settings.cut ≤ e.value ∧ e.value ≤ c.settings.boost)
    ∧ -300 ≤ c.taken ∧ c.taken ≤ 200 ∧ -300 ≤ c.applied ∧ c.applied ≤ 200 ∧ c.ramp ≤ 47

def State.gainsSafe (s : State) : Prop := ∀ p, (s.prog p).gain.safe

/-- A histogram bin (R120, R121): at least one window, a level of -700 to +50, and a mean energy of that level, or of that
level or more in the top bin. -/
def Bin.safe (b : Bin) : Prop :=
  1 ≤ b.count ∧ -700 ≤ b.level ∧ b.level ≤ 50 ∧ b.level ≤ Machine.level b.sum (b.count * 2 ^ 50)
    ∧ (b.level < 50 → Machine.level b.sum (b.count * 2 ^ 50) = b.level)

/-- A meter (R113, R121): the ring holds min(n, 30) entries, and the listed bins ascend in level. -/
def Meter.safe (m : Meter) : Prop :=
  m.ring.length = min m.n 30 ∧ (∀ b ∈ m.hist, b.safe) ∧ m.hist.Pairwise (fun a b => a.level < b.level)

def State.metersSafe (s : State) : Prop := ∀ p, (s.prog p).meter.safe

/-- An open programme's meter holds one record for each lane of its lane list (R105). -/
def State.meterLanesSafe (s : State) : Prop :=
  ∀ p h, (s.prog p).life.held? = some h → (s.prog p).meter.lanes.length = h.lanes.length

/-- The alarm sources (R144, R152, R158): no source pending and accepted, no two accepted sources of one priority, and a
latched source with no condition, no qualification and no times. -/
def State.sourcesSafe (s : State) : Prop :=
  (∀ n, ¬ ((s.source n).pending = true ∧ (s.source n).accepted = true))
    ∧ (∀ n, (s.source n).priority ≤ 7)
    ∧ (∀ m n, (s.source m).accepted = true → (s.source n).accepted = true → (s.source m).priority = (s.source n).priority →
        m = n)
    ∧ ∀ n, sourceIsLevel n = false →
        (s.source n).condition = false ∧ (s.source n).qualified = false ∧ (s.source n).timer = 0
          ∧ (s.source n).raiseTime = 0 ∧ (s.source n).clearTime = 0

/-- ATTN and the contacts stand as they are judged (R159, R169, R170): ATTN exactly while a source is eligible; a contact
with a demand is asserted; a contact that is asserted without one is held below its minimum on-time. -/
def State.outputsSafe (s : State) : Prop :=
  s.attn = anyEligible s.sources s.threshold
    ∧ ∀ c, (demand s.sources (s.contact c).ceiling = true → (s.contact c).asserted = true)
        ∧ ((s.contact c).asserted = true → demand s.sources (s.contact c).ceiling = false →
            (s.contact c).onTime < (s.contact c).minOn)
        ∧ ((s.contact c).asserted = false → (s.contact c).onTime = 0)
        ∧ ((s.contact c).ceiling = none → (s.contact c).asserted = false)

/-- During start-up the line and house time stand at their reset values, every link is disabled and nothing is open
(R2, R187). -/
def State.startUpSafe (s : State) : Prop :=
  s.startUp = true → s = { State.reset with mem := s.mem, pending := s.pending }

/-- A safe state. -/
def State.safe (s : State) : Prop :=
  s.memSafe ∧ s.linksSafe ∧ s.pagesSafe ∧ s.lanesSafe ∧ s.feedsSafe ∧ s.outStageSafe ∧ s.refSafe ∧ s.movesSafe ∧ s.gainsSafe
    ∧ s.metersSafe ∧ s.meterLanesSafe ∧ s.sourcesSafe ∧ s.outputsSafe ∧ s.startUpSafe

end Sys2Proof.Machine
end

