-- ==== Sys2Proof/Certificates/Slice0/Obligations.lean ====
section
/-! DEFINITION. The statements for the provers. The rules they rest on are named in OBLIGATIONS.json. -/

open Sys2Proof Sys2Proof.Machine

/-! ### The machine, resets and start-up -/

/-- A step is exec on the command at the front with the queue's rest; on an empty queue the part idles (log entry 2). -/
def Obligations.StepRunsTheFrontCommand : Prop :=
  (∀ (c : Instr) (s : State), step { s with pending := c :: s.pending } = exec c s)
    ∧ ∀ s : State, s.pending = [] → step s = .next s

/-- The values after power-on reset (R2, R14, R39, R44, R45, R49, R62, R88, R90, R93, R94, R102, R105, R128, R144, R158, R168,
R174, R181); that start-up is running and that delay memory lists no word are the model's choices (log entries 3, 8). -/
def Obligations.ResetStateHoldsTheStatedValues : Prop :=
  (∀ l, (State.reset.link l).rx =
      { enable := false, parityPolicy := .substitute, slotPolicy := .pass, lastAccepted := none, arrivalCount := 0 })
  ∧ (∀ l, (State.reset.link l).conv =
      { state := .off, fifo := [], readPhase := 0, lastRead := none, n := 0, slipCount := 0, notLocked := true })
  ∧ (∀ n, State.reset.route n = .unrouted)
  ∧ (∀ p, (State.reset.prog p).life = .closed ∧ (State.reset.prog p).group = none
      ∧ (State.reset.prog p).policy = .overwrite
      ∧ (State.reset.prog p).move = { state := .still, pos := 0, staged := .empty, reports := [], lost := 0 }
      ∧ (State.reset.prog p).meter.m = -1000 ∧ (State.reset.prog p).meter.s = -1000
      ∧ (State.reset.prog p).meter.settings = { target := -230, upper := 20, lower := 40, silence := -500, ceiling := -10 }
      ∧ (State.reset.prog p).gain.mode = .off ∧ (State.reset.prog p).gain.applied = 0
      ∧ (State.reset.prog p).gain.settings = { boost := 60, cut := 150, rise := 2, fall := 10, fixed := 0 })
  ∧ State.reset.freeList = [⟨0, 4096⟩]
  ∧ State.reset.outPipe = List.replicate 8 (Vector.replicate 32 ⟨0, false⟩)
  ∧ (∀ (o : Fin 4) (k : Fin 8), State.reset.outLinks[o][k] = ⟨0, false⟩)
  ∧ State.reset.ref.hsc = 0 ∧ State.reset.ref.phase = 0 ∧ State.reset.ref.blockNo = 0
  ∧ State.reset.ref.frmPrev = true ∧ State.reset.ref.cue0Prev = true ∧ State.reset.ref.cue1Prev = true
  ∧ State.reset.ref.history = [] ∧ State.reset.ref.present = false
  ∧ (∀ g, State.reset.group g =
      { source := .none, timeout := 100, restart := false, snapshot := false, armed := false, cueCount := 0 })
  ∧ (∀ g, State.reset.snap g = ⟨none, false⟩)
  ∧ (∀ n, State.reset.source n =
      { priority := 7, masked := false, raiseTime := 0, clearTime := 0, condition := false, qualified := false, timer := 0,
        pending := false, accepted := false, again := false, raiseCount := 0, lastRaise := none })
  ∧ State.reset.threshold = 7 ∧ acceptLevel State.reset.sources = 8 ∧ State.reset.attn = false
  ∧ (∀ c, State.reset.contact c = { ceiling := none, minOn := 0, asserted := false, onTime := 0 })
  ∧ (∀ c, State.reset.counter c =
      { event := none, qualifier := 0, mode := .wrap, clearOnRead := false, alarmEnable := false, value := 0, half := false })
  ∧ State.reset.port = { rx := .hunt, reception := [], holding := [], reply := none }

/-- POWER_ON_RESET, and RESET_TAKES_EFFECT or REPLY_SENT behind an accepted RESET, load every reset value; delay memory
stays as it was (R49). RESET itself replies first, and the reset waits for its last byte; with a body it resets nothing
(R188). -/
def Obligations.ResetsLoadEveryBlockAfterTheReply : Prop :=
  (∀ s : State,
    exec .powerOnReset s = .next { State.reset with mem := s.mem, pending := s.pending }
    ∧ (s.port.reply.isSome = true → s.resetInHand = true →
        exec .resetTakesEffect s = .next { State.reset with mem := s.mem, pending := s.pending }
        ∧ exec .replySent s = .next { State.reset with mem := s.mem, pending := s.pending })
    ∧ ((s.port.reply.isNone = true ∨ s.resetInHand = false) → exec .resetTakesEffect s = .next s))
  ∧ (∀ (s : State) (tag : Byte), s.ready →
    (∃ t, exec (.reset tag []) s = .next t ∧ t = s.answered ⟨tag, 0x02, []⟩ .ok [] ∧ t.resetInHand = true
        ∧ t.port.reply.isSome = true)
    ∧ ∀ b bs, ∃ t, exec (.reset tag (b :: bs)) s = .next t ∧ t = s.answered ⟨tag, 0x02, b :: bs⟩ .malformed []
        ∧ t.resetInHand = false)

/-- START_UP_END ends start-up, and during start-up nothing on the line and nothing of house time acts. -/
def Obligations.StartUpHoldsThePartStill : Prop :=
  (∀ s : State, exec .startUpEnd s = .next { s with startUp := false })
    ∧ ∀ (c : Instr) (s : State), s.startUp = true → c ≠ .powerOnReset → c ≠ .startUpEnd → c ≠ .replySent →
        c ≠ .resetTakesEffect → (∀ l f ok, c ≠ .frameArrival l f ok) → exec c s = .next s

/-! ### The control line -/

/-- One byte in each receiver state, short of a frame's last byte (R182). -/
def Obligations.ReceiverTakesEachByte : Prop :=
  ∀ (s : State) (b : Byte), s.startUp = false →
    (s.port.rx = .hunt → b = 0xC5 →
      exec (.controlByte b) s = .next { s with port := { s.port with rx := .length, reception := [] } })
    ∧ (s.port.rx = .hunt → b ≠ 0xC5 → exec (.controlByte b) s = .next s)
    ∧ (s.port.rx = .length → 2 ≤ b.toNat → b.toNat ≤ 252 →
      exec (.controlByte b) s = .next { s with port := { s.port with rx := .collect, reception := [b] } })
    ∧ (s.port.rx = .length → (b.toNat < 2 ∨ 252 < b.toNat) →
      exec (.controlByte b) s = exec (.requestFrameDiscard (.badLen b)) s)
    ∧ ∀ len rest, s.port.rx = .collect → s.port.reception = len :: rest → rest.length + 1 < len.toNat + 2 →
      exec (.controlByte b) s = .next { s with port := { s.port with reception := len :: rest ++ [b] } }

/-- The bytes of a request frame on the line come to what the request's row is; with a wrong check they come to a discard
(R182). -/
def Obligations.FrameBytesComeToTheRequestRow : Prop :=
  ∀ (c : Instr) (r : Request) (s : State), requestOf c = some r → r.body.length ≤ 250 → s.startUp = false →
    s.port.rx = .hunt →
    execAll ((frameBytes r (requestCheck r)).map .controlByte) s = exec c s
    ∧ ∀ chk, chk.length = 2 → chk ≠ requestCheck r →
        execAll ((frameBytes r chk).map .controlByte) s = exec (.requestFrameDiscard .badCheck) s

/-- What a discard does, and that it leaves the holding, the reply and every other block (R183), with no share taken ahead
(behind one, see HoldingTakesTwoFramesAndDispatches). That a discard whose cause does not stand changes nothing is the model's
(log entries 5, 7). -/
def Obligations.DiscardRaisesControlAndCounts : Prop :=
  ∀ (s : State) (cause : DiscardCause), s.startUp = false →
    (s.discards cause = true → s.ahead = [] → ∃ t, exec (.requestFrameDiscard cause) s = .next t
      ∧ t.port = { s.port with rx := .hunt, reception := [] }
      ∧ (t.source controlSource).raiseCount = satInc 255 (s.source controlSource).raiseCount
      ∧ (t.source controlSource).lastRaise = some s.ref.hsc
      ∧ ((s.source controlSource).accepted = false → (t.source controlSource).pending = true)
      ∧ ((s.source controlSource).accepted = true → (t.source controlSource).again = true)
      ∧ (∀ c, (s.counter c).event = some .controlErr → t.counter c = Counter.offer .controlErr none 1 (s.counter c))
      ∧ s.raisesCounted 1 t
      ∧ s.otherSources [controlSource] t ∧ s.otherCounters [.controlErr] t ∧ s.sameBut (.port :: eventParts) t
      ∧ (s.port.rx ≠ .hunt → exec .interByteGap s = .next t))
    ∧ (s.discards cause = false → exec (.requestFrameDiscard cause) s = .next s)
    ∧ (s.port.rx = .hunt → exec .interByteGap s = .next s)

/-- A checked frame behind one frame held waits, and behind two is discarded; at a reply's last byte the frame in hand leaves
and the waiting frame is dispatched (R184). A CODE that names no message is answered UNKNOWN (R185); the reply's CODE byte
wraps for a code of 0x80 or more (log entry 29). And what a share taken ahead means to the next event: the rest of that block
end, or of that house sample with the lines as they were sampled last, comes before a request that is dispatched, a discard and
a frame that an enabled link takes (the model's choice, log entry 4). MOVE.HOLDALL, CUE.SET and CUE.FIRE, which reach the move
units one by one (R82, R95, R101), are dispatched between the shares of a block end instead. -/
def Obligations.HoldingTakesTwoFramesAndDispatches : Prop :=
  (∀ (c : Instr) (r : Request) (s : State), requestOf c = some r → s.startUp = false →
    (∀ x, s.port.holding = [x] →
      exec c s = .next { s with port := { s.port with rx := .hunt, reception := [], holding := [x, r] } })
    ∧ ∀ x y zs, s.port.holding = x :: y :: zs → exec c s = exec (.requestFrameDiscard .holdingFull) s)
  ∧ (∀ (s : State) (x : Request), s.port.reply.isSome = true → s.resetInHand = false →
    (s.port.holding = [x] → exec .replySent s = .next { s with port := { s.port with holding := [], reply := none } })
    ∧ ∀ r, s.port.holding = [x, r] → (s.ahead = [] ∨ (s.blockEndDue = true ∧ r.code ∈ [0x36, 0x40, 0x41])) →
        exec .replySent s = .next
          ((takeRequest r.code r.body { s with port := { s.port with holding := [r], reply := none } }).sent r))
  ∧ (∀ (s : State) (code tag : Byte) (body : List Byte), s.ready → catalogue.contains code = false →
    exec (.unknown code tag body) s = .next (s.answered ⟨tag, code, body⟩ .unknown []))
  ∧ (∀ (c : Instr) (r : Request) (s : State), requestOf c = some r → s.amidBlockEnd → r.code ∈ [0x36, 0x40, 0x41] →
    exec c s = .next ((takeRequest r.code r.body (s.taking r)).sent r))
  ∧ (∀ (s t u v : State) (event : State → Instr),
    (∀ x : State, event x = if x.blockEndDue then .blockEnd else .houseSample x.ref.frmPrev x.ref.cue0Prev x.ref.cue1Prev) →
    s.startUp = false → s.ahead ≠ [] → (s.blockEndDue = true ∨ s.extentOutside? = none) →
    exec (event s) s = .next t → u = { s with port := { s.port with rx := .hunt, reception := [] } } → exec (event u) u = .next v →
    (∀ c r, requestOf c = some r → s.port.holding = [] → (s.blockEndDue = false ∨ r.code ∉ [0x36, 0x40, 0x41]) →
        exec c s = exec c { v with ahead := [] })
    ∧ (∀ cause, s.discards cause = true →
        exec (.requestFrameDiscard cause) s = exec (.requestFrameDiscard cause) { v with ahead := [] })
    ∧ (∀ x r zs, s.port.reply.isSome = true → s.resetInHand = false → s.port.holding = x :: r :: zs →
        (s.blockEndDue = false ∨ r.code ∉ [0x36, 0x40, 0x41]) →
        exec .replySent s = exec .replySent { t with ahead := [] })
    ∧ ∀ l f ok, (s.link l).rx.enable = true → exec (.frameArrival l f ok) s = exec (.frameArrival l f ok) { t with ahead := [] })

/-- A request answered with a code of 0x10 or above changes no state and carries an empty body (R185, R186). The reply to an
unknown code of 0x80 or more has its CODE byte wrapped (log entry 29). -/
def Obligations.RefusedRequestsChangeNothing : Prop :=
  ∀ (c : Instr) (r : Request) (s : State), requestOf c = some r → s.ready →
    ∃ st body t, exec c s = .next t ∧ t.port = replyPort r st body
      ∧ (0x10 ≤ (statusCode st).toNat → body = [] ∧ s.sameBut [.port] t)

/-- IDENTIFY (R189). -/
def Obligations.IdentifyIsFixed : Prop :=
  ∀ (s : State) (tag : Byte), s.ready →
    exec (.identify tag []) s
      = .next (s.answered ⟨tag, 0x01, []⟩ .ok [0x53, 0x5A, 0x10, 0x54, 0x01, 0x08, 0x20, 0x08, 0x10, 0x00])
    ∧ ∀ b bs, exec (.identify tag (b :: bs)) s = .next (s.answered ⟨tag, 0x01, b :: bs⟩ .malformed [])

/-- The requests that only read (R37, R41, R61, R64, R140, R167, R190) leave every part but the port as it was, and reply with
the record of the thing named; the checks of HOUSE.STATUS, LINK.STATUS, ROUTE.GET and ALM.LIST. The link and slot bytes of an
UNROUTED entry and the flag bytes of ATTN and the contacts are the model's reading (log entry 14). -/
def Obligations.StatusReadsReplyTheRecord : Prop :=
  ∀ (s : State) (tag : Byte), s.ready →
    exec (.houseStatus tag []) s = .next (s.answered ⟨tag, 0x03, []⟩ .ok
      (byte4 s.ref.hsc.toNat ++ byte2 s.ref.phase ++ byte4 s.ref.blockNo.toNat ++ flagByte s.ref.present
        ++ optField byte2 s.ref.history.getLast?))
    ∧ (∀ l : Fin 8, exec (.linkStatus tag (byte1 l)) s
        = .next (s.answered ⟨tag, 0x11, byte1 l⟩ .ok (linkStatusRecord l (s.link l))))
    ∧ exec (.routeGet tag []) s = .next (s.answered ⟨tag, 0x13, []⟩ .ok (s.routes.toList.flatMap routeRecord))
    ∧ (∀ p : Fin 8, exec (.progStatus tag (byte1 p)) s
        = .next (s.answered ⟨tag, 0x22, byte1 p⟩ .ok (programmeRecord p (s.prog p))))
    ∧ (∀ p : Fin 8, (s.prog p).life.isClosed = false → exec (.moveStatus tag (byte1 p)) s
        = .next (s.answered ⟨tag, 0x37, byte1 p⟩ .ok (moveStatusRecord (s.prog p).move)))
    ∧ (∀ p : Fin 8, (s.prog p).life.isClosed = false → exec (.gainRead tag (byte1 p)) s
        = .next (s.answered ⟨tag, 0x54, byte1 p⟩ .ok (correctorRecord p (s.prog p).gain)))
    ∧ exec (.almList tag []) s = .next (s.answered ⟨tag, 0x65, []⟩ .ok
        (sourceList (s.sourcesWith Source.pending) ++ sourceList (s.sourcesWith Source.accepted)
          ++ sourceList (s.sourcesWith Source.qualified) ++ byte1 s.threshold ++ byte1 (acceptLevel s.sources)
          ++ flagByte s.attn ++ s.contacts.toList.flatMap (fun c => flagByte c.asserted)))
    ∧ (∀ mk ∈ [Instr.houseStatus, Instr.routeGet, Instr.almList], ∀ b bs, RefusedWith (mk tag (b :: bs)) s .malformed)
    ∧ (∀ body : List Byte, body.length ≠ 1 → RefusedWith (.linkStatus tag body) s .malformed)
    ∧ ∀ b : Byte, 8 ≤ b.toNat → RefusedWith (.linkStatus tag [b]) s .range

/-- A request that carries one number: the length is checked first, then the number, then that the programme is open or LIVE
as the request asks (R37, R58, R61, R64, R98, R104, R124, R125, R140, R177). -/
def Obligations.OneNumberRequestsAreCheckedInOrder : Prop :=
  ∀ (s : State) (tag : Byte), s.ready →
    (∀ mk ∈ [Instr.linkStatus, Instr.progClose, Instr.progStatus, Instr.moveGo, Instr.moveDiscard, Instr.moveHold,
        Instr.moveFinish, Instr.moveResume, Instr.moveStatus, Instr.moveReports, Instr.loudRead, Instr.loudRestart,
        Instr.gainRead, Instr.countRead],
      (∀ body : List Byte, body.length ≠ 1 → RefusedWith (mk tag body) s .malformed)
      ∧ ∀ b : Byte, 8 ≤ b.toNat → RefusedWith (mk tag [b]) s .range)
    ∧ (∀ mk ∈ [Instr.cueFire, Instr.snapRead],
      (∀ body : List Byte, body.length ≠ 1 → RefusedWith (mk tag body) s .malformed)
      ∧ ∀ b : Byte, 4 ≤ b.toNat → RefusedWith (mk tag [b]) s .range)
    ∧ (∀ mk ∈ [Instr.progClose, Instr.moveStatus, Instr.loudRead, Instr.loudRestart, Instr.gainRead],
      ∀ p : Fin 8, (s.prog p).life.isClosed = true → RefusedWith (mk tag (byte1 p)) s .state)
    ∧ ∀ mk ∈ [Instr.moveGo, Instr.moveDiscard, Instr.moveHold, Instr.moveFinish, Instr.moveResume, Instr.moveReports],
      ∀ p : Fin 8, (s.prog p).life.isLive = false → RefusedWith (mk tag (byte1 p)) s .state

/-! ### Input links and rate converters -/

/-- LINK.SET and its checks (R12, R13, R31, R34). -/
def Obligations.LinkSetActsOnTheLinkItNames : Prop :=
  (∀ (s : State) (tag : Byte) (l : Fin 8) (en : Bool) (pp : ParityPolicy) (sp : SlotPolicy), s.ready →
    Completes (.linkSet tag (byte1 l ++ flagByte en ++ [parityPolicyCode pp, slotPolicyCode sp])) s .ok [] (fun t =>
      (t.link l).rx.enable = en ∧ (t.link l).rx.parityPolicy = pp ∧ (t.link l).rx.slotPolicy = sp
      ∧ ((s.link l).rx.enable = en →
          (t.link l).rx.arrivalCount = (s.link l).rx.arrivalCount
          ∧ (t.link l).rx.lastAccepted = (s.link l).rx.lastAccepted ∧ (t.link l).conv = (s.link l).conv
          ∧ s.sameBut [.links, .port] t)
      ∧ ((s.link l).rx.enable ≠ en →
          (t.link l).rx.arrivalCount = 0 ∧ (t.link l).rx.lastAccepted = none
          ∧ (t.link l).conv = { state := if en then .seek else .off, fifo := [], readPhase := 0, lastRead := none, n := 0,
                                slipCount := (s.link l).conv.slipCount, notLocked := true }
          ∧ (t.source (lockSource l)).condition = en ∧ s.otherSources [lockSource l] t)
      ∧ s.otherLinks l t ∧ s.otherCounters [] t ∧ s.sameBut (.links :: .port :: eventParts) t))
  ∧ (∀ (s : State) (tag : Byte), s.ready →
    (∀ body : List Byte, body.length ≠ 4 → RefusedWith (.linkSet tag body) s .malformed)
    ∧ ∀ l e pp sp : Byte,
      ((1 < e.toNat ∨ 2 < pp.toNat ∨ (sp ≠ 0x00 ∧ sp ≠ 0x02)) → RefusedWith (.linkSet tag [l, e, pp, sp]) s .malformed)
      ∧ (e.toNat ≤ 1 → pp.toNat ≤ 2 → (sp = 0x00 ∨ sp = 0x02) → 8 ≤ l.toNat → RefusedWith (.linkSet tag [l, e, pp, sp]) s .range))

/-- What the parity step and the slot step deliver, and whether it becomes the last accepted frame (R5 to R8). Then the FIFO at
a delivery (R15, R28): the newest 32 frames in SEEK and ACQUIRE, the newest 64 in HOLDOVER, and in LOCKED an overflow slip
that drops the 28 oldest at a fill of 60. -/
def Obligations.FramesAreTakenAndKept : Prop :=
  (∀ (r : Receiver) (f : AudioFrame) (ok : Bool),
    ((ok = true ∨ r.parityPolicy = .pass) →
      (takeFrame r f ok).accepted = true ∧ (takeFrame r f ok).substituted = false
      ∧ (∀ k : Fin 8, (takeFrame r f ok).slots[k] =
          if r.slotPolicy = .zero ∧ f[k].valid = false then ⟨0, false⟩ else f[k])
      ∧ (takeFrame r f ok).zeroed = if r.slotPolicy = .zero then f.toList.countP (fun x => !x.valid) else 0)
    ∧ (ok = false → r.parityPolicy ≠ .pass →
      (takeFrame r f ok).accepted = false ∧ (takeFrame r f ok).substituted = true ∧ (takeFrame r f ok).zeroed = 0
      ∧ (takeFrame r f ok).slots =
          if r.parityPolicy = .substitute then r.lastAccepted.getD silentFrame else silentFrame))
  ∧ (∀ (c : Converter) (f : AudioFrame),
    (∀ st, c.state = st → (st = .seek ∨ ∃ n t, st = .acquire n t) →
      (c.deliver f).1 = { c with fifo := (c.fifo ++ [f]).drop (c.fifo.length + 1 - 32) } ∧ (c.deliver f).2 = false)
    ∧ (∀ k b, c.state = .holdover k b →
      (c.deliver f).1 = { c with fifo := (c.fifo ++ [f]).drop (c.fifo.length + 1 - 64) } ∧ (c.deliver f).2 = false)
    ∧ ∀ k, c.state = .locked k →
      (c.fifo.length + 1 < 60 → (c.deliver f).1 = { c with fifo := c.fifo ++ [f] } ∧ (c.deliver f).2 = false)
      ∧ (60 ≤ c.fifo.length + 1 →
          (c.deliver f).1 = { c with fifo := (c.fifo ++ [f]).drop 28, slipCount := c.slipCount + 1 }
          ∧ (c.deliver f).2 = true))

/-- FRAME_ARRIVAL (R1, R3, R4, R8, R9, R10, R15, R28, R30): ignored on a disabled link; on an enabled link counted, kept and
delivered, with its FRAME_SUBST, SLOT_INVALID and SLIP events sent. With a share taken ahead, see
HoldingTakesTwoFramesAndDispatches. -/
def Obligations.FrameArrivalIsCountedAndDelivered : Prop :=
  ∀ (s : State) (l : Fin 8) (f : AudioFrame) (ok : Bool),
    ((s.link l).rx.enable = false → exec (.frameArrival l f ok) s = .next s)
    ∧ ((s.link l).rx.enable = true → s.ahead = [] → ∃ t, exec (.frameArrival l f ok) s = .next t
      ∧ (t.link l).rx = { (s.link l).rx with
          arrivalCount := satInc 65535 (s.link l).rx.arrivalCount
          lastAccepted := if (takeFrame (s.link l).rx f ok).accepted then some (takeFrame (s.link l).rx f ok).slots
            else (s.link l).rx.lastAccepted }
      ∧ (t.link l).conv = ((s.link l).conv.deliver (takeFrame (s.link l).rx f ok).slots).1
      ∧ ((takeFrame (s.link l).rx f ok).substituted = true → s.countedIn .frameSubst (some l) 1 t)
      ∧ (∀ c, (s.counter c).event = some .slotInvalid → t.counter c =
          Nat.iterate (Counter.offer .slotInvalid (some l) 1) (takeFrame (s.link l).rx f ok).zeroed (s.counter c))
      ∧ (((s.link l).conv.deliver (takeFrame (s.link l).rx f ok).slots).2 = true →
          s.countedIn .slip (some l) 1 t ∧ s.latchedIn (slipSource l) 1 s.ref.hsc t ∧ s.raisesCounted 1 t)
      ∧ ((takeFrame (s.link l).rx f ok).substituted = false → ∀ c, (s.counter c).event = some .frameSubst → t.counter c = s.counter c)
      ∧ (((s.link l).conv.deliver (takeFrame (s.link l).rx f ok).slots).2 = false →
          t.source (slipSource l) = s.source (slipSource l) ∧ s.raisesCounted 0 t
          ∧ ∀ c, (s.counter c).event = some .slip → t.counter c = s.counter c)
      ∧ s.otherLinks l t ∧ s.otherSources [slipSource l] t ∧ s.otherCounters [.frameSubst, .slotInvalid, .slip] t
      ∧ s.sameBut (.links :: eventParts) t)

/-- The output read of a converter (R16, R17, R29). A converted sample is the rounded interpolation of the two it is formed
from and lies between them. A read takes as many frames as the phase comes to, and an underflow in LOCKED writes copies of the
last frame read; a converter that holds no ratio, or in HOLDOVER no frame, puts out silence. Every HOUSE_SAMPLE that no block
end precedes takes the read at every link and sends the slips. -/
def Obligations.OutputReadsConvertTheFifo : Prop :=
  (∀ (phi : Nat) (a b : Sample), phi < 1048576 →
    (∀ n : Int, n = a.toInt * (1048576 - phi) + b.toInt * phi →
      (interpolate phi a b).toInt = if 0 ≤ n then (2 * n + 1048576) / 2097152 else -((2 * (-n) + 1048576) / 2097152))
    ∧ min a.toInt b.toInt ≤ (interpolate phi a b).toInt ∧ (interpolate phi a b).toInt ≤ max a.toInt b.toInt
    ∧ (interpolate phi a a) = a)
  ∧ (∀ c : Converter, (c.state.lock? = none ∨ ∃ k b, c.state = .holdover k b ∧ c.fifo = []) →
      c.read = { conv := c, frame := silentFrame, sounding := false, slip := false })
  ∧ (∀ (c : Converter) (k : Lock), c.state.lock? = some k → c.fifo ≠ [] →
    ∀ m phi last rest, m = (c.readPhase + k.ratio) / 1048576 → phi = (c.readPhase + k.ratio) % 1048576 →
      last = (if m = 0 then c.lastRead else (c.fifo.take m).getLast?) → rest = c.fifo.drop m →
      c.read.sounding = true
      ∧ (∀ a b, last = some a → rest.head? = some b → ∀ j : Fin 8,
          c.read.frame[j] = ⟨interpolate phi a[j].sample b[j].sample, b[j].valid⟩)
      ∧ (∀ a, last = some a → rest = [] → c.read.frame = a) ∧ (∀ b, last = none → rest.head? = some b → c.read.frame = b)
      ∧ (c.state ≠ .locked k ∨ 4 ≤ rest.length →
          c.read.conv = { c with fifo := rest, readPhase := phi, lastRead := last } ∧ c.read.slip = false)
      ∧ (c.state = .locked k → rest.length ≤ 3 → ∀ a, last = some a →
          c.read.conv = { c with fifo := List.replicate (32 - rest.length) a ++ rest, readPhase := phi, lastRead := last
                                 slipCount := c.slipCount + 1 } ∧ c.read.slip = true))
  ∧ (∀ (s t : State) (frm c0 c1 : Bool), s.startUp = false → s.blockEndDue = false → exec (.houseSample frm c0 c1) s = .next t →
    (∀ l, (t.link l).rx = (s.link l).rx ∧ (t.link l).conv = (s.link l).conv.read.conv
      ∧ ((s.link l).conv.read.slip = true → s.latchedIn (slipSource l) 1 t.ref.hsc t)
      ∧ ((s.link l).conv.read.slip = false → t.source (slipSource l) = s.source (slipSource l)))
    ∧ ∀ c, (s.counter c).event = some .slip → t.counter c =
        ((List.finRange 8).filter (fun l => (s.link l).conv.read.slip)).foldl (fun x l => Counter.offer .slip (some l) 1 x) (s.counter c))

/-- A window judged in SEEK (R20), ACQUIRE (R21, R22), LOCKED (R24, R25) and HOLDOVER (R26, R27): the state it moves to, the
lock, the FIFO and the slip count, and when lock is lost (R35). An OFF converter disregards it (R18). -/
def Obligations.WindowsAreJudgedByTheState : Prop :=
  ∀ (c : Converter) (n : Nat),
    (c.state = .off → c.judgeWindow n = { conv := c, lockLoss := false, slip := false })
    ∧ (c.state = .seek →
      ((2800 ≤ n ∧ n ≤ 10000) → (c.judgeWindow n).conv = { c with n := n, state := .acquire n 1 })
      ∧ ((n < 2800 ∨ 10000 < n) → (c.judgeWindow n).conv = { c with n := n })
      ∧ (c.judgeWindow n).lockLoss = false ∧ (c.judgeWindow n).slip = false)
    ∧ (∀ prev tally, c.state = .acquire prev tally →
      ((n < 2800 ∨ 10000 < n) → (c.judgeWindow n).conv = { c with n := n, state := .seek })
      ∧ (2800 ≤ n → n ≤ 10000 →
        (2 < max n prev - min n prev → (c.judgeWindow n).conv = { c with n := n, state := .acquire n 1 })
        ∧ (max n prev - min n prev ≤ 2 → tally < 3 → (c.judgeWindow n).conv = { c with n := n, state := .acquire n (tally + 1) })
        ∧ (max n prev - min n prev ≤ 2 → 3 ≤ tally → ∀ a, c.fifo.getLast? = some a →
          (c.judgeWindow n).conv = { c with
            n := n, state := .locked (lockOf n), readPhase := 0
            fifo := c.fifo.drop (c.fifo.length - 32) ++ List.replicate (32 - c.fifo.length) a }))
      ∧ (c.judgeWindow n).lockLoss = false ∧ (c.judgeWindow n).slip = false)
    ∧ (∀ good : Nat → Prop, (∀ nRef, good nRef ↔ max n nRef - min n nRef ≤ max 2 (nRef / 200)) →
      (∀ k, c.state = .locked k →
        (good k.nRef → ∀ measured ratio : Int, measured = max 611669 (min 2184533 ((2 * (n * 1048576) + 4800) / 9600)) →
          ratio = max 611669 (min 2184533 (k.ratio + (measured - k.ratio).tdiv 16 + (c.fifo.length - 32) * 8)) →
          (c.judgeWindow n).conv = { c with
            n := n, state := .locked { k with ratio := ratio.toNat, nRef := ((2 * (ratio * 4800) + 1048576) / 2097152).toNat } })
        ∧ (¬ good k.nRef → (c.judgeWindow n).conv = { c with n := n, state := .holdover k 1 })
        ∧ (c.judgeWindow n).lockLoss = false ∧ (c.judgeWindow n).slip = false)
      ∧ (∀ k bad, c.state = .holdover k bad →
        (good k.nRef →
          (4 ≤ c.fifo.length → c.fifo.length ≤ 59 →
            c.judgeWindow n = { conv := { c with n := n, state := .locked k }, lockLoss := false, slip := false })
          ∧ (60 ≤ c.fifo.length → c.judgeWindow n = { lockLoss := false, slip := true, conv := { c with
              n := n, state := .locked k, fifo := c.fifo.drop (c.fifo.length - 32), slipCount := c.slipCount + 1 } })
          ∧ (c.fifo.length ≤ 3 → ∀ a, c.lastRead = some a → c.judgeWindow n = { lockLoss := false, slip := true, conv := { c with
              n := n, state := .locked k, fifo := List.replicate (32 - c.fifo.length) a ++ c.fifo
              slipCount := c.slipCount + 1 } }))
        ∧ (¬ good k.nRef → bad < 4 →
            c.judgeWindow n = { conv := { c with n := n, state := .holdover k (bad + 1) }, lockLoss := false, slip := false })
        ∧ (¬ good k.nRef → 4 ≤ bad → c.judgeWindow n = { lockLoss := true, slip := false, conv := { c with
            n := n, state := .seek, fifo := [], readPhase := 0, lastRead := none } })))

/-- The lock entered on a window in range (R19, R22, R23): the ratio within its bounds, the reference count equal to the window,
the declared latency 24 + round half up(16 * 2^20 / R), between 32 and 51 samples, and the family by the table. -/
def Obligations.LockValuesOfAWindowInRange : Prop :=
  ∀ n : Nat, 2800 ≤ n → n ≤ 10000 →
    ((lockOf n).ratio : Int) = roundDiv (n * 1048576) 4800
      ∧ 611669 ≤ (lockOf n).ratio ∧ (lockOf n).ratio ≤ 2184533
      ∧ (lockOf n).nRef = n ∧ 32 ≤ (lockOf n).cl ∧ (lockOf n).cl ≤ 51
      ∧ ((lockOf n).cl : ℤ) = 24 + ⌊(16 * 2 ^ 20 : ℚ) / (lockOf n).ratio + 1 / 2⌋
      ∧ ((lockOf n).family = .f32k ↔ 3184 ≤ n ∧ n ≤ 3216) ∧ ((lockOf n).family = .f44k1 ↔ 4388 ≤ n ∧ n ≤ 4432)
      ∧ ((lockOf n).family = .f48k ↔ 4776 ≤ n ∧ n ≤ 4824) ∧ ((lockOf n).family = .f88k2 ↔ 8776 ≤ n ∧ n ≤ 8864)
      ∧ ((lockOf n).family = .f96k ↔ 9552 ≤ n ∧ n ≤ 9648)
      ∧ ((lockOf n).family = .offNominal ↔ ¬ (3184 ≤ n ∧ n ≤ 3216) ∧ ¬ (4388 ≤ n ∧ n ≤ 4432) ∧ ¬ (4776 ≤ n ∧ n ≤ 4824)
          ∧ ¬ (8776 ≤ n ∧ n ≤ 8864) ∧ ¬ (9552 ≤ n ∧ n ≤ 9648))

/-- Every step keeps the links' law: the FIFO bounds, the lock's bounds, the mark and the LOCK condition (R14, R22, R28, R29,
R33, R34). During start-up the whole part but delay memory stands at its reset values (R187). -/
def Obligations.StepsKeepTheLinkAndStartUpLaws : Prop :=
  ∀ s t : State, step s = .next t → (s.linksSafe → t.linksSafe) ∧ (s.startUpSafe → t.startUpSafe)

/-! ### Router, programmes and delay memory -/

/-- ROUTE.SET (R40): the lane's route is replaced; UNROUTED ignores the link and slot bytes; the checks in order. The links that
fed a lane in a block (R42): a pair set in the block joins them, UNROUTED takes none away, and BLOCK_END begins them again from
the routes as they stand. -/
def Obligations.RouteSetReplacesOneRoute : Prop :=
  ∀ (s : State) (tag : Byte), s.ready →
    (∀ (n : Fin 32) (l k : Fin 8),
      Completes (.routeSet tag (byte1 n ++ [0x00] ++ byte1 l ++ byte1 k)) s .ok [] (fun t =>
        t.route n = .pair l k ∧ (∀ m, m ≠ n → t.route m = s.route m ∧ t.feeds[m] = s.feeds[m])
        ∧ (∀ j, j ∈ t.feeds[n] ↔ j ∈ s.feeds[n] ∨ j = l) ∧ s.sameBut [.routes, .feeds, .port] t))
    ∧ (∀ (n : Fin 32) (a b : Byte),
      Completes (.routeSet tag (byte1 n ++ [0x01, a, b])) s .ok [] (fun t =>
        t.route n = .unrouted ∧ (∀ m, m ≠ n → t.route m = s.route m) ∧ s.sameBut [.routes, .port] t))
    ∧ (∀ u t : State, u.blockEndDue = true → exec .blockEnd u = .next t →
        ∀ (n : Fin 32) (j : Fin 8), j ∈ t.feeds[n] ↔ ∃ k, u.route n = .pair j k)
    ∧ (∀ body : List Byte, body.length ≠ 4 → RefusedWith (.routeSet tag body) s .malformed)
    ∧ ∀ n k a b : Byte,
      (1 < k.toNat → RefusedWith (.routeSet tag [n, k, a, b]) s .malformed)
      ∧ (k.toNat ≤ 1 → 32 ≤ n.toNat → RefusedWith (.routeSet tag [n, k, a, b]) s .range)
      ∧ (8 ≤ a.toNat ∨ 8 ≤ b.toNat → RefusedWith (.routeSet tag [n, 0x00, a, b]) s .range)

/-- Only ROUTE.SET changes the route table among the requests, and only COUNT.SET a counter's configuration, whatever the
command that carries them; the resets set both (R39, R180). -/
def Obligations.RoutesAndCounterSettingsHaveOneWriter : Prop :=
  ∀ (code : Byte) (body : List Byte) (s : State),
    (code ≠ 0x12 → (takeRequest code body s).state.routes = s.routes)
    ∧ (code ≠ 0x70 → ∀ c, ((takeRequest code body s).state.counter c).event = (s.counter c).event
        ∧ ((takeRequest code body s).state.counter c).qualifier = (s.counter c).qualifier
        ∧ ((takeRequest code body s).state.counter c).mode = (s.counter c).mode
        ∧ ((takeRequest code body s).state.counter c).clearOnRead = (s.counter c).clearOnRead
        ∧ ((takeRequest code body s).state.counter c).alarmEnable = (s.counter c).alarmEnable)

/-- PROG.OPEN whose checks pass (R46 to R48, R50), and its checks, the first that fails giving the status (R46): the second
stage fails exactly on the numbers R46 names, and what passes it has its lanes with their weights clamped or defaulted (R47). -/
def Obligations.ProgOpenChecksAndStartsClearing : Prop :=
  (∀ (s : State) (tag : Byte) (body : List Byte) (x : OpenRequest) (p : Fin 8) (ls : List LaneWeight)
    (g : Option (Fin 4)) (start : Nat) (free : List Extent),
    s.ready → readOpen body = some x → x.inRange? = some (p, ls, g) → (s.prog p).life = .closed →
    (∀ lw ∈ ls, s.laneTaken lw.lane = false) →
    allocate s.freeList (ls.length * ((x.dmax + 511) / 512 * 512 + 512) / 512) = some (start, free) →
    Completes (.progOpen tag body) s
      (if (∃ e ∈ x.entries, 512 < e.2.getD 256) ∨ x.dmax < x.high ∨ min x.high x.dmax < x.low then .adjusted else .ok)
      (byte2 start ++ byte2 (ls.length * ((x.dmax + 511) / 512 * 512 + 512) / 512)
        ++ byte4 (min x.low (min x.high x.dmax)) ++ byte4 (min x.high x.dmax))
      (fun t =>
        t.prog p =
          { life := .clearing ⟨ls, (x.dmax + 511) / 512 * 512 + 512, ⟨start, ls.length * ((x.dmax + 511) / 512 * 512 + 512) / 512⟩⟩
              (ls.length * ((x.dmax + 511) / 512 * 512 + 512) / 512) 0
            dmax := x.dmax, low := min x.low (min x.high x.dmax), high := min x.high x.dmax, group := g, policy := x.policy
            move := { state := .still, pos := min x.low (min x.high x.dmax) * 65536, staged := .empty, reports := [], lost := 0 }
            meter := { Meter.reset with lanes := List.replicate ls.length LaneMeter.fresh, opening := true }
            gain := Corrector.reset }
        ∧ t.freeList = free ∧ s.otherProgs p t ∧ s.sameBut [.progs, .freeList, .port] t))
  ∧ (∀ (s : State) (tag : Byte) (body : List Byte), s.ready →
    (readOpen body = none → RefusedWith (.progOpen tag body) s .malformed)
    ∧ ∀ x, readOpen body = some x →
      (x.inRange? = none → RefusedWith (.progOpen tag body) s .range)
      ∧ ∀ p ls g, x.inRange? = some (p, ls, g) →
        ((s.prog p).life.isClosed = false ∨ (∃ lw ∈ ls, s.laneTaken lw.lane = true) → RefusedWith (.progOpen tag body) s .state)
        ∧ ((s.prog p).life.isClosed = true → (∀ lw ∈ ls, s.laneTaken lw.lane = false) →
            allocate s.freeList (ls.length * ((x.dmax + 511) / 512 * 512 + 512) / 512) = none →
            RefusedWith (.progOpen tag body) s .noSpace))
  ∧ ∀ x : OpenRequest,
    (x.inRange? = none ↔ 8 ≤ x.programme.toNat ∨ x.entries.length = 0 ∨ 8 < x.entries.length
        ∨ (∃ e ∈ x.entries, 32 ≤ e.1.toNat) ∨ ¬ (x.entries.map Prod.fst).Nodup
        ∨ (4 ≤ x.group.toNat ∧ x.group ≠ 0xFF) ∨ 192000 < x.dmax)
    ∧ ∀ p ls g, x.inRange? = some (p, ls, g) →
      p.val = x.programme.toNat ∧ (g = none ↔ x.group = 0xFF) ∧ (∀ k, g = some k → k.val = x.group.toNat)
      ∧ ls.map (fun lw => (lw.lane.val, lw.weight)) = x.entries.map (fun e => (e.1.toNat, min 512 (e.2.getD 256)))

/-- The bytes of a PROG.OPEN body read back as the fields they are made of (section 12.3, R191). -/
def Obligations.OpenBodyReadsBack : Prop :=
  ∀ (p grp : Byte) (es : List (Byte × Option Nat)) (dmax low high : Nat) (pol : ReportPolicy),
    es.length < 256 → (∀ e ∈ es, ∀ w, e.2 = some w → w < 65536) → dmax < 4294967296 → low < 4294967296 → high < 4294967296 →
    readOpen (p :: BitVec.ofNat 8 es.length :: (es.flatMap (fun e => e.1 :: optField byte2 e.2)
        ++ byte4 dmax ++ byte4 low ++ byte4 high ++ [reportPolicyCode pol, grp]))
      = some { programme := p, entries := es, dmax := dmax, low := low, high := high, policy := pol, group := grp }

/-- PROG.CLOSE of a CLEARING and of a LIVE programme (R58, R59, R154), and PROG.GROUP (R60). -/
def Obligations.ProgCloseAndGroupActOnTheProgramme : Prop :=
  (∀ (s : State) (tag : Byte) (p : Fin 8) (h : Held), s.ready →
    (∀ left k, (s.prog p).life = .clearing h left k →
      Completes (.progClose tag (byte1 p)) s .ok [] (fun t =>
        (t.prog p).life = .closed ∧ (t.prog p).group = none ∧ t.freeList = release s.freeList h.extent
        ∧ s.otherProgs p t ∧ s.sameBut [.progs, .freeList, .port] t))
    ∧ ∀ w, (s.prog p).life = .live h w →
      Completes (.progClose tag (byte1 p)) s .ok [] (fun t =>
        (t.prog p).life = .closed ∧ (t.prog p).group = none ∧ t.freeList = release s.freeList h.extent
        ∧ (t.prog p).move = { (s.prog p).move with state := .still, staged := .empty, reports := [], lost := 0 }
        ∧ (t.prog p).gain = { Corrector.reset with mode := (s.prog p).gain.mode, settings := (s.prog p).gain.settings }
        ∧ (t.prog p).meter = { Meter.reset with settings := (s.prog p).meter.settings }
        ∧ (∀ n ∈ [silenceSource p, loudHighSource p, loudLowSource p],
            t.source n = { s.source n with condition := false, timer := 0, qualified := false
                                           pending := (s.source n).pending && !(s.source n).qualified })
        ∧ (∀ n, n ∉ [silenceSource p, loudHighSource p, loudLowSource p] → t.source n = s.source n)
        ∧ (∀ g, t.group g = if (s.prog p).group = some g ∧ (s.prog p).move.state.isCueWait = true ∧ t.waiting g = [] then
            { s.group g with armed := false } else s.group g)
        ∧ s.otherProgs p t
        ∧ s.sameBut [.progs, .freeList, .groups, .sources, .attn, .contacts, .port] t))
  ∧ (∀ (s : State) (tag : Byte) (p : Fin 8) (g : Option (Fin 4)), s.ready →
    ((s.prog p).life.isClosed = false → (s.prog p).move.state.isCueWait = false →
      Completes (.progGroup tag (byte1 p ++ [groupCode g])) s .ok [] (fun t =>
        t.prog p = { s.prog p with group := g } ∧ s.otherProgs p t ∧ s.sameBut [.progs, .port] t))
    ∧ ((s.prog p).life.isClosed = true ∨ (s.prog p).move.state.isCueWait = true →
      RefusedWith (.progGroup tag (byte1 p ++ [groupCode g])) s .state)
    ∧ (∀ b : Byte, 4 ≤ b.toNat → b ≠ 0xFF → RefusedWith (.progGroup tag (byte1 p ++ [b])) s .range)
    ∧ (∀ a b : Byte, 8 ≤ a.toNat → RefusedWith (.progGroup tag [a, b]) s .range)
    ∧ ∀ body : List Byte, body.length ≠ 2 → RefusedWith (.progGroup tag body) s .malformed)

/-- The allocator's list (R50, R51): an allocation grants the first entry long enough at its start; a release gives back
exactly the extent; both keep the list ascending with no two entries adjacent. -/
def Obligations.AllocatorGrantsFirstFitAndMerges : Prop :=
  ∀ fl : List Extent, fl.Pairwise (fun a b => a.start + a.len < b.start) → (∀ e ∈ fl, 1 ≤ e.len) →
    (∀ n, allocate fl n = none ↔ ∀ e ∈ fl, e.len < n)
    ∧ (∀ n start free, 1 ≤ n → allocate fl n = some (start, free) →
        (∃ pre e post, fl = pre ++ e :: post ∧ (∀ d ∈ pre, d.len < n) ∧ n ≤ e.len ∧ start = e.start
          ∧ free = pre ++ (if n = e.len then post else ⟨e.start + n, e.len - n⟩ :: post))
        ∧ free.Pairwise (fun a b => a.start + a.len < b.start) ∧ ∀ e ∈ free, 1 ≤ e.len)
    ∧ ∀ x : Extent, 1 ≤ x.len → (∀ page, x.has page → ¬ ∃ e ∈ fl, e.has page) →
        (release fl x).Pairwise (fun a b => a.start + a.len < b.start) ∧ (∀ e ∈ release fl x, 1 ≤ e.len)
        ∧ ∀ page, (∃ e ∈ release fl x, e.has page) ↔ (x.has page ∨ ∃ e ∈ fl, e.has page)

/-- Every step keeps the allocator's law (R49, R52) and the lanes' law (R45, R47), and under the two no programme's pages lie
outside memory, so that the fault of log entry 9 does not arise. Every step keeps each lane's routed link among the links that
fed it in the current block (R42), so that both sides of a route change are, and keeps 8 house samples in the output stage, so
that what HouseSampleAdvancesThePart puts in at its end reaches the links 8 house samples later (R44). -/
def Obligations.StepsKeepThePageAndLaneLaws : Prop :=
  (∀ s t : State, s.pagesSafe → s.lanesSafe → step s = .next t → t.pagesSafe ∧ t.lanesSafe)
  ∧ (∀ s : State, s.pagesSafe → s.lanesSafe → s.extentOutside? = none)
  ∧ ∀ s t : State, step s = .next t → (s.feedsSafe → t.feedsSafe) ∧ (s.outStageSafe → t.outStageSafe)

/-- Every step keeps delay memory in its canonical form: addresses rising, within memory, no word listed that equals an
unlisted one. The form is the model's own (log entry 8); that no address lies past memory rests on R45, R49 and R55. -/
def Obligations.StepsKeepDelayMemoryCanonical : Prop := ∀ s t : State, s.memSafe → step s = .next t → t.memSafe

/-- The words a house sample writes (R55): each lane's word at position W mod RL of its ring, and no other word, and so at a
HOUSE_SAMPLE for every LIVE programme. Every tap is shorter than the ring (R47, R56). -/
def Obligations.RingWritesAndTapsStayInTheRing : Prop :=
  (∀ (ins : Vector LaneIn 32) (h : Held) (w : Nat) (m : List (Nat × Slot)), 0 < h.rl → h.rl % 512 = 0 → memWf m = true →
    (∀ k (hk : k < h.lanes.length),
      readWord (writeRings ins h w m) ((h.extent.start + k * (h.rl / 512)) * 512 + w % h.rl) =
        if ins[h.lanes[k].lane].sounding then ins[h.lanes[k].lane].slot else ⟨0, false⟩)
    ∧ ∀ a, (∀ k, k < h.lanes.length → a ≠ (h.extent.start + k * (h.rl / 512)) * 512 + w % h.rl) →
        readWord (writeRings ins h w m) a = readWord m a)
  ∧ (∀ (dmax dcur cl : Nat), dcur ≤ dmax → 32 ≤ cl → cl ≤ 51 →
    laneTap dcur cl < ringLength dmax ∧ laneTap dcur cl + cl + 8 = dcur + 59
      ∧ ∀ (h : Held) (w : Nat), h.rl = ringLength dmax →
          tapPosition h w (laneTap dcur cl) < h.rl
          ∧ (laneTap dcur cl ≤ w → tapPosition h w (laneTap dcur cl) = (w - laneTap dcur cl) % h.rl))
  ∧ (∀ (s t : State) (frm c0 c1 : Bool), s.startUp = false → s.blockEndDue = false → s.pagesSafe → s.lanesSafe → s.memSafe →
    exec (.houseSample frm c0 c1) s = .next t →
    ∀ p h w k (hk : k < h.lanes.length), (s.prog p).life = .live h w → s.ahead.contains (.clear p) = false →
      readWord t.mem (ringAddr h k (w % h.rl)) = s.laneWord h.lanes[k].lane)

/-- PAGE_CLEAR_STEP (R52, R53): when the step is due, the next page from the lowest reads zeros and no other word changes, and
the last page makes the programme LIVE at W = 0. That the row is one programme's share of the house sample now due, and that
it does nothing when the step is not due, is the model's (log entries 4, 5). -/
def Obligations.PageClearStepClearsTheNextPage : Prop :=
  ∀ (s : State) (p : Fin 8) (h : Held) (left k : Nat), s.sampleDue = true → s.ahead.contains (.clear p) = false →
    (s.prog p).life = .clearing h left k →
    (5 ≤ k → h.extent.start + h.extent.len ≤ 4096 → left ≤ h.extent.len →
      ∃ t, exec (.pageClearStep p) s = .next t
        ∧ (t.prog p) = { s.prog p with life := if left ≤ 1 then .live h 0 else .clearing h (left - 1) 0 }
        ∧ (∀ a, a / 512 = h.extent.start + (h.extent.len - left) → readWord t.mem a = ⟨0, false⟩)
        ∧ (∀ a, a / 512 ≠ h.extent.start + (h.extent.len - left) → readWord t.mem a = readWord s.mem a)
        ∧ s.otherProgs p t ∧ s.sameBut [.progs, .mem, .ahead] t)
    ∧ (k < 5 → exec (.pageClearStep p) s = .next s)

/-! ### Lip-sync delay moves -/

/-- MOVE.SET (R64 to R67). A request that passes its checks builds a DRAFT record, the target converted from its unit and
clamped into the limits, the rate or the fade length clamped, an absent fade length 240; ADJUSTED exactly when something was
clamped. And every check it can fail, in order. -/
def Obligations.MoveSetBuildsAClampedDraft : Prop :=
  (∀ (s : State) (tag mtag : Byte) (p : Fin 8) (kind : KindCode) (unit : TargetUnit) (value : Nat) (rate fade : Option Nat)
    (cued : Bool), s.ready → value < 4294967296 → (∀ v, rate = some v → v < 65536) → (∀ v, fade = some v → v < 65536) →
    (s.prog p).life.isLive = true → (s.prog p).move.staged.isCommitted = false →
    (rate.isSome = true ↔ kind = .glide) → (fade.isSome = true → kind = .fade) → (unit = .frames → 5 ≤ s.ref.history.length) →
    ∀ (asked : Nat) (k : MoveKind) (moved : Bool) (rec : MoveRecord),
      asked = (match unit with
        | TargetUnit.samples => value
        | .tenthsMs => (2 * (value * 48) + 10) / 20
        | .frames => (2 * (value * s.ref.history.sum) + 5) / 10) →
      (kind = .jump → k = .jump ∧ moved = false) →
      (kind = .fade → (fade = none → k = .fade 240 ∧ moved = false)
        ∧ ∀ v, fade = some v → k = .fade (max 48 (min 4800 v)) ∧ (moved = true ↔ (v < 48 ∨ 4800 < v))) →
      (kind = .glide → ∀ v, rate = some v → k = .glide (max 1 (min 480 v)) ∧ (moved = true ↔ (v < 1 ∨ 480 < v))) →
      rec = { tag := mtag, kind := k, target := max (s.prog p).low (min (s.prog p).high asked), cued := cued
              clamped := decide (max (s.prog p).low (min (s.prog p).high asked) ≠ asked) } →
      Completes (.moveSet tag (byte1 p ++ [mtag, match kind with | .jump => 0x00 | .fade => 0x01 | .glide => 0x02,
          match unit with | .samples => 0x00 | .tenthsMs => 0x01 | .frames => 0x02] ++ byte4 value
          ++ (optField byte2 rate ++ optField byte2 fade ++ flagByte cued))) s
        (if rec.clamped = true ∨ moved = true then .adjusted else .ok) (moveRecordBytes rec) (fun t =>
        t.prog p = { s.prog p with move := { (s.prog p).move with staged := .draft rec } }
        ∧ s.otherProgs p t ∧ s.sameBut [.progs, .port] t))
  ∧ (∀ (s : State) (tag : Byte) (body : List Byte), s.ready →
    (¬ ∃ (front : List Byte) (rate fade : Option Nat) (flag : Byte), front.length = 8
        ∧ body = front ++ (optField byte2 rate ++ optField byte2 fade ++ [flag])) →
    RefusedWith (.moveSet tag body) s .malformed)
  ∧ (∀ (s : State) (tag a mtag kc uc v3 v2 v1 v0 flag : Byte) (rate fade : Option Nat) (body : List Byte), s.ready →
    body = [a, mtag, kc, uc, v3, v2, v1, v0] ++ (optField byte2 rate ++ optField byte2 fade ++ [flag]) →
    (2 < kc.toNat ∨ 2 < uc.toNat → RefusedWith (.moveSet tag body) s .malformed)
    ∧ (kc.toNat ≤ 2 → uc.toNat ≤ 2 →
      (8 ≤ a.toNat → RefusedWith (.moveSet tag body) s .range)
      ∧ ∀ p : Fin 8, a.toNat = p.val →
        ((s.prog p).life.isLive = false → RefusedWith (.moveSet tag body) s .state)
        ∧ ((s.prog p).life.isLive = true →
          ∀ agrees : Prop, (agrees ↔ ((rate.isSome = true ↔ kc = 0x02) ∧ (fade.isSome = true → kc = 0x01) ∧ flag.toNat ≤ 1)) →
          (¬ agrees → RefusedWith (.moveSet tag body) s .malformed)
          ∧ (agrees → uc = 0x02 → s.ref.history.length < 5 → RefusedWith (.moveSet tag body) s .range)
          ∧ (agrees → (uc = 0x02 → 5 ≤ s.ref.history.length) → (s.prog p).move.staged.isCommitted = true →
              RefusedWith (.moveSet tag body) s .committed))))

/-- MOVE.GO (R69, R70, R72, R73): commits behind a move, starts from STILL or HALTED, and its refusals. -/
def Obligations.MoveGoStartsOrCommits : Prop :=
  ∀ (s : State) (tag : Byte) (p : Fin 8) (r : MoveRecord), s.ready → (s.prog p).life.isLive = true →
    ((s.prog p).move.staged = .draft r →
      (∀ st, (s.prog p).move.state = st → st ≠ .still → (∀ h, st ≠ .halted h) →
        Completes (.moveGo tag (byte1 p)) s .ok [] (fun t =>
          t.prog p = { s.prog p with move := { (s.prog p).move with staged := .committed r } }
          ∧ s.otherProgs p t ∧ s.sameBut [.progs, .port] t))
      ∧ (∀ st, (s.prog p).move.state = st → (st = .still ∨ ∃ h, st = .halted h) →
        ((s.prog p).policy = .block → 2 ≤ (s.prog p).move.reports.length → (r.cued = true → (s.prog p).group.isSome = true) →
          Completes (.moveGo tag (byte1 p)) s .ok [] (fun t =>
            t.prog p = { s.prog p with move := { (s.prog p).move with staged := .empty, state := .readWait r none } }
            ∧ s.otherProgs p t ∧ s.sameBut [.progs, .port] t))
        ∧ (((s.prog p).policy = .overwrite ∨ (s.prog p).move.reports.length < 2) →
          (r.cued = false → Completes (.moveGo tag (byte1 p)) s .ok [] (fun t =>
            t.prog p = { s.prog p with move := { (s.prog p).move with
              staged := .empty
              state := match r.kind with
                | .fade f => .moving r .fadeOut f
                | .jump => .moving r .none 0
                | .glide _ => .moving r .none 0 } }
            ∧ s.otherProgs p t ∧ s.sameBut [.progs, .port] t))
          ∧ (r.cued = true → ∀ g, (s.prog p).group = some g → Completes (.moveGo tag (byte1 p)) s .ok [] (fun t =>
            t.prog p = { s.prog p with move := { (s.prog p).move with staged := .empty, state := .cueWait r 0 } }
            ∧ t.group g = { s.group g with armed := true } ∧ (∀ k, k ≠ g → t.group k = s.group k)
            ∧ s.otherProgs p t ∧ s.sameBut [.progs, .groups, .port] t)))
        ∧ (r.cued = true → (s.prog p).group = none → RefusedWith (.moveGo tag (byte1 p)) s .state)))
    ∧ ((s.prog p).move.staged = .empty → RefusedWith (.moveGo tag (byte1 p)) s .state)
    ∧ ((s.prog p).move.staged = .committed r → RefusedWith (.moveGo tag (byte1 p)) s .committed)

/-- MOVE.DISCARD (R68) and MOVE.FINISH (R81). -/
def Obligations.DiscardAndFinishEmptyTheStagedSlot : Prop :=
  (∀ (s : State) (tag : Byte) (p : Fin 8), s.ready → (s.prog p).life.isLive = true →
    ((s.prog p).move.staged ≠ .empty → Completes (.moveDiscard tag (byte1 p)) s .ok [] (fun t =>
      t.prog p = { s.prog p with move := { (s.prog p).move with staged := .empty } }
      ∧ s.otherProgs p t ∧ s.sameBut [.progs, .port] t))
    ∧ ((s.prog p).move.staged = .empty → RefusedWith (.moveDiscard tag (byte1 p)) s .state))
  ∧ (∀ (s : State) (tag : Byte) (p : Fin 8), s.ready → (s.prog p).life.isLive = true →
    Completes (.moveFinish tag (byte1 p)) s .ok [] (fun t =>
      t.prog p = { s.prog p with move := { (s.prog p).move with staged := .empty } }
      ∧ s.otherProgs p t ∧ s.sameBut [.progs, .port] t))

/-- MOVE.HOLD (R76 to R78, R80): in each move state, with the report, the MOVE_DONE and MOVE events of
a move it ends, and the REPORT_LOST of a report replaced (R71, R83, R84). -/
def Obligations.MoveHoldStopsWhatItCan : Prop :=
  ∀ (s : State) (tag : Byte) (p : Fin 8) (r : MoveRecord), s.ready → (s.prog p).life.isLive = true →
    (∀ u, u = (s.prog p).move →
      ((u.state = .still ∨ u.state = .halted r ∨ (∃ d, u.state = .readWait r (some d))
          ∨ (∃ f, r.kind = .fade f ∧ ∃ k, u.state = .moving r .fadeIn k ∨ u.state = .moving r .fadeBack k)
          ∨ (r.kind = .jump ∧ ∃ ph k, u.state = .moving r ph k)) →
        Completes (.moveHold tag (byte1 p)) s .ok [] (fun t =>
          t.prog p = { s.prog p with move := { u with staged := .empty } } ∧ s.otherProgs p t ∧ s.sameBut [.progs, .port] t))
      ∧ (∀ f k, r.kind = .fade f → u.state = .moving r .fadeOut k → k < f →
        Completes (.moveHold tag (byte1 p)) s .ok [] (fun t =>
          t.prog p = { s.prog p with move := { u with staged := .empty, state := .moving r .fadeBack k } }
          ∧ s.otherProgs p t ∧ s.sameBut [.progs, .port] t))
      ∧ (∀ f k, r.kind = .fade f → u.state = .moving r .fadeOut k → f ≤ k →
        Completes (.moveHold tag (byte1 p)) s .ok [] (fun t =>
          t.prog p = { s.prog p with move := ({ u with staged := .empty, state := .halted r }.reported
            ⟨r.tag, r.kind, .halted, u.pos / 65536, s.ref.hsc, r.clamped⟩) }
          ∧ s.latchedIn (moveSource p) 1 s.ref.hsc t ∧ s.countedIn .moveDone (some p) 1 t ∧ s.raisesCounted 1 t
          ∧ s.countedIn .reportLost (some p) u.loses t
          ∧ s.otherProgs p t ∧ s.otherSources [moveSource p] t ∧ s.otherCounters [.moveDone, .reportLost] t
          ∧ s.sameBut (.progs :: .port :: eventParts) t))
      ∧ (∀ v ph k, r.kind = .glide v → u.state = .moving r ph k →
        Completes (.moveHold tag (byte1 p)) s .ok [] (fun t =>
          t.prog p = { s.prog p with move := ({ u with staged := .empty, state := .halted r, pos := u.pos / 65536 * 65536 }.reported
            ⟨r.tag, r.kind, .halted, u.pos / 65536, s.ref.hsc, r.clamped⟩) }
          ∧ s.latchedIn (moveSource p) 1 s.ref.hsc t ∧ s.countedIn .moveDone (some p) 1 t ∧ s.raisesCounted 1 t
          ∧ s.countedIn .reportLost (some p) u.loses t
          ∧ s.otherProgs p t ∧ s.otherSources [moveSource p] t ∧ s.otherCounters [.moveDone, .reportLost] t
          ∧ s.sameBut (.progs :: .port :: eventParts) t))
      ∧ (∀ k, u.state = .cueWait r k →
        Completes (.moveHold tag (byte1 p)) s .ok [] (fun t =>
          t.prog p = { s.prog p with move := ({ u with staged := .empty, state := .still }.reported
            ⟨r.tag, r.kind, .cancelled, u.pos / 65536, s.ref.hsc, r.clamped⟩) }
          ∧ (∀ g, t.group g = if (s.prog p).group = some g ∧ t.waiting g = [] then { s.group g with armed := false }
              else s.group g)
          ∧ s.latchedIn (moveSource p) 1 s.ref.hsc t ∧ s.countedIn .moveDone (some p) 1 t ∧ s.raisesCounted 1 t
          ∧ s.countedIn .reportLost (some p) u.loses t
          ∧ s.otherProgs p t ∧ s.otherSources [moveSource p] t ∧ s.otherCounters [.moveDone, .reportLost] t
          ∧ s.sameBut (.progs :: .groups :: .port :: eventParts) t))
      ∧ (u.state = .readWait r none →
        Completes (.moveHold tag (byte1 p)) s .ok [] (fun t =>
          t.prog p = { s.prog p with move := { u with
            staged := .empty, state := .readWait r (some ⟨u.pos / 65536, s.ref.hsc⟩) } }
          ∧ s.latchedIn (moveSource p) 1 s.ref.hsc t ∧ s.countedIn .moveDone (some p) 1 t ∧ s.raisesCounted 1 t
          ∧ s.otherProgs p t ∧ s.otherSources [moveSource p] t ∧ s.otherCounters [.moveDone] t
          ∧ s.sameBut (.progs :: .port :: eventParts) t)))

/-- MOVE.HOLDALL (R82, R84): every LIVE programme, and its MOVE source, is left as MOVE.HOLD of that programme alone leaves it
(MoveHoldStopsWhatItCan), and no other programme changes; a group whose last waiting member was held is disarmed; MOVE_DONE and
REPORT_LOST are sent for the moves that end. A body is refused. That all units take their hold at one moment is the model's
(log entry 27). -/
def Obligations.MoveHoldallHoldsEveryLiveProgramme : Prop :=
  ∀ (s : State) (tag : Byte), s.ready →
    (∀ (ended cancelled : Fin 8 → Bool),
      (∀ p, cancelled p = true ↔ (s.prog p).life.isLive = true ∧ ∃ r, (s.prog p).move.state = .readWait r none) →
      (∀ p, ended p = true ↔ (s.prog p).life.isLive = true ∧
        ((∃ r k, (s.prog p).move.state = .cueWait r k)
          ∨ (∃ r v ph k, (s.prog p).move.state = .moving r ph k ∧ r.kind = .glide v)
          ∨ ∃ r f k, (s.prog p).move.state = .moving r .fadeOut k ∧ r.kind = .fade f ∧ f ≤ k)) →
      Completes (.moveHoldall tag []) s .ok [] (fun t =>
        (∀ p, (s.prog p).life.isLive = true → ∃ u, exec (.moveHold tag (byte1 p)) s = .next u
          ∧ t.prog p = u.prog p ∧ t.source (moveSource p) = u.source (moveSource p))
        ∧ (∀ p, (s.prog p).life.isLive = false → t.prog p = s.prog p ∧ t.source (moveSource p) = s.source (moveSource p))
        ∧ (∀ g, ((∃ p r k, (s.prog p).life.isLive = true ∧ (s.prog p).group = some g ∧ (s.prog p).move.state = .cueWait r k)
              ∧ t.waiting g = [] → t.group g = { s.group g with armed := false })
            ∧ (¬ ((∃ p r k, (s.prog p).life.isLive = true ∧ (s.prog p).group = some g ∧ (s.prog p).move.state = .cueWait r k)
              ∧ t.waiting g = []) → t.group g = s.group g))
        ∧ (∀ c, (s.counter c).event = some .moveDone → t.counter c =
            ((List.finRange 8).filter (fun p => ended p || cancelled p)).foldl (fun x p => Counter.offer .moveDone (some p) 1 x)
              (s.counter c))
        ∧ (∀ c, (s.counter c).event = some .reportLost → t.counter c =
            ((List.finRange 8).filter (fun p => ended p && decide (2 ≤ (s.prog p).move.reports.length))).foldl
              (fun x p => Counter.offer .reportLost (some p) 1 x) (s.counter c))
        ∧ s.otherSources ((List.finRange 8).map moveSource) t ∧ s.otherCounters [.moveDone, .reportLost] t
        ∧ s.sameBut (.progs :: .groups :: .port :: eventParts) t))
    ∧ ∀ b bs, RefusedWith (.moveHoldall tag (b :: bs)) s .malformed

/-- MOVE.RESUME (R79). MOVE.REPORTS (R85): the slots and the lost count as they stood, then emptied; out of READ_WAIT the unit
goes on as R71 and R70 say, to STILL, to a record committed behind a decided move, or to its own undecided record. -/
def Obligations.ResumeAndReportsMoveTheUnitOn : Prop :=
  (∀ (s : State) (tag : Byte) (p : Fin 8), s.ready → (s.prog p).life.isLive = true →
    (∀ r, (s.prog p).move.state = .halted r →
      Completes (.moveResume tag (byte1 p)) s .ok [] (fun t =>
        t.prog p = { s.prog p with move := { (s.prog p).move with
          state := if (s.prog p).policy = .block ∧ 2 ≤ (s.prog p).move.reports.length then
              .readWait { r with cued := false } none
            else match r.kind with
              | .fade f => .moving { r with cued := false } .fadeOut f
              | .jump => .moving { r with cued := false } .none 0
              | .glide _ => .moving { r with cued := false } .none 0 } }
        ∧ s.otherProgs p t ∧ s.sameBut [.progs, .port] t))
    ∧ ((∀ r, (s.prog p).move.state ≠ .halted r) → RefusedWith (.moveResume tag (byte1 p)) s .state))
  ∧ (∀ (s : State) (tag : Byte) (p : Fin 8), s.ready → (s.prog p).life.isLive = true →
    ((∀ r d, (s.prog p).move.state ≠ .readWait r d) →
      Completes (.moveReports tag (byte1 p)) s .ok (reportsRecord (s.prog p).move) (fun t =>
        t.prog p = { s.prog p with move := { (s.prog p).move with reports := [], lost := 0 } }
        ∧ s.otherProgs p t ∧ s.sameBut [.progs, .port] t))
    ∧ (∀ r d, (s.prog p).move.state = .readWait r (some d) → (s.prog p).move.staged.isCommitted = false →
      Completes (.moveReports tag (byte1 p)) s .ok (reportsRecord (s.prog p).move) (fun t =>
        t.prog p = { s.prog p with move := { (s.prog p).move with
          state := .still, lost := 0, reports := [⟨r.tag, r.kind, .cancelled, d.dcur, d.hsc, r.clamped⟩] } }
        ∧ s.otherProgs p t ∧ s.sameBut [.progs, .port] t))
    ∧ ∀ (r c : MoveRecord) (d : Option Decided) (read : MoveUnit),
      (s.prog p).move.state = .readWait r d →
      ((d = none ∧ c = r ∧ read = { (s.prog p).move with reports := [], lost := 0 })
        ∨ (∃ k, d = some k ∧ (s.prog p).move.staged = .committed c ∧ read = { (s.prog p).move with
            staged := .empty, lost := 0, reports := [⟨r.tag, r.kind, .cancelled, k.dcur, k.hsc, r.clamped⟩] })) →
      (c.cued = false →
        Completes (.moveReports tag (byte1 p)) s .ok (reportsRecord (s.prog p).move) (fun t =>
          t.prog p = { s.prog p with move := { read with
            state := match c.kind with
              | .fade f => .moving c .fadeOut f
              | .jump => .moving c .none 0
              | .glide _ => .moving c .none 0 } }
          ∧ s.otherProgs p t ∧ s.sameBut [.progs, .port] t))
      ∧ (c.cued = true → ∀ g, (s.prog p).group = some g →
        Completes (.moveReports tag (byte1 p)) s .ok (reportsRecord (s.prog p).move) (fun t =>
          t.prog p = { s.prog p with move := { read with state := .cueWait c 0 } }
          ∧ t.group g = { s.group g with armed := true } ∧ (∀ j, j ≠ g → t.group j = s.group j)
          ∧ s.otherProgs p t ∧ s.sameBut [.progs, .groups, .port] t))
      ∧ (c.cued = true → (s.prog p).group = none →
        Completes (.moveReports tag (byte1 p)) s .ok (reportsRecord (s.prog p).move) (fun t =>
          t.prog p = { s.prog p with move := ({ read with state := .still, staged := .empty }.reported
            ⟨c.tag, c.kind, .cueMissed, (s.prog p).move.pos / 65536, s.ref.hsc, c.clamped⟩) }
          ∧ s.latchedIn (moveSource p) 1 s.ref.hsc t ∧ s.countedIn .moveDone (some p) 1 t ∧ s.raisesCounted 1 t
          ∧ s.otherProgs p t ∧ s.otherSources [moveSource p] t ∧ s.otherCounters [.moveDone] t
          ∧ s.sameBut (.progs :: .port :: eventParts) t)))

/-- MOVE_END (R70 to R74, R83, R84). A JUMP ends REACHED at its starting house sample, a GLIDE within one step of its target
REACHED there, a FADE REACHED or, going back, HALTED when its fade position comes to its length. The report goes into the slots,
the events are sent, and a committed record is entered: it waits for the slots, waits for a cue, starts, or, cued with no group,
ends CUE_MISSED at once. That the row is one unit's share of the house sample now due is the model's (log entry 4), and that it
does nothing where that step does not end the move (log entry 5). -/
def Obligations.MoveEndReportsTheMove : Prop :=
  ∀ (s : State) (p : Fin 8) (r : MoveRecord) (ph : Phase) (k w : Nat) (h : Held), s.sampleDue = true →
    (s.prog p).life = .live h w → s.ahead.contains (.clear p) = false → s.ahead.contains (.move p) = false →
    (s.prog p).move.state = .moving r ph k →
    ∀ (x : Programme) (stamp : Stamp) (goal far : Nat), x = s.prog p →
      stamp = (if s.ref.started then s.ref.hsc + 1 else s.ref.hsc) → goal = r.target * 65536 →
      far = max goal x.move.pos - min goal x.move.pos →
    (∀ (pos : Nat) (o : MoveOutcome) (u : MoveUnit),
      ((r.kind = .jump ∧ o = .reached ∧ pos = goal)
        ∨ (∃ v, r.kind = .glide v ∧ far ≤ (2 * (v * 65536) + 4800) / 9600 ∧ o = .reached ∧ pos = goal)
        ∨ (∃ f, r.kind = .fade f ∧ f ≤ k + 1 ∧ pos = x.move.pos
            ∧ ((ph = .fadeIn ∧ o = .reached) ∨ (ph = .fadeBack ∧ o = .halted)))) →
      u = { x.move with pos := pos }.reported ⟨r.tag, r.kind, o, pos / 65536, stamp, r.clamped⟩ →
      ∃ t, exec (.moveEnd p) s = .next t ∧ t.ahead = .move p :: s.ahead
        ∧ s.otherProgs p t ∧ s.otherSources [moveSource p] t ∧ s.otherCounters [.moveDone, .reportLost] t
        ∧ s.sameBut (.progs :: .groups :: .ahead :: eventParts) t
        ∧ ∀ full : Prop, (full ↔ (x.policy = .block ∧ 2 ≤ u.reports.length)) →
          ((∀ c, x.move.staged = .committed c → c.cued = true → x.group = none → full) →
            s.countedIn .moveDone (some p) 1 t ∧ s.countedIn .reportLost (some p) x.move.loses t
            ∧ (o = .reached → t.source (moveSource p) = s.source (moveSource p))
            ∧ (o ≠ .reached → s.latchedIn (moveSource p) 1 stamp t))
          ∧ (x.move.staged.isCommitted = false →
              t.prog p = { x with move := { u with state := if o = .halted then .halted r else .still } } ∧ t.groups = s.groups)
          ∧ (∀ c, x.move.staged = .committed c →
            (full → t.prog p = { x with move := { u with staged := .empty, state := .readWait c none } } ∧ t.groups = s.groups)
            ∧ (¬ full → c.cued = false → t.groups = s.groups ∧ t.prog p = { x with move := { u with
                staged := .empty
                state := match c.kind with
                  | .fade f => .moving c .fadeOut f
                  | .jump => .moving c .none 0
                  | .glide _ => .moving c .none 0 } })
            ∧ (¬ full → c.cued = true → ∀ g, x.group = some g →
                t.prog p = { x with move := { u with staged := .empty, state := .cueWait c 0 } }
                ∧ t.group g = { s.group g with armed := true } ∧ ∀ j, j ≠ g → t.group j = s.group j)
            ∧ (¬ full → c.cued = true → x.group = none →
                t.prog p = { x with move := ({ u with staged := .empty, state := .still }.reported
                  ⟨c.tag, c.kind, .cueMissed, pos / 65536, stamp, c.clamped⟩) }
                ∧ t.groups = s.groups ∧ s.countedIn .moveDone (some p) 2 t
                ∧ s.countedIn .reportLost (some p) (x.move.loses + u.loses) t
                ∧ s.latchedIn (moveSource p) (if o = .reached then 1 else 2) stamp t)))
    ∧ (((∃ v, r.kind = .glide v ∧ (2 * (v * 65536) + 4800) / 9600 < far)
        ∨ ∃ f, r.kind = .fade f ∧ ((ph = .fadeOut ∧ 1 < f) ∨ (ph ≠ .fadeOut ∧ k + 1 < f))) →
      exec (.moveEnd p) s = .next s)

/-- How long a GLIDE lasts (R74): from a position P it ends REACHED at the target at step max 1 (ceil (distance / s)), and
its delay moves by at most one sample a step. A FADE of length F lasts 2F steps (R73): the delay stands until step F + 1,
which sets it to the target, and the move ends REACHED at step 2F. -/
def Obligations.GlidesAndFadesLastAsLongAsStated : Prop :=
  (∀ (r : MoveRecord) (rate pos : Nat) (ph : Phase) (k : Nat), r.kind = .glide rate → 1 ≤ rate → rate ≤ 480 →
    ∀ s d n, s = (2 * (rate * 65536) + 4800) / 9600 → d = max (r.target * 65536) pos - min (r.target * 65536) pos →
      n = max 1 ((d + s - 1) / s) →
      (∀ j, j < n → (runMove j ⟨.moving r ph k, pos, none⟩).ended = none
          ∧ (runMove (j + 1) ⟨.moving r ph k, pos, none⟩).pos / 65536 ≤ (runMove j ⟨.moving r ph k, pos, none⟩).pos / 65536 + 1
          ∧ (runMove j ⟨.moving r ph k, pos, none⟩).pos / 65536 ≤ (runMove (j + 1) ⟨.moving r ph k, pos, none⟩).pos / 65536 + 1)
      ∧ (runMove n ⟨.moving r ph k, pos, none⟩).ended = some (n, .reached)
      ∧ (runMove n ⟨.moving r ph k, pos, none⟩).pos = r.target * 65536)
  ∧ (∀ (r : MoveRecord) (f pos : Nat), r.kind = .fade f → 1 ≤ f →
    (∀ j, j ≤ f → (runMove j ⟨startState r, pos, none⟩) = ⟨.moving r .fadeOut (f - j), pos, none⟩)
    ∧ (∀ j, f < j → j < 2 * f → (runMove j ⟨startState r, pos, none⟩) = ⟨.moving r .fadeIn (j - f), r.target * 65536, none⟩)
    ∧ (runMove (2 * f) ⟨startState r, pos, none⟩) = ⟨.moving r .fadeIn f, r.target * 65536, some (2 * f, .reached)⟩)

/-- Every step keeps the move units' law (R62, R65, R68, R70, R83, R94). -/
def Obligations.StepsKeepTheMoveLaw : Prop := ∀ s t : State, s.movesSafe → step s = .next t → t.movesSafe

/-! ### Cue groups, snapshots and the frame reference -/

/-- CUE.SET (R95): its checks; source, timeout and flags replaced; armed flag and cue count kept; also between the shares of a
block end, which is the model's (log entry 4). SNAP.READ and its checks (R104). -/
def Obligations.CueSetAndSnapReadActOnTheGroup : Prop :=
  (∀ (s : State) (tag : Byte) (g : Fin 4) (src : CueSource) (timeout : Nat) (restart snapshot : Bool),
    (s.ready ∨ s.amidBlockEnd) → timeout < 65536 →
    ∀ x : CueGroup, x = { s.group g with source := src, timeout := max 1 (min 6000 timeout), restart := restart
                                         snapshot := snapshot } →
    Completes (.cueSet tag (byte1 g ++ cueSourceCode src :: byte2 timeout ++ flagByte restart ++ flagByte snapshot)) s
      (if 1 ≤ timeout ∧ timeout ≤ 6000 then .ok else .adjusted)
      (cueSourceCode src :: byte2 x.timeout ++ flagByte restart ++ flagByte snapshot ++ flagByte x.armed
        ++ byte2 x.cueCount.toNat ++ progList (s.members g) ++ progList (s.waiting g))
      (fun t => t.group g = x ∧ (∀ k, k ≠ g → t.group k = s.group k)
        ∧ (t.source frameRefSource).condition = (!s.ref.present && t.anyFrameGroup)
        ∧ s.otherSources [frameRefSource] t ∧ s.otherCounters [] t ∧ s.sameBut (.groups :: .port :: eventParts) t))
  ∧ (∀ (s : State) (tag : Byte), (s.ready ∨ s.amidBlockEnd) →
    (∀ body : List Byte, body.length ≠ 6 → RefusedWith (.cueSet tag body) s .malformed)
    ∧ ∀ g src t1 t0 rs sn : Byte,
      ((4 < src.toNat ∨ 1 < rs.toNat ∨ 1 < sn.toNat) → RefusedWith (.cueSet tag [g, src, t1, t0, rs, sn]) s .malformed)
      ∧ (src.toNat ≤ 4 → rs.toNat ≤ 1 → sn.toNat ≤ 1 → 4 ≤ g.toNat →
          RefusedWith (.cueSet tag [g, src, t1, t0, rs, sn]) s .range))
  ∧ (∀ (s : State) (tag : Byte), s.ready →
    (∀ body : List Byte, body.length ≠ 1 → RefusedWith (.snapRead tag body) s .malformed)
    ∧ ∀ b : Byte, 4 ≤ b.toNat → RefusedWith (.snapRead tag [b]) s .range)
  ∧ (∀ (s : State) (tag : Byte) (g : Fin 4), s.ready →
    ((s.snap g).snap = none → exec (.snapRead tag (byte1 g)) s = .next (s.answered ⟨tag, 0x42, byte1 g⟩ .empty []))
    ∧ ∀ x, (s.snap g).snap = some x →
      Completes (.snapRead tag (byte1 g)) s .ok (snapshotBytes x (s.snap g).overrun) (fun t =>
        t.snap g = { snap := some { x with unread := false }, overrun := false } ∧ (∀ k, k ≠ g → t.snap k = s.snap k)
        ∧ s.sameBut [.snaps, .port] t))

/-- CUE.FIRE and the cue it takes (R98, R99, R103, R124): refused with source NONE, arming with FRAME, and a cue at once with
MESSAGE, CUE0 or CUE1, with CUE_TAKEN sent for every member; also between the shares of a block end (R100, R101; log entry 4).
And the cues of the lines at a HOUSE_SAMPLE (R93, R97, R99): a
rising CUE0 or CUE1 edge cues every group with that source, and an accepted rising FRM edge every armed group with source
FRAME, after the move steps of that house sample (log entry 12). -/
def Obligations.CueFireTakesTheCue : Prop :=
  (∀ (s : State) (tag : Byte) (g : Fin 4), (s.ready ∨ s.amidBlockEnd) →
    (∀ body : List Byte, body.length ≠ 1 → RefusedWith (.cueFire tag body) s .malformed)
    ∧ (∀ b : Byte, 4 ≤ b.toNat → RefusedWith (.cueFire tag [b]) s .range)
    ∧ ((s.group g).source = .none → RefusedWith (.cueFire tag (byte1 g)) s .state)
    ∧ ((s.group g).source = .frame →
        Completes (.cueFire tag (byte1 g)) s .ok (byte1 g ++ byte2 (s.group g).cueCount.toNat) (fun t =>
          t.group g = { s.group g with armed := true } ∧ (∀ k, k ≠ g → t.group k = s.group k) ∧ s.sameBut [.groups, .port] t))
    ∧ ((s.group g).source ≠ .none → (s.group g).source ≠ .frame →
        Completes (.cueFire tag (byte1 g)) s .ok (byte1 g ++ byte2 ((s.group g).cueCount + 1).toNat) (fun t =>
          t.group g = { s.group g with cueCount := (s.group g).cueCount + 1, armed := false }
          ∧ (∀ k, k ≠ g → t.group k = s.group k)
          ∧ (∀ p r k, p ∈ s.members g → (s.prog p).move.state = .cueWait r k →
              (t.prog p).move = { (s.prog p).move with state := startState r })
          ∧ (∀ p, (p ∉ s.members g ∨ (s.prog p).move.state.isCueWait = false) → (t.prog p).move = (s.prog p).move)
          ∧ (∀ p, (t.prog p).meter =
              if p ∈ s.members g ∧ (s.group g).restart = true ∧ (s.prog p).life.isLive = true then
                { (s.prog p).meter with hist := [], integrated := none, gate := none, entered := 0, suspects := 0 }
              else (s.prog p).meter)
          ∧ (∀ p, (t.prog p).gain = (s.prog p).gain ∧ (t.prog p).life = (s.prog p).life ∧ (t.prog p).group = (s.prog p).group)
          ∧ ((s.group g).snapshot = false → t.snaps = s.snaps)
          ∧ ((s.group g).snapshot = true →
              (t.snap g).snap = some { group := g, cueNumber := (s.group g).cueCount + 1, hsc := s.ref.hsc, unread := true
                                       members := ((s.members g).filter (fun p => (s.prog p).life.isLive)).map (fun p =>
                                         { programme := p, pathDelay := (s.prog p).move.dcur + 59
                                           integrated := (s.prog p).meter.integrated, shortTerm := (s.prog p).meter.s
                                           applied := (s.prog p).gain.applied }) }
              ∧ (t.snap g).overrun = ((s.snap g).overrun || (s.snap g).snap.any Snapshot.unread)
              ∧ ∀ k, k ≠ g → t.snap k = s.snap k)
          ∧ (∀ c, (s.counter c).event = some .cueTaken → t.counter c =
              (s.members g).foldl (fun x p => Counter.offer .cueTaken (some p) 1 x) (s.counter c))
          ∧ s.otherSources [] t ∧ s.otherCounters [.cueTaken] t
          ∧ s.sameBut (.progs :: .groups :: .snaps :: .port :: eventParts) t)))
  ∧ (∀ (s t : State) (frm c0 c1 : Bool), s.startUp = false → s.blockEndDue = false → exec (.houseSample frm c0 c1) s = .next t →
    ∀ (armed cued : Fin 4 → Bool),
      (∀ g, armed g = true ↔ (s.group g).armed = true ∨ ∃ p, ((s.steppedAt t.ref.hsc p).group g).armed = true) →
      (∀ g, cued g = true ↔
        ((s.group g).source = .cue0 ∧ c0 = true ∧ s.ref.cue0Prev = false)
        ∨ ((s.group g).source = .cue1 ∧ c1 = true ∧ s.ref.cue1Prev = false)
        ∨ ((s.group g).source = .frame ∧ armed g = true ∧ frm = true ∧ s.ref.frmPrev = false
            ∧ ∃ e, s.ref.edgePrev = some e ∧ 768 ≤ (t.ref.hsc - e).toNat ∧ (t.ref.hsc - e).toNat ≤ 2400)) →
      (∀ g, cued g = false → t.group g = { s.group g with armed := armed g } ∧ t.snap g = s.snap g)
      ∧ (∀ g, cued g = true →
        t.group g = { s.group g with cueCount := (s.group g).cueCount + 1, armed := false }
        ∧ ((s.group g).snapshot = false → t.snap g = s.snap g)
        ∧ ((s.group g).snapshot = true → t.snap g =
          { snap := some { group := g, cueNumber := (s.group g).cueCount + 1, hsc := t.ref.hsc, unread := true
                           members := ((s.members g).filter (fun p => (t.prog p).life.isLive)).map (fun p =>
                             { programme := p, pathDelay := (t.prog p).move.dcur + 59
                               integrated := (s.prog p).meter.integrated, shortTerm := (s.prog p).meter.s
                               applied := (t.prog p).gain.applied }) }
            overrun := (s.snap g).overrun || (s.snap g).snap.any Snapshot.unread })
        ∧ ∀ p u, p ∈ s.members g → u = ((s.steppedAt t.ref.hsc p).prog p).move →
          (∀ r k, u.state = .cueWait r k → (t.prog p).move = { u with state := startState r })
          ∧ (u.state.isCueWait = false → (t.prog p).move = u)
          ∧ ((s.group g).restart = true → (t.prog p).life.isLive = true → (t.prog p).meter =
              { (t.prog p).meter with hist := [], integrated := none, gate := none, entered := 0, suspects := 0 }))
      ∧ ∀ c, (s.counter c).event = some .cueTaken → t.counter c =
          (((List.finRange 4).filter (fun g => cued g && (s.group g).source == .frame)
            ++ (List.finRange 4).filter (fun g => cued g && (s.group g).source == .cue0)
            ++ (List.finRange 4).filter (fun g => cued g && (s.group g).source == .cue1)).flatMap s.members).foldl
            (fun x p => Counter.offer .cueTaken (some p) 1 x) (s.counter c))

/-- FRAME_REFERENCE_ABSENT (R91, R92): when the house sample now due reaches the absence limit, the reference is ABSENT with
an accepted run of 0, and FRAME_REF is true while a group has source FRAME. That the row is the reference unit's share of
that house sample is the model's (log entry 4), that it does nothing below the limit (log entry 5), and that no accepted edge
falls on it (log entry 22). Every step keeps the reference unit's law: at most five intervals of 768 to 2,400, a run of at most
2, PRESENT with a run of 2 (R90, R91). A rising FRM edge (R90, R91) is accepted at an interval of 768 to 2,400, the history keeping the
newest five; the first edge, with none before it, is only remembered. A HOUSE_SAMPLE at which FRM rises takes that edge, and
one at which the limit is reached makes the reference ABSENT; FRAME_REF is reported at either. -/
def Obligations.FrameReferenceComesAndGoes : Prop :=
  (∀ (s : State) (e : Stamp), s.sampleDue = true → s.ahead.contains .frameRef = false → s.ref.present = true →
    s.ref.edgeAccepted = some e →
    ∀ hsc : Stamp, hsc = (if s.ref.started then s.ref.hsc + 1 else s.ref.hsc) →
    (max (3 * (s.ref.history.getLast?).getD 0) 9600 ≤ (hsc - e).toNat →
      ∃ t, exec .frameReferenceAbsent s = .next t
        ∧ t.ref = { s.ref with present := false, run := 0 }
        ∧ (t.source frameRefSource).condition = s.anyFrameGroup
        ∧ s.otherSources [frameRefSource] t ∧ s.otherCounters [] t ∧ s.sameBut (.ref :: .ahead :: eventParts) t)
    ∧ ((hsc - e).toNat < max (3 * (s.ref.history.getLast?).getD 0) 9600 → exec .frameReferenceAbsent s = .next s))
  ∧ (∀ (r : RefUnit) (e : Stamp), r.edgePrev = some e →
    ((768 ≤ (r.hsc - e).toNat ∧ (r.hsc - e).toNat ≤ 2400) → r.run ≤ 2 → r.history.length ≤ 5 →
      r.frmEdge = { r with
        edgePrev := some r.hsc, edgeAccepted := some r.hsc
        history := if r.history.length = 5 then r.history.drop 1 ++ [(r.hsc - e).toNat] else r.history ++ [(r.hsc - e).toNat]
        run := min 2 (r.run + 1), present := r.present || decide (1 ≤ r.run) })
    ∧ (((r.hsc - e).toNat < 768 ∨ 2400 < (r.hsc - e).toNat) → r.frmEdge = { r with edgePrev := some r.hsc }))
  ∧ (∀ r : RefUnit, r.edgePrev = none → r.frmEdge = { r with edgePrev := some r.hsc })
  ∧ (∀ (s t : State) (frm c0 c1 : Bool), s.startUp = false → s.blockEndDue = false → exec (.houseSample frm c0 c1) s = .next t →
    ∀ r : RefUnit, r = (if frm = true ∧ s.ref.frmPrev = false then s.ref.tick.frmEdge else s.ref.tick) →
    ∀ absent accepted : Prop,
      (absent ↔ s.ahead.contains .frameRef = false ∧ r.present = true
        ∧ ∃ e, r.edgeAccepted = some e ∧ max (3 * (r.history.getLast?).getD 0) 9600 ≤ (r.hsc - e).toNat) →
      (accepted ↔ frm = true ∧ s.ref.frmPrev = false
        ∧ ∃ e, s.ref.edgePrev = some e ∧ 768 ≤ (t.ref.hsc - e).toNat ∧ (t.ref.hsc - e).toNat ≤ 2400) →
      (absent → t.ref = { r with present := false, run := 0, frmPrev := frm, cue0Prev := c0, cue1Prev := c1 })
      ∧ (¬ absent → t.ref = { r with frmPrev := frm, cue0Prev := c0, cue1Prev := c1 })
      ∧ (absent ∨ accepted → (t.source frameRefSource).condition = (!t.ref.present && s.anyFrameGroup))
      ∧ (¬ absent → ¬ accepted → t.source frameRefSource = s.source frameRefSource))
  ∧ ∀ s t : State, s.refSafe → step s = .next t → t.refSafe

/-- CUE_TIMEOUT (R71, R75, R83, R101): when the block end now due brings the wait count to the group's timeout, the move ends
CUE_MISSED. That the row is one unit's share of that block end is the model's (log entry 4), and that it does nothing below the
timeout (log entry 5). A BLOCK_END does the same at every waiting unit that has not taken it ahead. And a cue between two members'
timeouts of one block end: the member that timed out before it stays CUE_MISSED, and one that still waits is started by it, also
where its own wait count was about to reach the timeout (R100, R101). -/
def Obligations.CueTimeoutEndsTheWait : Prop :=
  (∀ (s : State) (p : Fin 8) (g : Fin 4) (r : MoveRecord) (k : Nat), s.blockEndDue = true →
    s.ahead.contains (.cueWait p) = false → (s.prog p).move.state = .cueWait r k → (s.prog p).group = some g →
    ((s.group g).timeout ≤ k + 1 →
      ∃ t, exec (.cueTimeout p) s = .next t
        ∧ t.prog p = { s.prog p with move := ({ (s.prog p).move with state := .still, staged := .empty }.reported
            ⟨r.tag, r.kind, .cueMissed, (s.prog p).move.dcur, s.ref.hsc, r.clamped⟩) }
        ∧ t.group g = (if t.waiting g = [] then { s.group g with armed := false } else s.group g)
        ∧ (∀ j, j ≠ g → t.group j = s.group j)
        ∧ s.latchedIn (moveSource p) 1 s.ref.hsc t ∧ s.countedIn .moveDone (some p) 1 t ∧ s.raisesCounted 1 t
        ∧ s.countedIn .reportLost (some p) (s.prog p).move.loses t
        ∧ s.otherProgs p t ∧ s.otherSources [moveSource p] t ∧ s.otherCounters [.moveDone, .reportLost] t
        ∧ s.sameBut (.progs :: .groups :: .ahead :: eventParts) t)
    ∧ (k + 1 < (s.group g).timeout → exec (.cueTimeout p) s = .next s))
  ∧ (∀ (s t : State) (missed : Fin 8 → Bool), s.blockEndDue = true → exec .blockEnd s = .next t →
    (∀ p, missed p = true ↔ s.ahead.contains (.cueWait p) = false ∧ ∃ r k, (s.prog p).move.state = .cueWait r k
        ∧ ∀ g, (s.prog p).group = some g → (s.group g).timeout ≤ k + 1) →
    (∀ p r k, missed p = true → (s.prog p).move.state = .cueWait r k →
      (t.prog p).move = { (s.prog p).move with state := .still, staged := .empty }.reported
        ⟨r.tag, r.kind, .cueMissed, (s.prog p).move.dcur, s.ref.hsc, r.clamped⟩
      ∧ s.latchedIn (moveSource p) 1 s.ref.hsc t)
    ∧ (∀ p, missed p = false → t.source (moveSource p) = s.source (moveSource p))
    ∧ (∀ g, ((∃ p, missed p = true ∧ (s.prog p).group = some g) ∧ t.waiting g = [] →
          t.group g = { s.group g with armed := false })
        ∧ (¬ ((∃ p, missed p = true ∧ (s.prog p).group = some g) ∧ t.waiting g = []) → t.group g = s.group g))
    ∧ (∀ c, (s.counter c).event = some .moveDone → t.counter c =
        ((List.finRange 8).filter missed).foldl (fun x p => Counter.offer .moveDone (some p) 1 x) (s.counter c))
    ∧ ∀ c, (s.counter c).event = some .reportLost → t.counter c =
        ((List.finRange 8).filter (fun p => missed p && decide (2 ≤ (s.prog p).move.reports.length))).foldl
          (fun x p => Counter.offer .reportLost (some p) 1 x) (s.counter c))
  ∧ (∀ (s : State) (tag : Byte) (p q : Fin 8) (g : Fin 4) (r x : MoveRecord) (k j : Nat), s.amidBlockEnd → p ≠ q →
    s.ahead.contains (.cueWait p) = false → (s.prog p).move.state = .cueWait r k → (s.prog p).group = some g →
    (s.group g).timeout ≤ k + 1 → q ∈ s.members g → (s.prog q).move.state = .cueWait x j →
    (s.group g).source ≠ .none → (s.group g).source ≠ .frame →
    ∃ t u v, exec (.cueTimeout p) s = .next t ∧ exec (.cueFire tag (byte1 g)) t = .next u ∧ exec .blockEnd u = .next v
      ∧ (v.prog p).move = { (s.prog p).move with state := .still, staged := .empty }.reported
          ⟨r.tag, r.kind, .cueMissed, (s.prog p).move.dcur, s.ref.hsc, r.clamped⟩
      ∧ (v.prog q).move = { (s.prog q).move with state := startState x }
      ∧ v.group g = { s.group g with cueCount := (s.group g).cueCount + 1, armed := false })

/-! ### Loudness meter -/

/-- LOUD.SET (R123): each setting clamped to its range; nothing else of the meter changes. LOUD.READ and LOUD.RESTART (R124,
R125): the peak holds cleared after the reply, and the integrated measurement begun again. The checks of all three. -/
def Obligations.MeterRequestsActOnTheMeter : Prop :=
  (∀ (s : State) (tag : Byte) (p : Fin 8) (x : LoudSettings), s.ready → (s.prog p).life.isClosed = false →
    (∀ v ∈ [x.target, x.upper, x.lower, x.silence, x.ceiling], -32768 ≤ v ∧ v ≤ 32767) →
    ∀ y : LoudSettings, y = { target := max (-400) (min (-100) x.target), upper := max 0 (min 200 x.upper)
                              lower := max 0 (min 200 x.lower), silence := max (-900) (min (-300) x.silence)
                              ceiling := max (-200) (min 0 x.ceiling) } →
    Completes (.loudSet tag (byte1 p ++ loudSettingsRecord x)) s (if y = x then .ok else .adjusted) (loudSettingsRecord y)
      (fun t => t.prog p = { s.prog p with meter := { (s.prog p).meter with settings := y } }
        ∧ s.otherProgs p t ∧ s.sameBut [.progs, .port] t))
  ∧ (∀ (s : State) (tag : Byte), s.ready →
    (∀ body : List Byte, body.length ≠ 11 → RefusedWith (.loudSet tag body) s .malformed)
    ∧ (∀ (b : Byte) (rest : List Byte), rest.length = 10 → 8 ≤ b.toNat → RefusedWith (.loudSet tag (b :: rest)) s .range)
    ∧ (∀ (p : Fin 8) (rest : List Byte), rest.length = 10 → (s.prog p).life.isClosed = true →
        RefusedWith (.loudSet tag (byte1 p ++ rest)) s .state)
    ∧ ∀ mk ∈ [Instr.loudRead, Instr.loudRestart],
      (∀ body : List Byte, body.length ≠ 1 → RefusedWith (mk tag body) s .malformed)
      ∧ (∀ b : Byte, 8 ≤ b.toNat → RefusedWith (mk tag [b]) s .range)
      ∧ ∀ p : Fin 8, (s.prog p).life.isClosed = true → RefusedWith (mk tag (byte1 p)) s .state)
  ∧ (∀ (s : State) (tag : Byte) (p : Fin 8), s.ready → (s.prog p).life.isClosed = false →
    Completes (.loudRead tag (byte1 p)) s .ok (meterRecord p (s.prog p).life.lanes (s.prog p).meter) (fun t =>
      t.prog p = { s.prog p with meter := { (s.prog p).meter with
        lanes := (s.prog p).meter.lanes.map (fun x => { x with peakHold := -1000 }) } }
      ∧ s.otherProgs p t ∧ s.sameBut [.progs, .port] t)
    ∧ Completes (.loudRestart tag (byte1 p)) s .ok [] (fun t =>
      t.prog p = { s.prog p with meter := { (s.prog p).meter with
        hist := [], integrated := none, gate := none, entered := 0, suspects := 0 } }
      ∧ s.otherProgs p t ∧ s.sameBut [.progs, .port] t))

/-- The level function is the rounded logarithm with its floor, and never falls as the energy rises (R112); a lane's block peak
is the rounded logarithm of its maximum over full scale, with its floor (R115). The filter's products, sums and differences, and
its coefficients, are the nearest numbers of a 53-bit significand, a tie going to the even one (R107). -/
def Obligations.LevelsAndFilterArithmeticAreRounded : Prop :=
  (∀ num den : Nat, 0 < den →
    ((num : ℝ) / den < (10 : ℝ) ^ (-10 : ℤ) → level num den = -1000)
    ∧ ((10 : ℝ) ^ (-10 : ℤ) ≤ (num : ℝ) / den →
        level num den = max (-1000) (round (100 * Real.logb 10 ((num : ℝ) / den)) - 7)))
  ∧ (∀ a b c d : Nat, 0 < b → 0 < d → a * d ≤ c * b → level a b ≤ level c d)
  ∧ (peakLevel 0 = -1000 ∧ ∀ x : Nat, 0 < x → x ≤ 8388608 →
    peakLevel x = max (-1000) (round (200 * Real.logb 10 ((x : ℝ) / 2 ^ 23))))
  ∧ (∀ n e : Int, n ≠ 0 → ∀ r, r = F53.ofScaled n e →
    2 ^ 52 ≤ r.sig.natAbs ∧ r.sig.natAbs < 2 ^ 53 ∧ |r.value - n * (2 : ℚ) ^ e| ≤ (2 : ℚ) ^ r.exp / 2
      ∧ (|r.value - n * (2 : ℚ) ^ e| = (2 : ℚ) ^ r.exp / 2 → Even r.sig))
  ∧ (∀ a b : F53,
    (∃ n e, F53.mul a b = F53.ofScaled n e ∧ n * (2 : ℚ) ^ e = a.value * b.value)
    ∧ ((F53.add a b).value = a.value + b.value ∨ ∃ n e, F53.add a b = F53.ofScaled n e ∧ n * (2 : ℚ) ^ e = a.value + b.value)
    ∧ ((F53.sub a b).value = a.value - b.value ∨ ∃ n e, F53.sub a b = F53.ofScaled n e ∧ n * (2 : ℚ) ^ e = a.value - b.value))
  ∧ ∀ y ∈ ([(shelfCoeffs.b0, 153512485958697 / 10 ^ 14), (shelfCoeffs.b1, -269169618940638 / 10 ^ 14),
        (shelfCoeffs.b2, 119839281085285 / 10 ^ 14), (shelfCoeffs.a1, -169065929318241 / 10 ^ 14),
        (shelfCoeffs.a2, 73248077421585 / 10 ^ 14), (lowCutCoeffs.b0, 1), (lowCutCoeffs.b1, -2), (lowCutCoeffs.b2, 1),
        (lowCutCoeffs.a1, -199004745483398 / 10 ^ 14), (lowCutCoeffs.a2, 99007225036621 / 10 ^ 14)] : List (F53 × ℚ)),
      2 ^ 52 ≤ y.1.sig.natAbs ∧ y.1.sig.natAbs < 2 ^ 53 ∧ |y.1.value - y.2| ≤ (2 : ℚ) ^ y.1.exp / 2

/-- What a lane meter takes at a house sample (R106 to R108), and what the block result makes of the block (R110, R111, R113 to
R116, R120): the programme energy and its suspect flag pushed into the ring, M and S the levels of the newest four and thirty
entries, the peaks and peak holds, the suspect count, the freeze indication, and the gating window entered into its bin. Gamma
and I stand as recomputed from the histogram: absent when it is empty, else the level of all windows less 100 and the level of
the windows in the bins at or above it (R122), where I is at least Gamma and at least -700 for a histogram whose bins hold
windows of their level and of no more energy than eight lanes can give (R111). -/
def Obligations.BlockResultsMeasureTheBlock : Prop :=
  (∀ (x : Sample) (m : LaneMeter) (u v y : F53) (out : Coeffs → SectionMem → F53 → F53),
    (∀ c k z, out c k z = ((((c.b0.mul z).add (c.b1.mul k.x1)).add (c.b2.mul k.x2)).sub (c.a1.mul k.v1)).sub (c.a2.mul k.v2)) →
    u = F53.ofScaled x.toInt (-23) → v = out shelfCoeffs m.shelf u → y = out lowCutCoeffs m.lowCut v →
    u.value = x.toInt / 2 ^ 23
    ∧ (LaneMeter.take x m).shelf = ⟨u, m.shelf.x1, v, m.shelf.v1⟩ ∧ (LaneMeter.take x m).lowCut = ⟨v, m.lowCut.x1, y, m.lowCut.v1⟩
    ∧ (LaneMeter.take x m).acc.value = m.acc.value + (max (-1) (min 1 y.value)) ^ 2
    ∧ (LaneMeter.take x m).blockMax = max m.blockMax x.toInt.natAbs ∧ (LaneMeter.take x m).peakHold = m.peakHold)
  ∧ (∀ (feeds : Vector (List (Fin 8)) 32) (marks : Vector Bool 8) (lanes : List LaneWeight),
    suspectBlock feeds marks lanes = true ↔ ∃ lw ∈ lanes, ∃ l ∈ feeds[lw.lane], marks[l] = true)
  ∧ (∀ (m m' : Meter) (r : BlockResult) (lanes : List LaneWeight) (suspect : Bool), m.result lanes suspect = (m', r) →
    lanes.length = m.lanes.length → m.hist.Pairwise (fun a b => a.level < b.level) →
    ∀ (energy : List RingEntry → Nat) (enters : Prop) (e : Nat) (bin : Int) (window : List RingEntry),
      (∀ xs, energy xs = (xs.map RingEntry.energy).sum) → window = m'.ring.take 4 → e = energy window →
      bin = min 50 (level e (2 ^ 50)) →
      (enters ↔ 4 ≤ m'.n ∧ (∀ x ∈ window, x.suspect = false) ∧ -700 ≤ level e (2 ^ 50)
        ∧ ∀ b ∈ m.hist, b.level = bin → b.count < 4294967295) →
    (∃ x : RingEntry, m'.ring = (x :: m.ring).take 30 ∧ x.suspect = suspect
      ∧ (x.energy : ℤ) = ⌊((lanes.zip m.lanes).map (fun y =>
          ((y.1.weight : ℚ) / 256) * ⌊y.2.acc.value / 4800 * 2 ^ 48⌋)).sum⌋)
    ∧ m'.n = min 4294967295 (m.n + 1) ∧ m'.suspects = (if suspect then min 4294967295 (m.suspects + 1) else m.suspects)
    ∧ (∀ xs, xs = m'.ring.take (min 4 m'.n) → m'.m = level (energy xs) (xs.length * 2 ^ 48))
    ∧ (∀ xs, xs = m'.ring.take (min 30 m'.n) → m'.s = level (energy xs) (xs.length * 2 ^ 48))
    ∧ m'.lanes = m.lanes.map (fun x => { x with acc := ⟨0, 0⟩, blockMax := 0, peakHold := max x.peakHold (peakLevel x.blockMax) })
    ∧ r.m = m'.m ∧ r.s = m'.s ∧ r.peaks = m.lanes.map (fun x => peakLevel x.blockMax)
    ∧ (∀ y ∈ r.peaks, y ≤ r.pMax) ∧ (r.peaks ≠ [] → r.pMax ∈ r.peaks)
    ∧ r.freeze = (if suspect then .suspect else if r.m < m.settings.silence then .silent else .none)
    ∧ (¬ enters → m'.hist = m.hist ∧ m'.entered = m.entered)
    ∧ (enters → m'.entered = min 4294967295 (m.entered + 1) ∧ m'.hist.Pairwise (fun a b => a.level < b.level)
        ∧ (∀ b, b.level ≠ bin → (b ∈ m'.hist ↔ b ∈ m.hist))
        ∧ (∀ b ∈ m.hist, b.level = bin → ⟨bin, b.count + 1, b.sum + e⟩ ∈ m'.hist)
        ∧ ((∀ b ∈ m.hist, b.level ≠ bin) → ⟨bin, 1, e⟩ ∈ m'.hist))
    ∧ m'.gating = m' ∧ m'.settings = m.settings ∧ m'.opening = m.opening)
  ∧ ∀ m : Meter,
    (m.hist = [] → m.gating = { m with integrated := none, gate := none })
    ∧ (m.hist ≠ [] → ∀ (g i : Int) (counted : List Bin),
        g = level (m.hist.map Bin.sum).sum ((m.hist.map Bin.count).sum * 2 ^ 50) - 100 →
        counted = m.hist.filter (fun b => decide (g ≤ b.level)) →
        i = level (counted.map Bin.sum).sum ((counted.map Bin.count).sum * 2 ^ 50) →
        m.gating = { m with integrated := some i, gate := some g }
        ∧ ((∀ b ∈ m.hist, b.safe ∧ b.sum ≤ b.count * (16 * 2 ^ 50)) → g ≤ i ∧ -700 ≤ i))

/-- Every step keeps the meters' law, by which the ring holds min(n, 30) entries and each bin holds windows of its level (R113,
R120, R121), the correctors' law (R128 to R131, R133, R137), and one meter record for each lane of an open programme (R105), on
which BlockResultsMeasureTheBlock rests. -/
def Obligations.StepsKeepTheMeterAndGainLaws : Prop :=
  ∀ s t : State, step s = .next t →
    (s.metersSafe → t.metersSafe) ∧ (s.gainsSafe → t.gainsSafe) ∧ (s.meterLanesSafe → t.meterLanesSafe)

/-! ### Gain corrector -/

/-- GAIN.SET (R129 to R131): its checks, the settings clamped, G and the schedule clamped to them, and the mode acted on. That
a clamped taken value equal to the applied gain zeroes the ramp count also when the mode then leaves TRACK is the model's
reading (log entry 17). -/
def Obligations.GainSetClampsAndActsOnTheMode : Prop :=
  (∀ (s : State) (tag : Byte), s.ready →
    (∀ body : List Byte, body.length ≠ 12 → RefusedWith (.gainSet tag body) s .malformed)
    ∧ (∀ (a md : Byte) (rest : List Byte), rest.length = 10 →
      (2 < md.toNat → RefusedWith (.gainSet tag (a :: md :: rest)) s .malformed)
      ∧ (md.toNat ≤ 2 → 8 ≤ a.toNat → RefusedWith (.gainSet tag (a :: md :: rest)) s .range))
    ∧ ∀ (p : Fin 8) (md : Byte) (rest : List Byte), rest.length = 10 → md.toNat ≤ 2 → (s.prog p).life.isClosed = true →
        RefusedWith (.gainSet tag (byte1 p ++ md :: rest)) s .state)
  ∧ ∀ (s : State) (tag : Byte) (p : Fin 8) (mode : GainMode) (x : GainSettings), s.ready →
    (s.prog p).life.isClosed = false →
    (∀ v ∈ [x.boost, x.cut, x.rise, x.fall, x.fixed], -32768 ≤ v ∧ v ≤ 32767) →
    ∀ y : GainSettings, y = { boost := max 0 (min 200 x.boost), cut := max 0 (min 300 x.cut), rise := max 1 (min 50 x.rise)
                              fall := max 1 (min 100 x.fall), fixed := max (-300) (min 200 x.fixed) } →
    ∀ c : Corrector, c = (s.prog p).gain → ∀ lim : Int → Int, (∀ v, lim v = max (-y.cut) (min y.boost v)) →
    Completes (.gainSet tag (byte1 p ++ gainModeCode mode :: gainSettingsRecord x)) s (if y = x then .ok else .adjusted)
      (gainModeCode mode :: gainSettingsRecord y) (fun t =>
        (t.prog p).gain.mode = mode ∧ (t.prog p).gain.settings = y
        ∧ (t.prog p).gain.g = (if mode = .track ∧ c.mode ≠ .track then lim c.applied else lim c.g)
        ∧ (t.prog p).gain.schedule = (if c.mode = .track ∧ mode ≠ .track then []
            else c.schedule.map (fun e => { e with value := lim e.value }))
        ∧ (t.prog p).gain.taken = (match mode with
            | .off => 0
            | .fixed => y.fixed
            | .track => if c.mode = .track then lim c.taken else lim c.applied)
        ∧ (t.prog p).gain.ramp = (if (t.prog p).gain.taken = c.applied ∨ (c.mode = .track ∧ lim c.taken = c.applied) then 0
            else c.ramp)
        ∧ (t.prog p).gain.applied = c.applied ∧ (t.prog p).gain.freeze = c.freeze ∧ (t.prog p).gain.clip = c.clip
        ∧ { t.prog p with gain := c } = s.prog p ∧ s.otherProgs p t ∧ s.sameBut [.progs, .port] t)

/-- The gain law (R133): the wanted gain and the step toward it, which moves G without passing it and within the limits. The
take of the schedule (R135): the newest due entry is taken, every due entry is removed, the others are skipped, and every entry left is due later. -/
def Obligations.GainLawAndScheduleTake : Prop :=
  (∀ (c : Corrector) (set : LoudSettings) (r : BlockResult), c.safe →
    wantedGain c.settings set r =
        max (min (max (-c.settings.cut) (min c.settings.boost (set.target - r.s))) (set.ceiling - r.pMax)) (-c.settings.cut)
    ∧ (∀ g gd : Int,
        (g < gd → stepToward c.settings g gd = min gd (g + c.settings.rise))
        ∧ (gd < g → stepToward c.settings g gd = max gd (g - c.settings.fall))
        ∧ stepToward c.settings g g = g)
    ∧ -c.settings.cut ≤ wantedGain c.settings set r ∧ wantedGain c.settings set r ≤ c.settings.boost
    ∧ (set.ceiling - r.pMax ≥ -c.settings.cut → wantedGain c.settings set r ≤ set.ceiling - r.pMax)
    ∧ -c.settings.cut ≤ stepToward c.settings c.g (wantedGain c.settings set r)
    ∧ stepToward c.settings c.g (wantedGain c.settings set r) ≤ c.settings.boost
    ∧ stepToward c.settings c.g (wantedGain c.settings set r) ≤ c.g + c.settings.rise
    ∧ c.g - c.settings.fall ≤ stepToward c.settings c.g (wantedGain c.settings set r)
    ∧ min c.g (wantedGain c.settings set r) ≤ stepToward c.settings c.g (wantedGain c.settings set r)
    ∧ stepToward c.settings c.g (wantedGain c.settings set r) ≤ max c.g (wantedGain c.settings set r))
  ∧ (∀ (c : Corrector) (rp : Int) (pre post : List ScheduleEntry), c.mode = .track → c.schedule = pre ++ post →
    (∀ e ∈ pre, e.due ≤ rp) → (∀ e ∈ post, rp < e.due) →
    (c.takeDue rp).1.schedule = post
    ∧ (c.takeDue rp).1.taken = (pre.getLast?.map ScheduleEntry.value).getD c.taken
    ∧ (c.takeDue rp).1.applied = c.applied ∧ (c.takeDue rp).2 = pre.length - 1)

/-- APPLIED_GAIN_STEP (R137): with the move unit's share already taken and no entry due, a ramp count that reaches 48 moves
the applied gain one tenth toward the taken value. That the row is one corrector's share of the house sample now due is the
model's (log entry 4), and that it does nothing when no step of the applied gain is due (log entry 5). -/
def Obligations.AppliedGainStepMovesOneTenth : Prop :=
  ∀ (s : State) (p : Fin 8) (h : Held) (w : Nat), s.sampleDue = true → (s.prog p).life = .live h w →
    s.ahead.contains (.clear p) = false → s.ahead.contains (.gain p) = false →
    (s.ahead.contains (.move p) = true ∨ (s.prog p).move.state = .still) →
    ((s.prog p).gain.mode = .track → ∀ e ∈ (s.prog p).gain.schedule, (w : Int) - (s.prog p).move.dcur < e.due) →
    ((s.prog p).gain.applied ≠ (s.prog p).gain.taken → 47 ≤ (s.prog p).gain.ramp →
      ∃ t, exec (.appliedGainStep p) s = .next t
        ∧ t.prog p = { s.prog p with gain := { (s.prog p).gain with
            ramp := 0
            applied := if (s.prog p).gain.applied < (s.prog p).gain.taken then (s.prog p).gain.applied + 1
              else (s.prog p).gain.applied - 1 } }
        ∧ s.otherProgs p t ∧ s.sameBut [.progs, .ahead] t)
    ∧ (((s.prog p).gain.applied = (s.prog p).gain.taken ∨ (s.prog p).gain.ramp < 47) →
      exec (.appliedGainStep p) s = .next s)

/-- The gain factor is the rounded power (R138). The output multiply (R138, R139) is the exact product, rounded: at gain 0
without a fade the sample passes unchanged; a result outside 24 bits is the limit of the range and counts as clipped; a gain of 0 or below never clips. -/
def Obligations.GainFactorAndOutputMultiply : Prop :=
  (∀ a : Int, -300 ≤ a → a ≤ 200 → (gainFactor a : ℤ) = round ((10 : ℝ) ^ ((a : ℝ) / 200) * 2 ^ 24))
  ∧ (∀ (x : Sample) (g k f : Nat), 0 < f → ∀ n d : Int, n = x.toInt * g * k → d = 16777216 * f →
    multiplied x g (k, f) = if 0 ≤ n then (2 * n + d) / (2 * d) else -((2 * (-n) + d) / (2 * d)))
  ∧ (∀ (x : Slot) (g : Nat) (k f : Nat), 0 < f → k ≤ f →
    outputSlot x 16777216 (1, 1) = x
    ∧ (outputSlot x g (k, f)).valid = x.valid
    ∧ (8388607 < multiplied x.sample g (k, f) → (outputSlot x g (k, f)).sample.toInt = 8388607 ∧ clips x g (k, f) = true)
    ∧ (multiplied x.sample g (k, f) < -8388608 → (outputSlot x g (k, f)).sample.toInt = -8388608 ∧ clips x g (k, f) = true)
    ∧ (-8388608 ≤ multiplied x.sample g (k, f) → multiplied x.sample g (k, f) ≤ 8388607 →
        (outputSlot x g (k, f)).sample.toInt = multiplied x.sample g (k, f) ∧ clips x g (k, f) = false)
    ∧ (g ≤ 16777216 → clips x g (k, f) = false))


/-! ### Alarm sources, service and contacts -/

/-- ALM.SET (R156, R157, R166): its checks, the clamps, and the running timer tested against the new times. -/
def Obligations.AlmSetStoresAndTestsTheTimer : Prop :=
  (∀ (s : State) (tag : Byte), s.ready →
    (∀ body : List Byte, body.length ≠ 7 → RefusedWith (.almSet tag body) s .malformed)
    ∧ ∀ n prio m r1 r0 c1 c0 : Byte,
      (1 < m.toNat → RefusedWith (.almSet tag [n, prio, m, r1, r0, c1, c0]) s .malformed)
      ∧ (m.toNat ≤ 1 → 59 ≤ n.toNat → RefusedWith (.almSet tag [n, prio, m, r1, r0, c1, c0]) s .range))
  ∧ ∀ (s : State) (tag prio : Byte) (n : Fin 59) (masked : Bool) (rt ct : Nat), s.ready → rt < 65536 → ct < 65536 →
    ((s.source n).accepted = true → min prio.toNat 7 ≠ (s.source n).priority →
      RefusedWith (.almSet tag (byte1 n ++ prio :: flagByte masked ++ byte2 rt ++ byte2 ct)) s .inUse)
    ∧ (((s.source n).accepted = false ∨ min prio.toNat 7 = (s.source n).priority) →
      ∀ x : Source, x = { s.source n with priority := min prio.toNat 7, masked := masked
                                          raiseTime := if sourceIsLevel n then min rt 6000 else 0
                                          clearTime := if sourceIsLevel n then min ct 6000 else 0 } →
      ∀ y : Source, y = (if sourceIsLevel n = true ∧ x.condition = true ∧ x.qualified = false ∧ x.raiseTime ≤ x.timer then
            { x with qualified := true, timer := 0, pending := x.pending || !x.accepted
                     raiseCount := satInc 255 x.raiseCount, lastRaise := some s.ref.hsc }
          else if sourceIsLevel n = true ∧ x.condition = false ∧ x.qualified = true ∧ x.clearTime ≤ x.timer then
            { x with qualified := false, timer := 0, pending := false }
          else x) →
      Completes (.almSet tag (byte1 n ++ prio :: flagByte masked ++ byte2 rt ++ byte2 ct)) s
        (if prio.toNat ≤ 7 ∧ x.raiseTime = rt ∧ x.clearTime = ct then .ok else .adjusted) (sourceRecord n y) (fun t =>
          t.source n = y ∧ t.attn = anyEligible t.sources t.threshold
          ∧ s.raisesCounted (if x.qualified = false ∧ y.qualified = true then 1 else 0) t
          ∧ s.otherSources [n] t ∧ s.otherCounters [] t ∧ s.sameBut (.port :: eventParts) t))

/-- ALM.NEXT, ALM.LOOK, ALM.CLOSE and ALM.LEVEL (R158, R159, R161 to R164). -/
def Obligations.AlarmServicePicksAcceptsAndCloses : Prop :=
  ∀ (s : State) (tag : Byte), s.ready →
    ∀ el : Fin 59 → Prop, (∀ n, el n ↔ ((s.source n).pending = true ∧ (s.source n).masked = false
        ∧ (∀ m, (s.source m).accepted = true → (s.source n).priority < (s.source m).priority)
        ∧ (s.source n).priority < 8 ∧ (s.source n).priority ≤ s.threshold)) →
    (∀ n, el n → (∀ m, el m → (s.source n).priority < (s.source m).priority
        ∨ ((s.source n).priority = (s.source m).priority ∧ n ≤ m)) →
      Completes (.almNext tag []) s .ok (sourceRecord n { s.source n with pending := false, accepted := true }) (fun t =>
        t.source n = { s.source n with pending := false, accepted := true } ∧ (∀ m, m ≠ n → t.source m = s.source m)
        ∧ acceptLevel t.sources = (s.source n).priority ∧ t.attn = anyEligible t.sources t.threshold
        ∧ s.sameBut [.sources, .attn, .contacts, .port] t)
      ∧ exec (.almLook tag []) s = .next (s.answered ⟨tag, 0x62, []⟩ .ok (sourceRecord n (s.source n))))
    ∧ ((∀ n, ¬ el n) →
      exec (.almNext tag []) s = .next (s.answered ⟨tag, 0x61, []⟩ .empty [])
      ∧ exec (.almLook tag []) s = .next (s.answered ⟨tag, 0x62, []⟩ .empty []))
    ∧ (∀ (b : Byte) (n : Fin 59), (s.source n).accepted = true →
      (b = BitVec.ofNat 8 n.val ∨ (b = 0xFF ∧ ∀ m, (s.source m).accepted = true → m ≠ n →
        (s.source n).priority < (s.source m).priority)) →
      ∀ y : Source, y = { s.source n with
        accepted := false, pending := (sourceIsLevel n && (s.source n).qualified) || (s.source n).again, again := false } →
      Completes (.almClose tag [b]) s .ok (sourceRecord n y) (fun t =>
        t.source n = y ∧ (∀ m, m ≠ n → t.source m = s.source m) ∧ t.attn = anyEligible t.sources t.threshold
        ∧ s.sameBut [.sources, .attn, .contacts, .port] t))
    ∧ (∀ n : Fin 59, (s.source n).accepted = false → RefusedWith (.almClose tag (byte1 n)) s .state)
    ∧ ((∀ n, (s.source n).accepted = false) → RefusedWith (.almClose tag [0xFF]) s .state)
    ∧ (∀ b : Byte, 59 ≤ b.toNat → b ≠ 0xFF → RefusedWith (.almClose tag [b]) s .range)
    ∧ (∀ mk ∈ [Instr.almNext, Instr.almLook], ∀ b bs, RefusedWith (mk tag (b :: bs)) s .malformed)
    ∧ (∀ mk ∈ [Instr.almClose, Instr.almLevel], ∀ body : List Byte, body.length ≠ 1 → RefusedWith (mk tag body) s .malformed)
    ∧ ∀ v : Byte, Completes (.almLevel tag [v]) s (if v.toNat ≤ 7 then .ok else .adjusted)
        (byte1 (min v.toNat 7) ++ byte1 (acceptLevel s.sources)) (fun t =>
        t.threshold = min v.toNat 7 ∧ t.attn = anyEligible s.sources (min v.toNat 7)
        ∧ s.sameBut [.threshold, .attn, .contacts, .port] t)

/-- SOURCE_QUALIFIES and SOURCE_LOSES_QUALIFICATION (R148 to R151, R153). That the rows are one source's share of the block
end now due, taken before a report of that block end, that they count or leave a timer that does not run out, and that neither
row does what the other names, is the model's (log entries 4, 5, 30). -/
def Obligations.TimersQualifyAndLoseQualification : Prop :=
  ∀ (s : State) (n : Fin 59), s.blockEndDue = true → s.ahead.contains (.source n) = false → sourceIsLevel n = true →
    ((s.source n).condition = true → (s.source n).qualified = false → (s.source n).raiseTime ≤ (s.source n).timer + 1 →
      ∃ t, exec (.sourceQualifies n) s = .next t
        ∧ t.source n = { s.source n with qualified := true, timer := 0
                                         pending := (s.source n).pending || !(s.source n).accepted
                                         raiseCount := satInc 255 (s.source n).raiseCount, lastRaise := some s.ref.hsc }
        ∧ t.attn = anyEligible t.sources t.threshold
        ∧ t.ahead = .source n :: s.ahead ∧ s.raisesCounted 1 t
        ∧ s.otherSources [n] t ∧ s.otherCounters [] t ∧ s.sameBut (.ahead :: eventParts) t
        ∧ exec (.sourceLosesQualification n) s = .next s)
    ∧ ((s.source n).condition = false → (s.source n).qualified = true → (s.source n).clearTime ≤ (s.source n).timer + 1 →
      ∃ t, exec (.sourceLosesQualification n) s = .next t
        ∧ t.source n = { s.source n with qualified := false, timer := 0, pending := false }
        ∧ t.attn = anyEligible t.sources t.threshold
        ∧ t.ahead = .source n :: s.ahead
        ∧ (∀ m, m ≠ n → t.source m = s.source m) ∧ s.sameBut [.sources, .attn, .contacts, .ahead] t
        ∧ exec (.sourceQualifies n) s = .next s)
    ∧ ∀ c ∈ [Instr.sourceQualifies n, .sourceLosesQualification n],
      ((s.source n).condition = (s.source n).qualified → exec c s = .next { s with ahead := .source n :: s.ahead })
      ∧ ((s.source n).condition ≠ (s.source n).qualified →
          (s.source n).timer + 1 < (if (s.source n).condition then (s.source n).raiseTime else (s.source n).clearTime) →
          ∃ t, exec c s = .next t ∧ t.source n = { s.source n with timer := (s.source n).timer + 1 }
            ∧ t.attn = anyEligible t.sources t.threshold ∧ t.ahead = .source n :: s.ahead
            ∧ (∀ m, m ≠ n → t.source m = s.source m) ∧ s.sameBut [.sources, .attn, .contacts, .ahead] t)

/-- CONTACT.SET and its checks (R171), and CONTACT_RELEASE (R170). That the row is one contact's share of the block end now due is the model's
(log entry 4), and that it does nothing short of the minimum on-time (log entry 5). At a BLOCK_END an asserted contact counts one
block, and a contact without demand at its end is released at the minimum on-time (R170); where a demand comes at the block end
itself, that the count is stepped before it comes is the model's order (log entry 11), and so is nothing said of a demand that
passes from one source to another there. -/
def Obligations.ContactsAssertAndRelease : Prop :=
  (∀ (s : State) (tag : Byte), s.ready →
    (∀ body : List Byte, body.length ≠ 4 → RefusedWith (.contactSet tag body) s .malformed)
    ∧ ∀ c ceil m1 m0 : Byte,
      (8 ≤ ceil.toNat → ceil ≠ 0xFF → RefusedWith (.contactSet tag [c, ceil, m1, m0]) s .malformed)
      ∧ (ceil.toNat ≤ 7 ∨ ceil = 0xFF → 4 ≤ c.toNat → RefusedWith (.contactSet tag [c, ceil, m1, m0]) s .range))
  ∧ ∀ (s : State) (c : Fin 4),
    (∀ (tag : Byte) (ceil : Option (Fin 8)) (m : Nat), s.ready → m < 65536 →
      ∀ d : Bool, d = demand s.sources (ceil.map Fin.val) →
      ∀ y : Contact, y = (match ceil with
        | none => { ceiling := none, minOn := min m 100, asserted := false, onTime := 0 }
        | some k => { ceiling := some k.val, minOn := min m 100
                      asserted := d || ((s.contact c).asserted && decide ((s.contact c).onTime < min m 100))
                      onTime := if (s.contact c).asserted = true ∧ (d = true ∨ (s.contact c).onTime < min m 100) then
                          (s.contact c).onTime
                        else if (s.contact c).asserted = true ∨ d = true then 0 else (s.contact c).onTime }) →
      Completes (.contactSet tag (byte1 c ++ ceilingCode (ceil.map Fin.val) :: byte2 m)) s
        (if m ≤ 100 then .ok else .adjusted) (contactRecord c y) (fun t =>
        t.contact c = y ∧ (∀ k, k ≠ c → t.contact k = s.contact k) ∧ s.sameBut [.contacts, .port] t))
    ∧ (s.blockEndDue = true → s.ahead.contains (.contact c) = false → (s.contact c).asserted = true →
      demand s.sources (s.contact c).ceiling = false →
      ((s.contact c).minOn ≤ min 100 ((s.contact c).onTime + 1) →
        ∃ t, exec (.contactRelease c) s = .next t
          ∧ t.contact c = { s.contact c with asserted := false, onTime := 0 }
          ∧ (∀ k, k ≠ c → t.contact k = s.contact k) ∧ s.sameBut [.contacts, .ahead] t)
      ∧ ((s.contact c).onTime ≤ 100 → min 100 ((s.contact c).onTime + 1) < (s.contact c).minOn →
        exec (.contactRelease c) s = .next s))
    ∧ (∀ (t : State) (calls : State → Fin 59 → Prop) (before after : Prop) (k : Nat), s.blockEndDue = true →
      exec .blockEnd s = .next t → s.ahead.contains (.contact c) = false → k = min 100 ((s.contact c).onTime + 1) →
      (∀ u n, calls u n ↔ ∃ lim, (s.contact c).ceiling = some lim ∧ (u.source n).priority ≤ lim ∧ (u.source n).masked = false
        ∧ ((u.source n).pending = true ∨ (u.source n).accepted = true)) →
      (before ↔ ∃ n, calls s n) → (after ↔ ∃ n, calls t n) →
      ((s.contact c).asserted = true →
        (¬ after → t.contact c = if (s.contact c).minOn ≤ k then { s.contact c with asserted := false, onTime := 0 }
            else { s.contact c with onTime := k })
        ∧ ((∃ n, calls s n ∧ calls t n) → t.contact c = { s.contact c with onTime := k })
        ∧ (¬ before → after → t.contact c = { s.contact c with onTime := if (s.contact c).minOn ≤ k then 0 else k }))
      ∧ ((s.contact c).asserted = false → ¬ before →
        (¬ after → t.contact c = s.contact c) ∧ (after → t.contact c = { s.contact c with asserted := true, onTime := 0 })))

/-- Every step keeps the sources' law, by which no source is both pending and accepted and no two accepted sources share a
priority (R158), and the outputs' law, by which ATTN and the contacts follow the sources (R159, R169, R170). -/
def Obligations.StepsKeepTheAlarmLaws : Prop :=
  ∀ s t : State, step s = .next t → (s.sourcesSafe → t.sourcesSafe) ∧ (s.outputsSafe → t.outputsSafe)

/-! ### Statistics counters -/

/-- COUNT.SET, COUNT.READ and COUNT.CLEAR, and their checks (R177 to R179). -/
def Obligations.CounterRequestsActOnTheCounter : Prop :=
  ∀ (s : State) (tag : Byte) (c : Fin 8), s.ready →
    (∀ (ev : Option CountEvent) (q : BitVec 8) (mode : CountMode) (clr alarm : Bool),
      ((q = 0 ∨ ∃ e, ev = some e ∧ e.ownerless = false) →
        ∀ x : Counter, x = { event := ev, qualifier := q, mode := mode, clearOnRead := clr, alarmEnable := alarm, value := 0
                             half := false } →
        Completes (.countSet tag (byte1 c ++ [countEventCode ev, q, countModeCode mode] ++ flagByte clr ++ flagByte alarm)) s
          .ok (counterRecord c x) (fun t =>
          t.counter c = x ∧ (∀ k, k ≠ c → t.counter k = s.counter k) ∧ s.sameBut [.counters, .port] t)))
    ∧ (∀ body : List Byte, body.length ≠ 6 → RefusedWith (.countSet tag body) s .malformed)
    ∧ (∀ a e q m clr al : Byte,
      ((16 < e.toNat ∨ 1 < m.toNat ∨ 1 < clr.toNat ∨ 1 < al.toNat) →
        RefusedWith (.countSet tag [a, e, q, m, clr, al]) s .malformed)
      ∧ (m.toNat ≤ 1 → clr.toNat ≤ 1 → al.toNat ≤ 1 → 8 ≤ a.toNat →
          ∀ ev : Option CountEvent, e = countEventCode ev → (q = 0 ∨ ∃ x, ev = some x ∧ x.ownerless = false) →
          RefusedWith (.countSet tag [a, e, q, m, clr, al]) s .range)
      ∧ (m.toNat ≤ 1 → clr.toNat ≤ 1 → al.toNat ≤ 1 → q ≠ 0 →
          ∀ ev : Option CountEvent, e = countEventCode ev → (ev = none ∨ ∃ x, ev = some x ∧ x.ownerless = true) →
          RefusedWith (.countSet tag [a, e, q, m, clr, al]) s .malformed))
    ∧ (∀ body : List Byte, body.length ≠ 1 → RefusedWith (.countRead tag body) s .malformed)
    ∧ (∀ b : Byte, 8 ≤ b.toNat → RefusedWith (.countRead tag [b]) s .range)
    ∧ Completes (.countRead tag (byte1 c)) s .ok (counterRecord c (s.counter c)) (fun t =>
        t.counter c = (if (s.counter c).clearOnRead then { s.counter c with value := 0, half := false } else s.counter c)
        ∧ (∀ k, k ≠ c → t.counter k = s.counter k) ∧ s.sameBut [.counters, .port] t)
    ∧ Completes (.countClear tag (byte1 c)) s .ok [] (fun t =>
        t.counter c = { s.counter c with value := 0, half := false }
        ∧ (∀ k, k ≠ c → t.counter k = s.counter k) ∧ s.sameBut [.counters, .port] t)
    ∧ Completes (.countClear tag [0xFF]) s .ok [] (fun t =>
        (∀ k, t.counter k = { s.counter k with value := 0, half := false }) ∧ s.sameBut [.counters, .port] t)
    ∧ (∀ b : Byte, 8 ≤ b.toNat → b ≠ 0xFF → RefusedWith (.countClear tag [b]) s .range)
    ∧ ∀ body : List Byte, body.length ≠ 1 → RefusedWith (.countClear tag body) s .malformed

/-- A counting event (R175, R176): which counters match, what the addition does, the half flag, and when source 56 is raised.
At every raise, which is a latched event, the qualification of a level source, or the COUNTER raise that a crossing causes, each
counter of ALARM_RAISE is offered exactly one event (R153, R176). -/
def Obligations.CountingEventsReachTheCounters : Prop :=
  ∀ (s : State) (e : CountEvent) (owner : Option (Fin 8)) (amount : Nat), amount ≤ 38400 →
    (∀ c, (s.counter c).event ≠ some .alarmRaise → ∀ hit : Prop, (hit ↔ ((s.counter c).event = some e
        ∧ ((s.counter c).qualifier = 0 ∨ ∃ k, owner = some k ∧ (s.counter c).qualifier.getLsbD k = true))) →
      (¬ hit → (s.count e owner amount).counter c = s.counter c)
      ∧ (hit → ((s.count e owner amount).counter c).value.toNat =
            (match (s.counter c).mode with
              | .wrap => ((s.counter c).value.toNat + amount) % 2 ^ 32
              | .saturate => min ((s.counter c).value.toNat + amount) (2 ^ 32 - 1))
          ∧ (((s.count e owner amount).counter c).half = true ↔
              ((s.counter c).half = true ∨ ((s.counter c).value.toNat < 2 ^ 31 ∧ 2 ^ 31 ≤ (s.counter c).value.toNat + amount)))))
    ∧ ((∀ c, Counter.alarms e owner amount (s.counter c) = false) → s.count e owner amount = s.offerEvent e owner amount)
    ∧ ((∃ c, Counter.alarms e owner amount (s.counter c) = true) →
        ((s.count e owner amount).source counterSource).lastRaise = some s.ref.hsc
        ∧ ((s.source counterSource).accepted = false → ((s.count e owner amount).source counterSource).pending = true)
        ∧ ((s.source counterSource).accepted = true → ((s.count e owner amount).source counterSource).again = true))
    ∧ s.otherSources [] (s.count e owner amount) ∧ s.sameBut eventParts (s.count e owner amount)
    ∧ s.crossingsLatched (s.count e owner amount)
    ∧ (e ≠ .alarmRaise → s.raisesCounted 0 (s.count e owner amount))
    ∧ s.raisesCounted 1 (s.count .alarmRaise none 1)
    ∧ s.raisesCounted 1 (s.latch counterSource)
    ∧ s.latchedIn counterSource (1 + s.crossings (s.latch counterSource)) s.ref.hsc (s.latch counterSource)
    ∧ ∀ n, n ≠ counterSource →
      (s.raisesCounted 1 (s.latch n) ∧ s.latchedIn n 1 s.ref.hsc (s.latch n) ∧ s.crossingsLatched (s.latch n))
      ∧ ∀ (v : Bool) (x : Source) (t : State), t ∈ [s.report n v, s.timerStep n, s.storeSettings n x] →
        x.qualified = (s.source n).qualified →
        s.raisesCounted (if (s.source n).qualified = false ∧ (t.source n).qualified = true then 1 else 0) t
        ∧ s.crossingsLatched t ∧ s.otherCounters [] t

/-! ### House time -/

/-- HOUSE_SAMPLE (R43, R44, R52, R53, R55, R57, R63, R88 to R90, R93, R106, R108, R135, R137 to R139): the clock, the sampled levels, the write index, what
every lane puts out, the output stage, and every word of delay memory but those written or cleared. A lane of no programme
passes through, a lane of a CLEARING programme is silent, and a lane of a LIVE programme puts out the word at its tap,
multiplied at the applied gain and the fade that this house sample leaves. A LIVE programme's move unit takes its step, its
corrector the due entries and the ramp at W less the D_cur of that step, and its meter the words written, unless its group takes
a cue (CueFireTakesTheCue); no other programme does. A block end that falls first is taken first. A
programme whose pages do not lie within memory stops the part, which no run reaches (log entry 9); of a unit's share taken
ahead, log entry 4. -/
def Obligations.HouseSampleAdvancesThePart : Prop :=
  ∀ (s : State) (frm c0 c1 : Bool), s.startUp = false →
    (s.extentOutside? = none → ∃ t, exec (.houseSample frm c0 c1) s = .next t
      ∧ t.ref.started = true
      ∧ t.ref.hsc = (if s.ref.started then s.ref.hsc + 1 else s.ref.hsc)
      ∧ t.ref.phase = (if s.ref.started = false then s.ref.phase else if s.ref.phase = 4799 then 0 else s.ref.phase + 1)
      ∧ t.ref.blockNo = (if s.blockEndDue then s.ref.blockNo + 1 else s.ref.blockNo)
      ∧ t.ref.frmPrev = frm ∧ t.ref.cue0Prev = c0 ∧ t.ref.cue1Prev = c1
      ∧ (∀ p h w, (s.prog p).life = .live h w → s.ahead.contains (.clear p) = false →
          (t.prog p).life = .live h ((w + 1) % 2 ^ 48))
      ∧ (∀ p, (s.prog p).life = .closed → (t.prog p).life = .closed)
      ∧ (∀ p, { t.prog p with life := (s.prog p).life, move := (s.prog p).move, meter := (s.prog p).meter
                              gain := (s.prog p).gain } = s.prog p)
      ∧ (∀ p h left k, (s.prog p).life = .clearing h left k → k < 5 → s.ahead.contains (.clear p) = false →
          (t.prog p).life = .clearing h left (k + 1))
      ∧ (∀ p h left k, (s.prog p).life = .clearing h left k → 5 ≤ k → s.ahead.contains (.clear p) = false →
          (t.prog p).life = (if left ≤ 1 then .live h 0 else .clearing h (left - 1) 0)
          ∧ ∀ a, a / 512 = h.extent.start + (h.extent.len - left) → readWord t.mem a = ⟨0, false⟩)
      ∧ (∀ p, s.ahead.contains (.clear p) = true → (t.prog p).life = (s.prog p).life)
      ∧ (∀ a,
          (∀ p h w k, (s.prog p).life = .live h w → k < h.lanes.length → a ≠ ringAddr h k (w % h.rl)) →
          (∀ p h left k, (s.prog p).life = .clearing h left k → 5 ≤ k → s.ahead.contains (.clear p) = false →
            a / 512 ≠ h.extent.start + (h.extent.len - left)) →
          readWord t.mem a = readWord s.mem a)
      ∧ (s.outPipe ≠ [] → ∃ lanes, t.outPipe = s.outPipe.drop 1 ++ [lanes])
      ∧ (s.outPipe ≠ [] → ∀ (o : Fin 4) (k : Fin 8), t.outLinks[o][k] =
          (s.outPipe.headD (Vector.replicate 32 Slot.silent))[o.val * 8 + k.val])
      ∧ (s.blockEndDue = false → ∀ (n : Fin 32) (last : Vector Slot 32), t.outPipe.getLast? = some last →
          ((∀ p, hasLane (s.prog p).life.lanes n = false) → last[n] = s.laneWord n)
          ∧ (s.lanesSafe → ∀ p h left k, (s.prog p).life = .clearing h left k → hasLane h.lanes n = true → last[n] = ⟨0, false⟩)
          ∧ (s.lanesSafe → s.pagesSafe → s.memSafe → s.ahead = [] → ∀ p h w k (hk : k < h.lanes.length),
              (s.prog p).life = .live h w → h.lanes[k].lane = n → ∀ u, u = ((s.steppedAt t.ref.hsc p).prog p).move → last[n] =
            (match s.route n with
              | .unrouted => ⟨0, false⟩
              | .pair l _ =>
                match (s.link l).conv.read.sounding, (s.link l).conv.cl with
                | true, some cl =>
                  outputSlot (readWord t.mem (ringAddr h k (((w : Int) - (u.dcur + 51 - cl : Nat)) % h.rl).toNat))
                    (gainFactor (t.prog p).gain.applied) u.fade
                | true, none => ⟨0, false⟩
                | false, _ => ⟨0, false⟩)))
      ∧ (s.blockEndDue = false → ∀ (p : Fin 8) (u : MoveUnit) (uncued : Prop), u = ((s.steppedAt t.ref.hsc p).prog p).move →
          (uncued ↔ ∀ g, (s.prog p).group = some g → (t.group g).cueCount = (s.group g).cueCount) →
          ((s.prog p).life = .closed → t.prog p = s.prog p)
          ∧ t.source (moveSource p) = (s.steppedAt t.ref.hsc p).source (moveSource p)
          ∧ (uncued → (t.prog p).move = u ∧ { (t.prog p).meter with lanes := (s.prog p).meter.lanes } = (s.prog p).meter)
          ∧ (s.liveIndex? p = none → (t.prog p).gain = (s.prog p).gain ∧ (t.prog p).meter.lanes = (s.prog p).meter.lanes)
          ∧ ∀ h w, (s.prog p).life = .live h w → s.ahead.contains (.clear p) = false →
            (t.prog p).meter.lanes =
              List.zipWith (fun lw m => LaneMeter.take (s.laneWord lw.lane).sample m) h.lanes (s.prog p).meter.lanes
            ∧ (s.ahead.contains (.gain p) = true → { (t.prog p).gain with clip := (s.prog p).gain.clip } = (s.prog p).gain)
            ∧ (s.ahead.contains (.gain p) = false → ∀ x, x = ((s.prog p).gain.takeDue ((w : Int) - u.dcur)).1 →
              { (t.prog p).gain with clip := x.clip } = { x with
                ramp := if x.applied = x.taken ∨ 47 ≤ x.ramp then 0 else x.ramp + 1
                applied := if x.applied = x.taken ∨ x.ramp < 47 then x.applied
                  else if x.applied < x.taken then x.applied + 1 else x.applied - 1 })
            ∧ (s.lanesSafe → s.pagesSafe → s.memSafe → s.ahead = [] → (t.prog p).gain.clip = (s.prog p).gain.clip +
              h.lanes.zipIdx.countP (fun y =>
                match s.route y.1.lane with
                | .unrouted => false
                | .pair l _ =>
                  match (s.link l).conv.read.sounding, (s.link l).conv.cl with
                  | true, some cl =>
                    clips (readWord t.mem (ringAddr h y.2 (((w : Int) - (u.dcur + 51 - cl : Nat)) % h.rl).toNat))
                      (gainFactor (t.prog p).gain.applied) u.fade
                  | true, none => false
                  | false, _ => false)))
      ∧ (s.blockEndDue = false → s.ahead = [] → ∀ skips : Fin 8 → Nat, (∀ p, (s.prog p).life.isLive = false → skips p = 0) →
          (∀ p h w, (s.prog p).life = .live h w → skips p =
            ((s.prog p).gain.takeDue ((w : Int) - ((s.steppedAt t.ref.hsc p).prog p).move.dcur)).2) →
          ∀ c, (s.counter c).event = some .gainSkipped → t.counter c =
            (List.finRange 8).foldl (fun x p => Nat.repeat (Counter.offer .gainSkipped (some p) 1) (skips p) x) (s.counter c))
      ∧ (∀ (x : Sample) (m : LaneMeter), (LaneMeter.take x m).blockMax = max m.blockMax x.toInt.natAbs
          ∧ (LaneMeter.take x m).peakHold = m.peakHold)
      ∧ s.sameBut (.links :: .feeds :: .progs :: .mem :: .outPipe :: .outLinks :: .ref :: .groups :: .snaps :: .ahead
          :: eventParts) t)
    ∧ (s.blockEndDue = true → ∀ u, exec .blockEnd s = .next u → exec (.houseSample frm c0 c1) s = exec (.houseSample frm c0 c1) u)
    ∧ ∀ p, s.extentOutside? = some p → exec (.houseSample frm c0 c1) s = .fault (.extentOutsideMemory p)

/-- BLOCK_END (R8, R11, R18, R33 to R36, R54, R89, R109, R110, R117 to R119, R132 to R134, R139, R148, R151, R173): when the
block end is due it reaches every block; otherwise nothing happens. At a block result the conditions and OVERLOAD are sent, and
a corrector in TRACK runs the gain law and appends its entry, or takes it at once when it is late. A level source that has
taken the block end ahead, which is its timer step (TimersQualifyAndLoseQualification), gets its owner's report behind that
step, and every other one before it (R151); that the rows taken ahead choose the order is the model's (log entry 30). What a
block result is stands in BlockResultsMeasureTheBlock, the feeding sets begun again in RouteSetReplacesOneRoute, a wait that
times out in CueTimeoutEndsTheWait, and the contacts in ContactsAssertAndRelease. -/
def Obligations.BlockEndReachesEveryBlock : Prop :=
  ∀ s : State,
    (s.blockEndDue = false → exec .blockEnd s = .next s)
    ∧ (s.blockEndDue = true → ∃ t, exec .blockEnd s = .next t
      ∧ t.ref = { s.ref with blockNo := s.ref.blockNo + 1, blockEndTaken := true }
      ∧ (∀ l j, j = (s.link l).conv.judgeWindow (s.link l).rx.arrivalCount →
          (t.link l).rx = { (s.link l).rx with
            arrivalCount := 0
            lastAccepted := if (s.link l).rx.arrivalCount = 0 then none else (s.link l).rx.lastAccepted }
          ∧ (t.link l).conv = { j.conv with notLocked := !j.conv.state.isLocked }
          ∧ (t.source (lockSource l)).condition = ((s.link l).rx.enable && !j.conv.state.isLocked)
          ∧ (j.slip = true → s.latchedIn (slipSource l) 1 s.ref.hsc t)
          ∧ (j.slip = false → t.source (slipSource l) = s.source (slipSource l)))
      ∧ (∀ c, (s.counter c).event = some .lockLoss → t.counter c =
          ((List.finRange 8).filter (fun l => ((s.link l).conv.judgeWindow (s.link l).rx.arrivalCount).lockLoss)).foldl
            (fun x l => Counter.offer .lockLoss (some l) 1 x) (s.counter c))
      ∧ (∀ c, (s.counter c).event = some .slip → t.counter c =
          ((List.finRange 8).filter (fun l => ((s.link l).conv.judgeWindow (s.link l).rx.arrivalCount).slip)).foldl
            (fun x l => Counter.offer .slip (some l) 1 x) (s.counter c))
      ∧ (∀ c, (s.counter c).event = some .fifoOcc → t.counter c =
          ((List.finRange 8).filter (fun l => !(s.link l).conv.state.isOff)).foldl
            (fun x l => Counter.offer .fifoOcc (some l) (s.link l).conv.fifo.length x) (s.counter c))
      ∧ (∀ c, (s.counter c).event = some .blocks → t.counter c = Counter.offer .blocks none 1 (s.counter c))
      ∧ (∀ c, (s.counter c).event = some .memOcc →
          t.counter c = Counter.offer .memOcc none (4096 - (s.freeList.map Extent.len).sum) (s.counter c))
      ∧ (∀ p, (s.prog p).life.isLive = false → (t.prog p).meter = (s.prog p).meter ∧ (t.prog p).gain = (s.prog p).gain)
      ∧ (∀ p h w, (s.prog p).life = .live h w → (s.prog p).meter.opening = true →
          (t.prog p).gain = { (s.prog p).gain with clip := 0 }
          ∧ (t.prog p).meter = { (s.prog p).meter with
            opening := false, lanes := (s.prog p).meter.lanes.map (fun x => { x with acc := ⟨0, 0⟩, blockMax := 0 }) })
      ∧ (∀ p, ((s.prog p).life.isLive = false ∨ (s.prog p).meter.opening = true) →
          t.source (overloadSource p) = s.source (overloadSource p)
          ∧ ∀ n ∈ [silenceSource p, loudHighSource p, loudLowSource p], (t.source n).condition = (s.source n).condition)
      ∧ (∀ p h w, (s.prog p).life = .live h w → (s.prog p).meter.opening = false →
          ∀ (m : Meter) (res : BlockResult) (set : LoudSettings) (x : Corrector) (g : Int),
            m = ((s.prog p).meter.result h.lanes (suspectBlock s.feeds s.marks h.lanes)).1 →
            res = ((s.prog p).meter.result h.lanes (suspectBlock s.feeds s.marks h.lanes)).2 →
            set = (s.prog p).meter.settings → x = { (s.prog p).gain with freeze := res.freeze, clip := 0 } →
            g = (if res.freeze = .none then stepToward x.settings x.g (wantedGain x.settings set res) else x.g) →
          (t.prog p).meter = m
          ∧ (x.mode ≠ .track → (t.prog p).gain = x)
          ∧ (x.mode = .track → 4800 ≤ (s.prog p).move.dcur →
              (t.prog p).gain = { x with g := g, schedule := x.schedule ++ [⟨(w : Int) - 4800, g⟩] })
          ∧ (x.mode = .track → (s.prog p).move.dcur < 4800 →
              (t.prog p).gain = { x with g := g, taken := g, ramp := if g = x.applied then 0 else x.ramp })
          ∧ (t.source (silenceSource p)).condition = decide (res.m < set.silence)
          ∧ (t.source (loudHighSource p)).condition = decide (res.freeze = .none ∧ set.target + set.upper < res.s)
          ∧ (t.source (loudLowSource p)).condition = decide (res.freeze = .none ∧ res.s < set.target - set.lower)
          ∧ ((∃ y ∈ res.peaks, set.ceiling ≤ y) → s.latchedIn (overloadSource p) 1 s.ref.hsc t)
          ∧ ((∀ y ∈ res.peaks, y < set.ceiling) → t.source (overloadSource p) = s.source (overloadSource p)))
      ∧ (∀ late frozen : Fin 8 → Bool,
          (∀ p, late p = true ↔ (s.prog p).life.isLive = true ∧ (s.prog p).meter.opening = false ∧ (s.prog p).gain.mode = .track
            ∧ (s.prog p).move.dcur < 4800) →
          (∀ p, frozen p = true ↔ ∃ h w, (s.prog p).life = .live h w ∧ (s.prog p).meter.opening = false
            ∧ (s.prog p).gain.mode = .track
            ∧ ((s.prog p).meter.result h.lanes (suspectBlock s.feeds s.marks h.lanes)).2.freeze ≠ .none) →
          ∀ c,
            ((s.counter c).event = some .gainLate → t.counter c =
              ((List.finRange 8).filter late).foldl (fun x p => Counter.offer .gainLate (some p) 1 x) (s.counter c))
            ∧ ((s.counter c).event = some .blockFrozen → t.counter c =
              ((List.finRange 8).filter frozen).foldl (fun x p => Counter.offer .blockFrozen (some p) 1 x) (s.counter c))
            ∧ ((s.counter c).event = some .clipped → t.counter c =
              ((List.finRange 8).filter (fun p => (s.prog p).life.isLive && (s.prog p).gain.clip != 0)).foldl
                (fun x p => Counter.offer .clipped (some p) (s.prog p).gain.clip x) (s.counter c)))
      ∧ (t.source frameRefSource).condition = (s.source frameRefSource).condition
      ∧ (∀ n v, sourceIsLevel n = true → v = (t.source n).condition → t.source n =
          if s.ahead.contains (.source n) then (s.source n).reported s.ref.hsc v
          else ((s.source n).reported s.ref.hsc v).stepped s.ref.hsc)
      ∧ (∀ p, ((s.prog p).move.state.isCueWait = false ∨ s.ahead.contains (.cueWait p) = true) →
          (t.prog p).move = (s.prog p).move)
      ∧ (∀ p g r k, (s.prog p).move.state = .cueWait r k → (s.prog p).group = some g → s.ahead.contains (.cueWait p) = false →
          k + 1 < (s.group g).timeout → (t.prog p).move = { (s.prog p).move with state := .cueWait r (k + 1) })
      ∧ (∀ p, t.prog p = { s.prog p with move := (t.prog p).move, meter := (t.prog p).meter, gain := (t.prog p).gain })
      ∧ s.otherCounters [.lockLoss, .slip, .fifoOcc, .blocks, .memOcc, .gainLate, .blockFrozen, .clipped, .moveDone,
          .reportLost] t
      ∧ t.ahead = s.ahead.filter Ahead.ofSample
      ∧ s.sameBut (.links :: .feeds :: .progs :: .ref :: .groups :: .ahead :: eventParts) t)

/-- The reset state is safe. -/
def Obligations.ResetStateIsSafe : Prop := State.reset.safe
end

