-- ==== Sys2Proof/Laws/State.lean ====
section
/-! SUPPORT. What each named update leaves alone, one lemma per field, and what it writes. -/

namespace Sys2Proof.Machine

variable (s : State)

/-! ### State.setLink -/

@[simp] theorem State.setLink_routes (l : Fin 8) (x : Link) : (s.setLink l x).routes = s.routes := rfl
@[simp] theorem State.setLink_feeds (l : Fin 8) (x : Link) : (s.setLink l x).feeds = s.feeds := rfl
@[simp] theorem State.setLink_progs (l : Fin 8) (x : Link) : (s.setLink l x).progs = s.progs := rfl
@[simp] theorem State.setLink_freeList (l : Fin 8) (x : Link) : (s.setLink l x).freeList = s.freeList := rfl
@[simp] theorem State.setLink_mem (l : Fin 8) (x : Link) : (s.setLink l x).mem = s.mem := rfl
@[simp] theorem State.setLink_outPipe (l : Fin 8) (x : Link) : (s.setLink l x).outPipe = s.outPipe := rfl
@[simp] theorem State.setLink_outLinks (l : Fin 8) (x : Link) : (s.setLink l x).outLinks = s.outLinks := rfl
@[simp] theorem State.setLink_ref (l : Fin 8) (x : Link) : (s.setLink l x).ref = s.ref := rfl
@[simp] theorem State.setLink_groups (l : Fin 8) (x : Link) : (s.setLink l x).groups = s.groups := rfl
@[simp] theorem State.setLink_snaps (l : Fin 8) (x : Link) : (s.setLink l x).snaps = s.snaps := rfl
@[simp] theorem State.setLink_sources (l : Fin 8) (x : Link) : (s.setLink l x).sources = s.sources := rfl
@[simp] theorem State.setLink_threshold (l : Fin 8) (x : Link) : (s.setLink l x).threshold = s.threshold := rfl
@[simp] theorem State.setLink_attn (l : Fin 8) (x : Link) : (s.setLink l x).attn = s.attn := rfl
@[simp] theorem State.setLink_contacts (l : Fin 8) (x : Link) : (s.setLink l x).contacts = s.contacts := rfl
@[simp] theorem State.setLink_counters (l : Fin 8) (x : Link) : (s.setLink l x).counters = s.counters := rfl
@[simp] theorem State.setLink_port (l : Fin 8) (x : Link) : (s.setLink l x).port = s.port := rfl
@[simp] theorem State.setLink_startUp (l : Fin 8) (x : Link) : (s.setLink l x).startUp = s.startUp := rfl
@[simp] theorem State.setLink_ahead (l : Fin 8) (x : Link) : (s.setLink l x).ahead = s.ahead := rfl
@[simp] theorem State.setLink_pending (l : Fin 8) (x : Link) : (s.setLink l x).pending = s.pending := rfl

/-! ### State.setRx -/

@[simp] theorem State.setRx_routes (l : Fin 8) (x : Receiver) : (s.setRx l x).routes = s.routes := rfl
@[simp] theorem State.setRx_feeds (l : Fin 8) (x : Receiver) : (s.setRx l x).feeds = s.feeds := rfl
@[simp] theorem State.setRx_progs (l : Fin 8) (x : Receiver) : (s.setRx l x).progs = s.progs := rfl
@[simp] theorem State.setRx_freeList (l : Fin 8) (x : Receiver) : (s.setRx l x).freeList = s.freeList := rfl
@[simp] theorem State.setRx_mem (l : Fin 8) (x : Receiver) : (s.setRx l x).mem = s.mem := rfl
@[simp] theorem State.setRx_outPipe (l : Fin 8) (x : Receiver) : (s.setRx l x).outPipe = s.outPipe := rfl
@[simp] theorem State.setRx_outLinks (l : Fin 8) (x : Receiver) : (s.setRx l x).outLinks = s.outLinks := rfl
@[simp] theorem State.setRx_ref (l : Fin 8) (x : Receiver) : (s.setRx l x).ref = s.ref := rfl
@[simp] theorem State.setRx_groups (l : Fin 8) (x : Receiver) : (s.setRx l x).groups = s.groups := rfl
@[simp] theorem State.setRx_snaps (l : Fin 8) (x : Receiver) : (s.setRx l x).snaps = s.snaps := rfl
@[simp] theorem State.setRx_sources (l : Fin 8) (x : Receiver) : (s.setRx l x).sources = s.sources := rfl
@[simp] theorem State.setRx_threshold (l : Fin 8) (x : Receiver) : (s.setRx l x).threshold = s.threshold := rfl
@[simp] theorem State.setRx_attn (l : Fin 8) (x : Receiver) : (s.setRx l x).attn = s.attn := rfl
@[simp] theorem State.setRx_contacts (l : Fin 8) (x : Receiver) : (s.setRx l x).contacts = s.contacts := rfl
@[simp] theorem State.setRx_counters (l : Fin 8) (x : Receiver) : (s.setRx l x).counters = s.counters := rfl
@[simp] theorem State.setRx_port (l : Fin 8) (x : Receiver) : (s.setRx l x).port = s.port := rfl
@[simp] theorem State.setRx_startUp (l : Fin 8) (x : Receiver) : (s.setRx l x).startUp = s.startUp := rfl
@[simp] theorem State.setRx_ahead (l : Fin 8) (x : Receiver) : (s.setRx l x).ahead = s.ahead := rfl
@[simp] theorem State.setRx_pending (l : Fin 8) (x : Receiver) : (s.setRx l x).pending = s.pending := rfl

/-! ### State.setConv -/

@[simp] theorem State.setConv_routes (l : Fin 8) (x : Converter) : (s.setConv l x).routes = s.routes := rfl
@[simp] theorem State.setConv_feeds (l : Fin 8) (x : Converter) : (s.setConv l x).feeds = s.feeds := rfl
@[simp] theorem State.setConv_progs (l : Fin 8) (x : Converter) : (s.setConv l x).progs = s.progs := rfl
@[simp] theorem State.setConv_freeList (l : Fin 8) (x : Converter) : (s.setConv l x).freeList = s.freeList := rfl
@[simp] theorem State.setConv_mem (l : Fin 8) (x : Converter) : (s.setConv l x).mem = s.mem := rfl
@[simp] theorem State.setConv_outPipe (l : Fin 8) (x : Converter) : (s.setConv l x).outPipe = s.outPipe := rfl
@[simp] theorem State.setConv_outLinks (l : Fin 8) (x : Converter) : (s.setConv l x).outLinks = s.outLinks := rfl
@[simp] theorem State.setConv_ref (l : Fin 8) (x : Converter) : (s.setConv l x).ref = s.ref := rfl
@[simp] theorem State.setConv_groups (l : Fin 8) (x : Converter) : (s.setConv l x).groups = s.groups := rfl
@[simp] theorem State.setConv_snaps (l : Fin 8) (x : Converter) : (s.setConv l x).snaps = s.snaps := rfl
@[simp] theorem State.setConv_sources (l : Fin 8) (x : Converter) : (s.setConv l x).sources = s.sources := rfl
@[simp] theorem State.setConv_threshold (l : Fin 8) (x : Converter) : (s.setConv l x).threshold = s.threshold := rfl
@[simp] theorem State.setConv_attn (l : Fin 8) (x : Converter) : (s.setConv l x).attn = s.attn := rfl
@[simp] theorem State.setConv_contacts (l : Fin 8) (x : Converter) : (s.setConv l x).contacts = s.contacts := rfl
@[simp] theorem State.setConv_counters (l : Fin 8) (x : Converter) : (s.setConv l x).counters = s.counters := rfl
@[simp] theorem State.setConv_port (l : Fin 8) (x : Converter) : (s.setConv l x).port = s.port := rfl
@[simp] theorem State.setConv_startUp (l : Fin 8) (x : Converter) : (s.setConv l x).startUp = s.startUp := rfl
@[simp] theorem State.setConv_ahead (l : Fin 8) (x : Converter) : (s.setConv l x).ahead = s.ahead := rfl
@[simp] theorem State.setConv_pending (l : Fin 8) (x : Converter) : (s.setConv l x).pending = s.pending := rfl

/-! ### State.setProg -/

@[simp] theorem State.setProg_links (p : Fin 8) (x : Programme) : (s.setProg p x).links = s.links := rfl
@[simp] theorem State.setProg_routes (p : Fin 8) (x : Programme) : (s.setProg p x).routes = s.routes := rfl
@[simp] theorem State.setProg_feeds (p : Fin 8) (x : Programme) : (s.setProg p x).feeds = s.feeds := rfl
@[simp] theorem State.setProg_freeList (p : Fin 8) (x : Programme) : (s.setProg p x).freeList = s.freeList := rfl
@[simp] theorem State.setProg_mem (p : Fin 8) (x : Programme) : (s.setProg p x).mem = s.mem := rfl
@[simp] theorem State.setProg_outPipe (p : Fin 8) (x : Programme) : (s.setProg p x).outPipe = s.outPipe := rfl
@[simp] theorem State.setProg_outLinks (p : Fin 8) (x : Programme) : (s.setProg p x).outLinks = s.outLinks := rfl
@[simp] theorem State.setProg_ref (p : Fin 8) (x : Programme) : (s.setProg p x).ref = s.ref := rfl
@[simp] theorem State.setProg_groups (p : Fin 8) (x : Programme) : (s.setProg p x).groups = s.groups := rfl
@[simp] theorem State.setProg_snaps (p : Fin 8) (x : Programme) : (s.setProg p x).snaps = s.snaps := rfl
@[simp] theorem State.setProg_sources (p : Fin 8) (x : Programme) : (s.setProg p x).sources = s.sources := rfl
@[simp] theorem State.setProg_threshold (p : Fin 8) (x : Programme) : (s.setProg p x).threshold = s.threshold := rfl
@[simp] theorem State.setProg_attn (p : Fin 8) (x : Programme) : (s.setProg p x).attn = s.attn := rfl
@[simp] theorem State.setProg_contacts (p : Fin 8) (x : Programme) : (s.setProg p x).contacts = s.contacts := rfl
@[simp] theorem State.setProg_counters (p : Fin 8) (x : Programme) : (s.setProg p x).counters = s.counters := rfl
@[simp] theorem State.setProg_port (p : Fin 8) (x : Programme) : (s.setProg p x).port = s.port := rfl
@[simp] theorem State.setProg_startUp (p : Fin 8) (x : Programme) : (s.setProg p x).startUp = s.startUp := rfl
@[simp] theorem State.setProg_ahead (p : Fin 8) (x : Programme) : (s.setProg p x).ahead = s.ahead := rfl
@[simp] theorem State.setProg_pending (p : Fin 8) (x : Programme) : (s.setProg p x).pending = s.pending := rfl

/-! ### State.setMove -/

@[simp] theorem State.setMove_links (p : Fin 8) (x : MoveUnit) : (s.setMove p x).links = s.links := rfl
@[simp] theorem State.setMove_routes (p : Fin 8) (x : MoveUnit) : (s.setMove p x).routes = s.routes := rfl
@[simp] theorem State.setMove_feeds (p : Fin 8) (x : MoveUnit) : (s.setMove p x).feeds = s.feeds := rfl
@[simp] theorem State.setMove_freeList (p : Fin 8) (x : MoveUnit) : (s.setMove p x).freeList = s.freeList := rfl
@[simp] theorem State.setMove_mem (p : Fin 8) (x : MoveUnit) : (s.setMove p x).mem = s.mem := rfl
@[simp] theorem State.setMove_outPipe (p : Fin 8) (x : MoveUnit) : (s.setMove p x).outPipe = s.outPipe := rfl
@[simp] theorem State.setMove_outLinks (p : Fin 8) (x : MoveUnit) : (s.setMove p x).outLinks = s.outLinks := rfl
@[simp] theorem State.setMove_ref (p : Fin 8) (x : MoveUnit) : (s.setMove p x).ref = s.ref := rfl
@[simp] theorem State.setMove_groups (p : Fin 8) (x : MoveUnit) : (s.setMove p x).groups = s.groups := rfl
@[simp] theorem State.setMove_snaps (p : Fin 8) (x : MoveUnit) : (s.setMove p x).snaps = s.snaps := rfl
@[simp] theorem State.setMove_sources (p : Fin 8) (x : MoveUnit) : (s.setMove p x).sources = s.sources := rfl
@[simp] theorem State.setMove_threshold (p : Fin 8) (x : MoveUnit) : (s.setMove p x).threshold = s.threshold := rfl
@[simp] theorem State.setMove_attn (p : Fin 8) (x : MoveUnit) : (s.setMove p x).attn = s.attn := rfl
@[simp] theorem State.setMove_contacts (p : Fin 8) (x : MoveUnit) : (s.setMove p x).contacts = s.contacts := rfl
@[simp] theorem State.setMove_counters (p : Fin 8) (x : MoveUnit) : (s.setMove p x).counters = s.counters := rfl
@[simp] theorem State.setMove_port (p : Fin 8) (x : MoveUnit) : (s.setMove p x).port = s.port := rfl
@[simp] theorem State.setMove_startUp (p : Fin 8) (x : MoveUnit) : (s.setMove p x).startUp = s.startUp := rfl
@[simp] theorem State.setMove_ahead (p : Fin 8) (x : MoveUnit) : (s.setMove p x).ahead = s.ahead := rfl
@[simp] theorem State.setMove_pending (p : Fin 8) (x : MoveUnit) : (s.setMove p x).pending = s.pending := rfl

/-! ### State.setMeter -/

@[simp] theorem State.setMeter_links (p : Fin 8) (x : Meter) : (s.setMeter p x).links = s.links := rfl
@[simp] theorem State.setMeter_routes (p : Fin 8) (x : Meter) : (s.setMeter p x).routes = s.routes := rfl
@[simp] theorem State.setMeter_feeds (p : Fin 8) (x : Meter) : (s.setMeter p x).feeds = s.feeds := rfl
@[simp] theorem State.setMeter_freeList (p : Fin 8) (x : Meter) : (s.setMeter p x).freeList = s.freeList := rfl
@[simp] theorem State.setMeter_mem (p : Fin 8) (x : Meter) : (s.setMeter p x).mem = s.mem := rfl
@[simp] theorem State.setMeter_outPipe (p : Fin 8) (x : Meter) : (s.setMeter p x).outPipe = s.outPipe := rfl
@[simp] theorem State.setMeter_outLinks (p : Fin 8) (x : Meter) : (s.setMeter p x).outLinks = s.outLinks := rfl
@[simp] theorem State.setMeter_ref (p : Fin 8) (x : Meter) : (s.setMeter p x).ref = s.ref := rfl
@[simp] theorem State.setMeter_groups (p : Fin 8) (x : Meter) : (s.setMeter p x).groups = s.groups := rfl
@[simp] theorem State.setMeter_snaps (p : Fin 8) (x : Meter) : (s.setMeter p x).snaps = s.snaps := rfl
@[simp] theorem State.setMeter_sources (p : Fin 8) (x : Meter) : (s.setMeter p x).sources = s.sources := rfl
@[simp] theorem State.setMeter_threshold (p : Fin 8) (x : Meter) : (s.setMeter p x).threshold = s.threshold := rfl
@[simp] theorem State.setMeter_attn (p : Fin 8) (x : Meter) : (s.setMeter p x).attn = s.attn := rfl
@[simp] theorem State.setMeter_contacts (p : Fin 8) (x : Meter) : (s.setMeter p x).contacts = s.contacts := rfl
@[simp] theorem State.setMeter_counters (p : Fin 8) (x : Meter) : (s.setMeter p x).counters = s.counters := rfl
@[simp] theorem State.setMeter_port (p : Fin 8) (x : Meter) : (s.setMeter p x).port = s.port := rfl
@[simp] theorem State.setMeter_startUp (p : Fin 8) (x : Meter) : (s.setMeter p x).startUp = s.startUp := rfl
@[simp] theorem State.setMeter_ahead (p : Fin 8) (x : Meter) : (s.setMeter p x).ahead = s.ahead := rfl
@[simp] theorem State.setMeter_pending (p : Fin 8) (x : Meter) : (s.setMeter p x).pending = s.pending := rfl

/-! ### State.setGain -/

@[simp] theorem State.setGain_links (p : Fin 8) (x : Corrector) : (s.setGain p x).links = s.links := rfl
@[simp] theorem State.setGain_routes (p : Fin 8) (x : Corrector) : (s.setGain p x).routes = s.routes := rfl
@[simp] theorem State.setGain_feeds (p : Fin 8) (x : Corrector) : (s.setGain p x).feeds = s.feeds := rfl
@[simp] theorem State.setGain_freeList (p : Fin 8) (x : Corrector) : (s.setGain p x).freeList = s.freeList := rfl
@[simp] theorem State.setGain_mem (p : Fin 8) (x : Corrector) : (s.setGain p x).mem = s.mem := rfl
@[simp] theorem State.setGain_outPipe (p : Fin 8) (x : Corrector) : (s.setGain p x).outPipe = s.outPipe := rfl
@[simp] theorem State.setGain_outLinks (p : Fin 8) (x : Corrector) : (s.setGain p x).outLinks = s.outLinks := rfl
@[simp] theorem State.setGain_ref (p : Fin 8) (x : Corrector) : (s.setGain p x).ref = s.ref := rfl
@[simp] theorem State.setGain_groups (p : Fin 8) (x : Corrector) : (s.setGain p x).groups = s.groups := rfl
@[simp] theorem State.setGain_snaps (p : Fin 8) (x : Corrector) : (s.setGain p x).snaps = s.snaps := rfl
@[simp] theorem State.setGain_sources (p : Fin 8) (x : Corrector) : (s.setGain p x).sources = s.sources := rfl
@[simp] theorem State.setGain_threshold (p : Fin 8) (x : Corrector) : (s.setGain p x).threshold = s.threshold := rfl
@[simp] theorem State.setGain_attn (p : Fin 8) (x : Corrector) : (s.setGain p x).attn = s.attn := rfl
@[simp] theorem State.setGain_contacts (p : Fin 8) (x : Corrector) : (s.setGain p x).contacts = s.contacts := rfl
@[simp] theorem State.setGain_counters (p : Fin 8) (x : Corrector) : (s.setGain p x).counters = s.counters := rfl
@[simp] theorem State.setGain_port (p : Fin 8) (x : Corrector) : (s.setGain p x).port = s.port := rfl
@[simp] theorem State.setGain_startUp (p : Fin 8) (x : Corrector) : (s.setGain p x).startUp = s.startUp := rfl
@[simp] theorem State.setGain_ahead (p : Fin 8) (x : Corrector) : (s.setGain p x).ahead = s.ahead := rfl
@[simp] theorem State.setGain_pending (p : Fin 8) (x : Corrector) : (s.setGain p x).pending = s.pending := rfl

/-! ### State.setLife -/

@[simp] theorem State.setLife_links (p : Fin 8) (x : Life) : (s.setLife p x).links = s.links := rfl
@[simp] theorem State.setLife_routes (p : Fin 8) (x : Life) : (s.setLife p x).routes = s.routes := rfl
@[simp] theorem State.setLife_feeds (p : Fin 8) (x : Life) : (s.setLife p x).feeds = s.feeds := rfl
@[simp] theorem State.setLife_freeList (p : Fin 8) (x : Life) : (s.setLife p x).freeList = s.freeList := rfl
@[simp] theorem State.setLife_mem (p : Fin 8) (x : Life) : (s.setLife p x).mem = s.mem := rfl
@[simp] theorem State.setLife_outPipe (p : Fin 8) (x : Life) : (s.setLife p x).outPipe = s.outPipe := rfl
@[simp] theorem State.setLife_outLinks (p : Fin 8) (x : Life) : (s.setLife p x).outLinks = s.outLinks := rfl
@[simp] theorem State.setLife_ref (p : Fin 8) (x : Life) : (s.setLife p x).ref = s.ref := rfl
@[simp] theorem State.setLife_groups (p : Fin 8) (x : Life) : (s.setLife p x).groups = s.groups := rfl
@[simp] theorem State.setLife_snaps (p : Fin 8) (x : Life) : (s.setLife p x).snaps = s.snaps := rfl
@[simp] theorem State.setLife_sources (p : Fin 8) (x : Life) : (s.setLife p x).sources = s.sources := rfl
@[simp] theorem State.setLife_threshold (p : Fin 8) (x : Life) : (s.setLife p x).threshold = s.threshold := rfl
@[simp] theorem State.setLife_attn (p : Fin 8) (x : Life) : (s.setLife p x).attn = s.attn := rfl
@[simp] theorem State.setLife_contacts (p : Fin 8) (x : Life) : (s.setLife p x).contacts = s.contacts := rfl
@[simp] theorem State.setLife_counters (p : Fin 8) (x : Life) : (s.setLife p x).counters = s.counters := rfl
@[simp] theorem State.setLife_port (p : Fin 8) (x : Life) : (s.setLife p x).port = s.port := rfl
@[simp] theorem State.setLife_startUp (p : Fin 8) (x : Life) : (s.setLife p x).startUp = s.startUp := rfl
@[simp] theorem State.setLife_ahead (p : Fin 8) (x : Life) : (s.setLife p x).ahead = s.ahead := rfl
@[simp] theorem State.setLife_pending (p : Fin 8) (x : Life) : (s.setLife p x).pending = s.pending := rfl

/-! ### State.setMoveState -/

@[simp] theorem State.setMoveState_links (p : Fin 8) (x : MoveState) : (s.setMoveState p x).links = s.links := rfl
@[simp] theorem State.setMoveState_routes (p : Fin 8) (x : MoveState) : (s.setMoveState p x).routes = s.routes := rfl
@[simp] theorem State.setMoveState_feeds (p : Fin 8) (x : MoveState) : (s.setMoveState p x).feeds = s.feeds := rfl
@[simp] theorem State.setMoveState_freeList (p : Fin 8) (x : MoveState) : (s.setMoveState p x).freeList = s.freeList := rfl
@[simp] theorem State.setMoveState_mem (p : Fin 8) (x : MoveState) : (s.setMoveState p x).mem = s.mem := rfl
@[simp] theorem State.setMoveState_outPipe (p : Fin 8) (x : MoveState) : (s.setMoveState p x).outPipe = s.outPipe := rfl
@[simp] theorem State.setMoveState_outLinks (p : Fin 8) (x : MoveState) : (s.setMoveState p x).outLinks = s.outLinks := rfl
@[simp] theorem State.setMoveState_ref (p : Fin 8) (x : MoveState) : (s.setMoveState p x).ref = s.ref := rfl
@[simp] theorem State.setMoveState_groups (p : Fin 8) (x : MoveState) : (s.setMoveState p x).groups = s.groups := rfl
@[simp] theorem State.setMoveState_snaps (p : Fin 8) (x : MoveState) : (s.setMoveState p x).snaps = s.snaps := rfl
@[simp] theorem State.setMoveState_sources (p : Fin 8) (x : MoveState) : (s.setMoveState p x).sources = s.sources := rfl
@[simp] theorem State.setMoveState_threshold (p : Fin 8) (x : MoveState) : (s.setMoveState p x).threshold = s.threshold := rfl
@[simp] theorem State.setMoveState_attn (p : Fin 8) (x : MoveState) : (s.setMoveState p x).attn = s.attn := rfl
@[simp] theorem State.setMoveState_contacts (p : Fin 8) (x : MoveState) : (s.setMoveState p x).contacts = s.contacts := rfl
@[simp] theorem State.setMoveState_counters (p : Fin 8) (x : MoveState) : (s.setMoveState p x).counters = s.counters := rfl
@[simp] theorem State.setMoveState_port (p : Fin 8) (x : MoveState) : (s.setMoveState p x).port = s.port := rfl
@[simp] theorem State.setMoveState_startUp (p : Fin 8) (x : MoveState) : (s.setMoveState p x).startUp = s.startUp := rfl
@[simp] theorem State.setMoveState_ahead (p : Fin 8) (x : MoveState) : (s.setMoveState p x).ahead = s.ahead := rfl
@[simp] theorem State.setMoveState_pending (p : Fin 8) (x : MoveState) : (s.setMoveState p x).pending = s.pending := rfl

/-! ### State.setStaged -/

@[simp] theorem State.setStaged_links (p : Fin 8) (x : Staged) : (s.setStaged p x).links = s.links := rfl
@[simp] theorem State.setStaged_routes (p : Fin 8) (x : Staged) : (s.setStaged p x).routes = s.routes := rfl
@[simp] theorem State.setStaged_feeds (p : Fin 8) (x : Staged) : (s.setStaged p x).feeds = s.feeds := rfl
@[simp] theorem State.setStaged_freeList (p : Fin 8) (x : Staged) : (s.setStaged p x).freeList = s.freeList := rfl
@[simp] theorem State.setStaged_mem (p : Fin 8) (x : Staged) : (s.setStaged p x).mem = s.mem := rfl
@[simp] theorem State.setStaged_outPipe (p : Fin 8) (x : Staged) : (s.setStaged p x).outPipe = s.outPipe := rfl
@[simp] theorem State.setStaged_outLinks (p : Fin 8) (x : Staged) : (s.setStaged p x).outLinks = s.outLinks := rfl
@[simp] theorem State.setStaged_ref (p : Fin 8) (x : Staged) : (s.setStaged p x).ref = s.ref := rfl
@[simp] theorem State.setStaged_groups (p : Fin 8) (x : Staged) : (s.setStaged p x).groups = s.groups := rfl
@[simp] theorem State.setStaged_snaps (p : Fin 8) (x : Staged) : (s.setStaged p x).snaps = s.snaps := rfl
@[simp] theorem State.setStaged_sources (p : Fin 8) (x : Staged) : (s.setStaged p x).sources = s.sources := rfl
@[simp] theorem State.setStaged_threshold (p : Fin 8) (x : Staged) : (s.setStaged p x).threshold = s.threshold := rfl
@[simp] theorem State.setStaged_attn (p : Fin 8) (x : Staged) : (s.setStaged p x).attn = s.attn := rfl
@[simp] theorem State.setStaged_contacts (p : Fin 8) (x : Staged) : (s.setStaged p x).contacts = s.contacts := rfl
@[simp] theorem State.setStaged_counters (p : Fin 8) (x : Staged) : (s.setStaged p x).counters = s.counters := rfl
@[simp] theorem State.setStaged_port (p : Fin 8) (x : Staged) : (s.setStaged p x).port = s.port := rfl
@[simp] theorem State.setStaged_startUp (p : Fin 8) (x : Staged) : (s.setStaged p x).startUp = s.startUp := rfl
@[simp] theorem State.setStaged_ahead (p : Fin 8) (x : Staged) : (s.setStaged p x).ahead = s.ahead := rfl
@[simp] theorem State.setStaged_pending (p : Fin 8) (x : Staged) : (s.setStaged p x).pending = s.pending := rfl

/-! ### State.setGroup -/

@[simp] theorem State.setGroup_links (g : Fin 4) (x : CueGroup) : (s.setGroup g x).links = s.links := rfl
@[simp] theorem State.setGroup_routes (g : Fin 4) (x : CueGroup) : (s.setGroup g x).routes = s.routes := rfl
@[simp] theorem State.setGroup_feeds (g : Fin 4) (x : CueGroup) : (s.setGroup g x).feeds = s.feeds := rfl
@[simp] theorem State.setGroup_progs (g : Fin 4) (x : CueGroup) : (s.setGroup g x).progs = s.progs := rfl
@[simp] theorem State.setGroup_freeList (g : Fin 4) (x : CueGroup) : (s.setGroup g x).freeList = s.freeList := rfl
@[simp] theorem State.setGroup_mem (g : Fin 4) (x : CueGroup) : (s.setGroup g x).mem = s.mem := rfl
@[simp] theorem State.setGroup_outPipe (g : Fin 4) (x : CueGroup) : (s.setGroup g x).outPipe = s.outPipe := rfl
@[simp] theorem State.setGroup_outLinks (g : Fin 4) (x : CueGroup) : (s.setGroup g x).outLinks = s.outLinks := rfl
@[simp] theorem State.setGroup_ref (g : Fin 4) (x : CueGroup) : (s.setGroup g x).ref = s.ref := rfl
@[simp] theorem State.setGroup_snaps (g : Fin 4) (x : CueGroup) : (s.setGroup g x).snaps = s.snaps := rfl
@[simp] theorem State.setGroup_sources (g : Fin 4) (x : CueGroup) : (s.setGroup g x).sources = s.sources := rfl
@[simp] theorem State.setGroup_threshold (g : Fin 4) (x : CueGroup) : (s.setGroup g x).threshold = s.threshold := rfl
@[simp] theorem State.setGroup_attn (g : Fin 4) (x : CueGroup) : (s.setGroup g x).attn = s.attn := rfl
@[simp] theorem State.setGroup_contacts (g : Fin 4) (x : CueGroup) : (s.setGroup g x).contacts = s.contacts := rfl
@[simp] theorem State.setGroup_counters (g : Fin 4) (x : CueGroup) : (s.setGroup g x).counters = s.counters := rfl
@[simp] theorem State.setGroup_port (g : Fin 4) (x : CueGroup) : (s.setGroup g x).port = s.port := rfl
@[simp] theorem State.setGroup_startUp (g : Fin 4) (x : CueGroup) : (s.setGroup g x).startUp = s.startUp := rfl
@[simp] theorem State.setGroup_ahead (g : Fin 4) (x : CueGroup) : (s.setGroup g x).ahead = s.ahead := rfl
@[simp] theorem State.setGroup_pending (g : Fin 4) (x : CueGroup) : (s.setGroup g x).pending = s.pending := rfl

/-! ### State.setSnap -/

@[simp] theorem State.setSnap_links (g : Fin 4) (x : SnapEntry) : (s.setSnap g x).links = s.links := rfl
@[simp] theorem State.setSnap_routes (g : Fin 4) (x : SnapEntry) : (s.setSnap g x).routes = s.routes := rfl
@[simp] theorem State.setSnap_feeds (g : Fin 4) (x : SnapEntry) : (s.setSnap g x).feeds = s.feeds := rfl
@[simp] theorem State.setSnap_progs (g : Fin 4) (x : SnapEntry) : (s.setSnap g x).progs = s.progs := rfl
@[simp] theorem State.setSnap_freeList (g : Fin 4) (x : SnapEntry) : (s.setSnap g x).freeList = s.freeList := rfl
@[simp] theorem State.setSnap_mem (g : Fin 4) (x : SnapEntry) : (s.setSnap g x).mem = s.mem := rfl
@[simp] theorem State.setSnap_outPipe (g : Fin 4) (x : SnapEntry) : (s.setSnap g x).outPipe = s.outPipe := rfl
@[simp] theorem State.setSnap_outLinks (g : Fin 4) (x : SnapEntry) : (s.setSnap g x).outLinks = s.outLinks := rfl
@[simp] theorem State.setSnap_ref (g : Fin 4) (x : SnapEntry) : (s.setSnap g x).ref = s.ref := rfl
@[simp] theorem State.setSnap_groups (g : Fin 4) (x : SnapEntry) : (s.setSnap g x).groups = s.groups := rfl
@[simp] theorem State.setSnap_sources (g : Fin 4) (x : SnapEntry) : (s.setSnap g x).sources = s.sources := rfl
@[simp] theorem State.setSnap_threshold (g : Fin 4) (x : SnapEntry) : (s.setSnap g x).threshold = s.threshold := rfl
@[simp] theorem State.setSnap_attn (g : Fin 4) (x : SnapEntry) : (s.setSnap g x).attn = s.attn := rfl
@[simp] theorem State.setSnap_contacts (g : Fin 4) (x : SnapEntry) : (s.setSnap g x).contacts = s.contacts := rfl
@[simp] theorem State.setSnap_counters (g : Fin 4) (x : SnapEntry) : (s.setSnap g x).counters = s.counters := rfl
@[simp] theorem State.setSnap_port (g : Fin 4) (x : SnapEntry) : (s.setSnap g x).port = s.port := rfl
@[simp] theorem State.setSnap_startUp (g : Fin 4) (x : SnapEntry) : (s.setSnap g x).startUp = s.startUp := rfl
@[simp] theorem State.setSnap_ahead (g : Fin 4) (x : SnapEntry) : (s.setSnap g x).ahead = s.ahead := rfl
@[simp] theorem State.setSnap_pending (g : Fin 4) (x : SnapEntry) : (s.setSnap g x).pending = s.pending := rfl

/-! ### State.setContact -/

@[simp] theorem State.setContact_links (c : Fin 4) (x : Contact) : (s.setContact c x).links = s.links := rfl
@[simp] theorem State.setContact_routes (c : Fin 4) (x : Contact) : (s.setContact c x).routes = s.routes := rfl
@[simp] theorem State.setContact_feeds (c : Fin 4) (x : Contact) : (s.setContact c x).feeds = s.feeds := rfl
@[simp] theorem State.setContact_progs (c : Fin 4) (x : Contact) : (s.setContact c x).progs = s.progs := rfl
@[simp] theorem State.setContact_freeList (c : Fin 4) (x : Contact) : (s.setContact c x).freeList = s.freeList := rfl
@[simp] theorem State.setContact_mem (c : Fin 4) (x : Contact) : (s.setContact c x).mem = s.mem := rfl
@[simp] theorem State.setContact_outPipe (c : Fin 4) (x : Contact) : (s.setContact c x).outPipe = s.outPipe := rfl
@[simp] theorem State.setContact_outLinks (c : Fin 4) (x : Contact) : (s.setContact c x).outLinks = s.outLinks := rfl
@[simp] theorem State.setContact_ref (c : Fin 4) (x : Contact) : (s.setContact c x).ref = s.ref := rfl
@[simp] theorem State.setContact_groups (c : Fin 4) (x : Contact) : (s.setContact c x).groups = s.groups := rfl
@[simp] theorem State.setContact_snaps (c : Fin 4) (x : Contact) : (s.setContact c x).snaps = s.snaps := rfl
@[simp] theorem State.setContact_sources (c : Fin 4) (x : Contact) : (s.setContact c x).sources = s.sources := rfl
@[simp] theorem State.setContact_threshold (c : Fin 4) (x : Contact) : (s.setContact c x).threshold = s.threshold := rfl
@[simp] theorem State.setContact_attn (c : Fin 4) (x : Contact) : (s.setContact c x).attn = s.attn := rfl
@[simp] theorem State.setContact_counters (c : Fin 4) (x : Contact) : (s.setContact c x).counters = s.counters := rfl
@[simp] theorem State.setContact_port (c : Fin 4) (x : Contact) : (s.setContact c x).port = s.port := rfl
@[simp] theorem State.setContact_startUp (c : Fin 4) (x : Contact) : (s.setContact c x).startUp = s.startUp := rfl
@[simp] theorem State.setContact_ahead (c : Fin 4) (x : Contact) : (s.setContact c x).ahead = s.ahead := rfl
@[simp] theorem State.setContact_pending (c : Fin 4) (x : Contact) : (s.setContact c x).pending = s.pending := rfl

/-! ### State.setCounter -/

@[simp] theorem State.setCounter_links (c : Fin 8) (x : Counter) : (s.setCounter c x).links = s.links := rfl
@[simp] theorem State.setCounter_routes (c : Fin 8) (x : Counter) : (s.setCounter c x).routes = s.routes := rfl
@[simp] theorem State.setCounter_feeds (c : Fin 8) (x : Counter) : (s.setCounter c x).feeds = s.feeds := rfl
@[simp] theorem State.setCounter_progs (c : Fin 8) (x : Counter) : (s.setCounter c x).progs = s.progs := rfl
@[simp] theorem State.setCounter_freeList (c : Fin 8) (x : Counter) : (s.setCounter c x).freeList = s.freeList := rfl
@[simp] theorem State.setCounter_mem (c : Fin 8) (x : Counter) : (s.setCounter c x).mem = s.mem := rfl
@[simp] theorem State.setCounter_outPipe (c : Fin 8) (x : Counter) : (s.setCounter c x).outPipe = s.outPipe := rfl
@[simp] theorem State.setCounter_outLinks (c : Fin 8) (x : Counter) : (s.setCounter c x).outLinks = s.outLinks := rfl
@[simp] theorem State.setCounter_ref (c : Fin 8) (x : Counter) : (s.setCounter c x).ref = s.ref := rfl
@[simp] theorem State.setCounter_groups (c : Fin 8) (x : Counter) : (s.setCounter c x).groups = s.groups := rfl
@[simp] theorem State.setCounter_snaps (c : Fin 8) (x : Counter) : (s.setCounter c x).snaps = s.snaps := rfl
@[simp] theorem State.setCounter_sources (c : Fin 8) (x : Counter) : (s.setCounter c x).sources = s.sources := rfl
@[simp] theorem State.setCounter_threshold (c : Fin 8) (x : Counter) : (s.setCounter c x).threshold = s.threshold := rfl
@[simp] theorem State.setCounter_attn (c : Fin 8) (x : Counter) : (s.setCounter c x).attn = s.attn := rfl
@[simp] theorem State.setCounter_contacts (c : Fin 8) (x : Counter) : (s.setCounter c x).contacts = s.contacts := rfl
@[simp] theorem State.setCounter_port (c : Fin 8) (x : Counter) : (s.setCounter c x).port = s.port := rfl
@[simp] theorem State.setCounter_startUp (c : Fin 8) (x : Counter) : (s.setCounter c x).startUp = s.startUp := rfl
@[simp] theorem State.setCounter_ahead (c : Fin 8) (x : Counter) : (s.setCounter c x).ahead = s.ahead := rfl
@[simp] theorem State.setCounter_pending (c : Fin 8) (x : Counter) : (s.setCounter c x).pending = s.pending := rfl

/-! ### State.setRoute -/

@[simp] theorem State.setRoute_links (n : Fin 32) (x : Route) : (s.setRoute n x).links = s.links := rfl
@[simp] theorem State.setRoute_progs (n : Fin 32) (x : Route) : (s.setRoute n x).progs = s.progs := rfl
@[simp] theorem State.setRoute_freeList (n : Fin 32) (x : Route) : (s.setRoute n x).freeList = s.freeList := rfl
@[simp] theorem State.setRoute_mem (n : Fin 32) (x : Route) : (s.setRoute n x).mem = s.mem := rfl
@[simp] theorem State.setRoute_outPipe (n : Fin 32) (x : Route) : (s.setRoute n x).outPipe = s.outPipe := rfl
@[simp] theorem State.setRoute_outLinks (n : Fin 32) (x : Route) : (s.setRoute n x).outLinks = s.outLinks := rfl
@[simp] theorem State.setRoute_ref (n : Fin 32) (x : Route) : (s.setRoute n x).ref = s.ref := rfl
@[simp] theorem State.setRoute_groups (n : Fin 32) (x : Route) : (s.setRoute n x).groups = s.groups := rfl
@[simp] theorem State.setRoute_snaps (n : Fin 32) (x : Route) : (s.setRoute n x).snaps = s.snaps := rfl
@[simp] theorem State.setRoute_sources (n : Fin 32) (x : Route) : (s.setRoute n x).sources = s.sources := rfl
@[simp] theorem State.setRoute_threshold (n : Fin 32) (x : Route) : (s.setRoute n x).threshold = s.threshold := rfl
@[simp] theorem State.setRoute_attn (n : Fin 32) (x : Route) : (s.setRoute n x).attn = s.attn := rfl
@[simp] theorem State.setRoute_contacts (n : Fin 32) (x : Route) : (s.setRoute n x).contacts = s.contacts := rfl
@[simp] theorem State.setRoute_counters (n : Fin 32) (x : Route) : (s.setRoute n x).counters = s.counters := rfl
@[simp] theorem State.setRoute_port (n : Fin 32) (x : Route) : (s.setRoute n x).port = s.port := rfl
@[simp] theorem State.setRoute_startUp (n : Fin 32) (x : Route) : (s.setRoute n x).startUp = s.startUp := rfl
@[simp] theorem State.setRoute_ahead (n : Fin 32) (x : Route) : (s.setRoute n x).ahead = s.ahead := rfl
@[simp] theorem State.setRoute_pending (n : Fin 32) (x : Route) : (s.setRoute n x).pending = s.pending := rfl

/-! ### State.setPort -/

@[simp] theorem State.setPort_links (x : Port) : (s.setPort x).links = s.links := rfl
@[simp] theorem State.setPort_routes (x : Port) : (s.setPort x).routes = s.routes := rfl
@[simp] theorem State.setPort_feeds (x : Port) : (s.setPort x).feeds = s.feeds := rfl
@[simp] theorem State.setPort_progs (x : Port) : (s.setPort x).progs = s.progs := rfl
@[simp] theorem State.setPort_freeList (x : Port) : (s.setPort x).freeList = s.freeList := rfl
@[simp] theorem State.setPort_mem (x : Port) : (s.setPort x).mem = s.mem := rfl
@[simp] theorem State.setPort_outPipe (x : Port) : (s.setPort x).outPipe = s.outPipe := rfl
@[simp] theorem State.setPort_outLinks (x : Port) : (s.setPort x).outLinks = s.outLinks := rfl
@[simp] theorem State.setPort_ref (x : Port) : (s.setPort x).ref = s.ref := rfl
@[simp] theorem State.setPort_groups (x : Port) : (s.setPort x).groups = s.groups := rfl
@[simp] theorem State.setPort_snaps (x : Port) : (s.setPort x).snaps = s.snaps := rfl
@[simp] theorem State.setPort_sources (x : Port) : (s.setPort x).sources = s.sources := rfl
@[simp] theorem State.setPort_threshold (x : Port) : (s.setPort x).threshold = s.threshold := rfl
@[simp] theorem State.setPort_attn (x : Port) : (s.setPort x).attn = s.attn := rfl
@[simp] theorem State.setPort_contacts (x : Port) : (s.setPort x).contacts = s.contacts := rfl
@[simp] theorem State.setPort_counters (x : Port) : (s.setPort x).counters = s.counters := rfl
@[simp] theorem State.setPort_startUp (x : Port) : (s.setPort x).startUp = s.startUp := rfl
@[simp] theorem State.setPort_ahead (x : Port) : (s.setPort x).ahead = s.ahead := rfl
@[simp] theorem State.setPort_pending (x : Port) : (s.setPort x).pending = s.pending := rfl

/-! ### State.hunt -/

@[simp] theorem State.hunt_links : (s.hunt).links = s.links := rfl
@[simp] theorem State.hunt_routes : (s.hunt).routes = s.routes := rfl
@[simp] theorem State.hunt_feeds : (s.hunt).feeds = s.feeds := rfl
@[simp] theorem State.hunt_progs : (s.hunt).progs = s.progs := rfl
@[simp] theorem State.hunt_freeList : (s.hunt).freeList = s.freeList := rfl
@[simp] theorem State.hunt_mem : (s.hunt).mem = s.mem := rfl
@[simp] theorem State.hunt_outPipe : (s.hunt).outPipe = s.outPipe := rfl
@[simp] theorem State.hunt_outLinks : (s.hunt).outLinks = s.outLinks := rfl
@[simp] theorem State.hunt_ref : (s.hunt).ref = s.ref := rfl
@[simp] theorem State.hunt_groups : (s.hunt).groups = s.groups := rfl
@[simp] theorem State.hunt_snaps : (s.hunt).snaps = s.snaps := rfl
@[simp] theorem State.hunt_sources : (s.hunt).sources = s.sources := rfl
@[simp] theorem State.hunt_threshold : (s.hunt).threshold = s.threshold := rfl
@[simp] theorem State.hunt_attn : (s.hunt).attn = s.attn := rfl
@[simp] theorem State.hunt_contacts : (s.hunt).contacts = s.contacts := rfl
@[simp] theorem State.hunt_counters : (s.hunt).counters = s.counters := rfl
@[simp] theorem State.hunt_startUp : (s.hunt).startUp = s.startUp := rfl
@[simp] theorem State.hunt_ahead : (s.hunt).ahead = s.ahead := rfl
@[simp] theorem State.hunt_pending : (s.hunt).pending = s.pending := rfl

/-! ### State.resetFeeds -/

@[simp] theorem State.resetFeeds_links : (s.resetFeeds).links = s.links := rfl
@[simp] theorem State.resetFeeds_routes : (s.resetFeeds).routes = s.routes := rfl
@[simp] theorem State.resetFeeds_progs : (s.resetFeeds).progs = s.progs := rfl
@[simp] theorem State.resetFeeds_freeList : (s.resetFeeds).freeList = s.freeList := rfl
@[simp] theorem State.resetFeeds_mem : (s.resetFeeds).mem = s.mem := rfl
@[simp] theorem State.resetFeeds_outPipe : (s.resetFeeds).outPipe = s.outPipe := rfl
@[simp] theorem State.resetFeeds_outLinks : (s.resetFeeds).outLinks = s.outLinks := rfl
@[simp] theorem State.resetFeeds_ref : (s.resetFeeds).ref = s.ref := rfl
@[simp] theorem State.resetFeeds_groups : (s.resetFeeds).groups = s.groups := rfl
@[simp] theorem State.resetFeeds_snaps : (s.resetFeeds).snaps = s.snaps := rfl
@[simp] theorem State.resetFeeds_sources : (s.resetFeeds).sources = s.sources := rfl
@[simp] theorem State.resetFeeds_threshold : (s.resetFeeds).threshold = s.threshold := rfl
@[simp] theorem State.resetFeeds_attn : (s.resetFeeds).attn = s.attn := rfl
@[simp] theorem State.resetFeeds_contacts : (s.resetFeeds).contacts = s.contacts := rfl
@[simp] theorem State.resetFeeds_counters : (s.resetFeeds).counters = s.counters := rfl
@[simp] theorem State.resetFeeds_port : (s.resetFeeds).port = s.port := rfl
@[simp] theorem State.resetFeeds_startUp : (s.resetFeeds).startUp = s.startUp := rfl
@[simp] theorem State.resetFeeds_ahead : (s.resetFeeds).ahead = s.ahead := rfl
@[simp] theorem State.resetFeeds_pending : (s.resetFeeds).pending = s.pending := rfl

/-! ### State.releaseExtent -/

@[simp] theorem State.releaseExtent_links (e : Extent) : (s.releaseExtent e).links = s.links := rfl
@[simp] theorem State.releaseExtent_routes (e : Extent) : (s.releaseExtent e).routes = s.routes := rfl
@[simp] theorem State.releaseExtent_feeds (e : Extent) : (s.releaseExtent e).feeds = s.feeds := rfl
@[simp] theorem State.releaseExtent_progs (e : Extent) : (s.releaseExtent e).progs = s.progs := rfl
@[simp] theorem State.releaseExtent_mem (e : Extent) : (s.releaseExtent e).mem = s.mem := rfl
@[simp] theorem State.releaseExtent_outPipe (e : Extent) : (s.releaseExtent e).outPipe = s.outPipe := rfl
@[simp] theorem State.releaseExtent_outLinks (e : Extent) : (s.releaseExtent e).outLinks = s.outLinks := rfl
@[simp] theorem State.releaseExtent_ref (e : Extent) : (s.releaseExtent e).ref = s.ref := rfl
@[simp] theorem State.releaseExtent_groups (e : Extent) : (s.releaseExtent e).groups = s.groups := rfl
@[simp] theorem State.releaseExtent_snaps (e : Extent) : (s.releaseExtent e).snaps = s.snaps := rfl
@[simp] theorem State.releaseExtent_sources (e : Extent) : (s.releaseExtent e).sources = s.sources := rfl
@[simp] theorem State.releaseExtent_threshold (e : Extent) : (s.releaseExtent e).threshold = s.threshold := rfl
@[simp] theorem State.releaseExtent_attn (e : Extent) : (s.releaseExtent e).attn = s.attn := rfl
@[simp] theorem State.releaseExtent_contacts (e : Extent) : (s.releaseExtent e).contacts = s.contacts := rfl
@[simp] theorem State.releaseExtent_counters (e : Extent) : (s.releaseExtent e).counters = s.counters := rfl
@[simp] theorem State.releaseExtent_port (e : Extent) : (s.releaseExtent e).port = s.port := rfl
@[simp] theorem State.releaseExtent_startUp (e : Extent) : (s.releaseExtent e).startUp = s.startUp := rfl
@[simp] theorem State.releaseExtent_ahead (e : Extent) : (s.releaseExtent e).ahead = s.ahead := rfl
@[simp] theorem State.releaseExtent_pending (e : Extent) : (s.releaseExtent e).pending = s.pending := rfl

/-! ### State.markAhead -/

@[simp] theorem State.markAhead_links (a : Ahead) : (s.markAhead a).links = s.links := rfl
@[simp] theorem State.markAhead_routes (a : Ahead) : (s.markAhead a).routes = s.routes := rfl
@[simp] theorem State.markAhead_feeds (a : Ahead) : (s.markAhead a).feeds = s.feeds := rfl
@[simp] theorem State.markAhead_progs (a : Ahead) : (s.markAhead a).progs = s.progs := rfl
@[simp] theorem State.markAhead_freeList (a : Ahead) : (s.markAhead a).freeList = s.freeList := rfl
@[simp] theorem State.markAhead_mem (a : Ahead) : (s.markAhead a).mem = s.mem := rfl
@[simp] theorem State.markAhead_outPipe (a : Ahead) : (s.markAhead a).outPipe = s.outPipe := rfl
@[simp] theorem State.markAhead_outLinks (a : Ahead) : (s.markAhead a).outLinks = s.outLinks := rfl
@[simp] theorem State.markAhead_ref (a : Ahead) : (s.markAhead a).ref = s.ref := rfl
@[simp] theorem State.markAhead_groups (a : Ahead) : (s.markAhead a).groups = s.groups := rfl
@[simp] theorem State.markAhead_snaps (a : Ahead) : (s.markAhead a).snaps = s.snaps := rfl
@[simp] theorem State.markAhead_sources (a : Ahead) : (s.markAhead a).sources = s.sources := rfl
@[simp] theorem State.markAhead_threshold (a : Ahead) : (s.markAhead a).threshold = s.threshold := rfl
@[simp] theorem State.markAhead_attn (a : Ahead) : (s.markAhead a).attn = s.attn := rfl
@[simp] theorem State.markAhead_contacts (a : Ahead) : (s.markAhead a).contacts = s.contacts := rfl
@[simp] theorem State.markAhead_counters (a : Ahead) : (s.markAhead a).counters = s.counters := rfl
@[simp] theorem State.markAhead_port (a : Ahead) : (s.markAhead a).port = s.port := rfl
@[simp] theorem State.markAhead_startUp (a : Ahead) : (s.markAhead a).startUp = s.startUp := rfl
@[simp] theorem State.markAhead_pending (a : Ahead) : (s.markAhead a).pending = s.pending := rfl

/-! ### State.judge -/

@[simp] theorem State.judge_links : (s.judge).links = s.links := rfl
@[simp] theorem State.judge_routes : (s.judge).routes = s.routes := rfl
@[simp] theorem State.judge_feeds : (s.judge).feeds = s.feeds := rfl
@[simp] theorem State.judge_progs : (s.judge).progs = s.progs := rfl
@[simp] theorem State.judge_freeList : (s.judge).freeList = s.freeList := rfl
@[simp] theorem State.judge_mem : (s.judge).mem = s.mem := rfl
@[simp] theorem State.judge_outPipe : (s.judge).outPipe = s.outPipe := rfl
@[simp] theorem State.judge_outLinks : (s.judge).outLinks = s.outLinks := rfl
@[simp] theorem State.judge_ref : (s.judge).ref = s.ref := rfl
@[simp] theorem State.judge_groups : (s.judge).groups = s.groups := rfl
@[simp] theorem State.judge_snaps : (s.judge).snaps = s.snaps := rfl
@[simp] theorem State.judge_sources : (s.judge).sources = s.sources := rfl
@[simp] theorem State.judge_threshold : (s.judge).threshold = s.threshold := rfl
@[simp] theorem State.judge_counters : (s.judge).counters = s.counters := rfl
@[simp] theorem State.judge_port : (s.judge).port = s.port := rfl
@[simp] theorem State.judge_startUp : (s.judge).startUp = s.startUp := rfl
@[simp] theorem State.judge_ahead : (s.judge).ahead = s.ahead := rfl
@[simp] theorem State.judge_pending : (s.judge).pending = s.pending := rfl

/-! ### State.setSource -/

@[simp] theorem State.setSource_links (n : Fin 59) (x : Source) : (s.setSource n x).links = s.links := rfl
@[simp] theorem State.setSource_routes (n : Fin 59) (x : Source) : (s.setSource n x).routes = s.routes := rfl
@[simp] theorem State.setSource_feeds (n : Fin 59) (x : Source) : (s.setSource n x).feeds = s.feeds := rfl
@[simp] theorem State.setSource_progs (n : Fin 59) (x : Source) : (s.setSource n x).progs = s.progs := rfl
@[simp] theorem State.setSource_freeList (n : Fin 59) (x : Source) : (s.setSource n x).freeList = s.freeList := rfl
@[simp] theorem State.setSource_mem (n : Fin 59) (x : Source) : (s.setSource n x).mem = s.mem := rfl
@[simp] theorem State.setSource_outPipe (n : Fin 59) (x : Source) : (s.setSource n x).outPipe = s.outPipe := rfl
@[simp] theorem State.setSource_outLinks (n : Fin 59) (x : Source) : (s.setSource n x).outLinks = s.outLinks := rfl
@[simp] theorem State.setSource_ref (n : Fin 59) (x : Source) : (s.setSource n x).ref = s.ref := rfl
@[simp] theorem State.setSource_groups (n : Fin 59) (x : Source) : (s.setSource n x).groups = s.groups := rfl
@[simp] theorem State.setSource_snaps (n : Fin 59) (x : Source) : (s.setSource n x).snaps = s.snaps := rfl
@[simp] theorem State.setSource_threshold (n : Fin 59) (x : Source) : (s.setSource n x).threshold = s.threshold := rfl
@[simp] theorem State.setSource_counters (n : Fin 59) (x : Source) : (s.setSource n x).counters = s.counters := rfl
@[simp] theorem State.setSource_port (n : Fin 59) (x : Source) : (s.setSource n x).port = s.port := rfl
@[simp] theorem State.setSource_startUp (n : Fin 59) (x : Source) : (s.setSource n x).startUp = s.startUp := rfl
@[simp] theorem State.setSource_ahead (n : Fin 59) (x : Source) : (s.setSource n x).ahead = s.ahead := rfl
@[simp] theorem State.setSource_pending (n : Fin 59) (x : Source) : (s.setSource n x).pending = s.pending := rfl

/-! ### State.offerEvent -/

@[simp] theorem State.offerEvent_links (e : CountEvent) (o : Option (Fin 8)) (k : Nat) : (s.offerEvent e o k).links = s.links := rfl
@[simp] theorem State.offerEvent_routes (e : CountEvent) (o : Option (Fin 8)) (k : Nat) : (s.offerEvent e o k).routes = s.routes := rfl
@[simp] theorem State.offerEvent_feeds (e : CountEvent) (o : Option (Fin 8)) (k : Nat) : (s.offerEvent e o k).feeds = s.feeds := rfl
@[simp] theorem State.offerEvent_progs (e : CountEvent) (o : Option (Fin 8)) (k : Nat) : (s.offerEvent e o k).progs = s.progs := rfl
@[simp] theorem State.offerEvent_freeList (e : CountEvent) (o : Option (Fin 8)) (k : Nat) : (s.offerEvent e o k).freeList = s.freeList := rfl
@[simp] theorem State.offerEvent_mem (e : CountEvent) (o : Option (Fin 8)) (k : Nat) : (s.offerEvent e o k).mem = s.mem := rfl
@[simp] theorem State.offerEvent_outPipe (e : CountEvent) (o : Option (Fin 8)) (k : Nat) : (s.offerEvent e o k).outPipe = s.outPipe := rfl
@[simp] theorem State.offerEvent_outLinks (e : CountEvent) (o : Option (Fin 8)) (k : Nat) : (s.offerEvent e o k).outLinks = s.outLinks := rfl
@[simp] theorem State.offerEvent_ref (e : CountEvent) (o : Option (Fin 8)) (k : Nat) : (s.offerEvent e o k).ref = s.ref := rfl
@[simp] theorem State.offerEvent_groups (e : CountEvent) (o : Option (Fin 8)) (k : Nat) : (s.offerEvent e o k).groups = s.groups := rfl
@[simp] theorem State.offerEvent_snaps (e : CountEvent) (o : Option (Fin 8)) (k : Nat) : (s.offerEvent e o k).snaps = s.snaps := rfl
@[simp] theorem State.offerEvent_sources (e : CountEvent) (o : Option (Fin 8)) (k : Nat) : (s.offerEvent e o k).sources = s.sources := rfl
@[simp] theorem State.offerEvent_threshold (e : CountEvent) (o : Option (Fin 8)) (k : Nat) : (s.offerEvent e o k).threshold = s.threshold := rfl
@[simp] theorem State.offerEvent_attn (e : CountEvent) (o : Option (Fin 8)) (k : Nat) : (s.offerEvent e o k).attn = s.attn := rfl
@[simp] theorem State.offerEvent_contacts (e : CountEvent) (o : Option (Fin 8)) (k : Nat) : (s.offerEvent e o k).contacts = s.contacts := rfl
@[simp] theorem State.offerEvent_port (e : CountEvent) (o : Option (Fin 8)) (k : Nat) : (s.offerEvent e o k).port = s.port := rfl
@[simp] theorem State.offerEvent_startUp (e : CountEvent) (o : Option (Fin 8)) (k : Nat) : (s.offerEvent e o k).startUp = s.startUp := rfl
@[simp] theorem State.offerEvent_ahead (e : CountEvent) (o : Option (Fin 8)) (k : Nat) : (s.offerEvent e o k).ahead = s.ahead := rfl
@[simp] theorem State.offerEvent_pending (e : CountEvent) (o : Option (Fin 8)) (k : Nat) : (s.offerEvent e o k).pending = s.pending := rfl

/-! ### State.taking -/

@[simp] theorem State.taking_links (r : Request) : (s.taking r).links = s.links := rfl
@[simp] theorem State.taking_routes (r : Request) : (s.taking r).routes = s.routes := rfl
@[simp] theorem State.taking_feeds (r : Request) : (s.taking r).feeds = s.feeds := rfl
@[simp] theorem State.taking_progs (r : Request) : (s.taking r).progs = s.progs := rfl
@[simp] theorem State.taking_freeList (r : Request) : (s.taking r).freeList = s.freeList := rfl
@[simp] theorem State.taking_mem (r : Request) : (s.taking r).mem = s.mem := rfl
@[simp] theorem State.taking_outPipe (r : Request) : (s.taking r).outPipe = s.outPipe := rfl
@[simp] theorem State.taking_outLinks (r : Request) : (s.taking r).outLinks = s.outLinks := rfl
@[simp] theorem State.taking_ref (r : Request) : (s.taking r).ref = s.ref := rfl
@[simp] theorem State.taking_groups (r : Request) : (s.taking r).groups = s.groups := rfl
@[simp] theorem State.taking_snaps (r : Request) : (s.taking r).snaps = s.snaps := rfl
@[simp] theorem State.taking_sources (r : Request) : (s.taking r).sources = s.sources := rfl
@[simp] theorem State.taking_threshold (r : Request) : (s.taking r).threshold = s.threshold := rfl
@[simp] theorem State.taking_attn (r : Request) : (s.taking r).attn = s.attn := rfl
@[simp] theorem State.taking_contacts (r : Request) : (s.taking r).contacts = s.contacts := rfl
@[simp] theorem State.taking_counters (r : Request) : (s.taking r).counters = s.counters := rfl
@[simp] theorem State.taking_startUp (r : Request) : (s.taking r).startUp = s.startUp := rfl
@[simp] theorem State.taking_ahead (r : Request) : (s.taking r).ahead = s.ahead := rfl
@[simp] theorem State.taking_pending (r : Request) : (s.taking r).pending = s.pending := rfl

/-! ### State.answered -/

@[simp] theorem State.answered_links (r : Request) (st : Status) (b : List Byte) : (s.answered r st b).links = s.links := rfl
@[simp] theorem State.answered_routes (r : Request) (st : Status) (b : List Byte) : (s.answered r st b).routes = s.routes := rfl
@[simp] theorem State.answered_feeds (r : Request) (st : Status) (b : List Byte) : (s.answered r st b).feeds = s.feeds := rfl
@[simp] theorem State.answered_progs (r : Request) (st : Status) (b : List Byte) : (s.answered r st b).progs = s.progs := rfl
@[simp] theorem State.answered_freeList (r : Request) (st : Status) (b : List Byte) : (s.answered r st b).freeList = s.freeList := rfl
@[simp] theorem State.answered_mem (r : Request) (st : Status) (b : List Byte) : (s.answered r st b).mem = s.mem := rfl
@[simp] theorem State.answered_outPipe (r : Request) (st : Status) (b : List Byte) : (s.answered r st b).outPipe = s.outPipe := rfl
@[simp] theorem State.answered_outLinks (r : Request) (st : Status) (b : List Byte) : (s.answered r st b).outLinks = s.outLinks := rfl
@[simp] theorem State.answered_ref (r : Request) (st : Status) (b : List Byte) : (s.answered r st b).ref = s.ref := rfl
@[simp] theorem State.answered_groups (r : Request) (st : Status) (b : List Byte) : (s.answered r st b).groups = s.groups := rfl
@[simp] theorem State.answered_snaps (r : Request) (st : Status) (b : List Byte) : (s.answered r st b).snaps = s.snaps := rfl
@[simp] theorem State.answered_sources (r : Request) (st : Status) (b : List Byte) : (s.answered r st b).sources = s.sources := rfl
@[simp] theorem State.answered_threshold (r : Request) (st : Status) (b : List Byte) : (s.answered r st b).threshold = s.threshold := rfl
@[simp] theorem State.answered_attn (r : Request) (st : Status) (b : List Byte) : (s.answered r st b).attn = s.attn := rfl
@[simp] theorem State.answered_contacts (r : Request) (st : Status) (b : List Byte) : (s.answered r st b).contacts = s.contacts := rfl
@[simp] theorem State.answered_counters (r : Request) (st : Status) (b : List Byte) : (s.answered r st b).counters = s.counters := rfl
@[simp] theorem State.answered_startUp (r : Request) (st : Status) (b : List Byte) : (s.answered r st b).startUp = s.startUp := rfl
@[simp] theorem State.answered_ahead (r : Request) (st : Status) (b : List Byte) : (s.answered r st b).ahead = s.ahead := rfl
@[simp] theorem State.answered_pending (r : Request) (st : Status) (b : List Byte) : (s.answered r st b).pending = s.pending := rfl

/-! ### Reading what was written -/

@[simp] theorem State.link_setLink (l : Fin 8) (x : Link) : (s.setLink l x).link l = x := by simp [State.link, State.setLink]
@[simp] theorem State.prog_setProg (p : Fin 8) (x : Programme) : (s.setProg p x).prog p = x := by
  simp [State.prog, State.setProg]
@[simp] theorem State.group_setGroup (g : Fin 4) (x : CueGroup) : (s.setGroup g x).group g = x := by
  simp [State.group, State.setGroup]
@[simp] theorem State.snap_setSnap (g : Fin 4) (x : SnapEntry) : (s.setSnap g x).snap g = x := by
  simp [State.snap, State.setSnap]
@[simp] theorem State.source_setSource (n : Fin 59) (x : Source) : (s.setSource n x).source n = x := by
  simp [State.source, State.setSource, State.judge]
@[simp] theorem State.contact_setContact (c : Fin 4) (x : Contact) : (s.setContact c x).contact c = x := by
  simp [State.contact, State.setContact]
@[simp] theorem State.counter_setCounter (c : Fin 8) (x : Counter) : (s.setCounter c x).counter c = x := by
  simp [State.counter, State.setCounter]
@[simp] theorem State.route_setRoute (n : Fin 32) (x : Route) : (s.setRoute n x).route n = x := by
  simp [State.route, State.setRoute]

theorem State.link_setLink_ne {k l : Fin 8} (h : k ≠ l) (x : Link) : (s.setLink l x).link k = s.link k := by
  have : l.val ≠ k.val := fun e => h (Fin.ext e.symm)
  simp [State.link, State.setLink, this]
theorem State.prog_setProg_ne {q p : Fin 8} (h : q ≠ p) (x : Programme) : (s.setProg p x).prog q = s.prog q := by
  have : p.val ≠ q.val := fun e => h (Fin.ext e.symm)
  simp [State.prog, State.setProg, this]
theorem State.group_setGroup_ne {k g : Fin 4} (h : k ≠ g) (x : CueGroup) : (s.setGroup g x).group k = s.group k := by
  have : g.val ≠ k.val := fun e => h (Fin.ext e.symm)
  simp [State.group, State.setGroup, this]
theorem State.snap_setSnap_ne {k g : Fin 4} (h : k ≠ g) (x : SnapEntry) : (s.setSnap g x).snap k = s.snap k := by
  have : g.val ≠ k.val := fun e => h (Fin.ext e.symm)
  simp [State.snap, State.setSnap, this]
theorem State.source_setSource_ne {m n : Fin 59} (h : m ≠ n) (x : Source) : (s.setSource n x).source m = s.source m := by
  have : n.val ≠ m.val := fun e => h (Fin.ext e.symm)
  simp [State.source, State.setSource, State.judge, this]
theorem State.contact_setContact_ne {k c : Fin 4} (h : k ≠ c) (x : Contact) : (s.setContact c x).contact k = s.contact k := by
  have : c.val ≠ k.val := fun e => h (Fin.ext e.symm)
  simp [State.contact, State.setContact, this]
theorem State.counter_setCounter_ne {k c : Fin 8} (h : k ≠ c) (x : Counter) : (s.setCounter c x).counter k = s.counter k := by
  have : c.val ≠ k.val := fun e => h (Fin.ext e.symm)
  simp [State.counter, State.setCounter, this]
theorem State.route_setRoute_ne {k n : Fin 32} (h : k ≠ n) (x : Route) : (s.setRoute n x).route k = s.route k := by
  have : n.val ≠ k.val := fun e => h (Fin.ext e.symm)
  simp [State.route, State.setRoute, this]

/-! ### Accessors follow their field -/

theorem State.link_congr {s t : State} (h : s.links = t.links) (l : Fin 8) : s.link l = t.link l := by simp [State.link, h]
theorem State.prog_congr {s t : State} (h : s.progs = t.progs) (p : Fin 8) : s.prog p = t.prog p := by simp [State.prog, h]
theorem State.group_congr {s t : State} (h : s.groups = t.groups) (g : Fin 4) : s.group g = t.group g := by
  simp [State.group, h]
theorem State.source_congr {s t : State} (h : s.sources = t.sources) (n : Fin 59) : s.source n = t.source n := by
  simp [State.source, h]
theorem State.contact_congr {s t : State} (h : s.contacts = t.contacts) (c : Fin 4) : s.contact c = t.contact c := by
  simp [State.contact, h]
theorem State.counter_congr {s t : State} (h : s.counters = t.counters) (c : Fin 8) : s.counter c = t.counter c := by
  simp [State.counter, h]

/-! ### Frames -/

theorem sameBut_refl (ps : List Part) : s.sameBut ps s := fun q _ => by cases q <;> rfl

theorem sameBut_trans {ps : List Part} {s t u : State} (h : s.sameBut ps t) (k : t.sameBut ps u) : s.sameBut ps u := by
  intro q hq
  have a := h q hq
  have b := k q hq
  cases q <;> exact Eq.trans a b

theorem sameBut_mono {ps qs : List Part} {s t : State} (h : s.sameBut ps t) (hs : ∀ q ∈ ps, q ∈ qs) : s.sameBut qs t :=
  fun q hq => h q (fun hp => hq (hs q hp))

end Sys2Proof.Machine
end

