-- ==== Sys2Proof/Laws/Events.lean ====
section
/-! SUPPORT. What events can do: the sources, ATTN, the contacts and the counters, and nothing else (R145, R175). -/

namespace Sys2Proof.Machine

variable (s : State)

theorem setSource_sameBut (n : Fin 59) (x : Source) : s.sameBut eventParts (s.setSource n x) := by
  intro q hq; cases q <;> first | rfl | (exact absurd (by decide) hq)

theorem offerEvent_sameBut (e : CountEvent) (o : Option (Fin 8)) (k : Nat) : s.sameBut eventParts (s.offerEvent e o k) := by
  intro q hq; cases q <;> first | rfl | (exact absurd (by decide) hq)

theorem latchFlags_sameBut (n : Fin 59) : s.sameBut eventParts (s.latchFlags n) := setSource_sameBut s n _

theorem latchCounter_sameBut (k : Nat) : s.sameBut eventParts (State.latchCounter k s) := by
  induction k generalizing s with
  | zero => exact sameBut_refl _ _
  | succ k ih => exact sameBut_trans (latchFlags_sameBut s _) (ih _)

theorem countRaises_sameBut (fuel k : Nat) : s.sameBut eventParts (countRaises fuel k s) := by
  induction fuel generalizing k s with
  | zero => exact sameBut_refl _ _
  | succ fuel ih =>
    cases k with
    | zero => exact sameBut_refl _ _
    | succ k => exact sameBut_trans (sameBut_trans (offerEvent_sameBut s _ _ _) (latchCounter_sameBut _ _)) (ih _ _)

theorem latch_sameBut (n : Fin 59) : s.sameBut eventParts (s.latch n) :=
  sameBut_trans (latchFlags_sameBut s n) (countRaises_sameBut _ _ _)

theorem count_sameBut (e : CountEvent) (o : Option (Fin 8)) (k : Nat) : s.sameBut eventParts (s.count e o k) :=
  sameBut_trans (sameBut_trans (offerEvent_sameBut s e o k) (latchCounter_sameBut _ _)) (countRaises_sameBut _ _ _)

theorem qualify_sameBut (n : Fin 59) : s.sameBut eventParts (s.qualify n) :=
  sameBut_trans (setSource_sameBut s n _) (countRaises_sameBut _ _ _)

theorem loseQualification_sameBut (n : Fin 59) : s.sameBut eventParts (s.loseQualification n) := setSource_sameBut s n _

theorem report_sameBut (n : Fin 59) (v : Bool) : s.sameBut eventParts (s.report n v) := by
  unfold State.report
  dsimp only
  split
  · exact sameBut_refl _ _
  · split
    · split
      · exact sameBut_trans (setSource_sameBut s n _) (qualify_sameBut _ n)
      · exact setSource_sameBut s n _
    · split
      · exact sameBut_trans (setSource_sameBut s n _) (loseQualification_sameBut _ n)
      · exact setSource_sameBut s n _

theorem timerStep_sameBut (n : Fin 59) : s.sameBut eventParts (s.timerStep n) := by
  unfold State.timerStep
  dsimp only
  split
  · exact sameBut_refl _ _
  · split
    · exact qualify_sameBut s n
    · split
      · exact loseQualification_sameBut s n
      · exact setSource_sameBut s n _

theorem storeSettings_sameBut (n : Fin 59) (x : Source) : s.sameBut eventParts (s.storeSettings n x) := by
  unfold State.storeSettings
  split
  · exact sameBut_trans (setSource_sameBut s n _) (countRaises_sameBut _ _ _)
  · split <;> exact setSource_sameBut s n _

theorem closeSource_sameBut (n : Fin 59) : s.sameBut eventParts (s.closeSource n) := setSource_sameBut s n _

/-- A fold of steps that each keep a frame keeps it. -/
theorem foldl_sameBut {α : Type} (ps : List Part) (f : State → α → State) (hf : ∀ (t : State) a, t.sameBut ps (f t a)) (xs : List α) :
    s.sameBut ps (xs.foldl f s) := by
  induction xs generalizing s with
  | nil => exact sameBut_refl _ _
  | cons a t ih => exact sameBut_trans (hf s a) (ih _)

theorem forEach_sameBut {n : Nat} (ps : List Part) (f : Fin n → State → State) (hf : ∀ i (t : State), t.sameBut ps (f i t)) :
    s.sameBut ps (forEach n f s) := foldl_sameBut s ps _ (fun t i => hf i t) _

/-- What holds at the start and is kept by every step of a `forEach` holds at its end. -/
theorem forEach_induct {n : Nat} (q : State → Prop) (f : Fin n → State → State) (hs : q s) (hf : ∀ i t, q t → q (f i t)) :
    q (forEach n f s) := by
  unfold forEach
  generalize List.finRange n = xs
  induction xs generalizing s with
  | nil => exact hs
  | cons a t ih => exact ih _ (hf a s hs)

theorem slipEvents_sameBut (l : Fin 8) : s.sameBut eventParts (s.slipEvents l) :=
  sameBut_trans (count_sameBut s _ _ _) (latch_sameBut _ _)

theorem moveEvents_sameBut (p : Fin 8) (o : MoveOutcome) : s.sameBut eventParts (s.moveEvents p o) := by
  unfold State.moveEvents
  dsimp only
  split
  · exact count_sameBut s _ _ _
  · exact sameBut_trans (count_sameBut s _ _ _) (latch_sameBut _ _)

theorem acceptanceEvents_sameBut (l : Fin 8) (t : Taken) : s.sameBut eventParts (s.acceptanceEvents l t) := by
  unfold State.acceptanceEvents
  have hs : s.sameBut eventParts (if t.substituted then s.count .frameSubst (some l) 1 else s) := by
    split
    · exact count_sameBut s _ _ _
    · exact sameBut_refl _ _
  dsimp only
  split
  · exact hs
  · exact sameBut_trans hs (foldl_sameBut _ _ _ (fun u _ => count_sameBut u _ _ _) _)

theorem meterEvents_sameBut (p : Fin 8) (set : LoudSettings) (r : BlockResult) :
    s.sameBut eventParts (s.meterEvents p set r) := by
  unfold State.meterEvents
  have h := sameBut_trans (sameBut_trans (report_sameBut s (silenceSource p) (decide (r.m < set.silence)))
    (report_sameBut _ (loudHighSource p) (r.freeze == .none && decide (set.target + set.upper < r.s))))
    (report_sameBut _ (loudLowSource p) (r.freeze == .none && decide (r.s < set.target - set.lower)))
  dsimp only
  split
  · exact sameBut_trans h (latch_sameBut _ _)
  · exact h

theorem reportFrameRef_sameBut : s.sameBut eventParts s.reportFrameRef := report_sameBut s _ _

/-! ### The same, one lemma per field -/

@[simp] theorem State.latchFlags_links (n : Fin 59) : (s.latchFlags n).links = s.links := (latchFlags_sameBut s n .links (by decide)).symm
@[simp] theorem State.latchFlags_routes (n : Fin 59) : (s.latchFlags n).routes = s.routes := (latchFlags_sameBut s n .routes (by decide)).symm
@[simp] theorem State.latchFlags_feeds (n : Fin 59) : (s.latchFlags n).feeds = s.feeds := (latchFlags_sameBut s n .feeds (by decide)).symm
@[simp] theorem State.latchFlags_progs (n : Fin 59) : (s.latchFlags n).progs = s.progs := (latchFlags_sameBut s n .progs (by decide)).symm
@[simp] theorem State.latchFlags_freeList (n : Fin 59) : (s.latchFlags n).freeList = s.freeList := (latchFlags_sameBut s n .freeList (by decide)).symm
@[simp] theorem State.latchFlags_mem (n : Fin 59) : (s.latchFlags n).mem = s.mem := (latchFlags_sameBut s n .mem (by decide)).symm
@[simp] theorem State.latchFlags_outPipe (n : Fin 59) : (s.latchFlags n).outPipe = s.outPipe := (latchFlags_sameBut s n .outPipe (by decide)).symm
@[simp] theorem State.latchFlags_outLinks (n : Fin 59) : (s.latchFlags n).outLinks = s.outLinks := (latchFlags_sameBut s n .outLinks (by decide)).symm
@[simp] theorem State.latchFlags_ref (n : Fin 59) : (s.latchFlags n).ref = s.ref := (latchFlags_sameBut s n .ref (by decide)).symm
@[simp] theorem State.latchFlags_groups (n : Fin 59) : (s.latchFlags n).groups = s.groups := (latchFlags_sameBut s n .groups (by decide)).symm
@[simp] theorem State.latchFlags_snaps (n : Fin 59) : (s.latchFlags n).snaps = s.snaps := (latchFlags_sameBut s n .snaps (by decide)).symm
@[simp] theorem State.latchFlags_threshold (n : Fin 59) : (s.latchFlags n).threshold = s.threshold := (latchFlags_sameBut s n .threshold (by decide)).symm
@[simp] theorem State.latchFlags_port (n : Fin 59) : (s.latchFlags n).port = s.port := (latchFlags_sameBut s n .port (by decide)).symm
@[simp] theorem State.latchFlags_startUp (n : Fin 59) : (s.latchFlags n).startUp = s.startUp := (latchFlags_sameBut s n .startUp (by decide)).symm
@[simp] theorem State.latchFlags_ahead (n : Fin 59) : (s.latchFlags n).ahead = s.ahead := (latchFlags_sameBut s n .ahead (by decide)).symm
@[simp] theorem State.latchFlags_pending (n : Fin 59) : (s.latchFlags n).pending = s.pending := (latchFlags_sameBut s n .pending (by decide)).symm

@[simp] theorem State.latch_links (n : Fin 59) : (s.latch n).links = s.links := (latch_sameBut s n .links (by decide)).symm
@[simp] theorem State.latch_routes (n : Fin 59) : (s.latch n).routes = s.routes := (latch_sameBut s n .routes (by decide)).symm
@[simp] theorem State.latch_feeds (n : Fin 59) : (s.latch n).feeds = s.feeds := (latch_sameBut s n .feeds (by decide)).symm
@[simp] theorem State.latch_progs (n : Fin 59) : (s.latch n).progs = s.progs := (latch_sameBut s n .progs (by decide)).symm
@[simp] theorem State.latch_freeList (n : Fin 59) : (s.latch n).freeList = s.freeList := (latch_sameBut s n .freeList (by decide)).symm
@[simp] theorem State.latch_mem (n : Fin 59) : (s.latch n).mem = s.mem := (latch_sameBut s n .mem (by decide)).symm
@[simp] theorem State.latch_outPipe (n : Fin 59) : (s.latch n).outPipe = s.outPipe := (latch_sameBut s n .outPipe (by decide)).symm
@[simp] theorem State.latch_outLinks (n : Fin 59) : (s.latch n).outLinks = s.outLinks := (latch_sameBut s n .outLinks (by decide)).symm
@[simp] theorem State.latch_ref (n : Fin 59) : (s.latch n).ref = s.ref := (latch_sameBut s n .ref (by decide)).symm
@[simp] theorem State.latch_groups (n : Fin 59) : (s.latch n).groups = s.groups := (latch_sameBut s n .groups (by decide)).symm
@[simp] theorem State.latch_snaps (n : Fin 59) : (s.latch n).snaps = s.snaps := (latch_sameBut s n .snaps (by decide)).symm
@[simp] theorem State.latch_threshold (n : Fin 59) : (s.latch n).threshold = s.threshold := (latch_sameBut s n .threshold (by decide)).symm
@[simp] theorem State.latch_port (n : Fin 59) : (s.latch n).port = s.port := (latch_sameBut s n .port (by decide)).symm
@[simp] theorem State.latch_startUp (n : Fin 59) : (s.latch n).startUp = s.startUp := (latch_sameBut s n .startUp (by decide)).symm
@[simp] theorem State.latch_ahead (n : Fin 59) : (s.latch n).ahead = s.ahead := (latch_sameBut s n .ahead (by decide)).symm
@[simp] theorem State.latch_pending (n : Fin 59) : (s.latch n).pending = s.pending := (latch_sameBut s n .pending (by decide)).symm

@[simp] theorem State.count_links (e : CountEvent) (o : Option (Fin 8)) (k : Nat) : (s.count e o k).links = s.links := (count_sameBut s e o k .links (by decide)).symm
@[simp] theorem State.count_routes (e : CountEvent) (o : Option (Fin 8)) (k : Nat) : (s.count e o k).routes = s.routes := (count_sameBut s e o k .routes (by decide)).symm
@[simp] theorem State.count_feeds (e : CountEvent) (o : Option (Fin 8)) (k : Nat) : (s.count e o k).feeds = s.feeds := (count_sameBut s e o k .feeds (by decide)).symm
@[simp] theorem State.count_progs (e : CountEvent) (o : Option (Fin 8)) (k : Nat) : (s.count e o k).progs = s.progs := (count_sameBut s e o k .progs (by decide)).symm
@[simp] theorem State.count_freeList (e : CountEvent) (o : Option (Fin 8)) (k : Nat) : (s.count e o k).freeList = s.freeList := (count_sameBut s e o k .freeList (by decide)).symm
@[simp] theorem State.count_mem (e : CountEvent) (o : Option (Fin 8)) (k : Nat) : (s.count e o k).mem = s.mem := (count_sameBut s e o k .mem (by decide)).symm
@[simp] theorem State.count_outPipe (e : CountEvent) (o : Option (Fin 8)) (k : Nat) : (s.count e o k).outPipe = s.outPipe := (count_sameBut s e o k .outPipe (by decide)).symm
@[simp] theorem State.count_outLinks (e : CountEvent) (o : Option (Fin 8)) (k : Nat) : (s.count e o k).outLinks = s.outLinks := (count_sameBut s e o k .outLinks (by decide)).symm
@[simp] theorem State.count_ref (e : CountEvent) (o : Option (Fin 8)) (k : Nat) : (s.count e o k).ref = s.ref := (count_sameBut s e o k .ref (by decide)).symm
@[simp] theorem State.count_groups (e : CountEvent) (o : Option (Fin 8)) (k : Nat) : (s.count e o k).groups = s.groups := (count_sameBut s e o k .groups (by decide)).symm
@[simp] theorem State.count_snaps (e : CountEvent) (o : Option (Fin 8)) (k : Nat) : (s.count e o k).snaps = s.snaps := (count_sameBut s e o k .snaps (by decide)).symm
@[simp] theorem State.count_threshold (e : CountEvent) (o : Option (Fin 8)) (k : Nat) : (s.count e o k).threshold = s.threshold := (count_sameBut s e o k .threshold (by decide)).symm
@[simp] theorem State.count_port (e : CountEvent) (o : Option (Fin 8)) (k : Nat) : (s.count e o k).port = s.port := (count_sameBut s e o k .port (by decide)).symm
@[simp] theorem State.count_startUp (e : CountEvent) (o : Option (Fin 8)) (k : Nat) : (s.count e o k).startUp = s.startUp := (count_sameBut s e o k .startUp (by decide)).symm
@[simp] theorem State.count_ahead (e : CountEvent) (o : Option (Fin 8)) (k : Nat) : (s.count e o k).ahead = s.ahead := (count_sameBut s e o k .ahead (by decide)).symm
@[simp] theorem State.count_pending (e : CountEvent) (o : Option (Fin 8)) (k : Nat) : (s.count e o k).pending = s.pending := (count_sameBut s e o k .pending (by decide)).symm

@[simp] theorem State.qualify_links (n : Fin 59) : (s.qualify n).links = s.links := (qualify_sameBut s n .links (by decide)).symm
@[simp] theorem State.qualify_routes (n : Fin 59) : (s.qualify n).routes = s.routes := (qualify_sameBut s n .routes (by decide)).symm
@[simp] theorem State.qualify_feeds (n : Fin 59) : (s.qualify n).feeds = s.feeds := (qualify_sameBut s n .feeds (by decide)).symm
@[simp] theorem State.qualify_progs (n : Fin 59) : (s.qualify n).progs = s.progs := (qualify_sameBut s n .progs (by decide)).symm
@[simp] theorem State.qualify_freeList (n : Fin 59) : (s.qualify n).freeList = s.freeList := (qualify_sameBut s n .freeList (by decide)).symm
@[simp] theorem State.qualify_mem (n : Fin 59) : (s.qualify n).mem = s.mem := (qualify_sameBut s n .mem (by decide)).symm
@[simp] theorem State.qualify_outPipe (n : Fin 59) : (s.qualify n).outPipe = s.outPipe := (qualify_sameBut s n .outPipe (by decide)).symm
@[simp] theorem State.qualify_outLinks (n : Fin 59) : (s.qualify n).outLinks = s.outLinks := (qualify_sameBut s n .outLinks (by decide)).symm
@[simp] theorem State.qualify_ref (n : Fin 59) : (s.qualify n).ref = s.ref := (qualify_sameBut s n .ref (by decide)).symm
@[simp] theorem State.qualify_groups (n : Fin 59) : (s.qualify n).groups = s.groups := (qualify_sameBut s n .groups (by decide)).symm
@[simp] theorem State.qualify_snaps (n : Fin 59) : (s.qualify n).snaps = s.snaps := (qualify_sameBut s n .snaps (by decide)).symm
@[simp] theorem State.qualify_threshold (n : Fin 59) : (s.qualify n).threshold = s.threshold := (qualify_sameBut s n .threshold (by decide)).symm
@[simp] theorem State.qualify_port (n : Fin 59) : (s.qualify n).port = s.port := (qualify_sameBut s n .port (by decide)).symm
@[simp] theorem State.qualify_startUp (n : Fin 59) : (s.qualify n).startUp = s.startUp := (qualify_sameBut s n .startUp (by decide)).symm
@[simp] theorem State.qualify_ahead (n : Fin 59) : (s.qualify n).ahead = s.ahead := (qualify_sameBut s n .ahead (by decide)).symm
@[simp] theorem State.qualify_pending (n : Fin 59) : (s.qualify n).pending = s.pending := (qualify_sameBut s n .pending (by decide)).symm

@[simp] theorem State.loseQualification_links (n : Fin 59) : (s.loseQualification n).links = s.links := (loseQualification_sameBut s n .links (by decide)).symm
@[simp] theorem State.loseQualification_routes (n : Fin 59) : (s.loseQualification n).routes = s.routes := (loseQualification_sameBut s n .routes (by decide)).symm
@[simp] theorem State.loseQualification_feeds (n : Fin 59) : (s.loseQualification n).feeds = s.feeds := (loseQualification_sameBut s n .feeds (by decide)).symm
@[simp] theorem State.loseQualification_progs (n : Fin 59) : (s.loseQualification n).progs = s.progs := (loseQualification_sameBut s n .progs (by decide)).symm
@[simp] theorem State.loseQualification_freeList (n : Fin 59) : (s.loseQualification n).freeList = s.freeList := (loseQualification_sameBut s n .freeList (by decide)).symm
@[simp] theorem State.loseQualification_mem (n : Fin 59) : (s.loseQualification n).mem = s.mem := (loseQualification_sameBut s n .mem (by decide)).symm
@[simp] theorem State.loseQualification_outPipe (n : Fin 59) : (s.loseQualification n).outPipe = s.outPipe := (loseQualification_sameBut s n .outPipe (by decide)).symm
@[simp] theorem State.loseQualification_outLinks (n : Fin 59) : (s.loseQualification n).outLinks = s.outLinks := (loseQualification_sameBut s n .outLinks (by decide)).symm
@[simp] theorem State.loseQualification_ref (n : Fin 59) : (s.loseQualification n).ref = s.ref := (loseQualification_sameBut s n .ref (by decide)).symm
@[simp] theorem State.loseQualification_groups (n : Fin 59) : (s.loseQualification n).groups = s.groups := (loseQualification_sameBut s n .groups (by decide)).symm
@[simp] theorem State.loseQualification_snaps (n : Fin 59) : (s.loseQualification n).snaps = s.snaps := (loseQualification_sameBut s n .snaps (by decide)).symm
@[simp] theorem State.loseQualification_threshold (n : Fin 59) : (s.loseQualification n).threshold = s.threshold := (loseQualification_sameBut s n .threshold (by decide)).symm
@[simp] theorem State.loseQualification_port (n : Fin 59) : (s.loseQualification n).port = s.port := (loseQualification_sameBut s n .port (by decide)).symm
@[simp] theorem State.loseQualification_startUp (n : Fin 59) : (s.loseQualification n).startUp = s.startUp := (loseQualification_sameBut s n .startUp (by decide)).symm
@[simp] theorem State.loseQualification_ahead (n : Fin 59) : (s.loseQualification n).ahead = s.ahead := (loseQualification_sameBut s n .ahead (by decide)).symm
@[simp] theorem State.loseQualification_pending (n : Fin 59) : (s.loseQualification n).pending = s.pending := (loseQualification_sameBut s n .pending (by decide)).symm

@[simp] theorem State.report_links (n : Fin 59) (v : Bool) : (s.report n v).links = s.links := (report_sameBut s n v .links (by decide)).symm
@[simp] theorem State.report_routes (n : Fin 59) (v : Bool) : (s.report n v).routes = s.routes := (report_sameBut s n v .routes (by decide)).symm
@[simp] theorem State.report_feeds (n : Fin 59) (v : Bool) : (s.report n v).feeds = s.feeds := (report_sameBut s n v .feeds (by decide)).symm
@[simp] theorem State.report_progs (n : Fin 59) (v : Bool) : (s.report n v).progs = s.progs := (report_sameBut s n v .progs (by decide)).symm
@[simp] theorem State.report_freeList (n : Fin 59) (v : Bool) : (s.report n v).freeList = s.freeList := (report_sameBut s n v .freeList (by decide)).symm
@[simp] theorem State.report_mem (n : Fin 59) (v : Bool) : (s.report n v).mem = s.mem := (report_sameBut s n v .mem (by decide)).symm
@[simp] theorem State.report_outPipe (n : Fin 59) (v : Bool) : (s.report n v).outPipe = s.outPipe := (report_sameBut s n v .outPipe (by decide)).symm
@[simp] theorem State.report_outLinks (n : Fin 59) (v : Bool) : (s.report n v).outLinks = s.outLinks := (report_sameBut s n v .outLinks (by decide)).symm
@[simp] theorem State.report_ref (n : Fin 59) (v : Bool) : (s.report n v).ref = s.ref := (report_sameBut s n v .ref (by decide)).symm
@[simp] theorem State.report_groups (n : Fin 59) (v : Bool) : (s.report n v).groups = s.groups := (report_sameBut s n v .groups (by decide)).symm
@[simp] theorem State.report_snaps (n : Fin 59) (v : Bool) : (s.report n v).snaps = s.snaps := (report_sameBut s n v .snaps (by decide)).symm
@[simp] theorem State.report_threshold (n : Fin 59) (v : Bool) : (s.report n v).threshold = s.threshold := (report_sameBut s n v .threshold (by decide)).symm
@[simp] theorem State.report_port (n : Fin 59) (v : Bool) : (s.report n v).port = s.port := (report_sameBut s n v .port (by decide)).symm
@[simp] theorem State.report_startUp (n : Fin 59) (v : Bool) : (s.report n v).startUp = s.startUp := (report_sameBut s n v .startUp (by decide)).symm
@[simp] theorem State.report_ahead (n : Fin 59) (v : Bool) : (s.report n v).ahead = s.ahead := (report_sameBut s n v .ahead (by decide)).symm
@[simp] theorem State.report_pending (n : Fin 59) (v : Bool) : (s.report n v).pending = s.pending := (report_sameBut s n v .pending (by decide)).symm

@[simp] theorem State.timerStep_links (n : Fin 59) : (s.timerStep n).links = s.links := (timerStep_sameBut s n .links (by decide)).symm
@[simp] theorem State.timerStep_routes (n : Fin 59) : (s.timerStep n).routes = s.routes := (timerStep_sameBut s n .routes (by decide)).symm
@[simp] theorem State.timerStep_feeds (n : Fin 59) : (s.timerStep n).feeds = s.feeds := (timerStep_sameBut s n .feeds (by decide)).symm
@[simp] theorem State.timerStep_progs (n : Fin 59) : (s.timerStep n).progs = s.progs := (timerStep_sameBut s n .progs (by decide)).symm
@[simp] theorem State.timerStep_freeList (n : Fin 59) : (s.timerStep n).freeList = s.freeList := (timerStep_sameBut s n .freeList (by decide)).symm
@[simp] theorem State.timerStep_mem (n : Fin 59) : (s.timerStep n).mem = s.mem := (timerStep_sameBut s n .mem (by decide)).symm
@[simp] theorem State.timerStep_outPipe (n : Fin 59) : (s.timerStep n).outPipe = s.outPipe := (timerStep_sameBut s n .outPipe (by decide)).symm
@[simp] theorem State.timerStep_outLinks (n : Fin 59) : (s.timerStep n).outLinks = s.outLinks := (timerStep_sameBut s n .outLinks (by decide)).symm
@[simp] theorem State.timerStep_ref (n : Fin 59) : (s.timerStep n).ref = s.ref := (timerStep_sameBut s n .ref (by decide)).symm
@[simp] theorem State.timerStep_groups (n : Fin 59) : (s.timerStep n).groups = s.groups := (timerStep_sameBut s n .groups (by decide)).symm
@[simp] theorem State.timerStep_snaps (n : Fin 59) : (s.timerStep n).snaps = s.snaps := (timerStep_sameBut s n .snaps (by decide)).symm
@[simp] theorem State.timerStep_threshold (n : Fin 59) : (s.timerStep n).threshold = s.threshold := (timerStep_sameBut s n .threshold (by decide)).symm
@[simp] theorem State.timerStep_port (n : Fin 59) : (s.timerStep n).port = s.port := (timerStep_sameBut s n .port (by decide)).symm
@[simp] theorem State.timerStep_startUp (n : Fin 59) : (s.timerStep n).startUp = s.startUp := (timerStep_sameBut s n .startUp (by decide)).symm
@[simp] theorem State.timerStep_ahead (n : Fin 59) : (s.timerStep n).ahead = s.ahead := (timerStep_sameBut s n .ahead (by decide)).symm
@[simp] theorem State.timerStep_pending (n : Fin 59) : (s.timerStep n).pending = s.pending := (timerStep_sameBut s n .pending (by decide)).symm

@[simp] theorem State.storeSettings_links (n : Fin 59) (x : Source) : (s.storeSettings n x).links = s.links := (storeSettings_sameBut s n x .links (by decide)).symm
@[simp] theorem State.storeSettings_routes (n : Fin 59) (x : Source) : (s.storeSettings n x).routes = s.routes := (storeSettings_sameBut s n x .routes (by decide)).symm
@[simp] theorem State.storeSettings_feeds (n : Fin 59) (x : Source) : (s.storeSettings n x).feeds = s.feeds := (storeSettings_sameBut s n x .feeds (by decide)).symm
@[simp] theorem State.storeSettings_progs (n : Fin 59) (x : Source) : (s.storeSettings n x).progs = s.progs := (storeSettings_sameBut s n x .progs (by decide)).symm
@[simp] theorem State.storeSettings_freeList (n : Fin 59) (x : Source) : (s.storeSettings n x).freeList = s.freeList := (storeSettings_sameBut s n x .freeList (by decide)).symm
@[simp] theorem State.storeSettings_mem (n : Fin 59) (x : Source) : (s.storeSettings n x).mem = s.mem := (storeSettings_sameBut s n x .mem (by decide)).symm
@[simp] theorem State.storeSettings_outPipe (n : Fin 59) (x : Source) : (s.storeSettings n x).outPipe = s.outPipe := (storeSettings_sameBut s n x .outPipe (by decide)).symm
@[simp] theorem State.storeSettings_outLinks (n : Fin 59) (x : Source) : (s.storeSettings n x).outLinks = s.outLinks := (storeSettings_sameBut s n x .outLinks (by decide)).symm
@[simp] theorem State.storeSettings_ref (n : Fin 59) (x : Source) : (s.storeSettings n x).ref = s.ref := (storeSettings_sameBut s n x .ref (by decide)).symm
@[simp] theorem State.storeSettings_groups (n : Fin 59) (x : Source) : (s.storeSettings n x).groups = s.groups := (storeSettings_sameBut s n x .groups (by decide)).symm
@[simp] theorem State.storeSettings_snaps (n : Fin 59) (x : Source) : (s.storeSettings n x).snaps = s.snaps := (storeSettings_sameBut s n x .snaps (by decide)).symm
@[simp] theorem State.storeSettings_threshold (n : Fin 59) (x : Source) : (s.storeSettings n x).threshold = s.threshold := (storeSettings_sameBut s n x .threshold (by decide)).symm
@[simp] theorem State.storeSettings_port (n : Fin 59) (x : Source) : (s.storeSettings n x).port = s.port := (storeSettings_sameBut s n x .port (by decide)).symm
@[simp] theorem State.storeSettings_startUp (n : Fin 59) (x : Source) : (s.storeSettings n x).startUp = s.startUp := (storeSettings_sameBut s n x .startUp (by decide)).symm
@[simp] theorem State.storeSettings_ahead (n : Fin 59) (x : Source) : (s.storeSettings n x).ahead = s.ahead := (storeSettings_sameBut s n x .ahead (by decide)).symm
@[simp] theorem State.storeSettings_pending (n : Fin 59) (x : Source) : (s.storeSettings n x).pending = s.pending := (storeSettings_sameBut s n x .pending (by decide)).symm

@[simp] theorem State.closeSource_links (n : Fin 59) : (s.closeSource n).links = s.links := (closeSource_sameBut s n .links (by decide)).symm
@[simp] theorem State.closeSource_routes (n : Fin 59) : (s.closeSource n).routes = s.routes := (closeSource_sameBut s n .routes (by decide)).symm
@[simp] theorem State.closeSource_feeds (n : Fin 59) : (s.closeSource n).feeds = s.feeds := (closeSource_sameBut s n .feeds (by decide)).symm
@[simp] theorem State.closeSource_progs (n : Fin 59) : (s.closeSource n).progs = s.progs := (closeSource_sameBut s n .progs (by decide)).symm
@[simp] theorem State.closeSource_freeList (n : Fin 59) : (s.closeSource n).freeList = s.freeList := (closeSource_sameBut s n .freeList (by decide)).symm
@[simp] theorem State.closeSource_mem (n : Fin 59) : (s.closeSource n).mem = s.mem := (closeSource_sameBut s n .mem (by decide)).symm
@[simp] theorem State.closeSource_outPipe (n : Fin 59) : (s.closeSource n).outPipe = s.outPipe := (closeSource_sameBut s n .outPipe (by decide)).symm
@[simp] theorem State.closeSource_outLinks (n : Fin 59) : (s.closeSource n).outLinks = s.outLinks := (closeSource_sameBut s n .outLinks (by decide)).symm
@[simp] theorem State.closeSource_ref (n : Fin 59) : (s.closeSource n).ref = s.ref := (closeSource_sameBut s n .ref (by decide)).symm
@[simp] theorem State.closeSource_groups (n : Fin 59) : (s.closeSource n).groups = s.groups := (closeSource_sameBut s n .groups (by decide)).symm
@[simp] theorem State.closeSource_snaps (n : Fin 59) : (s.closeSource n).snaps = s.snaps := (closeSource_sameBut s n .snaps (by decide)).symm
@[simp] theorem State.closeSource_threshold (n : Fin 59) : (s.closeSource n).threshold = s.threshold := (closeSource_sameBut s n .threshold (by decide)).symm
@[simp] theorem State.closeSource_port (n : Fin 59) : (s.closeSource n).port = s.port := (closeSource_sameBut s n .port (by decide)).symm
@[simp] theorem State.closeSource_startUp (n : Fin 59) : (s.closeSource n).startUp = s.startUp := (closeSource_sameBut s n .startUp (by decide)).symm
@[simp] theorem State.closeSource_ahead (n : Fin 59) : (s.closeSource n).ahead = s.ahead := (closeSource_sameBut s n .ahead (by decide)).symm
@[simp] theorem State.closeSource_pending (n : Fin 59) : (s.closeSource n).pending = s.pending := (closeSource_sameBut s n .pending (by decide)).symm

@[simp] theorem State.slipEvents_links (l : Fin 8) : (s.slipEvents l).links = s.links := (slipEvents_sameBut s l .links (by decide)).symm
@[simp] theorem State.slipEvents_routes (l : Fin 8) : (s.slipEvents l).routes = s.routes := (slipEvents_sameBut s l .routes (by decide)).symm
@[simp] theorem State.slipEvents_feeds (l : Fin 8) : (s.slipEvents l).feeds = s.feeds := (slipEvents_sameBut s l .feeds (by decide)).symm
@[simp] theorem State.slipEvents_progs (l : Fin 8) : (s.slipEvents l).progs = s.progs := (slipEvents_sameBut s l .progs (by decide)).symm
@[simp] theorem State.slipEvents_freeList (l : Fin 8) : (s.slipEvents l).freeList = s.freeList := (slipEvents_sameBut s l .freeList (by decide)).symm
@[simp] theorem State.slipEvents_mem (l : Fin 8) : (s.slipEvents l).mem = s.mem := (slipEvents_sameBut s l .mem (by decide)).symm
@[simp] theorem State.slipEvents_outPipe (l : Fin 8) : (s.slipEvents l).outPipe = s.outPipe := (slipEvents_sameBut s l .outPipe (by decide)).symm
@[simp] theorem State.slipEvents_outLinks (l : Fin 8) : (s.slipEvents l).outLinks = s.outLinks := (slipEvents_sameBut s l .outLinks (by decide)).symm
@[simp] theorem State.slipEvents_ref (l : Fin 8) : (s.slipEvents l).ref = s.ref := (slipEvents_sameBut s l .ref (by decide)).symm
@[simp] theorem State.slipEvents_groups (l : Fin 8) : (s.slipEvents l).groups = s.groups := (slipEvents_sameBut s l .groups (by decide)).symm
@[simp] theorem State.slipEvents_snaps (l : Fin 8) : (s.slipEvents l).snaps = s.snaps := (slipEvents_sameBut s l .snaps (by decide)).symm
@[simp] theorem State.slipEvents_threshold (l : Fin 8) : (s.slipEvents l).threshold = s.threshold := (slipEvents_sameBut s l .threshold (by decide)).symm
@[simp] theorem State.slipEvents_port (l : Fin 8) : (s.slipEvents l).port = s.port := (slipEvents_sameBut s l .port (by decide)).symm
@[simp] theorem State.slipEvents_startUp (l : Fin 8) : (s.slipEvents l).startUp = s.startUp := (slipEvents_sameBut s l .startUp (by decide)).symm
@[simp] theorem State.slipEvents_ahead (l : Fin 8) : (s.slipEvents l).ahead = s.ahead := (slipEvents_sameBut s l .ahead (by decide)).symm
@[simp] theorem State.slipEvents_pending (l : Fin 8) : (s.slipEvents l).pending = s.pending := (slipEvents_sameBut s l .pending (by decide)).symm

@[simp] theorem State.moveEvents_links (p : Fin 8) (o : MoveOutcome) : (s.moveEvents p o).links = s.links := (moveEvents_sameBut s p o .links (by decide)).symm
@[simp] theorem State.moveEvents_routes (p : Fin 8) (o : MoveOutcome) : (s.moveEvents p o).routes = s.routes := (moveEvents_sameBut s p o .routes (by decide)).symm
@[simp] theorem State.moveEvents_feeds (p : Fin 8) (o : MoveOutcome) : (s.moveEvents p o).feeds = s.feeds := (moveEvents_sameBut s p o .feeds (by decide)).symm
@[simp] theorem State.moveEvents_progs (p : Fin 8) (o : MoveOutcome) : (s.moveEvents p o).progs = s.progs := (moveEvents_sameBut s p o .progs (by decide)).symm
@[simp] theorem State.moveEvents_freeList (p : Fin 8) (o : MoveOutcome) : (s.moveEvents p o).freeList = s.freeList := (moveEvents_sameBut s p o .freeList (by decide)).symm
@[simp] theorem State.moveEvents_mem (p : Fin 8) (o : MoveOutcome) : (s.moveEvents p o).mem = s.mem := (moveEvents_sameBut s p o .mem (by decide)).symm
@[simp] theorem State.moveEvents_outPipe (p : Fin 8) (o : MoveOutcome) : (s.moveEvents p o).outPipe = s.outPipe := (moveEvents_sameBut s p o .outPipe (by decide)).symm
@[simp] theorem State.moveEvents_outLinks (p : Fin 8) (o : MoveOutcome) : (s.moveEvents p o).outLinks = s.outLinks := (moveEvents_sameBut s p o .outLinks (by decide)).symm
@[simp] theorem State.moveEvents_ref (p : Fin 8) (o : MoveOutcome) : (s.moveEvents p o).ref = s.ref := (moveEvents_sameBut s p o .ref (by decide)).symm
@[simp] theorem State.moveEvents_groups (p : Fin 8) (o : MoveOutcome) : (s.moveEvents p o).groups = s.groups := (moveEvents_sameBut s p o .groups (by decide)).symm
@[simp] theorem State.moveEvents_snaps (p : Fin 8) (o : MoveOutcome) : (s.moveEvents p o).snaps = s.snaps := (moveEvents_sameBut s p o .snaps (by decide)).symm
@[simp] theorem State.moveEvents_threshold (p : Fin 8) (o : MoveOutcome) : (s.moveEvents p o).threshold = s.threshold := (moveEvents_sameBut s p o .threshold (by decide)).symm
@[simp] theorem State.moveEvents_port (p : Fin 8) (o : MoveOutcome) : (s.moveEvents p o).port = s.port := (moveEvents_sameBut s p o .port (by decide)).symm
@[simp] theorem State.moveEvents_startUp (p : Fin 8) (o : MoveOutcome) : (s.moveEvents p o).startUp = s.startUp := (moveEvents_sameBut s p o .startUp (by decide)).symm
@[simp] theorem State.moveEvents_ahead (p : Fin 8) (o : MoveOutcome) : (s.moveEvents p o).ahead = s.ahead := (moveEvents_sameBut s p o .ahead (by decide)).symm
@[simp] theorem State.moveEvents_pending (p : Fin 8) (o : MoveOutcome) : (s.moveEvents p o).pending = s.pending := (moveEvents_sameBut s p o .pending (by decide)).symm

@[simp] theorem State.acceptanceEvents_links (l : Fin 8) (t : Taken) : (s.acceptanceEvents l t).links = s.links := (acceptanceEvents_sameBut s l t .links (by decide)).symm
@[simp] theorem State.acceptanceEvents_routes (l : Fin 8) (t : Taken) : (s.acceptanceEvents l t).routes = s.routes := (acceptanceEvents_sameBut s l t .routes (by decide)).symm
@[simp] theorem State.acceptanceEvents_feeds (l : Fin 8) (t : Taken) : (s.acceptanceEvents l t).feeds = s.feeds := (acceptanceEvents_sameBut s l t .feeds (by decide)).symm
@[simp] theorem State.acceptanceEvents_progs (l : Fin 8) (t : Taken) : (s.acceptanceEvents l t).progs = s.progs := (acceptanceEvents_sameBut s l t .progs (by decide)).symm
@[simp] theorem State.acceptanceEvents_freeList (l : Fin 8) (t : Taken) : (s.acceptanceEvents l t).freeList = s.freeList := (acceptanceEvents_sameBut s l t .freeList (by decide)).symm
@[simp] theorem State.acceptanceEvents_mem (l : Fin 8) (t : Taken) : (s.acceptanceEvents l t).mem = s.mem := (acceptanceEvents_sameBut s l t .mem (by decide)).symm
@[simp] theorem State.acceptanceEvents_outPipe (l : Fin 8) (t : Taken) : (s.acceptanceEvents l t).outPipe = s.outPipe := (acceptanceEvents_sameBut s l t .outPipe (by decide)).symm
@[simp] theorem State.acceptanceEvents_outLinks (l : Fin 8) (t : Taken) : (s.acceptanceEvents l t).outLinks = s.outLinks := (acceptanceEvents_sameBut s l t .outLinks (by decide)).symm
@[simp] theorem State.acceptanceEvents_ref (l : Fin 8) (t : Taken) : (s.acceptanceEvents l t).ref = s.ref := (acceptanceEvents_sameBut s l t .ref (by decide)).symm
@[simp] theorem State.acceptanceEvents_groups (l : Fin 8) (t : Taken) : (s.acceptanceEvents l t).groups = s.groups := (acceptanceEvents_sameBut s l t .groups (by decide)).symm
@[simp] theorem State.acceptanceEvents_snaps (l : Fin 8) (t : Taken) : (s.acceptanceEvents l t).snaps = s.snaps := (acceptanceEvents_sameBut s l t .snaps (by decide)).symm
@[simp] theorem State.acceptanceEvents_threshold (l : Fin 8) (t : Taken) : (s.acceptanceEvents l t).threshold = s.threshold := (acceptanceEvents_sameBut s l t .threshold (by decide)).symm
@[simp] theorem State.acceptanceEvents_port (l : Fin 8) (t : Taken) : (s.acceptanceEvents l t).port = s.port := (acceptanceEvents_sameBut s l t .port (by decide)).symm
@[simp] theorem State.acceptanceEvents_startUp (l : Fin 8) (t : Taken) : (s.acceptanceEvents l t).startUp = s.startUp := (acceptanceEvents_sameBut s l t .startUp (by decide)).symm
@[simp] theorem State.acceptanceEvents_ahead (l : Fin 8) (t : Taken) : (s.acceptanceEvents l t).ahead = s.ahead := (acceptanceEvents_sameBut s l t .ahead (by decide)).symm
@[simp] theorem State.acceptanceEvents_pending (l : Fin 8) (t : Taken) : (s.acceptanceEvents l t).pending = s.pending := (acceptanceEvents_sameBut s l t .pending (by decide)).symm

@[simp] theorem State.meterEvents_links (p : Fin 8) (set : LoudSettings) (r : BlockResult) : (s.meterEvents p set r).links = s.links := (meterEvents_sameBut s p set r .links (by decide)).symm
@[simp] theorem State.meterEvents_routes (p : Fin 8) (set : LoudSettings) (r : BlockResult) : (s.meterEvents p set r).routes = s.routes := (meterEvents_sameBut s p set r .routes (by decide)).symm
@[simp] theorem State.meterEvents_feeds (p : Fin 8) (set : LoudSettings) (r : BlockResult) : (s.meterEvents p set r).feeds = s.feeds := (meterEvents_sameBut s p set r .feeds (by decide)).symm
@[simp] theorem State.meterEvents_progs (p : Fin 8) (set : LoudSettings) (r : BlockResult) : (s.meterEvents p set r).progs = s.progs := (meterEvents_sameBut s p set r .progs (by decide)).symm
@[simp] theorem State.meterEvents_freeList (p : Fin 8) (set : LoudSettings) (r : BlockResult) : (s.meterEvents p set r).freeList = s.freeList := (meterEvents_sameBut s p set r .freeList (by decide)).symm
@[simp] theorem State.meterEvents_mem (p : Fin 8) (set : LoudSettings) (r : BlockResult) : (s.meterEvents p set r).mem = s.mem := (meterEvents_sameBut s p set r .mem (by decide)).symm
@[simp] theorem State.meterEvents_outPipe (p : Fin 8) (set : LoudSettings) (r : BlockResult) : (s.meterEvents p set r).outPipe = s.outPipe := (meterEvents_sameBut s p set r .outPipe (by decide)).symm
@[simp] theorem State.meterEvents_outLinks (p : Fin 8) (set : LoudSettings) (r : BlockResult) : (s.meterEvents p set r).outLinks = s.outLinks := (meterEvents_sameBut s p set r .outLinks (by decide)).symm
@[simp] theorem State.meterEvents_ref (p : Fin 8) (set : LoudSettings) (r : BlockResult) : (s.meterEvents p set r).ref = s.ref := (meterEvents_sameBut s p set r .ref (by decide)).symm
@[simp] theorem State.meterEvents_groups (p : Fin 8) (set : LoudSettings) (r : BlockResult) : (s.meterEvents p set r).groups = s.groups := (meterEvents_sameBut s p set r .groups (by decide)).symm
@[simp] theorem State.meterEvents_snaps (p : Fin 8) (set : LoudSettings) (r : BlockResult) : (s.meterEvents p set r).snaps = s.snaps := (meterEvents_sameBut s p set r .snaps (by decide)).symm
@[simp] theorem State.meterEvents_threshold (p : Fin 8) (set : LoudSettings) (r : BlockResult) : (s.meterEvents p set r).threshold = s.threshold := (meterEvents_sameBut s p set r .threshold (by decide)).symm
@[simp] theorem State.meterEvents_port (p : Fin 8) (set : LoudSettings) (r : BlockResult) : (s.meterEvents p set r).port = s.port := (meterEvents_sameBut s p set r .port (by decide)).symm
@[simp] theorem State.meterEvents_startUp (p : Fin 8) (set : LoudSettings) (r : BlockResult) : (s.meterEvents p set r).startUp = s.startUp := (meterEvents_sameBut s p set r .startUp (by decide)).symm
@[simp] theorem State.meterEvents_ahead (p : Fin 8) (set : LoudSettings) (r : BlockResult) : (s.meterEvents p set r).ahead = s.ahead := (meterEvents_sameBut s p set r .ahead (by decide)).symm
@[simp] theorem State.meterEvents_pending (p : Fin 8) (set : LoudSettings) (r : BlockResult) : (s.meterEvents p set r).pending = s.pending := (meterEvents_sameBut s p set r .pending (by decide)).symm

@[simp] theorem State.reportFrameRef_links : (s.reportFrameRef).links = s.links := (reportFrameRef_sameBut s .links (by decide)).symm
@[simp] theorem State.reportFrameRef_routes : (s.reportFrameRef).routes = s.routes := (reportFrameRef_sameBut s .routes (by decide)).symm
@[simp] theorem State.reportFrameRef_feeds : (s.reportFrameRef).feeds = s.feeds := (reportFrameRef_sameBut s .feeds (by decide)).symm
@[simp] theorem State.reportFrameRef_progs : (s.reportFrameRef).progs = s.progs := (reportFrameRef_sameBut s .progs (by decide)).symm
@[simp] theorem State.reportFrameRef_freeList : (s.reportFrameRef).freeList = s.freeList := (reportFrameRef_sameBut s .freeList (by decide)).symm
@[simp] theorem State.reportFrameRef_mem : (s.reportFrameRef).mem = s.mem := (reportFrameRef_sameBut s .mem (by decide)).symm
@[simp] theorem State.reportFrameRef_outPipe : (s.reportFrameRef).outPipe = s.outPipe := (reportFrameRef_sameBut s .outPipe (by decide)).symm
@[simp] theorem State.reportFrameRef_outLinks : (s.reportFrameRef).outLinks = s.outLinks := (reportFrameRef_sameBut s .outLinks (by decide)).symm
@[simp] theorem State.reportFrameRef_ref : (s.reportFrameRef).ref = s.ref := (reportFrameRef_sameBut s .ref (by decide)).symm
@[simp] theorem State.reportFrameRef_groups : (s.reportFrameRef).groups = s.groups := (reportFrameRef_sameBut s .groups (by decide)).symm
@[simp] theorem State.reportFrameRef_snaps : (s.reportFrameRef).snaps = s.snaps := (reportFrameRef_sameBut s .snaps (by decide)).symm
@[simp] theorem State.reportFrameRef_threshold : (s.reportFrameRef).threshold = s.threshold := (reportFrameRef_sameBut s .threshold (by decide)).symm
@[simp] theorem State.reportFrameRef_port : (s.reportFrameRef).port = s.port := (reportFrameRef_sameBut s .port (by decide)).symm
@[simp] theorem State.reportFrameRef_startUp : (s.reportFrameRef).startUp = s.startUp := (reportFrameRef_sameBut s .startUp (by decide)).symm
@[simp] theorem State.reportFrameRef_ahead : (s.reportFrameRef).ahead = s.ahead := (reportFrameRef_sameBut s .ahead (by decide)).symm
@[simp] theorem State.reportFrameRef_pending : (s.reportFrameRef).pending = s.pending := (reportFrameRef_sameBut s .pending (by decide)).symm

end Sys2Proof.Machine
end

