-- ==== Sys2Proof/Laws/Memory.lean ====
section
/-! SUPPORT. Delay memory: a read after a write, and that every operation keeps the canonical form (log entry 8). -/

namespace Sys2Proof.Machine

/-- A write leaves every other word alone. -/
theorem readWord_writeWord_ne {a b : Nat} (h : b ≠ a) (m : List (Nat × Slot)) (v : Slot) :
    readWord (writeWord m a v) b = readWord m b := by
  induction m with
  | nil =>
    unfold writeWord
    split
    · rfl
    · simp [readWord, Ne.symm h]
  | cons x t ih =>
    obtain ⟨k, w⟩ := x
    simp only [writeWord]
    split
    · split
      · rfl
      · simp [readWord, Ne.symm h]
    · split
      · rename_i e
        subst e
        split <;> simp [readWord, Ne.symm h]
      · simp only [readWord, ih]

theorem readWord_of_lt {a : Nat} {m : List (Nat × Slot)} (h : ∀ c ∈ m, a < c.1) : readWord m a = unlistedWord := by
  induction m with
  | nil => rfl
  | cons x t ih =>
    have hx := h x (by simp)
    rw [readWord, if_neg (by omega)]
    exact ih (fun c hc => h c (by simp [hc]))

/-- In the canonical form a word reads as it was last written. -/
theorem readWord_writeWord_eq (a : Nat) (v : Slot) (m : List (Nat × Slot)) (hm : m.Pairwise (fun x y => x.1 < y.1)) :
    readWord (writeWord m a v) a = v := by
  induction m with
  | nil =>
    unfold writeWord
    split
    · rename_i e
      simp [readWord, e]
    · simp [readWord]
  | cons x t ih =>
    obtain ⟨k, w⟩ := x
    obtain ⟨hk, ht⟩ := List.pairwise_cons.mp hm
    simp only [writeWord]
    split
    · rename_i lt
      split
      · rename_i e
        rw [readWord_of_lt, e]
        intro c hc
        rcases List.mem_cons.mp hc with rfl | hc
        · exact lt
        · exact lt.trans (hk c hc)
      · simp [readWord]
    · split
      · rename_i e
        subst e
        split
        · rename_i ev
          rw [readWord_of_lt (fun c hc => hk c hc), ev]
        · simp [readWord]
      · rename_i ne
        rw [readWord, if_neg (Ne.symm ne), ih ht]

theorem mem_writeWord {c : Nat × Slot} {m : List (Nat × Slot)} {a : Nat} {v : Slot} (h : c ∈ writeWord m a v) :
    c ∈ m ∨ (c = (a, v) ∧ v ≠ unlistedWord) := by
  induction m with
  | nil =>
    unfold writeWord at h
    split at h
    · simp at h
    · rename_i hv
      exact .inr ⟨by simpa using h, hv⟩
  | cons x t ih =>
    obtain ⟨k, w⟩ := x
    simp only [writeWord] at h
    split at h
    · split at h
      · exact .inl h
      · rename_i hv
        rcases List.mem_cons.mp h with rfl | h
        · exact .inr ⟨rfl, hv⟩
        · exact .inl h
    · split at h
      · split at h
        · exact .inl (List.mem_cons_of_mem _ h)
        · rename_i hv
          rcases List.mem_cons.mp h with rfl | h
          · exact .inr ⟨rfl, hv⟩
          · exact .inl (List.mem_cons_of_mem _ h)
      · rcases List.mem_cons.mp h with rfl | h
        · exact .inl (by simp)
        · rcases ih h with h | h
          · exact .inl (List.mem_cons_of_mem _ h)
          · exact .inr h

theorem pairwise_writeWord (a : Nat) (v : Slot) (m : List (Nat × Slot)) (hm : m.Pairwise (fun x y => x.1 < y.1)) :
    (writeWord m a v).Pairwise (fun x y => x.1 < y.1) := by
  induction m with
  | nil =>
    unfold writeWord
    split <;> simp
  | cons x t ih =>
    obtain ⟨k, w⟩ := x
    obtain ⟨hk, ht⟩ := List.pairwise_cons.mp hm
    simp only [writeWord]
    split
    · rename_i lt
      split
      · exact hm
      · refine List.pairwise_cons.mpr ⟨fun c hc => ?_, hm⟩
        rcases List.mem_cons.mp hc with rfl | hc
        · exact lt
        · exact lt.trans (hk c hc)
    · split
      · rename_i e
        subst e
        split
        · exact ht
        · exact List.pairwise_cons.mpr ⟨hk, ht⟩
      · rename_i nlt ne
        refine List.pairwise_cons.mpr ⟨fun c hc => ?_, ih ht⟩
        rcases mem_writeWord hc with hc | ⟨rfl, -⟩
        · exact hk c hc
        · show k < a
          omega

theorem memWf_iff (m : List (Nat × Slot)) :
    memWf m = true ↔ m.Pairwise (fun x y => x.1 < y.1) ∧ ∀ c ∈ m, c.1 < Config.memWords ∧ c.2 ≠ unlistedWord := by
  simp [memWf]

/-- A write within memory keeps the canonical form. -/
theorem memWf_writeWord {m : List (Nat × Slot)} {a : Nat} (v : Slot) (ha : a < Config.memWords) (hm : memWf m = true) :
    memWf (writeWord m a v) = true := by
  rw [memWf_iff] at hm ⊢
  refine ⟨pairwise_writeWord a v m hm.1, fun c hc => ?_⟩
  rcases mem_writeWord hc with hc | ⟨rfl, hv⟩
  · exact hm.2 c hc
  · exact ⟨ha, hv⟩

/-- Clearing a page keeps the canonical form. -/
theorem memWf_clearPage {m : List (Nat × Slot)} (page : Nat) (hm : memWf m = true) : memWf (clearPage m page) = true := by
  rw [memWf_iff] at hm ⊢
  exact ⟨hm.1.filter _, fun c hc => hm.2 c (List.mem_of_mem_filter hc)⟩

/-- What every word reads as after a page is cleared (R52). -/
theorem readWord_clearPage (m : List (Nat × Slot)) (page a : Nat) :
    readWord (clearPage m page) a = if a / 512 = page then unlistedWord else readWord m a := by
  induction m with
  | nil => simp [clearPage, readWord]
  | cons x t ih =>
    obtain ⟨k, w⟩ := x
    rw [clearPage, List.filter_cons]
    split
    · rename_i h
      rw [readWord]
      rw [show List.filter _ t = clearPage t page from rfl, ih]
      simp only [Bool.or_eq_true, decide_eq_true_eq, Config.pageWords] at h
      by_cases e : k = a
      · subst e
        have : k / 512 ≠ page := by omega
        simp [readWord, this]
      · simp [readWord, e]
    · rename_i h
      rw [show List.filter _ t = clearPage t page from rfl, ih]
      simp only [Bool.or_eq_true, decide_eq_true_eq, Config.pageWords] at h
      by_cases e : k = a
      · subst e
        have : k / 512 = page := by omega
        simp [this]
      · simp [readWord, e]

/-- Reset memory has the canonical form. -/
theorem memWf_reset : memWf State.reset.mem = true := by decide

/-- What holds of memory and is kept by a write of each of a programme's rings is kept by the writes of a house sample. -/
theorem writeRings_induct {q : List (Nat × Slot) → Prop} (ins : Vector LaneIn 32) (h : Held) (w : Nat) (m : List (Nat × Slot))
    (h0 : q m) (hs : ∀ m' k v, k < h.lanes.length → q m' → q (writeWord m' (ringAddr h k (w % h.rl)) v)) :
    q (writeRings ins h w m) := by
  unfold writeRings
  have hk : ∀ x ∈ h.lanes.zipIdx, x.2 < h.lanes.length := fun x hx => by simpa using (List.mem_zipIdx hx).2.1
  generalize h.lanes.zipIdx = xs at hk
  induction xs generalizing m with
  | nil => exact h0
  | cons x t ih => exact ih _ (hs _ _ _ (hk x (by simp)) h0) (fun y hy => hk y (by simp [hy]))

/-- The words of a house sample keep the canonical form when the programme's rings lie within memory. -/
theorem memWf_writeRings (ins : Vector LaneIn 32) (h : Held) (w : Nat) (m : List (Nat × Slot)) (hm : memWf m = true)
    (ha : ∀ k, k < h.lanes.length → ringAddr h k (w % h.rl) < Config.memWords) : memWf (writeRings ins h w m) = true :=
  writeRings_induct (q := fun x => memWf x = true) ins h w m hm (fun _ k v hk hx => memWf_writeWord v (ha k hk) hx)

end Sys2Proof.Machine
end

