-- ==== Sys2Proof/Laws/Sources.lean ====
section
/-! SUPPORT. What events do to one source and to one counter: only the source they name and COUNTER change (R152, R176), and
only the counters that count them or ALARM_RAISE (R175). -/

namespace Sys2Proof.Machine

variable (s : State)

/-! ### Sources -/

@[simp] theorem offerEvent_source (e : CountEvent) (o : Option (Fin 8)) (k : Nat) (n : Fin 59) :
    (s.offerEvent e o k).source n = s.source n := rfl

theorem latchFlags_source_ne {m n : Fin 59} (h : m ≠ n) : (s.latchFlags n).source m = s.source m :=
  State.source_setSource_ne s h _

@[simp] theorem latchFlags_source (n : Fin 59) :
    (s.latchFlags n).source n = ((s.source n).raised s.ref.hsc).latched := State.source_setSource s n _

theorem latchCounter_source_ne {m : Fin 59} (h : m ≠ counterSource) (k : Nat) :
    (State.latchCounter k s).source m = s.source m := by
  induction k generalizing s with
  | zero => rfl
  | succ k ih => rw [State.latchCounter, ih, latchFlags_source_ne s h]

theorem countRaises_source_ne {m : Fin 59} (h : m ≠ counterSource) (fuel k : Nat) :
    (countRaises fuel k s).source m = s.source m := by
  induction fuel generalizing k s with
  | zero => rfl
  | succ fuel ih =>
    cases k with
    | zero => rfl
    | succ k => rw [countRaises]; rw [ih, latchCounter_source_ne _ h]; rfl

/-- Counting an event changes no source but COUNTER. -/
theorem count_source_ne {m : Fin 59} (h : m ≠ counterSource) (e : CountEvent) (o : Option (Fin 8)) (k : Nat) :
    (s.count e o k).source m = s.source m := by
  rw [State.count]; rw [countRaises_source_ne _ h, latchCounter_source_ne _ h]; rfl

/-- A latched event changes no source but its own and COUNTER. -/
theorem latch_source_ne {m n : Fin 59} (h : m ≠ counterSource) (hn : m ≠ n) : (s.latch n).source m = s.source m := by
  rw [State.latch, countRaises_source_ne _ h, latchFlags_source_ne s hn]

/-- A latched event at a source other than COUNTER (R152, R153). -/
theorem latch_source {n : Fin 59} (h : n ≠ counterSource) :
    (s.latch n).source n = ((s.source n).raised s.ref.hsc).latched := by
  rw [State.latch, countRaises_source_ne _ h, latchFlags_source]

theorem qualify_source_ne {m n : Fin 59} (h : m ≠ counterSource) (hn : m ≠ n) : (s.qualify n).source m = s.source m := by
  rw [State.qualify]; rw [countRaises_source_ne _ h, State.source_setSource_ne s hn]

/-- A source other than COUNTER after it qualifies (R149). -/
theorem qualify_source {n : Fin 59} (h : n ≠ counterSource) :
    (s.qualify n).source n = { (s.source n).raised s.ref.hsc with
      qualified := true, timer := 0, pending := (s.source n).pending || !(s.source n).accepted } := by
  rw [State.qualify]; rw [countRaises_source_ne _ h, State.source_setSource]; rfl

@[simp] theorem loseQualification_source (n : Fin 59) :
    (s.loseQualification n).source n = { s.source n with qualified := false, timer := 0, pending := false } :=
  State.source_setSource s n _

theorem loseQualification_source_ne {m n : Fin 59} (hn : m ≠ n) : (s.loseQualification n).source m = s.source m :=
  State.source_setSource_ne s hn _

/-- A condition report changes no source but its own and COUNTER. -/
theorem report_source_ne {m n : Fin 59} (h : m ≠ counterSource) (hn : m ≠ n) (v : Bool) :
    (s.report n v).source m = s.source m := by
  unfold State.report
  dsimp only
  split
  · rfl
  · split
    · split
      · rw [qualify_source_ne _ h hn, State.source_setSource_ne s hn]
      · exact State.source_setSource_ne s hn _
    · split
      · rw [loseQualification_source_ne _ hn, State.source_setSource_ne s hn]
      · exact State.source_setSource_ne s hn _

/-- After a report the source holds the value reported (R145). -/
theorem report_condition {n : Fin 59} (h : n ≠ counterSource) (v : Bool) : ((s.report n v).source n).condition = v := by
  unfold State.report
  dsimp only
  split
  · assumption
  · split
    · rename_i hv
      split
      · rw [qualify_source _ h, State.source_setSource]; rfl
      · rw [State.source_setSource]
    · rename_i hv
      split
      · rw [loseQualification_source, State.source_setSource]
      · rw [State.source_setSource]

theorem timerStep_source_ne {m n : Fin 59} (h : m ≠ counterSource) (hn : m ≠ n) : (s.timerStep n).source m = s.source m := by
  unfold State.timerStep
  dsimp only
  split
  · rfl
  · split
    · exact qualify_source_ne s h hn
    · split
      · exact loseQualification_source_ne s hn
      · exact State.source_setSource_ne s hn _

/-- A level source's record after a report (R145 to R147). -/
theorem report_source {n : Fin 59} (h : n ≠ counterSource) (v : Bool) :
    (s.report n v).source n = (s.source n).reported s.ref.hsc v := by
  unfold State.report Source.reported
  dsimp only
  split
  · rfl
  · cases v <;> cases hq : (s.source n).qualified <;>
      simp <;> split <;> simp_all [qualify_source, State.source_setSource, Source.qualifiedAt, Source.unqualified, Source.raised]

/-- A level source's record after its timer step (R148). -/
theorem timerStep_source {n : Fin 59} (h : n ≠ counterSource) :
    (s.timerStep n).source n = (s.source n).stepped s.ref.hsc := by
  unfold State.timerStep Source.stepped
  dsimp only
  cases hc : (s.source n).condition <;> cases hq : (s.source n).qualified <;>
    simp [hc, hq, Source.raiseOver, Source.clearOver] <;> split <;> simp_all [qualify_source, State.source_setSource, Source.qualifiedAt, Source.unqualified, Source.raised]

/-! ### ATTN (R159) -/

/-- ATTN stands as it is judged. -/
def State.attnJudged (s : State) : Prop := s.attn = anyEligible s.sources s.threshold

theorem setSource_attnJudged (n : Fin 59) (x : Source) : (s.setSource n x).attnJudged := rfl

theorem latchCounter_attnJudged (k : Nat) (h : s.attnJudged) : (State.latchCounter k s).attnJudged := by
  induction k generalizing s with
  | zero => exact h
  | succ k ih => exact ih _ (setSource_attnJudged s _ _)

theorem countRaises_attnJudged (fuel k : Nat) (h : s.attnJudged) : (countRaises fuel k s).attnJudged := by
  induction fuel generalizing k s with
  | zero => exact h
  | succ fuel ih =>
    cases k with
    | zero => exact h
    | succ k => exact ih _ _ (latchCounter_attnJudged _ _ h)

theorem qualify_attnJudged (n : Fin 59) : (s.qualify n).attnJudged := countRaises_attnJudged _ _ _ (setSource_attnJudged s n _)

theorem latch_attnJudged (n : Fin 59) : (s.latch n).attnJudged := countRaises_attnJudged _ _ _ (setSource_attnJudged s n _)

theorem count_attnJudged (e : CountEvent) (o : Option (Fin 8)) (k : Nat) (h : s.attnJudged) : (s.count e o k).attnJudged :=
  countRaises_attnJudged _ _ _ (latchCounter_attnJudged _ _ h)

theorem report_attnJudged (n : Fin 59) (v : Bool) (h : s.attnJudged) : (s.report n v).attnJudged := by
  unfold State.report
  dsimp only
  split
  · exact h
  · split
    · split
      · exact qualify_attnJudged _ n
      · exact setSource_attnJudged s n _
    · split
      · exact setSource_attnJudged _ n _
      · exact setSource_attnJudged s n _

/-! ### Counters -/

/-- A counter of another event is not reached. -/
theorem Counter.offer_of_ne {c : Counter} {e : CountEvent} (h : c.event ≠ some e) (o : Option (Fin 8)) (k : Nat) :
    c.offer e o k = c := by
  have : (c.event == some e) = false := by simpa using h
  simp [Counter.offer, Counter.matchesEvent, this]

@[simp] theorem Counter.offer_event (c : Counter) (e : CountEvent) (o : Option (Fin 8)) (k : Nat) :
    (c.offer e o k).event = c.event := by unfold Counter.offer; split <;> rfl

@[simp] theorem offerEvent_counter (e : CountEvent) (o : Option (Fin 8)) (k : Nat) (c : Fin 8) :
    (s.offerEvent e o k).counter c = (s.counter c).offer e o k := by simp [State.offerEvent, State.counter]

@[simp] theorem latchCounter_counters (k : Nat) : (State.latchCounter k s).counters = s.counters := by
  induction k generalizing s with
  | zero => rfl
  | succ k ih => exact ih _

theorem countRaises_counter {c : Fin 8} (h : (s.counter c).event ≠ some .alarmRaise) (fuel k : Nat) :
    (countRaises fuel k s).counter c = s.counter c := by
  induction fuel generalizing k s with
  | zero => rfl
  | succ fuel ih =>
    cases k with
    | zero => rfl
    | succ k =>
      have hc : (State.latchCounter (s.counterAlarms .alarmRaise none 1) (s.offerEvent .alarmRaise none 1)).counter c
          = s.counter c := by
        rw [State.counter_congr (latchCounter_counters _ _), offerEvent_counter, Counter.offer_of_ne h]
      rw [countRaises]
      rw [ih _ (by rw [hc]; exact h), hc]

/-- A counting event reaches a counter of another event than ALARM_RAISE by its offer alone (R175). -/
theorem count_counter {c : Fin 8} (h : (s.counter c).event ≠ some .alarmRaise) (e : CountEvent) (o : Option (Fin 8)) (k : Nat) :
    (s.count e o k).counter c = (s.counter c).offer e o k := by
  have hc : (State.latchCounter (s.counterAlarms e o k) (s.offerEvent e o k)).counter c = (s.counter c).offer e o k := by
    rw [State.counter_congr (latchCounter_counters _ _), offerEvent_counter]
  rw [State.count]
  rw [countRaises_counter _ (by rw [hc, Counter.offer_event]; exact h), hc]

theorem latch_counter {c : Fin 8} (h : (s.counter c).event ≠ some .alarmRaise) (n : Fin 59) :
    (s.latch n).counter c = s.counter c := countRaises_counter (s.latchFlags n) h _ _

theorem qualify_counter {c : Fin 8} (h : (s.counter c).event ≠ some .alarmRaise) (n : Fin 59) :
    (s.qualify n).counter c = s.counter c := by
  rw [State.qualify]; exact countRaises_counter (s.setSource n _) h _ _

theorem report_counter {c : Fin 8} (h : (s.counter c).event ≠ some .alarmRaise) (n : Fin 59) (v : Bool) :
    (s.report n v).counter c = s.counter c := by
  unfold State.report
  dsimp only
  split
  · rfl
  · split
    · split
      · exact qualify_counter (s.setSource n _) h n
      · rfl
    · split <;> rfl

end Sys2Proof.Machine
end

