-- ==== Sys2Proof/Laws/Moves.lean ====
section
/-! SUPPORT. What the operations of the move units, the cue groups and the correctors can reach: one programme, the cue groups
and what events reach (R71, R83, R84, R96). -/

namespace Sys2Proof.Machine

variable (s : State)

theorem setProg_sameBut (p : Fin 8) (x : Programme) : s.sameBut [.progs] (s.setProg p x) := by
  intro q hq; cases q <;> first | rfl | exact absurd (by decide) hq

theorem setMove_sameBut (p : Fin 8) (x : MoveUnit) : s.sameBut [.progs] (s.setMove p x) := setProg_sameBut s p _

theorem setGroup_sameBut (g : Fin 4) (x : CueGroup) : s.sameBut [.groups] (s.setGroup g x) := by
  intro q hq; cases q <;> first | rfl | exact absurd (by decide) hq

theorem armGroup_sameBut (g : Option (Fin 4)) : s.sameBut [.groups] (s.armGroup g) := by
  cases g
  · exact sameBut_refl s _
  · exact setGroup_sameBut s _ _

theorem leftWaiting_sameBut (g : Option (Fin 4)) : s.sameBut [.groups] (s.leftWaiting g) := by
  cases g
  · exact sameBut_refl s _
  · unfold State.leftWaiting
    dsimp only
    split
    · exact setGroup_sameBut s _ _
    · exact sameBut_refl s _

/-- Parts that a move unit's report reaches, and those its end reaches. -/
abbrev reportParts : List Part := .progs :: eventParts
abbrev moveParts : List Part := .progs :: .groups :: eventParts

theorem writeReport_sameBut (p : Fin 8) (x : Report) : s.sameBut reportParts (s.writeReport p x) := by
  unfold State.writeReport
  dsimp only
  split
  · exact sameBut_mono (setMove_sameBut s p _) (by decide)
  · exact sameBut_mono (setMove_sameBut s p _) (by decide)
  · exact sameBut_trans (sameBut_mono (setMove_sameBut s p _) (by decide)) (sameBut_mono (count_sameBut _ _ _ _) (by decide))

theorem endMissed_sameBut (p : Fin 8) (r : MoveRecord) : s.sameBut reportParts (s.endMissed p r) :=
  sameBut_trans (sameBut_trans (writeReport_sameBut s p _) (sameBut_mono (moveEvents_sameBut _ _ _) (by decide)))
    (sameBut_mono (setMove_sameBut _ p _) (by decide))

theorem enterRecord_sameBut (p : Fin 8) (r : MoveRecord) : s.sameBut moveParts (s.enterRecord p r) := by
  unfold State.enterRecord
  dsimp only
  split
  · exact sameBut_mono (setMove_sameBut s p _) (by decide)
  · split
    · split
      · exact sameBut_mono (endMissed_sameBut s p r) (by decide)
      · exact sameBut_trans (sameBut_mono (setMove_sameBut s p _) (by decide)) (sameBut_mono (armGroup_sameBut _ _) (by decide))
    · exact sameBut_mono (setMove_sameBut s p _) (by decide)

theorem afterEnd_sameBut (p : Fin 8) (r : MoveRecord) (o : MoveOutcome) : s.sameBut moveParts (s.afterEnd p r o) := by
  unfold State.afterEnd
  split
  · exact sameBut_trans (sameBut_mono (setMove_sameBut s p _) (by decide)) (enterRecord_sameBut _ p _)
  · exact sameBut_mono (setMove_sameBut s p _) (by decide)
  · exact sameBut_mono (setMove_sameBut s p _) (by decide)

/-- The end of a move reaches its programme, the cue groups and what events reach. -/
theorem endMove_sameBut (p : Fin 8) (r : MoveRecord) (o : MoveOutcome) : s.sameBut moveParts (s.endMove p r o) :=
  sameBut_trans (sameBut_mono (sameBut_trans (writeReport_sameBut s p _) (sameBut_mono (moveEvents_sameBut _ p o) (by decide)))
    (by decide)) (afterEnd_sameBut _ p r o)

theorem moveStep_sameBut (p : Fin 8) : s.sameBut moveParts (s.moveStep p) := by
  unfold State.moveStep
  dsimp only
  split
  · split
    · exact sameBut_mono (setMove_sameBut s p _) (by decide)
    · exact sameBut_trans (sameBut_mono (setMove_sameBut s p _) (by decide)) (endMove_sameBut _ p _ _)
  all_goals exact sameBut_refl s _

theorem cueWaitStep_sameBut (p : Fin 8) : s.sameBut moveParts (s.cueWaitStep p) := by
  unfold State.cueWaitStep
  split
  · split
    · exact sameBut_trans (sameBut_mono (endMissed_sameBut s p _) (by decide))
        (sameBut_mono (leftWaiting_sameBut _ _) (by decide))
    · exact sameBut_mono (setMove_sameBut s p _) (by decide)
  all_goals exact sameBut_refl s _

theorem holdMoving_sameBut (p : Fin 8) (r : MoveRecord) (ph : Phase) (k : Nat) : s.sameBut moveParts (s.holdMoving p r ph k) := by
  unfold State.holdMoving
  split
  · exact sameBut_refl s _
  · exact sameBut_trans (sameBut_mono (setMove_sameBut s p _) (by decide)) (endMove_sameBut _ p r _)
  · split
    · split
      · exact endMove_sameBut s p r _
      · exact sameBut_mono (setMove_sameBut s p _) (by decide)
    all_goals exact sameBut_refl s _

theorem hold_sameBut (p : Fin 8) : s.sameBut moveParts (s.hold p) := by
  unfold State.hold
  have h : s.sameBut moveParts (s.setStaged p .empty) := sameBut_mono (setMove_sameBut s p _) (by decide)
  generalize s.setStaged p .empty = t at h
  dsimp only
  refine sameBut_trans h ?_
  split
  · exact sameBut_refl t _
  · exact sameBut_refl t _
  · exact holdMoving_sameBut t p _ _ _
  · exact sameBut_trans (endMove_sameBut t p _ _) (sameBut_mono (leftWaiting_sameBut _ _) (by decide))
  · exact sameBut_refl t _
  · exact sameBut_trans (sameBut_mono (setMove_sameBut t p _) (by decide))
      (sameBut_mono (moveEvents_sameBut _ p _) (by decide))

theorem afterRead_sameBut (p : Fin 8) : s.sameBut moveParts (s.afterRead p) := by
  unfold State.afterRead
  split
  · exact sameBut_trans (sameBut_mono (writeReport_sameBut s p _) (by decide)) (afterEnd_sameBut _ p _ _)
  · exact enterRecord_sameBut s p _
  all_goals exact sameBut_refl s _

/-- The take and ramp of a corrector reach its programme and what events reach. -/
theorem gainStep_sameBut (p : Fin 8) (w : Nat) : s.sameBut reportParts (s.gainStep p w) := by
  unfold State.gainStep
  dsimp only
  have h (x : Corrector) : s.sameBut reportParts (s.setGain p x) := sameBut_mono (setProg_sameBut s p _) (by decide)
  split
  · exact h _
  · exact sameBut_trans (h _) (foldl_sameBut _ _ _ (fun t _ => sameBut_mono (count_sameBut t _ _ _) (by decide)) _)

/-- The parts a cue reaches (R99). -/
abbrev cueParts : List Part := .progs :: .groups :: .snaps :: eventParts

theorem forProgs_sameBut (ps : List Part) (xs : List (Fin 8)) (f : Fin 8 → State → State)
    (hf : ∀ p (t : State), t.sameBut ps (f p t)) : s.sameBut ps (forProgs xs f s) :=
  foldl_sameBut s ps _ (fun t p => hf p t) xs

theorem startWaiting_sameBut (p : Fin 8) : s.sameBut [.progs] (s.startWaiting p) := by
  unfold State.startWaiting
  split
  · exact setMove_sameBut s p _
  all_goals exact sameBut_refl s _

theorem writeSnapshot_sameBut (g : Fin 4) (x : Snapshot) : s.sameBut [.snaps] (s.writeSnapshot g x) := by
  intro q hq; cases q <;> first | rfl | exact absurd (by decide) hq

theorem countCue_sameBut (g : Fin 4) : s.sameBut (.groups :: eventParts) (s.countCue g) :=
  sameBut_trans (sameBut_mono (setGroup_sameBut s g _) (by decide))
    (forProgs_sameBut _ _ _ _ (fun _ t => sameBut_mono (count_sameBut t _ _ _) (by decide)))

theorem snapshotCue_sameBut (g : Fin 4) (time : Stamp) : s.sameBut [.snaps] (s.snapshotCue g time) := by
  unfold State.snapshotCue
  split
  · exact writeSnapshot_sameBut s g _
  · exact sameBut_refl s _

theorem restartCue_sameBut (g : Fin 4) : s.sameBut [.progs] (s.restartCue g) := by
  unfold State.restartCue
  split
  · exact forProgs_sameBut s _ _ _ (fun p t => setProg_sameBut t p _)
  · exact sameBut_refl s _

/-- A cue reaches the programmes, its group, its snapshot and what events reach. -/
theorem takeCue_sameBut (g : Fin 4) (time : Stamp) : s.sameBut cueParts (s.takeCue g time) :=
  sameBut_trans (sameBut_trans (sameBut_trans (sameBut_trans (sameBut_mono (countCue_sameBut s g) (by decide))
    (forProgs_sameBut _ _ _ _ (fun p t => sameBut_mono (startWaiting_sameBut t p) (by decide))))
    (sameBut_mono (snapshotCue_sameBut _ g time) (by decide))) (sameBut_mono (restartCue_sameBut _ g) (by decide)))
    (sameBut_mono (setGroup_sameBut _ g _) (by decide))

theorem cueGroups_sameBut (cued : CueGroup → Bool) (time : Stamp) : s.sameBut cueParts (s.cueGroups cued time) := by
  unfold State.cueGroups
  refine forEach_sameBut s _ _ (fun g t => ?_)
  split
  · exact takeCue_sameBut t g time
  · exact sameBut_refl t _

/-! ### Other programmes -/

theorem otherProgs_of_progs {t : State} (p : Fin 8) (h : s.progs = t.progs) : s.otherProgs p t :=
  fun k _ => (State.prog_congr h k).symm

theorem otherProgs_trans {t u : State} {p : Fin 8} (h : s.otherProgs p t) (k : t.otherProgs p u) : s.otherProgs p u :=
  fun j hj => (k j hj).trans (h j hj)

theorem setMove_otherProgs (p : Fin 8) (x : MoveUnit) : s.otherProgs p (s.setMove p x) :=
  fun _ hk => State.prog_setProg_ne s hk _

theorem writeReport_otherProgs (p : Fin 8) (x : Report) : s.otherProgs p (s.writeReport p x) := by
  unfold State.writeReport
  dsimp only
  split
  · exact setMove_otherProgs s p _
  · exact setMove_otherProgs s p _
  · exact otherProgs_trans s (setMove_otherProgs s p _) (otherProgs_of_progs _ p (count_sameBut _ _ _ _ .progs (by decide)))

theorem endMissed_otherProgs (p : Fin 8) (r : MoveRecord) : s.otherProgs p (s.endMissed p r) :=
  otherProgs_trans s (otherProgs_trans s (writeReport_otherProgs s p _)
    (otherProgs_of_progs _ p (moveEvents_sameBut _ _ _ .progs (by decide)))) (setMove_otherProgs _ p _)

theorem enterRecord_otherProgs (p : Fin 8) (r : MoveRecord) : s.otherProgs p (s.enterRecord p r) := by
  unfold State.enterRecord
  dsimp only
  split
  · exact setMove_otherProgs s p _
  · split
    · split
      · exact endMissed_otherProgs s p r
      · exact otherProgs_trans s (setMove_otherProgs s p _)
          (otherProgs_of_progs _ p (armGroup_sameBut _ _ .progs (by decide)))
    · exact setMove_otherProgs s p _

theorem afterEnd_otherProgs (p : Fin 8) (r : MoveRecord) (o : MoveOutcome) : s.otherProgs p (s.afterEnd p r o) := by
  unfold State.afterEnd
  split
  · exact otherProgs_trans s (setMove_otherProgs s p _) (enterRecord_otherProgs _ p _)
  · exact setMove_otherProgs s p _
  · exact setMove_otherProgs s p _

/-- The end of a move leaves every other programme alone. -/
theorem endMove_otherProgs (p : Fin 8) (r : MoveRecord) (o : MoveOutcome) : s.otherProgs p (s.endMove p r o) :=
  otherProgs_trans s (otherProgs_trans s (writeReport_otherProgs s p _)
    (otherProgs_of_progs _ p (moveEvents_sameBut _ _ _ .progs (by decide)))) (afterEnd_otherProgs _ p r o)

theorem moveStep_otherProgs (p : Fin 8) : s.otherProgs p (s.moveStep p) := by
  unfold State.moveStep
  dsimp only
  split
  · split
    · exact setMove_otherProgs s p _
    · exact otherProgs_trans s (setMove_otherProgs s p _) (endMove_otherProgs _ p _ _)
  all_goals exact fun _ _ => rfl

end Sys2Proof.Machine
end

