-- ==== Sys2Proof/Laws/Requests.lean ====
section
/-! SUPPORT. What a request row does when it is dispatched at once, when it waits, and when there is no room (R184, R185). -/

namespace Sys2Proof.Machine

variable {s : State} {c : Instr} {r : Request}

/-- A request row is a frame offered to the holding. -/
theorem exec_request (h : requestOf c = some r) : exec c s = .next (s.offer r) := by
  cases c <;> simp only [requestOf, Option.some.injEq, reduceCtorEq] at h <;> subst h <;> rfl

/-- With nothing taken ahead there is nothing to settle. -/
@[simp] theorem settled_of_nil (h : s.ahead = []) : s.settled = s := by simp [State.settled, h]

/-- What settling can do: nothing, or what BLOCK_END or a HOUSE_SAMPLE with the lines as they were sampled last answers, with
no share left ahead. -/
theorem settled_cases (h : s.startUp = false) :
    s.settled = s
    ∨ (s.blockEndDue = true ∧ ∃ t, exec .blockEnd s = .next t ∧ s.settled = { t with ahead := [] })
    ∨ (s.blockEndDue = false ∧ ∃ t, exec (.houseSample s.ref.frmPrev s.ref.cue0Prev s.ref.cue1Prev) s = .next t
        ∧ s.settled = { t with ahead := [] }) := by
  unfold State.settled
  split
  · exact .inl rfl
  · split
    · rename_i hb
      exact .inr (.inl ⟨hb, _, by simp only [exec, execBlockEnd, hb, if_true], rfl⟩)
    · rename_i hb
      split
      · exact .inl rfl
      · rename_i he
        exact .inr (.inr ⟨by simpa using hb, _, by simp only [exec, execHouseSample, h, he, Bool.false_eq_true, if_false], rfl⟩)

@[simp] theorem settledFor_of_nil (h : s.ahead = []) : s.settledFor r = s := by simp [State.settledFor, h]

/-- A request that reaches the move units one by one finds a block end as far as it has been taken. -/
theorem settledFor_amid (hb : s.blockEndDue = true) (hr : r.reachesUnits = true) : s.settledFor r = s := by
  simp [State.settledFor, hb, hr]

/-- Any other request finds the part settled, and so does one that comes with no block end due. -/
theorem settledFor_settled (h : s.blockEndDue = false ∨ r.reachesUnits = false) : s.settledFor r = s.settled := by
  rcases h with h | h <;> simp [State.settledFor, h]

theorem startUp_of_blockEndDue (h : s.blockEndDue = true) : s.startUp = false := by
  simp only [State.blockEndDue, Bool.and_eq_true, Bool.not_eq_true'] at h
  exact h.1.1.1

theorem settledFor_atOnce (hs : s.dispatchesAtOnce r) : s.hunt.settledFor r = s.hunt := by
  rcases hs with hs | ⟨⟨_, hb⟩, hr⟩
  · exact settledFor_of_nil hs.2.2
  · exact settledFor_amid hb hr

theorem offer_atOnce (hs : s.dispatchesAtOnce r) : s.offer r = (takeRequest r.code r.body (s.taking r)).sent r := by
  have h0 : s.startUp = false ∧ s.port.holding = [] := by
    rcases hs with hs | ⟨hs, _⟩
    · exact ⟨hs.1, hs.2.1⟩
    · exact ⟨startUp_of_blockEndDue hs.2, hs.1⟩
  simp only [State.offer, h0.1, Bool.false_eq_true, if_false, State.receive, h0.2, settledFor_atOnce hs]
  rfl

/-- A request row dispatched at once is taken by its owner, and its reply is in progress. -/
theorem exec_atOnce (h : requestOf c = some r) (hs : s.dispatchesAtOnce r) :
    exec c s = .next ((takeRequest r.code r.body (s.taking r)).sent r) := by rw [exec_request h, offer_atOnce hs]

/-- A request row on a ready part is taken by its owner, and its reply is in progress. -/
theorem exec_ready (h : requestOf c = some r) (hs : s.ready) :
    exec c s = .next ((takeRequest r.code r.body (s.taking r)).sent r) := exec_atOnce h (.inl hs)

@[simp] theorem taking_startUp : (s.taking r).startUp = s.startUp := rfl

@[simp] theorem taking_answered (st : Status) (b : List Byte) : (s.taking r).answered r st b = s.answered r st b := rfl

/-- An answer whose state still has the port of the frame in hand is sent as `answered` says. -/
theorem sent_of_port {t : State} (st : Status) (b : List Byte)
    (hp : t.port = { s.port with rx := .hunt, reception := [], holding := [r] }) :
    (Answer.sent ⟨t, st, b⟩ r) = t.answered r st b := by simp [Answer.sent, State.setPort, State.answered, hp]

/-- A refusal changes nothing but the port. -/
@[simp] theorem refuse_sent (st : Status) : (refuse (s.taking r) st).sent r = s.answered r st [] := rfl

end Sys2Proof.Machine
end

