-- ==== Sys2Proof/Laws/Takes.lean ====
section
/-! SUPPORT. What a request can reach, whatever it carries: never delay memory, the output stage, the reference unit, the port,
start-up or the queue (R185). -/

namespace Sys2Proof.Machine

variable (s : State)

/-- The parts that requests reach. -/
abbrev requestParts : List Part :=
  [.links, .routes, .feeds, .progs, .freeList, .groups, .snaps, .sources, .threshold, .attn, .contacts, .counters]

/-- The answer leaves every part that no request reaches as it was. -/
def Answer.within (a : Answer) (s : State) : Prop := s.sameBut requestParts a.state

theorem refuse_within (st : Status) : (refuse s st).within s := sameBut_refl s _

theorem answer_within (st : Status) (b : List Byte) : Answer.within ⟨s, st, b⟩ s := sameBut_refl s _

theorem sameBut_within {ps : List Part} {t : State} (h : s.sameBut ps t) (hs : ∀ q ∈ ps, q ∈ requestParts) (st : Status)
    (b : List Byte) : Answer.within ⟨t, st, b⟩ s := sameBut_mono h hs

theorem setLink_sameBut (l : Fin 8) (x : Link) : s.sameBut [.links] (s.setLink l x) := by
  intro q hq; cases q <;> first | rfl | exact absurd (by decide) hq

theorem setLinkPolicy_sameBut (l : Fin 8) (en : Bool) (pp : ParityPolicy) (sp : SlotPolicy) :
    s.sameBut (.links :: eventParts) (s.setLinkPolicy l en pp sp) := by
  unfold State.setLinkPolicy
  dsimp only
  split
  · exact sameBut_mono (setLink_sameBut s l _) (by decide)
  · exact sameBut_trans (sameBut_mono (setLink_sameBut s l _) (by decide)) (sameBut_mono (report_sameBut _ _ _) (by decide))

theorem setRoute_sameBut (n : Fin 32) (r : Route) : s.sameBut [.routes, .feeds] (s.setRoute n r) := by
  intro q hq; cases q <;> first | rfl | exact absurd (by decide) hq

theorem setCounter_sameBut (c : Fin 8) (x : Counter) : s.sameBut [.counters] (s.setCounter c x) := by
  intro q hq; cases q <;> first | rfl | exact absurd (by decide) hq

theorem setContact_sameBut (c : Fin 4) (x : Contact) : s.sameBut [.contacts] (s.setContact c x) := by
  intro q hq; cases q <;> first | rfl | exact absurd (by decide) hq

theorem setSnap_sameBut (g : Fin 4) (x : SnapEntry) : s.sameBut [.snaps] (s.setSnap g x) := by
  intro q hq; cases q <;> first | rfl | exact absurd (by decide) hq

variable (body : List Byte)

theorem takeIdentify_within : (takeIdentify body s).within s := by
  unfold takeIdentify
  split
  · exact answer_within s _ _
  · exact refuse_within s _

theorem takeReset_within : (takeReset body s).within s := by
  unfold takeReset
  split
  · exact answer_within s _ _
  · exact refuse_within s _

theorem takeHouseStatus_within : (takeHouseStatus body s).within s := by
  unfold takeHouseStatus
  split
  · exact answer_within s _ _
  · exact refuse_within s _

theorem takeLinkSet_within : (takeLinkSet body s).within s := by
  unfold takeLinkSet
  repeat' split
  · exact sameBut_within s (setLinkPolicy_sameBut s _ _ _ _) (by decide) _ _
  all_goals exact refuse_within s _

theorem takeLinkStatus_within : (takeLinkStatus body s).within s := by
  unfold takeLinkStatus
  repeat' split
  · exact answer_within s _ _
  all_goals exact refuse_within s _

theorem takeRouteSet_within : (takeRouteSet body s).within s := by
  unfold takeRouteSet
  repeat' split
  all_goals first | exact refuse_within s _ | exact sameBut_within s (setRoute_sameBut s _ _) (by decide) _ _

theorem takeRouteGet_within : (takeRouteGet body s).within s := by
  unfold takeRouteGet
  split
  · exact answer_within s _ _
  · exact refuse_within s _

theorem takeProgOpen_within : (takeProgOpen body s).within s := by
  unfold takeProgOpen
  split
  · exact refuse_within s _
  · split
    · exact refuse_within s _
    · split
      · exact refuse_within s _
      · split
        · exact refuse_within s _
        · refine sameBut_within s (ps := [.progs, .freeList]) ?_ (by decide) _ _
          intro q hq; cases q <;> first | rfl | exact absurd (by decide) hq

theorem closeSource3_sameBut (a b c : Fin 59) : s.sameBut eventParts (((s.closeSource a).closeSource b).closeSource c) :=
  sameBut_trans (sameBut_trans (closeSource_sameBut s a) (closeSource_sameBut _ b)) (closeSource_sameBut _ c)

theorem closeProgramme_sameBut (p : Fin 8) (x : Programme) (e : Extent) :
    s.sameBut [.progs, .freeList] ((s.setProg p x).releaseExtent e) := by
  intro q hq; cases q <;> first | rfl | exact absurd (by decide) hq

theorem takeProgClose_within : (takeProgClose body s).within s := by
  unfold takeProgClose
  split
  · split
    · exact refuse_within s _
    · dsimp only
      split
      · exact refuse_within s _
      · exact sameBut_within s (closeProgramme_sameBut s _ _ _) (by decide) _ _
      · refine sameBut_mono (ps := .groups :: .progs :: .freeList :: eventParts) (sameBut_trans ?_
          (sameBut_mono (closeSource3_sameBut _ _ _ _) (by decide))) (by decide)
        split
        · exact sameBut_trans (sameBut_mono (closeProgramme_sameBut s _ _ _) (by decide))
            (sameBut_mono (leftWaiting_sameBut _ _) (by decide))
        · exact sameBut_mono (closeProgramme_sameBut s _ _ _) (by decide)
  · exact refuse_within s _

theorem takeProgStatus_within : (takeProgStatus body s).within s := by
  unfold takeProgStatus
  repeat' split
  · exact refuse_within s _
  · exact answer_within s _ _
  · exact refuse_within s _

theorem takeProgGroup_within : (takeProgGroup body s).within s := by
  unfold takeProgGroup
  split
  · split
    · dsimp only
      split
      · exact refuse_within s _
      · exact sameBut_within s (setProg_sameBut s _ _) (by decide) _ _
    · exact refuse_within s _
  · exact refuse_within s _

theorem withLive_within (f : Fin 8 → Answer) (hf : ∀ p, (f p).within s) : (withLiveProgramme body s f).within s := by
  unfold withLiveProgramme
  repeat' split
  · exact refuse_within s _
  · exact hf _
  all_goals exact refuse_within s _

theorem withOpen_within (f : Fin 8 → Answer) (hf : ∀ p, (f p).within s) : (withOpenProgramme body s f).within s := by
  unfold withOpenProgramme
  repeat' split
  · exact refuse_within s _
  · exact refuse_within s _
  · exact hf _
  · exact refuse_within s _

theorem moveSetChecked_within (p : Fin 8) (tag : Byte) (k : KindCode) (u : TargetUnit) (v : Nat) (r f : Option Nat) (c : Byte) :
    (moveSetChecked s p tag k u v r f c).within s := by
  unfold moveSetChecked
  split
  · split
    · exact refuse_within s _
    · dsimp only
      split
      · exact refuse_within s _
      · exact sameBut_within s (setMove_sameBut s p _) (by decide) _ _
  · exact refuse_within s _

theorem takeMoveSet_within : (takeMoveSet body s).within s := by
  unfold takeMoveSet
  repeat' split
  all_goals first | exact refuse_within s _ | exact moveSetChecked_within s _ _ _ _ _ _ _ _

theorem takeMoveGo_within : (takeMoveGo body s).within s := by
  unfold takeMoveGo
  refine withLive_within s body _ (fun p => ?_)
  have hs (x : Staged) (st : Status) : Answer.within ⟨s.setStaged p x, st, []⟩ s :=
    sameBut_within s (setMove_sameBut s p _) (by decide) _ _
  have he (r : MoveRecord) : Answer.within ⟨(s.setStaged p .empty).enterRecord p r, .ok, []⟩ s :=
    sameBut_mono (sameBut_trans (sameBut_mono (setMove_sameBut s p _) (by decide)) (enterRecord_sameBut _ p r)) (by decide)
  dsimp only
  repeat' split
  all_goals first | exact refuse_within s _ | exact hs _ _ | exact he _

theorem takeMoveDiscard_within : (takeMoveDiscard body s).within s := by
  unfold takeMoveDiscard
  refine withLive_within s body _ (fun p => ?_)
  split
  · exact refuse_within s _
  all_goals exact sameBut_within s (setMove_sameBut s p _) (by decide) _ _

theorem takeMoveHold_within : (takeMoveHold body s).within s :=
  withLive_within s body _ (fun p => sameBut_within s (hold_sameBut s p) (by decide) _ _)

theorem takeMoveFinish_within : (takeMoveFinish body s).within s :=
  withLive_within s body _ (fun p => sameBut_within s (setMove_sameBut s p _) (by decide) _ _)

theorem takeMoveResume_within : (takeMoveResume body s).within s := by
  unfold takeMoveResume
  refine withLive_within s body _ (fun p => ?_)
  split
  · exact sameBut_within s (enterRecord_sameBut s p _) (by decide) _ _
  all_goals exact refuse_within s _

theorem takeMoveHoldall_within : (takeMoveHoldall body s).within s := by
  unfold takeMoveHoldall
  split
  · refine sameBut_within s (forEach_sameBut s moveParts _ (fun p t => ?_)) (by decide) _ _
    split
    · exact hold_sameBut t p
    · exact sameBut_refl t _
  · exact refuse_within s _

theorem takeMoveStatus_within : (takeMoveStatus body s).within s := withOpen_within s body _ (fun _ => answer_within s _ _)

theorem takeMoveReports_within : (takeMoveReports body s).within s :=
  withLive_within s body _ (fun p => sameBut_within s
    (sameBut_trans (sameBut_mono (setMove_sameBut s p _) (by decide)) (afterRead_sameBut _ p)) (by decide) _ _)

theorem takeCueSet_within : (takeCueSet body s).within s := by
  unfold takeCueSet
  split
  · split
    · split
      · exact refuse_within s _
      · exact sameBut_within s (ps := .groups :: eventParts) (sameBut_trans (sameBut_mono (setGroup_sameBut s _ _) (by decide))
          (sameBut_mono (reportFrameRef_sameBut _) (by decide))) (by decide) _ _
    · exact refuse_within s _
  · exact refuse_within s _

theorem takeCueFire_within : (takeCueFire body s).within s := by
  unfold takeCueFire
  split
  · split
    · exact refuse_within s _
    · dsimp only
      split
      · exact refuse_within s _
      · exact sameBut_within s (armGroup_sameBut s _) (by decide) _ _
      all_goals exact sameBut_within s (takeCue_sameBut s _ _) (by decide) _ _
  · exact refuse_within s _

theorem takeSnapRead_within : (takeSnapRead body s).within s := by
  unfold takeSnapRead
  split
  · split
    · exact refuse_within s _
    · split
      · exact answer_within s _ _
      · exact sameBut_within s (setSnap_sameBut s _ _) (by decide) _ _
  · exact refuse_within s _

theorem takeLoudSet_within : (takeLoudSet body s).within s := by
  unfold takeLoudSet
  split
  · split
    · exact refuse_within s _
    · split
      · exact refuse_within s _
      · exact sameBut_within s (setProg_sameBut s _ _) (by decide) _ _
  · exact refuse_within s _

theorem takeLoudRead_within : (takeLoudRead body s).within s :=
  withOpen_within s body _ (fun p => sameBut_within s (setProg_sameBut s p _) (by decide) _ _)

theorem takeLoudRestart_within : (takeLoudRestart body s).within s :=
  withOpen_within s body _ (fun p => sameBut_within s (setProg_sameBut s p _) (by decide) _ _)

theorem takeGainSet_within : (takeGainSet body s).within s := by
  unfold takeGainSet
  split
  · split
    · exact refuse_within s _
    · split
      · exact refuse_within s _
      · split
        · exact refuse_within s _
        · exact sameBut_within s (setProg_sameBut s _ _) (by decide) _ _
  · exact refuse_within s _

theorem takeGainRead_within : (takeGainRead body s).within s := withOpen_within s body _ (fun _ => answer_within s _ _)

theorem takeAlmSet_within : (takeAlmSet body s).within s := by
  unfold takeAlmSet
  split
  · split
    · exact refuse_within s _
    · split
      · exact refuse_within s _
      · dsimp only
        split
        · exact refuse_within s _
        · exact sameBut_within s (storeSettings_sameBut s _ _) (by decide) _ _
  · exact refuse_within s _

theorem takeAlmNext_within : (takeAlmNext body s).within s := by
  unfold takeAlmNext
  split
  · split
    · exact answer_within s _ _
    · exact sameBut_within s (setSource_sameBut s _ _) (by decide) _ _
  · exact refuse_within s _

theorem takeAlmLook_within : (takeAlmLook body s).within s := by
  unfold takeAlmLook
  repeat' split
  · exact answer_within s _ _
  · exact answer_within s _ _
  · exact refuse_within s _

theorem takeAlmClose_within : (takeAlmClose body s).within s := by
  have h (n : Fin 59) : (closeAnswer s n).within s := sameBut_within s (setSource_sameBut s n _) (by decide) _ _
  unfold takeAlmClose
  repeat' split
  all_goals first | exact refuse_within s _ | exact h _

theorem takeAlmLevel_within : (takeAlmLevel body s).within s := by
  unfold takeAlmLevel
  split
  · refine sameBut_within s (ps := [.threshold, .attn, .contacts]) ?_ (by decide) _ _
    intro q hq; cases q <;> first | rfl | exact absurd (by decide) hq
  · exact refuse_within s _

theorem takeAlmList_within : (takeAlmList body s).within s := by
  unfold takeAlmList
  split
  · exact answer_within s _ _
  · exact refuse_within s _

theorem takeContactSet_within : (takeContactSet body s).within s := by
  unfold takeContactSet
  split
  · split
    · exact refuse_within s _
    · split
      · exact refuse_within s _
      · exact sameBut_within s (setContact_sameBut s _ _) (by decide) _ _
  · exact refuse_within s _

theorem takeCountSet_within : (takeCountSet body s).within s := by
  unfold takeCountSet
  split
  · split
    · split
      · exact refuse_within s _
      · split
        · exact refuse_within s _
        · exact sameBut_within s (setCounter_sameBut s _ _) (by decide) _ _
    · exact refuse_within s _
  · exact refuse_within s _

theorem takeCountRead_within : (takeCountRead body s).within s := by
  unfold takeCountRead
  split
  · split
    · exact refuse_within s _
    · dsimp only
      split
      · exact sameBut_within s (setCounter_sameBut s _ _) (by decide) _ _
      · exact answer_within s _ _
  · exact refuse_within s _

theorem takeCountClear_within : (takeCountClear body s).within s := by
  unfold takeCountClear
  split
  · split
    · refine sameBut_within s (ps := [.counters]) ?_ (by decide) _ _
      intro q hq; cases q <;> first | rfl | exact absurd (by decide) hq
    · split
      · exact refuse_within s _
      · exact sameBut_within s (setCounter_sameBut s _ _) (by decide) _ _
  · exact refuse_within s _

/-- What every owner in the table keeps, every request keeps. -/
theorem takeRequest_induct {q : Answer → Prop} (code : Byte) (h0 : q (refuse s .unknown))
    (ht : ∀ e ∈ requestTable, q (e.2 body s)) : q (takeRequest code body s) := by
  unfold takeRequest
  split
  · rename_i e he
    exact ht e (List.mem_of_find?_eq_some he)
  · exact h0

/-- No request reaches delay memory, the output stage, the reference unit, the port, start-up or the queue. -/
theorem takeRequest_within (code : Byte) : (takeRequest code body s).within s := by
  refine takeRequest_induct s body (q := fun a => a.within s) code (refuse_within s _) ?_
  simp only [requestTable, List.forall_mem_cons, List.not_mem_nil, false_imp_iff, implies_true, and_true]
  exact ⟨takeIdentify_within s body, takeReset_within s body, takeHouseStatus_within s body, takeLinkSet_within s body,
    takeLinkStatus_within s body, takeRouteSet_within s body, takeRouteGet_within s body, takeProgOpen_within s body,
    takeProgClose_within s body, takeProgStatus_within s body, takeProgGroup_within s body, takeMoveSet_within s body,
    takeMoveGo_within s body, takeMoveDiscard_within s body, takeMoveHold_within s body, takeMoveFinish_within s body,
    takeMoveResume_within s body, takeMoveHoldall_within s body, takeMoveStatus_within s body, takeMoveReports_within s body,
    takeCueSet_within s body, takeCueFire_within s body, takeSnapRead_within s body, takeLoudSet_within s body,
    takeLoudRead_within s body, takeLoudRestart_within s body, takeGainSet_within s body, takeGainRead_within s body,
    takeAlmSet_within s body, takeAlmNext_within s body, takeAlmLook_within s body, takeAlmClose_within s body,
    takeAlmLevel_within s body, takeAlmList_within s body, takeContactSet_within s body, takeCountSet_within s body,
    takeCountRead_within s body, takeCountClear_within s body⟩

/-- A request row's reply is in progress while its frame is in hand, and the receiver is in HUNT (R185). -/
theorem sent_port (r : Request) : ((takeRequest r.code r.body (s.taking r)).sent r).port =
    replyPort r (takeRequest r.code r.body (s.taking r)).status (takeRequest r.code r.body (s.taking r)).body := by
  have h : (s.taking r).port = (takeRequest r.code r.body (s.taking r)).state.port :=
    takeRequest_within (s.taking r) r.body r.code .port (by decide)
  unfold Answer.sent State.setPort
  rw [← h]
  rfl

end Sys2Proof.Machine
end

