-- ==== Sys2Proof/Laws/Operands.lean ====
section
/-! SUPPORT. Request bytes read back as what they were made from (R191, section 12.2), and the owner of each code (section
11.5). -/

namespace Sys2Proof.Machine

/-! ### Numbers and flags -/

theorem readId_ofNat {n : Nat} (h : n ≤ 256) (i : Fin n) : readId n (BitVec.ofNat 8 i.val) = some i := by
  have hi : (BitVec.ofNat 8 i.val).toNat = i.val := by simp only [BitVec.toNat_ofNat]; omega
  simp only [readId, hi, i.isLt, dite_true]

theorem readId_of_le {n : Nat} {b : Byte} (h : n ≤ b.toNat) : readId n b = none := by
  simp only [readId, Nat.not_lt.mpr h, dite_false]

@[simp] theorem readFlag_flag (x : Bool) : readFlag (if x = true then 1#8 else 0#8) = some x := by cases x <;> rfl

theorem nat2_byte2 {v : Nat} (h : v < 65536) : nat2 (BitVec.ofNat 8 (v / 256)) (BitVec.ofNat 8 v) = v := by
  simp only [nat2, BitVec.toNat_ofNat]; omega

theorem nat4_byte4 {v : Nat} (h : v < 4294967296) :
    nat4 (BitVec.ofNat 8 (v / 16777216)) (BitVec.ofNat 8 (v / 65536)) (BitVec.ofNat 8 (v / 256)) (BitVec.ofNat 8 v) = v := by
  simp only [nat4, BitVec.toNat_ofNat]; omega

theorem int2_signed2 {v : Int} (h0 : -32768 ≤ v) (h1 : v ≤ 32767) :
    int2 (BitVec.ofNat 8 ((v % 65536).toNat / 256)) (BitVec.ofNat 8 (v % 65536).toNat) = v := by
  have hn : ((BitVec.ofNat 8 ((v % 65536).toNat / 256)) ++ (BitVec.ofNat 8 (v % 65536).toNat) : BitVec 16).toNat
      = (v % 65536).toNat := by
    rw [BitVec.toNat_append, Nat.shiftLeft_eq, Nat.mul_comm, ← Nat.two_pow_add_eq_or_of_lt]
    · simp only [BitVec.toNat_ofNat]; omega
    · simp only [BitVec.toNat_ofNat]; omega
  rw [int2, BitVec.toInt_eq_toNat_cond, hn]
  split <;> omega

/-! ### Enumeration codes -/

@[simp] theorem readParityPolicy_code (x : ParityPolicy) : readParityPolicy (parityPolicyCode x) = some x := by cases x <;> rfl
@[simp] theorem readSlotPolicy_code (x : SlotPolicy) : readSlotPolicy (slotPolicyCode x) = some x := by cases x <;> rfl
@[simp] theorem readReportPolicy_code (x : ReportPolicy) : readReportPolicy (reportPolicyCode x) = some x := by cases x <;> rfl
@[simp] theorem readCueSource_code (x : CueSource) : readCueSource (cueSourceCode x) = some x := by cases x <;> rfl
@[simp] theorem readGainMode_code (x : GainMode) : readGainMode (gainModeCode x) = some x := by cases x <;> rfl
@[simp] theorem readCountMode_code (x : CountMode) : readCountMode (countModeCode x) = some x := by cases x <;> rfl
@[simp] theorem readCountEvent_code (x : Option CountEvent) : readCountEvent (countEventCode x) = some x := by
  rcases x with _ | x
  · rfl
  · cases x <;> rfl

@[simp] theorem readGroup_code (g : Option (Fin 4)) : readGroup (groupCode g) = some g := by
  rcases g with _ | g
  · rfl
  · fin_cases g <;> rfl

@[simp] theorem readCeiling_code (k : Option (Fin 8)) : readCeiling (ceilingCode (k.map Fin.val)) = some (k.map Fin.val) := by
  rcases k with _ | k
  · rfl
  · fin_cases k <;> rfl

/-! ### Owners -/

variable (body : List Byte) (s : State)

@[simp] theorem takeRequest_identify : takeRequest 0x01#8 body s = takeIdentify body s := rfl
@[simp] theorem takeRequest_reset : takeRequest 0x02#8 body s = takeReset body s := rfl
@[simp] theorem takeRequest_houseStatus : takeRequest 0x03#8 body s = takeHouseStatus body s := rfl
@[simp] theorem takeRequest_linkSet : takeRequest 0x10#8 body s = takeLinkSet body s := rfl
@[simp] theorem takeRequest_linkStatus : takeRequest 0x11#8 body s = takeLinkStatus body s := rfl
@[simp] theorem takeRequest_routeSet : takeRequest 0x12#8 body s = takeRouteSet body s := rfl
@[simp] theorem takeRequest_routeGet : takeRequest 0x13#8 body s = takeRouteGet body s := rfl
@[simp] theorem takeRequest_progOpen : takeRequest 0x20#8 body s = takeProgOpen body s := rfl
@[simp] theorem takeRequest_progClose : takeRequest 0x21#8 body s = takeProgClose body s := rfl
@[simp] theorem takeRequest_progStatus : takeRequest 0x22#8 body s = takeProgStatus body s := rfl
@[simp] theorem takeRequest_progGroup : takeRequest 0x23#8 body s = takeProgGroup body s := rfl
@[simp] theorem takeRequest_moveSet : takeRequest 0x30#8 body s = takeMoveSet body s := rfl
@[simp] theorem takeRequest_moveGo : takeRequest 0x31#8 body s = takeMoveGo body s := rfl
@[simp] theorem takeRequest_moveDiscard : takeRequest 0x32#8 body s = takeMoveDiscard body s := rfl
@[simp] theorem takeRequest_moveHold : takeRequest 0x33#8 body s = takeMoveHold body s := rfl
@[simp] theorem takeRequest_moveFinish : takeRequest 0x34#8 body s = takeMoveFinish body s := rfl
@[simp] theorem takeRequest_moveResume : takeRequest 0x35#8 body s = takeMoveResume body s := rfl
@[simp] theorem takeRequest_moveHoldall : takeRequest 0x36#8 body s = takeMoveHoldall body s := rfl
@[simp] theorem takeRequest_moveStatus : takeRequest 0x37#8 body s = takeMoveStatus body s := rfl
@[simp] theorem takeRequest_moveReports : takeRequest 0x38#8 body s = takeMoveReports body s := rfl
@[simp] theorem takeRequest_cueSet : takeRequest 0x40#8 body s = takeCueSet body s := rfl
@[simp] theorem takeRequest_cueFire : takeRequest 0x41#8 body s = takeCueFire body s := rfl
@[simp] theorem takeRequest_snapRead : takeRequest 0x42#8 body s = takeSnapRead body s := rfl
@[simp] theorem takeRequest_loudSet : takeRequest 0x50#8 body s = takeLoudSet body s := rfl
@[simp] theorem takeRequest_loudRead : takeRequest 0x51#8 body s = takeLoudRead body s := rfl
@[simp] theorem takeRequest_loudRestart : takeRequest 0x52#8 body s = takeLoudRestart body s := rfl
@[simp] theorem takeRequest_gainSet : takeRequest 0x53#8 body s = takeGainSet body s := rfl
@[simp] theorem takeRequest_gainRead : takeRequest 0x54#8 body s = takeGainRead body s := rfl
@[simp] theorem takeRequest_almSet : takeRequest 0x60#8 body s = takeAlmSet body s := rfl
@[simp] theorem takeRequest_almNext : takeRequest 0x61#8 body s = takeAlmNext body s := rfl
@[simp] theorem takeRequest_almLook : takeRequest 0x62#8 body s = takeAlmLook body s := rfl
@[simp] theorem takeRequest_almClose : takeRequest 0x63#8 body s = takeAlmClose body s := rfl
@[simp] theorem takeRequest_almLevel : takeRequest 0x64#8 body s = takeAlmLevel body s := rfl
@[simp] theorem takeRequest_almList : takeRequest 0x65#8 body s = takeAlmList body s := rfl
@[simp] theorem takeRequest_contactSet : takeRequest 0x66#8 body s = takeContactSet body s := rfl
@[simp] theorem takeRequest_countSet : takeRequest 0x70#8 body s = takeCountSet body s := rfl
@[simp] theorem takeRequest_countRead : takeRequest 0x71#8 body s = takeCountRead body s := rfl
@[simp] theorem takeRequest_countClear : takeRequest 0x72#8 body s = takeCountClear body s := rfl

/-! ### Completion and refusal of a request dispatched at once -/

variable {s} {c : Instr} {r : Request} {st : Status}

/-- A request whose owner answers with this status and body completes; what it leaves is the owner's state with the port of
the reply. -/
theorem completes_of_answer {a : Answer} {q : State → Prop} (h : requestOf c = some r) (hs : s.dispatchesAtOnce r)
    (ha : takeRequest r.code r.body (s.taking r) = a) (hq : q (a.sent r)) : Completes c s a.status a.body q := by
  subst ha
  exact ⟨r, _, h, exec_atOnce h hs, sent_port s r, hq⟩

theorem refused_of_answer (h : requestOf c = some r) (hs : s.dispatchesAtOnce r)
    (ha : takeRequest r.code r.body (s.taking r) = refuse (s.taking r) st) : RefusedWith c s st :=
  ⟨r, h, by rw [exec_atOnce h hs, ha, refuse_sent]⟩

/-- The parts of the state an answer leaves, but for the port, are those of the owner's state. -/
theorem sent_sameBut (a : Answer) (r : Request) : a.state.sameBut [.port] (a.sent r) := by
  intro q hq; cases q <;> first | rfl | exact absurd (by decide) hq

theorem taking_sameBut : s.sameBut [.port] (s.taking r) := by
  intro q hq; cases q <;> first | rfl | exact absurd (by decide) hq

/-- A frame of the owner's step is a frame of the whole request, but for the port. -/
theorem sameBut_of_take {ps : List Part} {a : Answer} (hp : Part.port ∈ ps) (h : (s.taking r).sameBut ps a.state) :
    s.sameBut ps (a.sent r) :=
  sameBut_trans (sameBut_mono taking_sameBut (by simpa using hp))
    (sameBut_trans h (sameBut_mono (sent_sameBut a r) (by simpa using hp)))

end Sys2Proof.Machine
end

