-- ==== Sys2Proof/Laws/PerInstr.lean ====
section
/-! SUPPORT. The family F: a well-formed request row is a frame whose body fits LEN, and its code is a catalogue code exactly
when the row is not UNKNOWN (R181, R185, section 11.5). -/

namespace Sys2Proof.Laws

open Sys2Proof.Machine

/-- The row is UNKNOWN. -/
def isUnknown : Instr → Bool
  | .unknown _ _ _ => true
  | .powerOnReset => false
  | .startUpEnd => false
  | .frameArrival _ _ _ => false
  | .houseSample _ _ _ => false
  | .moveEnd _ => false
  | .appliedGainStep _ => false
  | .frameReferenceAbsent => false
  | .pageClearStep _ => false
  | .blockEnd => false
  | .cueTimeout _ => false
  | .sourceQualifies _ => false
  | .sourceLosesQualification _ => false
  | .contactRelease _ => false
  | .requestFrameDiscard _ => false
  | .interByteGap => false
  | .replySent => false
  | .identify _ _ => false
  | .reset _ _ => false
  | .resetTakesEffect => false
  | .houseStatus _ _ => false
  | .linkSet _ _ => false
  | .linkStatus _ _ => false
  | .routeSet _ _ => false
  | .routeGet _ _ => false
  | .progOpen _ _ => false
  | .progClose _ _ => false
  | .progStatus _ _ => false
  | .progGroup _ _ => false
  | .moveSet _ _ => false
  | .moveGo _ _ => false
  | .moveDiscard _ _ => false
  | .moveHold _ _ => false
  | .moveFinish _ _ => false
  | .moveResume _ _ => false
  | .moveHoldall _ _ => false
  | .moveStatus _ _ => false
  | .moveReports _ _ => false
  | .cueSet _ _ => false
  | .cueFire _ _ => false
  | .snapRead _ _ => false
  | .loudSet _ _ => false
  | .loudRead _ _ => false
  | .loudRestart _ _ => false
  | .gainSet _ _ => false
  | .gainRead _ _ => false
  | .almSet _ _ => false
  | .almNext _ _ => false
  | .almLook _ _ => false
  | .almClose _ _ => false
  | .almLevel _ _ => false
  | .almList _ _ => false
  | .contactSet _ _ => false
  | .countSet _ _ => false
  | .countRead _ _ => false
  | .countClear _ _ => false
  | .controlByte _ => false

/-- What F says of a command. -/
def F.Statement (c : Instr) : Prop :=
  c.wellFormed = true → ∀ r, requestOf c = some r → r.body.length ≤ 250 ∧ catalogue.contains r.code = !isUnknown c

/-- A row that is no request has nothing to show. -/
theorem F.of_event {c : Instr} (h : requestOf c = none) : F.Statement c := fun _ r hr => by rw [h] at hr; cases hr

/-- A request row of the catalogue. -/
theorem F.of_request {c : Instr} {code tag : Byte} {body : List Byte} (h : requestOf c = some ⟨tag, code, body⟩)
    (hw : c.wellFormed = bodyFits body) (hc : catalogue.contains code = true) (hu : isUnknown c = false) : F.Statement c := by
  intro hwf r hr
  rw [h, Option.some.injEq] at hr
  subst hr
  rw [hw, bodyFits, decide_eq_true_eq] at hwf
  exact ⟨hwf, by rw [hc, hu]; rfl⟩

theorem F.powerOnReset : F.Statement (.powerOnReset) := F.of_event rfl
theorem F.startUpEnd : F.Statement (.startUpEnd) := F.of_event rfl
theorem F.frameArrival (link : Fin 8) (slots : AudioFrame) (parityOk : Bool) : F.Statement (.frameArrival link slots parityOk) := F.of_event rfl
theorem F.houseSample (frm cue0 cue1 : Bool) : F.Statement (.houseSample frm cue0 cue1) := F.of_event rfl
theorem F.moveEnd (p : Fin 8) : F.Statement (.moveEnd p) := F.of_event rfl
theorem F.appliedGainStep (p : Fin 8) : F.Statement (.appliedGainStep p) := F.of_event rfl
theorem F.frameReferenceAbsent : F.Statement (.frameReferenceAbsent) := F.of_event rfl
theorem F.pageClearStep (p : Fin 8) : F.Statement (.pageClearStep p) := F.of_event rfl
theorem F.blockEnd : F.Statement (.blockEnd) := F.of_event rfl
theorem F.cueTimeout (p : Fin 8) : F.Statement (.cueTimeout p) := F.of_event rfl
theorem F.sourceQualifies (n : Fin 59) : F.Statement (.sourceQualifies n) := F.of_event rfl
theorem F.sourceLosesQualification (n : Fin 59) : F.Statement (.sourceLosesQualification n) := F.of_event rfl
theorem F.contactRelease (c : Fin 4) : F.Statement (.contactRelease c) := F.of_event rfl
theorem F.requestFrameDiscard (cause : DiscardCause) : F.Statement (.requestFrameDiscard cause) := F.of_event rfl
theorem F.interByteGap : F.Statement (.interByteGap) := F.of_event rfl
theorem F.replySent : F.Statement (.replySent) := F.of_event rfl
theorem F.unknown (code tag : Byte) (body : List Byte) : F.Statement (.unknown code tag body) := by
  intro hwf r hr
  simp only [requestOf, Option.some.injEq] at hr
  subst hr
  simp only [Instr.wellFormed, bodyFits, Bool.and_eq_true, Bool.not_eq_true', decide_eq_true_eq] at hwf
  exact ⟨hwf.2, by rw [hwf.1]; rfl⟩
theorem F.identify (tag : Byte) (body : List Byte) : F.Statement (.identify tag body) := F.of_request rfl rfl (by decide) rfl
theorem F.reset (tag : Byte) (body : List Byte) : F.Statement (.reset tag body) := F.of_request rfl rfl (by decide) rfl
theorem F.resetTakesEffect : F.Statement (.resetTakesEffect) := F.of_event rfl
theorem F.houseStatus (tag : Byte) (body : List Byte) : F.Statement (.houseStatus tag body) := F.of_request rfl rfl (by decide) rfl
theorem F.linkSet (tag : Byte) (body : List Byte) : F.Statement (.linkSet tag body) := F.of_request rfl rfl (by decide) rfl
theorem F.linkStatus (tag : Byte) (body : List Byte) : F.Statement (.linkStatus tag body) := F.of_request rfl rfl (by decide) rfl
theorem F.routeSet (tag : Byte) (body : List Byte) : F.Statement (.routeSet tag body) := F.of_request rfl rfl (by decide) rfl
theorem F.routeGet (tag : Byte) (body : List Byte) : F.Statement (.routeGet tag body) := F.of_request rfl rfl (by decide) rfl
theorem F.progOpen (tag : Byte) (body : List Byte) : F.Statement (.progOpen tag body) := F.of_request rfl rfl (by decide) rfl
theorem F.progClose (tag : Byte) (body : List Byte) : F.Statement (.progClose tag body) := F.of_request rfl rfl (by decide) rfl
theorem F.progStatus (tag : Byte) (body : List Byte) : F.Statement (.progStatus tag body) := F.of_request rfl rfl (by decide) rfl
theorem F.progGroup (tag : Byte) (body : List Byte) : F.Statement (.progGroup tag body) := F.of_request rfl rfl (by decide) rfl
theorem F.moveSet (tag : Byte) (body : List Byte) : F.Statement (.moveSet tag body) := F.of_request rfl rfl (by decide) rfl
theorem F.moveGo (tag : Byte) (body : List Byte) : F.Statement (.moveGo tag body) := F.of_request rfl rfl (by decide) rfl
theorem F.moveDiscard (tag : Byte) (body : List Byte) : F.Statement (.moveDiscard tag body) := F.of_request rfl rfl (by decide) rfl
theorem F.moveHold (tag : Byte) (body : List Byte) : F.Statement (.moveHold tag body) := F.of_request rfl rfl (by decide) rfl
theorem F.moveFinish (tag : Byte) (body : List Byte) : F.Statement (.moveFinish tag body) := F.of_request rfl rfl (by decide) rfl
theorem F.moveResume (tag : Byte) (body : List Byte) : F.Statement (.moveResume tag body) := F.of_request rfl rfl (by decide) rfl
theorem F.moveHoldall (tag : Byte) (body : List Byte) : F.Statement (.moveHoldall tag body) := F.of_request rfl rfl (by decide) rfl
theorem F.moveStatus (tag : Byte) (body : List Byte) : F.Statement (.moveStatus tag body) := F.of_request rfl rfl (by decide) rfl
theorem F.moveReports (tag : Byte) (body : List Byte) : F.Statement (.moveReports tag body) := F.of_request rfl rfl (by decide) rfl
theorem F.cueSet (tag : Byte) (body : List Byte) : F.Statement (.cueSet tag body) := F.of_request rfl rfl (by decide) rfl
theorem F.cueFire (tag : Byte) (body : List Byte) : F.Statement (.cueFire tag body) := F.of_request rfl rfl (by decide) rfl
theorem F.snapRead (tag : Byte) (body : List Byte) : F.Statement (.snapRead tag body) := F.of_request rfl rfl (by decide) rfl
theorem F.loudSet (tag : Byte) (body : List Byte) : F.Statement (.loudSet tag body) := F.of_request rfl rfl (by decide) rfl
theorem F.loudRead (tag : Byte) (body : List Byte) : F.Statement (.loudRead tag body) := F.of_request rfl rfl (by decide) rfl
theorem F.loudRestart (tag : Byte) (body : List Byte) : F.Statement (.loudRestart tag body) := F.of_request rfl rfl (by decide) rfl
theorem F.gainSet (tag : Byte) (body : List Byte) : F.Statement (.gainSet tag body) := F.of_request rfl rfl (by decide) rfl
theorem F.gainRead (tag : Byte) (body : List Byte) : F.Statement (.gainRead tag body) := F.of_request rfl rfl (by decide) rfl
theorem F.almSet (tag : Byte) (body : List Byte) : F.Statement (.almSet tag body) := F.of_request rfl rfl (by decide) rfl
theorem F.almNext (tag : Byte) (body : List Byte) : F.Statement (.almNext tag body) := F.of_request rfl rfl (by decide) rfl
theorem F.almLook (tag : Byte) (body : List Byte) : F.Statement (.almLook tag body) := F.of_request rfl rfl (by decide) rfl
theorem F.almClose (tag : Byte) (body : List Byte) : F.Statement (.almClose tag body) := F.of_request rfl rfl (by decide) rfl
theorem F.almLevel (tag : Byte) (body : List Byte) : F.Statement (.almLevel tag body) := F.of_request rfl rfl (by decide) rfl
theorem F.almList (tag : Byte) (body : List Byte) : F.Statement (.almList tag body) := F.of_request rfl rfl (by decide) rfl
theorem F.contactSet (tag : Byte) (body : List Byte) : F.Statement (.contactSet tag body) := F.of_request rfl rfl (by decide) rfl
theorem F.countSet (tag : Byte) (body : List Byte) : F.Statement (.countSet tag body) := F.of_request rfl rfl (by decide) rfl
theorem F.countRead (tag : Byte) (body : List Byte) : F.Statement (.countRead tag body) := F.of_request rfl rfl (by decide) rfl
theorem F.countClear (tag : Byte) (body : List Byte) : F.Statement (.countClear tag body) := F.of_request rfl rfl (by decide) rfl
theorem F.controlByte (b : Byte) : F.Statement (.controlByte b) := F.of_event rfl

end Sys2Proof.Laws
end

