-- ==== Sys2Proof/Tests/Slice0.lean ====
section
/-! SUPPORT. Tests: the checks of WellFormed, one step of each command with the result the spec's worked sequences and rules
give, and a witness for the hypotheses of each statement. -/

namespace Sys2Proof.Tests

set_option Elab.async false

open Sys2Proof.Machine

/-! ### WellFormed refuses what cannot be -/

theorem test_wf_body_fits : (Instr.identify 1 (List.replicate 250 0)).wellFormed = true := by decide +kernel
theorem test_wf_refuses_long_body : (Instr.identify 1 (List.replicate 251 0)).wellFormed = false := by decide +kernel
theorem test_wf_refuses_known_code : (Instr.unknown 0x64 1 []).wellFormed = false := by decide
theorem test_wf_refuses_long_unknown : (Instr.unknown 0x7F 1 (List.replicate 251 0)).wellFormed = false := by decide +kernel
theorem test_wf_refuses_good_len : (Instr.requestFrameDiscard (.badLen 252)).wellFormed = false := by decide
theorem test_wf_refuses_latched_source : (Instr.sourceQualifies 56).wellFormed = false := by decide
theorem test_wf_refuses_latched_loss : (Instr.sourceLosesQualification 3).wellFormed = false := by decide

/-- The 38 codes of the catalogue are the codes of the requests (section 11.5). -/
theorem test_catalogue_is_the_table : catalogue = requestTable.map Prod.fst := rfl

/-- WellFormed and the qualifier agree on the level sources (R143). -/
theorem test_level_sources_agree : ∀ n : Fin 59, sourceIsLevel n = isLevelSource n := by decide

/-! ### Small states -/

/-- The part at its reset values with start-up over. -/
def running : State := { State.reset with startUp := false }

theorem running_ready : running.ready := ⟨rfl, rfl, rfl⟩

/-- What a command leaves. -/
def after (c : Instr) (s : State) : State :=
  match exec c s with
  | .next t => t
  | .fault _ => s
  | .refused _ => s

/-- The status and body bytes of the reply in progress. -/
def replied (s : State) : List Byte := ((s.port.reply.getD []).drop 4).dropLast.dropLast

/-- One lane, Dmax 512, in pages 0 and 1. -/
def oneLane : Held := ⟨[⟨3, 256⟩], 1024, ⟨0, 2⟩⟩

/-- A move unit at a delay of 50 samples. -/
def unitIn (st : MoveState) : MoveUnit := { state := st, pos := 50 * 65536, staged := .empty, reports := [], lost := 0 }

/-- An open programme with limits 10 and 500. -/
def opened (life : Life) (u : MoveUnit) : Programme :=
  { Programme.reset with life := life, dmax := 512, low := 10, high := 500, move := u }

/-- Programme 0 LIVE in one lane. -/
def livePart (u : MoveUnit) : State :=
  (running.setProg 0 (opened (.live oneLane 7) u)).setGroup 1 { CueGroup.reset with source := .message, timeout := 3 }

/-- The same with programme 0 in group 1. -/
def groupPart (u : MoveUnit) : State := (livePart u).setProg 0 { opened (.live oneLane 7) u with group := some 1 }

theorem livePart_ready (u : MoveUnit) : (livePart u).ready := ⟨rfl, rfl, rfl⟩
theorem groupPart_ready (u : MoveUnit) : (groupPart u).ready := ⟨rfl, rfl, rfl⟩

def record (k : MoveKind) (cued : Bool) : MoveRecord := { tag := 9, kind := k, target := 100, cued := cued, clamped := false }

def report9 : Report := { tag := 9, kind := .jump, outcome := .reached, dcur := 50, hsc := 3, clamped := false }

/-- House time runs and the next house sample is not behind a block end. -/
def ticking (s : State) : State := { s with ref := { s.ref with started := true, hsc := 41, phase := 100 } }

/-- The block end falls next. -/
def ending (s : State) : State := { s with ref := { s.ref with started := true, hsc := 4799, phase := 4799 } }

/-- A converter locked at 44.1k with `n` frames. -/
def lockedAt (n : Nat) : Converter := { Converter.reset with state := .locked (lockOf 4410), fifo := List.replicate n silentFrame }

/-- Programme 0 open on the pages the free list leaves it, its lane routed to slot 0 of link 0 with this converter, between
two house samples of one block. -/
def playing (life : Life) (c : Converter) : State :=
  let s := ticking (running.setProg 0 (opened life (unitIn .still)))
  ({ s with freeList := [⟨2, 4094⟩], routes := s.routes.set 3 (.pair 0 0) }).setLink 0 ⟨{ Receiver.reset with enable := true }, c⟩

/-- The same, LIVE. -/
def soundingPart (c : Converter) : State := playing (.live oneLane 7) c

/-- Source `n` changed. -/
def withSource (n : Fin 59) (x : Source) (s : State) : State := s.setSource n x

/-! ### Values the spec works out -/

/-- Worked sequence: one block of a stereo programme (chapter 6). -/
theorem test_level_of_a_hundredth : level 1 100 = -207 := by decide +kernel
theorem test_level_of_0_005 : level 5 1000 = -237 := by decide +kernel
theorem test_peak_of_a_quarter : peakLevel 2097152 = -120 := by decide +kernel
theorem test_peak_of_an_eighth : peakLevel 1048576 = -181 := by decide +kernel

/-- Worked sequence: a suspect block (chapter 6). -/
theorem test_level_of_0_00875 : level 875 100000 = -213 := by decide +kernel
theorem test_level_of_295_30000 : level 295 30000 = -208 := by decide +kernel

/-- Worked gating computation (chapter 6), the energies in units of 2^-50. -/
theorem test_gating_of_125_windows :
    (let m := Meter.gating { Meter.reset with hist := [⟨-607, 5, 5 * 2 ^ 50 / 1000000⟩, ⟨-407, 110, 11 * 2 ^ 50 / 1000⟩,
      ⟨-207, 10, 2 ^ 50 / 10⟩] }
     (m.gate, m.integrated)) = (some (-412), some (-310)) := by decide +kernel

/-- The table of gain factors (R138). -/
theorem test_gain_factors : gainFactor (-300) = 530542 ∧ gainFactor (-200) = 1677722 ∧ gainFactor 0 = 16777216 := by
  decide +kernel

/-- The check of "123456789" (R182). -/
theorem test_crc : crc [0x31, 0x32, 0x33, 0x34, 0x35, 0x36, 0x37, 0x38, 0x39] = 0x29B1 := by decide +kernel

/-- Worked sequence: lock acquisition at 44.1k (chapter 2). -/
theorem test_lock_at_4410 : lockOf 4410 = { ratio := 963379, nRef := 4410, cl := 41, family := .f44k1 } := by decide
theorem test_lock_refined :
    (lockOf 4410).refine 4412 34 = { ratio := 963422, nRef := 4410, cl := 41, family := .f44k1 } := by decide

/-- Worked progression: a loud programme at a long delay (chapter 7). -/
theorem test_gain_law :
    (let gd := wantedGain GainSettings.defaults LoudSettings.defaults { m := -207, s := -207, peaks := [-30], pMax := -30, freeze := .none }
     (gd, stepToward GainSettings.defaults 0 gd, stepToward GainSettings.defaults (-20) gd)) = (-23, -10, -23) := by decide

/-- Worked sequence: allocation, fragmentation and release (chapter 3), steps 1, 5, 7 and 8. -/
theorem test_allocation :
    allocate [⟨0, 4096⟩] (pagesNeeded 2 48000) = some (0, [⟨190, 3906⟩])
      ∧ allocate [⟨0, 190⟩, ⟨1230, 2866⟩] (pagesNeeded 1 9600) = some (0, [⟨20, 170⟩, ⟨1230, 2866⟩])
      ∧ allocate [⟨20, 170⟩, ⟨1230, 2866⟩] (pagesNeeded 8 192000) = none
      ∧ release [⟨20, 170⟩, ⟨1230, 2866⟩] ⟨478, 752⟩ = [⟨20, 170⟩, ⟨478, 3618⟩]
      ∧ release [⟨20, 170⟩, ⟨478, 3618⟩] ⟨190, 288⟩ = [⟨20, 4076⟩] := by decide

/-- A GLIDE of 480 samples at rate 48 takes 48,027 steps of 655 (chapter 4, R74). -/
theorem test_glide_step : glideStep 48 = 655 ∧ (480 * 65536 + 655 - 1) / 655 = 48027 := by decide

/-! ### One step of each command -/

theorem test_powerOnReset : (after .powerOnReset (livePart (unitIn .still))).startUp = true
    ∧ ((after .powerOnReset (livePart (unitIn .still))).prog 0).life = .closed := by decide +kernel

theorem test_startUpEnd : (after .startUpEnd State.reset).startUp = false := by decide +kernel

/-- Link 3 as the worked sequence of chapter 1 has it after A1, with FRAME_SUBST and SLOT_INVALID counted for it. -/
def linkThree : State :=
  let rx : Receiver := { enable := true, parityPolicy := .substitute, slotPolicy := .zero, arrivalCount := 1
                         lastAccepted := some (Vector.replicate 8 ⟨11, true⟩) }
  ((running.setLink 3 ⟨rx, { Converter.reset with state := .seek }⟩).setCounter 0
    { Counter.reset with event := some .frameSubst, qualifier := 0x08 }).setCounter 1
    { Counter.reset with event := some .slotInvalid, qualifier := 0x08 }

/-- A2: parity fails, a copy of A1 is delivered and one FRAME_SUBST sent. -/
theorem test_frameArrival_substitutes :
    (let t := after (.frameArrival 3 (Vector.replicate 8 ⟨22, true⟩) false) linkThree
     ((t.link 3).conv.fifo, (t.link 3).rx.arrivalCount, (t.counter 0).value, (t.counter 1).value))
      = ([Vector.replicate 8 ⟨11, true⟩], 2, 1, 0) := by decide +kernel

/-- A3: slot 5 invalid is zeroed and one SLOT_INVALID sent. -/
theorem test_frameArrival_zeroes_a_slot :
    (let t := after (.frameArrival 3 ((Vector.replicate 8 ⟨22, true⟩).set 5 ⟨33, false⟩) true) linkThree
     ((t.link 3).rx.lastAccepted, (t.counter 0).value, (t.counter 1).value))
      = (some ((Vector.replicate 8 ⟨22, true⟩).set 5 ⟨0, false⟩), 0, 1) := by decide +kernel

/-- The first house sample has HSC 0 and phase 0, the second HSC 1 (R88). -/
theorem test_houseSample_counts :
    (let t := after (.houseSample true true true) running
     let u := after (.houseSample true true true) t
     (t.ref.hsc, t.ref.phase, u.ref.hsc, u.ref.phase)) = (0, 0, 1, 1) := by decide +kernel

/-- The house sample behind phase 4,799 takes the block end first (R89). -/
theorem test_houseSample_takes_the_block_end :
    (let t := after (.houseSample true true true) (ending running)
     (t.ref.hsc, t.ref.phase, t.ref.blockNo)) = (4800, 0, 1) := by decide +kernel

/-- Worked sequence of chapter 4, step 10: the JUMP is made, reported, and the committed FADE of 240 starts. -/
theorem test_moveEnd_jump :
    (let u := { unitIn (.moving (record .jump false) .none 0) with staged := .committed (record (.fade 240) false) }
     let t := after (.moveEnd 0) (ticking (livePart u))
     ((t.prog 0).move.dcur, (t.prog 0).move.state, (t.prog 0).move.staged, (t.prog 0).move.reports))
      = (100, .moving (record (.fade 240) false) .fadeOut 240, .empty,
        [⟨9, .jump, .reached, 100, 42, false⟩]) := by decide +kernel

/-- The 48th ramp count moves the applied gain by one tenth (chapter 7, W 484,847). -/
theorem test_appliedGainStep :
    (let s := ticking (livePart (unitIn .still))
     let s := s.setGain 0 { Corrector.reset with mode := .fixed, taken := -30, applied := -20, ramp := 47 }
     let t := after (.appliedGainStep 0) s
     ((t.prog 0).gain.applied, (t.prog 0).gain.ramp)) = (-21, 0) := by decide +kernel

/-- 9,600 house samples after the last accepted edge the reference is ABSENT and FRAME_REF true (chapter 5). -/
theorem test_frameReferenceAbsent :
    (let s := running.setGroup 1 { CueGroup.reset with source := .frame }
     let s := { s with ref := { s.ref with started := true, hsc := 10099, phase := 5, present := true, run := 2
                                           edgeAccepted := some 500, history := [1920] } }
     let t := after .frameReferenceAbsent s
     (t.ref.present, t.ref.run, (t.source 57).condition)) = (false, 0, true) := by decide +kernel

/-- With the absence taken ahead, a reply shows the house sample taken: ABSENT beside its own HSC (R190; log entry 4). -/
theorem test_houseStatus_after_a_share_ahead :
    (let s := { running with ref := { running.ref with started := true, hsc := 10099, phase := 5, present := true, run := 2
                                                       edgeAccepted := some 500, history := [1920] } }
     let t := after (.houseStatus 5 []) (after .frameReferenceAbsent s)
     (replied t, t.ahead)) = ([0, 0, 0, 0x27, 0x74, 0, 6, 0, 0, 0, 0, 0, 1, 0x07, 0x80], []) := by decide +kernel

/-- A LIVE lane at a gain of a tenth: D_cur 50 and CL 41 put the tap 60 behind W = 7, at position 971 (R56, R57, R138). -/
theorem test_houseSample_plays_a_live_lane :
    (let s := soundingPart { lockedAt 40 with readPhase := 5 }
     let s := s.setGain 0 { Corrector.reset with mode := .fixed, taken := -200, applied := -200 }
     let t := after (.houseSample false false false) { s with mem := [(971, ⟨1000, true⟩)] }
     t.outPipe.getLast?.map (fun o => o[3])) = some ⟨100, true⟩ := by decide +kernel

/-- The sixth house sample clears a page; 751 of 752 pages are left (chapter 3). -/
theorem test_pageClearStep :
    (let s := ticking (running.setProg 0 (opened (.clearing ⟨[⟨3, 256⟩], 385024, ⟨478, 752⟩⟩ 752 5) (unitIn .still)))
     let s := { s with mem := [(478 * 512, ⟨1, true⟩), (479 * 512, ⟨2, true⟩)] }
     let t := after (.pageClearStep 0) s
     ((t.prog 0).life.pagesLeft, t.mem)) = (751, [(479 * 512, ⟨2, true⟩)]) := by decide +kernel

/-- Block end 5 of the lock acquisition of chapter 2: LOCKED, and LOCK false. -/
theorem test_blockEnd_locks :
    (let s := ending (running.setLink 3 ⟨{ Receiver.reset with enable := true, arrivalCount := 4410 },
       { Converter.reset with state := .acquire 4411 3, fifo := List.replicate 32 silentFrame }⟩)
     let t := after .blockEnd (withSource 46 { Source.reset with condition := true } s)
     ((t.link 3).conv.state, (t.link 3).conv.fifo.length, (t.source 46).condition))
      = (.locked { ratio := 963379, nRef := 4410, cl := 41, family := .f44k1 }, 32, false) := by decide +kernel

/-- A LOCK that goes true at a block end with a raise time of 1: the report first qualifies at that block end, the block end
first only starts the timer (R151). -/
theorem test_blockEnd_takes_either_order :
    (let s := withSource 44 { Source.reset with raiseTime := 1 } (ending (running.setLink 2
       ⟨{ Receiver.reset with enable := true, arrivalCount := 5000 }, { lockedAt 32 with notLocked := false }⟩))
     let a := (after .blockEnd s).source 44
     let b := (after .blockEnd (after (.sourceQualifies 44) s)).source 44
     ((a.condition, a.qualified, a.timer), (b.condition, b.qualified, b.timer))) = ((true, true, 0), (true, false, 0)) := by
  decide +kernel

/-- A rising edge on CUE0 at a house sample cues the group with that source (R93, R97). -/
theorem test_houseSample_takes_a_line_cue :
    (let s := (ticking (groupPart (unitIn (.cueWait (record .jump true) 1)))).setGroup 1
       { CueGroup.reset with source := .cue0, armed := true, cueCount := 6 }
     let s := { s with ref := { s.ref with cue0Prev := false } }
     let t := after (.houseSample true true true) s
     ((t.group 1).cueCount, (t.group 1).armed, (t.prog 0).move.state)) = (7, false, .moving (record .jump true) .none 0) := by
  decide +kernel

/-- Block end of chapter 10: C2 takes FIFO_OCC of link 3 and not of link 4. -/
theorem test_blockEnd_counts_the_fill :
    (let lk (n : Nat) : Link := ⟨{ Receiver.reset with enable := true, arrivalCount := 4410 },
       { Converter.reset with state := .locked (lockOf 4410), fifo := List.replicate n silentFrame }⟩
     let s := ((ending running).setLink 3 (lk 33)).setLink 4 (lk 31)
     let s := s.setCounter 2 { Counter.reset with event := some .fifoOcc, qualifier := 0x08, value := 320 }
     ((after .blockEnd s).counter 2).value) = 353 := by decide +kernel

/-- A cue that does not come (chapter 5): the timeout ends the move CUE_MISSED and disarms the group. -/
theorem test_cueTimeout :
    (let s := (ending (groupPart (unitIn (.cueWait (record (.fade 240) true) 2)))).setGroup 1
       { CueGroup.reset with source := .frame, timeout := 3, armed := true }
     let t := after (.cueTimeout 0) s
     ((t.prog 0).move.state, (t.prog 0).move.reports.map Report.outcome, (t.source 4).pending, (t.group 1).armed))
      = (.still, [.cueMissed], true, false) := by decide +kernel

/-- A LOCK source with raise and clear times (chapter 8), block end m+1. -/
theorem test_sourceQualifies :
    (let s := withSource 44 { Source.reset with priority := 2, raiseTime := 2, clearTime := 3, condition := true, timer := 1 } (ending running)
     let t := after (.sourceQualifies 44) s
     ((t.source 44).qualified, (t.source 44).pending, (t.source 44).raiseCount, (t.source 44).lastRaise, t.attn))
      = (true, true, 1, some 4799, true) := by decide +kernel

/-- The same source at block end m+5. -/
theorem test_sourceLosesQualification :
    (let s := withSource 44 { Source.reset with priority := 2, raiseTime := 2, clearTime := 3, qualified := true, pending := true
                                                timer := 2 } (ending running)
     let t := after (.sourceLosesQualification 44) s
     ((t.source 44).qualified, (t.source 44).pending, t.attn)) = (false, false, false) := by decide +kernel

/-- The 20th block end releases a contact with no demand (chapter 9, ALM0). -/
theorem test_contactRelease :
    (let s := (ending running).setContact 0 { ceiling := some 3, minOn := 20, asserted := true, onTime := 19 }
     ((after (.contactRelease 0) s).contact 0).asserted) = false := by decide +kernel

/-- A discard raises CONTROL and counts CONTROL_ERR (R183). -/
theorem test_requestFrameDiscard :
    (let s := running.setCounter 7 { Counter.reset with event := some .controlErr }
     let t := after (.requestFrameDiscard .badCheck) s
     ((t.source 58).pending, (t.source 58).raiseCount, (t.counter 7).value)) = (true, 1, 1) := by decide +kernel

theorem test_interByteGap :
    (let t := after .interByteGap (after (.controlByte 0xC5) running)
     (t.port.rx, (t.source 58).pending)) = (.hunt, true) := by decide +kernel

/-- A controller that sends too far ahead (chapter 11): tag 3 is discarded, and tag 2 follows tag 1 into hand. -/
theorem test_replySent :
    (let s := after (.gainRead 3 [0]) (after (.loudRead 2 [0]) (after (.routeGet 1 []) running))
     let t := after .replySent s
     (s.port.holding.map Request.tag, (s.source 58).raiseCount, t.port.holding.map Request.tag)) = ([1, 2], 1, [2]) := by
  decide +kernel

theorem test_unknown : ((after (.unknown 0x7F 5 []) running).port.reply.getD []).take 5 = [0xC5, 3, 5, 0xFF, 0x10] := by
  decide +kernel

/-- R189. -/
theorem test_identify :
    replied (after (.identify 5 []) running) = [0x00, 0x53, 0x5A, 0x10, 0x54, 0x01, 0x08, 0x20, 0x08, 0x10, 0x00] := by
  decide +kernel

theorem test_reset_refuses_a_body : replied (after (.reset 5 [0]) running) = [0x11] := by decide +kernel

theorem test_resetTakesEffect : after .resetTakesEffect (after (.reset 5 []) running) = State.reset := by decide +kernel

theorem test_houseStatus :
    replied (after (.houseStatus 5 []) (ticking running)) = [0, 0, 0, 0, 41, 0, 100, 0, 0, 0, 0, 0, 0] := by decide +kernel

/-- LINK.SET enable true at reset (chapter 2): SEEK, LOCK true. -/
theorem test_linkSet :
    (let t := after (.linkSet 5 [3, 1, 1, 2]) running
     ((t.link 3).rx.enable, (t.link 3).conv.state, (t.source 46).condition, replied t)) = (true, .seek, true, [0]) := by
  decide +kernel

/-- LINK.STATUS of a locked link (chapter 2, after block end 6). -/
theorem test_linkStatus :
    (let s := running.setLink 3 ⟨{ Receiver.reset with enable := true }, { Converter.reset with
       n := 4412, state := .locked ((lockOf 4410).refine 4412 34), fifo := List.replicate 34 silentFrame }⟩
     replied (after (.linkStatus 5 [3]) s))
      = [0, 3, 1, 1, 0, 3, 0x11, 0x3C, 1, 0x00, 0x0E, 0xB3, 0x5E, 34, 1, 41, 1, 0x11, 0x3A, 1, 1, 0, 0, 0] := by decide +kernel

theorem test_routeSet :
    (let t := after (.routeSet 5 [31, 0, 7, 2]) running
     (t.route 31, t.route 30)) = (.pair 7 2, .unrouted) := by decide +kernel

theorem test_routeGet :
    replied (after (.routeGet 6 []) (running.setRoute 0 (.pair 7 2)))
      = [0, 0, 7, 2] ++ (List.replicate 31 [1, 0, 0]).flatten := by decide +kernel

/-- Step 1 of the allocation table (chapter 3): two lanes, Dmax 48,000, pages 0 to 189. -/
theorem test_progOpen :
    (let t := after (.progOpen 5 ([0, 2, 4, 0, 5, 0] ++ byte4 48000 ++ byte4 0 ++ byte4 48000 ++ [0, 0xFF])) running
     (t.freeList, (t.prog 0).life.pagesLeft, replied t)) = ([⟨190, 3906⟩], 190, 0 :: (byte2 0 ++ byte2 190 ++ byte4 0 ++ byte4 48000)) := by
  decide +kernel

/-- Closing a programme with raised sources (chapter 8): SILENCE loses everything at once. -/
theorem test_progClose :
    (let s := withSource 0 { Source.reset with clearTime := 50, condition := true, qualified := true, pending := true } (livePart (unitIn .still))
     let t := after (.progClose 5 [0]) { s with freeList := [⟨2, 4094⟩] }
     ((t.prog 0).life, t.freeList, (t.source 0).condition, (t.source 0).qualified, (t.source 0).pending))
      = (.closed, [⟨0, 4096⟩], false, false, false) := by decide +kernel

theorem test_progStatus_closed : replied (after (.progStatus 5 [0]) running) = [0, 0, 0, 0, 0, 0, 0, 0, 0, 0, 0xFF, 0] := by
  decide +kernel

theorem test_progGroup : ((after (.progGroup 5 [0, 2]) (livePart (unitIn .still))).prog 0).group = some 2 := by decide +kernel

/-- One MOVE.SET on the wire (chapter 12). -/
theorem test_moveSet :
    (let s := running.setProg 2 { opened (.live oneLane 7) (unitIn .still) with dmax := 2000, high := 2000 }
     ((after (.moveSet 0x07 [0x02, 0x0C, 0x01, 0x00, 0x00, 0x00, 0x03, 0xE8, 0x00, 0x00, 0x00]) s).port.reply.getD []).dropLast.dropLast)
      = [0xC5, 15, 0x07, 0xB0, 0x00, 0x0C, 0x01, 0x00, 0x00, 0x03, 0xE8, 0x00, 0x01, 0x00, 0xF0, 0x00, 0x00] := by decide +kernel

/-- The same with a rate on the FADE is refused. -/
theorem test_moveSet_rate_on_a_fade :
    replied (after (.moveSet 0x07 [0x00, 0x0C, 0x01, 0x00, 0x00, 0x00, 0x03, 0xE8, 0x01, 0x00, 0x05, 0x00, 0x00]) (livePart (unitIn .still)))
      = [0x11] := by decide +kernel

/-- Step 2 of the worked sequence of chapter 4: the GLIDE starts. -/
theorem test_moveGo :
    (let t := after (.moveGo 5 [0]) (livePart { unitIn .still with staged := .draft (record (.glide 48) false) })
     ((t.prog 0).move.state, (t.prog 0).move.staged)) = (.moving (record (.glide 48) false) .none 0, .empty) := by decide +kernel

theorem test_moveDiscard :
    ((after (.moveDiscard 5 [0]) (livePart { unitIn .still with staged := .draft (record .jump false) })).prog 0).move.staged = .empty := by
  decide +kernel

/-- A hold while waiting to read (chapter 4, step 9). -/
theorem test_moveHold :
    (let u := { unitIn (.readWait (record .jump false) none) with staged := .committed (record (.fade 240) false), reports := [report9, report9] }
     let t := after (.moveHold 5 [0]) (ticking (livePart u))
     ((t.prog 0).move.state, (t.prog 0).move.staged, (t.source 4).pending))
      = (.readWait (record .jump false) (some ⟨50, 41⟩), .empty, true) := by decide +kernel

theorem test_moveFinish :
    (let u := { unitIn (.moving (record (.glide 48) false) .none 0) with staged := .committed (record .jump false) }
     let t := after (.moveFinish 5 [0]) (livePart u)
     ((t.prog 0).move.state, (t.prog 0).move.staged)) = (.moving (record (.glide 48) false) .none 0, .empty) := by decide +kernel

theorem test_moveResume :
    ((after (.moveResume 5 [0]) (livePart (unitIn (.halted (record (.fade 240) true))))).prog 0).move.state
      = .moving (record (.fade 240) false) .fadeOut 240 := by decide +kernel

theorem test_moveHoldall :
    ((after (.moveHoldall 5 []) (livePart (unitIn (.moving (record (.glide 48) false) .none 0)))).prog 0).move.state
      = .halted (record (.glide 48) false) := by decide +kernel

theorem test_moveStatus_still :
    replied (after (.moveStatus 5 [0]) (livePart (unitIn .still))) = [0, 0, 0, 0, 0, 50, 0, 0, 0, 0, 0, 0, 0, 0, 0, 0] := by
  decide +kernel

/-- A hold while waiting to read, step 10: the decided report is written after the two are read. -/
theorem test_moveReports :
    (let u := { unitIn (.readWait (record .jump false) (some ⟨50, 41⟩)) with reports := [report9, report9] }
     let t := after (.moveReports 5 [0]) (livePart u)
     ((t.prog 0).move.state, (t.prog 0).move.reports.map Report.outcome, (replied t).length)) = (.still, [.cancelled], 28) := by
  decide +kernel

theorem test_cueSet :
    (let t := after (.cueSet 5 [1, 3, 0, 0, 1, 1]) running
     ((t.group 1).source, (t.group 1).timeout, (t.source 57).condition, replied t))
      = (.frame, 1, true, [1, 3, 0, 1, 1, 1, 0, 0, 0, 0, 0]) := by decide +kernel

/-- A cue over an unread snapshot (chapter 5, step 4): counted, started, written, the overrun set. -/
theorem test_cueFire :
    (let s := (ticking (groupPart (unitIn (.cueWait (record .jump true) 1)))).setGroup 1
       { CueGroup.reset with source := .message, snapshot := true, armed := true, cueCount := 6 }
     let s := s.setSnap 1 ⟨some ⟨1, 6, 3, true, []⟩, false⟩
     let t := after (.cueFire 5 [1]) s
     ((t.group 1).cueCount, (t.prog 0).move.state, (t.snap 1).overrun, (t.snap 1).snap.map Snapshot.members, replied t))
      = (7, .moving (record .jump true) .none 0, true, some [⟨0, 109, none, -1000, 0⟩], [0, 1, 0, 7]) := by decide +kernel

/-- SNAP.READ (chapter 5, step 6): the reply says unread and overrun, and both are cleared after it. -/
theorem test_snapRead :
    (let s := running.setSnap 1 ⟨some ⟨1, 7, 503840, true, []⟩, true⟩
     let t := after (.snapRead 5 [1]) s
     (replied t, (t.snap 1).snap.map Snapshot.unread, (t.snap 1).overrun))
      = ([0, 1, 0, 7, 0x00, 0x07, 0xB0, 0x20, 1, 1, 0], some false, false) := by decide +kernel

theorem test_loudSet_clamps :
    replied (after (.loudSet 5 ([0] ++ signed2 (-500) ++ signed2 20 ++ signed2 40 ++ signed2 (-500) ++ signed2 (-10))) (livePart (unitIn .still)))
      = 1 :: (signed2 (-400) ++ signed2 20 ++ signed2 40 ++ signed2 (-500) ++ signed2 (-10)) := by decide +kernel

theorem test_loudRead_clears_the_peaks :
    (let s := (livePart (unitIn .still)).setMeter 0 { Meter.reset with lanes := [⟨SectionMem.zero, SectionMem.zero, ⟨0, 0⟩, 0, -120⟩] }
     let t := after (.loudRead 5 [0]) s
     ((replied t).drop 20, (t.prog 0).meter.lanes.map LaneMeter.peakHold)) = ([1, 3] ++ signed2 (-120), [-1000]) := by decide +kernel

theorem test_loudRestart :
    (let s := (livePart (unitIn .still)).setMeter 0 { Meter.reset with hist := [⟨-207, 1, 5⟩], integrated := some (-207), n := 9 }
     let t := after (.loudRestart 5 [0]) s
     ((t.prog 0).meter.hist, (t.prog 0).meter.integrated, (t.prog 0).meter.n)) = ([], none, 9) := by decide +kernel

theorem test_gainSet_fixed :
    (let t := after (.gainSet 5 ([0, 2] ++ signed2 60 ++ signed2 150 ++ signed2 2 ++ signed2 10 ++ signed2 (-500))) (livePart (unitIn .still))
     ((t.prog 0).gain.mode, (t.prog 0).gain.taken, (replied t).head?)) = (.fixed, -300, some 1) := by decide +kernel

theorem test_gainRead :
    (let s := (livePart (unitIn .still)).setGain 0 { Corrector.reset with mode := .track, freeze := .suspect, schedule := [⟨5, 1⟩] }
     replied (after (.gainRead 5 [0]) s)) = [0, 0, 1, 0, 0, 0, 0, 0, 0, 1, 1, 1, 2] := by decide +kernel

/-- A shorter raise time qualifies a source whose timer is past it (R157). -/
theorem test_almSet_qualifies :
    (let s := withSource 0 { Source.reset with raiseTime := 50, condition := true, timer := 4 } running
     let t := after (.almSet 5 [0, 5, 0, 0, 4, 0, 0]) s
     ((t.source 0).priority, (t.source 0).qualified, (t.source 0).pending, t.attn)) = (5, true, true, true) := by decide +kernel

/-- Unmasking a source whose clear timer the new time ends asserts no contact (log entry 28). -/
theorem test_almSet_is_judged_once :
    (let s := withSource 0 { Source.reset with masked := true, clearTime := 50, qualified := true, pending := true, timer := 4 } running
     let s := s.setContact 0 { ceiling := some 7, minOn := 20, asserted := false, onTime := 0 }
     let t := after (.almSet 5 [0, 5, 0, 0, 0, 0, 4]) s
     ((t.source 0).masked, (t.source 0).pending, (t.contact 0).asserted, t.attn)) = (false, false, false, false) := by decide +kernel

/-- The sources of the nested service of chapter 9 at step 4. -/
def nested : State :=
  withSource 58 { Source.reset with priority := 6, pending := true } (withSource 42 { Source.reset with
    priority := 3, clearTime := 30, condition := true, qualified := true, pending := true } (withSource 0
    { Source.reset with priority := 5, condition := true, qualified := true, accepted := true } running))

/-- Step 5: ALM.NEXT takes source 42, and ATTN releases although 58 is pending. -/
theorem test_almNext :
    (let t := after (.almNext 5 []) nested
     (nested.attn, (t.source 42).accepted, acceptLevel t.sources, t.attn, (replied t).take 2)) = (true, true, 3, false, [0, 42]) := by
  decide +kernel

theorem test_almLook :
    (let t := after (.almLook 5 []) nested
     ((t.source 42).accepted, (replied t).take 2)) = (false, [0, 42]) := by decide +kernel

/-- Step 14: the closed LOCK source is still qualified, so it is pending again and ATTN asserts. -/
theorem test_almClose :
    (let t := after (.almClose 6 [0xFF]) (after .replySent (after (.almNext 5 []) nested))
     ((t.source 42).accepted, (t.source 42).pending, acceptLevel t.sources, t.attn)) = (false, true, 5, true) := by decide +kernel

theorem test_almLevel :
    (let t := after (.almLevel 5 [2]) nested
     (t.attn, replied t)) = (false, [0, 2, 5]) := by decide +kernel

theorem test_almList : replied (after (.almList 5 []) nested) = [0, 2, 42, 58, 1, 0, 2, 0, 42, 7, 5, 1, 0, 0, 0, 0] := by decide +kernel

/-- ALM0 with ceiling 3 asserts at once for source 42 (chapter 9). -/
theorem test_contactSet :
    (let t := after (.contactSet 5 [0, 3, 0, 20]) nested
     ((t.contact 0).asserted, replied t)) = (true, [0, 0, 3, 20, 1, 0]) := by decide +kernel

theorem test_countSet_refuses_a_qualifier : replied (after (.countSet 5 [0, 0x10, 1, 0, 0, 0]) running) = [0x11] := by decide +kernel

/-- Step 5 of chapter 10: the reply carries 353 and clear-on-read zeroes C2. -/
theorem test_countRead :
    (let s := running.setCounter 2 { Counter.reset with event := some .fifoOcc, qualifier := 8, clearOnRead := true, value := 353 }
     let t := after (.countRead 5 [2]) s
     (replied t, (t.counter 2).value)) = ([0, 2, 5, 8, 0, 1, 0, 0, 0, 1, 0x61, 0], 0) := by decide +kernel

/-- Step 4 of chapter 10: CLIPPED takes C5 past half range and raises COUNTER. -/
theorem test_count_crosses_half_range :
    (let s := running.setCounter 5 { Counter.reset with event := some .clipped, mode := .saturate, alarmEnable := true, value := 2147483000 }
     let t := s.count .clipped (some 6) 5000
     ((t.counter 5).value, (t.counter 5).half, (t.source 56).pending)) = (2147488000, true, true) := by decide +kernel

theorem test_countClear :
    (let s := running.setCounter 5 { Counter.reset with event := some .clipped, value := 2147488000, half := true }
     let t := after (.countClear 5 [0xFF]) s
     ((t.counter 5).value, (t.counter 5).half, (t.counter 5).event)) = (0, false, some .clipped) := by decide +kernel

/-- The bytes of an IDENTIFY frame come to its reply (R182). -/
theorem test_controlByte :
    (match execAll ((frameBytes ⟨5, 1, []⟩ (requestCheck ⟨5, 1, []⟩)).map .controlByte) running with
     | .next t => replied t
     | .fault _ => []
     | .refused _ => []) = [0x00, 0x53, 0x5A, 0x10, 0x54, 0x01, 0x08, 0x20, 0x08, 0x10, 0x00] := by decide +kernel

/-! ### Witnesses: states and operands that meet the hypotheses of the statements -/

/-- The part with a house sample waiting in the queue. -/
def queued : State := { running with pending := [.houseSample true true true] }

/-- The step of `queued` answers a next state: the hypothesis of every statement that a step keeps a law. -/
theorem witness_step : ∃ t, step queued = .next t := ⟨_, rfl⟩

theorem link_queued (l : Fin 8) : queued.link l = Link.reset := by revert l; decide +kernel
theorem prog_queued (p : Fin 8) : queued.prog p = Programme.reset := by revert p; decide +kernel
theorem source_queued (n : Fin 59) : queued.source n = Source.reset := by revert n; decide +kernel
theorem contact_queued (c : Fin 4) : queued.contact c = Contact.reset := by revert c; decide +kernel

theorem witness_StepRunsTheFrontCommand : running.pending = [] := rfl

theorem witness_ResetsLoadEveryBlockAfterTheReply :
    (let s := after (.reset 5 []) running
     s.port.reply.isSome = true ∧ s.resetInHand = true)
    ∧ (running.port.reply.isNone = true ∨ running.resetInHand = false) ∧ running.ready := by
  exact ⟨by decide +kernel, .inl rfl, running_ready⟩

theorem witness_StartUpHoldsThePartStill : State.reset.startUp = true ∧ Instr.houseSample true true true ≠ .powerOnReset
    ∧ Instr.houseSample true true true ≠ .startUpEnd ∧ Instr.houseSample true true true ≠ .replySent
    ∧ Instr.houseSample true true true ≠ .resetTakesEffect
    ∧ ∀ l f ok, Instr.houseSample true true true ≠ .frameArrival l f ok := by
  refine ⟨rfl, ?_, ?_, ?_, ?_, fun l f ok h => ?_⟩ <;> first | decide | exact Instr.noConfusion h

/-- LEN at 2 and 252 and just outside, and the last byte but one of a frame of LEN 2. -/
theorem witness_ReceiverTakesEachByte :
    running.startUp = false ∧ running.port.rx = .hunt ∧ (0xC4 : Byte) ≠ 0xC5
    ∧ (after (.controlByte 0xC5) running).port.rx = .length
    ∧ (2 ≤ (0x02 : Byte).toNat ∧ (0x02 : Byte).toNat ≤ 252) ∧ (2 ≤ (0xFC : Byte).toNat ∧ (0xFC : Byte).toNat ≤ 252)
    ∧ (0x01 : Byte).toNat < 2 ∧ 252 < (0xFD : Byte).toNat
    ∧ (let s := execAll ([0xC5, 2, 5, 1].map .controlByte) running
       ∃ t, s = .next t ∧ t.port.rx = .collect ∧ t.port.reception = [2, 5, 1] ∧ [(5 : Byte), 1].length + 1 < (2 : Byte).toNat + 2) := by
  refine ⟨rfl, rfl, by decide, by decide +kernel, by decide, by decide, by decide, by decide, ?_⟩
  exact ⟨_, rfl, rfl, rfl, by decide⟩

theorem witness_FrameBytesComeToTheRequestRow :
    requestOf (.identify 5 (List.replicate 250 0)) = some ⟨5, 1, List.replicate 250 0⟩
    ∧ (List.replicate 250 (0 : Byte)).length ≤ 250 ∧ running.startUp = false ∧ running.port.rx = .hunt
    ∧ [(0 : Byte), 0].length = 2 ∧ [0, 0] ≠ requestCheck ⟨5, 1, []⟩ := by
  refine ⟨rfl, by rw [List.length_replicate], rfl, rfl, rfl, by decide +kernel⟩

theorem witness_DiscardRaisesControlAndCounts :
    running.discards .badCheck = true ∧ running.discards (.badLen 1) = true ∧ running.discards (.badLen 253) = true
    ∧ running.discards (.badLen 2) = false ∧ running.discards .holdingFull = false
    ∧ (running.source controlSource).accepted = false
    ∧ ((withSource 58 { Source.reset with accepted := true } running).source controlSource).accepted = true
    ∧ ((running.setCounter 7 { Counter.reset with event := some .controlErr }).counter 7).event = some .controlErr
    ∧ (after (.controlByte 0xC5) running).port.rx ≠ .hunt := by decide +kernel

theorem witness_HoldingTakesTwoFramesAndDispatches :
    requestOf (.routeGet 2 []) = some ⟨2, 0x13, []⟩
    ∧ (after (.routeGet 1 []) running).port.holding = [⟨1, 0x13, []⟩]
    ∧ (after (.routeGet 2 []) (after (.routeGet 1 []) running)).port.holding = [⟨1, 0x13, []⟩, ⟨2, 0x13, []⟩]
    ∧ (after (.routeGet 1 []) running).port.reply.isSome = true ∧ (after (.routeGet 1 []) running).resetInHand = false
    ∧ (after (.routeGet 2 []) (after (.routeGet 1 []) running)).resetInHand = false
    ∧ catalogue.contains 0x7F = false ∧ running.ready := by
  refine ⟨rfl, ?_, ?_, ?_, ?_, ?_, ?_, running_ready⟩ <;> decide +kernel

/-- A share of a house sample and one of a block end taken ahead, with nothing held, and with a second frame waiting. -/
theorem witness_HoldingTakesTwoFrames_ahead :
    (let s := after (.moveEnd 0) (ticking (livePart (unitIn (.moving (record .jump false) .none 0))))
     let b := after (.contactRelease 0) ((ending running).setContact 0 { ceiling := some 3, minOn := 20, asserted := true, onTime := 19 })
     let w := after (.moveEnd 0) (after (.routeGet 2 []) (after (.routeGet 1 []) (ticking (livePart (unitIn (.moving (record .jump false) .none 0))))))
     s.startUp = false ∧ s.ahead ≠ [] ∧ s.blockEndDue = false ∧ s.extentOutside? = none ∧ s.port.holding = []
     ∧ s.discards .badCheck = true ∧ b.ahead ≠ [] ∧ b.blockEndDue = true
     ∧ w.ahead ≠ [] ∧ w.port.reply.isSome = true ∧ w.resetInHand = false ∧ w.port.holding = [⟨1, 0x13, []⟩, ⟨2, 0x13, []⟩]
     ∧ (s.setLink 0 ⟨{ Receiver.reset with enable := true }, Converter.reset⟩).ahead ≠ []
     ∧ ((s.setLink 0 ⟨{ Receiver.reset with enable := true }, Converter.reset⟩).link 0).rx.enable = true)
    ∧ ∃ t, exec (.houseSample false false false) (after (.moveEnd 0) (ticking (livePart (unitIn (.moving (record .jump false) .none 0))))) = .next t := by
  refine ⟨by decide +kernel, ⟨_, rfl⟩⟩

theorem witness_HoldingTakesTwoFrames_units :
    requestOf (.cueFire 3 [1]) = some ⟨3, 0x41, [1]⟩ ∧ (ending running).amidBlockEnd
    ∧ (Request.mk 3 0x41 [1]).code ∈ [0x36, 0x40, 0x41] ∧ (Request.mk 3 0x13 [1]).code ∉ [0x36, 0x40, 0x41]
    ∧ (after (.cueFire 2 [1]) (after (.routeGet 1 []) (ending running))).port.holding = [⟨1, 0x13, []⟩, ⟨2, 0x41, [1]⟩]
    ∧ (after (.cueFire 2 [1]) (after (.routeGet 1 []) (ending running))).blockEndDue = true := by
  refine ⟨rfl, ⟨rfl, rfl⟩, by decide, by decide, by decide +kernel, by decide +kernel⟩

theorem witness_RefusedRequestsChangeNothing :
    requestOf (.identify 5 [0]) = some ⟨5, 1, [0]⟩ ∧ running.ready ∧ 0x10 ≤ (statusCode .malformed).toNat := ⟨rfl, running_ready, by decide⟩

theorem witness_StatusReadsReplyTheRecord :
    (livePart (unitIn .still)).ready ∧ ((livePart (unitIn .still)).prog 0).life.isClosed = false := ⟨livePart_ready _, by decide +kernel⟩

theorem witness_OneNumberRequestsAreCheckedInOrder :
    running.ready ∧ ([] : List Byte).length ≠ 1 ∧ [(0 : Byte), 0].length ≠ 1 ∧ 8 ≤ (8 : Byte).toNat ∧ 4 ≤ (4 : Byte).toNat
    ∧ (running.prog 7).life.isClosed = true ∧ (running.prog 7).life.isLive = false := by
  exact ⟨running_ready, by decide +kernel⟩

theorem witness_LinkSetActsOnTheLinkItNames :
    running.ready ∧ (running.link 7).rx.enable = false ∧ (running.link 7).rx.enable ≠ true
    ∧ ([] : List Byte).length ≠ 4 ∧ 1 < (2 : Byte).toNat ∧ 2 < (3 : Byte).toNat ∧ ((1 : Byte) ≠ 0x00 ∧ (1 : Byte) ≠ 0x02)
    ∧ ((1 : Byte).toNat ≤ 1 ∧ (2 : Byte).toNat ≤ 2 ∧ ((2 : Byte) = 0x00 ∨ (2 : Byte) = 0x02) ∧ 8 ≤ (8 : Byte).toNat) := by
  exact ⟨running_ready, by decide +kernel⟩

theorem witness_FramesAreTakenAndKept :
    ((linkThree.link 3).rx.parityPolicy ≠ .pass) ∧ (linkThree.link 3).conv.state = .seek
    ∧ (∃ n t, ConvState.acquire 4410 1 = .acquire n t)
    ∧ ({ Converter.reset with state := .holdover (lockOf 4410) 1 } : Converter).state = .holdover (lockOf 4410) 1
    ∧ (let c (n : Nat) : Converter := { Converter.reset with state := .locked (lockOf 4410), fifo := List.replicate n silentFrame }
       (c 58).fifo.length + 1 < 60 ∧ 60 ≤ (c 59).fifo.length + 1) := by
  refine ⟨by decide +kernel, by decide +kernel, ⟨_, _, rfl⟩, rfl, by decide +kernel⟩

theorem witness_FrameArrivalIsCountedAndDelivered :
    (linkThree.link 3).rx.enable = true ∧ (running.link 3).rx.enable = false := by decide +kernel

/-- A converter without a ratio, one in HOLDOVER with nothing held, a read that leaves 4 frames and one that leaves 3. -/
theorem witness_OutputReadsConvertTheFifo :
    ((0 : Nat) < 1048576 ∧ 1048575 < 1048576) ∧ Converter.reset.state.lock? = none
    ∧ ({ lockedAt 0 with state := .holdover (lockOf 4410) 1 } : Converter).state = .holdover (lockOf 4410) 1 ∧ (lockedAt 0).fifo = []
    ∧ (let c (n : Nat) : Converter := { lockedAt n with readPhase := 1048575 }
       (c 5).state.lock? = some (lockOf 4410) ∧ (c 4).fifo ≠ [] ∧ ((c 4).readPhase + (lockOf 4410).ratio) / 1048576 = 1
       ∧ (c 4).state = .locked (lockOf 4410) ∧ ((c 4).fifo.drop 1).length ≤ 3 ∧ 4 ≤ ((c 5).fifo.drop 1).length
       ∧ ((c 4).fifo.take 1).getLast? = some silentFrame ∧ ((c 4).fifo.drop 1).head? = some silentFrame)
    ∧ (let s := soundingPart (lockedAt 40)
       s.startUp = false ∧ s.blockEndDue = false ∧ (s.link 0).conv.read.slip = false
       ∧ (∃ t, exec (.houseSample true true true) s = .next t)
       ∧ ((soundingPart { lockedAt 4 with readPhase := 1048575 }).link 0).conv.read.slip = true) := by
  refine ⟨by decide, rfl, rfl, rfl, by decide +kernel, rfl, by decide +kernel, by decide +kernel, ⟨_, rfl⟩, by decide +kernel⟩

/-- N at both ends of the range and just outside; a step of 2 and of 3 in ACQUIRE; a window 22 and 23 from a reference of 4,410,
with the tally and the fill at their boundaries. -/
theorem witness_WindowsAreJudgedByTheState :
    Converter.reset.state = .off ∧ ({ Converter.reset with state := .seek } : Converter).state = .seek
    ∧ (2800 ≤ 2800 ∧ 2800 ≤ 10000) ∧ (2800 ≤ 10000 ∧ 10000 ≤ 10000) ∧ 2799 < 2800 ∧ 10000 < 10001
    ∧ (let c : Converter := { lockedAt 32 with state := .acquire 4410 3 }
       c.state = .acquire 4410 3 ∧ max 4412 4410 - min 4412 4410 ≤ 2 ∧ 2 < max 4413 4410 - min 4413 4410 ∧ 2 < 3
       ∧ c.fifo.getLast? = some silentFrame)
    ∧ (lockedAt 32).state = .locked (lockOf 4410) ∧ (lockOf 4410).nRef = 4410
    ∧ max 4432 4410 - min 4432 4410 ≤ max 2 (4410 / 200) ∧ ¬ max 4433 4410 - min 4433 4410 ≤ max 2 (4410 / 200)
    ∧ (let c (n b : Nat) : Converter := { lockedAt n with state := .holdover (lockOf 4410) b, lastRead := some silentFrame }
       (c 4 3).state = .holdover (lockOf 4410) 3 ∧ 3 < 4 ∧ (c 4 4).state = .holdover (lockOf 4410) 4
       ∧ 4 ≤ (c 4 1).fifo.length ∧ (c 59 1).fifo.length ≤ 59 ∧ 60 ≤ (c 60 1).fifo.length ∧ (c 3 1).fifo.length ≤ 3
       ∧ (c 3 1).lastRead = some silentFrame) := by decide +kernel

theorem witness_LockValuesOfAWindowInRange : (2800 ≤ 2800 ∧ 2800 ≤ 10000) ∧ (2800 ≤ 10000 ∧ 10000 ≤ 10000) := by decide

theorem witness_StepsKeepTheLinkAndStartUpLaws : queued.linksSafe ∧ queued.startUpSafe := by
  refine ⟨fun l => ?_, fun h => absurd h (by decide)⟩
  rw [link_queued, source_queued]
  exact ⟨⟨by decide, by decide, fun _ => rfl, rfl, rfl⟩, rfl, rfl⟩

theorem witness_RouteSetReplacesOneRoute :
    running.ready ∧ ([] : List Byte).length ≠ 4 ∧ 1 < (2 : Byte).toNat ∧ ((1 : Byte).toNat ≤ 1 ∧ 32 ≤ (32 : Byte).toNat)
    ∧ 8 ≤ (8 : Byte).toNat ∧ (31 : Fin 32) ≠ 0 ∧ (ending (soundingPart (lockedAt 32))).blockEndDue = true
    ∧ (ending (soundingPart (lockedAt 32))).route 3 = .pair 0 0 := ⟨running_ready, by decide +kernel⟩

theorem witness_RoutesAndCounterSettingsHaveOneWriter : (0x13 : Byte) ≠ 0x12 ∧ (0x71 : Byte) ≠ 0x70 := by decide

/-- Step 1 of the allocation table of chapter 3. -/
theorem witness_ProgOpenChecksAndStartsClearing :
    (let body := [0, 2, 4, 0, 5, 0] ++ byte4 48000 ++ byte4 0 ++ byte4 48000 ++ [0, 0xFF]
     let x : OpenRequest := ⟨0, [(4, none), (5, none)], 48000, 0, 48000, .overwrite, 0xFF⟩
     readOpen body = some x ∧ x.inRange? = some (0, [⟨4, 256⟩, ⟨5, 256⟩], none)
     ∧ (running.prog 0).life = .closed ∧ (∀ lw ∈ [(⟨4, 256⟩ : LaneWeight), ⟨5, 256⟩], running.laneTaken lw.lane = false)
     ∧ allocate running.freeList ([(⟨4, 256⟩ : LaneWeight), ⟨5, 256⟩].length * ((x.dmax + 511) / 512 * 512 + 512) / 512)
        = some (0, [⟨190, 3906⟩])) ∧ running.ready := by
  exact ⟨by decide +kernel, running_ready⟩

/-- The refusals: a body cut short, Dmax above 192,000, a lane taken, an open programme, and no room. -/
theorem witness_ProgOpen_refusals :
    (let x : OpenRequest := ⟨0, [(3, none)], 192000, 0, 0, .overwrite, 0xFF⟩
     readOpen [0, 1, 3] = none ∧ ({ x with dmax := 192001 } : OpenRequest).inRange? = none
     ∧ x.inRange? = some (0, [⟨3, 256⟩], none)
     ∧ ((livePart (unitIn .still)).prog 0).life.isClosed = false ∧ (livePart (unitIn .still)).laneTaken 3 = true
     ∧ (running.prog 0).life.isClosed = true ∧ running.laneTaken 3 = false ∧ allocate [⟨0, 375⟩] (1 * ((192000 + 511) / 512 * 512 + 512) / 512) = none) := by
  decide +kernel

theorem witness_OpenBodyReadsBack :
    ([((3 : Byte), some 65535), (4, none)] : List (Byte × Option Nat)).length < 256
    ∧ (∀ e ∈ ([((3 : Byte), some 65535), (4, none)] : List (Byte × Option Nat)), ∀ w, e.2 = some w → w < 65536)
    ∧ 4294967295 < 4294967296 := by
  refine ⟨by decide, fun e he w hw => ?_, by decide⟩
  simp only [List.mem_cons, List.not_mem_nil, or_false] at he
  rcases he with rfl | rfl <;> simp at hw
  omega

theorem witness_ProgCloseAndGroupActOnTheProgramme :
    (running.setProg 0 (opened (.clearing oneLane 2 0) (unitIn .still))).ready
    ∧ ((running.setProg 0 (opened (.clearing oneLane 2 0) (unitIn .still))).prog 0).life = .clearing oneLane 2 0
    ∧ (groupPart (unitIn (.cueWait (record .jump true) 0))).ready
    ∧ ((groupPart (unitIn (.cueWait (record .jump true) 0))).prog 0).life = .live oneLane 7
    ∧ ((livePart (unitIn .still)).prog 0).life.isClosed = false ∧ ((livePart (unitIn .still)).prog 0).move.state.isCueWait = false
    ∧ (running.prog 0).life.isClosed = true ∧ ((groupPart (unitIn (.cueWait (record .jump true) 0))).prog 0).move.state.isCueWait = true
    ∧ (4 ≤ (4 : Byte).toNat ∧ (4 : Byte) ≠ 0xFF) ∧ ([] : List Byte).length ≠ 2 := by
  refine ⟨⟨rfl, rfl, rfl⟩, by decide +kernel, groupPart_ready _, by decide +kernel, ?_⟩
  decide +kernel

theorem witness_AllocatorGrantsFirstFitAndMerges :
    ([⟨20, 170⟩, ⟨478, 3618⟩] : List Extent).Pairwise (fun a b => a.start + a.len < b.start)
    ∧ (∀ e ∈ ([⟨20, 170⟩, ⟨478, 3618⟩] : List Extent), 1 ≤ e.len)
    ∧ 1 ≤ 171 ∧ allocate [⟨20, 170⟩, ⟨478, 3618⟩] 171 = some (478, [⟨20, 170⟩, ⟨649, 3447⟩])
    ∧ 1 ≤ (⟨190, 288⟩ : Extent).len
    ∧ ∀ page, (⟨190, 288⟩ : Extent).has page → ¬ ∃ e ∈ ([⟨20, 170⟩, ⟨478, 3618⟩] : List Extent), e.has page := by
  refine ⟨by decide, by decide, by decide, by decide, by decide, fun page h => ?_⟩
  simp only [Extent.has, List.mem_cons, List.not_mem_nil, or_false, exists_eq_or_imp, exists_eq_left, not_or] at *
  omega

theorem witness_StepsKeepThePageAndLaneLaws_feeds : queued.feedsSafe := by
  have hr : ∀ n, queued.route n = .unrouted := by decide +kernel
  intro n l k h
  rw [hr] at h; cases h

theorem witness_StepsKeepThePageAndLaneLaws_outStage : queued.outStageSafe := rfl

theorem witness_StepsKeepThePageAndLaneLaws : queued.pagesSafe ∧ queued.lanesSafe := by
  have hx (p : Fin 8) : (queued.prog p).life = .closed := by rw [prog_queued]; rfl
  have hf : queued.freeList = [⟨0, 4096⟩] := rfl
  refine ⟨⟨by rw [hf]; decide, by rw [hf]; decide, ?_, ?_, ?_, ?_, ?_⟩, ?_, ?_⟩
  · intro p e h; rw [hx] at h; cases h
  · intro page h; rw [hf]; exact .inl ⟨⟨0, 4096⟩, by simp, Nat.zero_le _, by simpa using h⟩
  · rintro page p ⟨e, h, -⟩; rw [hx] at h; cases h
  · rintro page p q ⟨e, h, -⟩; rw [hx] at h; cases h
  · intro p h left k hh; rw [hx] at hh; cases hh
  · intro p h hh; rw [hx] at hh; cases hh
  · intro p q n h; rw [hx] at h; cases h

/-- A part with an open programme is safe in its pages, its lanes and its memory. -/
theorem playing_safe (life : Life) (c : Converter) (hl : life = .live oneLane 7 ∨ life = .clearing oneLane 2 4) :
    (playing life c).pagesSafe ∧ (playing life c).lanesSafe ∧ (playing life c).memSafe := by
  have hf : (playing life c).freeList = [⟨2, 4094⟩] := rfl
  have h0 : (playing life c).prog 0 = opened life (unitIn .still) := rfl
  have h1 : life.held? = some oneLane := by rcases hl with rfl | rfl <;> rfl
  have hx (p : Fin 8) (hp : p ≠ 0) : (playing life c).prog p = Programme.reset := by
    have : (playing life c).prog p = running.prog p := State.prog_setProg_ne (s := running) hp _
    rw [this]
    clear this hp
    revert p; decide +kernel
  have hp (p : Fin 8) (h : Held) (k : ((playing life c).prog p).life.held? = some h) : p = 0 ∧ h = oneLane := by
    by_cases hq : p = 0
    · subst hq; rw [h0] at k; exact ⟨rfl, (Option.some.inj (h1.symm.trans k)).symm⟩
    · rw [hx p hq] at k; cases k
  have he (p : Fin 8) (e : Extent) (h : ((playing life c).prog p).life.extent? = some e) : p = 0 ∧ e = ⟨0, 2⟩ := by
    obtain ⟨y, hy, rfl⟩ := Option.map_eq_some_iff.mp h
    obtain ⟨rfl, rfl⟩ := hp p y hy
    exact ⟨rfl, rfl⟩
  refine ⟨⟨by rw [hf]; decide, by rw [hf]; decide, ?_, ?_, ?_, ?_, ?_⟩, ⟨?_, ?_⟩, memWf_reset⟩
  · intro p e h; obtain ⟨-, rfl⟩ := he p e h; decide
  · intro page h
    rw [hf]
    by_cases hq : page < 2
    · exact .inr ⟨0, ⟨0, 2⟩, by rw [h0]; exact congrArg (Option.map Held.extent) h1, Nat.zero_le _, hq⟩
    · exact .inl ⟨⟨2, 4094⟩, by simp, by simp; omega, by simpa [Config.pages] using h⟩
  · rintro page p ⟨e, h, h2, h3⟩ ⟨f, hm, h4, h5⟩
    obtain ⟨-, rfl⟩ := he p e h
    rw [hf, List.mem_singleton] at hm
    subst hm
    simp at *; omega
  · rintro page p q ⟨e, h, -⟩ ⟨f, k, -⟩; rw [(he p e h).1, (he q f k).1]
  · intro p h left k hh
    obtain ⟨rfl, rfl⟩ := hp p h (by rw [hh]; rfl)
    rw [h0] at hh
    rcases hl with rfl | rfl <;> cases hh
    decide
  · intro p h hh; obtain ⟨rfl, rfl⟩ := hp p h hh; rw [h0]
    exact ⟨by decide, by decide, by decide, by change 512 ≤ 192000; decide, by change oneLane.rl = ringLength 512; decide, by decide⟩
  · intro p q n h k
    by_cases h2 : p = 0
    · by_cases h3 : q = 0
      · rw [h2, h3]
      · rw [hx q h3] at k; cases k
    · rw [hx p h2] at h; cases h

theorem witness_StepsKeepDelayMemoryCanonical : queued.memSafe := memWf_reset

theorem witness_RingWritesAndTapsStayInTheRing :
    0 < oneLane.rl ∧ oneLane.rl % 512 = 0 ∧ memWf [(3, ⟨1, true⟩)] = true ∧ 0 < oneLane.lanes.length
    ∧ (512 ≤ 512 ∧ 32 ≤ 32 ∧ 32 ≤ 51) ∧ (32 ≤ 51 ∧ 51 ≤ 51) ∧ oneLane.rl = ringLength 512 ∧ laneTap 512 32 ≤ 531 := by
  decide

/-- A house sample with a LIVE programme, its lane routed. -/
theorem witness_RingWrites_house_sample :
    (let s := soundingPart (lockedAt 40)
     s.startUp = false ∧ s.blockEndDue = false ∧ (s.prog 0).life = .live oneLane 7 ∧ s.ahead.contains (.clear 0) = false
     ∧ 0 < oneLane.lanes.length ∧ s.route 3 = .pair 0 0 ∧ (s.link 0).conv.read.sounding = true)
    ∧ (∃ t, exec (.houseSample true true true) (soundingPart (lockedAt 40)) = .next t)
    ∧ (soundingPart (lockedAt 40)).pagesSafe ∧ (soundingPart (lockedAt 40)).lanesSafe ∧ (soundingPart (lockedAt 40)).memSafe :=
  ⟨by decide +kernel, ⟨_, rfl⟩, playing_safe _ _ (.inl rfl)⟩

/-- The step of the last page but one, of the last page, and one that is not due. -/
theorem witness_PageClearStepClearsTheNextPage :
    (let s (k : Nat) := ticking (running.setProg 0 (opened (.clearing oneLane 1 k) (unitIn .still)))
     (s 5).sampleDue = true ∧ (s 5).ahead.contains (.clear 0) = false ∧ ((s 5).prog 0).life = .clearing oneLane 1 5
     ∧ 5 ≤ 5 ∧ oneLane.extent.start + oneLane.extent.len ≤ 4096 ∧ 1 ≤ oneLane.extent.len
     ∧ ((s 4).prog 0).life = .clearing oneLane 1 4 ∧ 4 < 5) := by decide +kernel

/-- Each kind with its fields: none, a length at and below its least, a rate at and above its most; and FRAMES with a full
history. -/
theorem witness_MoveSetBuildsAClampedDraft :
    (let s := livePart (unitIn .still)
     (s.prog 0).life.isLive = true ∧ (s.prog 0).move.staged.isCommitted = false ∧ 4294967295 < 4294967296
     ∧ (∀ v, some 65535 = some v → v < 65536) ∧ (∀ v, (none : Option Nat) = some v → v < 65536)
     ∧ (((none : Option Nat).isSome = true ↔ KindCode.jump = .glide) ∧ ((none : Option Nat).isSome = true → KindCode.jump = .fade))
     ∧ (((none : Option Nat).isSome = true ↔ KindCode.fade = .glide) ∧ ((some 47).isSome = true → KindCode.fade = .fade))
     ∧ ((some 481).isSome = true ↔ KindCode.glide = .glide)
     ∧ (false = true ↔ (48 < 48 ∨ 4800 < 48)) ∧ (true = true ↔ (47 < 48 ∨ 4800 < 47))
     ∧ (false = true ↔ (480 < 1 ∨ 480 < 480)) ∧ (true = true ↔ (481 < 1 ∨ 480 < 481))
     ∧ max (s.prog 0).low (min (s.prog 0).high 500) = 500 ∧ max (s.prog 0).low (min (s.prog 0).high 501) ≠ 501)
    ∧ (TargetUnit.frames = .frames → 5 ≤ ({ running with ref := { running.ref with history := [1920, 1920, 1920, 1920, 1920] } } : State).ref.history.length)
    ∧ (livePart (unitIn .still)).ready := by
  refine ⟨⟨by decide +kernel, by decide +kernel, by decide, fun v h => ?_, fun v h => (nomatch h), by decide, by decide, by decide,
    by decide, by decide, by decide, by decide, by decide +kernel, by decide +kernel⟩, fun _ => by decide, livePart_ready _⟩
  cases h; decide

/-- MOVE.GO behind a move, from STILL and HALTED, with two reports under BLOCK, cued in a group and without one, and its
refusals. -/
theorem witness_MoveGoStartsOrCommits :
    (let d := Staged.draft (record .jump true)
     let s (u : MoveUnit) : State := groupPart u
     ((s { unitIn (.cueWait (record .jump true) 0) with staged := d }).prog 0).move.staged = d
     ∧ ((s (unitIn .still)).prog 0).life.isLive = true
     ∧ MoveState.cueWait (record .jump true) 0 ≠ .still
     ∧ ((groupPart { unitIn (.halted (record .jump false)) with staged := d }).prog 0).group = some 1
     ∧ ((livePart { unitIn .still with staged := d }).prog 0).group = none
     ∧ ((livePart { unitIn .still with staged := d }).prog 0).policy = .overwrite
     ∧ (({ opened (.live oneLane 7) { unitIn .still with reports := [report9, report9] } with policy := .block } : Programme).policy = .block
        ∧ 2 ≤ [report9, report9].length)
     ∧ (record .jump true).cued = true ∧ (record .jump false).cued = false
     ∧ ((livePart (unitIn .still)).prog 0).move.staged = .empty)
    ∧ ∀ h, MoveState.cueWait (record .jump true) 0 ≠ .halted h := by
  refine ⟨by decide +kernel, fun h => by simp⟩

theorem witness_DiscardAndFinishEmptyTheStagedSlot :
    (let s := livePart { unitIn .still with staged := .draft (record .jump false) }
     (s.prog 0).life.isLive = true ∧ (s.prog 0).move.staged ≠ .empty
     ∧ ((livePart (unitIn .still)).prog 0).move.staged = .empty) := by decide +kernel

/-- A state for each clause: a JUMP moving, a FADE fading out below and at full level, a GLIDE, a wait and a READ_WAIT. -/
theorem witness_MoveHoldStopsWhatItCan :
    (let s (st : MoveState) := livePart (unitIn st)
     let f := record (.fade 240) false
     ((s .still).prog 0).life.isLive = true
     ∧ (record .jump false).kind = .jump ∧ ((s (.moving (record .jump false) .none 0)).prog 0).move.state = .moving (record .jump false) .none 0
     ∧ f.kind = .fade 240 ∧ ((s (.moving f .fadeOut 239)).prog 0).move.state = .moving f .fadeOut 239 ∧ 239 < 240
     ∧ ((s (.moving f .fadeOut 240)).prog 0).move.state = .moving f .fadeOut 240 ∧ 240 ≤ 240
     ∧ ((s (.moving f .fadeIn 1)).prog 0).move.state = .moving f .fadeIn 1
     ∧ ((s (.moving (record (.glide 48) false) .none 0)).prog 0).move.reports.length < 2
     ∧ 2 ≤ ((livePart { unitIn (.moving f .fadeOut 240) with reports := [report9, report9] }).prog 0).move.reports.length
     ∧ ((groupPart (unitIn (.cueWait (record .jump true) 0))).prog 0).move.state = .cueWait (record .jump true) 0
     ∧ ((s (.readWait f none)).prog 0).move.state = .readWait f none) := by decide +kernel

theorem witness_MoveHoldallHoldsEveryLiveProgramme :
    (livePart (unitIn (.moving (record (.glide 48) false) .none 0))).ready
    ∧ ((livePart (unitIn (.moving (record (.glide 48) false) .none 0))).prog 0).life.isLive = true
    ∧ ((livePart (unitIn .still)).prog 1).life.isLive = false
    ∧ (record (.glide 48) false).kind = .glide 48
    ∧ ((livePart (unitIn (.readWait (record .jump false) none))).prog 0).move.state = .readWait (record .jump false) none
    ∧ (let s := groupPart (unitIn (.cueWait (record .jump true) 0))
       (s.prog 0).group = some 1 ∧ (s.prog 0).move.state = .cueWait (record .jump true) 0 ∧ (after (.moveHoldall 5 []) s).waiting 1 = [])
    ∧ (let f := record (.fade 240) false
       ((livePart (unitIn (.moving f .fadeOut 240))).prog 0).move.state = .moving f .fadeOut 240 ∧ f.kind = .fade 240 ∧ 240 ≤ 240) :=
  ⟨livePart_ready _, by decide +kernel⟩

theorem witness_ResumeAndReportsMoveTheUnitOn :
    (let h := livePart (unitIn (.halted (record (.fade 240) false)))
     let r (d : Option Decided) := livePart { unitIn (.readWait (record .jump false) d) with reports := [report9, report9] }
     (h.prog 0).life.isLive = true ∧ (h.prog 0).move.state = .halted (record (.fade 240) false)
     ∧ ((r (some ⟨50, 3⟩)).prog 0).move.state = .readWait (record .jump false) (some ⟨50, 3⟩)
     ∧ ((r (some ⟨50, 3⟩)).prog 0).move.staged.isCommitted = false
     ∧ ((r none).prog 0).move.state = .readWait (record .jump false) none ∧ (record .jump false).cued = false)
    ∧ (let c (g : Option (Fin 4)) (q : Bool) (d : Option Decided) : State := (groupPart (unitIn .still)).setProg 0
         { opened (.live oneLane 7) { unitIn (.readWait (record .jump q) d) with
             staged := if d.isSome then .committed (record .jump q) else .empty, reports := [report9, report9] } with
           group := g, policy := .block }
       ((c (some 1) true (some ⟨50, 3⟩)).prog 0).move.staged = .committed (record .jump true)
       ∧ ((c none false (some ⟨50, 3⟩)).prog 0).move.staged = .committed (record .jump false)
       ∧ ((c (some 1) true none).prog 0).move.state = .readWait (record .jump true) none ∧ (record .jump true).cued = true
       ∧ ((c none true none).prog 0).group = none ∧ ((c (some 1) true none).prog 0).group = some 1
       ∧ ((c none true none).prog 0).life.isLive = true)
    ∧ (∀ r, ((livePart (unitIn .still)).prog 0).move.state ≠ .halted r)
    ∧ ∀ r d, ((livePart (unitIn .still)).prog 0).move.state ≠ .readWait r d := by
  have hs : ((livePart (unitIn .still)).prog 0).move.state = .still := by decide +kernel
  refine ⟨by decide +kernel, by decide +kernel, fun r => ?_, fun r d => ?_⟩ <;> simp [hs]

/-- Each move that ends, at its boundary, and a GLIDE and a FADE one step short; each thing that can be staged behind it, with
the slots free and full. -/
theorem witness_MoveEndReportsTheMove :
    (let f := record (.fade 240) false
     let g := record (.glide 48) false
     let c := Staged.committed (record .jump true)
     let s (st : MoveState) := ticking (livePart (unitIn st))
     let x (u : MoveUnit) := (groupPart u).prog 0
     (s (.moving f .fadeIn 239)).sampleDue = true ∧ ((s (.moving f .fadeIn 239)).prog 0).life = .live oneLane 7
     ∧ (s (.moving f .fadeIn 239)).ahead.contains (.clear 0) = false ∧ (s (.moving f .fadeIn 239)).ahead.contains (.move 0) = false
     ∧ ((s (.moving f .fadeIn 239)).prog 0).move.state = .moving f .fadeIn 239 ∧ 240 ≤ 239 + 1 ∧ 238 + 1 < 240
     ∧ ((s (.moving f .fadeBack 239)).prog 0).move.state = .moving f .fadeBack 239 ∧ MoveOutcome.halted ≠ .reached
     ∧ ((s (.moving (record .jump false) .none 0)).prog 0).move.state = .moving (record .jump false) .none 0
     ∧ ((s (.moving g .none 0)).prog 0).move.state = .moving g .none 0
     ∧ (let far (pos : Nat) := max (100 * 65536) pos - min (100 * 65536) pos
        far (100 * 65536 - 655) ≤ (2 * (48 * 65536) + 4800) / 9600 ∧ (2 * (48 * 65536) + 4800) / 9600 < far (100 * 65536 + 656))
     ∧ Phase.fadeIn ≠ .fadeOut ∧ 1 < 240
     ∧ (x { unitIn .still with staged := c }).move.staged = c ∧ (x (unitIn .still)).group = some 1 ∧ (record .jump true).cued = true
     ∧ ((livePart { unitIn .still with staged := c }).prog 0).group = none ∧ (x (unitIn .still)).move.staged.isCommitted = false
     ∧ (record .jump false).cued = false ∧ (unitIn .still).reports.length < 2
     ∧ ({ x (unitIn .still) with policy := .block } : Programme).policy = .block
     ∧ 2 ≤ (({ unitIn .still with reports := [report9] } : MoveUnit).reported report9).reports.length) := by decide +kernel

/-- Rates at both ends of their range, and the shortest FADE. -/
theorem witness_GlidesAndFadesLastAsLongAsStated :
    (record (.glide 1) false).kind = .glide 1 ∧ (1 ≤ 1 ∧ 1 ≤ 480) ∧ (record (.glide 480) false).kind = .glide 480
    ∧ (1 ≤ 480 ∧ 480 ≤ 480) ∧ (record (.fade 1) false).kind = .fade 1 ∧ 1 ≤ 1 := by decide

theorem witness_StepsKeepTheMoveLaw : queued.movesSafe := by
  intro p h
  rw [prog_queued] at h
  cases h

theorem witness_CueSetAndSnapReadActOnTheGroup :
    running.ready ∧ 65535 < 65536 ∧ (running.snap 3).snap = none
    ∧ ((running.setSnap 3 ⟨some ⟨3, 7, 5, true, []⟩, true⟩).snap 3).snap = some ⟨3, 7, 5, true, []⟩ := ⟨running_ready, by decide +kernel⟩

theorem witness_CueFireTakesTheCue :
    (let s (x : CueSource) := (groupPart (unitIn (.cueWait (record .jump true) 1))).setGroup 1
       { CueGroup.reset with source := x, snapshot := true, restart := true }
     ((s .none).group 1).source = .none ∧ ((s .frame).group 1).source = .frame
     ∧ ((s .cue0).group 1).source ≠ .none ∧ ((s .cue0).group 1).source ≠ .frame
     ∧ 0 ∈ (s .cue0).members 1 ∧ ((s .cue0).prog 0).move.state = .cueWait (record .jump true) 1
     ∧ 1 ∉ (s .cue0).members 1 ∧ ((s .cue0).group 1).snapshot = true)
    ∧ (groupPart (unitIn (.cueWait (record .jump true) 1))).ready := ⟨by decide +kernel, groupPart_ready _⟩

/-- A house sample at which each line rises over a group that it cues: CUE0, CUE1, and FRM over an armed group at both ends of
the accepted interval. -/
theorem witness_CueFireTakesTheCue_lines :
    (let s (x : CueSource) := (ticking (groupPart (unitIn (.cueWait (record .jump true) 1)))).setGroup 1
       { CueGroup.reset with source := x, snapshot := true, restart := true, armed := true }
     let u (x : CueSource) (e : Stamp) : State := { s x with ref := { (s x).ref with
       hsc := 2999, frmPrev := false, cue0Prev := false, cue1Prev := false, edgePrev := some e } }
     let t := after (.houseSample true true true) (u .frame 600)
     (u .cue0 0).startUp = false ∧ (u .cue0 0).blockEndDue = false ∧ ((u .cue0 0).group 1).source = .cue0
     ∧ (u .cue0 0).ref.cue0Prev = false ∧ ((u .cue1 0).group 1).source = .cue1 ∧ (u .cue1 0).ref.cue1Prev = false
     ∧ ((u .frame 600).group 1).source = .frame ∧ ((u .frame 600).group 1).armed = true ∧ (u .frame 600).ref.frmPrev = false
     ∧ (u .frame 600).ref.edgePrev = some 600 ∧ (t.ref.hsc - 600).toNat = 2400 ∧ ((3000 : Stamp) - 2232).toNat = 768
     ∧ 0 ∈ (u .cue0 0).members 1 ∧ ((u .cue0 0).group 1).snapshot = true
     ∧ (((u .cue0 0).steppedAt 3000 0).prog 0).move.state = .cueWait (record .jump true) 1 ∧ ((u .cue0 0).group 0).source = .none)
    ∧ ∃ t, exec (.houseSample true true true) (ticking (groupPart (unitIn (.cueWait (record .jump true) 1)))) = .next t :=
  ⟨by decide +kernel, ⟨_, rfl⟩⟩

/-- An absence at the limit and one house sample before it, and intervals at both ends of the range and just outside. -/
theorem witness_FrameReferenceComesAndGoes :
    (let s (h : Stamp) : State := { running with ref := { running.ref with
       started := true, hsc := h, phase := 5, present := true, run := 2, edgeAccepted := some 500, history := [1920] } }
     (s 10099).sampleDue = true ∧ (s 10099).ahead.contains .frameRef = false ∧ (s 10099).ref.present = true
     ∧ (s 10099).ref.edgeAccepted = some 500
     ∧ max (3 * ((s 10099).ref.history.getLast?).getD 0) 9600 ≤ (((s 10099).ref.hsc + 1) - 500).toNat
     ∧ (((s 10098).ref.hsc + 1) - 500).toNat < max (3 * ((s 10098).ref.history.getLast?).getD 0) 9600)
    ∧ (let r (h : Stamp) : RefUnit := { RefUnit.reset with hsc := h, edgePrev := some 500 }
       (r 1268).edgePrev = some 500 ∧ 768 ≤ ((r 1268).hsc - 500).toNat ∧ ((r 2900).hsc - 500).toNat ≤ 2400
       ∧ (r 1268).run ≤ 2 ∧ (r 1268).history.length ≤ 5
       ∧ ((r 1267).hsc - 500).toNat < 768 ∧ 2400 < ((r 2901).hsc - 500).toNat)
    ∧ RefUnit.reset.edgePrev = none := by decide +kernel

theorem witness_FrameReferenceComesAndGoes_law : queued.refSafe := by
  refine ⟨by decide, by decide, fun d h => ?_, by decide, by decide, by decide, by decide⟩
  cases h

/-- The law holds of a present reference with five intervals. -/
theorem test_refSafe_present :
    ({ RefUnit.reset with edgeAccepted := some 19000, history := [1920, 768, 2400, 800, 1000], run := 2, present := true }).safe := by
  refine ⟨by decide, by decide, fun d h => ?_, by decide, by decide, by decide, by decide⟩
  simp only [List.mem_cons, List.not_mem_nil, or_false] at h
  omega

theorem witness_CueTimeoutEndsTheWait :
    (let s := ending (groupPart (unitIn (.cueWait (record .jump true) 2)))
     s.blockEndDue = true ∧ s.ahead.contains (.cueWait 0) = false ∧ (s.prog 0).move.state = .cueWait (record .jump true) 2
     ∧ (s.prog 0).group = some 1 ∧ (s.group 1).timeout ≤ 2 + 1 ∧ (s.prog 0).move.reports.length < 2
     ∧ 2 ≤ ((ending (groupPart { unitIn (.cueWait (record .jump true) 2) with reports := [report9, report9] })).prog 0).move.reports.length
     ∧ 1 + 1 < (s.group 1).timeout) := by decide +kernel

/-- A wait that times out at a BLOCK_END and one that does not. -/
theorem witness_CueTimeoutEndsTheWait_blockEnd :
    (let s (k : Nat) := ending (groupPart (unitIn (.cueWait (record .jump true) k)))
     (s 2).blockEndDue = true ∧ (s 2).ahead.contains (.cueWait 0) = false
     ∧ ((s 2).prog 0).move.state = .cueWait (record .jump true) 2 ∧ ((s 2).prog 0).group = some 1 ∧ ((s 2).group 1).timeout ≤ 2 + 1
     ∧ ¬ ((s 1).group 1).timeout ≤ 1 + 1 ∧ (after .blockEnd (s 2)).waiting 1 = [] ∧ (after .blockEnd (s 1)).waiting 1 = [0]) := by
  decide +kernel

/-- Programmes 0 and 1 wait in group 1, and both are about to time out. -/
def bothWaiting : State :=
  (ending (groupPart (unitIn (.cueWait (record .jump true) 2)))).setProg 1
    { opened (.live ⟨[⟨5, 256⟩], 1024, ⟨2, 2⟩⟩ 7) (unitIn (.cueWait (record .jump true) 2)) with group := some 1 }

theorem witness_CueTimeoutEndsTheWait_cueBetween :
    bothWaiting.amidBlockEnd ∧ bothWaiting.ahead.contains (.cueWait 0) = false
    ∧ (bothWaiting.prog 0).move.state = .cueWait (record .jump true) 2 ∧ (bothWaiting.prog 0).group = some 1
    ∧ (bothWaiting.group 1).timeout ≤ 2 + 1 ∧ 1 ∈ bothWaiting.members 1
    ∧ (bothWaiting.prog 1).move.state = .cueWait (record .jump true) 2
    ∧ (bothWaiting.group 1).source ≠ .none ∧ (bothWaiting.group 1).source ≠ .frame := by
  refine ⟨⟨rfl, rfl⟩, ?_⟩
  decide +kernel

/-- R101: a cue between two timeouts of one block end starts the member still waiting; with the block end before it both are
missed. -/
theorem test_cue_between_timeouts :
    (let t := after .blockEnd (after (.cueFire 3 [1]) (after (.cueTimeout 0) bothWaiting))
     let u := after (.cueFire 3 [1]) (after .blockEnd (after (.cueTimeout 0) bothWaiting))
     (t.prog 0).move.state = .still ∧ (t.prog 1).move.state = .moving (record .jump true) .none 0
     ∧ (t.prog 1).move.reports = [] ∧ t.ref.blockNo = bothWaiting.ref.blockNo + 1
     ∧ (u.prog 0).move.state = .still ∧ (u.prog 1).move.state = .still) := by decide +kernel

theorem witness_MeterRequestsActOnTheMeter :
    (∀ v ∈ [LoudSettings.defaults.target, LoudSettings.defaults.upper, LoudSettings.defaults.lower,
      LoudSettings.defaults.silence, LoudSettings.defaults.ceiling], -32768 ≤ v ∧ v ≤ 32767)
    ∧ ((livePart (unitIn .still)).prog 0).life.isClosed = false := by decide +kernel

/-- The energy at the floor of 10^-10, and full scale for a peak. -/
theorem witness_LevelsAndFilterArithmeticAreRounded :
    0 < 10 ^ 10 ∧ 0 * 1 ≤ 1 * 10 ^ 10 ∧ (10 : ℝ) ^ (-10 : ℤ) ≤ ((1 : Nat) : ℝ) / ((10 ^ 10 : Nat) : ℝ)
    ∧ ((0 : Nat) : ℝ) / ((1 : Nat) : ℝ) < (10 : ℝ) ^ (-10 : ℤ) ∧ 0 < 8388608 ∧ 8388608 ≤ 8388608 ∧ (2 ^ 53 + 1 : Int) ≠ 0 := by
  refine ⟨by decide, by decide, by norm_num, by norm_num, by decide, by decide, by decide⟩

/-- A block whose window enters a bin, one whose window is suspect, and lane lists of one length. -/
theorem witness_BlockResultsMeasureTheBlock_window :
    (let l : LaneMeter := { LaneMeter.fresh with acc := ⟨4800, 2⟩, blockMax := 2097152 }
     let m : Meter := { Meter.opened 1 with lanes := [l], ring := List.replicate 3 ⟨2 ^ 46, false⟩, n := 3 }
     let a := (m.result oneLane.lanes false).1
     let b := (m.result oneLane.lanes true).1
     oneLane.lanes.length = m.lanes.length ∧ m.hist = [] ∧ 4 ≤ a.n ∧ (∀ x ∈ a.ring.take 4, x.suspect = false)
     ∧ -700 ≤ level ((a.ring.take 4).map RingEntry.energy).sum (2 ^ 50) ∧ a.entered = 1 ∧ ¬ (∀ x ∈ b.ring.take 4, x.suspect = false)
     ∧ b.entered = 0) := by decide +kernel

theorem witness_BlockResultsMeasureTheBlock :
    (∀ b ∈ ([⟨-207, 1, 11258999068426⟩] : List Bin), b.safe ∧ b.sum ≤ b.count * (16 * 2 ^ 50))
    ∧ ([⟨-207, 1, 11258999068426⟩] : List Bin) ≠ [] := by
  have h : level 11258999068426 (1 * 2 ^ 50) = -207 := by decide +kernel
  refine ⟨fun b hb => ?_, by simp⟩
  simp only [List.mem_singleton] at hb
  subst hb
  exact ⟨⟨by decide, by decide, by decide, h.ge, fun _ => h⟩, by decide⟩

theorem witness_StepsKeepTheMeterAndGainLaws_lanes : queued.meterLanesSafe := by
  intro p h hh
  rw [prog_queued] at hh; cases hh

theorem witness_StepsKeepTheMeterAndGainLaws : queued.metersSafe ∧ queued.gainsSafe := by
  refine ⟨fun p => ?_, fun p => ?_⟩ <;> rw [prog_queued]
  · exact ⟨rfl, fun b hb => (nomatch hb), by decide⟩
  · exact ⟨rfl, by decide, by decide, by decide, by decide, by decide, by decide, by decide, by decide⟩

theorem witness_GainSetClampsAndActsOnTheMode :
    (∀ v ∈ [GainSettings.defaults.boost, GainSettings.defaults.cut, GainSettings.defaults.rise, GainSettings.defaults.fall,
      GainSettings.defaults.fixed], -32768 ≤ v ∧ v ≤ 32767)
    ∧ ((livePart (unitIn .still)).prog 0).life.isClosed = false := by decide +kernel

/-- The two entries due at R_p 475,400 and the one that is not (chapter 7). -/
theorem witness_GainLawAndScheduleTake :
    Corrector.reset.safe
    ∧ ({ Corrector.reset with mode := .track, schedule := [⟨470400, -100⟩, ⟨475400, -90⟩] ++ [⟨475401, -80⟩] } : Corrector).mode = .track
    ∧ (∀ e ∈ ([⟨470400, -100⟩, ⟨475400, -90⟩] : List ScheduleEntry), e.due ≤ 475400)
    ∧ (∀ e ∈ ([⟨475401, -80⟩] : List ScheduleEntry), 475400 < e.due)
    ∧ LoudSettings.defaults.ceiling - (-30) ≥ -Corrector.reset.settings.cut ∧ ((-21 : Int) < -20 ∧ (-20 : Int) < -19) := by
  refine ⟨⟨rfl, by decide, by decide, by decide, by decide, by decide, by decide, by decide, by decide⟩, rfl, by decide, by decide, by decide, by decide⟩

theorem witness_AppliedGainStepMovesOneTenth :
    (let s (k : Nat) := (ticking (livePart (unitIn .still))).setGain 0
       { Corrector.reset with mode := .track, taken := -30, applied := -20, ramp := k, schedule := [⟨9, 4⟩] }
     (s 47).sampleDue = true ∧ ((s 47).prog 0).life = .live oneLane 7 ∧ (s 47).ahead.contains (.clear 0) = false
     ∧ (s 47).ahead.contains (.gain 0) = false ∧ ((s 47).prog 0).move.state = .still
     ∧ (((s 47).prog 0).gain.mode = .track → ∀ e ∈ ((s 47).prog 0).gain.schedule, ((7 : Nat) : Int) - ((s 47).prog 0).move.dcur < e.due)
     ∧ ((s 47).prog 0).gain.applied ≠ ((s 47).prog 0).gain.taken ∧ 47 ≤ ((s 47).prog 0).gain.ramp
     ∧ ((s 46).prog 0).gain.ramp < 47) := by decide +kernel

/-- Both ends of the applied gain; a fade; products above, below and inside the range. -/
theorem witness_GainFactorAndOutputMultiply :
    ((-300 : Int) ≤ -300 ∧ (-300 : Int) ≤ 200) ∧ ((-300 : Int) ≤ 200 ∧ (200 : Int) ≤ 200) ∧ 0 < 240 ∧ 120 ≤ 240
    ∧ 8388607 < multiplied 0x7FFFFF#24 33554432 (1, 1) ∧ multiplied 0x800000#24 33554432 (1, 1) < -8388608
    ∧ -8388608 ≤ multiplied 0x800000#24 16777216 (240, 240) ∧ multiplied 0x7FFFFF#24 16777216 (120, 240) ≤ 8388607
    ∧ 16777216 ≤ 16777216 := by decide

/-- A priority change on an accepted source, and a raise and a clear timer that the new times end. -/
theorem witness_AlmSetStoresAndTestsTheTimer :
    (let s := withSource 0 { Source.reset with accepted := true } running
     (s.source 0).accepted = true ∧ min (5 : Byte).toNat 7 ≠ (s.source 0).priority ∧ min (9 : Byte).toNat 7 = (s.source 0).priority
     ∧ (running.source 0).accepted = false ∧ 65535 < 65536)
    ∧ (withSource 0 { Source.reset with accepted := true } running).ready := ⟨by decide +kernel, ⟨rfl, rfl, rfl⟩⟩

theorem witness_AlarmServicePicksAcceptsAndCloses :
    nested.ready
    ∧ (∃ el : Fin 59 → Prop, (∀ n, el n ↔ ((nested.source n).pending = true ∧ (nested.source n).masked = false
        ∧ (∀ m, (nested.source m).accepted = true → (nested.source n).priority < (nested.source m).priority)
        ∧ (nested.source n).priority < 8 ∧ (nested.source n).priority ≤ nested.threshold))
      ∧ el 42 ∧ ∀ m, el m → (nested.source 42).priority < (nested.source m).priority
        ∨ ((nested.source 42).priority = (nested.source m).priority ∧ 42 ≤ m))
    ∧ (∀ n : Fin 59, (running.source n).pending = false ∧ (running.source n).accepted = false)
    ∧ (nested.source 0).accepted = true
    ∧ (∀ m, (nested.source m).accepted = true → m ≠ 0 → (nested.source 0).priority < (nested.source m).priority)
    ∧ (59 ≤ (59 : Byte).toNat ∧ (59 : Byte) ≠ 0xFF) := by
  refine ⟨⟨rfl, rfl, rfl⟩, ⟨_, fun n => Iff.rfl, ?_, ?_⟩, ?_, ?_, ?_, ?_⟩ <;> decide +kernel

/-- Timers one block short of their end and at it, and a source with no timer. -/
theorem witness_TimersQualifyAndLoseQualification :
    (let s (x : Source) := withSource 44 x (ending running)
     let a := s { Source.reset with raiseTime := 2, condition := true, timer := 1 }
     let b := s { Source.reset with clearTime := 3, qualified := true, timer := 2 }
     a.blockEndDue = true ∧ a.ahead.contains (.source 44) = false ∧ sourceIsLevel 44 = true ∧ (a.source 44).condition = true
     ∧ (a.source 44).qualified = false ∧ (a.source 44).raiseTime ≤ (a.source 44).timer + 1
     ∧ (b.source 44).condition = false ∧ (b.source 44).qualified = true ∧ (b.source 44).clearTime ≤ (b.source 44).timer + 1
     ∧ ((s { Source.reset with raiseTime := 2, condition := true, timer := 0 }).source 44).timer + 1 < 2
     ∧ ((s Source.reset).source 44).condition = ((s Source.reset).source 44).qualified
     ∧ ((s { Source.reset with clearTime := 4, qualified := true, timer := 2 }).source 44).timer + 1 < 4) := by decide +kernel

/-- A contact one block end short of its minimum on-time and at it. -/
theorem witness_ContactsAssertAndRelease :
    (let s (k : Nat) := (ending running).setContact 0 { ceiling := some 3, minOn := 20, asserted := true, onTime := k }
     (s 19).blockEndDue = true ∧ (s 19).ahead.contains (.contact 0) = false ∧ ((s 19).contact 0).asserted = true
     ∧ demand (s 19).sources ((s 19).contact 0).ceiling = false
     ∧ ((s 19).contact 0).minOn ≤ min 100 (((s 19).contact 0).onTime + 1)
     ∧ ((s 18).contact 0).onTime ≤ 100 ∧ min 100 (((s 18).contact 0).onTime + 1) < ((s 18).contact 0).minOn ∧ 65535 < 65536)
    ∧ running.ready := ⟨by decide +kernel, running_ready⟩

/-- A contact at a BLOCK_END without demand on both sides of its minimum on-time, one with a demand that stays, one whose demand
comes at the block end, and one not asserted. -/
theorem witness_ContactsAssertAndRelease_blockEnd :
    (let s (on : Bool) (k : Nat) (x : Source) := ending ((withSource 44 x running).setContact 0
       { ceiling := some 7, minOn := 20, asserted := on, onTime := k })
     let up : Source := { Source.reset with condition := true, raiseTime := 1 }
     let held : Source := { Source.reset with pending := true, qualified := true, condition := true }
     let e (u : State) := (after .blockEnd u).contact 0
     (s true 19 .reset).blockEndDue = true ∧ (s true 19 .reset).ahead.contains (.contact 0) = false
     ∧ (e (s true 19 .reset)).asserted = false ∧ (e (s true 18 .reset)).onTime = 19
     ∧ (let l := lockedAt 32
        let q (u : State) := u.setLink 2 ⟨{ Receiver.reset with enable := true }, l⟩
        (e (q (s true 25 held))).onTime = 26 ∧ ((after .blockEnd (q (s true 25 held))).source 44).pending = true
        ∧ ((after .blockEnd (q (s false 0 up))).source 44).pending = true ∧ (e (q (s false 0 up))).asserted = true
        ∧ (e (q (s true 5 up))).onTime = 6)) := by decide +kernel

theorem witness_StepsKeepTheAlarmLaws : queued.sourcesSafe ∧ queued.outputsSafe := by
  refine ⟨⟨fun n => ?_, fun n => ?_, fun m n h => ?_, fun n _ => ?_⟩, by decide +kernel, fun c => ?_⟩
  · rw [source_queued]; decide
  · rw [source_queued]; decide
  · rw [source_queued] at h; cases h
  · rw [source_queued]; exact ⟨rfl, rfl, rfl, rfl, rfl⟩
  · rw [contact_queued]; exact ⟨fun h => (nomatch h), fun h => (nomatch h), fun _ => rfl, fun _ => rfl⟩

theorem witness_CounterRequestsActOnTheCounter :
    running.ready ∧ ((0x08 : BitVec 8) = 0 ∨ ∃ e, some CountEvent.slip = some e ∧ e.ownerless = false)
    ∧ ((0x08 : BitVec 8) ≠ 0 ∧ ((none : Option CountEvent) = none)) ∧ (∃ e, some CountEvent.blocks = some e ∧ e.ownerless = true)
    ∧ (8 ≤ (8 : Byte).toNat ∧ (8 : Byte) ≠ 0xFF) ∧ ([] : List Byte).length ≠ 1 := by
  refine ⟨running_ready, .inr ⟨_, rfl, rfl⟩, by decide, ⟨_, rfl, rfl⟩, by decide, by decide⟩

/-- Step 4 of chapter 10, and an event that no counter takes to half range. -/
theorem witness_CountingEventsReachTheCounters :
    (let s := running.setCounter 5 { Counter.reset with event := some .clipped, mode := .saturate, alarmEnable := true, value := 2147483000 }
     38400 ≤ 38400 ∧ (s.counter 5).event ≠ some .alarmRaise
     ∧ (∃ c, Counter.alarms .clipped (some 6) 5000 (s.counter c) = true)
     ∧ (∀ c, Counter.alarms .clipped (some 6) 5 (s.counter c) = false)
     ∧ (s.source counterSource).accepted = false
     ∧ ((withSource 56 { Source.reset with accepted := true } s).source counterSource).accepted = true) := by decide +kernel

/-- A counter of ALARM_RAISE one below half range: a raise takes it across, and the COUNTER raise that follows is counted too. -/
theorem witness_CountingEventsReachTheCounters_raises :
    (let s := running.setCounter 5 { Counter.reset with event := some .alarmRaise, alarmEnable := true, value := 2147483647 }
     let x := { s.source 57 with condition := true }
     (∀ v, v ∈ [CountEvent.slip, .blocks] → v ≠ .alarmRaise) ∧ (57 : Fin 59) ≠ counterSource
     ∧ x.qualified = (s.source 57).qualified ∧ ((s.storeSettings 57 x).source 57).qualified = true
     ∧ s.crossings (s.latch 1) = 1 ∧ ((s.latch 1).counter 5).value = 2147483649
     ∧ ((s.storeSettings 57 x).counter 5).value = 2147483649 ∧ ((s.latch 1).source counterSource).raiseCount = 1) := by decide +kernel

theorem witness_HouseSampleAdvancesThePart :
    (let s := ticking (livePart (unitIn .still))
     let c := running.setProg 0 (opened (.clearing oneLane 2 4) (unitIn .still))
     s.startUp = false ∧ s.extentOutside? = none ∧ s.blockEndDue = false ∧ (s.prog 0).life = .live oneLane 7
     ∧ s.ahead.contains (.clear 0) = false ∧ (s.prog 1).life = .closed
     ∧ (let d (left : Nat) := running.setProg 0 (opened (.clearing oneLane left 5) (unitIn .still))
        (d 2).extentOutside? = none ∧ ((d 2).prog 0).life = .clearing oneLane 2 5
        ∧ (d 2).ahead.contains (.clear 0) = false ∧ ((after (.houseSample true true true) (d 2)).prog 0).life = .clearing oneLane 1 0
        ∧ ((after (.houseSample true true true) (d 1)).prog 0).life = .live oneLane 0
        ∧ (after (.pageClearStep 0) (d 1)).ahead.contains (.clear 0) = true)
     ∧ (c.prog 0).life = .clearing oneLane 2 4 ∧ 4 < 5 ∧ s.outPipe ≠ []
     ∧ hasLane (s.prog 0).life.lanes 3 = true ∧ (∀ p, hasLane (s.prog p).life.lanes 4 = false)
     ∧ (running.setProg 0 (opened (.live { oneLane with extent := ⟨4095, 2⟩ } 7) (unitIn .still))).extentOutside? = some 0
     ∧ (ending running).blockEndDue = true ∧ ∃ u, exec .blockEnd (ending running) = .next u) := by
  exact ⟨by decide +kernel, by decide +kernel, by decide +kernel, by decide +kernel, by decide +kernel, by decide +kernel,
    by decide +kernel, by decide +kernel, by decide, by decide +kernel, by decide +kernel, by decide +kernel, by decide +kernel,
    by decide +kernel, ⟨_, rfl⟩⟩

/-- The house sample with the corrector's share to come and taken ahead, and a programme of no group, which no cue reaches. -/
theorem witness_HouseSampleAdvancesThePart_units :
    (let s := soundingPart (lockedAt 40)
     let a := after (.appliedGainStep 0) (s.setGain 0 { Corrector.reset with mode := .fixed, taken := -30, applied := -20, ramp := 47 })
     s.ahead.contains (.gain 0) = false ∧ a.ahead.contains (.gain 0) = true ∧ (a.prog 0).life = .live oneLane 7
     ∧ (s.prog 0).group = none ∧ s.liveIndex? 1 = none ∧ s.stepsAt 0 = true ∧ (s.prog 1).life = .closed) := by decide +kernel

/-- A LIVE lane that sounds and one whose converter does not, and a lane of a CLEARING programme, in states safe in their pages,
lanes and memory. -/
theorem witness_HouseSampleAdvancesThePart_lanes :
    (let s := soundingPart (lockedAt 40)
     s.startUp = false ∧ s.extentOutside? = none ∧ s.blockEndDue = false ∧ s.ahead = [] ∧ (s.prog 0).life = .live oneLane 7
     ∧ oneLane.lanes[0].lane = 3 ∧ s.route 3 = .pair 0 0 ∧ (s.link 0).conv.read.sounding = true ∧ (s.link 0).conv.cl = some 41
     ∧ ((soundingPart Converter.reset).link 0).conv.read.sounding = false
     ∧ ((after (.houseSample true true true) s).outPipe.getLast?).isSome = true ∧ hasLane oneLane.lanes 3 = true
     ∧ ((playing (.clearing oneLane 2 4) (lockedAt 40)).prog 0).life = .clearing oneLane 2 4)
    ∧ (playing (.clearing oneLane 2 4) (lockedAt 40)).lanesSafe
    ∧ (soundingPart (lockedAt 40)).lanesSafe ∧ (soundingPart (lockedAt 40)).pagesSafe ∧ (soundingPart (lockedAt 40)).memSafe :=
  ⟨by decide +kernel, (playing_safe _ _ (.inr rfl)).2.1, (playing_safe _ _ (.inl rfl)).2.1, (playing_safe _ _ (.inl rfl)).1, (playing_safe _ _ (.inl rfl)).2.2⟩

/-- A block result in TRACK with D_cur at 4,799 and at 4,800, and one in FIXED; a LOCK source taken ahead and one not; a window that slips
and one that does not; a cue wait below its timeout. -/
theorem witness_BlockEndReachesEveryBlock_result :
    (let s (d : Nat) (m : GainMode) := (ending (livePart { unitIn .still with pos := d * 65536 })).setGain 0 { Corrector.reset with mode := m }
     (s 4799 .track).blockEndDue = true ∧ ((s 4799 .track).prog 0).life = .live oneLane 7
     ∧ ((s 4799 .track).prog 0).meter.opening = false ∧ ((s 4799 .track).prog 0).gain.mode = .track
     ∧ ((s 4799 .track).prog 0).move.dcur < 4800 ∧ 4800 ≤ ((s 4800 .track).prog 0).move.dcur
     ∧ ((s 4800 .fixed).prog 0).gain.mode ≠ .track ∧ sourceIsLevel 44 = true
     ∧ (after (.sourceQualifies 44) (s 4800 .track)).ahead.contains (.source 44) = true
     ∧ (s 4800 .track).ahead.contains (.source 44) = false)
    ∧ (({ lockedAt 60 with state := .holdover (lockOf 4410) 1 } : Converter).judgeWindow 4410).slip = true
    ∧ ((lockedAt 32).judgeWindow 4410).slip = false
    ∧ (let s := ending (groupPart (unitIn (.cueWait (record .jump true) 1)))
       (s.prog 0).group = some 1 ∧ s.ahead.contains (.cueWait 0) = false ∧ 1 + 1 < (s.group 1).timeout) := by decide +kernel

/-- A programme at its opening block end, one past it, and one not LIVE; counters of BLOCKS and MEM_OCC. -/
theorem witness_BlockEndReachesEveryBlock :
    (let s := ending (livePart (unitIn .still))
     let o := s.setMeter 0 { Meter.reset with opening := true }
     s.blockEndDue = true ∧ running.blockEndDue = false ∧ (s.prog 0).life = .live oneLane 7 ∧ (s.prog 0).meter.opening = false
     ∧ (o.prog 0).life = .live oneLane 7 ∧ (o.prog 0).meter.opening = true ∧ (s.prog 1).life.isLive = false
     ∧ ((s.setCounter 0 { Counter.reset with event := some .blocks }).counter 0).event = some .blocks
     ∧ ((s.setCounter 0 { Counter.reset with event := some .memOcc }).counter 0).event = some .memOcc) := by decide +kernel

/-! ### The checks of a request: a value at each boundary -/

theorem witness_StatusReadsReplyTheRecord_checks : running.ready ∧ [(0 : Byte), 0].length ≠ 1 ∧ 8 ≤ (8 : Byte).toNat :=
  ⟨running_ready, by decide⟩

theorem witness_ProgCloseAndGroup_checks : running.ready ∧ 8 ≤ (8 : Byte).toNat ∧ 8 ≤ (255 : Byte).toNat := ⟨running_ready, by decide⟩

/-- A body of no such length, codes just past the last, and for each check of a LIVE programme a request it refuses. -/
theorem witness_MoveSet_checks :
    (livePart (unitIn .still)).ready ∧ running.ready
    ∧ (¬ ∃ (front : List Byte) (rate fade : Option Nat) (flag : Byte), front.length = 8
        ∧ ([] : List Byte) = front ++ (optField byte2 rate ++ optField byte2 fade ++ [flag]))
    ∧ 2 < (3 : Byte).toNat ∧ (2 : Byte).toNat ≤ 2 ∧ 8 ≤ (8 : Byte).toNat ∧ (0 : Byte).toNat = (0 : Fin 8).val
    ∧ (running.prog 0).life.isLive = false ∧ ((livePart (unitIn .still)).prog 0).life.isLive = true
    ∧ ¬ ((none : Option Nat).isSome = true ↔ (0x02 : Byte) = 0x02) ∧ ¬ ((some 5).isSome = true ↔ (0x01 : Byte) = 0x02)
    ∧ ¬ ((some 48).isSome = true → (0x00 : Byte) = 0x01) ∧ ¬ (2 : Byte).toNat ≤ 1
    ∧ ((some 5).isSome = true ↔ (0x02 : Byte) = 0x02) ∧ ((some 48).isSome = true → (0x01 : Byte) = 0x01) ∧ (1 : Byte).toNat ≤ 1
    ∧ (livePart (unitIn .still)).ref.history.length < 5
    ∧ ((livePart { unitIn .still with staged := .committed (record .jump false) }).prog 0).move.staged.isCommitted = true
    ∧ ((livePart { unitIn .still with staged := .committed (record .jump false) }).prog 0).life.isLive = true := by
  refine ⟨livePart_ready _, running_ready, ?_, by decide +kernel⟩
  rintro ⟨front, rate, fade, flag, hl, h⟩
  have := congrArg List.length h
  simp [hl] at this

theorem witness_CueSetAndSnapRead_checks :
    running.ready ∧ ([] : List Byte).length ≠ 6 ∧ 4 < (5 : Byte).toNat ∧ 1 < (2 : Byte).toNat ∧ (4 : Byte).toNat ≤ 4
    ∧ 4 ≤ (4 : Byte).toNat ∧ [(0 : Byte), 0].length ≠ 1 := ⟨running_ready, by decide⟩

theorem witness_MeterRequests_checks :
    running.ready ∧ ([] : List Byte).length ≠ 11 ∧ (List.replicate 10 (0 : Byte)).length = 10 ∧ 8 ≤ (8 : Byte).toNat
    ∧ (running.prog 7).life.isClosed = true := ⟨running_ready, by decide +kernel⟩

theorem witness_GainSet_checks :
    running.ready ∧ ([] : List Byte).length ≠ 12 ∧ (List.replicate 10 (0 : Byte)).length = 10 ∧ 2 < (3 : Byte).toNat
    ∧ (2 : Byte).toNat ≤ 2 ∧ 8 ≤ (8 : Byte).toNat ∧ (running.prog 7).life.isClosed = true := ⟨running_ready, by decide +kernel⟩

theorem witness_AlarmRequests_checks :
    running.ready ∧ ([] : List Byte).length ≠ 7 ∧ [(0 : Byte), 0].length ≠ 1 ∧ 1 < (2 : Byte).toNat ∧ (1 : Byte).toNat ≤ 1
    ∧ 59 ≤ (59 : Byte).toNat ∧ ([] : List Byte).length ≠ 4 ∧ (8 ≤ (254 : Byte).toNat ∧ (254 : Byte) ≠ 0xFF)
    ∧ (7 : Byte).toNat ≤ 7 ∧ 4 ≤ (4 : Byte).toNat := ⟨running_ready, by decide⟩

theorem witness_CounterRequests_checks :
    running.ready ∧ ([] : List Byte).length ≠ 6 ∧ 16 < (17 : Byte).toNat ∧ 1 < (2 : Byte).toNat ∧ (1 : Byte).toNat ≤ 1
    ∧ 8 ≤ (8 : Byte).toNat ∧ (0x10 : Byte) = countEventCode (some .blocks) ∧ (1 : BitVec 8) ≠ 0
    ∧ CountEvent.blocks.ownerless = true := ⟨running_ready, by decide⟩

end Sys2Proof.Tests
end

