-- ==== Sys2Proof/Proofs/LinkSet.lean ====
section
/-! PROOFS. LINK.SET: what its codes read as, what the owning block answers, and what a change of the enable or of the policies
does to the link (R12, R13, R31, R34). -/

namespace Sys2Proof.Machine

/-! ### The codes of the request (R191, section 12.2) -/

theorem readFlag_eq_none_iff (b : Byte) : readFlag b = none ↔ 1 < b.toNat := by
  unfold readFlag
  split
  · next h => simp [h]
  · split
    · next h => simp [h]
    · next h0 h1 => exact iff_of_true rfl (by bv_omega)

theorem readParityPolicy_eq_none_iff (b : Byte) : readParityPolicy b = none ↔ 2 < b.toNat := by
  unfold readParityPolicy
  split
  · next h => simp [h]
  · split
    · next h => simp [h]
    · split
      · next h => simp [h]
      · next h0 h1 h2 => exact iff_of_true rfl (by bv_omega)

theorem readSlotPolicy_eq_none_iff (b : Byte) : readSlotPolicy b = none ↔ b ≠ 0x00 ∧ b ≠ 0x02 := by
  unfold readSlotPolicy
  split
  · next h => simp [h]
  · split
    · next h => simp [h]
    · next h0 h2 => exact iff_of_true rfl ⟨h0, h2⟩

/-! ### What the owning block answers (R12) -/

section
variable {s : State} {l e pp sp : Byte} {en : Bool} {par : ParityPolicy} {slot : SlotPolicy}

theorem takeLinkSet_of_length_ne {body : List Byte} (h : body.length ≠ 4) : takeLinkSet body s = refuse s .malformed := by
  unfold takeLinkSet
  split
  · exact absurd rfl h
  · rfl

theorem takeLinkSet_of_bad_code
    (h : readFlag e = none ∨ readParityPolicy pp = none ∨ readSlotPolicy sp = none) :
    takeLinkSet [l, e, pp, sp] s = refuse s .malformed := by
  unfold takeLinkSet
  dsimp only
  split
  · next he hp hs => simp [he, hp, hs] at h
  · rfl

theorem takeLinkSet_of_bad_link (he : readFlag e = some en) (hp : readParityPolicy pp = some par)
    (hs : readSlotPolicy sp = some slot) (hl : 8 ≤ l.toNat) : takeLinkSet [l, e, pp, sp] s = refuse s .range := by
  simp only [takeLinkSet, he, hp, hs, readId_of_le hl]

end

/-- The fields of the request read back, and the request is answered OK. -/
theorem takeLinkSet_of_fields (s : State) (l : Fin 8) (en : Bool) (pp : ParityPolicy) (sp : SlotPolicy) :
    takeLinkSet (byte1 l ++ flagByte en ++ [parityPolicyCode pp, slotPolicyCode sp]) s
      = ⟨s.setLinkPolicy l en pp sp, .ok, []⟩ := by
  simp [takeLinkSet, byte1, flagByte, readId_ofNat]

/-! ### What it does to the part -/

/-- The receiver with its enable and policies as asked, which R13 lets keep its arrival count and last accepted frame. -/
def Receiver.withPolicies (r : Receiver) (en : Bool) (pp : ParityPolicy) (sp : SlotPolicy) : Receiver :=
  { r with enable := en, parityPolicy := pp, slotPolicy := sp }

/-- The converter at a change of the enable (R31). -/
def Converter.switched (c : Converter) (en : Bool) : Converter := if en then c.enabled else c.disabled

/-- The link at a change of the enable (R13, R31). -/
def Link.switched (x : Link) (en : Bool) (pp : ParityPolicy) (sp : SlotPolicy) : Link :=
  ⟨{ x.rx.withPolicies en pp sp with arrivalCount := 0, lastAccepted := none }, x.conv.switched en⟩

theorem Converter.switched_eq (c : Converter) (en : Bool) :
    c.switched en = { state := if en then .seek else .off, fifo := [], readPhase := 0, lastRead := none, n := 0,
                      slipCount := c.slipCount, notLocked := true } := by
  cases en <;> rfl

theorem lockSource_ne_counterSource (l : Fin 8) : lockSource l ≠ counterSource := by
  intro h
  have : 40 + l.val * 2 = 56 := congrArg Fin.val h
  omega

section
variable (s : State) {l : Fin 8} {en : Bool} (pp : ParityPolicy) (sp : SlotPolicy)

theorem setLinkPolicy_of_enable_eq (h : (s.link l).rx.enable = en) :
    s.setLinkPolicy l en pp sp = s.setLink l { s.link l with rx := (s.link l).rx.withPolicies en pp sp } := by
  simp only [State.setLinkPolicy, h, beq_self_eq_true, if_true]; rfl

theorem setLinkPolicy_of_enable_ne (h : (s.link l).rx.enable ≠ en) :
    s.setLinkPolicy l en pp sp = (s.setLink l ((s.link l).switched en pp sp)).report (lockSource l) en := by
  simp only [State.setLinkPolicy, beq_iff_eq, h, if_false]; rfl

/-- A condition report reaches no link. -/
theorem report_link (n : Fin 59) (v : Bool) (k : Fin 8) : (s.report n v).link k = s.link k :=
  State.link_congr (report_sameBut s n v .links (by decide)).symm k

theorem setLinkPolicy_link_of_enable_eq (h : (s.link l).rx.enable = en) :
    (s.setLinkPolicy l en pp sp).link l = { s.link l with rx := (s.link l).rx.withPolicies en pp sp } := by
  rw [setLinkPolicy_of_enable_eq s pp sp h, State.link_setLink]

theorem setLinkPolicy_link_of_enable_ne (h : (s.link l).rx.enable ≠ en) :
    (s.setLinkPolicy l en pp sp).link l = (s.link l).switched en pp sp := by
  rw [setLinkPolicy_of_enable_ne s pp sp h, report_link, State.link_setLink]

/-- Whether or not the enable changes, the link has the enable and the policies asked for (R12). -/
theorem setLinkPolicy_settings (l : Fin 8) (en : Bool) :
    ((s.setLinkPolicy l en pp sp).link l).rx.enable = en ∧ ((s.setLinkPolicy l en pp sp).link l).rx.parityPolicy = pp
      ∧ ((s.setLinkPolicy l en pp sp).link l).rx.slotPolicy = sp := by
  by_cases h : (s.link l).rx.enable = en
  · rw [setLinkPolicy_link_of_enable_eq s pp sp h]; exact ⟨rfl, rfl, rfl⟩
  · rw [setLinkPolicy_link_of_enable_ne s pp sp h]; exact ⟨rfl, rfl, rfl⟩

/-- With the enable unchanged no event is sent (R13). -/
theorem setLinkPolicy_sameBut_of_enable_eq (h : (s.link l).rx.enable = en) :
    s.sameBut [.links] (s.setLinkPolicy l en pp sp) := by
  rw [setLinkPolicy_of_enable_eq s pp sp h]; exact setLink_sameBut s l _

/-- The LOCK condition follows a change of the enable (R34). -/
theorem setLinkPolicy_condition_of_enable_ne (h : (s.link l).rx.enable ≠ en) :
    ((s.setLinkPolicy l en pp sp).source (lockSource l)).condition = en := by
  rw [setLinkPolicy_of_enable_ne s pp sp h, report_condition _ (lockSource_ne_counterSource l)]

theorem setLinkPolicy_otherSources_of_enable_ne (h : (s.link l).rx.enable ≠ en) :
    s.otherSources [lockSource l] (s.setLinkPolicy l en pp sp) := by
  intro n hn hc
  rw [setLinkPolicy_of_enable_ne s pp sp h, report_source_ne _ hc (by simpa using hn)]
  exact State.source_congr (State.setLink_sources s l _) n

theorem setLinkPolicy_otherLinks (l : Fin 8) (en : Bool) : s.otherLinks l (s.setLinkPolicy l en pp sp) := by
  intro k hk
  by_cases h : (s.link l).rx.enable = en
  · rw [setLinkPolicy_of_enable_eq s pp sp h, State.link_setLink_ne s hk]
  · rw [setLinkPolicy_of_enable_ne s pp sp h, report_link, State.link_setLink_ne s hk]

theorem setLinkPolicy_otherCounters (l : Fin 8) (en : Bool) : s.otherCounters [] (s.setLinkPolicy l en pp sp) := by
  intro c hc
  have hr : (s.counter c).event ≠ some .alarmRaise := fun h => (hc _ h).2 rfl
  by_cases h : (s.link l).rx.enable = en
  · rw [setLinkPolicy_of_enable_eq s pp sp h]; rfl
  · rw [setLinkPolicy_of_enable_ne s pp sp h]
    exact report_counter (s.setLink l _) hr _ _

end

/-! ### The request -/

/-- A LINK.SET whose fields are of the catalogue passes every check and completes (R12). -/
theorem linkSet_completes {s : State} (tag : Byte) (l : Fin 8) (en : Bool) (pp : ParityPolicy) (sp : SlotPolicy)
    {q : State → Prop} (hs : s.ready)
    (hq : ∀ r, q (Answer.sent ⟨(s.taking r).setLinkPolicy l en pp sp, .ok, []⟩ r)) :
    Completes (.linkSet tag (byte1 l ++ flagByte en ++ [parityPolicyCode pp, slotPolicyCode sp])) s .ok [] q :=
  completes_of_answer (r := ⟨tag, 0x10, _⟩) (a := ⟨_, .ok, []⟩) rfl (.inl hs) (takeLinkSet_of_fields _ l en pp sp) (hq _)

theorem linkSet_refused {s : State} (tag : Byte) {body : List Byte} {st : Status} (hs : s.ready)
    (h : ∀ t, takeLinkSet body t = refuse t st) : RefusedWith (.linkSet tag body) s st :=
  refused_of_answer rfl (.inl hs) (h _)

/-- Settles O13: what the owning block leaves, said of the state in which it takes the request, is what the request leaves but
for the port. -/
theorem linkSetActsOnTheLinkItNames : Obligations.LinkSetActsOnTheLinkItNames := by
  unfold Obligations.LinkSetActsOnTheLinkItNames
  refine ⟨fun s tag l en pp sp hs => linkSet_completes tag l en pp sp hs fun r => ?_, fun s tag hs => ⟨?_, ?_⟩⟩
  · obtain ⟨henable, hparity, hslot⟩ := setLinkPolicy_settings (s.taking r) pp sp l en
    refine ⟨henable, hparity, hslot, fun h => ?_, fun h => ?_, setLinkPolicy_otherLinks (s.taking r) pp sp l en,
      setLinkPolicy_otherCounters (s.taking r) pp sp l en,
      sameBut_of_take (by decide) (sameBut_mono (setLinkPolicy_sameBut (s.taking r) l en pp sp) (by decide))⟩
    · have hlink := setLinkPolicy_link_of_enable_eq (s.taking r) pp sp h
      exact ⟨congrArg (·.rx.arrivalCount) hlink, congrArg (·.rx.lastAccepted) hlink, congrArg (·.conv) hlink,
        sameBut_of_take (by decide)
          (sameBut_mono (setLinkPolicy_sameBut_of_enable_eq (s.taking r) pp sp h) (by decide))⟩
    · have hlink := setLinkPolicy_link_of_enable_ne (s.taking r) pp sp h
      exact ⟨congrArg (·.rx.arrivalCount) hlink, congrArg (·.rx.lastAccepted) hlink,
        (congrArg (·.conv) hlink).trans (Converter.switched_eq _ en),
        setLinkPolicy_condition_of_enable_ne (s.taking r) pp sp h,
        setLinkPolicy_otherSources_of_enable_ne (s.taking r) pp sp h⟩
  · exact fun body h => linkSet_refused tag hs fun _ => takeLinkSet_of_length_ne h
  · intro l e pp sp
    rw [← readFlag_eq_none_iff, ← readParityPolicy_eq_none_iff, ← readSlotPolicy_eq_none_iff]
    refine ⟨fun h => linkSet_refused tag hs fun _ => takeLinkSet_of_bad_code h, fun he hp hsp hl => ?_⟩
    obtain ⟨en, hen⟩ := Option.ne_none_iff_exists'.mp (mt (readFlag_eq_none_iff e).mp (by omega))
    obtain ⟨par, hpar⟩ := Option.ne_none_iff_exists'.mp (mt (readParityPolicy_eq_none_iff pp).mp (by omega))
    obtain ⟨slot, hslot⟩ := Option.ne_none_iff_exists'.mp (mt (readSlotPolicy_eq_none_iff sp).mp (by tauto))
    exact linkSet_refused tag hs fun _ => takeLinkSet_of_bad_link hen hpar hslot hl

end Sys2Proof.Machine
end

