-- ==== Sys2Proof/Proofs/StagedSlot.lean ====
section
/-! PROOFS. MOVE.DISCARD and MOVE.FINISH: what their owning blocks answer for a LIVE programme, and what an emptied staged slot
leaves (R68, R81). -/

namespace Sys2Proof.Machine

/-! ### What the owning blocks answer -/

section
variable {s : State} {p : Fin 8}

/-- A request that carries the number of a LIVE programme reaches that programme's operation (R64). -/
theorem withLiveProgramme_of_live (h : (s.prog p).life.isLive = true) (f : Fin 8 → Answer) :
    withLiveProgramme (byte1 p) s f = f p := by
  simp only [withLiveProgramme, byte1, readId_ofNat (n := 8) (by decide), h, if_true]

theorem takeMoveFinish_of_live (h : (s.prog p).life.isLive = true) :
    takeMoveFinish (byte1 p) s = ⟨s.setStaged p .empty, .ok, []⟩ := withLiveProgramme_of_live h _

theorem takeMoveDiscard_of_staged (h : (s.prog p).life.isLive = true) (hs : (s.prog p).move.staged ≠ .empty) :
    takeMoveDiscard (byte1 p) s = ⟨s.setStaged p .empty, .ok, []⟩ := by
  rw [takeMoveDiscard, withLiveProgramme_of_live h]
  split
  · next he => exact absurd he hs
  · rfl
  · rfl

theorem takeMoveDiscard_of_empty (h : (s.prog p).life.isLive = true) (hs : (s.prog p).move.staged = .empty) :
    takeMoveDiscard (byte1 p) s = refuse s .state := by
  rw [takeMoveDiscard, withLiveProgramme_of_live h, hs]

end

/-! ### What writing the staged slot leaves -/

theorem setStaged_prog (s : State) (p : Fin 8) (x : Staged) :
    (s.setStaged p x).prog p = { s.prog p with move := { (s.prog p).move with staged := x } } := State.prog_setProg s p _

/-- A request whose owner answers OK with the staged slot of one programme written completes, and changes nothing else but the
port. -/
theorem completes_of_setStaged {c : Instr} {r : Request} {s : State} {p : Fin 8} {x : Staged} (hc : requestOf c = some r)
    (hs : s.ready) (ha : takeRequest r.code r.body (s.taking r) = ⟨(s.taking r).setStaged p x, .ok, []⟩) :
    Completes c s .ok [] (fun t => t.prog p = { s.prog p with move := { (s.prog p).move with staged := x } }
      ∧ s.otherProgs p t ∧ s.sameBut [.progs, .port] t) :=
  completes_of_answer (a := ⟨_, .ok, []⟩) hc (.inl hs) ha
    ⟨setStaged_prog (s.taking r) p x, setMove_otherProgs (s.taking r) p _,
      sameBut_of_take (by decide) (sameBut_mono (setMove_sameBut (s.taking r) p _) (by decide))⟩

/-- Settles O32: both requests reach the staged slot of the LIVE programme they name; MOVE.FINISH empties it whatever it holds,
MOVE.DISCARD only when it holds a record. -/
theorem discardAndFinishEmptyTheStagedSlot : Obligations.DiscardAndFinishEmptyTheStagedSlot := by
  unfold Obligations.DiscardAndFinishEmptyTheStagedSlot
  refine ⟨fun s tag p hs hlive => ⟨fun hstaged => ?_, fun hempty => ?_⟩, fun s tag p hs hlive => ?_⟩
  · exact completes_of_setStaged (r := ⟨tag, 0x32, byte1 p⟩) rfl hs (takeMoveDiscard_of_staged hlive hstaged)
  · exact refused_of_answer (r := ⟨tag, 0x32, byte1 p⟩) rfl (.inl hs) (takeMoveDiscard_of_empty hlive hempty)
  · exact completes_of_setStaged (r := ⟨tag, 0x34, byte1 p⟩) rfl hs (takeMoveFinish_of_live hlive)

end Sys2Proof.Machine
end

