-- ==== Sys2Proof/Proofs/MeterRequests.lean ====
section
/-! PROOFS. LOUD.SET, LOUD.READ and LOUD.RESTART: what a request on an open programme is answered, its refusals, and what a
written meter leaves (R123 to R125). -/

namespace Sys2Proof.Machine

/-- ADJUSTED exactly when the stored value is not the one asked for (R186). -/
theorem okOrAdjusted_bne {α : Type} [DecidableEq α] (a b : α) :
    okOrAdjusted (a != b) = if a = b then .ok else .adjusted := by
  by_cases h : a = b <;> simp [okOrAdjusted, h]

/-! ### Requests that carry the number of an open programme (R124, R125) -/

section
variable {s : State} {p : Fin 8} {f : Fin 8 → Answer}

theorem withOpenProgramme_of_open (h : (s.prog p).life.isClosed = false) : withOpenProgramme (byte1 p) s f = f p := by
  simp [withOpenProgramme, byte1, readId_ofNat, h]

theorem withOpenProgramme_of_length_ne {body : List Byte} (h : body.length ≠ 1) :
    withOpenProgramme body s f = refuse s .malformed := by
  unfold withOpenProgramme
  split
  · exact absurd rfl h
  · rfl

theorem withOpenProgramme_of_bad_programme {b : Byte} (h : 8 ≤ b.toNat) : withOpenProgramme [b] s f = refuse s .range := by
  simp only [withOpenProgramme, readId_of_le h]

theorem withOpenProgramme_of_closed (h : (s.prog p).life.isClosed = true) :
    withOpenProgramme (byte1 p) s f = refuse s .state := by
  simp [withOpenProgramme, byte1, readId_ofNat, h]

end

/-- The refusals of a request whose owner asks for an open programme and nothing else. -/
theorem refused_of_withOpenProgramme {s : State} {tag code : Byte} {mk : Byte → List Byte → Instr}
    {f : State → Fin 8 → Answer} (hs : s.ready) (hmk : ∀ body, requestOf (mk tag body) = some ⟨tag, code, body⟩)
    (hf : ∀ body t, takeRequest code body t = withOpenProgramme body t (f t)) :
    (∀ body : List Byte, body.length ≠ 1 → RefusedWith (mk tag body) s .malformed)
    ∧ (∀ b : Byte, 8 ≤ b.toNat → RefusedWith (mk tag [b]) s .range)
    ∧ ∀ p : Fin 8, (s.prog p).life.isClosed = true → RefusedWith (mk tag (byte1 p)) s .state :=
  ⟨fun body h => refused_of_answer (hmk body) (.inl hs) ((hf _ _).trans (withOpenProgramme_of_length_ne h)),
    fun _ h => refused_of_answer (hmk _) (.inl hs) ((hf _ _).trans (withOpenProgramme_of_bad_programme h)),
    fun _ h => refused_of_answer (hmk _) (.inl hs) ((hf _ _).trans (withOpenProgramme_of_closed h))⟩

/-! ### What LOUD.SET is answered (R123) -/

section
variable {s : State} {p : Fin 8}

theorem takeLoudSet_of_length_ne {body : List Byte} (h : body.length ≠ 11) : takeLoudSet body s = refuse s .malformed := by
  unfold takeLoudSet
  split
  · exact absurd rfl h
  · rfl

theorem takeLoudSet_of_bad_programme {b : Byte} {rest : List Byte} (hr : rest.length = 10) (hb : 8 ≤ b.toNat) :
    takeLoudSet (b :: rest) s = refuse s .range := by
  match rest, hr with
  | [_, _, _, _, _, _, _, _, _, _], _ => simp only [takeLoudSet, readId_of_le hb]

theorem takeLoudSet_of_closed {rest : List Byte} (hr : rest.length = 10) (h : (s.prog p).life.isClosed = true) :
    takeLoudSet (byte1 p ++ rest) s = refuse s .state := by
  match rest, hr with
  | [_, _, _, _, _, _, _, _, _, _], _ => simp [takeLoudSet, byte1, readId_ofNat, h]

/-- Settings of 16 bits read back from the body, so an open programme stores them clamped. -/
theorem takeLoudSet_of_open {x : LoudSettings} (h : (s.prog p).life.isClosed = false)
    (hx : ∀ v ∈ [x.target, x.upper, x.lower, x.silence, x.ceiling], -32768 ≤ v ∧ v ≤ 32767) :
    takeLoudSet (byte1 p ++ loudSettingsRecord x) s
      = ⟨s.setMeter p { (s.prog p).meter with settings := x.clamped }, if x.clamped = x then .ok else .adjusted,
          loudSettingsRecord x.clamped⟩ := by
  simp only [List.forall_mem_cons, List.not_mem_nil, false_imp_iff, implies_true, and_true] at hx
  obtain ⟨⟨ht0, ht1⟩, ⟨hu0, hu1⟩, ⟨hl0, hl1⟩, ⟨hs0, hs1⟩, hc0, hc1⟩ := hx
  rw [← okOrAdjusted_bne]
  simp [takeLoudSet, loudSettingsRecord, byte1, signed2, byte2, readId_ofNat, h, int2_signed2, ht0, ht1, hu0, hu1, hl0, hl1,
    hs0, hs1, hc0, hc1]

end

/-! ### What writing the meter leaves -/

/-- A request whose owner answers with the meter of one programme written completes, and changes nothing else but the port. -/
theorem completes_of_setMeter {c : Instr} {r : Request} {s : State} {p : Fin 8} {x : Meter} {st : Status} {body : List Byte}
    (hc : requestOf c = some r) (hs : s.ready)
    (ha : takeRequest r.code r.body (s.taking r) = ⟨(s.taking r).setMeter p x, st, body⟩) :
    Completes c s st body (fun t => t.prog p = { s.prog p with meter := x }
      ∧ s.otherProgs p t ∧ s.sameBut [.progs, .port] t) :=
  completes_of_answer (a := ⟨_, st, body⟩) hc (.inl hs) ha
    ⟨State.prog_setProg (s.taking r) p _, fun _ hk => State.prog_setProg_ne (s.taking r) hk _,
      sameBut_of_take (by decide) (sameBut_mono (setProg_sameBut (s.taking r) p _) (by decide))⟩

/-- Settles O43: on an open programme each of the three requests writes the programme's meter alone; every other request of
theirs is refused by the first check it fails. -/
theorem meterRequestsActOnTheMeter : Obligations.MeterRequestsActOnTheMeter := by
  unfold Obligations.MeterRequestsActOnTheMeter
  refine ⟨fun s tag p x hs hopen hx y hy => ?_, fun s tag hs => ⟨fun body h => ?_, fun b rest hr hb => ?_,
    fun p rest hr hclosed => ?_, ?_⟩, fun s tag p hs hopen => ⟨?_, ?_⟩⟩
  · obtain rfl : y = x.clamped := hy
    exact completes_of_setMeter (r := ⟨tag, 0x50, _⟩) rfl hs (takeLoudSet_of_open hopen hx)
  · exact refused_of_answer (r := ⟨tag, 0x50, _⟩) rfl (.inl hs) (takeLoudSet_of_length_ne h)
  · exact refused_of_answer (r := ⟨tag, 0x50, _⟩) rfl (.inl hs) (takeLoudSet_of_bad_programme hr hb)
  · exact refused_of_answer (r := ⟨tag, 0x50, _⟩) rfl (.inl hs) (takeLoudSet_of_closed hr hclosed)
  · simp only [List.forall_mem_cons, List.not_mem_nil, false_imp_iff, implies_true, and_true]
    exact ⟨refused_of_withOpenProgramme (code := 0x51) hs (fun _ => rfl) (fun _ _ => rfl),
      refused_of_withOpenProgramme (code := 0x52) hs (fun _ => rfl) (fun _ _ => rfl)⟩
  · exact completes_of_setMeter (r := ⟨tag, 0x51, byte1 p⟩) rfl hs (withOpenProgramme_of_open hopen)
  · exact completes_of_setMeter (r := ⟨tag, 0x52, byte1 p⟩) rfl hs (withOpenProgramme_of_open hopen)

end Sys2Proof.Machine
end

