-- ==== Sys2Proof/Proofs/AlarmService.lean ====
section
/-! PROOFS. ALM.NEXT, ALM.LOOK, ALM.CLOSE and ALM.LEVEL: what the accept level and eligibility compare, which source a pick
comes to, and what the owning block answers (R158, R159, R161 to R164). -/

namespace Sys2Proof.Machine

/-! ### The accept level and eligibility (R158, R159) -/

/-- The accept level so far, with one more source seen (R158). -/
def lowerAccepted (lvl : Nat) (r : Source) : Nat := if r.accepted && decide (r.priority < lvl) then r.priority else lvl

theorem acceptLevel_eq_foldl (src : Vector Source 59) : acceptLevel src = src.toList.foldl lowerAccepted 8 := rfl

theorem lt_lowerAccepted_iff (p lvl : Nat) (r : Source) :
    p < lowerAccepted lvl r ↔ p < lvl ∧ (r.accepted = true → p < r.priority) := by
  unfold lowerAccepted
  cases r.accepted
  · simp
  · by_cases h : r.priority < lvl <;> simp [h] <;> omega

theorem lt_foldl_lowerAccepted_iff (p lvl : Nat) (rs : List Source) :
    p < rs.foldl lowerAccepted lvl ↔ p < lvl ∧ ∀ r ∈ rs, r.accepted = true → p < r.priority := by
  induction rs generalizing lvl with
  | nil => simp
  | cons r rs ih => rw [List.foldl_cons, ih, lt_lowerAccepted_iff, List.forall_mem_cons, and_assoc]

/-- A number is below the accept level exactly when it is below 8 and below the priority of every accepted source. -/
theorem lt_acceptLevel_iff (s : State) (p : Nat) :
    p < acceptLevel s.sources ↔ p < 8 ∧ ∀ m, (s.source m).accepted = true → p < (s.source m).priority := by
  have hmem (r : Source) : r ∈ s.sources.toList ↔ ∃ m, s.source m = r := by
    rw [Vector.mem_toList_iff, Vector.mem_iff_getElem]
    exact ⟨fun ⟨i, hi, he⟩ => ⟨⟨i, hi⟩, he⟩, fun ⟨m, he⟩ => ⟨m.val, m.isLt, he⟩⟩
  rw [acceptLevel_eq_foldl, lt_foldl_lowerAccepted_iff]
  simp [hmem]

/-- An accepted source whose priority no other accepted source is at or below gives the accept level. -/
theorem acceptLevel_of_lowest {s : State} {n : Fin 59} (hn : (s.source n).accepted = true) (h8 : (s.source n).priority < 8)
    (h : ∀ m, m ≠ n → (s.source m).accepted = true → (s.source n).priority < (s.source m).priority) :
    acceptLevel s.sources = (s.source n).priority := by
  refine eq_of_forall_lt_iff fun p => ?_
  rw [lt_acceptLevel_iff]
  refine ⟨fun ⟨_, hp⟩ => hp n hn, fun hp => ⟨hp.trans h8, fun m hm => ?_⟩⟩
  by_cases hmn : m = n
  · exact hmn ▸ hp
  · exact hp.trans (h m hmn hm)

/-- A source of the state is eligible (R159). -/
def State.eligibleAt (s : State) (n : Fin 59) : Prop :=
  (s.source n).eligible (acceptLevel s.sources) s.threshold = true

theorem eligibleAt_iff (s : State) (n : Fin 59) :
    s.eligibleAt n ↔ (s.source n).pending = true ∧ (s.source n).masked = false
      ∧ (∀ m, (s.source m).accepted = true → (s.source n).priority < (s.source m).priority)
      ∧ (s.source n).priority < 8 ∧ (s.source n).priority ≤ s.threshold := by
  simp only [State.eligibleAt, Source.eligible, Bool.and_eq_true, Bool.not_eq_true', decide_eq_true_eq, lt_acceptLevel_iff]
  tauto

/-! ### The pick (R162, R164) -/

/-- Source `n` goes before source `m`: a lower priority number, or the same and a source number not above (R162). -/
def State.before (s : State) (n m : Fin 59) : Prop :=
  (s.source n).priority < (s.source m).priority ∨ ((s.source n).priority = (s.source m).priority ∧ n ≤ m)

/-- The pick of a list of sources, as ALM.NEXT and ALM.CLOSE of TOP make it. -/
def State.pickOf (s : State) : List (Fin 59) → Option (Fin 59)
  | [] => none
  | n :: ns => some (ns.foldl (betterPick s) n)

theorem pick_eq_pickOf (s : State) :
    s.pick = s.pickOf (s.sourcesWith (Source.eligible (acceptLevel s.sources) s.threshold)) := rfl

theorem top_eq_pickOf (s : State) : s.top = s.pickOf (s.sourcesWith Source.accepted) := rfl

@[simp] theorem mem_sourcesWith (s : State) (q : Source → Bool) (n : Fin 59) :
    n ∈ s.sourcesWith q ↔ q (s.source n) = true := by
  simp [State.sourcesWith]

theorem sourcesWith_pairwise_lt (s : State) (q : Source → Bool) : (s.sourcesWith q).Pairwise (· < ·) :=
  (List.pairwise_lt_finRange 59).filter _

/-- A later source takes the place of an earlier one only with a lower priority number, so of an ascending list the pick is the
member that goes before every other. -/
theorem foldl_betterPick_eq {s : State} {n a : Fin 59} {xs : List (Fin 59)} (hlt : (a :: xs).Pairwise (· < ·))
    (hn : n ∈ a :: xs) (hbest : ∀ m ∈ a :: xs, s.before n m) : xs.foldl (betterPick s) a = n := by
  induction xs generalizing a with
  | nil => exact (List.mem_singleton.mp hn).symm
  | cons b ys ih =>
    obtain ⟨ha, hb, hys⟩ : s.before n a ∧ s.before n b ∧ ∀ m ∈ ys, s.before n m := by simpa using hbest
    obtain ⟨hab, hay⟩ : a < b ∧ ∀ m ∈ ys, a < m := by simpa using (List.pairwise_cons.mp hlt).1
    have hby : (b :: ys).Pairwise (· < ·) := (List.pairwise_cons.mp hlt).2
    rw [List.foldl_cons, betterPick]
    split
    · next hlower =>
      have hna : n ≠ a := by rintro rfl; unfold State.before at hb; omega
      exact ih hby (List.mem_of_ne_of_mem hna hn) (List.forall_mem_cons.mpr ⟨hb, hys⟩)
    · next hstays =>
      have hnb : n ≠ b := by rintro rfl; unfold State.before at ha; omega
      exact ih (List.pairwise_cons.mpr ⟨hay, hby.of_cons⟩) (by simpa [hnb] using hn) (List.forall_mem_cons.mpr ⟨ha, hys⟩)

theorem pickOf_sourcesWith_of_first {s : State} {q : Source → Bool} {n : Fin 59} (hn : q (s.source n) = true)
    (hbest : ∀ m, q (s.source m) = true → s.before n m) : s.pickOf (s.sourcesWith q) = some n := by
  have hmem := (mem_sourcesWith s q n).mpr hn
  have hall : ∀ m ∈ s.sourcesWith q, s.before n m := fun m hm => hbest m ((mem_sourcesWith s q m).mp hm)
  have hlt := sourcesWith_pairwise_lt s q
  match s.sourcesWith q, hmem, hall, hlt with
  | _ :: _, hmem, hall, hlt => exact congrArg some (foldl_betterPick_eq hlt hmem hall)

theorem pickOf_sourcesWith_of_none {s : State} {q : Source → Bool} (h : ∀ n, q (s.source n) = false) :
    s.pickOf (s.sourcesWith q) = none := by
  have hnil : s.sourcesWith q = [] := List.eq_nil_iff_forall_not_mem.mpr fun n => by simp [h]
  rw [hnil, State.pickOf]

theorem pick_of_first {s : State} {n : Fin 59} (hn : s.eligibleAt n) (hbest : ∀ m, s.eligibleAt m → s.before n m) :
    s.pick = some n := by
  rw [pick_eq_pickOf]; exact pickOf_sourcesWith_of_first hn hbest

theorem pick_of_none {s : State} (h : ∀ n, ¬ s.eligibleAt n) : s.pick = none := by
  rw [pick_eq_pickOf]; exact pickOf_sourcesWith_of_none fun n => Bool.eq_false_iff.mpr (h n)

/-- The accepted source below every other accepted one is the one TOP names. -/
theorem top_of_lowest {s : State} {n : Fin 59} (hn : (s.source n).accepted = true)
    (h : ∀ m, (s.source m).accepted = true → m ≠ n → (s.source n).priority < (s.source m).priority) : s.top = some n := by
  rw [top_eq_pickOf]
  refine pickOf_sourcesWith_of_first hn fun m hm => ?_
  by_cases hmn : m = n
  · exact .inr ⟨by rw [hmn], hmn.ge⟩
  · exact .inl (h m hm hmn)

theorem top_of_none {s : State} (h : ∀ n, (s.source n).accepted = false) : s.top = none := by
  rw [top_eq_pickOf]; exact pickOf_sourcesWith_of_none h

/-! ### What the owning block answers (R161 to R164) -/

section
variable {s : State} {n : Fin 59} {b : Byte} {body : List Byte}

theorem takeAlmNext_of_pick (h : s.pick = some n) :
    takeAlmNext [] s = ⟨s.setSource n { s.source n with pending := false, accepted := true }, .ok,
      sourceRecord n { s.source n with pending := false, accepted := true }⟩ := by
  simp only [takeAlmNext, h, State.source_setSource]

theorem takeAlmNext_of_no_pick (h : s.pick = none) : takeAlmNext [] s = ⟨s, .empty, []⟩ := by simp only [takeAlmNext, h]

theorem takeAlmLook_of_pick (h : s.pick = some n) : takeAlmLook [] s = ⟨s, .ok, sourceRecord n (s.source n)⟩ := by
  simp only [takeAlmLook, h]

theorem takeAlmLook_of_no_pick (h : s.pick = none) : takeAlmLook [] s = ⟨s, .empty, []⟩ := by simp only [takeAlmLook, h]

/-- The number of a source is not the code of TOP. -/
theorem ofNat_source_ne_top (n : Fin 59) : BitVec.ofNat 8 n.val ≠ 0xFF := by
  have := n.isLt
  bv_omega

theorem closeAnswer_eq (s : State) (n : Fin 59) :
    closeAnswer s n = ⟨s.setSource n ((s.source n).closed (sourceIsLevel n)), .ok,
      sourceRecord n ((s.source n).closed (sourceIsLevel n))⟩ := by
  simp only [closeAnswer, State.source_setSource]

theorem takeAlmClose_of_number (s : State) (n : Fin 59) :
    takeAlmClose (byte1 n) s = if (s.source n).accepted then closeAnswer s n else refuse s .state := by
  simp only [takeAlmClose, byte1, if_neg (ofNat_source_ne_top n), readId_ofNat (n := 59) (by decide)]

theorem takeAlmClose_of_top (h : s.top = some n) : takeAlmClose [0xFF] s = closeAnswer s n := by
  simp only [takeAlmClose, if_true, h]

theorem takeAlmClose_of_no_top (h : s.top = none) : takeAlmClose [0xFF] s = refuse s .state := by
  simp only [takeAlmClose, if_true, h]

theorem takeAlmClose_of_bad_source (hb : 59 ≤ b.toNat) (htop : b ≠ 0xFF) : takeAlmClose [b] s = refuse s .range := by
  simp only [takeAlmClose, if_neg htop, readId_of_le hb]

theorem takeAlmClose_of_length_ne (h : body.length ≠ 1) : takeAlmClose body s = refuse s .malformed := by
  unfold takeAlmClose
  split
  · exact absurd rfl h
  · rfl

theorem takeAlmLevel_of_length_ne (h : body.length ≠ 1) : takeAlmLevel body s = refuse s .malformed := by
  unfold takeAlmLevel
  split
  · exact absurd rfl h
  · rfl

theorem takeAlmLevel_of_byte (s : State) (v : Byte) :
    takeAlmLevel [v] s = ⟨State.judge { s with threshold := min v.toNat 7 }, if v.toNat ≤ 7 then .ok else .adjusted,
      byte1 (min v.toNat 7) ++ byte1 (acceptLevel s.sources)⟩ := by
  by_cases h : v.toNat ≤ 7
  · simp [takeAlmLevel, okOrAdjusted, h]
  · simp [takeAlmLevel, okOrAdjusted, h, Nat.lt_of_not_le h]

end

/-! ### What judging again leaves (R159, R169) -/

theorem judge_sameBut (s : State) : s.sameBut [.attn, .contacts] s.judge := by
  intro q hq
  cases q
  case attn | contacts => simp at hq
  all_goals rfl

theorem judge_threshold_sameBut (s : State) (k : Nat) :
    s.sameBut [.threshold, .attn, .contacts] (State.judge { s with threshold := k }) := by
  have hstore : s.sameBut [.threshold] { s with threshold := k } := by
    intro q hq
    cases q
    case threshold => simp at hq
    all_goals rfl
  exact sameBut_trans (sameBut_mono hstore (by decide)) (sameBut_mono (judge_sameBut _) (by decide))

/-- Writing a source record reaches no counter. -/
theorem setSource_sameBut_flags (s : State) (n : Fin 59) (x : Source) :
    s.sameBut [.sources, .attn, .contacts] (s.setSource n x) := by
  have hstore : s.sameBut [.sources] { s with sources := s.sources.set n x } := by
    intro q hq
    cases q
    case sources => simp at hq
    all_goals rfl
  exact sameBut_trans (sameBut_mono hstore (by decide)) (sameBut_mono (judge_sameBut _) (by decide))

/-! ### The requests -/

section
variable {s : State} {c : Instr} {r : Request} {st : Status} {body : List Byte}

theorem Completes.imp {p q : State → Prop} (h : Completes c s st body p) (hpq : ∀ t, p t → q t) :
    Completes c s st body q := by
  obtain ⟨r, t, hr, he, hport, hp⟩ := h
  exact ⟨r, t, hr, he, hport, hpq t hp⟩

/-- A request whose owner answers and leaves the state as it took it changes nothing but the port. -/
theorem exec_of_unchanged (hc : requestOf c = some r) (hs : s.ready)
    (ha : takeRequest r.code r.body (s.taking r) = ⟨s.taking r, st, body⟩) : exec c s = .next (s.answered r st body) := by
  rw [exec_ready hc hs, ha]; rfl

/-- A request whose owner answers OK with one source record written completes with that record, and ATTN is judged again. -/
theorem completes_of_setSource {n : Fin 59} {x : Source} (hc : requestOf c = some r) (hs : s.ready)
    (ha : takeRequest r.code r.body (s.taking r) = ⟨(s.taking r).setSource n x, .ok, sourceRecord n x⟩) :
    Completes c s .ok (sourceRecord n x) (fun t => t.source n = x ∧ (∀ m, m ≠ n → t.source m = s.source m)
      ∧ t.attn = anyEligible t.sources t.threshold ∧ s.sameBut [.sources, .attn, .contacts, .port] t) :=
  completes_of_answer (a := ⟨_, .ok, _⟩) hc (.inl hs) ha
    ⟨State.source_setSource (s.taking r) n x, fun _ hm => State.source_setSource_ne (s.taking r) hm x,
      setSource_attnJudged (s.taking r) n x,
      sameBut_of_take (by decide) (sameBut_mono (setSource_sameBut_flags (s.taking r) n x) (by decide))⟩

/-- ALM.LEVEL of one byte stores the threshold it carries, clamped, and ATTN is judged again under it (R161). -/
theorem almLevel_completes (tag v : Byte) (hs : s.ready) :
    Completes (.almLevel tag [v]) s (if v.toNat ≤ 7 then .ok else .adjusted)
      (byte1 (min v.toNat 7) ++ byte1 (acceptLevel s.sources)) (fun t =>
      t.threshold = min v.toNat 7 ∧ t.attn = anyEligible s.sources (min v.toNat 7)
      ∧ s.sameBut [.threshold, .attn, .contacts, .port] t) :=
  completes_of_answer (r := ⟨tag, 0x64, [v]⟩) (a := ⟨_, _, _⟩) rfl (.inl hs) (takeAlmLevel_of_byte _ v)
    ⟨rfl, rfl, sameBut_of_take (by decide)
      (sameBut_mono (judge_threshold_sameBut (s.taking ⟨tag, 0x64, [v]⟩) _) (by decide))⟩

/-- Closing an accepted source, by its number or as TOP, reaches that source (R164). -/
theorem takeAlmClose_of_accepted {n : Fin 59} {b : Byte} (hn : (s.source n).accepted = true)
    (hb : b = BitVec.ofNat 8 n.val
      ∨ (b = 0xFF ∧ ∀ m, (s.source m).accepted = true → m ≠ n → (s.source n).priority < (s.source m).priority)) :
    takeAlmClose [b] s = closeAnswer s n := by
  obtain rfl | ⟨rfl, h⟩ := hb
  · exact (takeAlmClose_of_number s n).trans (if_pos hn)
  · exact takeAlmClose_of_top (top_of_lowest hn h)

end

section
variable {s : State} (tag : Byte)

/-- ALM.NEXT and ALM.LOOK with a source that goes before every other eligible one (R162, R163). The priority of the source
accepted is below that of every source accepted before, so it becomes the accept level. -/
theorem almNext_almLook_of_first {n : Fin 59} (hs : s.ready) (hn : s.eligibleAt n)
    (hbest : ∀ m, s.eligibleAt m → s.before n m) :
    Completes (.almNext tag []) s .ok (sourceRecord n { s.source n with pending := false, accepted := true }) (fun t =>
      t.source n = { s.source n with pending := false, accepted := true } ∧ (∀ m, m ≠ n → t.source m = s.source m)
      ∧ acceptLevel t.sources = (s.source n).priority ∧ t.attn = anyEligible t.sources t.threshold
      ∧ s.sameBut [.sources, .attn, .contacts, .port] t)
    ∧ exec (.almLook tag []) s = .next (s.answered ⟨tag, 0x62, []⟩ .ok (sourceRecord n (s.source n))) := by
  have hpick : s.pick = some n := pick_of_first hn hbest
  obtain ⟨-, -, hbelow, h8, -⟩ := (eligibleAt_iff s n).mp hn
  refine ⟨(completes_of_setSource (r := ⟨tag, 0x61, []⟩) rfl hs (takeAlmNext_of_pick hpick)).imp ?_,
    exec_of_unchanged (r := ⟨tag, 0x62, []⟩) rfl hs (takeAlmLook_of_pick hpick)⟩
  intro t ⟨hsame, hother, hattn, hframe⟩
  have hprio : (t.source n).priority = (s.source n).priority := by rw [hsame]; rfl
  refine ⟨hsame, hother, ?_, hattn, hframe⟩
  rw [← hprio]
  refine acceptLevel_of_lowest (congrArg Source.accepted hsame) (hprio ▸ h8) fun m hm hacc => ?_
  rw [hother m hm] at hacc ⊢
  exact hprio ▸ hbelow m hacc

theorem almNext_almLook_of_none (hs : s.ready) (h : ∀ n, ¬ s.eligibleAt n) :
    exec (.almNext tag []) s = .next (s.answered ⟨tag, 0x61, []⟩ .empty [])
    ∧ exec (.almLook tag []) s = .next (s.answered ⟨tag, 0x62, []⟩ .empty []) :=
  have hpick : s.pick = none := pick_of_none h
  ⟨exec_of_unchanged (r := ⟨tag, 0x61, []⟩) rfl hs (takeAlmNext_of_no_pick hpick),
    exec_of_unchanged (r := ⟨tag, 0x62, []⟩) rfl hs (takeAlmLook_of_no_pick hpick)⟩

theorem almClose_refused {body : List Byte} {st : Status} (hs : s.ready)
    (h : takeAlmClose body (s.taking ⟨tag, 0x63, body⟩) = refuse (s.taking ⟨tag, 0x63, body⟩) st) :
    RefusedWith (.almClose tag body) s st := refused_of_answer rfl (.inl hs) h

end

/-- Settles O52: the eligible sources of the statement are the model's, so the first of them is the pick; every other clause is
what the owning block answers for that body. -/
theorem alarmServicePicksAcceptsAndCloses : Obligations.AlarmServicePicksAcceptsAndCloses := by
  unfold Obligations.AlarmServicePicksAcceptsAndCloses
  intro s tag hs el hel
  obtain rfl : el = s.eligibleAt := funext fun n => propext ((hel n).trans (eligibleAt_iff s n).symm)
  refine ⟨fun n => almNext_almLook_of_first tag hs, almNext_almLook_of_none tag hs, fun b n hn hb y hy => ?_,
    fun n hn => almClose_refused tag hs ((takeAlmClose_of_number _ n).trans (if_neg (Bool.eq_false_iff.mp hn))),
    fun h => almClose_refused tag hs (takeAlmClose_of_no_top (top_of_none h)),
    fun b hb htop => almClose_refused tag hs (takeAlmClose_of_bad_source hb htop), ?_, ?_,
    fun v => almLevel_completes tag v hs⟩
  · obtain rfl : y = (s.source n).closed (sourceIsLevel n) := hy
    exact completes_of_setSource (r := ⟨tag, 0x63, [b]⟩) rfl hs
      ((takeAlmClose_of_accepted (s := s.taking _) hn hb).trans (closeAnswer_eq _ n))
  · simp only [List.forall_mem_cons, List.not_mem_nil, false_imp_iff, implies_true, and_true]
    exact ⟨fun b bs => refused_of_answer (r := ⟨tag, 0x61, b :: bs⟩) rfl (.inl hs) rfl,
      fun b bs => refused_of_answer (r := ⟨tag, 0x62, b :: bs⟩) rfl (.inl hs) rfl⟩
  · simp only [List.forall_mem_cons, List.not_mem_nil, false_imp_iff, implies_true, and_true]
    exact ⟨fun body h => almClose_refused tag hs (takeAlmClose_of_length_ne h),
      fun body h => refused_of_answer (r := ⟨tag, 0x64, body⟩) rfl (.inl hs) (takeAlmLevel_of_length_ne h)⟩

end Sys2Proof.Machine
end

