-- ==== Sys2Proof/Proofs/CounterRequests.lean ====
section
/-! PROOFS. COUNT.SET, COUNT.READ and COUNT.CLEAR: which codes COUNT.SET reads, what the statistics bank answers, and what the
written counters leave (R177 to R179). -/

namespace Sys2Proof.Machine

/-! ### The codes of COUNT.SET (section 12.2) -/

theorem readCountEvent_eq_none_iff (b : Byte) : readCountEvent b = none ↔ 16 < b.toNat := by
  unfold readCountEvent
  split
  · next h => simp [h]
  · next h =>
    have hlen : countEvents.length = 16 := rfl
    rw [Option.map_eq_none_iff, List.getElem?_eq_none_iff, hlen]
    bv_omega

theorem readCountMode_eq_none_iff (b : Byte) : readCountMode b = none ↔ 1 < b.toNat := by
  unfold readCountMode
  split
  · next h => simp [h]
  · split
    · next h => simp [h]
    · next h0 h1 => exact iff_of_true rfl (by bv_omega)

/-- A non-empty qualifier is misused exactly with NONE and with an ownerless event (R179). -/
theorem qualifierMisused_iff (ev : Option CountEvent) (q : BitVec 8) :
    qualifierMisused ev q = true ↔ q ≠ 0 ∧ (ev = none ∨ ∃ e, ev = some e ∧ e.ownerless = true) := by
  cases ev <;> simp [qualifierMisused]

theorem qualifierMisused_eq_false_iff (ev : Option CountEvent) (q : BitVec 8) :
    qualifierMisused ev q = false ↔ q = 0 ∨ ∃ e, ev = some e ∧ e.ownerless = false := by
  cases ev <;> simp [qualifierMisused, or_iff_not_imp_left]

/-! ### What the statistics bank answers (R177 to R179) -/

/-- Every counter with value 0 and its half flag clear, as COUNT.CLEAR of ALL leaves them (R178). -/
def State.clearCounters (s : State) : State := { s with counters := s.counters.map Counter.zeroed }

/-- The counter as COUNT.READ leaves it (R177). -/
def Counter.afterRead (x : Counter) : Counter := if x.clearOnRead then x.zeroed else x

section
variable {s : State} {body : List Byte} {b e q m clr al : Byte}

theorem takeCountSet_of_length_ne (h : body.length ≠ 6) : takeCountSet body s = refuse s .malformed := by
  unfold takeCountSet
  split
  · exact absurd rfl h
  · rfl

theorem takeCountSet_of_bad_code
    (h : readCountEvent e = none ∨ readCountMode m = none ∨ readFlag clr = none ∨ readFlag al = none) :
    takeCountSet [b, e, q, m, clr, al] s = refuse s .malformed := by
  unfold takeCountSet
  dsimp only
  split
  · next he hm hclr hal => simp [he, hm, hclr, hal] at h
  · rfl

/-- A misused qualifier and an unknown mode or flag give the same status, so the misuse alone decides it. -/
theorem takeCountSet_of_misused {ev : Option CountEvent} (h : qualifierMisused ev q = true) :
    takeCountSet [b, countEventCode ev, q, m, clr, al] s = refuse s .malformed := by
  unfold takeCountSet
  dsimp only
  split
  · next he _ _ _ =>
    cases (readCountEvent_code ev).symm.trans he
    exact if_pos h
  · rfl

theorem takeCountSet_of_bad_counter {ev : Option CountEvent} {mode : CountMode} {c a : Bool}
    (hm : readCountMode m = some mode) (hclr : readFlag clr = some c) (hal : readFlag al = some a)
    (hq : qualifierMisused ev q = false) (hb : 8 ≤ b.toNat) :
    takeCountSet [b, countEventCode ev, q, m, clr, al] s = refuse s .range := by
  simp [takeCountSet, hm, hclr, hal, hq, readId_of_le hb]

/-- The configuration of a COUNT.SET reads back from its body and is stored with value 0 and the half flag clear. -/
theorem takeCountSet_of_fields (s : State) (c : Fin 8) (x : Counter) (hq : qualifierMisused x.event x.qualifier = false) :
    takeCountSet (byte1 c ++ [countEventCode x.event, x.qualifier, countModeCode x.mode] ++ flagByte x.clearOnRead
        ++ flagByte x.alarmEnable) s
      = ⟨s.setCounter c x.zeroed, .ok, counterRecord c x.zeroed⟩ := by
  simp [takeCountSet, byte1, flagByte, readId_ofNat, hq, Counter.zeroed]

theorem takeCountRead_of_length_ne (h : body.length ≠ 1) : takeCountRead body s = refuse s .malformed := by
  unfold takeCountRead
  split
  · exact absurd rfl h
  · rfl

theorem takeCountRead_of_bad_counter (hb : 8 ≤ b.toNat) : takeCountRead [b] s = refuse s .range := by
  simp only [takeCountRead, readId_of_le hb]

/-- Writing a counter as it stands changes nothing. -/
theorem setCounter_counter (s : State) (c : Fin 8) : s.setCounter c (s.counter c) = s := by
  simp [State.setCounter, State.counter]

theorem takeCountRead_of_counter (s : State) (c : Fin 8) :
    takeCountRead (byte1 c) s = ⟨s.setCounter c (s.counter c).afterRead, .ok, counterRecord c (s.counter c)⟩ := by
  cases h : (s.counter c).clearOnRead <;>
    simp [takeCountRead, byte1, readId_ofNat, Counter.afterRead, h, setCounter_counter]

theorem takeCountClear_of_length_ne (h : body.length ≠ 1) : takeCountClear body s = refuse s .malformed := by
  unfold takeCountClear
  split
  · exact absurd rfl h
  · rfl

theorem takeCountClear_of_bad_counter (hb : 8 ≤ b.toNat) (hall : b ≠ 0xFF) : takeCountClear [b] s = refuse s .range := by
  simp only [takeCountClear, hall, if_false, readId_of_le hb]

/-- The number of a counter is not the code for ALL, which no source number is either. -/
theorem takeCountClear_of_counter (s : State) (c : Fin 8) :
    takeCountClear (byte1 c) s = ⟨s.setCounter c (s.counter c).zeroed, .ok, []⟩ := by
  have hall : BitVec.ofNat 8 c.val ≠ 0xFF := ofNat_source_ne_top (c.castLE (by decide))
  simp only [takeCountClear, byte1, hall, if_false, readId_ofNat (n := 8) (by decide)]

theorem takeCountClear_of_all (s : State) : takeCountClear [0xFF] s = ⟨s.clearCounters, .ok, []⟩ := rfl

end

/-! ### What the written counters leave -/

theorem clearCounters_counter (s : State) (c : Fin 8) : s.clearCounters.counter c = (s.counter c).zeroed := by
  simp [State.clearCounters, State.counter]

theorem clearCounters_sameBut (s : State) : s.sameBut [.counters] s.clearCounters := by
  intro q hq
  cases q
  case counters => simp at hq
  all_goals rfl

section
variable {s : State} {r : Request} {i : Instr} {body : List Byte}

/-- A request whose owner answers OK with one counter written completes, and changes nothing else but the port. -/
theorem completes_of_setCounter {c : Fin 8} {x : Counter} (hi : requestOf i = some r) (hs : s.ready)
    (ha : takeRequest r.code r.body (s.taking r) = ⟨(s.taking r).setCounter c x, .ok, body⟩) :
    Completes i s .ok body (fun t => t.counter c = x ∧ (∀ k, k ≠ c → t.counter k = s.counter k)
      ∧ s.sameBut [.counters, .port] t) :=
  completes_of_answer (a := ⟨_, .ok, body⟩) hi (.inl hs) ha
    ⟨State.counter_setCounter (s.taking r) c x, fun _ hk => State.counter_setCounter_ne (s.taking r) hk x,
      sameBut_of_take (by decide) (sameBut_mono (setCounter_sameBut (s.taking r) c x) (by decide))⟩

/-- COUNT.CLEAR of ALL zeroes all eight counters and changes nothing else but the port. -/
theorem countClear_all_completes (tag : Byte) (hs : s.ready) :
    Completes (.countClear tag [0xFF]) s .ok [] (fun t =>
      (∀ k, t.counter k = { s.counter k with value := 0, half := false }) ∧ s.sameBut [.counters, .port] t) :=
  completes_of_answer (r := ⟨tag, 0x72, [0xFF]⟩) (a := ⟨_, .ok, []⟩) rfl (.inl hs) (takeCountClear_of_all _)
    ⟨clearCounters_counter (s.taking ⟨tag, 0x72, [0xFF]⟩),
      sameBut_of_take (by decide) (sameBut_mono (clearCounters_sameBut (s.taking _)) (by decide))⟩

end

/-- Settles O56: each request writes the counter it names, or all eight under ALL, and is refused by the first check it fails. -/
theorem counterRequestsActOnTheCounter : Obligations.CounterRequestsActOnTheCounter := by
  unfold Obligations.CounterRequestsActOnTheCounter
  intro s tag c hs
  refine ⟨fun ev q mode clr alarm hq x hx => ?_,
    fun body h => refused_of_answer (r := ⟨tag, 0x70, _⟩) rfl (.inl hs) (takeCountSet_of_length_ne h),
    fun a e q m clr al => ⟨fun h => ?_, fun hm hclr hal ha ev he hq => ?_, fun _ _ _ hq ev he hev => ?_⟩,
    fun body h => refused_of_answer (r := ⟨tag, 0x71, _⟩) rfl (.inl hs) (takeCountRead_of_length_ne h),
    fun b h => refused_of_answer (r := ⟨tag, 0x71, _⟩) rfl (.inl hs) (takeCountRead_of_bad_counter h),
    completes_of_setCounter (r := ⟨tag, 0x71, byte1 c⟩) rfl hs (takeCountRead_of_counter _ c),
    completes_of_setCounter (r := ⟨tag, 0x72, byte1 c⟩) rfl hs (takeCountClear_of_counter _ c),
    countClear_all_completes tag hs,
    fun b h hall => refused_of_answer (r := ⟨tag, 0x72, _⟩) rfl (.inl hs) (takeCountClear_of_bad_counter h hall),
    fun body h => refused_of_answer (r := ⟨tag, 0x72, _⟩) rfl (.inl hs) (takeCountClear_of_length_ne h)⟩
  · subst hx
    exact completes_of_setCounter (r := ⟨tag, 0x70, _⟩) rfl hs
      (takeCountSet_of_fields _ c ⟨ev, q, mode, clr, alarm, 0, false⟩ ((qualifierMisused_eq_false_iff ev q).mpr hq))
  · rw [← readCountEvent_eq_none_iff, ← readCountMode_eq_none_iff, ← readFlag_eq_none_iff, ← readFlag_eq_none_iff] at h
    exact refused_of_answer (r := ⟨tag, 0x70, _⟩) rfl (.inl hs) (takeCountSet_of_bad_code h)
  · subst he
    obtain ⟨mode, hmode⟩ := Option.ne_none_iff_exists'.mp (mt (readCountMode_eq_none_iff m).mp (by omega))
    obtain ⟨cl, hcl⟩ := Option.ne_none_iff_exists'.mp (mt (readFlag_eq_none_iff clr).mp (by omega))
    obtain ⟨en, hen⟩ := Option.ne_none_iff_exists'.mp (mt (readFlag_eq_none_iff al).mp (by omega))
    exact refused_of_answer (r := ⟨tag, 0x70, _⟩) rfl (.inl hs)
      (takeCountSet_of_bad_counter hmode hcl hen ((qualifierMisused_eq_false_iff ev q).mpr hq) ha)
  · subst he
    exact refused_of_answer (r := ⟨tag, 0x70, _⟩) rfl (.inl hs)
      (takeCountSet_of_misused ((qualifierMisused_iff ev q).mpr ⟨hq, hev⟩))

end Sys2Proof.Machine
end

