-- ==== Sys2Proof/Proofs/Identify.lean ====
section
/-! PROOFS. IDENTIFY: what it answers to an empty and to a non-empty body, and that only the control port changes (R185, R189). -/

namespace Sys2Proof.Machine

section
variable {s : State}

/-- The record in the bytes of its layout (section 12.4): "SZ", then 4180, 1, 8, 32, 8 and 4096. -/
theorem takeIdentify_nil :
    takeIdentify [] s = ⟨s, .ok, [0x53, 0x5A, 0x10, 0x54, 0x01, 0x08, 0x20, 0x08, 0x10, 0x00]⟩ := rfl

theorem takeIdentify_of_ne_nil {body : List Byte} (h : body ≠ []) : takeIdentify body s = refuse s .malformed := by
  unfold takeIdentify
  split
  · exact absurd rfl h
  · rfl

end

/-- Settles O10: the owning block answers both bodies without a change of its own, so that only the port of the reply is new. -/
theorem identifyIsFixed : Obligations.IdentifyIsFixed := by
  unfold Obligations.IdentifyIsFixed
  intro s tag hs
  constructor
  · exact exec_of_unchanged rfl hs takeIdentify_nil
  · intro b bs
    exact exec_of_unchanged rfl hs (takeIdentify_of_ne_nil (List.cons_ne_nil b bs))

end Sys2Proof.Machine
end

