-- ==== Sys2Proof/Proofs/Steps.lean ====
section
/-! PROOFS. What a step can do, said once: the stages of a block end and of a house sample, and the shares, requests and events
that a command comes to. A law that each of them keeps, every step keeps. -/

namespace Sys2Proof.Machine

variable {q : State → Prop} {s t : State}

/-! ### Laws that read some parts of the state alone -/

/-- The law reads nothing of the state but these parts. -/
def Reads (ps : List Part) (q : State → Prop) : Prop := ∀ s t : State, (∀ x ∈ ps, x.same s t) → q s → q t

/-- A law is kept by what reaches none of the parts it reads. -/
theorem Reads.keep {ps qs : List Part} (h : Reads ps q) (hs : s.sameBut qs t) (hd : ∀ x ∈ ps, x ∉ qs) (hq : q s) : q t :=
  h s t (fun x hx => hs x (hd x hx)) hq

theorem Reads.mono {ps qs : List Part} (h : Reads ps q) (hs : ∀ x ∈ ps, x ∈ qs) : Reads qs q :=
  fun s t he => h s t (fun x hx => he x (hs x hx))

theorem sameBut_of_eq {ps : List Part} (h : t = s) : s.sameBut ps t := h ▸ sameBut_refl s ps

/-! ### What each stage reaches -/

theorem clearStep_sameBut (s : State) (p : Fin 8) : s.sameBut [.progs, .mem] (s.clearStep p) := by
  have set (u : State) (x : Life) : u.sameBut [.progs, .mem] (u.setLife p x) :=
    sameBut_mono (setProg_sameBut u p _) (by decide)
  have clear (m : List (Nat × Slot)) : s.sameBut [.progs, .mem] { s with mem := m } := by
    intro x hx; cases x <;> first | rfl | exact absurd (by decide) hx
  unfold State.clearStep
  split
  · split
    · exact set s _
    · dsimp only
      split
      · exact sameBut_trans (clear _) (set _ _)
      · exact sameBut_trans (clear _) (set _ _)
  · exact sameBut_refl s _
  · exact sameBut_refl s _

theorem pushOutputs_sameBut (s : State) (v : Vector Slot 32) : s.sameBut [.outPipe, .outLinks] (s.pushOutputs v) := by
  intro x hx; cases x <;> first | rfl | exact absurd (by decide) hx

theorem withRef_sameBut (s : State) (r : RefUnit) : s.sameBut [.ref] { s with ref := r } := by
  intro x hx; cases x <;> first | rfl | exact absurd (by decide) hx

theorem withAhead_sameBut (s : State) (a : List Ahead) : s.sameBut [.ahead] { s with ahead := a } := by
  intro x hx; cases x <;> first | rfl | exact absurd (by decide) hx

theorem withPending_sameBut (s : State) (cs : List Instr) : s.sameBut [.pending] { s with pending := cs } := by
  intro x hx; cases x <;> first | rfl | exact absurd (by decide) hx

theorem withStartUp_sameBut (s : State) (b : Bool) : s.sameBut [.startUp] { s with startUp := b } := by
  intro x hx; cases x <;> first | rfl | exact absurd (by decide) hx

theorem setPort_sameBut (s : State) (x : Port) : s.sameBut [.port] (s.setPort x) := by
  intro x hx; cases x <;> first | rfl | exact absurd (by decide) hx

theorem resetFeeds_sameBut (s : State) : s.sameBut [.feeds] s.resetFeeds := by
  intro x hx; cases x <;> first | rfl | exact absurd (by decide) hx

theorem contactStep_sameBut (s : State) (c : Fin 4) : s.sameBut [.contacts] (s.contactStep c) := setContact_sameBut s c _

theorem unlessAhead_sameBut {ps : List Part} {a : Ahead} {f : State → State} (h : s.sameBut ps (f s)) :
    s.sameBut ps (s.unlessAhead a f) := by
  unfold State.unlessAhead
  split
  · exact sameBut_refl s _
  · exact h

theorem unlessAhead_keep {a : Ahead} {f : State → State} (hq : q s) (h : q (f s)) : q (s.unlessAhead a f) := by
  unfold State.unlessAhead
  split
  · exact hq
  · exact h

theorem arrive_sameBut (s : State) (l : Fin 8) (f : AudioFrame) (ok : Bool) :
    s.sameBut (.links :: eventParts) (s.arrive l f ok) := by
  unfold State.arrive
  dsimp only
  split
  · exact sameBut_refl s _
  · have h := sameBut_trans (s := s) (ps := .links :: eventParts)
      (sameBut_trans (sameBut_mono (setLink_sameBut s l _) (by decide)) (sameBut_mono (setLink_sameBut _ l _) (by decide)))
      (sameBut_mono (acceptanceEvents_sameBut
        ((s.setRx l ((s.link l).rx.take (takeFrame (s.link l).rx f ok))).setConv l
          ((s.link l).conv.deliver (takeFrame (s.link l).rx f ok).slots).1) l (takeFrame (s.link l).rx f ok)) (by decide))
    split
    · exact sameBut_trans h (sameBut_mono (slipEvents_sameBut _ l) (by decide))
    · exact h

theorem linkBlockEnd_sameBut (s : State) (l : Fin 8) : s.sameBut (.links :: eventParts) (s.linkBlockEnd l) := by
  have andThen (b : Prop) [Decidable b] {u v : State} (h : s.sameBut (.links :: eventParts) u) (hv : u.sameBut eventParts v) :
      s.sameBut (.links :: eventParts) (if b then v else u) := by
    split
    · exact sameBut_trans h (sameBut_mono hv (by decide))
    · exact h
  have orElse (b : Prop) [Decidable b] {u v : State} (h : s.sameBut (.links :: eventParts) u) (hv : u.sameBut eventParts v) :
      s.sameBut (.links :: eventParts) (if b then u else v) := by
    split
    · exact h
    · exact sameBut_trans h (sameBut_mono hv (by decide))
  unfold State.linkBlockEnd
  exact sameBut_trans (orElse _ (andThen _ (andThen _ (sameBut_mono (setLink_sameBut s l _) (by decide)) (count_sameBut _ _ _ _))
    (slipEvents_sameBut _ l)) (count_sameBut _ _ _ _)) (sameBut_mono (report_sameBut _ _ _) (by decide))

theorem sendClipped_sameBut (s : State) (p : Fin 8) : s.sameBut reportParts (s.sendClipped p) := by
  unfold State.sendClipped
  dsimp only
  split
  · exact sameBut_refl s _
  · exact sameBut_trans (sameBut_mono (setProg_sameBut s p _) (by decide)) (sameBut_mono (count_sameBut _ _ _ _) (by decide))

theorem gainResult_sameBut (s : State) (p : Fin 8) (set : LoudSettings) (r : BlockResult) (w : Nat) :
    s.sameBut reportParts (s.gainResult p set r w) := by
  have hset (x : Corrector) : s.sameBut reportParts (s.setGain p x) := sameBut_mono (setProg_sameBut s p _) (by decide)
  have andThen (b : Prop) [Decidable b] {u v : State} (h : s.sameBut reportParts u) (hv : u.sameBut eventParts v) :
      s.sameBut reportParts (if b then v else u) := by
    split
    · exact sameBut_trans h (sameBut_mono hv (by decide))
    · exact h
  unfold State.gainResult
  dsimp only
  split
  · exact andThen _ (andThen _ (hset _) (count_sameBut _ _ _ _)) (count_sameBut _ _ _ _)
  · exact hset _

theorem programmeBlockEnd_sameBut (marks : Vector Bool 8) (p : Fin 8) (s : State) :
    s.sameBut reportParts (State.programmeBlockEnd marks p s) := by
  have set (x : Meter) : s.sameBut reportParts (s.setMeter p x) := sameBut_mono (setProg_sameBut s p _) (by decide)
  unfold State.programmeBlockEnd
  dsimp only
  split
  · exact sameBut_refl s _
  · exact sameBut_refl s _
  · split
    · exact sameBut_trans (set _) (sendClipped_sameBut _ p)
    · exact sameBut_trans (sameBut_trans (sameBut_trans (set _) (gainResult_sameBut _ p _ _ _))
        (sameBut_mono (meterEvents_sameBut _ p _ _) (by decide))) (sendClipped_sameBut _ p)

theorem becomeAbsent_sameBut (s : State) : s.sameBut (.ref :: eventParts) s.becomeAbsent :=
  sameBut_trans (sameBut_mono (withRef_sameBut s _) (by decide)) (sameBut_mono (reportFrameRef_sameBut _) (by decide))

theorem absenceTest_sameBut (s : State) : s.sameBut (.ref :: eventParts) s.absenceTest := by
  unfold State.absenceTest
  split
  · exact becomeAbsent_sameBut s
  · exact sameBut_refl s _

/-- FRM at the reference unit at a house sample: a rising edge is timed (R90, R91). -/
def State.frmSampled (s : State) (lvl : Bool) : State :=
  { s with ref := { (if lvl && !s.ref.frmPrev then s.ref.frmEdge else s.ref) with frmPrev := lvl } }

/-- FRM rises at an accepted interval (R90). -/
def State.frmAccepted (s : State) (lvl : Bool) : Bool := lvl && !s.ref.frmPrev && s.ref.acceptedInterval.isSome

theorem sampleFrm_eq (s : State) (lvl : Bool) : s.sampleFrm lvl =
    if s.frmAccepted lvl then (s.frmSampled lvl).reportFrameRef.cueGroups (fun g => g.source == .frame && g.armed)
      (s.frmSampled lvl).ref.hsc
    else s.frmSampled lvl := rfl

/-- CUE0 and CUE1 as the reference unit holds them behind a house sample (R93). -/
def State.cuesSampled (s : State) (c0 c1 : Bool) : State := { s with ref := { s.ref with cue0Prev := c0, cue1Prev := c1 } }

/-- The cues of a rising edge of one cue line, if it rose (R93, R97). -/
def State.cuesOf (s : State) (rose : Bool) (src : CueSource) : State :=
  if rose then s.cueGroups (fun g => g.source == src) s.ref.hsc else s

theorem sampleCues_eq (s : State) (c0 c1 : Bool) : s.sampleCues c0 c1 =
    ((s.cuesSampled c0 c1).cuesOf (c0 && !s.ref.cue0Prev) .cue0).cuesOf (c1 && !s.ref.cue1Prev) .cue1 := rfl

theorem frmSampled_sameBut (s : State) (lvl : Bool) : s.sameBut [.ref] (s.frmSampled lvl) := withRef_sameBut s _

theorem cuesSampled_sameBut (s : State) (c0 c1 : Bool) : s.sameBut [.ref] (s.cuesSampled c0 c1) := withRef_sameBut s _

theorem cuesOf_sameBut (s : State) (b : Bool) (src : CueSource) : s.sameBut cueParts (s.cuesOf b src) := by
  unfold State.cuesOf
  split
  · exact cueGroups_sameBut s _ _
  · exact sameBut_refl s _

theorem sampleFrm_sameBut (s : State) (lvl : Bool) : s.sameBut (.ref :: cueParts) (s.sampleFrm lvl) := by
  rw [sampleFrm_eq]
  have h : s.sameBut (.ref :: cueParts) (s.frmSampled lvl) := sameBut_mono (frmSampled_sameBut s lvl) (by decide)
  split
  · exact sameBut_trans (sameBut_trans h (sameBut_mono (reportFrameRef_sameBut _) (by decide)))
      (sameBut_mono (cueGroups_sameBut _ _ _) (by decide))
  · exact h

theorem sampleCues_sameBut (s : State) (c0 c1 : Bool) : s.sameBut (.ref :: cueParts) (s.sampleCues c0 c1) := by
  rw [sampleCues_eq]
  exact sameBut_trans (sameBut_trans (sameBut_mono (cuesSampled_sameBut s c0 c1) (by decide))
    (sameBut_mono (cuesOf_sameBut _ _ _) (by decide))) (sameBut_mono (cuesOf_sameBut _ _ _) (by decide))

/-! ### The stages of a block end -/

/-- A block end at the reference unit: the block number (R89). -/
def State.endClocked (s : State) : State :=
  { s with ref := { s.ref with blockNo := s.ref.blockNo + 1, blockEndTaken := true } }

/-- A block end up to the contacts. -/
def State.endContacts (s : State) : State :=
  forEach 4 (fun c t => t.unlessAhead (.contact c) (fun u => u.contactStep c)) s.endClocked

/-- A block end up to the links. -/
def State.endLinks (s : State) : State := forEach 8 (fun l t => t.linkBlockEnd l) s.endContacts

/-- A block end up to MEM_OCC and BLOCKS. -/
def State.endCounted (s : State) : State :=
  (s.endLinks.count .memOcc none (Config.pages - freePages s.endLinks.freeList)).count .blocks none 1

/-- A block end up to the meters and correctors. -/
def State.endProgs (s : State) : State := forEach 8 (State.programmeBlockEnd s.marks) s.endCounted

/-- A block end up to the cue waits. -/
def State.endWaits (s : State) : State :=
  forEach 8 (fun p t => t.unlessAhead (.cueWait p) (fun u => u.cueWaitStep p)) s.endProgs.resetFeeds

/-- A block end, stage by stage. -/
theorem takeBlockEnd_eq (s : State) :
    s.takeBlockEnd = { s.endWaits.stepTimers with ahead := s.endWaits.stepTimers.ahead.filter Ahead.ofSample } := rfl

/-- What holds behind the clock and is kept by every other share of a block end holds behind it. -/
theorem takeBlockEnd_keep_clocked
    (contact : ∀ c s, q s → q (s.contactStep c)) (link : ∀ l s, q s → q (s.linkBlockEnd l))
    (count : ∀ e k s, e ≠ .alarmRaise → q s → q (s.count e none k)) (programme : ∀ m p s, q s → q (State.programmeBlockEnd m p s))
    (feeds : ∀ s, q s → q s.resetFeeds) (wait : ∀ p s, q s → q (s.cueWaitStep p))
    (timer : ∀ n s, sourceIsLevel n = true → q s → q (s.timerStep n)) (ahead : ∀ a s, q s → q { s with ahead := a })
    (hq : q s.endClocked) : q s.takeBlockEnd := by
  have h1 : q s.endContacts := forEach_induct _ q _ hq (fun c t ht => unlessAhead_keep ht (contact c t ht))
  have h2 : q s.endLinks := forEach_induct _ q _ h1 link
  have h3 : q s.endProgs := forEach_induct _ q _ (count _ _ _ (by decide) (count _ _ _ (by decide) h2)) (programme _)
  have h4 : q s.endWaits := forEach_induct _ q _ (feeds _ h3) (fun p t ht => unlessAhead_keep ht (wait p t ht))
  have h5 : q s.endWaits.stepTimers := by
    refine forEach_induct _ q _ h4 (fun n t ht => ?_)
    split
    · next h => exact unlessAhead_keep ht (timer n t h ht)
    · exact ht
  exact ahead _ _ h5

/-- What is kept by every share of a block end is kept by the block end. -/
theorem takeBlockEnd_keep (clock : ∀ s, q s → q s.endClocked)
    (contact : ∀ c s, q s → q (s.contactStep c)) (link : ∀ l s, q s → q (s.linkBlockEnd l))
    (count : ∀ e k s, e ≠ .alarmRaise → q s → q (s.count e none k)) (programme : ∀ m p s, q s → q (State.programmeBlockEnd m p s))
    (feeds : ∀ s, q s → q s.resetFeeds) (wait : ∀ p s, q s → q (s.cueWaitStep p))
    (timer : ∀ n s, sourceIsLevel n = true → q s → q (s.timerStep n)) (ahead : ∀ a s, q s → q { s with ahead := a })
    (hq : q s) : q s.takeBlockEnd :=
  takeBlockEnd_keep_clocked contact link count programme feeds wait timer ahead (clock s hq)

/-! ### The stages of a house sample -/

/-- One converter's read of a house sample, with the events of its slip (R16, R17, R29). -/
def State.readConverter (s : State) (l : Fin 8) : State :=
  if (s.link l).conv.read.slip then (s.setConv l (s.link l).conv.read.conv).slipEvents l
  else s.setConv l (s.link l).conv.read.conv

theorem readConverter_sameBut (s : State) (l : Fin 8) : s.sameBut (.links :: eventParts) (s.readConverter l) := by
  have h : s.sameBut (.links :: eventParts) (s.setConv l (s.link l).conv.read.conv) :=
    sameBut_mono (setLink_sameBut s l _) (by decide)
  unfold State.readConverter
  split
  · exact sameBut_trans h (sameBut_mono (slipEvents_sameBut _ l) (by decide))
  · exact h

theorem readConverter_otherLinks (s : State) (l : Fin 8) : s.otherLinks l (s.readConverter l) := by
  intro k hk
  unfold State.readConverter
  split
  · rw [State.link_congr (State.slipEvents_links _ l)]; exact State.link_setLink_ne s hk _
  · exact State.link_setLink_ne s hk _

@[simp] theorem getElem_reads (s : State) (l : Fin 8) : s.reads[l] = (s.link l).conv.read := by
  simp [State.reads, State.link]

/-- No converter's read depends on another's, so the reads of a house sample are taken link by link. -/
theorem readConverters_reads (s : State) : s.readConverters s.reads = forEach 8 (fun l t => t.readConverter l) s := by
  unfold State.readConverters forEach
  have fold (xs : List (Fin 8)) (u : State) (hn : xs.Nodup) (hu : ∀ l ∈ xs, u.link l = s.link l) :
      xs.foldl (fun t l => if s.reads[l].slip then (t.setConv l s.reads[l].conv).slipEvents l
          else t.setConv l s.reads[l].conv) u = xs.foldl (fun t l => t.readConverter l) u := by
    induction xs generalizing u with
    | nil => rfl
    | cons a xs ih =>
      obtain ⟨ha, hxs⟩ := List.nodup_cons.mp hn
      have hstep : (if s.reads[a].slip then (u.setConv a s.reads[a].conv).slipEvents a else u.setConv a s.reads[a].conv)
          = u.readConverter a := by
        simp only [getElem_reads, ← hu a (by simp), State.readConverter]
      rw [List.foldl_cons, List.foldl_cons, hstep]
      refine ih _ hxs (fun l hl => ?_)
      rw [readConverter_otherLinks u a l (fun h => ha (h ▸ hl)), hu l (by simp [hl])]
  exact fold _ s (List.nodup_finRange 8) (fun _ _ => rfl)

/-- A house sample with the clock advanced and every converter read. -/
def State.sampleRead (s : State) : State :=
  forEach 8 (fun l t => t.readConverter l) { s with ref := s.ref.tick }

/-- What the router hands the lanes at the house sample now due (R42). -/
def State.sampleIns (s : State) : Vector LaneIn 32 := s.laneIns s.reads

/-- The programmes' shares of a house sample, with the lane outputs that come of them. -/
def State.sampleProgs (s : State) : State × Vector Slot 32 :=
  (List.finRange 8).foldl (programmeSample s.sampleIns) (s.sampleRead, s.sampleIns.map LaneIn.passed)

/-- A house sample up to the page clearing. -/
def State.sampleOutputs (s : State) : State := s.sampleProgs.1.pushOutputs s.sampleProgs.2

/-- A house sample up to the sampling of the lines. -/
def State.sampleCleared (s : State) : State :=
  forEach 8 (fun p t => t.unlessAhead (.clear p) (fun u => u.clearStep p)) s.sampleOutputs

theorem sampleRead_sameBut (s : State) : s.sameBut (.ref :: .links :: eventParts) s.sampleRead :=
  sameBut_trans (sameBut_mono (withRef_sameBut s _) (by decide))
    (forEach_sameBut _ _ _ (fun l t => sameBut_mono (readConverter_sameBut t l) (by decide)))

/-- A house sample that no block end precedes, stage by stage. -/
theorem takeHouseSample_eq (h : s.blockEndDue = false) (frm c0 c1 : Bool) : s.takeHouseSample frm c0 c1 =
    { ((s.sampleCleared.sampleFrm frm).absenceTest).sampleCues c0 c1 with
      ahead := (((s.sampleCleared.sampleFrm frm).absenceTest).sampleCues c0 c1).ahead.filter (fun a => !a.ofSample) } := by
  have hread : State.readConverters { s with ref := s.ref.tick } (State.reads { s with ref := s.ref.tick }) = s.sampleRead :=
    readConverters_reads _
  have hins : s.sampleRead.laneIns (State.reads { s with ref := s.ref.tick }) = s.sampleIns := by
    have hr : s.routes = s.sampleRead.routes := sampleRead_sameBut s .routes (by decide)
    simp only [State.laneIns, State.sampleIns, State.reads, hr]
  unfold State.takeHouseSample
  simp only [h, Bool.false_eq_true, if_false, hread, hins]
  rfl

/-- What the programmes' shares of a house sample keep one by one, all of them keep. -/
theorem sampleProgs_keep (hq : q s.sampleRead) (programme : ∀ ins acc p, q acc.1 → q (programmeSample ins acc p).1) :
    q s.sampleProgs.1 := by
  unfold State.sampleProgs
  generalize s.sampleIns.map LaneIn.passed = out
  generalize s.sampleRead = u at hq
  generalize List.finRange 8 = xs
  induction xs generalizing u out with
  | nil => exact hq
  | cons p xs ih => exact ih _ _ (programme _ _ p hq)

/-- What is kept by every share of a house sample that no block end precedes is kept by the house sample. What holds behind the
ring writes (`q`) need only give a weaker law (`r`) for the clearing and the lines. -/
theorem takeHouseSample_keep {r : State → Prop} (h : s.blockEndDue = false)
    (tick : ∀ s, q s → q { s with ref := s.ref.tick }) (read : ∀ l s, q s → q (s.readConverter l))
    (programme : ∀ ins acc p, q acc.1 → q (programmeSample ins acc p).1) (push : ∀ v s, q s → r (s.pushOutputs v))
    (clear : ∀ p s, r s → r (s.clearStep p)) (frm : ∀ v s, r s → r (s.sampleFrm v)) (absence : ∀ s, r s → r s.absenceTest)
    (cues : ∀ a b s, r s → r (s.sampleCues a b)) (ahead : ∀ a s, r s → r { s with ahead := a })
    (hq : q s) (f c0 c1 : Bool) : r (s.takeHouseSample f c0 c1) := by
  rw [takeHouseSample_eq h]
  refine ahead _ _ (cues _ _ _ (absence _ (frm _ _ (forEach_induct _ r _ (push _ _ (sampleProgs_keep ?_ programme)) ?_))))
  · exact forEach_induct _ q _ (tick s hq) read
  · exact fun p t ht => unlessAhead_keep ht (clear p t ht)

/-- What a LIVE programme's step, its take and its writes keep, its share of a house sample keeps. -/
theorem programmeSample_keep {ins : Vector LaneIn 32} {acc : State × Vector Slot 32} {p : Fin 8}
    (move : ∀ s, q s → q (s.moveStep p)) (gain : ∀ w s, q s → q (s.gainStep p w))
    (write : ∀ (h : Held) (w clip : Nat) (s : State), (s.prog p).life = .live h w → q s →
      q (State.setProg { s with mem := writeRings ins h w s.mem } p
        { s.prog p with life := .live h ((w + 1) % 281474976710656), meter := (s.prog p).meter.take ins h.lanes
                        gain := { (s.prog p).gain with clip := (s.prog p).gain.clip + clip } }))
    (life : ∀ (s : State) h w, (s.prog p).life = .live h w → ((s.moveStep p).prog p).life = .live h w
      ∧ ∀ w', ((s.gainStep p w').prog p).life = .live h w)
    (hq : q acc.1) : q (programmeSample ins acc p).1 := by
  unfold programmeSample
  split
  · exact hq
  · exact hq
  · next h w hl =>
    split
    · exact hq
    · unfold State.liveSample
      dsimp only
      have hm : q (acc.1.unlessAhead (.move p) (fun u => u.moveStep p))
          ∧ ((acc.1.unlessAhead (.move p) (fun u => u.moveStep p)).prog p).life = .live h w :=
        unlessAhead_keep (q := fun s => q s ∧ (s.prog p).life = .live h w) ⟨hq, hl⟩ ⟨move _ hq, (life _ h w hl).1⟩
      have hg := unlessAhead_keep (q := fun s => q s ∧ (s.prog p).life = .live h w) (a := .gain p)
        (f := fun u => u.gainStep p w) hm ⟨gain w _ hm.1, (life _ h w hm.2).2 w⟩
      exact write h w _ _ hg.2 hg.1

/-! ### The stages of a cue -/

/-- A cue up to the waiting moves it starts (R99 steps 1 to 3). -/
def State.cueStarted (s : State) (g : Fin 4) : State :=
  forProgs ((s.countCue g).waiting g) (fun p t => t.startWaiting p) (s.countCue g)

/-- A cue up to the restart of the meters (R99 steps 1 to 5). -/
def State.cueRestarted (s : State) (g : Fin 4) (time : Stamp) : State := ((s.cueStarted g).snapshotCue g time).restartCue g

/-- A cue, stage by stage. -/
theorem takeCue_eq (s : State) (g : Fin 4) (time : Stamp) : s.takeCue g time =
    (s.cueRestarted g time).setGroup g { (s.cueRestarted g time).group g with armed := false } := rfl

end Sys2Proof.Machine
end

