-- ==== Sys2Proof/Proofs/Units.lean ====
section
/-! PROOFS. Which unit of a programme each operation reaches: the move operations its move unit, the corrector's and the meter's
shares its corrector and meter, and only requests and page clearing its record. And the law that every command keeps. -/

namespace Sys2Proof.Machine

variable {q : State → Prop} {s t u : State}

/-! ### Programmes but for their units -/

/-- No programme differs but in its move unit. -/
def State.sameButMoves (s t : State) : Prop := ∀ p, t.prog p = { s.prog p with move := (t.prog p).move }

/-- No programme differs but in its meter and corrector. -/
def State.sameButMeters (s t : State) : Prop :=
  ∀ p, t.prog p = { s.prog p with meter := (t.prog p).meter, gain := (t.prog p).gain }

/-- No programme differs but in its units. -/
def State.sameButUnits (s t : State) : Prop :=
  ∀ p, t.prog p = { s.prog p with move := (t.prog p).move, meter := (t.prog p).meter, gain := (t.prog p).gain }

theorem sameButMoves_of_progs (h : s.progs = t.progs) : s.sameButMoves t := fun p => by rw [State.prog_congr h p]

theorem sameButMeters_of_progs (h : s.progs = t.progs) : s.sameButMeters t := fun p => by rw [State.prog_congr h p]

theorem sameButMoves_of_sameBut {ps : List Part} (h : s.sameBut ps t) (hp : Part.progs ∉ ps) : s.sameButMoves t :=
  sameButMoves_of_progs (h .progs hp)

theorem sameButMeters_of_sameBut {ps : List Part} (h : s.sameBut ps t) (hp : Part.progs ∉ ps) : s.sameButMeters t :=
  sameButMeters_of_progs (h .progs hp)

theorem State.sameButMoves.trans (h : s.sameButMoves t) (k : t.sameButMoves u) : s.sameButMoves u := by
  intro p; rw [k p, h p]

theorem State.sameButMeters.trans (h : s.sameButMeters t) (k : t.sameButMeters u) : s.sameButMeters u := by
  intro p; rw [k p, h p]

theorem State.sameButUnits.trans (h : s.sameButUnits t) (k : t.sameButUnits u) : s.sameButUnits u := by
  intro p; rw [k p, h p]

theorem State.sameButMoves.units (h : s.sameButMoves t) : s.sameButUnits t := by intro p; rw [h p]

theorem State.sameButMeters.units (h : s.sameButMeters t) : s.sameButUnits t := by intro p; rw [h p]

theorem sameButUnits_of_sameBut {ps : List Part} (h : s.sameBut ps t) (hp : Part.progs ∉ ps) : s.sameButUnits t :=
  (sameButMoves_of_sameBut h hp).units

theorem State.sameButUnits.life (h : s.sameButUnits t) (p : Fin 8) : (t.prog p).life = (s.prog p).life := by rw [h p]

theorem sameButMoves_refl (s : State) : s.sameButMoves s := fun _ => rfl

theorem sameButMeters_refl (s : State) : s.sameButMeters s := fun _ => rfl

theorem sameButUnits_refl (s : State) : s.sameButUnits s := fun _ => rfl

theorem setMove_sameButMoves (s : State) (p : Fin 8) (x : MoveUnit) : s.sameButMoves (s.setMove p x) := by
  intro k
  by_cases h : k = p
  · subst h; simp [State.setMove]
  · rw [show (s.setMove p x).prog k = s.prog k from State.prog_setProg_ne s h _]

theorem setMeter_sameButMeters (s : State) (p : Fin 8) (x : Meter) : s.sameButMeters (s.setMeter p x) := by
  intro k
  by_cases h : k = p
  · subst h; simp [State.setMeter]
  · rw [show (s.setMeter p x).prog k = s.prog k from State.prog_setProg_ne s h _]

theorem setGain_sameButMeters (s : State) (p : Fin 8) (x : Corrector) : s.sameButMeters (s.setGain p x) := by
  intro k
  by_cases h : k = p
  · subst h; simp [State.setGain]
  · rw [show (s.setGain p x).prog k = s.prog k from State.prog_setProg_ne s h _]

/-! ### The operations of a move unit -/

theorem writeReport_sameButMoves (s : State) (p : Fin 8) (x : Report) : s.sameButMoves (s.writeReport p x) := by
  unfold State.writeReport
  dsimp only
  split
  · exact setMove_sameButMoves s p _
  · exact setMove_sameButMoves s p _
  · exact (setMove_sameButMoves s p _).trans (sameButMoves_of_sameBut (count_sameBut _ _ _ _) (by decide))

theorem moveEvents_sameButMoves (s : State) (p : Fin 8) (o : MoveOutcome) : s.sameButMoves (s.moveEvents p o) :=
  sameButMoves_of_sameBut (moveEvents_sameBut s p o) (by decide)

theorem armGroup_sameButMoves (s : State) (g : Option (Fin 4)) : s.sameButMoves (s.armGroup g) :=
  sameButMoves_of_sameBut (armGroup_sameBut s g) (by decide)

theorem leftWaiting_sameButMoves (s : State) (g : Option (Fin 4)) : s.sameButMoves (s.leftWaiting g) :=
  sameButMoves_of_sameBut (leftWaiting_sameBut s g) (by decide)

theorem endMissed_sameButMoves (s : State) (p : Fin 8) (r : MoveRecord) : s.sameButMoves (s.endMissed p r) :=
  ((writeReport_sameButMoves s p _).trans (moveEvents_sameButMoves _ p _)).trans (setMove_sameButMoves _ p _)

theorem enterRecord_sameButMoves (s : State) (p : Fin 8) (r : MoveRecord) : s.sameButMoves (s.enterRecord p r) := by
  unfold State.enterRecord
  dsimp only
  split
  · exact setMove_sameButMoves s p _
  · split
    · split
      · exact endMissed_sameButMoves s p r
      · exact (setMove_sameButMoves s p _).trans (armGroup_sameButMoves _ _)
    · exact setMove_sameButMoves s p _

theorem afterEnd_sameButMoves (s : State) (p : Fin 8) (r : MoveRecord) (o : MoveOutcome) :
    s.sameButMoves (s.afterEnd p r o) := by
  unfold State.afterEnd
  split
  · exact (setMove_sameButMoves s p _).trans (enterRecord_sameButMoves _ p _)
  · exact setMove_sameButMoves s p _
  · exact setMove_sameButMoves s p _

theorem endMove_sameButMoves (s : State) (p : Fin 8) (r : MoveRecord) (o : MoveOutcome) :
    s.sameButMoves (s.endMove p r o) :=
  ((writeReport_sameButMoves s p _).trans (moveEvents_sameButMoves _ p o)).trans (afterEnd_sameButMoves _ p r o)

theorem moveStep_sameButMoves (s : State) (p : Fin 8) : s.sameButMoves (s.moveStep p) := by
  unfold State.moveStep
  dsimp only
  split
  · split
    · exact setMove_sameButMoves s p _
    · exact (setMove_sameButMoves s p _).trans (endMove_sameButMoves _ p _ _)
  all_goals exact sameButMoves_refl s

theorem cueWaitStep_sameButMoves (s : State) (p : Fin 8) : s.sameButMoves (s.cueWaitStep p) := by
  unfold State.cueWaitStep
  split
  · split
    · exact (endMissed_sameButMoves s p _).trans (leftWaiting_sameButMoves _ _)
    · exact setMove_sameButMoves s p _
  all_goals exact sameButMoves_refl s

theorem holdMoving_sameButMoves (s : State) (p : Fin 8) (r : MoveRecord) (ph : Phase) (k : Nat) :
    s.sameButMoves (s.holdMoving p r ph k) := by
  unfold State.holdMoving
  split
  · exact sameButMoves_refl s
  · exact (setMove_sameButMoves s p _).trans (endMove_sameButMoves _ p r _)
  · split
    · split
      · exact endMove_sameButMoves s p r _
      · exact setMove_sameButMoves s p _
    all_goals exact sameButMoves_refl s

theorem hold_sameButMoves (s : State) (p : Fin 8) : s.sameButMoves (s.hold p) := by
  unfold State.hold
  refine (setMove_sameButMoves s p { (s.prog p).move with staged := .empty }).trans (t := s.setStaged p .empty) ?_
  generalize s.setStaged p .empty = t
  dsimp only
  split
  · exact sameButMoves_refl t
  · exact sameButMoves_refl t
  · exact holdMoving_sameButMoves t p _ _ _
  · exact (endMove_sameButMoves t p _ _).trans (leftWaiting_sameButMoves _ _)
  · exact sameButMoves_refl t
  · exact (setMove_sameButMoves t p _).trans (moveEvents_sameButMoves _ p _)

theorem afterRead_sameButMoves (s : State) (p : Fin 8) : s.sameButMoves (s.afterRead p) := by
  unfold State.afterRead
  split
  · exact (writeReport_sameButMoves s p _).trans (afterEnd_sameButMoves _ p _ _)
  · exact enterRecord_sameButMoves s p _
  all_goals exact sameButMoves_refl s

theorem startWaiting_sameButMoves (s : State) (p : Fin 8) : s.sameButMoves (s.startWaiting p) := by
  unfold State.startWaiting
  split
  · exact setMove_sameButMoves s p _
  all_goals exact sameButMoves_refl s

/-! ### The operations of a meter and of a corrector -/

theorem count_sameButMeters (s : State) (e : CountEvent) (o : Option (Fin 8)) (k : Nat) :
    s.sameButMeters (s.count e o k) := sameButMeters_of_sameBut (count_sameBut s e o k) (by decide)

theorem gainStep_sameButMeters (s : State) (p : Fin 8) (w : Nat) : s.sameButMeters (s.gainStep p w) := by
  unfold State.gainStep
  dsimp only
  split
  · exact setGain_sameButMeters s p _
  · exact (setGain_sameButMeters s p _).trans (sameButMeters_of_sameBut
      (foldl_sameBut _ eventParts _ (fun t _ => count_sameBut t _ _ _) _) (by decide))

theorem sendClipped_sameButMeters (s : State) (p : Fin 8) : s.sameButMeters (s.sendClipped p) := by
  unfold State.sendClipped
  dsimp only
  split
  · exact sameButMeters_refl s
  · exact (setGain_sameButMeters s p _).trans (count_sameButMeters _ _ _ _)

theorem gainResult_sameButMeters (s : State) (p : Fin 8) (set : LoudSettings) (r : BlockResult) (w : Nat) :
    s.sameButMeters (s.gainResult p set r w) := by
  have andThen (b : Prop) [Decidable b] {u v : State} (h : s.sameButMeters u) (hv : u.sameButMeters v) :
      s.sameButMeters (if b then v else u) := by
    split
    · exact h.trans hv
    · exact h
  unfold State.gainResult
  dsimp only
  split
  · exact andThen _ (andThen _ (setGain_sameButMeters s p _) (count_sameButMeters _ _ _ _)) (count_sameButMeters _ _ _ _)
  · exact setGain_sameButMeters s p _

theorem programmeBlockEnd_sameButMeters (marks : Vector Bool 8) (p : Fin 8) (s : State) :
    s.sameButMeters (State.programmeBlockEnd marks p s) := by
  unfold State.programmeBlockEnd
  dsimp only
  split
  · exact sameButMeters_refl s
  · exact sameButMeters_refl s
  · split
    · exact (setMeter_sameButMeters s p _).trans (sendClipped_sameButMeters _ p)
    · exact (((setMeter_sameButMeters s p _).trans (gainResult_sameButMeters _ p _ _ _)).trans
        (sameButMeters_of_sameBut (meterEvents_sameBut _ p _ _) (by decide))).trans (sendClipped_sameButMeters _ p)

/-- What holds of two states one step apart, and is closed under composition, holds across a fold of such steps. -/
theorem foldl_trans {α : Type} {R : State → State → Prop} (hr : ∀ s, R s s) (ht : ∀ {s t u}, R s t → R t u → R s u)
    (f : State → α → State) (hf : ∀ t a, R t (f t a)) (xs : List α) (s : State) : R s (xs.foldl f s) := by
  induction xs generalizing s with
  | nil => exact hr s
  | cons a xs ih => exact ht (hf s a) (ih _)

theorem restartCue_sameButMeters (s : State) (g : Fin 4) : s.sameButMeters (s.restartCue g) := by
  unfold State.restartCue
  split
  · exact foldl_trans sameButMeters_refl State.sameButMeters.trans _ (fun t p => setMeter_sameButMeters t p _) _ s
  · exact sameButMeters_refl s

theorem cueStarted_sameButMoves (s : State) (g : Fin 4) : s.sameButMoves (s.cueStarted g) :=
  (sameButMoves_of_sameBut (countCue_sameBut s g) (by decide)).trans
    (foldl_trans sameButMoves_refl State.sameButMoves.trans _ (fun t p => startWaiting_sameButMoves t p) _ _)

/-- A cue reaches the move units and the meters of programmes and nothing else of them (R99). -/
theorem takeCue_sameButUnits (s : State) (g : Fin 4) (time : Stamp) : s.sameButUnits (s.takeCue g time) := by
  rw [takeCue_eq]
  exact (((cueStarted_sameButMoves s g).units.trans (sameButUnits_of_sameBut (snapshotCue_sameBut _ g time) (by decide))).trans
    (restartCue_sameButMeters _ g).units).trans (sameButUnits_of_sameBut (setGroup_sameBut _ g _) (by decide))

theorem cueGroups_sameButUnits (s : State) (cued : CueGroup → Bool) (time : Stamp) :
    s.sameButUnits (s.cueGroups cued time) := by
  refine foldl_trans sameButUnits_refl State.sameButUnits.trans _ (fun t g => ?_) _ s
  dsimp only
  split
  · exact takeCue_sameButUnits t g time
  · exact sameButUnits_refl t

theorem cuesOf_sameButUnits (s : State) (b : Bool) (src : CueSource) : s.sameButUnits (s.cuesOf b src) := by
  unfold State.cuesOf
  split
  · exact cueGroups_sameButUnits s _ _
  · exact sameButUnits_refl s

theorem sampleFrm_sameButUnits (s : State) (lvl : Bool) : s.sameButUnits (s.sampleFrm lvl) := by
  rw [sampleFrm_eq]
  have h : s.sameButUnits (s.frmSampled lvl) := sameButUnits_of_sameBut (frmSampled_sameBut s lvl) (by decide)
  split
  · exact (h.trans (sameButUnits_of_sameBut (reportFrameRef_sameBut _) (by decide))).trans (cueGroups_sameButUnits _ _ _)
  · exact h

theorem sampleCues_sameButUnits (s : State) (c0 c1 : Bool) : s.sameButUnits (s.sampleCues c0 c1) := by
  rw [sampleCues_eq]
  exact ((sameButUnits_of_sameBut (cuesSampled_sameBut s c0 c1) (by decide)).trans (cuesOf_sameButUnits _ _ _)).trans
    (cuesOf_sameButUnits _ _ _)

/-- A block end reaches no programme but its units. -/
theorem takeBlockEnd_sameButUnits (s : State) : s.sameButUnits s.takeBlockEnd :=
  takeBlockEnd_keep (q := fun t => s.sameButUnits t)
    (fun t h => h.trans (sameButUnits_of_sameBut (withRef_sameBut t _) (by decide)))
    (fun c t h => h.trans (sameButUnits_of_sameBut (contactStep_sameBut t c) (by decide)))
    (fun l t h => h.trans (sameButUnits_of_sameBut (linkBlockEnd_sameBut t l) (by decide)))
    (fun e k t _ h => h.trans (sameButUnits_of_sameBut (count_sameBut t e none k) (by decide)))
    (fun m p t h => h.trans (programmeBlockEnd_sameButMeters m p t).units)
    (fun t h => h.trans (sameButUnits_of_sameBut (resetFeeds_sameBut t) (by decide)))
    (fun p t h => h.trans (cueWaitStep_sameButMoves t p).units)
    (fun n t _ h => h.trans (sameButUnits_of_sameBut (timerStep_sameBut t n) (by decide)))
    (fun a t h => h.trans (sameButUnits_of_sameBut (withAhead_sameBut t a) (by decide))) (sameButUnits_refl s)

/-! ### A block end that is due -/

theorem extentOutside_congr (h : ∀ p, (t.prog p).life = (s.prog p).life) : t.extentOutside? = s.extentOutside? := by
  simp only [State.extentOutside?, h]

theorem extentOutside_eq_none_iff (s : State) : s.extentOutside? = none ↔ ∀ p, (s.prog p).life.extentInside = true := by
  simp [State.extentOutside?, List.find?_eq_none]

theorem takeBlockEnd_extentOutside (s : State) : s.takeBlockEnd.extentOutside? = s.extentOutside? :=
  extentOutside_congr (takeBlockEnd_sameButUnits s).life

theorem takeBlockEnd_ref (s : State) :
    s.takeBlockEnd.ref = { s.ref with blockNo := s.ref.blockNo + 1, blockEndTaken := true } := by
  have step {ps : List Part} {t u : State} (h : t.sameBut ps u) (hp : Part.ref ∉ ps) (ht : t.ref = s.endClocked.ref) :
      u.ref = s.endClocked.ref := (h .ref hp).symm.trans ht
  exact takeBlockEnd_keep_clocked (q := fun t => t.ref = s.endClocked.ref)
    (fun c t => step (contactStep_sameBut t c) (by decide)) (fun l t => step (linkBlockEnd_sameBut t l) (by decide))
    (fun e k t _ => step (count_sameBut t e none k) (by decide))
    (fun m p t => step (programmeBlockEnd_sameBut m p t) (by decide)) (fun t => step (resetFeeds_sameBut t) (by decide))
    (fun p t => step (cueWaitStep_sameBut t p) (by decide)) (fun n t _ => step (timerStep_sameBut t n) (by decide))
    (fun a t => step (withAhead_sameBut t a) (by decide)) rfl

theorem takeBlockEnd_blockEndDue (s : State) : s.takeBlockEnd.blockEndDue = false := by
  simp [State.blockEndDue, takeBlockEnd_ref]

/-- A house sample with the block end due is the house sample after that block end (R89). -/
theorem takeHouseSample_of_due (h : s.blockEndDue = true) (frm c0 c1 : Bool) :
    s.takeHouseSample frm c0 c1 = s.takeBlockEnd.takeHouseSample frm c0 c1 := by
  unfold State.takeHouseSample
  simp only [h, takeBlockEnd_blockEndDue, if_true, Bool.false_eq_true, if_false]

/-! ### The law that every command keeps -/

/-- One unit's share of a house sample, as a row takes it ahead (log entry 4). -/
inductive SampleShare (s : State) : (State → State) → Prop where
  | move (p : Fin 8) : SampleShare s (fun u => u.moveStep p)
  | gain (p : Fin 8) (w : Nat) : SampleShare s (fun u => u.gainStep p w)
  | absent : SampleShare s State.becomeAbsent
  | clear (p : Fin 8) (h : (s.prog p).life.extentInside = true) : SampleShare s (fun u => u.clearStep p)

/-- The law is kept by everything that a command can come to short of a reset. -/
structure KeptRunning (q : State → Prop) : Prop where
  port : ∀ s x, q s → q (s.setPort x)
  ahead : ∀ s a, q s → q { s with ahead := a }
  pending : ∀ s cs, q s → q { s with pending := cs }
  startUpEnd : ∀ s, q s → q { s with startUp := false }
  request : ∀ code body s, q s → q (takeRequest code body s).state
  arrive : ∀ l f ok s, q s → q (s.arrive l f ok)
  discard : ∀ s, q s → q ((s.latch controlSource).count .controlErr none 1)
  blockEnd : ∀ s, q s → q s.takeBlockEnd
  sample : ∀ s frm c0 c1, s.blockEndDue = false → s.extentOutside? = none → q s → q (s.takeHouseSample frm c0 c1)
  share : ∀ s f, SampleShare s f → q s → q (s.onSample f)
  wait : ∀ p s, q s → q (s.cueWaitStep p)
  timer : ∀ n s, sourceIsLevel n = true → q s → q (s.timerStep n)
  contact : ∀ c s, q s → q (s.contactStep c)

/-- The law reads no port, start-up mark, mark of a share ahead or queue, and is kept by everything that a command can come to. -/
structure Kept (q : State → Prop) : Prop where
  outside : Reads [.links, .routes, .feeds, .progs, .freeList, .mem, .outPipe, .outLinks, .ref, .groups, .snaps, .sources,
    .threshold, .attn, .contacts, .counters] q
  reset : ∀ s, q s → q s.resetAll
  request : ∀ code body s, q s → q (takeRequest code body s).state
  arrive : ∀ l f ok s, q s → q (s.arrive l f ok)
  discard : ∀ s, q s → q ((s.latch controlSource).count .controlErr none 1)
  blockEnd : ∀ s, q s → q s.takeBlockEnd
  sample : ∀ s frm c0 c1, s.blockEndDue = false → s.extentOutside? = none → q s → q (s.takeHouseSample frm c0 c1)
  share : ∀ s f, SampleShare s f → q s → q (s.onSample f)
  wait : ∀ p s, q s → q (s.cueWaitStep p)
  timer : ∀ n s, sourceIsLevel n = true → q s → q (s.timerStep n)
  contact : ∀ c s, q s → q (s.contactStep c)

theorem Kept.running (k : Kept q) : KeptRunning q where
  port s x := k.outside.keep (setPort_sameBut s x) (by decide)
  ahead s a := k.outside.keep (withAhead_sameBut s a) (by decide)
  pending s cs := k.outside.keep (withPending_sameBut s cs) (by decide)
  startUpEnd s := k.outside.keep (withStartUp_sameBut s false) (by decide)
  request := k.request
  arrive := k.arrive
  discard := k.discard
  blockEnd := k.blockEnd
  sample := k.sample
  share := k.share
  wait := k.wait
  timer := k.timer
  contact := k.contact

theorem ite_keep {b : Prop} [Decidable b] {u v : State} (hu : b → q u) (hv : q v) : q (if b then u else v) := by
  split
  · next h => exact hu h
  · exact hv

namespace KeptRunning

variable (k : KeptRunning q)
include k

theorem houseSample (he : s.extentOutside? = none) (frm c0 c1 : Bool) (hq : q s) : q (s.takeHouseSample frm c0 c1) := by
  cases h : s.blockEndDue
  · exact k.sample s frm c0 c1 h he hq
  · rw [takeHouseSample_of_due h]
    exact k.sample _ frm c0 c1 (takeBlockEnd_blockEndDue s) ((takeBlockEnd_extentOutside s).trans he) (k.blockEnd s hq)

theorem settled (hq : q s) : q s.settled := by
  unfold State.settled
  split
  · exact hq
  · split
    · exact k.ahead _ [] (k.blockEnd s hq)
    · split
      · exact hq
      · next he => exact k.ahead _ [] (k.houseSample he _ _ _ hq)

theorem settledFor (r : Request) (hq : q s) : q (s.settledFor r) := by
  unfold State.settledFor
  split
  · exact hq
  · exact k.settled hq

theorem dispatch (r : Request) (hq : q s) : q (s.dispatch r) := k.port _ _ (k.request _ _ s hq)

theorem discardFrame (hq : q s) : q s.discardFrame := k.discard _ (k.settled (k.port _ _ hq))

theorem receive (r : Request) (hq : q s) : q (s.receive r) := by
  unfold State.receive
  split
  · exact k.dispatch r (k.port _ _ (k.settledFor r (k.port _ _ hq)))
  · exact k.port _ _ (k.port _ _ hq)
  · exact k.discardFrame hq

theorem takeByte (b : Byte) (hq : q s) : q (s.takeByte b) := by
  unfold State.takeByte
  split
  · split
    · exact k.port _ _ hq
    · exact hq
  · split
    · exact k.port _ _ hq
    · exact k.discardFrame hq
  · dsimp only
    split
    · unfold State.completeFrame
      split
      · dsimp only
        split
        · split
          · exact k.receive _ hq
          · exact k.discardFrame hq
        · exact k.discardFrame hq
        · exact k.discardFrame hq
      · exact k.discardFrame hq
    · exact k.port _ _ hq

theorem replyDone (hq : q s) : q s.replyDone := by
  unfold State.replyDone
  split
  · exact k.port _ _ hq
  · exact k.dispatch _ (k.port _ _ (k.settledFor _ hq))

theorem markAhead (a : Ahead) (hq : q s) : q (s.markAhead a) := k.ahead s _ hq

/-- A share that is not due changes nothing. -/
theorem ofShare {b : Prop} [Decidable b] {a : Ahead} (hu : b → q u) (hq : q s) : q (if b then u.markAhead a else s) :=
  ite_keep (fun h => k.markAhead a (hu h)) hq

theorem gainShare (p : Fin 8) (hq : q s) (h : exec (.appliedGainStep p) s = .next t) : q t := by
  simp only [exec, execAppliedGainStep, Host.Outcome.next.injEq] at h
  subst h
  split
  · exact hq
  · next w hw =>
    have ht : q (if s.ahead.contains (.move p) then s else (s.onSample (fun u => u.moveStep p)).markAhead (.move p)) := by
      split
      · exact hq
      · exact k.markAhead _ (k.share s _ (.move p) hq)
    exact ite_keep (fun _ => k.markAhead _ (k.share _ _ (.gain p w) ht)) hq

theorem clearShare (p : Fin 8) (hq : q s) (h : exec (.pageClearStep p) s = .next t) : q t := by
  simp only [exec, execPageClearStep] at h
  split at h
  · split at h
    · next he => cases h; exact k.markAhead _ (k.share s _ (.clear p he) hq)
    · cases h
  · cases h; exact hq

theorem execHouseSample (frm c0 c1 : Bool) (hq : q s) (h : exec (.houseSample frm c0 c1) s = .next t) : q t := by
  simp only [exec, Machine.execHouseSample] at h
  split at h
  · cases h; exact hq
  · split at h
    · cases h
    · next he => cases h; exact k.houseSample he _ _ _ hq

/-- Every command that answers a next state keeps the law or resets the part. -/
theorem exec {c : Instr} (hq : q s) (h : Machine.exec c s = .next t) : q t ∨ t = s.resetAll := by
  cases hr : requestOf c with
  | some r =>
    rw [exec_request hr] at h
    cases h
    exact .inl (ite_keep (fun _ => hq) (k.receive r hq))
  | none =>
    match c, hr with
    | .powerOnReset, _ => cases h; exact .inr rfl
    | .startUpEnd, _ => cases h; exact .inl (k.startUpEnd s hq)
    | .frameArrival l f ok, _ => cases h; exact .inl (ite_keep (fun _ => k.arrive l f ok _ (k.settled hq)) hq)
    | .houseSample frm c0 c1, _ => exact .inl (k.execHouseSample frm c0 c1 hq h)
    | .moveEnd p, _ => cases h; exact .inl (k.ofShare (fun _ => k.share s _ (.move p) hq) hq)
    | .appliedGainStep p, _ => exact .inl (k.gainShare p hq h)
    | .frameReferenceAbsent, _ => cases h; exact .inl (k.ofShare (fun _ => k.share s _ .absent hq) hq)
    | .pageClearStep p, _ => exact .inl (k.clearShare p hq h)
    | .blockEnd, _ => cases h; exact .inl (ite_keep (fun _ => k.blockEnd s hq) hq)
    | .cueTimeout p, _ => cases h; exact .inl (k.ofShare (fun _ => k.wait p s hq) hq)
    | .sourceQualifies n, _ =>
      cases h
      refine .inl (k.ofShare (fun hb => k.timer n s ?_ hq) hq)
      simp only [State.sourceDue, Bool.and_eq_true] at hb
      exact hb.1.1.2
    | .sourceLosesQualification n, _ =>
      cases h
      refine .inl (k.ofShare (fun hb => k.timer n s ?_ hq) hq)
      simp only [State.sourceDue, Bool.and_eq_true] at hb
      exact hb.1.1.2
    | .contactRelease c, _ => cases h; exact .inl (k.ofShare (fun _ => k.contact c s hq) hq)
    | .requestFrameDiscard d, _ => cases h; exact .inl (ite_keep (fun _ => k.discardFrame hq) hq)
    | .interByteGap, _ => cases h; exact .inl (ite_keep (fun _ => k.discardFrame hq) hq)
    | .replySent, _ =>
      cases h
      split
      · exact .inl hq
      · split
        · exact .inr rfl
        · exact .inl (k.replyDone hq)
    | .resetTakesEffect, _ =>
      cases h
      split
      · exact .inr rfl
      · exact .inl hq
    | .controlByte b, _ => cases h; exact .inl (ite_keep (fun _ => hq) (k.takeByte b hq))

end KeptRunning

theorem Kept.exec (k : Kept q) {c : Instr} (hq : q s) (h : Machine.exec c s = .next t) : q t := by
  rcases k.running.exec hq h with h | rfl
  · exact h
  · exact k.reset s hq

/-- Every step that answers a next state keeps the law. -/
theorem Kept.step (k : Kept q) (hq : q s) (h : Machine.step s = .next t) : q t := by
  unfold Machine.step at h
  split at h
  · cases h; exact hq
  · exact k.exec (k.running.pending s _ hq) h

/-! ### Shares of a house sample and the clock -/

/-- A law that does not read the reference unit sees a share of a house sample as the share alone. -/
theorem onSample_keep {ps : List Part} (hr : Reads ps q) (hp : Part.ref ∉ ps) {f : State → State}
    (hf : q { s with ref := s.ref.tick } → q (f { s with ref := s.ref.tick })) (hq : q s) : q (s.onSample f) := by
  have hd : ∀ x ∈ ps, x ∉ [Part.ref] := fun x hx h => hp (by simp at h; exact h ▸ hx)
  exact hr.keep (withRef_sameBut _ _) hd (hf (hr.keep (withRef_sameBut s _) hd hq))

end Sys2Proof.Machine
end

