-- ==== Sys2Proof/Proofs/Effects.lean ====
section
/-! PROOFS. What a request can do, said once: its owner refuses it and changes nothing, or answers a status below 0x10 and leaves
one of the effects listed here (R185, R186). -/

namespace Sys2Proof.Machine

variable {q : State → Prop} {s t : State} {body : List Byte}

/-! ### The effects -/

/-- PROG.OPEN past its checks (R48). -/
def State.opened (s : State) (x : OpenRequest) (p : Fin 8) (ls : List LaneWeight) (g : Option (Fin 4)) (start : Nat)
    (free : List Extent) : State :=
  State.setProg { s with freeList := free } p (openedProgramme x ls g ⟨start, pagesNeeded ls.length x.dmax⟩)

/-- PROG.CLOSE of a LIVE programme up to its alarm sources (R59). -/
def State.closedLive (s : State) (p : Fin 8) (e : Extent) : State :=
  if (s.prog p).move.state.isCueWait then
    ((s.setProg p (s.prog p).closedLive).releaseExtent e).leftWaiting (s.prog p).group
  else (s.setProg p (s.prog p).closedLive).releaseExtent e

/-- PROG.CLOSE at the programme's three level sources (R154). -/
def State.closeSources (s : State) (p : Fin 8) : State :=
  ((s.closeSource (silenceSource p)).closeSource (loudHighSource p)).closeSource (loudLowSource p)

/-- MOVE.HOLDALL (R82). -/
def State.holdAll (s : State) : State := forEach 8 (fun p t => if (t.prog p).life.isLive then t.hold p else t) s

/-- What a request of another code than ROUTE.SET's and COUNT.SET's leaves of a state. -/
inductive Effect (s : State) : State → Prop where
  | nothing : Effect s s
  | linkSet (l : Fin 8) (en : Bool) (pp : ParityPolicy) (sp : SlotPolicy) : Effect s (s.setLinkPolicy l en pp sp)
  | opened (x : OpenRequest) (p : Fin 8) (ls : List LaneWeight) (g : Option (Fin 4)) (start : Nat) (free : List Extent)
      (hx : x.inRange? = some (p, ls, g)) (hc : (s.prog p).life.isClosed = true)
      (hl : ∀ lw ∈ ls, s.laneTaken lw.lane = false) (ha : allocate s.freeList (pagesNeeded ls.length x.dmax) = some (start, free)) :
      Effect s (s.opened x p ls g start free)
  | closedClearing (p : Fin 8) (h : Held) (left k : Nat) (hl : (s.prog p).life = .clearing h left k) :
      Effect s ((s.setProg p (s.prog p).closedClearing).releaseExtent h.extent)
  | closedLive (p : Fin 8) (h : Held) (w : Nat) (hl : (s.prog p).life = .live h w) :
      Effect s ((s.closedLive p h.extent).closeSources p)
  | grouped (p : Fin 8) (g : Option (Fin 4)) (hc : (s.prog p).move.state.isCueWait = false) :
      Effect s (s.setProg p { s.prog p with group := g })
  | drafted (p : Fin 8) (r : MoveRecord) (v : Nat) (hr : r.target = clampNat (s.prog p).low (s.prog p).high v) :
      Effect s (s.setStaged p (.draft r))
  | committed (p : Fin 8) (r : MoveRecord) (hd : (s.prog p).move.staged = .draft r) (h0 : (s.prog p).move.state ≠ .still)
      (h1 : ∀ x, (s.prog p).move.state ≠ .halted x) : Effect s (s.setStaged p (.committed r))
  | unstaged (p : Fin 8) : Effect s (s.setStaged p .empty)
  | started (p : Fin 8) (r : MoveRecord) (hd : (s.prog p).move.staged = .draft r)
      (hr : r.cued = true → (s.prog p).group.isSome = true) : Effect s ((s.setStaged p .empty).enterRecord p r)
  | held (p : Fin 8) : Effect s (s.hold p)
  | heldAll : Effect s s.holdAll
  | resumed (p : Fin 8) (r : MoveRecord) (hh : (s.prog p).move.state = .halted r) :
      Effect s (s.enterRecord p { r with cued := false })
  | reportsRead (p : Fin 8) : Effect s ((s.setMove p { (s.prog p).move with reports := [], lost := 0 }).afterRead p)
  | cueSet (g : Fin 4) (src : CueSource) (timeout : Nat) (restart snapshot : Bool) :
      Effect s (s.setGroup g { s.group g with source := src, timeout := timeout, restart := restart
                                              snapshot := snapshot }).reportFrameRef
  | armed (g : Fin 4) : Effect s (s.armGroup (some g))
  | cued (g : Fin 4) : Effect s (s.takeCue g s.ref.hsc)
  | snapRead (g : Fin 4) (x : SnapEntry) : Effect s (s.setSnap g x)
  | loudSet (p : Fin 8) (x : LoudSettings) : Effect s (s.setMeter p { (s.prog p).meter with settings := x })
  | loudRestart (p : Fin 8) : Effect s (s.setMeter p (s.prog p).meter.restart)
  | loudRead (p : Fin 8) : Effect s (s.setMeter p (s.prog p).meter.clearPeaks)
  | gainSet (p : Fin 8) (x : GainSettings) (m : GainMode) :
      Effect s (s.setGain p (((s.prog p).gain.withSettings x.clamped).setMode m))
  | almSet (n : Fin 59) (prio : Nat) (masked : Bool) (rt ct : Nat)
      (hn : (s.source n).accepted = true → min prio 7 = (s.source n).priority) :
      Effect s (s.storeSettings n ((s.source n).withSettings (sourceIsLevel n) prio masked rt ct))
  | almLevel (v : Nat) : Effect s (State.judge { s with threshold := v })
  | almNext (n : Fin 59) (hn : s.pick = some n) :
      Effect s (s.setSource n { s.source n with pending := false, accepted := true })
  | almClose (n : Fin 59) (hn : (s.source n).accepted = true) :
      Effect s (s.setSource n ((s.source n).closed (sourceIsLevel n)))
  | contactSet (c : Fin 4) (ceil : Option Nat) (m : Nat) :
      Effect s (s.setContact c ((s.contact c).set (demand s.sources ceil) ceil m))
  | zeroed (c : Fin 8) : Effect s (s.setCounter c (s.counter c).zeroed)
  | allZeroed : Effect s { s with counters := s.counters.map Counter.zeroed }

/-- A refusal that changes nothing, or a status below 0x10 with one of the effects. -/
def Answer.lawful (a : Answer) (s : State) : Prop :=
  (∃ st, a = refuse s st) ∨ ((statusCode a.status).toNat < 0x10 ∧ Effect s a.state)

theorem refuse_lawful (s : State) (st : Status) : (refuse s st).lawful s := .inl ⟨st, rfl⟩

theorem ok_lawful (b : List Byte) (h : Effect s t) : Answer.lawful ⟨t, .ok, b⟩ s := .inr ⟨show (statusCode .ok).toNat < 0x10 by decide, h⟩

theorem empty_lawful (s : State) : Answer.lawful ⟨s, .empty, []⟩ s := .inr ⟨show (statusCode .empty).toNat < 0x10 by decide, .nothing⟩

theorem statusCode_okOrAdjusted (c : Bool) : (statusCode (okOrAdjusted c)).toNat < 0x10 := by cases c <;> decide

theorem adjusted_lawful (c : Bool) (b : List Byte) (h : Effect s t) : Answer.lawful ⟨t, okOrAdjusted c, b⟩ s :=
  .inr ⟨statusCode_okOrAdjusted c, h⟩

/-! ### The owners (section 11.5) -/

theorem withLive_lawful {f : Fin 8 → Answer} (hf : ∀ p, (s.prog p).life.isLive = true → (f p).lawful s) :
    (withLiveProgramme body s f).lawful s := by
  unfold withLiveProgramme
  split
  · split
    · exact refuse_lawful s _
    · split
      · next h => exact hf _ h
      · exact refuse_lawful s _
  · exact refuse_lawful s _

theorem withOpen_lawful {f : Fin 8 → Answer} (hf : ∀ p, (f p).lawful s) : (withOpenProgramme body s f).lawful s := by
  unfold withOpenProgramme
  split
  · split
    · exact refuse_lawful s _
    · split
      · exact refuse_lawful s _
      · exact hf _
  · exact refuse_lawful s _

variable (body s)

theorem takeIdentify_lawful : (takeIdentify body s).lawful s := by
  unfold takeIdentify
  split
  · exact ok_lawful _ .nothing
  · exact refuse_lawful s _

theorem takeReset_lawful : (takeReset body s).lawful s := by
  unfold takeReset
  split
  · exact ok_lawful _ .nothing
  · exact refuse_lawful s _

theorem takeHouseStatus_lawful : (takeHouseStatus body s).lawful s := by
  unfold takeHouseStatus
  split
  · exact ok_lawful _ .nothing
  · exact refuse_lawful s _

theorem takeLinkSet_lawful : (takeLinkSet body s).lawful s := by
  unfold takeLinkSet
  split
  · split
    · split
      · exact ok_lawful _ (.linkSet _ _ _ _)
      · exact refuse_lawful s _
    · exact refuse_lawful s _
  · exact refuse_lawful s _

theorem takeLinkStatus_lawful : (takeLinkStatus body s).lawful s := by
  unfold takeLinkStatus
  split
  · split
    · exact ok_lawful _ .nothing
    · exact refuse_lawful s _
  · exact refuse_lawful s _

theorem takeRouteGet_lawful : (takeRouteGet body s).lawful s := by
  unfold takeRouteGet
  split
  · exact ok_lawful _ .nothing
  · exact refuse_lawful s _

theorem takeProgOpen_lawful : (takeProgOpen body s).lawful s := by
  unfold takeProgOpen
  split
  · exact refuse_lawful s _
  · next x _ =>
    split
    · exact refuse_lawful s _
    · next p ls g hx =>
      split
      · exact refuse_lawful s _
      · next hs =>
        obtain ⟨hc, hl⟩ : (s.prog p).life.isClosed = true ∧ ∀ lw ∈ ls, s.laneTaken lw.lane = false := by simpa using hs
        split
        · exact refuse_lawful s _
        · next start free ha => exact adjusted_lawful _ _ (.opened x p ls g start free hx hc hl ha)

theorem takeProgClose_lawful : (takeProgClose body s).lawful s := by
  unfold takeProgClose
  split
  · split
    · exact refuse_lawful s _
    · next p _ =>
      dsimp only
      split
      · exact refuse_lawful s _
      · next h left k hl => exact ok_lawful _ (.closedClearing p h left k hl)
      · next h w hl => exact ok_lawful _ (.closedLive p h w hl)
  · exact refuse_lawful s _

theorem takeProgStatus_lawful : (takeProgStatus body s).lawful s := by
  unfold takeProgStatus
  split
  · split
    · exact refuse_lawful s _
    · exact ok_lawful _ .nothing
  · exact refuse_lawful s _

theorem takeProgGroup_lawful : (takeProgGroup body s).lawful s := by
  unfold takeProgGroup
  split
  · split
    · next p g _ _ =>
      dsimp only
      split
      · exact refuse_lawful s _
      · next h =>
        obtain ⟨-, hc⟩ : (s.prog p).life.isClosed = false ∧ (s.prog p).move.state.isCueWait = false := by simpa using h
        exact ok_lawful _ (.grouped p g hc)
    · exact refuse_lawful s _
  · exact refuse_lawful s _

theorem moveSetChecked_lawful (p : Fin 8) (tag : Byte) (k : KindCode) (u : TargetUnit) (v : Nat) (r f : Option Nat) (c : Byte) :
    (moveSetChecked s p tag k u v r f c).lawful s := by
  unfold moveSetChecked
  split
  · split
    · exact refuse_lawful s _
    · dsimp only
      split
      · exact refuse_lawful s _
      · exact adjusted_lawful _ _ (.drafted p _ _ rfl)
  · exact refuse_lawful s _

theorem takeMoveSet_lawful : (takeMoveSet body s).lawful s := by
  unfold takeMoveSet
  split
  · split
    · exact refuse_lawful s _
    · split
      · split
        · split
          · exact refuse_lawful s _
          · split
            · exact moveSetChecked_lawful s _ _ _ _ _ _ _ _
            · exact refuse_lawful s _
        · exact refuse_lawful s _
      · exact refuse_lawful s _
  · exact refuse_lawful s _

theorem takeMoveGo_lawful : (takeMoveGo body s).lawful s := by
  refine withLive_lawful fun p _ => ?_
  dsimp only
  split
  · exact refuse_lawful s _
  · exact refuse_lawful s _
  · next r hd =>
    have start : (if r.cued && (s.prog p).group.isNone then refuse s .state
        else ⟨(s.setStaged p .empty).enterRecord p r, .ok, []⟩ : Answer).lawful s := by
      split
      · exact refuse_lawful s _
      · next h =>
        refine ok_lawful _ (.started p r hd fun hr => ?_)
        rw [hr, Bool.true_and] at h
        rwa [Option.isNone_eq_false_iff.symm, ← Bool.not_eq_true]
    split
    · exact start
    · exact start
    all_goals next hm => exact ok_lawful _ (.committed p r hd (by simp [hm]) (by simp [hm]))

theorem takeMoveDiscard_lawful : (takeMoveDiscard body s).lawful s := by
  refine withLive_lawful fun p _ => ?_
  split
  · exact refuse_lawful s _
  · exact ok_lawful _ (.unstaged p)
  · exact ok_lawful _ (.unstaged p)

theorem takeMoveHold_lawful : (takeMoveHold body s).lawful s := withLive_lawful fun p _ => ok_lawful _ (.held p)

theorem takeMoveFinish_lawful : (takeMoveFinish body s).lawful s := withLive_lawful fun p _ => ok_lawful _ (.unstaged p)

theorem takeMoveResume_lawful : (takeMoveResume body s).lawful s := by
  refine withLive_lawful fun p _ => ?_
  split
  · next r hh => exact ok_lawful _ (.resumed p r hh)
  all_goals exact refuse_lawful s _

theorem takeMoveHoldall_lawful : (takeMoveHoldall body s).lawful s := by
  unfold takeMoveHoldall
  split
  · exact ok_lawful _ .heldAll
  · exact refuse_lawful s _

theorem takeMoveStatus_lawful : (takeMoveStatus body s).lawful s := withOpen_lawful fun _ => ok_lawful _ .nothing

theorem takeMoveReports_lawful : (takeMoveReports body s).lawful s :=
  withLive_lawful fun p _ => ok_lawful _ (.reportsRead p)

theorem takeCueSet_lawful : (takeCueSet body s).lawful s := by
  unfold takeCueSet
  split
  · split
    · split
      · exact refuse_lawful s _
      · exact adjusted_lawful _ _ (.cueSet _ _ _ _ _)
    · exact refuse_lawful s _
  · exact refuse_lawful s _

theorem takeCueFire_lawful : (takeCueFire body s).lawful s := by
  unfold takeCueFire
  split
  · split
    · exact refuse_lawful s _
    · next g _ =>
      dsimp only
      split
      · exact refuse_lawful s _
      · exact ok_lawful _ (.armed g)
      all_goals exact ok_lawful _ (.cued g)
  · exact refuse_lawful s _

theorem takeSnapRead_lawful : (takeSnapRead body s).lawful s := by
  unfold takeSnapRead
  split
  · split
    · exact refuse_lawful s _
    · split
      · exact empty_lawful s
      · exact ok_lawful _ (.snapRead _ _)
  · exact refuse_lawful s _

theorem takeLoudSet_lawful : (takeLoudSet body s).lawful s := by
  unfold takeLoudSet
  split
  · split
    · exact refuse_lawful s _
    · split
      · exact refuse_lawful s _
      · exact adjusted_lawful _ _ (.loudSet _ _)
  · exact refuse_lawful s _

theorem takeLoudRead_lawful : (takeLoudRead body s).lawful s := withOpen_lawful fun p => ok_lawful _ (.loudRead p)

theorem takeLoudRestart_lawful : (takeLoudRestart body s).lawful s := withOpen_lawful fun p => ok_lawful _ (.loudRestart p)

theorem takeGainSet_lawful : (takeGainSet body s).lawful s := by
  unfold takeGainSet
  split
  · split
    · exact refuse_lawful s _
    · split
      · exact refuse_lawful s _
      · split
        · exact refuse_lawful s _
        · exact adjusted_lawful _ _ (.gainSet _ _ _)
  · exact refuse_lawful s _

theorem takeGainRead_lawful : (takeGainRead body s).lawful s := withOpen_lawful fun _ => ok_lawful _ .nothing

theorem takeAlmSet_lawful : (takeAlmSet body s).lawful s := by
  unfold takeAlmSet
  split
  · split
    · exact refuse_lawful s _
    · split
      · exact refuse_lawful s _
      · next n _ =>
        dsimp only
        split
        · exact refuse_lawful s _
        · next h =>
          refine adjusted_lawful _ _ (.almSet n _ _ _ _ fun ha => ?_)
          simpa [ha] using h
  · exact refuse_lawful s _

theorem takeAlmNext_lawful : (takeAlmNext body s).lawful s := by
  unfold takeAlmNext
  split
  · split
    · exact empty_lawful s
    · next n hn => exact ok_lawful _ (.almNext n hn)
  · exact refuse_lawful s _

theorem takeAlmLook_lawful : (takeAlmLook body s).lawful s := by
  unfold takeAlmLook
  split
  · split
    · exact empty_lawful s
    · exact ok_lawful _ .nothing
  · exact refuse_lawful s _

theorem foldl_betterPick_mem (s : State) (ns : List (Fin 59)) (a : Fin 59) : ns.foldl (betterPick s) a ∈ a :: ns := by
  induction ns generalizing a with
  | nil => simp
  | cons m ns ih =>
    rw [List.foldl_cons, betterPick]
    split
    · exact List.mem_cons_of_mem a (ih m)
    · rcases List.mem_cons.mp (ih a) with h | h
      · rw [h]; simp
      · simp [h]

/-- A pick is one of the list it is made from (R162). -/
theorem mem_of_pickOf {s : State} {n : Fin 59} {xs : List (Fin 59)} (h : s.pickOf xs = some n) : n ∈ xs := by
  cases xs with
  | nil => cases h
  | cons a ns => cases h; exact foldl_betterPick_mem s ns a

theorem top_accepted {s : State} {n : Fin 59} (h : s.top = some n) : (s.source n).accepted = true :=
  (mem_sourcesWith s Source.accepted n).mp (mem_of_pickOf (top_eq_pickOf s ▸ h))

theorem takeAlmClose_lawful : (takeAlmClose body s).lawful s := by
  unfold takeAlmClose
  split
  · split
    · split
      · exact refuse_lawful s _
      · next n hn => exact ok_lawful _ (.almClose n (top_accepted hn))
    · split
      · exact refuse_lawful s _
      · split
        · next n _ ha => exact ok_lawful _ (.almClose n ha)
        · exact refuse_lawful s _
  · exact refuse_lawful s _

theorem takeAlmLevel_lawful : (takeAlmLevel body s).lawful s := by
  unfold takeAlmLevel
  split
  · exact adjusted_lawful _ _ (.almLevel _)
  · exact refuse_lawful s _

theorem takeAlmList_lawful : (takeAlmList body s).lawful s := by
  unfold takeAlmList
  split
  · exact ok_lawful _ .nothing
  · exact refuse_lawful s _

theorem takeContactSet_lawful : (takeContactSet body s).lawful s := by
  unfold takeContactSet
  split
  · split
    · exact refuse_lawful s _
    · split
      · exact refuse_lawful s _
      · exact adjusted_lawful _ _ (.contactSet _ _ _)
  · exact refuse_lawful s _

theorem takeCountRead_lawful : (takeCountRead body s).lawful s := by
  unfold takeCountRead
  split
  · split
    · exact refuse_lawful s _
    · refine ok_lawful _ ?_
      split
      · exact .zeroed _
      · exact .nothing
  · exact refuse_lawful s _

theorem takeCountClear_lawful : (takeCountClear body s).lawful s := by
  unfold takeCountClear
  split
  · split
    · exact ok_lawful _ .allZeroed
    · split
      · exact refuse_lawful s _
      · exact ok_lawful _ (.zeroed _)
  · exact refuse_lawful s _

theorem requestTable_lawful : ∀ e ∈ requestTable, e.1 ≠ 0x12 → e.1 ≠ 0x70 → (e.2 body s).lawful s := by
  simp only [requestTable, List.forall_mem_cons, List.not_mem_nil, false_imp_iff, implies_true, and_true]
  exact ⟨fun _ _ => takeIdentify_lawful s body, fun _ _ => takeReset_lawful s body,
    fun _ _ => takeHouseStatus_lawful s body, fun _ _ => takeLinkSet_lawful s body,
    fun _ _ => takeLinkStatus_lawful s body, fun h _ => absurd rfl h, fun _ _ => takeRouteGet_lawful s body,
    fun _ _ => takeProgOpen_lawful s body, fun _ _ => takeProgClose_lawful s body,
    fun _ _ => takeProgStatus_lawful s body, fun _ _ => takeProgGroup_lawful s body,
    fun _ _ => takeMoveSet_lawful s body, fun _ _ => takeMoveGo_lawful s body,
    fun _ _ => takeMoveDiscard_lawful s body, fun _ _ => takeMoveHold_lawful s body,
    fun _ _ => takeMoveFinish_lawful s body, fun _ _ => takeMoveResume_lawful s body,
    fun _ _ => takeMoveHoldall_lawful s body, fun _ _ => takeMoveStatus_lawful s body,
    fun _ _ => takeMoveReports_lawful s body, fun _ _ => takeCueSet_lawful s body,
    fun _ _ => takeCueFire_lawful s body, fun _ _ => takeSnapRead_lawful s body,
    fun _ _ => takeLoudSet_lawful s body, fun _ _ => takeLoudRead_lawful s body,
    fun _ _ => takeLoudRestart_lawful s body, fun _ _ => takeGainSet_lawful s body,
    fun _ _ => takeGainRead_lawful s body, fun _ _ => takeAlmSet_lawful s body, fun _ _ => takeAlmNext_lawful s body,
    fun _ _ => takeAlmLook_lawful s body, fun _ _ => takeAlmClose_lawful s body,
    fun _ _ => takeAlmLevel_lawful s body, fun _ _ => takeAlmList_lawful s body,
    fun _ _ => takeContactSet_lawful s body, fun _ h => absurd rfl h, fun _ _ => takeCountRead_lawful s body,
    fun _ _ => takeCountClear_lawful s body⟩

/-- A request of a code that is neither ROUTE.SET's nor COUNT.SET's. -/
theorem takeRequest_lawful {code : Byte} (hr : code ≠ 0x12) (hc : code ≠ 0x70) : (takeRequest code body s).lawful s := by
  unfold takeRequest
  split
  · next e he =>
    have hcode : e.1 = code := by simpa using List.find?_some he
    exact requestTable_lawful s body e (List.mem_of_find?_eq_some he) (hcode ▸ hr) (hcode ▸ hc)
  · exact refuse_lawful s _

theorem takeRouteSet_cases : (∃ st, takeRouteSet body s = refuse s st) ∨ ∃ n r, takeRouteSet body s = ⟨s.setRoute n r, .ok, []⟩ := by
  unfold takeRouteSet
  split
  · split
    · split
      · exact .inr ⟨_, _, rfl⟩
      · exact .inl ⟨_, rfl⟩
    · split
      · split
        · exact .inr ⟨_, _, rfl⟩
        · exact .inl ⟨_, rfl⟩
      · exact .inl ⟨_, rfl⟩
  · exact .inl ⟨_, rfl⟩

theorem takeCountSet_cases : (∃ st, takeCountSet body s = refuse s st)
    ∨ ∃ c x, takeCountSet body s = ⟨s.setCounter c x, .ok, counterRecord c x⟩ := by
  unfold takeCountSet
  split
  · split
    · split
      · exact .inl ⟨_, rfl⟩
      · split
        · exact .inl ⟨_, rfl⟩
        · exact .inr ⟨_, _, rfl⟩
    · exact .inl ⟨_, rfl⟩
  · exact .inl ⟨_, rfl⟩

variable {body s}

/-- A law that every effect keeps, a replaced route and a replaced counter, every request keeps. -/
theorem takeRequest_keep (effect : ∀ t, Effect s t → q t) (route : ∀ n r, q (s.setRoute n r))
    (counter : ∀ c x, q (s.setCounter c x)) (code : Byte) : q (takeRequest code body s).state := by
  by_cases hr : code = 0x12
  · subst hr
    rcases takeRouteSet_cases s body with ⟨st, h⟩ | ⟨n, r, h⟩ <;>
      rw [show takeRequest 0x12 body s = takeRouteSet body s from rfl, h]
    · exact effect _ .nothing
    · exact route n r
  · by_cases hc : code = 0x70
    · subst hc
      rcases takeCountSet_cases s body with ⟨st, h⟩ | ⟨c, x, h⟩ <;>
        rw [show takeRequest 0x70 body s = takeCountSet body s from rfl, h]
      · exact effect _ .nothing
      · exact counter c x
    · rcases takeRequest_lawful s body hr hc with ⟨st, h⟩ | ⟨-, h⟩
      · rw [h]; exact effect _ .nothing
      · exact effect _ h

end Sys2Proof.Machine
end

