-- ==== Sys2Proof/Proofs/Memory.lean ====
section
/-! PROOFS. Delay memory keeps its canonical form (log entry 8): only page clearing and the ring writes of a house sample reach
it, and a ring of an extent within memory lies within memory (R49, R55). -/

namespace Sys2Proof.Machine

variable {s t : State}

theorem memSafe_reads : Reads [.mem] State.memSafe := fun s t h => by
  have : s.mem = t.mem := h .mem (by simp)
  simp [State.memSafe, this]

/-- No programme's pages lie outside memory, so that a house sample does not stop (R49). -/
def State.insideMemory (s : State) : Prop := ∀ p, (s.prog p).life.extentInside = true

theorem ringAddr_lt {h : Held} {w k : Nat} (hi : (Life.live h w).extentInside = true) (hk : k < h.lanes.length) (j : Nat) :
    ringAddr h k (j % h.rl) < Config.memWords := by
  simp only [Life.extentInside, Bool.and_eq_true, decide_eq_true_eq, Config.pages, Config.pageWords] at hi
  obtain ⟨⟨⟨hend, hpos⟩, hdvd⟩, hfit⟩ := hi
  have hj := Nat.mod_lt j hpos
  have hrl : h.rl = h.rl / 512 * 512 := by omega
  have hk1 : (k + 1) * (h.rl / 512) ≤ h.extent.len := (Nat.mul_le_mul_right _ hk).trans hfit
  have hk2 : (k + 1) * (h.rl / 512) = k * (h.rl / 512) + h.rl / 512 := Nat.succ_mul _ _
  simp only [ringAddr, Config.pageWords, Config.memWords]
  omega

theorem clearStep_memSafe (p : Fin 8) (h : s.memSafe) : (s.clearStep p).memSafe := by
  have clear (k : Nat) : memWf (clearPage s.mem k) = true := memWf_clearPage k h
  unfold State.clearStep
  split
  · split
    · exact h
    · dsimp only
      split
      · exact clear _
      · exact clear _
  · exact h
  · exact h

theorem insideMemory_of_life (h : ∀ p, (t.prog p).life = (s.prog p).life) (hs : s.insideMemory) : t.insideMemory :=
  fun p => by rw [h p]; exact hs p

theorem moveStep_life (s : State) (p k : Fin 8) : ((s.moveStep p).prog k).life = (s.prog k).life :=
  (moveStep_sameButMoves s p).units.life k

theorem gainStep_life (s : State) (p k : Fin 8) (w : Nat) : ((s.gainStep p w).prog k).life = (s.prog k).life :=
  (gainStep_sameButMeters s p w).units.life k

/-- The condition of `programmeSample_keep` on lives. -/
theorem live_steps (p : Fin 8) (s : State) (h : Held) (w : Nat) (hl : (s.prog p).life = .live h w) :
    ((s.moveStep p).prog p).life = .live h w ∧ ∀ w', ((s.gainStep p w').prog p).life = .live h w :=
  ⟨(moveStep_life s p p).trans hl, fun w' => (gainStep_life s p p w').trans hl⟩

/-- A house sample's share at one programme keeps memory canonical and every extent where it is. -/
theorem programmeSample_memSafe (ins : Vector LaneIn 32) (acc : State × Vector Slot 32) (p : Fin 8)
    (h : acc.1.memSafe ∧ acc.1.insideMemory) :
    (programmeSample ins acc p).1.memSafe ∧ (programmeSample ins acc p).1.insideMemory := by
  refine programmeSample_keep (q := fun s => s.memSafe ∧ s.insideMemory) (fun s hs => ?_) (fun w s hs => ?_) ?_
    (live_steps p) h
  · exact ⟨memSafe_reads.keep (moveStep_sameBut s p) (by decide) hs.1, insideMemory_of_life (moveStep_life s p) hs.2⟩
  · exact ⟨memSafe_reads.keep (gainStep_sameBut s p w) (by decide) hs.1,
      insideMemory_of_life (fun k => gainStep_life s p k w) hs.2⟩
  · intro h w clip s hl hs
    have hp := hs.2 p
    rw [hl] at hp
    refine ⟨memWf_writeRings ins h w s.mem hs.1 (fun k hk => ringAddr_lt hp hk w), fun k => ?_⟩
    by_cases hk : k = p
    · subst hk; rw [State.prog_setProg]; exact hp
    · rw [State.prog_setProg_ne _ hk]; exact hs.2 k

theorem takeHouseSample_memSafe (hb : s.blockEndDue = false) (hi : s.insideMemory) (frm c0 c1 : Bool) (h : s.memSafe) :
    (s.takeHouseSample frm c0 c1).memSafe :=
  takeHouseSample_keep (q := fun s => s.memSafe ∧ s.insideMemory) hb
    (fun _ hs => hs)
    (fun l s hs => ⟨memSafe_reads.keep (readConverter_sameBut s l) (by decide) hs.1,
      insideMemory_of_life (fun p => by rw [State.prog_congr (readConverter_sameBut s l .progs (by decide))]) hs.2⟩)
    programmeSample_memSafe (fun _ _ hs => hs.1) (fun p _ => clearStep_memSafe p)
    (fun v s => memSafe_reads.keep (sampleFrm_sameBut s v) (by decide))
    (fun s => memSafe_reads.keep (absenceTest_sameBut s) (by decide))
    (fun a b s => memSafe_reads.keep (sampleCues_sameBut s a b) (by decide)) (fun _ _ hs => hs) ⟨h, hi⟩ frm c0 c1

theorem takeBlockEnd_memSafe (h : s.memSafe) : s.takeBlockEnd.memSafe :=
  takeBlockEnd_keep (q := State.memSafe) (fun _ hs => hs) (fun c s => memSafe_reads.keep (contactStep_sameBut s c) (by decide))
    (fun l s => memSafe_reads.keep (linkBlockEnd_sameBut s l) (by decide))
    (fun e k s _ => memSafe_reads.keep (count_sameBut s e none k) (by decide))
    (fun m p s => memSafe_reads.keep (programmeBlockEnd_sameBut m p s) (by decide))
    (fun s => memSafe_reads.keep (resetFeeds_sameBut s) (by decide))
    (fun p s => memSafe_reads.keep (cueWaitStep_sameBut s p) (by decide))
    (fun n s _ => memSafe_reads.keep (timerStep_sameBut s n) (by decide)) (fun _ _ hs => hs) h

theorem share_memSafe {f : State → State} (hf : SampleShare s f) (h : s.memSafe) : (s.onSample f).memSafe := by
  refine onSample_keep memSafe_reads (by decide) (fun hs => ?_) h
  cases hf with
  | move p => exact memSafe_reads.keep (moveStep_sameBut _ p) (by decide) hs
  | gain p w => exact memSafe_reads.keep (gainStep_sameBut _ p w) (by decide) hs
  | absent => exact memSafe_reads.keep (becomeAbsent_sameBut _) (by decide) hs
  | clear p _ => exact clearStep_memSafe p hs

theorem memSafe_kept : Kept State.memSafe where
  outside := memSafe_reads.mono (by decide)
  reset _ h := h
  request code body s := memSafe_reads.keep (takeRequest_within s body code) (by decide)
  arrive l f ok s := memSafe_reads.keep (arrive_sameBut s l f ok) (by decide)
  discard s := memSafe_reads.keep (sameBut_trans (latch_sameBut s _) (count_sameBut _ _ _ _)) (by decide)
  blockEnd _ := takeBlockEnd_memSafe
  sample s frm c0 c1 hb he := takeHouseSample_memSafe hb ((extentOutside_eq_none_iff s).mp he) frm c0 c1
  share _ _ := share_memSafe
  wait p s := memSafe_reads.keep (cueWaitStep_sameBut s p) (by decide)
  timer n s _ := memSafe_reads.keep (timerStep_sameBut s n) (by decide)
  contact c s := memSafe_reads.keep (contactStep_sameBut s c) (by decide)

/-- Settles O27: the ring writes of a house sample stay within memory because it stops where an extent does not (log entry 9). -/
theorem stepsKeepDelayMemoryCanonical : Obligations.StepsKeepDelayMemoryCanonical := by
  unfold Obligations.StepsKeepDelayMemoryCanonical
  intro s t hs h
  exact memSafe_kept.step hs h

end Sys2Proof.Machine
end

