-- ==== Sys2Proof/Proofs/EventsSent.lean ====
section
/-! PROOFS. The events sent between two states: what a list of them leaves of each source and each counter, and that each raise
counts one ALARM_RAISE and each crossing of half range raises COUNTER once (R152, R153, R175, R176). -/

namespace Sys2Proof.Machine

/-! ### Index by index -/

theorem toList_eq_map_finRange {α : Type} {n : Nat} (v : Vector α n) : v.toList = (List.finRange n).map (fun i => v[i]) := by
  apply List.ext_getElem <;> simp

theorem countP_eq_add {α : Type} {p q r : α → Bool} (h : ∀ x, (p x).toNat = (q x).toNat + (r x).toNat) (xs : List α) :
    xs.countP p = xs.countP q + xs.countP r := by
  induction xs with
  | nil => rfl
  | cons a xs ih =>
    have ha := h a
    simp only [List.countP_cons, ih]
    cases hp : p a <;> cases hq : q a <;> cases hr : r a <;> simp [hp, hq, hr] at ha ⊢ <;> omega

theorem repeat_add {α : Type} (f : α → α) (m n : Nat) (a : α) : Nat.repeat f (m + n) a = Nat.repeat f n (Nat.repeat f m a) := by
  induction n with
  | zero => rfl
  | succ n ih => exact congrArg f ih

/-! ### Counters under offers -/

theorem Counter.offer_zeroed (x : Counter) (e : CountEvent) (o : Option (Fin 8)) (k : Nat) : (x.offer e o k).zeroed = x.zeroed := by
  unfold Counter.offer
  split <;> rfl

theorem Counter.offer_half (x : Counter) (e : CountEvent) (o : Option (Fin 8)) (k : Nat) (h : x.half = true) :
    (x.offer e o k).half = true := by
  unfold Counter.offer
  split
  · simp [h]
  · exact h

/-- The counters keep their settings, and no half flag is cleared. -/
structure BankGrows (s t : State) : Prop where
  settings : ∀ c, (t.counter c).zeroed = (s.counter c).zeroed
  half : ∀ c, (s.counter c).half = true → (t.counter c).half = true

section
variable {s t u : State}

theorem BankGrows.refl (s : State) : BankGrows s s := ⟨fun _ => rfl, fun _ h => h⟩

theorem BankGrows.trans (h : BankGrows s t) (k : BankGrows t u) : BankGrows s u :=
  ⟨fun c => (k.settings c).trans (h.settings c), fun c hc => k.half c (h.half c hc)⟩

theorem bankGrows_of_counters (h : t.counters = s.counters) : BankGrows s t :=
  ⟨fun c => by rw [State.counter_congr h], fun c hc => by rw [State.counter_congr h]; exact hc⟩

theorem BankGrows.event (h : BankGrows s t) (c : Fin 8) : (t.counter c).event = (s.counter c).event :=
  show (t.counter c).zeroed.event = (s.counter c).zeroed.event from congrArg _ (h.settings c)

theorem BankGrows.alarmEnable (h : BankGrows s t) (c : Fin 8) : (t.counter c).alarmEnable = (s.counter c).alarmEnable :=
  show (t.counter c).zeroed.alarmEnable = (s.counter c).zeroed.alarmEnable from congrArg _ (h.settings c)

theorem offerEvent_bankGrows (s : State) (e : CountEvent) (o : Option (Fin 8)) (k : Nat) : BankGrows s (s.offerEvent e o k) :=
  ⟨fun c => by rw [offerEvent_counter, Counter.offer_zeroed], fun c hc => by rw [offerEvent_counter]; exact Counter.offer_half _ e o k hc⟩

theorem crossings_of_counters (h : t.counters = s.counters) : s.crossings t = 0 := by
  unfold State.crossings
  rw [List.countP_eq_zero]
  intro c _
  rw [State.counter_congr h]
  cases (s.counter c).half <;> simp

/-- Crossings of half range add up. -/
theorem crossings_trans (h : BankGrows s t) (k : BankGrows t u) : s.crossings u = s.crossings t + t.crossings u := by
  refine countP_eq_add (fun c => ?_) _
  have h1 := h.half c
  have k1 := k.half c
  rw [k.alarmEnable c, h.alarmEnable c]
  cases (s.counter c).alarmEnable <;> cases hs : (s.counter c).half <;> cases ht : (t.counter c).half <;>
    cases hu : (u.counter c).half <;> simp_all

theorem crossings_congr_right (h : u.counters = t.counters) : s.crossings u = s.crossings t := by
  simp only [State.crossings, State.counter_congr h]

/-- A counter sends COUNTER events exactly where its half flag is set by the offer (R176). -/
theorem crossings_offerEvent (s : State) (e : CountEvent) (o : Option (Fin 8)) (k : Nat) :
    s.crossings (s.offerEvent e o k) = s.counterAlarms e o k := by
  unfold State.crossings State.counterAlarms
  rw [toList_eq_map_finRange, List.countP_map]
  congr 1
  funext c
  rw [offerEvent_counter]
  show _ = Counter.alarms e o k (s.counter c)
  unfold Counter.alarms Counter.offer
  cases hm : (s.counter c).matchesEvent e o
  · cases hh : (s.counter c).half <;> simp [hh]
  · cases hh : (s.counter c).half <;> simp [Counter.crosses, hh, Bool.and_comm]

/-- The counters that can still send a COUNTER event. -/
def State.uncrossed (s : State) : Nat := (List.finRange 8).countP (fun c => (s.counter c).alarmEnable && !(s.counter c).half)

theorem uncrossed_le (s : State) : s.uncrossed ≤ 8 := by
  have := List.countP_le_length (l := List.finRange 8) (p := fun c => (s.counter c).alarmEnable && !(s.counter c).half)
  simpa [State.uncrossed] using this

theorem uncrossed_eq (h : BankGrows s t) : s.uncrossed = s.crossings t + t.uncrossed := by
  refine countP_eq_add (fun c => ?_) _
  have h1 := h.half c
  rw [h.alarmEnable c]
  cases (s.counter c).alarmEnable <;> cases hs : (s.counter c).half <;> cases ht : (t.counter c).half <;> simp_all

/-! ### Raises -/

/-- A source after `k` latched events at one stamp (R152, R153). -/
def Source.latchedTimes (hsc : Stamp) (k : Nat) (r : Source) : Source := Nat.repeat (fun x => (x.raised hsc).latched) k r

theorem Source.latchedTimes_add (hsc : Stamp) (j k : Nat) (r : Source) :
    r.latchedTimes hsc (j + k) = (r.latchedTimes hsc j).latchedTimes hsc k := repeat_add _ j k r

theorem Source.latchedTimes_accepted (hsc : Stamp) (k : Nat) (r : Source) : (r.latchedTimes hsc k).accepted = r.accepted := by
  induction k with
  | zero => rfl
  | succ k ih =>
    rw [← ih]
    show (((r.latchedTimes hsc k).raised hsc).latched).accepted = _
    unfold Source.latched
    split <;> rfl

theorem satInc_255 (n : Nat) : satInc 255 n = min 255 (n + 1) := by unfold satInc; split <;> omega

/-- What `k` latched events, at least one, leave of a source (R152, R153). -/
theorem latchedTimes_facts (hsc : Stamp) {k : Nat} (hk : 0 < k) (r : Source) :
    (r.latchedTimes hsc k).raiseCount = min 255 (r.raiseCount + k) ∧ (r.latchedTimes hsc k).lastRaise = some hsc
      ∧ (r.accepted = false → (r.latchedTimes hsc k).pending = true)
      ∧ (r.accepted = true → (r.latchedTimes hsc k).again = true) := by
  obtain ⟨j, rfl⟩ : ∃ j, k = j + 1 := ⟨k - 1, by omega⟩
  have hstep : r.latchedTimes hsc (j + 1) = ((r.latchedTimes hsc j).raised hsc).latched := rfl
  have hacc := Source.latchedTimes_accepted hsc j r
  have hcount : min 255 ((r.latchedTimes hsc j).raiseCount + 1) = min 255 (r.raiseCount + (j + 1)) := by
    clear hstep hacc hk
    induction j with
    | zero => rfl
    | succ j ih =>
      have : (r.latchedTimes hsc (j + 1)).raiseCount = satInc 255 (r.latchedTimes hsc j).raiseCount := by
        show (((r.latchedTimes hsc j).raised hsc).latched).raiseCount = _
        unfold Source.latched
        split <;> rfl
      rw [this, satInc_255]
      omega
  rw [hstep, ← hcount, ← satInc_255]
  unfold Source.latched
  split
  · next h => exact ⟨rfl, rfl, fun h0 => absurd (hacc.symm.trans h) (by rw [h0]; decide), fun _ => rfl⟩
  · next h => exact ⟨rfl, rfl, fun _ => rfl, fun h1 => absurd (hacc.trans h1) h⟩

theorem latchedIn_of_source {n : Fin 59} {k : Nat} {hsc : Stamp} (hk : 0 < k)
    (h : t.source n = (s.source n).latchedTimes hsc k) : s.latchedIn n k hsc t := by
  rw [State.latchedIn, h]; exact latchedTimes_facts hsc hk _

/-- Between the two states each counter of ALARM_RAISE has been offered `own` events and one for each crossing, COUNTER has been
latched `counter` times and once for each crossing, and nothing else has reached the two (R153, R176). -/
structure Raised (own counter : Nat) (s t : State) : Prop where
  bank : BankGrows s t
  offered : ∀ c, (s.counter c).event = some .alarmRaise →
    t.counter c = Nat.repeat (Counter.offer .alarmRaise none 1) (own + s.crossings t) (s.counter c)
  latched : t.source counterSource = (s.source counterSource).latchedTimes s.ref.hsc (counter + s.crossings t)
  hsc : t.ref.hsc = s.ref.hsc

theorem Raised.trans {a b i j : Nat} (h : Raised a i s t) (k : Raised b j t u) : Raised (a + b) (i + j) s u where
  bank := h.bank.trans k.bank
  offered c hc := by
    rw [crossings_trans h.bank k.bank, k.offered c ((h.bank.event c).trans hc), h.offered c hc, ← repeat_add]
    congr 1; omega
  latched := by
    rw [crossings_trans h.bank k.bank, k.latched, h.latched, h.hsc, ← Source.latchedTimes_add]
    congr 1; omega
  hsc := k.hsc.trans h.hsc

theorem Raised.refl (s : State) : Raised 0 0 s s :=
  have h0 := crossings_of_counters (s := s) (t := s) rfl
  ⟨BankGrows.refl s, fun _ _ => by rw [h0]; rfl, by rw [h0]; rfl, rfl⟩

/-- What leaves the counters, COUNTER and the clock alone raises nothing. -/
theorem Raised.of_same (hc : t.counters = s.counters) (hs : t.source counterSource = s.source counterSource)
    (hh : t.ref.hsc = s.ref.hsc) : Raised 0 0 s t :=
  have h0 := crossings_of_counters hc
  ⟨bankGrows_of_counters hc, fun c _ => by rw [h0, State.counter_congr hc]; rfl, by rw [h0, hs]; rfl, hh⟩

theorem Raised.raisesCounted {own i : Nat} (h : Raised own i s t) : s.raisesCounted own t := h.offered

theorem Raised.crossingsLatched {own : Nat} (h : Raised own 0 s t) : s.crossingsLatched t := by
  have hl := h.latched
  rw [Nat.zero_add] at hl
  refine ⟨fun h0 => ?_, fun hp => latchedIn_of_source hp hl⟩
  rw [hl, h0]; rfl

@[simp] theorem latchCounter_ref (k : Nat) (s : State) : (State.latchCounter k s).ref = s.ref := by
  exact (latchCounter_sameBut s k .ref (by decide)).symm

theorem latchCounter_source (k : Nat) (s : State) :
    (State.latchCounter k s).source counterSource = (s.source counterSource).latchedTimes s.ref.hsc k := by
  induction k generalizing s with
  | zero => rfl
  | succ k ih =>
    rw [State.latchCounter, ih, latchFlags_source, Nat.add_comm k 1, Source.latchedTimes_add]
    rfl

/-- The share of one counting event before the ALARM_RAISE events it causes: the offer, and a COUNTER latch for each crossing. -/
def State.offerLatch (s : State) (e : CountEvent) (o : Option (Fin 8)) (k : Nat) : State :=
  State.latchCounter (s.counterAlarms e o k) (s.offerEvent e o k)

theorem offerLatch_counter (s : State) (e : CountEvent) (o : Option (Fin 8)) (k : Nat) (c : Fin 8) :
    (s.offerLatch e o k).counter c = (s.counter c).offer e o k := by
  rw [State.offerLatch, State.counter_congr (latchCounter_counters _ _), offerEvent_counter]

theorem offerLatch_crossings (s : State) (e : CountEvent) (o : Option (Fin 8)) (k : Nat) :
    s.crossings (s.offerLatch e o k) = s.counterAlarms e o k := by
  rw [State.offerLatch, crossings_congr_right (latchCounter_counters _ _), crossings_offerEvent]

theorem offerLatch_bankGrows (s : State) (e : CountEvent) (o : Option (Fin 8)) (k : Nat) : BankGrows s (s.offerLatch e o k) :=
  (offerEvent_bankGrows s e o k).trans (bankGrows_of_counters (latchCounter_counters _ _))

theorem offerLatch_source (s : State) (e : CountEvent) (o : Option (Fin 8)) (k : Nat) :
    (s.offerLatch e o k).source counterSource
      = (s.source counterSource).latchedTimes s.ref.hsc (s.crossings (s.offerLatch e o k)) := by
  rw [offerLatch_crossings, State.offerLatch, latchCounter_source]; rfl

@[simp] theorem offerLatch_ref (s : State) (e : CountEvent) (o : Option (Fin 8)) (k : Nat) : (s.offerLatch e o k).ref = s.ref := by
  rw [State.offerLatch, latchCounter_ref]; rfl

/-- With fuel for the raises at hand and every crossing that can still come, `k` raises and all that follow of them are
counted. -/
theorem countRaises_offered {fuel k : Nat} (s : State) (h : k + s.uncrossed ≤ fuel) :
    BankGrows s (countRaises fuel k s)
    ∧ (∀ c, (s.counter c).event = some .alarmRaise → (countRaises fuel k s).counter c
        = Nat.repeat (Counter.offer .alarmRaise none 1) (k + s.crossings (countRaises fuel k s)) (s.counter c))
    ∧ (countRaises fuel k s).source counterSource
        = (s.source counterSource).latchedTimes s.ref.hsc (s.crossings (countRaises fuel k s)) := by
  induction fuel generalizing k s with
  | zero =>
    obtain rfl : k = 0 := by omega
    exact ⟨(Raised.refl s).bank, (Raised.refl s).offered, by
      have h0 := (Raised.refl s).latched; rw [Nat.zero_add] at h0; exact h0⟩
  | succ fuel ih =>
    cases k with
    | zero => exact ⟨(Raised.refl s).bank, (Raised.refl s).offered, by
      have h0 := (Raised.refl s).latched; rw [Nat.zero_add] at h0; exact h0⟩
    | succ k =>
      have hb := offerLatch_bankGrows s .alarmRaise none 1
      have hu := uncrossed_eq hb
      have hj := offerLatch_crossings s .alarmRaise none 1
      obtain ⟨ib, io, il⟩ := ih (k := k + s.counterAlarms .alarmRaise none 1) (s.offerLatch .alarmRaise none 1) (by omega)
      have he : countRaises (fuel + 1) (k + 1) s
          = countRaises fuel (k + s.counterAlarms .alarmRaise none 1) (s.offerLatch .alarmRaise none 1) := rfl
      rw [he]
      refine ⟨hb.trans ib, fun c hc => ?_, ?_⟩
      · rw [io c ((hb.event c).trans hc), crossings_trans hb ib, hj, offerLatch_counter,
          show Counter.offer .alarmRaise none 1 (s.counter c) = Nat.repeat (Counter.offer .alarmRaise none 1) 1 (s.counter c) from rfl,
          ← repeat_add]
        congr 1; omega
      · rw [il, crossings_trans hb ib, offerLatch_source, offerLatch_ref, ← Source.latchedTimes_add]

theorem countRaises_raised {k : Nat} (s : State) (h : k + s.uncrossed ≤ 9) : Raised k 0 s (countRaises 9 k s) :=
  have ⟨hb, ho, hl⟩ := countRaises_offered s h
  ⟨hb, ho, by rw [Nat.zero_add]; exact hl, by rw [← countRaises_sameBut s 9 k .ref (by decide)]⟩

/-- A counting event other than ALARM_RAISE is no raise of its own (R175, R176). -/
theorem count_raised (s : State) {e : CountEvent} (he : e ≠ .alarmRaise) (o : Option (Fin 8)) (k : Nat) :
    Raised 0 0 s (s.count e o k) := by
  have hb := offerLatch_bankGrows s e o k
  have hj := offerLatch_crossings s e o k
  have hr := countRaises_raised (k := s.counterAlarms e o k) (s.offerLatch e o k) (by
    have := uncrossed_eq hb; have := uncrossed_le s; omega)
  have hcount : s.count e o k = countRaises 9 (s.counterAlarms e o k) (s.offerLatch e o k) := rfl
  rw [hcount]
  refine ⟨hb.trans hr.bank, fun c hc => ?_, ?_, by rw [hr.hsc, offerLatch_ref]⟩
  · rw [hr.offered c ((hb.event c).trans hc), crossings_trans hb hr.bank, hj, offerLatch_counter,
      Counter.offer_of_ne (by rw [hc]; simpa using he.symm), Nat.zero_add]
  · rw [hr.latched, crossings_trans hb hr.bank, offerLatch_source, offerLatch_ref, ← Source.latchedTimes_add]
    congr 1; omega

/-- An ALARM_RAISE counting event counts one raise. -/
theorem count_alarmRaise_raised (s : State) : Raised 1 0 s (s.count .alarmRaise none 1) := by
  have hb := offerLatch_bankGrows s .alarmRaise none 1
  have hj := offerLatch_crossings s .alarmRaise none 1
  have hr := countRaises_raised (k := s.counterAlarms .alarmRaise none 1) (s.offerLatch .alarmRaise none 1) (by
    have := uncrossed_eq hb; have := uncrossed_le s; omega)
  have hcount : s.count .alarmRaise none 1
      = countRaises 9 (s.counterAlarms .alarmRaise none 1) (s.offerLatch .alarmRaise none 1) := rfl
  rw [hcount]
  refine ⟨hb.trans hr.bank, fun c hc => ?_, ?_, by rw [hr.hsc, offerLatch_ref]⟩
  · rw [hr.offered c ((hb.event c).trans hc), crossings_trans hb hr.bank, hj, offerLatch_counter,
      show Counter.offer .alarmRaise none 1 (s.counter c) = Nat.repeat (Counter.offer .alarmRaise none 1) 1 (s.counter c) from rfl,
      ← repeat_add]
  · rw [hr.latched, crossings_trans hb hr.bank, offerLatch_source, offerLatch_ref, ← Source.latchedTimes_add]
    congr 1; omega

/-- A source replaced and the raise it stands for counted: one raise, and none of COUNTER where the source is another. -/
theorem setSource_raise_raised (s : State) {n : Fin 59} (hn : n ≠ counterSource) (x : Source) :
    Raised 1 0 s (countRaises 9 1 (s.setSource n x)) := by
  have h0 : Raised 0 0 s (s.setSource n x) := .of_same rfl (State.source_setSource_ne s hn.symm x) rfl
  simpa using h0.trans (countRaises_raised (k := 1) (s.setSource n x) (by
    have := uncrossed_le (s.setSource n x); omega))

theorem setSource_raised (s : State) {n : Fin 59} (hn : n ≠ counterSource) (x : Source) : Raised 0 0 s (s.setSource n x) :=
  .of_same rfl (State.source_setSource_ne s hn.symm x) rfl

theorem latch_raised (s : State) {n : Fin 59} (hn : n ≠ counterSource) : Raised 1 0 s (s.latch n) :=
  setSource_raise_raised s hn _

theorem latch_counter_raised (s : State) : Raised 1 1 s (s.latch counterSource) := by
  have h0 : Raised 0 1 s (s.latchFlags counterSource) := by
    have hx := crossings_of_counters (s := s) (t := s.latchFlags counterSource) rfl
    exact ⟨bankGrows_of_counters rfl, fun c _ => by rw [hx]; rfl, by rw [hx, latchFlags_source]; rfl, rfl⟩
  exact h0.trans (countRaises_raised (k := 1) (s.latchFlags counterSource) (by
    have := uncrossed_le (s.latchFlags counterSource); omega))

/-- A qualification of a level source is one raise (R149). -/
theorem qualify_raised (s : State) {n : Fin 59} (hn : n ≠ counterSource) : Raised 1 0 s (s.qualify n) :=
  setSource_raise_raised s hn _

/-! ### Level sources -/

theorem report_raised (s : State) {n : Fin 59} (hn : n ≠ counterSource) (v : Bool) :
    Raised (if (s.source n).qualified = false ∧ ((s.report n v).source n).qualified = true then 1 else 0) 0 s (s.report n v) := by
  unfold State.report
  dsimp only
  split
  · rw [if_neg (by simp)]; exact .refl s
  · split
    · split
      · next h =>
        have hq : (s.source n).qualified = false := by simp at h; exact h.1
        rw [if_pos ⟨hq, by rw [qualify_source _ hn]⟩]
        exact (setSource_raised s hn _).trans (qualify_raised _ hn)
      · rw [if_neg (by simp)]; exact setSource_raised s hn _
    · split
      · next h =>
        rw [if_neg (by simp)]
        exact (setSource_raised s hn _).trans (setSource_raised _ hn _)
      · rw [if_neg (by simp)]; exact setSource_raised s hn _

theorem timerStep_raised (s : State) {n : Fin 59} (hn : n ≠ counterSource) :
    Raised (if (s.source n).qualified = false ∧ ((s.timerStep n).source n).qualified = true then 1 else 0) 0 s (s.timerStep n) := by
  unfold State.timerStep
  dsimp only
  split
  · rw [if_neg (by simp)]; exact .refl s
  · split
    · next h =>
      have hq : (s.source n).qualified = false := by simp [Source.raiseOver] at h; exact h.1.2
      rw [if_pos ⟨hq, by rw [qualify_source s hn]⟩]
      exact qualify_raised s hn
    · split
      · rw [if_neg (by simp)]; exact setSource_raised s hn _
      · rw [if_neg (by simp)]; exact setSource_raised s hn _

theorem storeSettings_raised (s : State) {n : Fin 59} (hn : n ≠ counterSource) (x : Source) (hx : x.qualified = (s.source n).qualified) :
    Raised (if (s.source n).qualified = false ∧ ((s.storeSettings n x).source n).qualified = true then 1 else 0) 0 s
      (s.storeSettings n x) := by
  unfold State.storeSettings
  split
  · next h =>
    have hq : (s.source n).qualified = false := by simp [Source.raiseOver] at h; rw [← hx]; exact h.2.1.2
    rw [if_pos ⟨hq, by rw [countRaises_source_ne _ hn, State.source_setSource]; rfl⟩]
    exact setSource_raise_raised s hn _
  · split
    · rw [if_neg (by simp [Source.unqualified])]; exact setSource_raised s hn _
    · rw [if_neg (by simp [hx])]; exact setSource_raised s hn _

theorem timerStep_counter {c : Fin 8} (h : (s.counter c).event ≠ some .alarmRaise) (n : Fin 59) :
    (s.timerStep n).counter c = s.counter c := by
  unfold State.timerStep
  dsimp only
  split
  · rfl
  · split
    · exact qualify_counter s h n
    · split <;> rfl

theorem storeSettings_counter {c : Fin 8} (h : (s.counter c).event ≠ some .alarmRaise) (n : Fin 59) (x : Source) :
    (s.storeSettings n x).counter c = s.counter c := by
  unfold State.storeSettings
  split
  · exact countRaises_counter (s.setSource n _) h _ _
  · split <;> rfl

theorem otherCounters_of_same (es : List CountEvent) (h : ∀ c, (s.counter c).event ≠ some .alarmRaise → t.counter c = s.counter c) :
    s.otherCounters es t := fun c hc => h c (fun h0 => (hc _ h0).2 rfl)

end

/-! ### A counting event at one counter (R175, R176) -/

theorem matchesEvent_iff (c : Counter) (e : CountEvent) (o : Option (Fin 8)) :
    c.matchesEvent e o = true ↔ c.event = some e ∧ (c.qualifier = 0 ∨ ∃ k, o = some k ∧ c.qualifier.getLsbD k = true) := by
  cases o <;> simp [Counter.matchesEvent]

theorem Counter.sum_eq (c : Counter) (k : Nat) : c.sum k = (match c.mode with
    | .wrap => (c.value.toNat + k) % 2 ^ 32
    | .saturate => min (c.value.toNat + k) (2 ^ 32 - 1)) := by
  unfold Counter.sum
  cases c.mode <;> rfl

theorem Counter.sum_lt (c : Counter) (k : Nat) : c.sum k < 2 ^ 32 := by
  rw [Counter.sum_eq]
  cases c.mode <;> dsimp only <;> omega

theorem Counter.crosses_iff (c : Counter) {k : Nat} (hk : k ≤ 38400) : c.crosses k = true ↔
    c.half = false ∧ c.value.toNat < 2 ^ 31 ∧ 2 ^ 31 ≤ c.value.toNat + k := by
  have hsum : c.value.toNat < 2147483648 → c.sum k = c.value.toNat + k := fun hv => by
    rw [Counter.sum_eq]
    cases c.mode <;> dsimp only
    · exact Nat.mod_eq_of_lt (by omega)
    · exact Nat.min_eq_left (by omega)
  simp only [Counter.crosses, Bool.and_eq_true, Bool.not_eq_true', decide_eq_true_eq]
  constructor
  · rintro ⟨⟨hh, hv⟩, hs⟩
    rw [hsum hv] at hs
    exact ⟨hh, hv, hs⟩
  · rintro ⟨hh, hv, hs⟩
    exact ⟨⟨hh, hv⟩, by rw [hsum hv]; exact hs⟩

/-- A counter that matches an event takes the amount, and its half flag the crossing (R175, R176). -/
theorem Counter.offer_of_match {c : Counter} {e : CountEvent} {o : Option (Fin 8)} {k : Nat} (h : c.matchesEvent e o = true) :
    ((c.offer e o k).value).toNat = c.sum k ∧ (c.offer e o k).half = (c.half || c.crosses k) := by
  unfold Counter.offer
  rw [if_pos h]
  exact ⟨by rw [BitVec.toNat_ofNat, Nat.mod_eq_of_lt (c.sum_lt k)], rfl⟩

theorem Counter.offer_of_not_match {c : Counter} {e : CountEvent} {o : Option (Fin 8)} {k : Nat} (h : c.matchesEvent e o = false) :
    c.offer e o k = c := by
  unfold Counter.offer
  rw [if_neg (by simp [h])]

theorem counterAlarms_eq_zero_iff (s : State) (e : CountEvent) (o : Option (Fin 8)) (k : Nat) :
    s.counterAlarms e o k = 0 ↔ ∀ c, Counter.alarms e o k (s.counter c) = false := by
  rw [State.counterAlarms, toList_eq_map_finRange, List.countP_map, List.countP_eq_zero]
  simp [State.counter]

/-- COUNTER takes one latched event for each crossing of a counting event, whatever the event (R176). -/
theorem count_crossings (s : State) (e : CountEvent) (o : Option (Fin 8)) (k : Nat) :
    s.counterAlarms e o k ≤ s.crossings (s.count e o k)
      ∧ (s.count e o k).source counterSource = (s.source counterSource).latchedTimes s.ref.hsc (s.crossings (s.count e o k)) := by
  have hb := offerLatch_bankGrows s e o k
  have hj := offerLatch_crossings s e o k
  have hr := countRaises_raised (k := s.counterAlarms e o k) (s.offerLatch e o k) (by
    have := uncrossed_eq hb; have := uncrossed_le s; omega)
  have hcount : s.count e o k = countRaises 9 (s.counterAlarms e o k) (s.offerLatch e o k) := rfl
  have hx := crossings_trans hb hr.bank
  rw [hcount]
  refine ⟨by omega, ?_⟩
  rw [hr.latched, hx, offerLatch_source, offerLatch_ref, ← Source.latchedTimes_add]
  congr 1; omega

theorem count_crossingsLatched (s : State) (e : CountEvent) (o : Option (Fin 8)) (k : Nat) : s.crossingsLatched (s.count e o k) :=
  have hl := (count_crossings s e o k).2
  ⟨fun h0 => by rw [hl, h0]; rfl, fun hp => latchedIn_of_source hp hl⟩

theorem latch_latchedIn (s : State) {n : Fin 59} (hn : n ≠ counterSource) : s.latchedIn n 1 s.ref.hsc (s.latch n) :=
  latchedIn_of_source Nat.one_pos (latch_source s hn)

/-- Settles O57: a counting event at each counter by `Counter.offer`, and the raises that follow it by `Raised`. -/
theorem countingEventsReachTheCounters : Obligations.CountingEventsReachTheCounters := by
  intro s e owner amount hk
  have hcr := count_crossingsLatched s e owner amount
  refine ⟨fun c hc hit hhit => ?_, fun h0 => ?_, fun ⟨c, hc⟩ => ?_, fun n _ hn => count_source_ne s hn e owner amount,
    count_sameBut s e owner amount, hcr, fun he => (count_raised s he owner amount).raisesCounted,
    (count_alarmRaise_raised s).raisesCounted, (latch_counter_raised s).raisesCounted,
    latchedIn_of_source (by omega) (latch_counter_raised s).latched, fun n hn => ⟨⟨(latch_raised s hn).raisesCounted,
      latch_latchedIn s hn, (latch_raised s hn).crossingsLatched⟩, fun v x t ht hx => ?_⟩⟩
  · rw [hhit, ← matchesEvent_iff, count_counter s hc]
    refine ⟨fun h => Counter.offer_of_not_match (by simpa using h), fun h => ?_⟩
    obtain ⟨hv, hh⟩ := Counter.offer_of_match (k := amount) h
    refine ⟨hv.trans (Counter.sum_eq _ _), ?_⟩
    rw [hh, Bool.or_eq_true, Counter.crosses_iff _ hk]
    cases (s.counter c).half <;> simp
  · rw [State.count, (counterAlarms_eq_zero_iff s e owner amount).mpr h0]; rfl
  · have hpos : 0 < s.crossings (s.count e owner amount) :=
      Nat.lt_of_lt_of_le (Nat.pos_of_ne_zero (fun h0 => by
        rw [(counterAlarms_eq_zero_iff s e owner amount).mp h0 c] at hc; cases hc)) (count_crossings s e owner amount).1
    obtain ⟨_, hstamp, hpend, hagain⟩ := hcr.2 hpos
    exact ⟨hstamp, hpend, hagain⟩
  · simp only [List.mem_cons, List.not_mem_nil, or_false] at ht
    obtain rfl | rfl | rfl := ht
    · have h := report_raised s hn v
      exact ⟨h.raisesCounted, h.crossingsLatched, otherCounters_of_same _ (fun c hc => report_counter s hc n v)⟩
    · have h := timerStep_raised s hn
      exact ⟨h.raisesCounted, h.crossingsLatched, otherCounters_of_same _ (fun c hc => timerStep_counter hc n)⟩
    · have h := storeSettings_raised s hn x hx
      exact ⟨h.raisesCounted, h.crossingsLatched, otherCounters_of_same _ (fun c hc => storeSettings_counter hc n x)⟩

end Sys2Proof.Machine
end

