-- ==== Sys2Proof/Proofs/ControlPort.lean ====
section
/-! PROOFS. The control port (chapter 11): resets and start-up, the receiver byte by byte, the holding, and what a refused request
leaves. -/

namespace Sys2Proof.Machine

variable {s t : State}

/-! ### What a block end and a house sample never reach -/

/-- The parts that a block end reaches. -/
abbrev blockEndParts : List Part := [.links, .feeds, .progs, .ref, .groups, .ahead, .sources, .attn, .contacts, .counters]

/-- The parts that a house sample reaches. -/
abbrev houseParts : List Part := [.mem, .outPipe, .outLinks, .snaps] ++ blockEndParts

theorem takeBlockEnd_sameBut (s : State) : s.sameBut blockEndParts s.takeBlockEnd := by
  have step {ps : List Part} {t u : State} (h : t.sameBut ps u) (hp : ∀ q ∈ ps, q ∈ blockEndParts)
      (ht : s.sameBut blockEndParts t) : s.sameBut blockEndParts u := sameBut_trans ht (sameBut_mono h hp)
  exact takeBlockEnd_keep (q := fun t => s.sameBut blockEndParts t) (fun t => step (withRef_sameBut t _) (by decide))
    (fun c t => step (contactStep_sameBut t c) (by decide)) (fun l t => step (linkBlockEnd_sameBut t l) (by decide))
    (fun e k t _ => step (count_sameBut t e none k) (by decide))
    (fun m p t => step (programmeBlockEnd_sameBut m p t) (by decide)) (fun t => step (resetFeeds_sameBut t) (by decide))
    (fun p t => step (cueWaitStep_sameBut t p) (by decide)) (fun n t _ => step (timerStep_sameBut t n) (by decide))
    (fun a t => step (withAhead_sameBut t a) (by decide)) (sameBut_refl s _)

theorem programmeSample_sameBut (ins : Vector LaneIn 32) (acc : State × Vector Slot 32) (p : Fin 8)
    (h : s.sameBut houseParts acc.1) : s.sameBut houseParts (programmeSample ins acc p).1 := by
  have step {ps : List Part} {t u : State} (h : t.sameBut ps u) (hp : ∀ q ∈ ps, q ∈ houseParts)
      (ht : s.sameBut houseParts t) : s.sameBut houseParts u := sameBut_trans ht (sameBut_mono h hp)
  refine programmeSample_keep (q := fun t => s.sameBut houseParts t) (fun t => step (moveStep_sameBut t p) (by decide))
    (fun w t => step (gainStep_sameBut t p w) (by decide)) (fun h w clip t _ ht => ?_) (live_steps p) h
  refine sameBut_trans ht (sameBut_trans (t := { t with mem := writeRings ins h w t.mem }) (fun q hq => ?_)
    (sameBut_mono (setProg_sameBut _ p _) (by decide)))
  cases q <;> first | rfl | exact absurd (by decide) hq

theorem takeHouseSample_sameBut_of_not_due (h : s.blockEndDue = false) (frm c0 c1 : Bool) :
    s.sameBut houseParts (s.takeHouseSample frm c0 c1) := by
  have step {ps : List Part} {t u : State} (h : t.sameBut ps u) (hp : ∀ q ∈ ps, q ∈ houseParts)
      (ht : s.sameBut houseParts t) : s.sameBut houseParts u := sameBut_trans ht (sameBut_mono h hp)
  exact takeHouseSample_keep (q := fun t => s.sameBut houseParts t) h (fun t => step (withRef_sameBut t _) (by decide))
    (fun l t => step (readConverter_sameBut t l) (by decide)) programmeSample_sameBut
    (fun v t => step (pushOutputs_sameBut t v) (by decide)) (fun p t => step (clearStep_sameBut t p) (by decide))
    (fun v t => step (sampleFrm_sameBut t v) (by decide)) (fun t => step (absenceTest_sameBut t) (by decide))
    (fun a b t => step (sampleCues_sameBut t a b) (by decide)) (fun a t => step (withAhead_sameBut t a) (by decide))
    (sameBut_refl s _) frm c0 c1

theorem takeHouseSample_sameBut (s : State) (frm c0 c1 : Bool) : s.sameBut houseParts (s.takeHouseSample frm c0 c1) := by
  cases h : s.blockEndDue
  · exact takeHouseSample_sameBut_of_not_due h frm c0 c1
  · rw [takeHouseSample_of_due h]
    exact sameBut_trans (sameBut_mono (takeBlockEnd_sameBut s) (by decide))
      (takeHouseSample_sameBut_of_not_due (takeBlockEnd_blockEndDue s) frm c0 c1)

/-! ### Resets and start-up (section 11.6) -/

/-- Settles O1. -/
theorem stepRunsTheFrontCommand : Obligations.StepRunsTheFrontCommand :=
  ⟨fun _ _ => rfl, fun s h => by simp only [step, h]⟩

theorem resetInHand_of_holding {r : Request} (h : s.port.holding = [r]) :
    s.resetInHand = (r.code == 0x02 && r.body.isEmpty) := by simp only [State.resetInHand, h]

/-- Settles O3. -/
theorem resetsLoadEveryBlockAfterTheReply : Obligations.ResetsLoadEveryBlockAfterTheReply := by
  refine ⟨fun s => ⟨rfl, fun hr hh => ⟨?_, ?_⟩, fun h => ?_⟩, fun s tag hs => ⟨?_, fun b bs => ?_⟩⟩
  · simp only [exec, execResetTakesEffect, hr, hh, Bool.and_self, if_true]; rfl
  · have hn : s.port.reply.isNone = false := by rw [← Option.not_isSome, hr]; rfl
    simp only [exec, execReplySent, hn, hh, if_true, Bool.false_eq_true, if_false]; rfl
  · have hb : (s.port.reply.isSome && s.resetInHand) = false := by
      rcases h with h | h
      · rw [← Option.not_isNone, h]; rfl
      · rw [h, Bool.and_false]
    simp only [exec, execResetTakesEffect, hb, Bool.false_eq_true, if_false]
  · exact ⟨_, exec_ready rfl hs, rfl, rfl, rfl⟩
  · exact ⟨_, exec_ready rfl hs, rfl, by rw [resetInHand_of_holding rfl]; rfl⟩

theorem blockEndDue_of_startUp (h : s.startUp = true) : s.blockEndDue = false := by simp [State.blockEndDue, h]

theorem sampleDue_of_startUp (h : s.startUp = true) : s.sampleDue = false := by simp [State.sampleDue, h]

/-- Settles O4: each event of house time asks that a house sample or a block end be due, and neither is in start-up. -/
theorem startUpHoldsThePartStill : Obligations.StartUpHoldsThePartStill := by
  refine ⟨fun s => rfl, fun c s h h1 h2 h3 h4 h5 => ?_⟩
  have hb := blockEndDue_of_startUp h
  have hd := sampleDue_of_startUp h
  cases hr : requestOf c with
  | some r => rw [exec_request hr, State.offer, if_pos h]
  | none =>
    match c, hr with
    | .powerOnReset, _ => exact absurd rfl h1
    | .startUpEnd, _ => exact absurd rfl h2
    | .replySent, _ => exact absurd rfl h3
    | .resetTakesEffect, _ => exact absurd rfl h4
    | .frameArrival l f ok, _ => exact absurd rfl (h5 l f ok)
    | .houseSample frm c0 c1, _ => simp only [exec, execHouseSample, h, if_true]
    | .moveEnd p, _ => simp [exec, execMoveEnd, hd]
    | .appliedGainStep p, _ =>
      simp only [exec, execAppliedGainStep, hd, Bool.false_and, Bool.false_eq_true, if_false]
      split <;> rfl
    | .frameReferenceAbsent, _ => simp [exec, execFrameReferenceAbsent, hd]
    | .pageClearStep p, _ => simp [exec, execPageClearStep, hd]
    | .blockEnd, _ => simp [exec, execBlockEnd, hb]
    | .cueTimeout p, _ => simp [exec, execCueTimeout, hb]
    | .sourceQualifies n, _ => simp [exec, execSourceQualifies, State.sourceDue, hb]
    | .sourceLosesQualification n, _ => simp [exec, execSourceLosesQualification, State.sourceDue, hb]
    | .contactRelease k, _ => simp [exec, execContactRelease, hb]
    | .requestFrameDiscard cause, _ => simp [exec, execRequestFrameDiscard, h]
    | .interByteGap, _ => simp [exec, execInterByteGap, h]
    | .controlByte b, _ => simp [exec, execControlByte, h]

/-! ### The receiver (section 11.2) -/

theorem exec_controlByte (h : s.startUp = false) (b : Byte) : exec (.controlByte b) s = .next (s.takeByte b) := by
  simp [exec, execControlByte, h]

theorem exec_discard (h : s.startUp = false) {cause : DiscardCause} (hc : s.discards cause = true) :
    exec (.requestFrameDiscard cause) s = .next s.discardFrame := by simp [exec, execRequestFrameDiscard, h, hc]

theorem takeByte_hunt (h : s.port.rx = .hunt) (b : Byte) :
    s.takeByte b = if b = 0xC5 then s.setPort { s.port with rx := .length, reception := [] } else s := by
  simp only [State.takeByte, h]

theorem takeByte_length (h : s.port.rx = .length) (b : Byte) :
    s.takeByte b = if 2 ≤ b.toNat ∧ b.toNat ≤ 252 then s.setPort { s.port with rx := .collect, reception := [b] }
      else s.discardFrame := by
  simp only [State.takeByte, h]

theorem takeByte_collect (h : s.port.rx = .collect) {len : Byte} {rest : List Byte} (hr : s.port.reception = len :: rest) (b : Byte) :
    s.takeByte b = if len.toNat + 2 ≤ rest.length + 1 then s.completeFrame (len :: rest ++ [b])
      else s.setPort { s.port with reception := len :: rest ++ [b] } := by
  simp [State.takeByte, h, hr]

/-- Settles O5. -/
theorem receiverTakesEachByte : Obligations.ReceiverTakesEachByte := by
  intro s b hs
  refine ⟨fun h hb => ?_, fun h hb => ?_, fun h h2 h252 => ?_, fun h hb => ?_, fun len rest h hr hl => ?_⟩
  · rw [exec_controlByte hs, takeByte_hunt h, if_pos hb]; rfl
  · rw [exec_controlByte hs, takeByte_hunt h, if_neg hb]
  · rw [exec_controlByte hs, takeByte_length h, if_pos ⟨h2, h252⟩]; rfl
  · rw [exec_controlByte hs, takeByte_length h, if_neg (by omega), exec_discard hs]
    simp only [State.discards, lenInRange, Bool.not_eq_true', decide_eq_false_iff_not]; omega
  · rw [exec_controlByte hs, takeByte_collect h hr, if_neg (by omega)]; rfl

/-! ### A frame byte by byte -/

theorem execAll_cons {c : Instr} {cs : List Instr} (h : exec c s = .next t) : execAll (c :: cs) s = execAll cs t := by
  simp only [execAll, h]

theorem execAll_append {xs ys : List Instr} (h : execAll xs s = .next t) : execAll (xs ++ ys) s = execAll ys t := by
  induction xs generalizing s with
  | nil => cases h; rfl
  | cons c cs ih =>
    simp only [execAll] at h
    cases hc : exec c s with
    | next u => rw [hc] at h; rw [List.cons_append, execAll_cons hc]; exact ih h
    | fault f => rw [hc] at h; cases h
    | refused r => rw [hc] at h; cases h

/-- The receiver with these bytes of a frame collected. -/
def State.collected (s : State) (bytes : List Byte) : State := s.setPort { s.port with rx := .collect, reception := bytes }

theorem execAll_collect (hs : s.startUp = false) (len : Byte) (bs rest : List Byte) (h : rest.length + bs.length ≤ len.toNat + 1) :
    execAll (bs.map .controlByte) (s.collected (len :: rest)) = .next (s.collected (len :: rest ++ bs)) := by
  induction bs generalizing rest with
  | nil => rw [List.append_nil]; rfl
  | cons b bs ih =>
    have h1 : exec (.controlByte b) (s.collected (len :: rest)) = .next (s.collected (len :: (rest ++ [b]))) := by
      rw [exec_controlByte (by exact hs), takeByte_collect (len := len) (rest := rest) rfl rfl,
        if_neg (by rw [List.length_cons] at h; omega)]
      rfl
    rw [List.map_cons, execAll_cons h1, ih (rest ++ [b]) (by rw [List.length_cons] at h; rw [List.length_append, List.length_singleton]; omega)]
    simp

/-- SYNC, LEN and what follows them short of a frame's last byte are collected. -/
theorem execAll_opening (hs : s.startUp = false) (hh : s.port.rx = .hunt) {len : Byte} (h2 : 2 ≤ len.toNat) (h252 : len.toNat ≤ 252)
    (bs : List Byte) (h : bs.length ≤ len.toNat + 1) :
    execAll ((0xC5 :: len :: bs).map .controlByte) s = .next (s.collected (len :: bs)) := by
  have h1 : exec (.controlByte 0xC5) s = .next (s.setPort { s.port with rx := .length, reception := [] }) := by
    rw [exec_controlByte hs, takeByte_hunt hh, if_pos rfl]
  have hl : exec (.controlByte len) (s.setPort { s.port with rx := .length, reception := [] }) = .next (s.collected [len]) := by
    rw [exec_controlByte (by exact hs), takeByte_length rfl, if_pos ⟨h2, h252⟩]; rfl
  rw [List.map_cons, execAll_cons h1, List.map_cons, execAll_cons hl, execAll_collect hs len bs [] (by simpa using h)]
  rfl

theorem hunt_collected (s : State) (bs : List Byte) : (s.collected bs).hunt = s.hunt := rfl

theorem receive_collected (s : State) (bs : List Byte) (r : Request) : (s.collected bs).receive r = s.receive r := by
  have hp : (s.collected bs).port.holding = s.port.holding := rfl
  unfold State.receive
  rw [hp, hunt_collected]
  rfl

theorem discardFrame_collected (s : State) (bs : List Byte) : (s.collected bs).discardFrame = s.discardFrame := by
  simp only [State.discardFrame, hunt_collected]

/-- A whole frame of a request: taken when its check is right, discarded when not (R182). -/
theorem completeFrame_of_request (r : Request) (hb : r.body.length ≤ 250) (chk : List Byte) :
    s.completeFrame (BitVec.ofNat 8 (r.body.length + 2) :: r.tag :: r.code :: (r.body ++ chk))
      = if chk = requestCheck r then s.receive r else s.discardFrame := by
  have hl : (BitVec.ofNat 8 (r.body.length + 2)).toNat = r.body.length + 2 := by
    rw [BitVec.toNat_ofNat, Nat.mod_eq_of_lt (by omega)]
  have ht : (r.tag :: r.code :: (r.body ++ chk)).take (r.body.length + 2) = r.tag :: r.code :: r.body := by simp
  have hd : (r.tag :: r.code :: (r.body ++ chk)).drop (r.body.length + 2) = chk := by simp
  simp only [State.completeFrame, hl, ht, hd]
  rfl

/-- A whole frame on the line: its bytes come to the request, or with another check to a discard. -/
theorem execAll_frameBytes (hs : s.startUp = false) (hh : s.port.rx = .hunt) (r : Request) (hb : r.body.length ≤ 250)
    {chk : List Byte} (hc : chk.length = 2) :
    execAll ((frameBytes r chk).map .controlByte) s = .next (if chk = requestCheck r then s.receive r else s.discardFrame) := by
  obtain ⟨a, b, rfl⟩ : ∃ a b, chk = [a, b] := List.length_eq_two.mp hc
  have hl : (BitVec.ofNat 8 (r.body.length + 2)).toNat = r.body.length + 2 := by
    rw [BitVec.toNat_ofNat, Nat.mod_eq_of_lt (by omega)]
  have hopen := execAll_opening hs hh (len := BitVec.ofNat 8 (r.body.length + 2)) (by omega) (by omega)
    (r.tag :: r.code :: (r.body ++ [a])) (by simp; omega)
  have hsplit : frameBytes r [a, b]
      = (0xC5 :: BitVec.ofNat 8 (r.body.length + 2) :: r.tag :: r.code :: (r.body ++ [a])) ++ [b] := by simp [frameBytes]
  have hlast : exec (.controlByte b) (s.collected (BitVec.ofNat 8 (r.body.length + 2) :: r.tag :: r.code :: (r.body ++ [a])))
      = .next (if [a, b] = requestCheck r then s.receive r else s.discardFrame) := by
    rw [exec_controlByte (by exact hs), takeByte_collect rfl rfl, if_pos (by simp [hl])]
    have := completeFrame_of_request (s := s.collected (BitVec.ofNat 8 (r.body.length + 2) :: r.tag :: r.code :: (r.body ++ [a])))
      r hb [a, b]
    simp only [receive_collected, discardFrame_collected] at this
    rw [← this]
    simp
  rw [hsplit, List.map_append, execAll_append hopen, List.map_singleton, execAll_cons hlast]
  rfl

/-- Settles O6. -/
theorem frameBytesComeToTheRequestRow : Obligations.FrameBytesComeToTheRequestRow := by
  intro c r s hr hb hs hh
  refine ⟨?_, fun chk hc hne => ?_⟩
  · rw [execAll_frameBytes hs hh r hb rfl, if_pos rfl, exec_request hr, State.offer, if_neg (by simp [hs])]
  · rw [execAll_frameBytes hs hh r hb hc, if_neg hne, exec_discard hs rfl]

/-! ### Refusals (section 11.4) -/

/-- What an answer of 0x10 or above says: an empty body and an unchanged state. -/
theorem takeRequest_refusal (code : Byte) (body : List Byte) (s : State)
    (h : 0x10 ≤ (statusCode (takeRequest code body s).status).toNat) :
    (takeRequest code body s).body = [] ∧ (takeRequest code body s).state = s := by
  have of_refuse {a : Answer} (ha : ∃ st, a = refuse s st) : a.body = [] ∧ a.state = s := by
    obtain ⟨st, rfl⟩ := ha; exact ⟨rfl, rfl⟩
  by_cases hr : code = 0x12
  · subst hr
    rw [show takeRequest 0x12 body s = takeRouteSet body s from rfl] at h ⊢
    rcases takeRouteSet_cases s body with ha | ⟨n, r, ha⟩
    · exact of_refuse ha
    · rw [ha] at h; exact absurd h (show ¬ 0x10 ≤ (statusCode .ok).toNat by decide)
  · by_cases hc : code = 0x70
    · subst hc
      rw [show takeRequest 0x70 body s = takeCountSet body s from rfl] at h ⊢
      rcases takeCountSet_cases s body with ha | ⟨c, x, ha⟩
      · exact of_refuse ha
      · rw [ha] at h; exact absurd h (show ¬ 0x10 ≤ (statusCode .ok).toNat by decide)
    · rcases takeRequest_lawful s body hr hc with ha | ⟨hlt, -⟩
      · exact of_refuse ha
      · omega

/-- Settles O9. -/
theorem refusedRequestsChangeNothing : Obligations.RefusedRequestsChangeNothing := by
  intro c r s hr hs
  refine ⟨_, _, _, exec_ready hr hs, sent_port s r, fun h => ?_⟩
  obtain ⟨hb, ht⟩ := takeRequest_refusal _ _ _ h
  exact ⟨hb, sameBut_of_take (by decide) (sameBut_of_eq ht)⟩

/-! ### Requests that carry one number -/

theorem withLiveProgramme_of_length_ne {body : List Byte} {f : Fin 8 → Answer} (h : body.length ≠ 1) :
    withLiveProgramme body s f = refuse s .malformed := by
  unfold withLiveProgramme
  split
  · exact absurd rfl h
  · rfl

theorem withLiveProgramme_of_bad_programme {b : Byte} {f : Fin 8 → Answer} (h : 8 ≤ b.toNat) :
    withLiveProgramme [b] s f = refuse s .range := by simp only [withLiveProgramme, readId_of_le h]

theorem withLiveProgramme_of_not_live {p : Fin 8} {f : Fin 8 → Answer} (h : (s.prog p).life.isLive = false) :
    withLiveProgramme (byte1 p) s f = refuse s .state := by
  simp [withLiveProgramme, byte1, readId_ofNat, h]

/-- The owner of a request checks that its body is one number below `n`. -/
def checksNumber (n : Nat) (take : List Byte → State → Answer) : Prop :=
  (∀ s body, body.length ≠ 1 → take body s = refuse s .malformed) ∧ ∀ s (b : Byte), n ≤ b.toNat → take [b] s = refuse s .range

theorem checksNumber_of_live (f : State → Fin 8 → Answer) {take : List Byte → State → Answer}
    (h : ∀ body s, take body s = withLiveProgramme body s (f s)) : checksNumber 8 take :=
  ⟨fun s body hb => by rw [h, withLiveProgramme_of_length_ne hb], fun s b hb => by rw [h, withLiveProgramme_of_bad_programme hb]⟩

theorem checksNumber_of_open (f : State → Fin 8 → Answer) {take : List Byte → State → Answer}
    (h : ∀ body s, take body s = withOpenProgramme body s (f s)) : checksNumber 8 take :=
  ⟨fun s body hb => by rw [h, withOpenProgramme_of_length_ne hb], fun s b hb => by rw [h, withOpenProgramme_of_bad_programme hb]⟩

theorem takeLinkStatus_checksNumber : checksNumber 8 takeLinkStatus := by
  refine ⟨fun s body h => ?_, fun s b hb => by simp only [takeLinkStatus, readId_of_le hb]⟩
  unfold takeLinkStatus
  split
  · exact absurd rfl h
  · rfl

theorem takeProgClose_checksNumber : checksNumber 8 takeProgClose := by
  refine ⟨fun s body h => ?_, fun s b hb => by simp only [takeProgClose, readId_of_le hb]⟩
  unfold takeProgClose
  split
  · exact absurd rfl h
  · rfl

theorem takeProgStatus_checksNumber : checksNumber 8 takeProgStatus := by
  refine ⟨fun s body h => ?_, fun s b hb => by simp only [takeProgStatus, readId_of_le hb]⟩
  unfold takeProgStatus
  split
  · exact absurd rfl h
  · rfl

theorem takeCueFire_checksNumber : checksNumber 4 takeCueFire := by
  refine ⟨fun s body h => ?_, fun s b hb => by simp only [takeCueFire, readId_of_le hb]⟩
  unfold takeCueFire
  split
  · exact absurd rfl h
  · rfl

theorem takeSnapRead_checksNumber : checksNumber 4 takeSnapRead := by
  refine ⟨fun s body h => ?_, fun s b hb => by simp only [takeSnapRead, readId_of_le hb]⟩
  unfold takeSnapRead
  split
  · exact absurd rfl h
  · rfl

/-- A request whose owner checks a number is refused without one, and with one that names nothing. -/
theorem refused_of_checksNumber {n : Nat} {take : List Byte → State → Answer} (hk : checksNumber n take) {mk : Byte → List Byte → Instr}
    {code : Byte} (hr : ∀ tag body, requestOf (mk tag body) = some ⟨tag, code, body⟩)
    (ht : ∀ body s, takeRequest code body s = take body s) (hs : s.ready) (tag : Byte) :
    (∀ body : List Byte, body.length ≠ 1 → RefusedWith (mk tag body) s .malformed)
      ∧ ∀ b : Byte, n ≤ b.toNat → RefusedWith (mk tag [b]) s .range :=
  ⟨fun body hb => refused_of_answer (hr tag body) (.inl hs) ((ht _ _).trans (hk.1 _ body hb)),
    fun b hb => refused_of_answer (hr tag [b]) (.inl hs) ((ht _ _).trans (hk.2 _ b hb))⟩

theorem takeProgClose_of_closed {p : Fin 8} (h : (s.prog p).life.isClosed = true) :
    takeProgClose (byte1 p) s = refuse s .state := by
  cases hl : (s.prog p).life <;> rw [hl] at h <;> simp_all [takeProgClose, byte1, readId_ofNat, Life.isClosed]

/-- Settles O12. -/
theorem oneNumberRequestsAreCheckedInOrder : Obligations.OneNumberRequestsAreCheckedInOrder := by
  intro s tag hs
  simp only [List.forall_mem_cons, List.not_mem_nil, false_imp_iff, implies_true, and_true]
  have live (mk : Byte → List Byte → Instr) (code : Byte) (hr : ∀ tag body, requestOf (mk tag body) = some ⟨tag, code, body⟩)
      (f : State → Fin 8 → Answer) (ht : ∀ body s, takeRequest code body s = withLiveProgramme body s (f s)) :=
    refused_of_checksNumber (checksNumber_of_live f (take := takeRequest code) ht) hr (fun _ _ => rfl) hs tag
  have opened (mk : Byte → List Byte → Instr) (code : Byte) (hr : ∀ tag body, requestOf (mk tag body) = some ⟨tag, code, body⟩)
      (f : State → Fin 8 → Answer) (ht : ∀ body s, takeRequest code body s = withOpenProgramme body s (f s)) :=
    refused_of_checksNumber (checksNumber_of_open f (take := takeRequest code) ht) hr (fun _ _ => rfl) hs tag
  have notLive {c : Instr} {r : Request} {p : Fin 8} {f : Fin 8 → Answer} (hr : requestOf c = some r)
      (ht : takeRequest r.code r.body (s.taking r) = withLiveProgramme (byte1 p) (s.taking r) f)
      (h : (s.prog p).life.isLive = false) : RefusedWith c s .state :=
    refused_of_answer hr (.inl hs) (ht.trans (withLiveProgramme_of_not_live (by exact h)))
  have closed {c : Instr} {r : Request} {p : Fin 8} {f : Fin 8 → Answer} (hr : requestOf c = some r)
      (ht : takeRequest r.code r.body (s.taking r) = withOpenProgramme (byte1 p) (s.taking r) f)
      (h : (s.prog p).life.isClosed = true) : RefusedWith c s .state :=
    refused_of_answer hr (.inl hs) (ht.trans (withOpenProgramme_of_closed (by exact h)))
  refine ⟨⟨?_, ?_, ?_, ?_, ?_, ?_, ?_, ?_, ?_, ?_, ?_, ?_, ?_, ?_⟩, ⟨?_, ?_⟩, ⟨?_, ?_, ?_, ?_, ?_⟩, ?_, ?_, ?_, ?_, ?_, ?_⟩
  · exact refused_of_checksNumber takeLinkStatus_checksNumber (fun _ _ => rfl) (fun _ _ => rfl) hs tag
  · exact refused_of_checksNumber takeProgClose_checksNumber (fun _ _ => rfl) (fun _ _ => rfl) hs tag
  · exact refused_of_checksNumber takeProgStatus_checksNumber (fun _ _ => rfl) (fun _ _ => rfl) hs tag
  · exact live .moveGo 0x31 (fun _ _ => rfl) _ (fun _ _ => rfl)
  · exact live .moveDiscard 0x32 (fun _ _ => rfl) _ (fun _ _ => rfl)
  · exact live .moveHold 0x33 (fun _ _ => rfl) _ (fun _ _ => rfl)
  · exact live .moveFinish 0x34 (fun _ _ => rfl) _ (fun _ _ => rfl)
  · exact live .moveResume 0x35 (fun _ _ => rfl) _ (fun _ _ => rfl)
  · exact opened .moveStatus 0x37 (fun _ _ => rfl) _ (fun _ _ => rfl)
  · exact live .moveReports 0x38 (fun _ _ => rfl) _ (fun _ _ => rfl)
  · exact opened .loudRead 0x51 (fun _ _ => rfl) _ (fun _ _ => rfl)
  · exact opened .loudRestart 0x52 (fun _ _ => rfl) _ (fun _ _ => rfl)
  · exact opened .gainRead 0x54 (fun _ _ => rfl) _ (fun _ _ => rfl)
  · exact refused_of_checksNumber ⟨fun s body hb => takeCountRead_of_length_ne hb, fun s b hb => takeCountRead_of_bad_counter hb⟩
      (fun _ _ => rfl) (fun _ _ => rfl) hs tag
  · exact refused_of_checksNumber takeCueFire_checksNumber (fun _ _ => rfl) (fun _ _ => rfl) hs tag
  · exact refused_of_checksNumber takeSnapRead_checksNumber (fun _ _ => rfl) (fun _ _ => rfl) hs tag
  · exact fun p h => refused_of_answer rfl (.inl hs) (takeProgClose_of_closed (by exact h))
  · exact fun p h => closed rfl rfl h
  · exact fun p h => closed rfl rfl h
  · exact fun p h => closed rfl rfl h
  · exact fun p h => closed rfl rfl h
  · exact fun p h => notLive rfl rfl h
  · exact fun p h => notLive rfl rfl h
  · exact fun p h => notLive rfl rfl h
  · exact fun p h => notLive rfl rfl h
  · exact fun p h => notLive rfl rfl h
  · exact fun p h => notLive rfl rfl h

/-- A request row that its owner only reads for is answered in the state as it stands. -/
theorem exec_of_read {c : Instr} {r : Request} {st : Status} {b : List Byte} (hc : requestOf c = some r) (hs : s.ready)
    (h : takeRequest r.code r.body (s.taking r) = ⟨s.taking r, st, b⟩) : exec c s = .next (s.answered r st b) := by
  rw [exec_ready hc hs, h]; rfl

/-- Settles O11. -/
theorem statusReadsReplyTheRecord : Obligations.StatusReadsReplyTheRecord := by
  intro s tag hs
  have hl := refused_of_checksNumber takeLinkStatus_checksNumber (mk := .linkStatus) (code := 0x11) (fun _ _ => rfl)
    (fun _ _ => rfl) hs tag
  refine ⟨exec_of_read rfl hs rfl, fun l => exec_of_read rfl hs ?_, exec_of_read rfl hs rfl, fun p => exec_of_read rfl hs ?_,
    fun p hp => exec_of_read rfl hs ?_, fun p hp => exec_of_read rfl hs ?_, exec_of_read rfl hs rfl, ?_, hl⟩
  · show takeLinkStatus (byte1 l) _ = _
    simp only [takeLinkStatus, byte1, readId_ofNat (show 8 ≤ 256 by decide)]; rfl
  · show takeProgStatus (byte1 p) _ = _
    simp only [takeProgStatus, byte1, readId_ofNat (show 8 ≤ 256 by decide)]; rfl
  · exact withOpenProgramme_of_open (f := fun p => ⟨s.taking _, .ok, moveStatusRecord (s.prog p).move⟩) (by exact hp)
  · exact withOpenProgramme_of_open (f := fun p => ⟨s.taking _, .ok, correctorRecord p (s.prog p).gain⟩) (by exact hp)
  · simp only [List.forall_mem_cons, List.not_mem_nil, false_imp_iff, implies_true, and_true]
    exact ⟨fun b bs => refused_of_answer rfl (.inl hs) rfl, fun b bs => refused_of_answer rfl (.inl hs) rfl,
      fun b bs => refused_of_answer rfl (.inl hs) rfl⟩

/-! ### The holding (section 11.3) -/

theorem receive_behind_one {x : Request} (h : s.port.holding = [x]) (r : Request) :
    s.receive r = s.setPort { s.port with rx := .hunt, reception := [], holding := [x, r] } := by
  simp only [State.receive, h]; rfl

theorem receive_behind_two {x y : Request} {zs : List Request} (h : s.port.holding = x :: y :: zs) (r : Request) :
    s.receive r = s.discardFrame := by simp only [State.receive, h]

theorem receive_empty (h : s.port.holding = []) (r : Request) :
    s.receive r = ((s.hunt.settledFor r).setPort { (s.hunt.settledFor r).port with holding := [r] }).dispatch r := by
  simp only [State.receive, h]

theorem exec_offer {c : Instr} {r : Request} (hr : requestOf c = some r) (hs : s.startUp = false) :
    exec c s = .next (s.receive r) := by
  rw [exec_request hr, State.offer, if_neg (by simp [hs])]

theorem exec_replySent (hr : s.port.reply.isSome = true) (hh : s.resetInHand = false) : exec .replySent s = .next s.replyDone := by
  have hn : s.port.reply.isNone = false := by rw [← Option.not_isSome, hr]; rfl
  simp only [exec, execReplySent, hn, hh, Bool.false_eq_true, if_false]

/-- The waiting frame goes into hand and is dispatched (R184). -/
theorem replyDone_waiting {x r : Request} {zs : List Request} (h : s.port.holding = x :: r :: zs) :
    s.replyDone = ((s.settledFor r).setPort { (s.settledFor r).port with holding := r :: zs, reply := none }).dispatch r := by
  simp only [State.replyDone, h, List.drop_succ_cons, List.drop_zero]

theorem reachesUnits_iff (r : Request) : r.reachesUnits = true ↔ r.code ∈ [0x36, 0x40, 0x41] := by
  simp [Request.reachesUnits]

/-- A CODE outside the catalogue names no message (R185). -/
theorem takeRequest_unknown {code : Byte} (h : catalogue.contains code = false) (body : List Byte) (s : State) :
    takeRequest code body s = refuse s .unknown := by
  have hmap : requestTable.map Prod.fst = catalogue := rfl
  have hnone : requestTable.find? (fun e => e.1 == code) = none := by
    rw [List.find?_eq_none]
    intro e he hc
    have hcode : e.1 = code := by simpa using hc
    have hmem : code ∈ catalogue := hmap ▸ hcode ▸ List.mem_map_of_mem he
    simp [hmem] at h
  simp only [takeRequest, hnone]

/-! ### What a share taken ahead means to the next event (log entry 4) -/

/-- The event of house time that falls next, with the lines as they were sampled last. -/
def State.nextEvent (s : State) : Instr :=
  if s.blockEndDue then .blockEnd else .houseSample s.ref.frmPrev s.ref.cue0Prev s.ref.cue1Prev

/-- No share taken ahead. -/
def State.unshared (s : State) : State := { s with ahead := [] }

theorem exec_blockEnd (h : s.blockEndDue = true) : exec .blockEnd s = .next s.takeBlockEnd := by
  simp only [exec, execBlockEnd, h, if_true]

theorem exec_houseSample (hs : s.startUp = false) (he : s.extentOutside? = none) (frm c0 c1 : Bool) :
    exec (.houseSample frm c0 c1) s = .next (s.takeHouseSample frm c0 c1) := by
  simp only [exec, execHouseSample, hs, Bool.false_eq_true, if_false, he]

/-- The next event is the block end that is due, or else the house sample. -/
theorem nextEvent_cases (hs : s.startUp = false) (he : s.blockEndDue = true ∨ s.extentOutside? = none)
    (h : exec s.nextEvent s = .next t) : (s.blockEndDue = true ∧ t = s.takeBlockEnd)
      ∨ (s.blockEndDue = false ∧ s.extentOutside? = none
        ∧ t = s.takeHouseSample s.ref.frmPrev s.ref.cue0Prev s.ref.cue1Prev) := by
  unfold State.nextEvent at h
  cases hb : s.blockEndDue
  · have hn : s.extentOutside? = none := he.resolve_left (by simp [hb])
    rw [if_neg (by simp [hb]), exec_houseSample hs hn, Host.Outcome.next.injEq] at h
    exact .inr ⟨rfl, hn, h.symm⟩
  · rw [if_pos hb, exec_blockEnd hb, Host.Outcome.next.injEq] at h
    exact .inl ⟨rfl, h.symm⟩

theorem settled_of_next (hs : s.startUp = false) (ha : s.ahead ≠ []) (he : s.blockEndDue = true ∨ s.extentOutside? = none)
    (h : exec s.nextEvent s = .next t) : s.settled = t.unshared := by
  have hne : ¬ s.ahead.isEmpty = true := by simpa using ha
  rcases nextEvent_cases hs he h with ⟨hb, rfl⟩ | ⟨hb, hn, rfl⟩
  · simp only [State.settled, hne, hb, if_true]; rfl
  · simp only [State.settled, hne, hb, hn]; rfl

theorem nextEvent_sameBut (hs : s.startUp = false) (he : s.blockEndDue = true ∨ s.extentOutside? = none)
    (h : exec s.nextEvent s = .next t) : s.sameBut houseParts t := by
  rcases nextEvent_cases hs he h with ⟨-, rfl⟩ | ⟨-, -, rfl⟩
  · exact sameBut_mono (takeBlockEnd_sameBut s) (by decide)
  · exact takeHouseSample_sameBut s _ _ _

/-- No house time touches a link's enable. -/
def State.enables (s : State) (l : Fin 8) : Bool := (s.link l).rx.enable

theorem enables_of_links (h : s.links = t.links) (l : Fin 8) : t.enables l = s.enables l := by
  rw [State.enables, ← State.link_congr h]; rfl

theorem linkBlockEnd_links (s : State) (l : Fin 8) : (s.linkBlockEnd l).links = (s.setLink l ⟨(s.link l).rx.blockEnd,
    { ((s.link l).conv.judgeWindow (s.link l).rx.arrivalCount).conv with
      notLocked := !((s.link l).conv.judgeWindow (s.link l).rx.arrivalCount).conv.state.isLocked }⟩).links := by
  unfold State.linkBlockEnd
  dsimp only
  rw [State.report_links]
  split <;> split <;> split <;> simp

theorem setLink_enables (s : State) (l k : Fin 8) (x : Link) (h : x.rx.enable = (s.link l).rx.enable) :
    (s.setLink l x).enables k = s.enables k := by
  unfold State.enables
  by_cases hk : k = l
  · subst hk; rw [State.link_setLink, h]
  · rw [State.link_setLink_ne s hk]

theorem linkBlockEnd_enables (s : State) (l k : Fin 8) : (s.linkBlockEnd l).enables k = s.enables k :=
  (enables_of_links (linkBlockEnd_links s l).symm k).trans (setLink_enables s l k _ rfl)

theorem readConverter_enables (s : State) (l k : Fin 8) : (s.readConverter l).enables k = s.enables k := by
  unfold State.readConverter
  split
  · exact (enables_of_links (slipEvents_sameBut _ l .links (by decide)) k).trans (setLink_enables s l k _ rfl)
  · exact setLink_enables s l k _ rfl

theorem takeBlockEnd_enables (s : State) (k : Fin 8) : s.takeBlockEnd.enables k = s.enables k := by
  have step {ps : List Part} {t u : State} (h : t.sameBut ps u) (hp : Part.links ∉ ps) (ht : t.enables k = s.enables k) :
      u.enables k = s.enables k := (enables_of_links (h .links hp) k).trans ht
  exact takeBlockEnd_keep (q := fun t => t.enables k = s.enables k) (fun t => step (withRef_sameBut t _) (by decide))
    (fun c t => step (contactStep_sameBut t c) (by decide)) (fun l t ht => (linkBlockEnd_enables t l k).trans ht)
    (fun e k t _ => step (count_sameBut t e none k) (by decide))
    (fun m p t => step (programmeBlockEnd_sameBut m p t) (by decide)) (fun t => step (resetFeeds_sameBut t) (by decide))
    (fun p t => step (cueWaitStep_sameBut t p) (by decide)) (fun n t _ => step (timerStep_sameBut t n) (by decide))
    (fun a t => step (withAhead_sameBut t a) (by decide)) rfl

theorem programmeSample_links {u : State} (ins : Vector LaneIn 32) (acc : State × Vector Slot 32) (p : Fin 8)
    (h : u.links = acc.1.links) : u.links = (programmeSample ins acc p).1.links :=
  programmeSample_keep (q := fun t => u.links = t.links) (fun t ht => ht.trans (moveStep_sameBut t p .links (by decide)))
    (fun w t ht => ht.trans (gainStep_sameBut t p w .links (by decide))) (fun _ _ _ _ _ ht => ht) (live_steps p) h

theorem takeHouseSample_enables (s : State) (frm c0 c1 : Bool) (k : Fin 8) :
    (s.takeHouseSample frm c0 c1).enables k = s.enables k := by
  have main (u : State) (hu : u.blockEndDue = false) : (u.takeHouseSample frm c0 c1).enables k = u.enables k := by
    have step {ps : List Part} {t v : State} (h : t.sameBut ps v) (hp : Part.links ∉ ps) (ht : t.enables k = u.enables k) :
        v.enables k = u.enables k := (enables_of_links (h .links hp) k).trans ht
    exact takeHouseSample_keep (q := fun t => t.enables k = u.enables k) hu (fun t => step (withRef_sameBut t _) (by decide))
      (fun l t ht => (readConverter_enables t l k).trans ht)
      (fun ins acc p ht => (enables_of_links (programmeSample_links ins acc p rfl) k).trans ht)
      (fun v t => step (pushOutputs_sameBut t v) (by decide)) (fun p t => step (clearStep_sameBut t p) (by decide))
      (fun v t => step (sampleFrm_sameBut t v) (by decide)) (fun t => step (absenceTest_sameBut t) (by decide))
      (fun a b t => step (sampleCues_sameBut t a b) (by decide)) (fun a t => step (withAhead_sameBut t a) (by decide))
      rfl frm c0 c1
  cases h : s.blockEndDue
  · exact main s h
  · rw [takeHouseSample_of_due h]
    exact (main _ (takeBlockEnd_blockEndDue s)).trans (takeBlockEnd_enables s k)

theorem nextEvent_enables (hs : s.startUp = false) (he : s.blockEndDue = true ∨ s.extentOutside? = none)
    (h : exec s.nextEvent s = .next t) (k : Fin 8) : t.enables k = s.enables k := by
  rcases nextEvent_cases hs he h with ⟨-, rfl⟩ | ⟨-, -, rfl⟩
  · exact takeBlockEnd_enables s k
  · exact takeHouseSample_enables s _ _ _ k

/-- The four events behind a share taken ahead find the part in which the rest of that house sample or block end has been
taken. -/
theorem events_behind_shares {u v : State} (hs : s.startUp = false) (ha : s.ahead ≠ [])
    (he : s.blockEndDue = true ∨ s.extentOutside? = none) (ht : exec s.nextEvent s = .next t) (hu : u = s.hunt)
    (hv : exec u.nextEvent u = .next v) :
    (∀ c r, requestOf c = some r → s.port.holding = [] → (s.blockEndDue = false ∨ r.code ∉ [0x36, 0x40, 0x41]) →
        exec c s = exec c v.unshared)
    ∧ (∀ cause, s.discards cause = true →
        exec (.requestFrameDiscard cause) s = exec (.requestFrameDiscard cause) v.unshared)
    ∧ (∀ x r zs, s.port.reply.isSome = true → s.resetInHand = false → s.port.holding = x :: r :: zs →
        (s.blockEndDue = false ∨ r.code ∉ [0x36, 0x40, 0x41]) →
        exec .replySent s = exec .replySent t.unshared)
    ∧ ∀ l f ok, (s.link l).rx.enable = true →
        exec (.frameArrival l f ok) s = exec (.frameArrival l f ok) t.unshared := by
  subst hu
  have hsettled := settled_of_next hs ha he ht
  have hhunt : s.hunt.settled = v.unshared := settled_of_next hs ha he hv
  have hf := nextEvent_sameBut hs he ht
  have hg := nextEvent_sameBut (s := s.hunt) hs he hv
  have hvs : v.startUp = false := (hg .startUp (by decide)).symm.trans hs
  have hvp : v.port = s.hunt.port := (hg .port (by decide)).symm
  have htp : t.port = s.port := (hf .port (by decide)).symm
  have hvh : v.unshared.hunt = v.unshared := by simp only [State.hunt, State.setPort, State.unshared, hvp]
  have units {r : Request} (h : s.blockEndDue = false ∨ r.code ∉ [0x36, 0x40, 0x41]) :
      s.blockEndDue = false ∨ r.reachesUnits = false :=
    h.imp_right (fun h => by rw [← Bool.not_eq_true, reachesUnits_iff]; exact h)
  refine ⟨fun c r hr hh hc => ?_, fun cause hc => ?_, fun x r zs hr hh hold hc => ?_, fun l f ok hl => ?_⟩
  · have hvhold : v.unshared.port.holding = [] := by show v.port.holding = []; rw [hvp]; exact hh
    rw [exec_offer hr hs, exec_offer hr (s := v.unshared) hvs, receive_empty hh, receive_empty hvhold, hvh,
      settledFor_settled (s := s.hunt) (units hc), hhunt, settledFor_of_nil (s := v.unshared) rfl]
  · have hvc : v.unshared.discards cause = true := by
      cases cause with
      | badLen len => exact hc
      | badCheck => rfl
      | holdingFull =>
        show decide (2 ≤ v.port.holding.length) = true
        rw [hvp]; exact hc
    rw [exec_discard hs hc, exec_discard (s := v.unshared) hvs hvc, State.discardFrame, State.discardFrame, hhunt, hvh,
      settled_of_nil (s := v.unshared) rfl]
  · have htr : t.unshared.port.reply.isSome = true := by show t.port.reply.isSome = true; rw [htp]; exact hr
    have hth : t.unshared.resetInHand = false := by
      show t.resetInHand = false
      rw [State.resetInHand, htp]; exact hh
    have hthold : t.unshared.port.holding = x :: r :: zs := by show t.port.holding = _; rw [htp]; exact hold
    rw [exec_replySent hr hh, exec_replySent htr hth, replyDone_waiting hold, replyDone_waiting hthold,
      settledFor_settled (units hc), hsettled, settledFor_of_nil (s := t.unshared) rfl]
  · have htl : (t.unshared.link l).rx.enable = true := (nextEvent_enables hs he ht l).trans hl
    simp only [exec, execFrameArrival, hl, htl, if_true, hsettled, settled_of_nil (s := t.unshared) rfl]

/-- Settles O8. -/
theorem holdingTakesTwoFramesAndDispatches : Obligations.HoldingTakesTwoFramesAndDispatches := by
  refine ⟨fun c r s hr hs => ⟨fun x hx => ?_, fun x y zs hx => ?_⟩, fun s x hr hh => ⟨fun hx => ?_, fun r hx ha => ?_⟩,
    fun s code tag body hs hc => ?_, fun c r s hr hs hc => ?_, fun s t u v event hevent hs ha he ht hu hv => ?_⟩
  · rw [exec_offer hr hs, receive_behind_one hx]; rfl
  · rw [exec_offer hr hs, receive_behind_two hx, exec_discard hs]
    simp [State.discards, hx]
  · rw [exec_replySent hr hh]
    simp only [State.replyDone, hx, List.drop_succ_cons, List.drop_zero]; rfl
  · have hsettled : s.settledFor r = s := by
      rcases ha with ha | ⟨hb, hc⟩
      · exact settledFor_of_nil ha
      · exact settledFor_amid hb ((reachesUnits_iff r).mpr hc)
    rw [exec_replySent hr hh, replyDone_waiting hx, hsettled]; rfl
  · rw [exec_ready rfl hs, takeRequest_unknown hc]; rfl
  · exact exec_atOnce hr (.inr ⟨hs, (reachesUnits_iff r).mpr hc⟩)
  · have hnext (x : State) : event x = x.nextEvent := hevent x
    rw [hnext] at ht hv
    exact events_behind_shares hs ha he ht hu hv

end Sys2Proof.Machine
end

