-- ==== Sys2Proof/Proofs/Reset.lean ====
section
/-! PROOFS. The values of the reset state (chapters 1 to 11, reset columns), and that it meets every law that the steps keep. -/

namespace Sys2Proof.Machine

/-! ### What each table holds after reset -/

@[simp] theorem reset_link (l : Fin 8) : State.reset.link l = Link.reset := by simp [State.link, State.reset]
@[simp] theorem reset_prog (p : Fin 8) : State.reset.prog p = Programme.reset := by simp [State.prog, State.reset]
@[simp] theorem reset_route (n : Fin 32) : State.reset.route n = .unrouted := by simp [State.route, State.reset]
@[simp] theorem reset_group (g : Fin 4) : State.reset.group g = CueGroup.reset := by simp [State.group, State.reset]
@[simp] theorem reset_snap (g : Fin 4) : State.reset.snap g = ⟨none, false⟩ := by simp [State.snap, State.reset]
@[simp] theorem reset_source (n : Fin 59) : State.reset.source n = Source.reset := by simp [State.source, State.reset]
@[simp] theorem reset_contact (c : Fin 4) : State.reset.contact c = Contact.reset := by simp [State.contact, State.reset]
@[simp] theorem reset_counter (c : Fin 8) : State.reset.counter c = Counter.reset := by simp [State.counter, State.reset]

theorem reset_source_mem {r : Source} (h : r ∈ State.reset.sources.toList) : r = Source.reset := by
  simp only [State.reset, Vector.mem_toList_iff] at h
  exact Vector.eq_of_mem_replicate h

theorem reset_acceptLevel : acceptLevel State.reset.sources = 8 := by
  rw [acceptLevel_eq_foldl]
  have h : ∀ xs : List Source, (∀ r ∈ xs, r = Source.reset) → xs.foldl lowerAccepted 8 = 8 := by
    intro xs
    induction xs with
    | nil => exact fun _ => rfl
    | cons a xs ih =>
      intro hx
      rw [List.foldl_cons, hx a (by simp)]
      exact ih (fun r hr => hx r (by simp [hr]))
  exact h _ (fun r hr => reset_source_mem hr)

/-- Settles O2. -/
theorem resetStateHoldsTheStatedValues : Obligations.ResetStateHoldsTheStatedValues := by
  unfold Obligations.ResetStateHoldsTheStatedValues
  refine ⟨fun l => by rw [reset_link]; rfl, fun l => by rw [reset_link]; rfl, reset_route, fun p => ?_, rfl, rfl, fun o k => ?_,
    rfl, rfl, rfl, rfl, rfl, rfl, rfl, rfl, fun g => by rw [reset_group]; rfl, reset_snap,
    fun n => by rw [reset_source]; rfl, rfl, reset_acceptLevel, rfl, fun c => by rw [reset_contact]; rfl,
    fun c => by rw [reset_counter]; rfl, rfl⟩
  · rw [reset_prog]; exact ⟨rfl, rfl, rfl, rfl, rfl, rfl, rfl, rfl, rfl, rfl⟩
  · simp [State.reset, silentFrame, Slot.silent]

/-! ### The laws -/

theorem reset_linksSafe : State.reset.linksSafe := by
  intro l
  rw [reset_link, reset_source]
  exact ⟨⟨by decide, by decide, fun _ => rfl, rfl, rfl⟩, rfl, rfl⟩

theorem reset_pagesSafe : State.reset.pagesSafe := by
  have hnone (p : Fin 8) (e : Extent) : ¬ (State.reset.prog p).life.extent? = some e := by
    rw [reset_prog]; exact fun h => by cases h
  refine ⟨by simp [State.reset], by simp [State.reset, Config.pages], fun p e h => absurd h (hnone p e), fun page h => ?_,
    fun page p h => ?_, fun page p q h => ?_, fun p h left k hl => ?_⟩
  · exact .inl ⟨⟨0, Config.pages⟩, by simp [State.reset], Nat.zero_le _, by simpa using h⟩
  · obtain ⟨e, he, -⟩ := h; exact absurd he (hnone p e)
  · obtain ⟨e, he, -⟩ := h; exact absurd he (hnone p e)
  · rw [reset_prog] at hl; cases hl

theorem reset_lanesSafe : State.reset.lanesSafe := by
  refine ⟨fun p h hh => ?_, fun p q n h => ?_⟩
  · rw [reset_prog] at hh; cases hh
  · rw [reset_prog] at h; exact absurd h (by simp [Programme.reset, Life.lanes, Life.held?, hasLane])

theorem reset_movesSafe : State.reset.movesSafe := by
  intro p h
  rw [reset_prog] at h; cases h

theorem reset_sourcesSafe : State.reset.sourcesSafe := by
  refine ⟨fun n h => ?_, fun n => ?_, fun m n h => ?_, fun n _ => ?_⟩
  · rw [reset_source] at h; cases h.1
  · rw [reset_source]; decide
  · rw [reset_source] at h; cases h
  · rw [reset_source]; exact ⟨rfl, rfl, rfl, rfl, rfl⟩

theorem reset_outputsSafe : State.reset.outputsSafe := by
  refine ⟨?_, fun c => ?_⟩
  · refine (List.any_eq_false.mpr (fun r hr => ?_)).symm
    rw [reset_source_mem hr]
    simp [Source.eligible, Source.reset]
  · rw [reset_contact]
    exact ⟨fun h => (by cases h), fun h => (by cases h), fun _ => rfl, fun _ => rfl⟩

/-- Settles O60. -/
theorem resetStateIsSafe : Obligations.ResetStateIsSafe := by
  refine ⟨memWf_reset, reset_linksSafe, reset_pagesSafe, reset_lanesSafe, fun n l k h => ?_, rfl, ?_, reset_movesSafe,
    fun p => ?_, fun p => ?_, fun p h hh => ?_, reset_sourcesSafe, reset_outputsSafe, fun _ => rfl⟩
  · rw [reset_route] at h; cases h
  · exact ⟨by decide, by decide, fun d h => (by cases h), by decide, by decide, by decide, fun h => absurd h (by decide)⟩
  · rw [reset_prog]
    exact ⟨by decide, by decide, by decide, fun e h => (by cases h), by decide, by decide, by decide, by decide, by decide⟩
  · rw [reset_prog]
    exact ⟨by decide, fun b h => (by cases h), .nil⟩
  · rw [reset_prog] at hh; cases hh

end Sys2Proof.Machine
end

