-- ==== Sys2Proof/Proofs/Converters.lean ====
section
/-! PROOFS. Frames taken and kept, windows judged, and the values of a lock (chapters 1 and 2). -/

namespace Sys2Proof.Machine

/-! ### Frames (section 1.3) -/

theorem slotStep_eq (pol : SlotPolicy) (x : Slot) :
    slotStep pol x = if pol = .zero ∧ x.valid = false then ⟨0, false⟩ else x := by
  cases pol <;> cases hv : x.valid <;> simp [slotStep, hv, Slot.silent]

theorem zeroedSlots_eq (pol : SlotPolicy) (f : AudioFrame) :
    zeroedSlots pol f = if pol = .zero then f.toList.countP (fun x => !x.valid) else 0 := by cases pol <;> rfl

theorem takeFrame_fromWire {r : Receiver} {ok : Bool} (h : ok = true ∨ r.parityPolicy = .pass) (f : AudioFrame) :
    takeFrame r f ok = fromWire r f := by
  rcases h with rfl | h
  · rfl
  · cases ok <;> simp [takeFrame, h]

theorem takeFrame_replaced {r : Receiver} (h : r.parityPolicy ≠ .pass) (f : AudioFrame) :
    takeFrame r f false = replacedBy (if r.parityPolicy = .substitute then r.lastAccepted.getD silentFrame else silentFrame) := by
  cases hp : r.parityPolicy with
  | pass => exact absurd hp h
  | zero => simp [takeFrame, hp]
  | substitute => cases ha : r.lastAccepted <;> simp [takeFrame, hp, ha]

/-! ### Deliveries (section 2.2) -/

theorem deliver_seek {c : Converter} (h : c.state = .seek ∨ ∃ n t, c.state = .acquire n t) (f : AudioFrame) :
    c.deliver f = ({ c with fifo := keepNewest 32 (c.fifo ++ [f]) }, false) := by
  rcases h with h | ⟨n, t, h⟩ <;> simp only [Converter.deliver, h]

theorem deliver_holdover {c : Converter} {k : Lock} {b : Nat} (h : c.state = .holdover k b) (f : AudioFrame) :
    c.deliver f = ({ c with fifo := keepNewest 64 (c.fifo ++ [f]) }, false) := by simp only [Converter.deliver, h]

theorem deliver_locked {c : Converter} {k : Lock} (h : c.state = .locked k) (f : AudioFrame) :
    c.deliver f = if 60 ≤ c.fifo.length + 1 then ({ c with fifo := (c.fifo ++ [f]).drop 28, slipCount := c.slipCount + 1 }, true)
      else ({ c with fifo := c.fifo ++ [f] }, false) := by
  simp only [Converter.deliver, h, List.length_append, List.length_singleton]

theorem keepNewest_append (n : Nat) (q : List AudioFrame) (f : AudioFrame) :
    keepNewest n (q ++ [f]) = (q ++ [f]).drop (q.length + 1 - n) := by
  simp only [keepNewest, List.length_append, List.length_singleton]

/-- Settles O14. -/
theorem framesAreTakenAndKept : Obligations.FramesAreTakenAndKept := by
  refine ⟨fun r f ok => ⟨fun h => ?_, fun hok h => ?_⟩, fun c f => ⟨fun st hst h => ?_, fun k b h => ?_, fun k h => ⟨fun hl => ?_, fun hl => ?_⟩⟩⟩
  · rw [takeFrame_fromWire h]
    exact ⟨rfl, rfl, fun k => by simp [fromWire, slotStep_eq], zeroedSlots_eq _ _⟩
  · subst hok
    rw [takeFrame_replaced h]
    exact ⟨rfl, rfl, rfl, rfl⟩
  · subst hst
    rw [deliver_seek h, keepNewest_append]; exact ⟨rfl, rfl⟩
  · rw [deliver_holdover h, keepNewest_append]; exact ⟨rfl, rfl⟩
  · rw [deliver_locked h, if_neg (by omega)]; exact ⟨rfl, rfl⟩
  · rw [deliver_locked h, if_pos hl]; exact ⟨rfl, rfl⟩

/-! ### Windows (sections 2.4 to 2.7) -/

theorem inRange_iff (n : Nat) : inRange n = true ↔ 2800 ≤ n ∧ n ≤ 10000 := by simp [inRange]

theorem judgeWindow_off {c : Converter} (h : c.state = .off) (n : Nat) : c.judgeWindow n = judgedAs c := by
  simp only [Converter.judgeWindow, h]

theorem judgeWindow_seek {c : Converter} (h : c.state = .seek) (n : Nat) :
    c.judgeWindow n = judgedAs (if inRange n then { c with n := n, state := .acquire n 1 } else { c with n := n }) := by
  simp only [Converter.judgeWindow, h]
  split <;> simp_all

theorem judgeWindow_acquire {c : Converter} {prev tally : Nat} (h : c.state = .acquire prev tally) (n : Nat) :
    c.judgeWindow n = judgedAs (if !inRange n then { c with n := n, state := .seek }
      else if max n prev - min n prev ≤ 2 then
        if 3 ≤ tally then { c with n := n, state := .locked (lockOf n), fifo := recentreNewest c.fifo, readPhase := 0 }
        else { c with n := n, state := .acquire n (tally + 1) }
      else { c with n := n, state := .acquire n 1 }) := by
  have hd : (decide ((n : Int) - prev ≤ 2) && decide ((prev : Int) - n ≤ 2)) = decide (max n prev - min n prev ≤ 2) := by
    rw [← Bool.decide_and, decide_eq_decide]; omega
  simp only [Converter.judgeWindow, h, hd, decide_eq_true_eq, Nat.add_le_add_iff_right (n := 1) (m := 3)]
  repeat' split
  all_goals rfl

/-- The window is within tolerance of N_ref (R24). -/
theorem goodWindow_iff (nRef n : Nat) : goodWindow nRef n = true ↔ max n nRef - min n nRef ≤ max 2 (nRef / 200) := by
  simp only [goodWindow, decide_eq_true_eq]; omega

theorem judgeWindow_locked {c : Converter} {k : Lock} (h : c.state = .locked k) (n : Nat) :
    c.judgeWindow n = judgedAs { c with n := n, state := if goodWindow k.nRef n then .locked (k.refine n c.fifo.length) else .holdover k 1 } := by
  simp only [Converter.judgeWindow, h]
  split <;> rfl

theorem judgeWindow_holdover_good {c : Converter} {k : Lock} {bad : Nat} (h : c.state = .holdover k bad) {n : Nat}
    (hg : goodWindow k.nRef n = true) : c.judgeWindow n =
      if 60 ≤ c.fifo.length then
        { conv := { c with n := n, state := .locked k, fifo := keepNewest 32 c.fifo, slipCount := c.slipCount + 1 }
          lockLoss := false, slip := true }
      else if c.fifo.length ≤ 3 then
        { conv := { refill { c with n := n, state := .locked k } with slipCount := c.slipCount + 1 }, lockLoss := false, slip := true }
      else judgedAs { c with n := n, state := .locked k } := by
  simp only [Converter.judgeWindow, h, hg, if_true, Config.fifoCentre]

theorem judgeWindow_holdover_bad {c : Converter} {k : Lock} {bad : Nat} (h : c.state = .holdover k bad) {n : Nat}
    (hg : goodWindow k.nRef n = false) : c.judgeWindow n =
      if bad < 4 then judgedAs { c with n := n, state := .holdover k (bad + 1) }
      else { conv := { c with n := n, state := .seek, fifo := [], readPhase := 0, lastRead := none }, lockLoss := true, slip := false } := by
  simp only [Converter.judgeWindow, h, hg, Bool.false_eq_true, if_false]

theorem refill_of_lastRead {c : Converter} {a : AudioFrame} (h : c.lastRead = some a) :
    refill c = { c with fifo := List.replicate (32 - c.fifo.length) a ++ c.fifo } := by
  simp only [refill, h, Option.orElse, Config.fifoCentre]

theorem recentreNewest_of_getLast {q : List AudioFrame} {a : AudioFrame} (h : q.getLast? = some a) :
    recentreNewest q = q.drop (q.length - 32) ++ List.replicate (32 - q.length) a := by
  have hlen : 0 < q.length := by
    cases q with
    | nil => cases h
    | cons x xs => simp
  have hlast : (q.drop (q.length - 32)).getLast? = some a := by
    rw [List.getLast?_drop, if_neg (by omega), h]
  have hcount : 32 - (q.drop (q.length - 32)).length = 32 - q.length := by rw [List.length_drop]; omega
  unfold recentreNewest
  dsimp only [keepNewest, Config.fifoCentre]
  rw [hlast]
  dsimp only
  rw [hcount]

/-- The ratio of a refined lock, clamped (R25). -/
theorem refine_eq {k : Lock} {n fill : Nat} {measured ratio : Int}
    (hm : measured = max 611669 (min 2184533 ((2 * (n * 1048576) + 4800) / 9600)))
    (hr : ratio = max 611669 (min 2184533 (k.ratio + (measured - k.ratio).tdiv 16 + (fill - 32) * 8))) :
    k.refine n fill = { k with ratio := ratio.toNat, nRef := ((2 * (ratio * 4800) + 1048576) / 2097152).toNat } := by
  have hmeasured : (measuredRatio n : Int) = measured := by
    subst hm
    simp only [measuredRatio, clampNat, Config.ratioMin, Config.ratioMax, roundDiv, Config.unit20, Config.blockLength]
    split <;> omega
  have hratio : clampInt (Config.ratioMin : Nat) (Config.ratioMax : Nat)
      ((k.ratio : Int) + ((measuredRatio n : Int) - k.ratio).tdiv 16 + ((fill : Int) - 32) * 8) = ratio := by
    rw [hmeasured, hr]; rfl
  have hpos : (ratio.toNat : Int) = ratio := by subst hr; omega
  have href : refCount ratio.toNat = ((2 * (ratio * 4800) + 1048576) / 2097152).toNat := by
    simp only [refCount, roundDiv, Config.blockLength, Config.unit20]
    split <;> omega
  simp only [Lock.refine, hratio, href]

/-- Settles O17. -/
theorem windowsAreJudgedByTheState : Obligations.WindowsAreJudgedByTheState := by
  intro c n
  refine ⟨fun h => judgeWindow_off h n, fun h => ?_, fun prev tally h => ?_, fun good hgood => ⟨fun k h => ?_, fun k bad h => ?_⟩⟩
  · rw [judgeWindow_seek h]
    exact ⟨fun hn => by rw [if_pos ((inRange_iff n).mpr hn)]; rfl,
      fun hn => by rw [if_neg (by rw [inRange_iff]; omega)]; rfl, rfl, rfl⟩
  · rw [judgeWindow_acquire h]
    refine ⟨fun hn => ?_, fun h1 h2 => ?_, rfl, rfl⟩
    · rw [if_pos (by rw [Bool.not_eq_true', ← Bool.not_eq_true, inRange_iff]; omega)]; rfl
    · rw [if_neg (by rw [(inRange_iff n).mpr ⟨h1, h2⟩]; decide)]
      refine ⟨fun hd => ?_, fun hd ht => ?_, fun hd ht a ha => ?_⟩
      · rw [if_neg (by omega)]; rfl
      · rw [if_pos hd, if_neg (by omega)]; rfl
      · rw [if_pos hd, if_pos ht, recentreNewest_of_getLast ha]; rfl
  · rw [judgeWindow_locked h]
    refine ⟨fun hg measured ratio hm hr => ?_, fun hg => ?_, rfl, rfl⟩
    · rw [if_pos ((goodWindow_iff _ _).mpr ((hgood _).mp hg)), refine_eq hm hr]; rfl
    · rw [if_neg (by rw [goodWindow_iff, ← hgood]; exact hg)]; rfl
  · have hb (hg : ¬ good k.nRef) : goodWindow k.nRef n = false := by
      rw [← Bool.not_eq_true, goodWindow_iff, ← hgood]; exact hg
    refine ⟨fun hg => ?_, fun hg ht => ?_, fun hg ht => ?_⟩
    · rw [judgeWindow_holdover_good h ((goodWindow_iff _ _).mpr ((hgood _).mp hg))]
      refine ⟨fun h4 h59 => ?_, fun h60 => ?_, fun h3 a ha => ?_⟩
      · rw [if_neg (by omega), if_neg (by omega)]; rfl
      · rw [if_pos h60]; rfl
      · rw [if_neg (by omega), if_pos h3, refill_of_lastRead (c := { c with n := n, state := .locked k }) ha]
    · rw [judgeWindow_holdover_bad h (hb hg), if_pos ht]; rfl
    · rw [judgeWindow_holdover_bad h (hb hg), if_neg (by omega)]

/-! ### The lock of a window in range (sections 2.4 and 2.5) -/

theorem measuredRatio_eq {n : Nat} (h1 : 2800 ≤ n) (h2 : n ≤ 10000) :
    measuredRatio n = (2 * (n * 1048576) + 4800) / 9600 := by
  simp only [measuredRatio, clampNat, Config.ratioMin, Config.ratioMax, roundDiv, Config.unit20, Config.blockLength]
  split <;> omega

theorem refCount_measuredRatio {n : Nat} (h1 : 2800 ≤ n) (h2 : n ≤ 10000) : refCount (measuredRatio n) = n := by
  rw [measuredRatio_eq h1 h2]
  simp only [refCount, roundDiv, Config.blockLength, Config.unit20]
  split <;> omega

/-- A ratio within its limits has a declared latency of 32 to 51 (R22). -/
theorem latency_bounds {r : Nat} (h1 : 611669 ≤ r) (h2 : r ≤ 2184533) : 32 ≤ latency r ∧ latency r ≤ 51 := by
  simp only [latency, roundHalfUp, Config.unit20]
  constructor
  · have : 8 ≤ (2 * (16 * 1048576) + r) / (2 * r) := by rw [Nat.le_div_iff_mul_le (by omega)]; omega
    omega
  · have : (2 * (16 * 1048576) + r) / (2 * r) < 28 := by rw [Nat.div_lt_iff_lt_mul (by omega)]; omega
    omega

theorem roundHalfUp_eq_floor (n d : Nat) (hd : 0 < d) : (roundHalfUp n d : ℤ) = ⌊(n : ℚ) / d + 1 / 2⌋ := by
  have hq : (n : ℚ) / d + 1 / 2 = ((2 * n + d : ℕ) : ℚ) / ((2 * d : ℕ) : ℚ) := by
    have : (d : ℚ) ≠ 0 := by exact_mod_cast hd.ne'
    push_cast
    field_simp
  rw [hq, Rat.floor_natCast_div_natCast]
  rfl

/-- Settles O18. -/
theorem lockValuesOfAWindowInRange : Obligations.LockValuesOfAWindowInRange := by
  intro n h1 h2
  have hr := measuredRatio_eq h1 h2
  have hlo : 611669 ≤ measuredRatio n := by omega
  have hhi : measuredRatio n ≤ 2184533 := by omega
  obtain ⟨hc1, hc2⟩ := latency_bounds hlo hhi
  refine ⟨?_, hlo, hhi, refCount_measuredRatio h1 h2, hc1, hc2, ?_, ?_⟩
  · show (measuredRatio n : Int) = _
    rw [hr, roundDiv, if_pos (by omega)]
    omega
  · show ((24 + roundHalfUp (16 * Config.unit20) (measuredRatio n) : Nat) : ℤ) = _
    rw [Nat.cast_add, roundHalfUp_eq_floor _ _ (by omega)]
    norm_num [Config.unit20]
    rfl
  · show (familyOf (refCount (measuredRatio n)) = _ ↔ _) ∧ (familyOf (refCount (measuredRatio n)) = _ ↔ _) ∧
      (familyOf (refCount (measuredRatio n)) = _ ↔ _) ∧ (familyOf (refCount (measuredRatio n)) = _ ↔ _) ∧
      (familyOf (refCount (measuredRatio n)) = _ ↔ _) ∧ (familyOf (refCount (measuredRatio n)) = _ ↔ _)
    rw [refCount_measuredRatio h1 h2]
    unfold familyOf
    split_ifs <;> simp only [false_iff, true_iff] <;> omega

end Sys2Proof.Machine
end

