-- ==== Sys2Proof/Proofs/Allocator.lean ====
section
/-! PROOFS. The page allocator's list (section 3.5): first fit, and a release merged with its neighbours. -/

namespace Sys2Proof.Machine

/-- The free list ascends, no two entries adjacent (R49). -/
def Ascending (fl : List Extent) : Prop := fl.Pairwise (fun a b => a.start + a.len < b.start)

/-- The page is free. -/
def freePage (fl : List Extent) (page : Nat) : Prop := ∃ e ∈ fl, e.has page

theorem freePage_nil (page : Nat) : ¬ freePage [] page := fun ⟨_, h, _⟩ => by simp at h

theorem freePage_cons (e : Extent) (t : List Extent) (page : Nat) : freePage (e :: t) page ↔ e.has page ∨ freePage t page := by
  simp [freePage]

theorem ascending_cons {e : Extent} {t : List Extent} : Ascending (e :: t) ↔ (∀ f ∈ t, e.start + e.len < f.start) ∧ Ascending t :=
  List.pairwise_cons

/-! ### Allocation (R50) -/

theorem allocate_cons (e : Extent) (t : List Extent) (n : Nat) : allocate (e :: t) n =
    if n = e.len then some (e.start, t)
    else if n < e.len then some (e.start, ⟨e.start + n, e.len - n⟩ :: t)
    else (allocate t n).map (fun r => (r.1, e :: r.2)) := rfl

theorem allocate_eq_none_iff (fl : List Extent) (n : Nat) : allocate fl n = none ↔ ∀ e ∈ fl, e.len < n := by
  induction fl with
  | nil => simp [allocate]
  | cons e t ih =>
    rw [List.forall_mem_cons, ← ih, allocate_cons]
    split
    · simp; omega
    · split
      · simp; omega
      · rw [Option.map_eq_none_iff]
        exact ⟨fun h => ⟨by omega, h⟩, fun h => h.2⟩

/-- What is left of an entry behind a grant of `n` pages from it. -/
def Extent.behind (e : Extent) (n : Nat) : List Extent := if n = e.len then [] else [⟨e.start + n, e.len - n⟩]

/-- A grant is from the first entry long enough. -/
theorem allocate_eq_some {fl free : List Extent} {n start : Nat} (h : allocate fl n = some (start, free)) :
    ∃ pre e post, fl = pre ++ e :: post ∧ (∀ d ∈ pre, d.len < n) ∧ n ≤ e.len ∧ start = e.start
      ∧ free = pre ++ (e.behind n ++ post) := by
  induction fl generalizing free with
  | nil => cases h
  | cons e t ih =>
    rw [allocate_cons] at h
    split at h
    · next hn =>
      cases h
      exact ⟨[], e, t, rfl, by simp, hn.le, rfl, by simp [Extent.behind, hn]⟩
    · next hn =>
      split at h
      · next hlt =>
        cases h
        exact ⟨[], e, t, rfl, by simp, hlt.le, rfl, by simp [Extent.behind, hn]⟩
      · next hlt =>
        cases ha : allocate t n with
        | none => rw [ha] at h; cases h
        | some r =>
          rw [ha, Option.map_some] at h
          cases h
          obtain ⟨pre, d, post, rfl, hpre, hd, hs, hf⟩ := ih ha
          exact ⟨e :: pre, d, post, rfl, by simp only [List.forall_mem_cons]; exact ⟨by omega, hpre⟩, hd, hs, by rw [hf]; rfl⟩

theorem behind_facts {e : Extent} {n : Nat} (h1 : 1 ≤ n) (hn : n ≤ e.len) {f : Extent} (hf : f ∈ e.behind n) :
    e.start < f.start ∧ f.start + f.len = e.start + e.len ∧ 1 ≤ f.len := by
  unfold Extent.behind at hf
  split at hf
  · simp at hf
  · rw [List.mem_singleton] at hf
    subst hf
    dsimp only
    omega

theorem behind_ascending (e : Extent) (n : Nat) : Ascending (e.behind n) := by
  unfold Extent.behind Ascending
  split <;> simp

theorem ascending_append {xs ys : List Extent} :
    Ascending (xs ++ ys) ↔ Ascending xs ∧ Ascending ys ∧ ∀ a ∈ xs, ∀ b ∈ ys, a.start + a.len < b.start := List.pairwise_append

/-- A grant leaves the list ascending, and no entry empty. -/
theorem allocate_ascending {fl free : List Extent} {n start : Nat} (hasc : Ascending fl) (hlen : ∀ e ∈ fl, 1 ≤ e.len) (h1 : 1 ≤ n)
    (h : allocate fl n = some (start, free)) : Ascending free ∧ ∀ e ∈ free, 1 ≤ e.len := by
  obtain ⟨pre, e, post, rfl, -, hn, -, rfl⟩ := allocate_eq_some h
  obtain ⟨ha, hb, hc⟩ := ascending_append.mp hasc
  obtain ⟨hepost, hpost⟩ := ascending_cons.mp hb
  refine ⟨ascending_append.mpr ⟨ha, ascending_append.mpr ⟨behind_ascending e n, hpost, fun f hf b hb => ?_⟩, fun a ha f hf => ?_⟩,
    fun f hf => ?_⟩
  · obtain ⟨-, hend, -⟩ := behind_facts h1 hn hf
    rw [hend]; exact hepost b hb
  · rcases List.mem_append.mp hf with hf | hf
    · obtain ⟨hlt, -, -⟩ := behind_facts h1 hn hf
      have := hc a ha e (by simp)
      omega
    · exact hc a ha f (by simp [hf])
  · rcases List.mem_append.mp hf with hf | hf
    · exact hlen f (by simp [hf])
    · rcases List.mem_append.mp hf with hf | hf
      · exact (behind_facts h1 hn hf).2.2
      · exact hlen f (by simp [hf])

/-- The pages free before a grant are those free after it and those granted, and no page is both. -/
theorem allocate_pages {fl free : List Extent} {n start : Nat} (hasc : Ascending fl) (h1 : 1 ≤ n)
    (h : allocate fl n = some (start, free)) (page : Nat) :
    (freePage fl page ↔ freePage free page ∨ Extent.has ⟨start, n⟩ page) ∧ ¬ (freePage free page ∧ Extent.has ⟨start, n⟩ page) := by
  obtain ⟨pre, e, post, rfl, -, hn, rfl, rfl⟩ := allocate_eq_some h
  obtain ⟨ha, hb, hc⟩ := ascending_append.mp hasc
  obtain ⟨hepost, hpost⟩ := ascending_cons.mp hb
  have happ (xs ys : List Extent) : freePage (xs ++ ys) page ↔ freePage xs page ∨ freePage ys page := by
    simp [freePage, or_and_right, exists_or]
  have hsplit : e.has page ↔ freePage (e.behind n) page ∨ Extent.has ⟨e.start, n⟩ page := by
    unfold Extent.behind
    split
    · next hne => subst hne; simp [freePage, Extent.has]
    · simp only [freePage, List.mem_singleton, exists_eq_left, Extent.has]; omega
  have hdisj : ¬ (freePage (e.behind n) page ∧ Extent.has ⟨e.start, n⟩ page) := by
    unfold Extent.behind
    split
    · simp [freePage]
    · simp only [freePage, List.mem_singleton, exists_eq_left, Extent.has]; omega
  constructor
  · rw [happ, happ, happ, freePage_cons, hsplit]; tauto
  · rw [happ, happ]
    rintro ⟨hp | hp | hp, hg⟩
    · obtain ⟨d, hd, hdp⟩ := hp
      have := hc d hd e (by simp)
      simp only [Extent.has] at hdp hg
      omega
    · exact hdisj ⟨hp, hg⟩
    · obtain ⟨d, hd, hdp⟩ := hp
      have := hepost d hd
      simp only [Extent.has] at hdp hg
      omega

/-! ### Release (R51) -/

/-- What a release leaves: every bound on the starts that the list and the extent keep, kept; entries and gaps as they should be;
and exactly the pages of both. -/
theorem release_facts {fl : List Extent} {x : Extent} (hasc : Ascending fl) (hlen : ∀ e ∈ fl, 1 ≤ e.len) (hx : 1 ≤ x.len)
    (hfree : ∀ page, x.has page → ¬ freePage fl page) :
    (∀ k, (∀ e ∈ fl, k < e.start) → k < x.start → ∀ e ∈ release fl x, k < e.start)
    ∧ Ascending (release fl x) ∧ (∀ e ∈ release fl x, 1 ≤ e.len)
    ∧ ∀ page, freePage (release fl x) page ↔ freePage fl page ∨ x.has page := by
  induction fl with
  | nil =>
    refine ⟨fun k _ hk e he => ?_, ?_, fun e he => ?_, fun page => ?_⟩
    · simp only [release, List.mem_singleton] at he; exact he ▸ hk
    · exact List.pairwise_singleton _ _
    · simp only [release, List.mem_singleton] at he; exact he ▸ hx
    · simp [release, freePage]
  | cons e t ih =>
    obtain ⟨het, ht⟩ := ascending_cons.mp hasc
    obtain ⟨hel, htl⟩ := List.forall_mem_cons.mp hlen
    have hdis : x.start + x.len ≤ e.start ∨ e.start + e.len ≤ x.start := by
      by_contra hcon
      exact hfree (max x.start e.start) (by simp only [Extent.has]; omega)
        ⟨e, by simp, by simp only [Extent.has]; omega⟩
    have hfree' : ∀ page, x.has page → ¬ freePage t page := fun page hp hf =>
      hfree page hp ((freePage_cons e t page).mpr (.inr hf))
    unfold release
    split
    · next hadj =>
      refine ⟨fun k hk hkx f hf => ?_, ascending_cons.mpr ⟨fun f hf => ?_, ht⟩, ?_, fun page => ?_⟩
      · rcases List.mem_cons.mp hf with rfl | hf
        · exact hkx
        · exact hk f (by simp [hf])
      · have := het f hf; dsimp only; omega
      · simp only [List.forall_mem_cons]; exact ⟨by omega, htl⟩
      · simp only [freePage_cons, Extent.has]
        constructor
        · rintro (h | h)
          · omega
          · exact .inl (.inr h)
        · rintro ((h | h) | h)
          · exact .inl (by omega)
          · exact .inr h
          · exact .inl (by omega)
    · next hadj =>
      split
      · next hlt =>
        refine ⟨fun k hk hkx => ?_, ascending_cons.mpr ⟨fun f hf => ?_, hasc⟩, ?_, fun page => ?_⟩
        · simp only [List.forall_mem_cons] at hk ⊢; exact ⟨hkx, hk⟩
        · rcases List.mem_cons.mp hf with rfl | hf
          · omega
          · have := het f hf; omega
        · simp only [List.forall_mem_cons]; exact ⟨hx, hel, htl⟩
        · simp only [freePage_cons]; tauto
      · next hlt =>
        split
        · next hend =>
          cases t with
          | nil =>
            refine ⟨fun k hk hkx => ?_, List.pairwise_singleton _ _, ?_, fun page => ?_⟩
            · simp only [List.forall_mem_cons, List.not_mem_nil, false_imp_iff, implies_true, and_true] at hk ⊢; exact hk
            · simp only [List.forall_mem_cons, List.not_mem_nil, false_imp_iff, implies_true, and_true]; omega
            · simp only [freePage_cons, freePage_nil, or_false, Extent.has]; omega
          | cons f t' =>
            obtain ⟨hft, ht'⟩ := ascending_cons.mp ht
            obtain ⟨hfl, htl'⟩ := List.forall_mem_cons.mp htl
            have hef := het f (by simp)
            have hxf : x.start + x.len ≤ f.start := by
              by_contra hcon
              exact hfree (max x.start f.start) (by simp only [Extent.has]; omega)
                ⟨f, by simp, by simp only [Extent.has]; omega⟩
            dsimp only
            split
            · next hmid =>
              refine ⟨fun k hk hkx => ?_, ascending_cons.mpr ⟨fun d hd => ?_, ht'⟩, ?_, fun page => ?_⟩
              · simp only [List.forall_mem_cons] at hk ⊢; exact ⟨hk.1, hk.2.2⟩
              · have := hft d hd; dsimp only; omega
              · simp only [List.forall_mem_cons]; exact ⟨by omega, htl'⟩
              · simp only [freePage_cons, Extent.has]
                constructor
                · rintro (h | h)
                  · omega
                  · exact .inl (.inr (.inr h))
                · rintro ((h | h | h) | h)
                  · exact .inl (by omega)
                  · exact .inl (by omega)
                  · exact .inr h
                  · exact .inl (by omega)
            · next hmid =>
              refine ⟨fun k hk hkx => ?_, ascending_cons.mpr ⟨fun d hd => ?_, ht⟩, ?_, fun page => ?_⟩
              · simp only [List.forall_mem_cons] at hk ⊢; exact hk
              · rcases List.mem_cons.mp hd with rfl | hd
                · dsimp only; omega
                · have := hft d hd; dsimp only; omega
              · simp only [List.forall_mem_cons]; exact ⟨by omega, hfl, htl'⟩
              · simp only [freePage_cons, Extent.has]
                constructor
                · rintro (h | h | h)
                  · omega
                  · exact .inl (.inr (.inl h))
                  · exact .inl (.inr (.inr h))
                · rintro ((h | h | h) | h)
                  · exact .inl (by omega)
                  · exact .inr (.inl h)
                  · exact .inr (.inr h)
                  · exact .inl (by omega)
        · next hend =>
          obtain ⟨hb, ha, hl, hp⟩ := ih ht htl hfree'
          refine ⟨fun k hk hkx => ?_, ascending_cons.mpr ⟨hb _ het (by omega), ha⟩, ?_, fun page => ?_⟩
          · simp only [List.forall_mem_cons] at hk ⊢
            exact ⟨hk.1, hb k hk.2 hkx⟩
          · simp only [List.forall_mem_cons]; exact ⟨hel, hl⟩
          · rw [freePage_cons, freePage_cons, hp, or_assoc]

/-- Settles O25. -/
theorem allocatorGrantsFirstFitAndMerges : Obligations.AllocatorGrantsFirstFitAndMerges := by
  intro fl hasc hlen
  refine ⟨allocate_eq_none_iff fl, fun n start free h1 h => ⟨?_, allocate_ascending hasc hlen h1 h⟩, fun x hx hfree => ?_⟩
  · obtain ⟨pre, e, post, hfl, hpre, hn, hs, hf⟩ := allocate_eq_some h
    refine ⟨pre, e, post, hfl, hpre, hn, hs, ?_⟩
    rw [hf, Extent.behind]
    split <;> rfl
  · obtain ⟨-, ha, hl, hp⟩ := release_facts hasc hlen hx hfree
    exact ⟨ha, hl, fun page => (hp page).trans or_comm⟩

end Sys2Proof.Machine
end

