-- ==== Sys2Proof/Proofs/PagesAndLanes.lean ====
section
/-! PROOFS. Every step keeps the page allocator's law, the lanes' law, the law of the feeding links and the output stage
(sections 3.2 to 3.5). The first two read of the programmes only what they hold and how far a CLEARING one has come. -/

namespace Sys2Proof.Machine

variable {s t : State}

/-! ### What the laws read -/

/-- The page law and the lane law. -/
def State.spaceSafe (s : State) : Prop := s.pagesSafe ∧ s.lanesSafe

/-- A CLEARING programme has pages of its extent left (R52). -/
def Life.clearingSafe (x : Life) : Prop := ∀ h left k, x = .clearing h left k → 1 ≤ left ∧ left ≤ h.extent.len

theorem spaceSafe_clearing (h : s.spaceSafe) (p : Fin 8) : (s.prog p).life.clearingSafe := h.1.2.2.2.2.2.2 p

theorem spaceSafe_of_held (hf : t.freeList = s.freeList) (hh : ∀ p, (t.prog p).life.held? = (s.prog p).life.held?)
    (hd : ∀ p, (t.prog p).dmax = (s.prog p).dmax) (hc : ∀ p, (t.prog p).life.clearingSafe) (h : s.spaceSafe) : t.spaceSafe := by
  have he (p : Fin 8) : (t.prog p).life.extent? = (s.prog p).life.extent? := by simp only [Life.extent?, hh]
  have hp (p : Fin 8) (page : Nat) : t.holdsPage p page ↔ s.holdsPage p page := by simp only [State.holdsPage, he]
  have hl (p : Fin 8) : (t.prog p).life.lanes = (s.prog p).life.lanes := by simp only [Life.lanes, hh]
  obtain ⟨⟨h1, h2, h3, h4, h5, h6, -⟩, h8, h9⟩ := h
  refine ⟨⟨hf ▸ h1, hf ▸ h2, fun p e => he p ▸ h3 p e, fun page hpage => ?_, fun page p hpp => ?_, fun page p q hpp hq => ?_, hc⟩, fun p x => ?_,
    fun p q n => ?_⟩
  · simp only [hp, hf]; exact h4 page hpage
  · rw [hf]; exact h5 page p ((hp p page).mp hpp)
  · exact h6 page p q ((hp p page).mp hpp) ((hp q page).mp hq)
  · rw [hh, hd]; exact h8 p x
  · rw [hl, hl]; exact h9 p q n

/-- What changes units only keeps the laws of the space. -/
theorem spaceSafe_of_units (hf : t.freeList = s.freeList) (hu : s.sameButUnits t) (h : s.spaceSafe) : t.spaceSafe :=
  spaceSafe_of_held hf (fun p => by rw [hu.life p]) (fun p => by rw [hu p]) (fun p => by rw [hu.life p]; exact spaceSafe_clearing h p) h

theorem spaceSafe_reads : Reads [.freeList, .progs] State.spaceSafe := fun s t h =>
  have hp : s.progs = t.progs := h .progs (by simp)
  spaceSafe_of_units (h .freeList (by simp) : s.freeList = t.freeList).symm (fun p => by rw [State.prog_congr hp])

/-- A programme replaced by one that holds the same keeps the laws of the space. -/
theorem setProg_spaceSafe {p : Fin 8} {x : Programme} (hh : x.life.held? = (s.prog p).life.held?) (hd : x.dmax = (s.prog p).dmax)
    (hc : x.life.clearingSafe) (h : s.spaceSafe) : (s.setProg p x).spaceSafe := by
  have main (k : Fin 8) : ((s.setProg p x).prog k).life.held? = (s.prog k).life.held?
      ∧ ((s.setProg p x).prog k).dmax = (s.prog k).dmax ∧ ((s.setProg p x).prog k).life.clearingSafe := by
    by_cases hk : k = p
    · subst hk; rw [State.prog_setProg]; exact ⟨hh, hd, hc⟩
    · rw [State.prog_setProg_ne s hk]; exact ⟨rfl, rfl, spaceSafe_clearing h k⟩
  exact spaceSafe_of_held (s := s) rfl (fun k => (main k).1) (fun k => (main k).2.1) (fun k => (main k).2.2) h

/-! ### Opening (R46 to R50) -/

theorem ringLength_facts (d : Nat) : 512 ≤ ringLength d ∧ ringLength d % 512 = 0 := by unfold ringLength; omega

theorem pagesNeeded_pos {n : Nat} (h : 1 ≤ n) (d : Nat) : 1 ≤ pagesNeeded n d := by
  have h1 := (ringLength_facts d).1
  have h2 : 1 * 512 ≤ n * ringLength d := Nat.mul_le_mul h h1
  unfold pagesNeeded
  omega

/-- A request in range names 1 to 8 lanes, none twice, and a maximum delay of at most 192,000 (R46). -/
theorem inRange_facts {x : OpenRequest} {p : Fin 8} {ls : List LaneWeight} {g : Option (Fin 4)} (h : x.inRange? = some (p, ls, g)) :
    1 ≤ ls.length ∧ ls.length ≤ 8 ∧ (ls.map LaneWeight.lane).Nodup ∧ x.dmax ≤ 192000 := by
  unfold OpenRequest.inRange? at h
  split at h
  · split at h
    · next hc =>
      simp only [Option.some.injEq, Prod.mk.injEq] at h
      obtain ⟨-, rfl, -⟩ := h
      exact ⟨hc.1, hc.2.1, by simpa [distinctLanes] using hc.2.2.1, hc.2.2.2⟩
    · cases h
  · cases h

theorem holdsPage_iff (s : State) (p : Fin 8) (page : Nat) : s.holdsPage p page ↔ ∃ e, (s.prog p).life.extent? = some e ∧ e.has page :=
  Iff.rfl

theorem mem_lanes_iff (x : Life) (n : Fin 32) : hasLane x.lanes n = true ↔ ∃ h, x.held? = some h ∧ ∃ lw ∈ h.lanes, lw.lane = n := by
  cases x <;> simp [Life.lanes, Life.held?, hasLane]

theorem laneTaken_eq_false (s : State) (n : Fin 32) : s.laneTaken n = false ↔ ∀ p, hasLane (s.prog p).life.lanes n = false := by
  simp [State.laneTaken]

theorem opened_spaceSafe {x : OpenRequest} {p : Fin 8} {ls : List LaneWeight} {g : Option (Fin 4)} {start : Nat} {free : List Extent}
    (hx : x.inRange? = some (p, ls, g)) (hc : (s.prog p).life.isClosed = true) (hl : ∀ lw ∈ ls, s.laneTaken lw.lane = false)
    (ha : allocate s.freeList (pagesNeeded ls.length x.dmax) = some (start, free)) (h : s.spaceSafe) :
    (s.opened x p ls g start free).spaceSafe := by
  obtain ⟨hn1, hn8, hnd, hdmax⟩ := inRange_facts hx
  obtain ⟨⟨h1, h2, h3, h4, h5, h6, h7⟩, h8, h9⟩ := h
  have hneed := pagesNeeded_pos hn1 x.dmax
  have hpages := allocate_pages h1 hneed ha
  obtain ⟨hasc, hfree⟩ := allocate_ascending h1 (fun e he => (h2 e he).1) hneed ha
  have hp : (s.opened x p ls g start free).prog p = openedProgramme x ls g ⟨start, pagesNeeded ls.length x.dmax⟩ := State.prog_setProg _ p _
  have hq {k : Fin 8} (hk : k ≠ p) : (s.opened x p ls g start free).prog k = s.prog k := State.prog_setProg_ne _ hk _
  have hclosed : (s.prog p).life = .closed := by cases hlife : (s.prog p).life <;> rw [hlife] at hc <;> first | rfl | cases hc
  have hnone (page : Nat) : ¬ s.holdsPage p page := by rintro ⟨e, he, -⟩; rw [hclosed] at he; cases he
  have hgrant (page : Nat) (hg : Extent.has ⟨start, pagesNeeded ls.length x.dmax⟩ page) : freePage s.freeList page :=
    (hpages page).1.mpr (.inr hg)
  have hholds (k : Fin 8) (page : Nat) : (s.opened x p ls g start free).holdsPage k page
      ↔ s.holdsPage k page ∨ (k = p ∧ Extent.has ⟨start, pagesNeeded ls.length x.dmax⟩ page) := by
    by_cases hk : k = p
    · subst hk
      rw [holdsPage_iff, hp]
      simp [openedProgramme, Life.extent?, Life.held?, hnone]
    · rw [holdsPage_iff, hq hk, ← holdsPage_iff]; simp [hk]
  have hend : start + pagesNeeded ls.length x.dmax ≤ Config.pages := by
    obtain ⟨pre, e, post, hfl, -, hle, rfl, -⟩ := allocate_eq_some ha
    have := (h2 e (by rw [hfl]; simp)).2
    omega
  refine ⟨⟨hasc, fun e he => ⟨hfree e he, ?_⟩, fun k e he => ?_, fun page hpage => ?_, fun page k hk hf => ?_,
    fun page k q hk hk' => ?_, fun k y left c hy => ?_⟩, fun k y hy => ?_, fun k q n hk hk' => ?_⟩
  · have hmem : (freePage s.freeList (e.start + e.len - 1)) :=
      ((hpages _).1).mpr (.inl ⟨e, he, by have := hfree e he; simp only [Extent.has]; omega⟩)
    obtain ⟨d, hd, hhas⟩ := hmem
    have := h2 d hd
    have := hfree e he
    simp only [Extent.has] at hhas
    omega
  · by_cases hk : k = p
    · subst hk
      rw [hp] at he
      simp only [openedProgramme, Life.extent?, Life.held?, Option.map_some, Option.some.injEq] at he
      rw [← he]; exact hend
    · rw [hq hk] at he; exact h3 k e he
  · rcases h4 page hpage with hf | ⟨k, hk⟩
    · rcases (hpages page).1.mp hf with hf | hg
      · exact .inl hf
      · exact .inr ⟨p, (hholds p page).mpr (.inr ⟨rfl, hg⟩)⟩
    · exact .inr ⟨k, (hholds k page).mpr (.inl hk)⟩
  · rcases (hholds k page).mp hk with hk | ⟨-, hg⟩
    · exact h5 page k hk ((hpages page).1.mpr (.inl hf))
    · exact (hpages page).2 ⟨hf, hg⟩
  · rcases (hholds k page).mp hk with hk1 | ⟨hkp, hg⟩ <;> rcases (hholds q page).mp hk' with hq1 | ⟨hqp, hg'⟩
    · exact h6 page k q hk1 hq1
    · exact absurd (hgrant page hg') (h5 page k hk1)
    · exact absurd (hgrant page hg) (h5 page q hq1)
    · rw [hkp, hqp]
  · by_cases hk : k = p
    · subst hk
      rw [hp] at hy
      simp only [openedProgramme, Life.clearing.injEq] at hy
      obtain ⟨rfl, rfl, -⟩ := hy
      exact ⟨hneed, le_refl _⟩
    · rw [hq hk] at hy; exact h7 k y left c hy
  · by_cases hk : k = p
    · subst hk
      rw [hp] at hy ⊢
      simp only [openedProgramme, Life.held?, Option.some.injEq] at hy
      subst hy
      exact ⟨hn1, hn8, hnd, hdmax, rfl, rfl⟩
    · rw [hq hk] at hy ⊢; exact h8 k y hy
  · have old (j : Fin 8) (hj : j ≠ p) (hlane : hasLane ((s.opened x p ls g start free).prog j).life.lanes n = true) :
        hasLane (s.prog j).life.lanes n = true := by rwa [hq hj] at hlane
    have new (hlane : hasLane ((s.opened x p ls g start free).prog p).life.lanes n = true) (j : Fin 8) :
        hasLane (s.prog j).life.lanes n = false := by
      rw [hp, mem_lanes_iff] at hlane
      obtain ⟨y, hy, lw, hlw, rfl⟩ := hlane
      simp only [openedProgramme, Life.held?, Option.some.injEq] at hy
      subst hy
      exact (laneTaken_eq_false s lw.lane).mp (hl lw hlw) j
    by_cases hkp : k = p <;> by_cases hqp : q = p
    · rw [hkp, hqp]
    · subst hkp; exact absurd ((new hk q).symm.trans (old q hqp hk')) (by decide)
    · subst hqp; exact absurd ((new hk' k).symm.trans (old k hkp hk)) (by decide)
    · exact h9 k q n (old k hkp hk) (old q hqp hk')

/-! ### Closing (R51, R58, R59) -/

/-- A programme that is closed gives its extent back. -/
theorem closed_spaceSafe {p : Fin 8} {e : Held} {x : Programme} (hl : (s.prog p).life.held? = some e) (hx : x.life = .closed)
    (h : s.spaceSafe) : ((s.setProg p x).releaseExtent e.extent).spaceSafe := by
  obtain ⟨⟨h1, h2, h3, h4, h5, h6, h7⟩, h8, h9⟩ := h
  have hext : (s.prog p).life.extent? = some e.extent := by rw [Life.extent?, hl]; rfl
  have hp : ((s.setProg p x).releaseExtent e.extent).prog p = x := State.prog_setProg _ p _
  have hq {k : Fin 8} (hk : k ≠ p) : ((s.setProg p x).releaseExtent e.extent).prog k = s.prog k := State.prog_setProg_ne _ hk _
  have hlen : 1 ≤ e.extent.len := by
    obtain ⟨hn, -, -, -, hrl, hel⟩ := h8 p e hl
    have h512 := (ringLength_facts (s.prog p).dmax).1
    have : 1 * 512 ≤ e.lanes.length * e.rl := Nat.mul_le_mul hn (hrl ▸ h512)
    omega
  have hown (page : Nat) (hg : e.extent.has page) : s.holdsPage p page := ⟨e.extent, hext, hg⟩
  obtain ⟨-, hasc, hfree, hpages⟩ := release_facts h1 (fun d hd => (h2 d hd).1) hlen (fun page hg => h5 page p (hown page hg))
  have hholds (k : Fin 8) (page : Nat) : ((s.setProg p x).releaseExtent e.extent).holdsPage k page ↔ k ≠ p ∧ s.holdsPage k page := by
    by_cases hk : k = p
    · subst hk
      rw [holdsPage_iff, hp, hx]
      simp [Life.extent?, Life.held?]
    · rw [holdsPage_iff, hq hk, ← holdsPage_iff]; simp [hk]
  refine ⟨⟨hasc, fun d hd => ⟨hfree d hd, ?_⟩, fun k d hd => ?_, fun page hpage => ?_, fun page k hk hf => ?_, fun page k q hk hk' => ?_,
    fun k y left c hy => ?_⟩, fun k y hy => ?_, fun k q n hk hk' => ?_⟩
  · have hmem := (hpages (d.start + d.len - 1)).mp ⟨d, hd, by have := hfree d hd; simp only [Extent.has]; omega⟩
    have := hfree d hd
    rcases hmem with ⟨f, hf, hhas⟩ | hhas
    · have := (h2 f hf).2; simp only [Extent.has] at hhas; omega
    · have := h3 p e.extent hext; simp only [Extent.has] at hhas; omega
  · by_cases hk : k = p
    · subst hk; rw [hp, hx] at hd; cases hd
    · rw [hq hk] at hd; exact h3 k d hd
  · rcases h4 page hpage with hf | ⟨k, hk⟩
    · exact .inl ((hpages page).mpr (.inl hf))
    · by_cases hkp : k = p
      · subst hkp
        obtain ⟨d, hd, hhas⟩ := hk
        rw [hext, Option.some.injEq] at hd
        exact .inl ((hpages page).mpr (.inr (hd ▸ hhas)))
      · exact .inr ⟨k, (hholds k page).mpr ⟨hkp, hk⟩⟩
  · obtain ⟨hkp, hk⟩ := (hholds k page).mp hk
    rcases (hpages page).mp hf with hf | hg
    · exact h5 page k hk hf
    · exact hkp (h6 page k p hk (hown page hg))
  · exact h6 page k q ((hholds k page).mp hk).2 ((hholds q page).mp hk').2
  · by_cases hk : k = p
    · subst hk; rw [hp, hx] at hy; cases hy
    · rw [hq hk] at hy; exact h7 k y left c hy
  · by_cases hk : k = p
    · subst hk; rw [hp, hx] at hy; cases hy
    · rw [hq hk] at hy ⊢; exact h8 k y hy
  · have old (j : Fin 8) (hlane : hasLane (((s.setProg p x).releaseExtent e.extent).prog j).life.lanes n = true) :
        hasLane (s.prog j).life.lanes n = true := by
      by_cases hj : j = p
      · subst hj; rw [hp, hx] at hlane; simp [Life.lanes, Life.held?, hasLane] at hlane
      · rwa [hq hj] at hlane
    exact h9 k q n (old k hk) (old q hk')

/-! ### House time -/

theorem clearStep_spaceSafe (p : Fin 8) (h : s.spaceSafe) : (s.clearStep p).spaceSafe := by
  have hc := spaceSafe_clearing h p
  unfold State.clearStep
  split
  · next e left k hl =>
    obtain ⟨h1, h2⟩ := hc e left k hl
    have held (x : Life) (hx : x.held? = some e) (hs : x.clearingSafe) (m : List (Nat × Slot)) :
        (State.setLife { s with mem := m } p x).spaceSafe :=
      setProg_spaceSafe (s := { s with mem := m }) (by rw [hx]; exact (by rw [hl]; rfl : (s.prog p).life.held? = some e).symm) rfl hs h
    split
    · exact held _ rfl (fun e' l' k' he => by cases he; exact ⟨h1, h2⟩) s.mem
    · dsimp only
      split
      · exact held _ rfl (fun e' l' k' he => by cases he) _
      · exact held _ rfl (fun e' l' k' he => by cases he; exact ⟨by omega, by omega⟩) _
  · exact h
  · exact h

theorem programmeSample_spaceSafe (ins : Vector LaneIn 32) (acc : State × Vector Slot 32) (p : Fin 8) (h : acc.1.spaceSafe) :
    (programmeSample ins acc p).1.spaceSafe := by
  refine programmeSample_keep (q := State.spaceSafe) (fun s => spaceSafe_of_units (moveStep_sameBut s p .freeList (by decide)).symm (moveStep_sameButMoves s p).units)
    (fun w s => spaceSafe_of_units (gainStep_sameBut s p w .freeList (by decide)).symm (gainStep_sameButMeters s p w).units) (fun h w clip s hl hs => ?_) (live_steps p) h
  have hheld : (Life.live h ((w + 1) % 281474976710656)).held? = (s.prog p).life.held? := by rw [hl]; rfl
  exact setProg_spaceSafe (s := { s with mem := writeRings ins h w s.mem }) hheld rfl (fun e' l' k' he => by cases he) hs

theorem takeHouseSample_spaceSafe (hb : s.blockEndDue = false) (frm c0 c1 : Bool) (h : s.spaceSafe) :
    (s.takeHouseSample frm c0 c1).spaceSafe :=
  takeHouseSample_keep (q := State.spaceSafe) hb (fun _ hs => hs)
    (fun l s => spaceSafe_reads.keep (readConverter_sameBut s l) (by decide)) programmeSample_spaceSafe
    (fun _ _ hs => hs) (fun p _ => clearStep_spaceSafe p)
    (fun v s => spaceSafe_of_units (sampleFrm_sameBut s v .freeList (by decide)).symm (sampleFrm_sameButUnits s v))
    (fun s => spaceSafe_reads.keep (absenceTest_sameBut s) (by decide))
    (fun a b s => spaceSafe_of_units (sampleCues_sameBut s a b .freeList (by decide)).symm (sampleCues_sameButUnits s a b))
    (fun _ _ hs => hs) h frm c0 c1

theorem takeBlockEnd_spaceSafe (h : s.spaceSafe) : s.takeBlockEnd.spaceSafe :=
  spaceSafe_of_units (takeBlockEnd_sameBut s .freeList (by decide)).symm (takeBlockEnd_sameButUnits s) h

theorem share_spaceSafe {f : State → State} (hf : SampleShare s f) (h : s.spaceSafe) : (s.onSample f).spaceSafe := by
  refine onSample_keep spaceSafe_reads (by decide) (fun hs => ?_) h
  cases hf with
  | move p => exact spaceSafe_of_units (moveStep_sameBut _ p .freeList (by decide)).symm (moveStep_sameButMoves _ p).units hs
  | gain p w => exact spaceSafe_of_units (gainStep_sameBut _ p w .freeList (by decide)).symm (gainStep_sameButMeters _ p w).units hs
  | absent => exact spaceSafe_reads.keep (becomeAbsent_sameBut _) (by decide) hs
  | clear p _ => exact clearStep_spaceSafe p hs

/-! ### Requests -/

theorem closedLive_spaceSafe {p : Fin 8} {e : Held} {w : Nat} (hl : (s.prog p).life = .live e w) (h : s.spaceSafe) :
    ((s.closedLive p e.extent).closeSources p).spaceSafe := by
  have hr := closed_spaceSafe (x := (s.prog p).closedLive) (by rw [hl]; rfl) rfl h
  refine spaceSafe_reads.keep (closeSource3_sameBut _ _ _ _) (by decide) ?_
  unfold State.closedLive
  split
  · exact spaceSafe_reads.keep (leftWaiting_sameBut _ _) (by decide) hr
  · exact hr

theorem holdAll_sameButMoves (s : State) : s.sameButMoves s.holdAll := by
  refine foldl_trans sameButMoves_refl State.sameButMoves.trans _ (fun t p => ?_) _ s
  dsimp only
  split
  · exact hold_sameButMoves t p
  · exact sameButMoves_refl t

theorem holdAll_sameBut (s : State) : s.sameBut moveParts s.holdAll := by
  refine forEach_sameBut _ _ _ (fun p t => ?_)
  split
  · exact hold_sameBut t p
  · exact sameBut_refl t _

theorem effect_spaceSafe (he : Effect s t) (h : s.spaceSafe) : t.spaceSafe := by
  have units {ps : List Part} {u : State} (hb : s.sameBut ps u) (hp : Part.freeList ∉ ps) (hu : s.sameButMoves u) : u.spaceSafe :=
    spaceSafe_of_units (hb .freeList hp).symm hu.units h
  have keep {ps : List Part} {u : State} (hb : s.sameBut ps u) (hd : ∀ x ∈ [Part.freeList, .progs], x ∉ ps) : u.spaceSafe :=
    spaceSafe_reads.keep hb hd h
  have same (p : Fin 8) (x : Programme) (hx : x.life = (s.prog p).life) (hd : x.dmax = (s.prog p).dmax) : (s.setProg p x).spaceSafe :=
    setProg_spaceSafe (by rw [hx]) hd (by rw [hx]; exact spaceSafe_clearing h p) h
  cases he with
  | nothing => exact h
  | linkSet l en pp sp => exact keep (setLinkPolicy_sameBut s l en pp sp) (by decide)
  | opened x p ls g start free hx hc hl ha => exact opened_spaceSafe hx hc hl ha h
  | closedClearing p e left k hl => exact closed_spaceSafe (by rw [hl]; rfl) rfl h
  | closedLive p e w hl => exact closedLive_spaceSafe hl h
  | grouped p g hc => exact same p _ rfl rfl
  | drafted p r v hr => exact same p _ rfl rfl
  | committed p r hd h0 h1 => exact same p _ rfl rfl
  | unstaged p => exact same p _ rfl rfl
  | started p r hd hr =>
    exact units (sameBut_trans (sameBut_mono (setMove_sameBut s p _) (by decide)) (enterRecord_sameBut _ p r)) (by decide)
      ((setMove_sameButMoves s p _).trans (enterRecord_sameButMoves _ p r))
  | held p => exact units (hold_sameBut s p) (by decide) (hold_sameButMoves s p)
  | heldAll => exact units (holdAll_sameBut s) (by decide) (holdAll_sameButMoves s)
  | resumed p r hh => exact units (enterRecord_sameBut s p _) (by decide) (enterRecord_sameButMoves s p _)
  | reportsRead p =>
    exact units (sameBut_trans (sameBut_mono (setMove_sameBut s p _) (by decide)) (afterRead_sameBut _ p)) (by decide)
      ((setMove_sameButMoves s p _).trans (afterRead_sameButMoves _ p))
  | cueSet g src timeout restart snapshot =>
    exact keep (sameBut_trans (sameBut_mono (setGroup_sameBut s g _) (show ∀ q ∈ _, q ∈ Part.groups :: eventParts by decide))
      (sameBut_mono (reportFrameRef_sameBut _) (by decide))) (by decide)
  | armed g => exact keep (armGroup_sameBut s _) (by decide)
  | cued g => exact spaceSafe_of_units (takeCue_sameBut s g _ .freeList (by decide)).symm (takeCue_sameButUnits s g _) h
  | snapRead g x => exact keep (setSnap_sameBut s g x) (by decide)
  | loudSet p x => exact same p _ rfl rfl
  | loudRestart p => exact same p _ rfl rfl
  | loudRead p => exact same p _ rfl rfl
  | gainSet p x m => exact same p _ rfl rfl
  | almSet n prio masked rt ct hn => exact keep (storeSettings_sameBut s n _) (by decide)
  | almLevel v => exact h
  | almNext n hn => exact h
  | almClose n hn => exact h
  | contactSet c ceil m => exact h
  | zeroed c => exact h
  | allZeroed => exact h

theorem spaceSafe_kept : Kept State.spaceSafe where
  outside := spaceSafe_reads.mono (by decide)
  reset _ _ := spaceSafe_reads.keep (s := State.reset) (t := State.resetAll _) (ps := [.freeList, .progs]) (qs := [.mem, .pending])
    (fun q hq => by cases q <;> first | rfl | exact absurd (by decide) hq) (by decide) ⟨reset_pagesSafe, reset_lanesSafe⟩
  request code body s h := takeRequest_keep (fun t he => effect_spaceSafe he h) (fun _ _ => h) (fun _ _ => h) code
  arrive l f ok s := spaceSafe_reads.keep (arrive_sameBut s l f ok) (by decide)
  discard s := spaceSafe_reads.keep (sameBut_trans (latch_sameBut s _) (count_sameBut _ _ _ _)) (by decide)
  blockEnd _ := takeBlockEnd_spaceSafe
  sample s frm c0 c1 hb _ := takeHouseSample_spaceSafe hb frm c0 c1
  share _ _ := share_spaceSafe
  wait p s := spaceSafe_of_units (cueWaitStep_sameBut s p .freeList (by decide)).symm (cueWaitStep_sameButMoves s p).units
  timer n s _ := spaceSafe_reads.keep (timerStep_sameBut s n) (by decide)
  contact c s := spaceSafe_reads.keep (contactStep_sameBut s c) (by decide)

/-- Under the two laws every programme's pages lie within memory, so that the fault of log entry 9 does not arise. -/
theorem spaceSafe_insideMemory (h : s.spaceSafe) : s.insideMemory := by
  intro p
  obtain ⟨⟨-, -, h3, -, -, -, h7⟩, h8, -⟩ := h
  cases hl : (s.prog p).life with
  | closed => rfl
  | clearing e left k =>
    have hend := h3 p e.extent (by rw [hl]; rfl)
    have hleft := (h7 p e left k hl).2
    simp only [Life.extentInside, Bool.and_eq_true, decide_eq_true_eq]
    exact ⟨hend, hleft⟩
  | live e w =>
    have hend := h3 p e.extent (by rw [hl]; rfl)
    obtain ⟨-, -, -, -, hrl, hlen⟩ := h8 p e (by rw [hl]; rfl)
    obtain ⟨h512, hmod⟩ := ringLength_facts (s.prog p).dmax
    rw [← hrl] at h512 hmod
    have hfit : e.lanes.length * e.rl / 512 = e.lanes.length * (e.rl / 512) :=
      Nat.mul_div_assoc _ (Nat.dvd_of_mod_eq_zero hmod)
    simp only [Life.extentInside, Bool.and_eq_true, decide_eq_true_eq, Config.pageWords]
    exact ⟨⟨⟨hend, by omega⟩, hmod⟩, by rw [hlen, hfit]⟩

/-! ### The feeding links and the output stage (R42, R44) -/

theorem feedsSafe_reads : Reads [.routes, .feeds] State.feedsSafe := fun s t h hs n l k hr => by
  have hf : s.feeds = t.feeds := h .feeds (by simp)
  have hroutes : s.routes = t.routes := h .routes (by simp)
  rw [← hf]
  exact hs n l k (by rw [State.route, hroutes]; exact hr)

theorem mem_feedWith (fed : List (Fin 8)) (r : Route) (j : Fin 8) : j ∈ feedWith fed r ↔ j ∈ fed ∨ ∃ k, r = .pair j k := by
  cases r with
  | unrouted => simp [feedWith]
  | pair l k =>
    simp only [feedWith, List.contains_iff_mem]
    split
    · next h => simp only [Route.pair.injEq, exists_and_left, exists_eq', and_true]; exact ⟨.inl, fun h' => h'.elim id (fun he => he ▸ h)⟩
    · simp [eq_comm]

theorem resetFeeds_mem (s : State) (n : Fin 32) (j : Fin 8) : j ∈ s.resetFeeds.feeds[n] ↔ ∃ k, s.route n = .pair j k := by
  simp [State.resetFeeds, State.route, mem_feedWith]

theorem setRoute_feeds (s : State) (n : Fin 32) (r : Route) : (s.setRoute n r).feeds[n] = feedWith s.feeds[n] r := by
  simp [State.setRoute]

theorem setRoute_feeds_ne (s : State) {m n : Fin 32} (h : m ≠ n) (r : Route) : (s.setRoute n r).feeds[m] = s.feeds[m] := by
  have : n.val ≠ m.val := fun h' => h (Fin.ext h'.symm)
  simp [State.setRoute, this]

theorem setRoute_feedsSafe (n : Fin 32) (r : Route) (h : s.feedsSafe) : (s.setRoute n r).feedsSafe := by
  intro m l k hr
  by_cases hm : m = n
  · subst hm
    rw [State.route_setRoute] at hr
    rw [setRoute_feeds, mem_feedWith]
    exact .inr ⟨k, hr⟩
  · rw [State.route_setRoute_ne s hm] at hr
    rw [setRoute_feeds_ne s hm]
    exact h m l k hr

theorem takeBlockEnd_feedsSafe (h : s.feedsSafe) : s.takeBlockEnd.feedsSafe :=
  takeBlockEnd_keep (q := State.feedsSafe) (fun _ hs => hs) (fun _ _ hs => hs)
    (fun l s => feedsSafe_reads.keep (linkBlockEnd_sameBut s l) (by decide))
    (fun e k s _ => feedsSafe_reads.keep (count_sameBut s e none k) (by decide))
    (fun m p s => feedsSafe_reads.keep (programmeBlockEnd_sameBut m p s) (by decide))
    (fun s _ n l k hr => (resetFeeds_mem s n l).mpr ⟨k, hr⟩)
    (fun p s => feedsSafe_reads.keep (cueWaitStep_sameBut s p) (by decide))
    (fun n s _ => feedsSafe_reads.keep (timerStep_sameBut s n) (by decide)) (fun _ _ hs => hs) h

/-- What a request other than ROUTE.SET, COUNT.SET and LINK.SET reaches. -/
abbrev effectParts : List Part := [.progs, .freeList, .groups, .snaps, .sources, .threshold, .attn, .contacts, .counters]

/-- LINK.SET alone of the requests that are not ROUTE.SET and COUNT.SET reaches the links (R39). -/
theorem effect_sameBut_links (h : Effect s t) : (∃ l en pp sp, t = s.setLinkPolicy l en pp sp) ∨ s.sameBut effectParts t := by
  cases h with
  | nothing => exact .inr (sameBut_refl s _)
  | linkSet l en pp sp => exact .inl ⟨l, en, pp, sp, rfl⟩
  | opened x p ls g start free hx hc hl ha =>
    right
    refine sameBut_trans (t := { s with freeList := free }) (fun q hq => ?_) (sameBut_mono (setProg_sameBut _ p _) (by decide))
    cases q <;> first | rfl | exact absurd (by decide) hq
  | closedClearing p e left k hl => right; exact sameBut_mono (closeProgramme_sameBut s p _ _) (by decide)
  | closedLive p e w hl =>
    right
    refine sameBut_trans ?_ (sameBut_mono (closeSource3_sameBut _ _ _ _) (by decide))
    have hc := sameBut_mono (qs := effectParts)
      (closeProgramme_sameBut s p (s.prog p).closedLive e.extent) (by decide)
    unfold State.closedLive
    split
    · exact sameBut_trans hc (sameBut_mono (leftWaiting_sameBut _ _) (by decide))
    · exact hc
  | grouped p g hc => right; exact sameBut_mono (setProg_sameBut s p _) (by decide)
  | drafted p r v hr => right; exact sameBut_mono (setMove_sameBut s p _) (by decide)
  | committed p r hd h0 h1 => right; exact sameBut_mono (setMove_sameBut s p _) (by decide)
  | unstaged p => right; exact sameBut_mono (setMove_sameBut s p _) (by decide)
  | started p r hd hr =>
    right
    exact sameBut_trans (sameBut_mono (setMove_sameBut s p _) (by decide)) (sameBut_mono (enterRecord_sameBut _ p r) (by decide))
  | held p => right; exact sameBut_mono (hold_sameBut s p) (by decide)
  | heldAll => right; exact sameBut_mono (holdAll_sameBut s) (by decide)
  | resumed p r hh => right; exact sameBut_mono (enterRecord_sameBut s p _) (by decide)
  | reportsRead p =>
    right
    exact sameBut_trans (sameBut_mono (setMove_sameBut s p _) (by decide)) (sameBut_mono (afterRead_sameBut _ p) (by decide))
  | cueSet g src timeout restart snapshot =>
    right
    exact sameBut_trans (sameBut_mono (setGroup_sameBut s g _) (by decide)) (sameBut_mono (reportFrameRef_sameBut _) (by decide))
  | armed g => right; exact sameBut_mono (armGroup_sameBut s _) (by decide)
  | cued g => right; exact sameBut_mono (takeCue_sameBut s g _) (by decide)
  | snapRead g x => right; exact sameBut_mono (setSnap_sameBut s g x) (by decide)
  | loudSet p x => right; exact sameBut_mono (setProg_sameBut s p _) (by decide)
  | loudRestart p => right; exact sameBut_mono (setProg_sameBut s p _) (by decide)
  | loudRead p => right; exact sameBut_mono (setProg_sameBut s p _) (by decide)
  | gainSet p x m => right; exact sameBut_mono (setProg_sameBut s p _) (by decide)
  | almSet n prio masked rt ct hn => right; exact sameBut_mono (storeSettings_sameBut s n _) (by decide)
  | almLevel v => right; exact sameBut_mono (judge_threshold_sameBut s v) (by decide)
  | almNext n hn => right; exact sameBut_mono (setSource_sameBut s n _) (by decide)
  | almClose n hn => right; exact sameBut_mono (setSource_sameBut s n _) (by decide)
  | contactSet c ceil m => right; exact sameBut_mono (setContact_sameBut s c _) (by decide)
  | zeroed c => right; exact sameBut_mono (setCounter_sameBut s c _) (by decide)
  | allZeroed => right; exact sameBut_mono (clearCounters_sameBut s) (by decide)

theorem effect_sameBut (h : Effect s t) : s.sameBut (.links :: effectParts) t := by
  rcases effect_sameBut_links h with ⟨l, en, pp, sp, rfl⟩ | h
  · exact sameBut_mono (setLinkPolicy_sameBut s l en pp sp) (by decide)
  · exact sameBut_mono h (by decide)

theorem feedsSafe_kept : Kept State.feedsSafe where
  outside := feedsSafe_reads.mono (by decide)
  reset s _ := fun n l k h => by rw [show s.resetAll.route n = .unrouted from reset_route n] at h; cases h
  request code body s h := takeRequest_keep (fun t he => feedsSafe_reads.keep (effect_sameBut he) (by decide) h)
    (fun n r => setRoute_feedsSafe n r h) (fun _ _ => h) code
  arrive l f ok s := feedsSafe_reads.keep (arrive_sameBut s l f ok) (by decide)
  discard s := feedsSafe_reads.keep (sameBut_trans (latch_sameBut s _) (count_sameBut _ _ _ _)) (by decide)
  blockEnd _ := takeBlockEnd_feedsSafe
  sample s frm c0 c1 hb _ h := takeHouseSample_keep (q := State.feedsSafe) hb (fun _ hs => hs)
    (fun l s => feedsSafe_reads.keep (readConverter_sameBut s l) (by decide))
    (fun ins acc p => programmeSample_keep (fun s => feedsSafe_reads.keep (moveStep_sameBut s p) (by decide))
      (fun w s => feedsSafe_reads.keep (gainStep_sameBut s p w) (by decide)) (fun _ _ _ _ _ hs => hs) (live_steps p))
    (fun _ _ hs => hs) (fun p s => feedsSafe_reads.keep (clearStep_sameBut s p) (by decide))
    (fun v s => feedsSafe_reads.keep (sampleFrm_sameBut s v) (by decide))
    (fun s => feedsSafe_reads.keep (absenceTest_sameBut s) (by decide))
    (fun a b s => feedsSafe_reads.keep (sampleCues_sameBut s a b) (by decide)) (fun _ _ hs => hs) h frm c0 c1
  share s f hf := onSample_keep feedsSafe_reads (by decide) (fun hs => by
    cases hf with
    | move p => exact feedsSafe_reads.keep (moveStep_sameBut _ p) (by decide) hs
    | gain p w => exact feedsSafe_reads.keep (gainStep_sameBut _ p w) (by decide) hs
    | absent => exact feedsSafe_reads.keep (becomeAbsent_sameBut _) (by decide) hs
    | clear p _ => exact feedsSafe_reads.keep (clearStep_sameBut _ p) (by decide) hs)
  wait p s := feedsSafe_reads.keep (cueWaitStep_sameBut s p) (by decide)
  timer n s _ := feedsSafe_reads.keep (timerStep_sameBut s n) (by decide)
  contact _ _ h := h

theorem outStageSafe_reads : Reads [.outPipe] State.outStageSafe := fun s t h hs => by
  have : s.outPipe = t.outPipe := h .outPipe (by simp)
  rw [State.outStageSafe, ← this]; exact hs

theorem pushOutputs_outStageSafe (v : Vector Slot 32) (h : s.outStageSafe) : (s.pushOutputs v).outStageSafe := by
  have h8 : s.outPipe.length = 8 := h
  simp [State.outStageSafe, State.pushOutputs, h8]

theorem outStageSafe_kept : Kept State.outStageSafe where
  outside := outStageSafe_reads.mono (by decide)
  reset _ _ := rfl
  request code body s := outStageSafe_reads.keep (takeRequest_within s body code) (by decide)
  arrive l f ok s := outStageSafe_reads.keep (arrive_sameBut s l f ok) (by decide)
  discard s := outStageSafe_reads.keep (sameBut_trans (latch_sameBut s _) (count_sameBut _ _ _ _)) (by decide)
  blockEnd s := outStageSafe_reads.keep (takeBlockEnd_sameBut s) (by decide)
  sample s frm c0 c1 hb _ h := takeHouseSample_keep (q := State.outStageSafe) hb (fun _ hs => hs)
    (fun l s => outStageSafe_reads.keep (readConverter_sameBut s l) (by decide))
    (fun ins acc p => programmeSample_keep (fun s => outStageSafe_reads.keep (moveStep_sameBut s p) (by decide))
      (fun w s => outStageSafe_reads.keep (gainStep_sameBut s p w) (by decide)) (fun _ _ _ _ _ hs => hs) (live_steps p))
    (fun v _ => pushOutputs_outStageSafe v) (fun p s => outStageSafe_reads.keep (clearStep_sameBut s p) (by decide))
    (fun v s => outStageSafe_reads.keep (sampleFrm_sameBut s v) (by decide))
    (fun s => outStageSafe_reads.keep (absenceTest_sameBut s) (by decide))
    (fun a b s => outStageSafe_reads.keep (sampleCues_sameBut s a b) (by decide)) (fun _ _ hs => hs) h frm c0 c1
  share s f hf := onSample_keep outStageSafe_reads (by decide) (fun hs => by
    cases hf with
    | move p => exact outStageSafe_reads.keep (moveStep_sameBut _ p) (by decide) hs
    | gain p w => exact outStageSafe_reads.keep (gainStep_sameBut _ p w) (by decide) hs
    | absent => exact outStageSafe_reads.keep (becomeAbsent_sameBut _) (by decide) hs
    | clear p _ => exact outStageSafe_reads.keep (clearStep_sameBut _ p) (by decide) hs)
  wait p s := outStageSafe_reads.keep (cueWaitStep_sameBut s p) (by decide)
  timer n s _ := outStageSafe_reads.keep (timerStep_sameBut s n) (by decide)
  contact _ _ h := h

/-- Settles O26. -/
theorem stepsKeepThePageAndLaneLaws : Obligations.StepsKeepThePageAndLaneLaws :=
  ⟨fun _ _ hp hl h => spaceSafe_kept.step ⟨hp, hl⟩ h,
    fun s hp hl => (extentOutside_eq_none_iff s).mpr (spaceSafe_insideMemory ⟨hp, hl⟩),
    fun _ _ h => ⟨fun hs => feedsSafe_kept.step hs h, fun hs => outStageSafe_kept.step hs h⟩⟩

end Sys2Proof.Machine
end

