-- ==== Sys2Proof/Proofs/Sending.lean ====
section
/-! PROOFS. The events that the operations on move units, cues, links and correctors send: counting events and latched events
alone, so that each counter is left by the offers in their order and each source by its latched events (R152, R175). -/

namespace Sys2Proof.Machine

variable {s t u : State}

/-! ### ATTN and the contacts, judged at every change of a source (R159, R169, R170) -/

/-- What a contact keeps whatever the demand: it counts nothing while released, and a DISABLED one is released. -/
def Contact.atRest (c : Contact) : Prop := (c.asserted = false → c.onTime = 0) ∧ (c.ceiling = none → c.asserted = false)

/-- A contact stands as it is judged under this demand. -/
def Contact.judged (d : Bool) (c : Contact) : Prop :=
  (d = true → c.asserted = true) ∧ (c.asserted = true → d = false → c.onTime < c.minOn)
    ∧ (c.asserted = false → c.onTime = 0) ∧ (c.ceiling = none → c.asserted = false)

theorem outputsSafe_iff (s : State) : s.outputsSafe ↔
    s.attn = anyEligible s.sources s.threshold ∧ ∀ c, (s.contact c).judged (demand s.sources (s.contact c).ceiling) := Iff.rfl

theorem Contact.judged.atRest {d : Bool} {c : Contact} (h : c.judged d) : c.atRest := ⟨h.2.2.1, h.2.2.2⟩

theorem Contact.judge_ceiling (d : Bool) (c : Contact) : (c.judge d).ceiling = c.ceiling := by
  unfold Contact.judge
  split
  · rfl
  · split <;> rfl

theorem Contact.judge_judged {d : Bool} {c : Contact} (h : c.atRest) (hd : c.ceiling = none → d = false) : (c.judge d).judged d := by
  obtain ⟨hr, hn⟩ := h
  unfold Contact.judge Contact.judged
  cases ha : c.asserted <;> cases hdd : d
  · simp [ha, hr ha]
  · simpa [ha, hdd] using hd
  · by_cases hm : c.minOn ≤ c.onTime
    · simp [hm]
    · simpa [ha, hm, Nat.lt_of_not_le hm] using hn
  · simpa [ha, hdd] using hd

theorem judge_outputsSafe (h : ∀ c, (s.contact c).atRest) : s.judge.outputsSafe := by
  refine (outputsSafe_iff _).mpr ⟨rfl, fun c => ?_⟩
  have hc : s.judge.contact c = (s.contact c).judge (demand s.sources (s.contact c).ceiling) := by simp [State.judge, State.contact]
  rw [hc, Contact.judge_ceiling]
  exact Contact.judge_judged (h c) (fun h0 => by rw [h0]; rfl)

theorem outputsSafe_atRest (h : s.outputsSafe) (c : Fin 4) : (s.contact c).atRest := (((outputsSafe_iff s).mp h).2 c).atRest

theorem setSource_outputsSafe (n : Fin 59) (x : Source) (h : s.outputsSafe) : (s.setSource n x).outputsSafe :=
  judge_outputsSafe (s := { s with sources := s.sources.set n x }) (fun c => outputsSafe_atRest h c)

theorem outputsSafe_reads : Reads [.sources, .threshold, .attn, .contacts] State.outputsSafe := fun s t h hs => by
  have hsrc : s.sources = t.sources := h .sources (by simp)
  have hthr : s.threshold = t.threshold := h .threshold (by simp)
  have hattn : s.attn = t.attn := h .attn (by simp)
  have hc : s.contacts = t.contacts := h .contacts (by simp)
  obtain ⟨ha, hj⟩ := (outputsSafe_iff s).mp hs
  refine (outputsSafe_iff t).mpr ⟨by rw [← hattn, ← hsrc, ← hthr]; exact ha, fun c => ?_⟩
  rw [← hsrc, show t.contact c = s.contact c by simp only [State.contact, hc]]
  exact hj c

theorem latchCounter_outputsSafe (k : Nat) (h : s.outputsSafe) : (State.latchCounter k s).outputsSafe := by
  induction k generalizing s with
  | zero => exact h
  | succ k ih => exact ih (setSource_outputsSafe _ _ h)

theorem countRaises_outputsSafe (fuel k : Nat) (h : s.outputsSafe) : (countRaises fuel k s).outputsSafe := by
  induction fuel generalizing k s with
  | zero => exact h
  | succ fuel ih =>
    cases k with
    | zero => exact h
    | succ k => exact ih _ (latchCounter_outputsSafe _ h)

theorem count_outputsSafe (e : CountEvent) (o : Option (Fin 8)) (k : Nat) (h : s.outputsSafe) : (s.count e o k).outputsSafe :=
  countRaises_outputsSafe _ _ (latchCounter_outputsSafe (s := s.offerEvent e o k) _ h)

theorem latch_outputsSafe (n : Fin 59) (h : s.outputsSafe) : (s.latch n).outputsSafe :=
  countRaises_outputsSafe _ _ (setSource_outputsSafe n _ h)

theorem qualify_outputsSafe (n : Fin 59) (h : s.outputsSafe) : (s.qualify n).outputsSafe :=
  countRaises_outputsSafe _ _ (setSource_outputsSafe n _ h)

theorem report_outputsSafe (n : Fin 59) (v : Bool) (h : s.outputsSafe) : (s.report n v).outputsSafe := by
  have hset := setSource_outputsSafe n { s.source n with condition := v, timer := 0 } h
  unfold State.report
  dsimp only
  split
  · exact h
  · split
    · split
      · exact qualify_outputsSafe n hset
      · exact hset
    · split
      · exact setSource_outputsSafe n _ hset
      · exact hset

theorem timerStep_outputsSafe (n : Fin 59) (h : s.outputsSafe) : (s.timerStep n).outputsSafe := by
  unfold State.timerStep
  dsimp only
  split
  · exact h
  · split
    · exact qualify_outputsSafe n h
    · split <;> exact setSource_outputsSafe n _ h

/-! ### Lists of events sent -/

/-- A counting event with its owner and amount. -/
abbrev Sent : Type := CountEvent × Option (Fin 8) × Nat

/-- A counter offered these events in turn (R175). -/
def Counter.offerAll (es : List Sent) (c : Counter) : Counter := es.foldl (fun x e => x.offer e.1 e.2.1 e.2.2) c

theorem Counter.offerAll_append (es fs : List Sent) (c : Counter) : c.offerAll (es ++ fs) = (c.offerAll es).offerAll fs :=
  List.foldl_append

theorem Counter.offerAll_of_ne {c : Counter} {es : List Sent} (h : ∀ e ∈ es, c.event ≠ some e.1) : c.offerAll es = c := by
  induction es generalizing c with
  | nil => rfl
  | cons e es ih =>
    have he : c.offer e.1 e.2.1 e.2.2 = c := Counter.offer_of_ne (h e (by simp)) _ _
    show (c.offer e.1 e.2.1 e.2.2).offerAll es = c
    rw [he]
    exact ih (fun f hf => h f (by simp [hf]))

theorem Counter.offerAll_replicate (e : CountEvent) (o : Option (Fin 8)) (k : Nat) (c : Counter) :
    c.offerAll (List.replicate k (e, o, 1)) = Nat.repeat (Counter.offer e o 1) k c := by
  induction k with
  | zero => rfl
  | succ k ih => rw [List.replicate_succ', Counter.offerAll_append, ih]; rfl

theorem Counter.offerAll_filter {c : Counter} {e : CountEvent} (h : c.event = some e) (es : List Sent) :
    c.offerAll es = c.offerAll (es.filter (fun x => x.1 == e)) := by
  induction es generalizing c with
  | nil => rfl
  | cons x es ih =>
    by_cases hx : x.1 = e
    · rw [List.filter_cons_of_pos (by simpa using hx)]
      exact ih (c := c.offer x.1 x.2.1 x.2.2) (by rw [Counter.offer_event, h])
    · rw [List.filter_cons_of_neg (by simpa using hx), ← ih h]
      show (c.offer x.1 x.2.1 x.2.2).offerAll es = _
      rw [Counter.offer_of_ne (by rw [h]; simpa using Ne.symm hx)]

/-- Between the two states these counting events and these latched events have been sent, and none other but what follows of
them. -/
structure Sends (es : List Sent) (ns : List (Fin 59)) (s t : State) : Prop where
  counter : ∀ c, (s.counter c).event ≠ some .alarmRaise → t.counter c = (s.counter c).offerAll es
  source : ∀ n, n ≠ counterSource → t.source n = (s.source n).latchedTimes s.ref.hsc (ns.count n)
  raised : Raised ns.length 0 s t
  outputs : s.outputsSafe → t.outputsSafe

theorem Sends.hsc {es : List Sent} {ns : List (Fin 59)} (h : Sends es ns s t) : t.ref.hsc = s.ref.hsc := h.raised.hsc

theorem Sends.trans {es fs : List Sent} {ns ms : List (Fin 59)} (h : Sends es ns s t) (k : Sends fs ms t u) :
    Sends (es ++ fs) (ns ++ ms) s u where
  counter c hc := by
    rw [k.counter c (by rw [h.raised.bank.event]; exact hc), h.counter c hc, Counter.offerAll_append]
  source n hn := by rw [k.source n hn, h.source n hn, h.hsc, ← Source.latchedTimes_add, List.count_append]
  raised := by rw [List.length_append]; exact h.raised.trans k.raised
  outputs := k.outputs ∘ h.outputs

/-- The parts that events reach, with the clock. -/
abbrev sendingParts : List Part := [.counters, .sources, .ref, .threshold, .attn, .contacts]

theorem sends_of_sameBut {ps : List Part} (h : s.sameBut ps t) (hp : ∀ x ∈ sendingParts, x ∉ ps := by decide) : Sends [] [] s t where
  counter := fun c _ => State.counter_congr (h .counters (hp .counters (by decide))).symm c
  source := fun n _ => State.source_congr (h .sources (hp .sources (by decide))).symm n
  raised := .of_same (h .counters (hp .counters (by decide))).symm (State.source_congr (h .sources (hp .sources (by decide))).symm _)
    (congrArg RefUnit.hsc (h .ref (hp .ref (by decide))).symm)
  outputs := outputsSafe_reads.keep h (fun x hx => hp x (by fin_cases hx <;> decide))

theorem sends_refl (s : State) : Sends [] [] s s := sends_of_sameBut (sameBut_refl s [])

theorem Sends.behind {es : List Sent} {ns : List (Fin 59)} {ps : List Part} (k : Sends es ns t u) (h : s.sameBut ps t)
    (hp : ∀ x ∈ sendingParts, x ∉ ps := by decide) : Sends es ns s u :=
  (sends_of_sameBut h hp).trans k

theorem Sends.before {es : List Sent} {ns : List (Fin 59)} {ps : List Part} (k : Sends es ns s t) (h : t.sameBut ps u)
    (hp : ∀ x ∈ sendingParts, x ∉ ps := by decide) : Sends es ns s u := by
  have := k.trans (sends_of_sameBut h hp)
  rwa [List.append_nil, List.append_nil] at this

theorem count_sends (s : State) {e : CountEvent} (he : e ≠ .alarmRaise) (o : Option (Fin 8)) (k : Nat) :
    Sends [(e, o, k)] [] s (s.count e o k) where
  counter _ hc := count_counter s hc e o k
  source _ hn := count_source_ne s hn e o k
  raised := count_raised s he o k
  outputs := count_outputsSafe e o k

theorem latch_sends (s : State) {n : Fin 59} (hn : n ≠ counterSource) : Sends [] [n] s (s.latch n) where
  counter c hc := latch_counter s hc n
  source m hm := by
    by_cases h : m = n
    · subst h; rw [latch_source s hn, List.count_singleton_self]; rfl
    · rw [latch_source_ne s hm h, List.count_singleton, if_neg (by simpa using Ne.symm h)]; rfl
  raised := latch_raised s hn
  outputs := latch_outputsSafe n

/-! ### What the lists say -/

section
variable {es : List Sent} {ns : List (Fin 59)}

theorem Sends.raisesCounted (h : Sends es ns s t) : s.raisesCounted ns.length t := h.raised.raisesCounted

/-- A list of the events of one kind, all of one owner and amount 1, is so many of them. -/
theorem Sends.countedIn (h : Sends es ns s t) {e : CountEvent} (he : e ≠ .alarmRaise) {o : Option (Fin 8)} {k : Nat}
    (hes : es.filter (fun x => x.1 == e) = List.replicate k (e, o, 1)) : s.countedIn e o k t := fun c hc => by
  rw [h.counter c (by rw [hc]; simpa using he), Counter.offerAll_filter hc, hes, Counter.offerAll_replicate]

theorem Sends.latchedIn (h : Sends es ns s t) {n : Fin 59} (hn : n ≠ counterSource) {k : Nat} (hk : 0 < k) (hns : ns.count n = k) :
    s.latchedIn n k s.ref.hsc t := latchedIn_of_source hk (by rw [h.source n hn, hns])

theorem Sends.source_of_not_mem (h : Sends es ns s t) {n : Fin 59} (hn : n ≠ counterSource) (hns : n ∉ ns) :
    t.source n = s.source n := by rw [h.source n hn, List.count_eq_zero_of_not_mem hns]; rfl

theorem Sends.counter_of_not_mem (h : Sends es ns s t) {c : Fin 8} (ha : (s.counter c).event ≠ some .alarmRaise)
    (hc : ∀ e ∈ es, (s.counter c).event ≠ some e.1) : t.counter c = s.counter c := by
  rw [h.counter c ha, Counter.offerAll_of_ne hc]

/-- Latched events leave all of a source but its flags and its raise count (R152). -/
theorem latchedTimes_settings (hsc : Stamp) (k : Nat) (r : Source) :
    (r.latchedTimes hsc k).condition = r.condition ∧ (r.latchedTimes hsc k).qualified = r.qualified
      ∧ (r.latchedTimes hsc k).timer = r.timer ∧ (r.latchedTimes hsc k).priority = r.priority
      ∧ (r.latchedTimes hsc k).masked = r.masked ∧ (r.latchedTimes hsc k).raiseTime = r.raiseTime
      ∧ (r.latchedTimes hsc k).clearTime = r.clearTime := by
  induction k with
  | zero => exact ⟨rfl, rfl, rfl, rfl, rfl, rfl, rfl⟩
  | succ k ih =>
    have hstep : r.latchedTimes hsc (k + 1) = ((r.latchedTimes hsc k).raised hsc).latched := rfl
    rw [hstep]
    unfold Source.latched
    split <;> exact ih

theorem Sends.condition (h : Sends es ns s t) {n : Fin 59} (hn : n ≠ counterSource) :
    (t.source n).condition = (s.source n).condition := by rw [h.source n hn]; exact (latchedTimes_settings _ _ _).1

end

/-! ### Events within a set -/

/-- Only counting events of these kinds and latched events of these sources have been sent. -/
def SendsWithin (evs : List CountEvent) (srcs : List (Fin 59)) (s t : State) : Prop :=
  ∃ es ns, (∀ e ∈ es, e.1 ∈ evs) ∧ (∀ n ∈ ns, n ∈ srcs) ∧ Sends es ns s t

section
variable {evs evs' : List CountEvent} {srcs srcs' : List (Fin 59)}

theorem SendsWithin.trans (h : SendsWithin evs srcs s t) (k : SendsWithin evs srcs t u) : SendsWithin evs srcs s u := by
  obtain ⟨es, ns, he, hn, h⟩ := h
  obtain ⟨fs, ms, hf, hm, k⟩ := k
  exact ⟨es ++ fs, ns ++ ms, fun e h => (List.mem_append.mp h).elim (he e) (hf e), fun n h => (List.mem_append.mp h).elim (hn n) (hm n),
    h.trans k⟩

theorem SendsWithin.mono (h : SendsWithin evs srcs s t) (he : ∀ e ∈ evs, e ∈ evs') (hn : ∀ n ∈ srcs, n ∈ srcs') :
    SendsWithin evs' srcs' s t := by
  obtain ⟨es, ns, h1, h2, h⟩ := h
  exact ⟨es, ns, fun e hes => he _ (h1 e hes), fun n hns => hn _ (h2 n hns), h⟩

theorem Sends.within {es : List Sent} {ns : List (Fin 59)} (h : Sends es ns s t) (he : ∀ e ∈ es, e.1 ∈ evs) (hn : ∀ n ∈ ns, n ∈ srcs) :
    SendsWithin evs srcs s t := ⟨es, ns, he, hn, h⟩

theorem sendsWithin_of_sameBut {ps : List Part} (h : s.sameBut ps t)
    (hp : ∀ x ∈ sendingParts, x ∉ ps := by decide) : SendsWithin evs srcs s t :=
  (sends_of_sameBut h hp).within (by simp) (by simp)

theorem SendsWithin.refl (s : State) : SendsWithin evs srcs s s := (sends_refl s).within (by simp) (by simp)

theorem SendsWithin.bank (h : SendsWithin evs srcs s t) : BankGrows s t := by
  obtain ⟨_, _, -, -, h⟩ := h; exact h.raised.bank

theorem SendsWithin.hsc (h : SendsWithin evs srcs s t) : t.ref.hsc = s.ref.hsc := by
  obtain ⟨_, _, -, -, h⟩ := h; exact h.hsc

theorem SendsWithin.condition (h : SendsWithin evs srcs s t) {n : Fin 59} (hn : n ≠ counterSource) :
    (t.source n).condition = (s.source n).condition := by
  obtain ⟨_, _, -, -, h⟩ := h; exact h.condition hn

theorem SendsWithin.otherSources (h : SendsWithin evs srcs s t) : s.otherSources srcs t := by
  obtain ⟨es, ns, -, hn, h⟩ := h
  exact fun n hns hc => h.source_of_not_mem hc (fun hm => hns (hn n hm))

theorem SendsWithin.otherCounters (h : SendsWithin evs srcs s t) : s.otherCounters evs t := by
  obtain ⟨es, ns, he, -, h⟩ := h
  intro c hc
  exact h.counter_of_not_mem (fun h0 => (hc _ h0).2 rfl) (fun e hes h0 => (hc _ h0).1 (he e hes))

theorem forEach_sendsWithin {n : Nat} {f : Fin n → State → State} (hf : ∀ i t, SendsWithin evs srcs t (f i t)) (s : State) :
    SendsWithin evs srcs s (forEach n f s) :=
  foldl_trans SendsWithin.refl SendsWithin.trans _ (fun t i => hf i t) _ s

end

/-! ### The operations -/

theorem slipSource_ne_counterSource (l : Fin 8) : slipSource l ≠ counterSource := by
  intro h; have := congrArg Fin.val h; simp [slipSource, counterSource] at this; omega

theorem moveSource_ne_counterSource (p : Fin 8) : moveSource p ≠ counterSource := by
  intro h; have := congrArg Fin.val h; simp [moveSource, counterSource] at this; omega

theorem overloadSource_ne_counterSource (p : Fin 8) : overloadSource p ≠ counterSource := by
  intro h; have := congrArg Fin.val h; simp [overloadSource, counterSource] at this; omega

theorem frameRefSource_ne_counterSource : frameRefSource ≠ counterSource := by decide

theorem controlSource_ne_counterSource : controlSource ≠ counterSource := by decide

theorem slipEvents_sends (s : State) (l : Fin 8) : Sends [(.slip, some l, 1)] [slipSource l] s (s.slipEvents l) :=
  (count_sends s (by decide) _ _).trans (latch_sends _ (slipSource_ne_counterSource l))

theorem foldl_count_sends (s : State) {e : CountEvent} (he : e ≠ .alarmRaise) (o : Option (Fin 8)) (k : Nat) :
    Sends (List.replicate k (e, o, 1)) [] s ((List.replicate k ()).foldl (fun u _ => u.count e o 1) s) := by
  induction k generalizing s with
  | zero => exact sends_refl _
  | succ k ih => rw [List.replicate_succ, List.replicate_succ]; exact (count_sends s he o 1).trans (ih _)

/-- The counting events of a frame taken (R10). -/
def Taken.sent (t : Taken) (l : Fin 8) : List Sent :=
  (if t.substituted then [(.frameSubst, some l, 1)] else []) ++ List.replicate t.zeroed (.slotInvalid, some l, 1)

theorem acceptanceEvents_sends (s : State) (l : Fin 8) (t : Taken) : Sends (t.sent l) [] s (s.acceptanceEvents l t) := by
  have h1 : Sends (if t.substituted then [(.frameSubst, some l, 1)] else []) [] s
      (if t.substituted then s.count .frameSubst (some l) 1 else s) := by
    split
    · exact count_sends s (by decide) _ _
    · exact sends_refl _
  unfold State.acceptanceEvents Taken.sent
  dsimp only
  by_cases hz : t.zeroed = 0
  · rw [if_pos hz, hz, List.replicate_zero, List.append_nil]; exact h1
  · rw [if_neg hz]; exact h1.trans (foldl_count_sends _ (show CountEvent.slotInvalid ≠ .alarmRaise by decide) _ _)

theorem moveEvents_sends (s : State) (p : Fin 8) (o : MoveOutcome) :
    Sends [(.moveDone, some p, 1)] (if o = .reached then [] else [moveSource p]) s (s.moveEvents p o) := by
  have h1 := count_sends s (e := .moveDone) (by decide) (some p) 1
  unfold State.moveEvents
  dsimp only
  split
  · exact h1
  · exact h1.trans (latch_sends _ (moveSource_ne_counterSource p))

/-- REPORT_LOST for a report written into these slots (R83). -/
def MoveUnit.lossSent (u : MoveUnit) (p : Fin 8) : List Sent := List.replicate u.loses (.reportLost, some p, 1)

theorem writeReport_sends (s : State) (p : Fin 8) (x : Report) : Sends ((s.prog p).move.lossSent p) [] s (s.writeReport p x) := by
  have hl : (s.prog p).move.lossSent p
      = List.replicate (if (s.prog p).move.reports.length < 2 then 0 else 1) (.reportLost, some p, 1) := rfl
  unfold State.writeReport
  dsimp only
  split
  · next h => rw [hl, h, if_pos (by simp)]; exact sends_of_sameBut (setMove_sameBut s p _)
  · next h => rw [hl, h, if_pos (by simp)]; exact sends_of_sameBut (setMove_sameBut s p _)
  · next h => rw [hl, h, if_neg (by simp)]; exact (count_sends _ (by decide) _ _).behind (setMove_sameBut s p _)

/-- The counting events that the move units send. -/
abbrev moveCounts : List CountEvent := [.moveDone, .reportLost]

theorem mem_lossSent {u : MoveUnit} {p : Fin 8} {e : Sent} (h : e ∈ u.lossSent p) : e = (.reportLost, some p, 1) :=
  List.eq_of_mem_replicate h

theorem writeReport_within (s : State) (p : Fin 8) (x : Report) : SendsWithin moveCounts [moveSource p] s (s.writeReport p x) :=
  (writeReport_sends s p x).within (fun e he => by rw [mem_lossSent he]; simp) (by simp)

theorem moveEvents_within (s : State) (p : Fin 8) (o : MoveOutcome) : SendsWithin moveCounts [moveSource p] s (s.moveEvents p o) :=
  (moveEvents_sends s p o).within (by simp) (by split <;> simp)

theorem endMissed_within (s : State) (p : Fin 8) (r : MoveRecord) : SendsWithin moveCounts [moveSource p] s (s.endMissed p r) :=
  ((writeReport_within s p _).trans (moveEvents_within _ p _)).trans (sendsWithin_of_sameBut (setMove_sameBut _ p _))

theorem enterRecord_within (s : State) (p : Fin 8) (r : MoveRecord) : SendsWithin moveCounts [moveSource p] s (s.enterRecord p r) := by
  unfold State.enterRecord
  dsimp only
  split
  · exact sendsWithin_of_sameBut (setMove_sameBut s p _)
  · split
    · split
      · exact endMissed_within s p r
      · exact (sendsWithin_of_sameBut (setMove_sameBut s p _)).trans (sendsWithin_of_sameBut (armGroup_sameBut _ _))
    · exact sendsWithin_of_sameBut (setMove_sameBut s p _)

theorem afterEnd_within (s : State) (p : Fin 8) (r : MoveRecord) (o : MoveOutcome) :
    SendsWithin moveCounts [moveSource p] s (s.afterEnd p r o) := by
  unfold State.afterEnd
  split
  · exact (sendsWithin_of_sameBut (setMove_sameBut s p _)).trans (enterRecord_within _ p _)
  · exact sendsWithin_of_sameBut (setMove_sameBut s p _)
  · exact sendsWithin_of_sameBut (setMove_sameBut s p _)

theorem endMove_within (s : State) (p : Fin 8) (r : MoveRecord) (o : MoveOutcome) :
    SendsWithin moveCounts [moveSource p] s (s.endMove p r o) :=
  ((writeReport_within s p _).trans (moveEvents_within _ p o)).trans (afterEnd_within _ p r o)

theorem moveStep_within (s : State) (p : Fin 8) : SendsWithin moveCounts [moveSource p] s (s.moveStep p) := by
  unfold State.moveStep
  dsimp only
  split <;> try exact SendsWithin.refl s
  split
  · exact sendsWithin_of_sameBut (setMove_sameBut s p _)
  · exact (sendsWithin_of_sameBut (setMove_sameBut s p _)).trans (endMove_within _ p _ _)

theorem cueWaitStep_within (s : State) (p : Fin 8) : SendsWithin moveCounts [moveSource p] s (s.cueWaitStep p) := by
  unfold State.cueWaitStep
  split <;> try exact SendsWithin.refl s
  split
  · exact (endMissed_within s p _).trans (sendsWithin_of_sameBut (leftWaiting_sameBut _ _))
  · exact sendsWithin_of_sameBut (setMove_sameBut s p _)

theorem holdMoving_within (s : State) (p : Fin 8) (r : MoveRecord) (ph : Phase) (k : Nat) :
    SendsWithin moveCounts [moveSource p] s (s.holdMoving p r ph k) := by
  unfold State.holdMoving
  split
  · exact SendsWithin.refl s
  · exact (sendsWithin_of_sameBut (setMove_sameBut s p _)).trans (endMove_within _ p _ _)
  · split <;> try exact SendsWithin.refl s
    split
    · exact endMove_within s p _ _
    · exact sendsWithin_of_sameBut (setMove_sameBut s p _)

theorem hold_within (s : State) (p : Fin 8) : SendsWithin moveCounts [moveSource p] s (s.hold p) := by
  have h1 : SendsWithin moveCounts [moveSource p] s (s.setStaged p .empty) := sendsWithin_of_sameBut (setMove_sameBut s p _)
  unfold State.hold
  dsimp only
  split
  · exact h1
  · exact h1
  · exact h1.trans (holdMoving_within _ p _ _ _)
  · exact (h1.trans (endMove_within _ p _ _)).trans (sendsWithin_of_sameBut (leftWaiting_sameBut _ _))
  · exact h1
  · exact (h1.trans (sendsWithin_of_sameBut (setMove_sameBut _ p _))).trans (moveEvents_within _ p _)

theorem afterRead_within (s : State) (p : Fin 8) : SendsWithin moveCounts [moveSource p] s (s.afterRead p) := by
  unfold State.afterRead
  split <;> try exact SendsWithin.refl s
  · exact (writeReport_within s p _).trans (afterEnd_within _ p _ _)
  · exact enterRecord_within s p _

/-- The sources of the move units. -/
abbrev moveSources : List (Fin 59) := (List.finRange 8).map moveSource

theorem moveSource_mem (p : Fin 8) : moveSource p ∈ moveSources := List.mem_map_of_mem (List.mem_finRange p)

theorem SendsWithin.toMoveSources {p : Fin 8} (h : SendsWithin moveCounts [moveSource p] s t) : SendsWithin moveCounts moveSources s t :=
  h.mono (fun _ => id) (fun n hn => by rw [List.mem_singleton] at hn; exact hn ▸ moveSource_mem p)

theorem holdAll_within (s : State) : SendsWithin moveCounts moveSources s s.holdAll := by
  refine forEach_sendsWithin (fun p t => ?_) s
  split
  · exact (hold_within t p).toMoveSources
  · exact SendsWithin.refl t

theorem gainStep_within (s : State) (p : Fin 8) (w : Nat) : SendsWithin [.gainSkipped] [] s (s.gainStep p w) := by
  have h1 : SendsWithin [.gainSkipped] [] s (s.setGain p ((s.prog p).gain.takeDue ((w : Int) - (s.prog p).move.dcur)).1.rampStep) :=
    sendsWithin_of_sameBut (setProg_sameBut s p _)
  unfold State.gainStep
  dsimp only
  split
  · exact h1
  · exact h1.trans ((foldl_count_sends _ (by decide) _ _).within (fun e he => by rw [List.eq_of_mem_replicate he]; simp) (by simp))

/-! ### Cues (R99) -/

theorem forProgs_count_sends (s : State) {e : CountEvent} (he : e ≠ .alarmRaise) (ps : List (Fin 8)) :
    Sends (ps.map (fun p => (e, some p, 1))) [] s (forProgs ps (fun p t => t.count e (some p) 1) s) := by
  unfold forProgs
  induction ps generalizing s with
  | nil => exact sends_refl _
  | cons p ps ih => exact (count_sends s he (some p) 1).trans (ih _)

theorem countCue_sends (s : State) (g : Fin 4) :
    Sends ((s.members g).map (fun p => (.cueTaken, some p, 1))) [] s (s.countCue g) :=
  (forProgs_count_sends _ (by decide) _).behind (setGroup_sameBut s g _)

/-- A cue sends CUE_TAKEN for each member, in programme order, and nothing else (R99). -/
theorem takeCue_sends (s : State) (g : Fin 4) (time : Stamp) :
    Sends ((s.members g).map (fun p => (.cueTaken, some p, 1))) [] s (s.takeCue g time) := by
  rw [takeCue_eq]
  exact (((((countCue_sends s g).before (forProgs_sameBut _ [.progs] _ _ (fun p t => startWaiting_sameBut t p))).before
    (snapshotCue_sameBut _ g time)).before (restartCue_sameBut _ g)).before (setGroup_sameBut _ g _))

theorem takeCue_within (s : State) (g : Fin 4) (time : Stamp) : SendsWithin [.cueTaken] [] s (s.takeCue g time) :=
  (takeCue_sends s g time).within (fun e he => by obtain ⟨p, -, rfl⟩ := List.mem_map.mp he; simp) (by simp)

theorem cueGroups_within (s : State) (cued : CueGroup → Bool) (time : Stamp) :
    SendsWithin [.cueTaken] [] s (s.cueGroups cued time) := by
  refine forEach_sendsWithin (fun g t => ?_) s
  split
  · exact takeCue_within t g time
  · exact SendsWithin.refl t

theorem cuesOf_within (s : State) (b : Bool) (src : CueSource) : SendsWithin [.cueTaken] [] s (s.cuesOf b src) := by
  unfold State.cuesOf
  split
  · exact cueGroups_within s _ _
  · exact SendsWithin.refl s

end Sys2Proof.Machine
end

