-- ==== Sys2Proof/Proofs/Arrivals.lean ====
section
/-! PROOFS. Frame arrivals and discards with the events they send, and what no request but ROUTE.SET and COUNT.SET changes. -/

namespace Sys2Proof.Machine

variable {s t : State}

/-! ### Discards (R183) -/

theorem discardFrame_sends (h : s.ahead = []) : Sends [(.controlErr, none, 1)] [controlSource] s s.discardFrame := by
  rw [State.discardFrame, settled_of_nil (s := s.hunt) h]
  exact ((latch_sends s.hunt controlSource_ne_counterSource).trans (count_sends _ (by decide) _ _)).behind (setPort_sameBut s _)

theorem discardFrame_sameBut (h : s.ahead = []) : s.sameBut (.port :: eventParts) s.discardFrame := by
  rw [State.discardFrame, settled_of_nil (s := s.hunt) h]
  exact sameBut_trans (sameBut_mono (setPort_sameBut s _) (by decide))
    (sameBut_mono (sameBut_trans (latch_sameBut _ _) (count_sameBut _ _ _ _)) (by decide))

theorem discardFrame_port (h : s.ahead = []) : s.discardFrame.port = { s.port with rx := .hunt, reception := [] } := by
  rw [State.discardFrame, settled_of_nil (s := s.hunt) h,
    ← sameBut_trans (latch_sameBut s.hunt controlSource) (count_sameBut _ .controlErr none 1) .port (by decide)]
  rfl

theorem latchedIn_one_iff {n : Fin 59} {stamp : Stamp} : s.latchedIn n 1 stamp t ↔
    (t.source n).raiseCount = satInc 255 (s.source n).raiseCount ∧ (t.source n).lastRaise = some stamp
      ∧ ((s.source n).accepted = false → (t.source n).pending = true) ∧ ((s.source n).accepted = true → (t.source n).again = true) := by
  rw [State.latchedIn, satInc_255]

/-- Settles O7. -/
theorem discardRaisesControlAndCounts : Obligations.DiscardRaisesControlAndCounts := by
  intro s cause hs
  refine ⟨fun hc ha => ?_, fun hc => ?_, fun hr => ?_⟩
  · have h := discardFrame_sends ha
    obtain ⟨hcount, hstamp, hpend, hagain⟩ :=
      latchedIn_one_iff.mp (h.latchedIn controlSource_ne_counterSource Nat.one_pos (List.count_singleton_self ..))
    refine ⟨_, exec_discard hs hc, discardFrame_port ha, hcount, hstamp, hpend, hagain, ?_, h.raisesCounted,
      (h.within (evs := [.controlErr]) (srcs := [controlSource]) (by simp) (by simp)).otherSources,
      (h.within (evs := [.controlErr]) (srcs := [controlSource]) (by simp) (by simp)).otherCounters, discardFrame_sameBut ha, fun hrx => ?_⟩
    · exact h.countedIn (o := none) (k := 1) (by decide) rfl
    · have hrec : s.port.receiving = true := by simpa [Port.receiving] using hrx
      simp [exec, execInterByteGap, hs, hrec]
  · simp [exec, execRequestFrameDiscard, hc]
  · have hrec : s.port.receiving = false := by simp [Port.receiving, hr]
    simp [exec, execInterByteGap, hrec]

/-! ### Arrivals (section 1.3) -/

/-- An arrival at the link itself, before its events. -/
def State.arrived (s : State) (l : Fin 8) (f : AudioFrame) (ok : Bool) : State :=
  (s.setRx l ((s.link l).rx.take (takeFrame (s.link l).rx f ok))).setConv l
    ((s.link l).conv.deliver (takeFrame (s.link l).rx f ok).slots).1

theorem arrive_of_enabled {l : Fin 8} (h : (s.link l).rx.enable = true) (f : AudioFrame) (ok : Bool) : s.arrive l f ok =
    if ((s.link l).conv.deliver (takeFrame (s.link l).rx f ok).slots).2 then
      ((s.arrived l f ok).acceptanceEvents l (takeFrame (s.link l).rx f ok)).slipEvents l
    else (s.arrived l f ok).acceptanceEvents l (takeFrame (s.link l).rx f ok) := by
  simp only [State.arrive, h, Bool.not_true, Bool.false_eq_true, if_false]
  rfl

theorem arrived_sameBut (s : State) (l : Fin 8) (f : AudioFrame) (ok : Bool) : s.sameBut [.links] (s.arrived l f ok) :=
  sameBut_trans (setLink_sameBut s l _) (setLink_sameBut _ l _)

theorem arrived_link (s : State) (l : Fin 8) (f : AudioFrame) (ok : Bool) : (s.arrived l f ok).link l =
    ⟨(s.link l).rx.take (takeFrame (s.link l).rx f ok), ((s.link l).conv.deliver (takeFrame (s.link l).rx f ok).slots).1⟩ := by
  simp [State.arrived, State.setConv, State.setRx]

theorem arrived_otherLinks (s : State) (l : Fin 8) (f : AudioFrame) (ok : Bool) : s.otherLinks l (s.arrived l f ok) := by
  intro k hk
  simp [State.arrived, State.setConv, State.setRx, State.link_setLink_ne _ hk]

/-- The counting events of an arrival (R10, R30). -/
def arrivalSent (l : Fin 8) (t : Taken) (slip : Bool) : List Sent := t.sent l ++ if slip then [(.slip, some l, 1)] else []

theorem arrive_sends {l : Fin 8} (h : (s.link l).rx.enable = true) (f : AudioFrame) (ok : Bool) :
    Sends (arrivalSent l (takeFrame (s.link l).rx f ok) ((s.link l).conv.deliver (takeFrame (s.link l).rx f ok).slots).2)
      (if ((s.link l).conv.deliver (takeFrame (s.link l).rx f ok).slots).2 then [slipSource l] else []) s (s.arrive l f ok) := by
  rw [arrive_of_enabled h]
  have ha := (acceptanceEvents_sends (s.arrived l f ok) l (takeFrame (s.link l).rx f ok)).behind (arrived_sameBut s l f ok)
  unfold arrivalSent
  split
  · exact ha.trans (slipEvents_sends _ l)
  · rw [List.append_nil]; exact ha

theorem arrive_links {l : Fin 8} (h : (s.link l).rx.enable = true) (f : AudioFrame) (ok : Bool) :
    (s.arrive l f ok).links = (s.arrived l f ok).links := by
  rw [arrive_of_enabled h]
  split
  · rw [State.slipEvents_links, State.acceptanceEvents_links]
  · rw [State.acceptanceEvents_links]

theorem filter_sent_frameSubst (l : Fin 8) (t : Taken) (slip : Bool) : (arrivalSent l t slip).filter (fun x => x.1 == .frameSubst)
    = List.replicate (if t.substituted then 1 else 0) (.frameSubst, some l, 1) := by
  cases hs : t.substituted <;> cases slip <;> simp [arrivalSent, Taken.sent, hs]

theorem filter_sent_slotInvalid (l : Fin 8) (t : Taken) (slip : Bool) : (arrivalSent l t slip).filter (fun x => x.1 == .slotInvalid)
    = List.replicate t.zeroed (.slotInvalid, some l, 1) := by
  cases hs : t.substituted <;> cases slip <;> simp [arrivalSent, Taken.sent, hs]

theorem filter_sent_slip (l : Fin 8) (t : Taken) (slip : Bool) : (arrivalSent l t slip).filter (fun x => x.1 == .slip)
    = List.replicate (if slip then 1 else 0) (.slip, some l, 1) := by
  cases hs : t.substituted <;> cases slip <;> simp [arrivalSent, Taken.sent, hs]

theorem arrivalSent_events (l : Fin 8) (t : Taken) (slip : Bool) : ∀ e ∈ arrivalSent l t slip, e.1 ∈ [CountEvent.frameSubst, .slotInvalid, .slip] := by
  intro e he
  simp only [arrivalSent, Taken.sent, List.mem_append, List.mem_replicate] at he
  rcases he with (he | ⟨-, rfl⟩) | he
  · split at he <;> simp_all
  · simp
  · split at he <;> simp_all

theorem repeat_eq_iterate {α : Type} (f : α → α) (n : Nat) (a : α) : Nat.repeat f n a = f^[n] a := by
  induction n with
  | zero => rfl
  | succ n ih => rw [Function.iterate_succ_apply', ← ih]; rfl

/-- Settles O15. -/
theorem frameArrivalIsCountedAndDelivered : Obligations.FrameArrivalIsCountedAndDelivered := by
  intro s l f ok
  refine ⟨fun h => by simp [exec, execFrameArrival, h], fun h ha => ?_⟩
  have hexec : exec (.frameArrival l f ok) s = .next (s.arrive l f ok) := by simp [exec, execFrameArrival, h, settled_of_nil ha]
  have hsends := arrive_sends h f ok
  have hlink : (s.arrive l f ok).link l = (s.arrived l f ok).link l := State.link_congr (arrive_links h f ok) l
  have hwithin := hsends.within (srcs := [slipSource l]) (arrivalSent_events _ _ _) (by split <;> simp)
  have hsubst := hsends.countedIn (by decide) (filter_sent_frameSubst _ _ _)
  have hslip := hsends.countedIn (by decide) (filter_sent_slip _ _ _)
  have hinvalid := hsends.countedIn (by decide) (filter_sent_slotInvalid _ _ _)
  refine ⟨_, hexec, ?_, ?_, fun hs => ?_, fun c hc => ?_, fun hs => ⟨?_, ?_, ?_⟩, fun hs c hc => ?_, fun hs => ⟨?_, ?_, fun c hc => ?_⟩,
    fun k hk => ?_, hwithin.otherSources, hwithin.otherCounters, arrive_sameBut s l f ok⟩
  · rw [hlink, arrived_link]; rfl
  · rw [hlink, arrived_link]
  · rw [hs] at hsubst; exact hsubst
  · rw [hinvalid c hc, repeat_eq_iterate]
  · rw [hs] at hslip; exact hslip
  · exact hsends.latchedIn (slipSource_ne_counterSource l) Nat.one_pos (by rw [hs, if_pos rfl, List.count_singleton_self])
  · have := hsends.raisesCounted; rw [hs] at this; exact this
  · rw [hs] at hsubst; exact hsubst c hc
  · exact hsends.source_of_not_mem (slipSource_ne_counterSource l) (by rw [hs]; simp)
  · have := hsends.raisesCounted; rw [hs] at this; exact this
  · rw [hs] at hslip; exact hslip c hc
  · rw [State.link_congr (arrive_links h f ok) k]; exact arrived_otherLinks s l f ok k hk

/-! ### One writer (R39, R180) -/

theorem countRaises_once (s : State) : Raised 1 0 s (countRaises 9 1 s) :=
  countRaises_raised s (by have := uncrossed_le s; omega)

theorem closedLive_sameBut (s : State) (p : Fin 8) (e : Extent) : s.sameBut [.progs, .freeList, .groups] (s.closedLive p e) := by
  have hc := sameBut_mono (qs := [.progs, .freeList, .groups]) (closeProgramme_sameBut s p (s.prog p).closedLive e) (by decide)
  unfold State.closedLive
  split
  · exact sameBut_trans hc (sameBut_mono (leftWaiting_sameBut _ _) (by decide))
  · exact hc

theorem closeSources_sameBut (s : State) (p : Fin 8) : s.sameBut [.sources, .attn, .contacts] (s.closeSources p) :=
  sameBut_trans (sameBut_trans (setSource_sameBut_flags s _ _) (setSource_sameBut_flags _ _ _)) (setSource_sameBut_flags _ _ _)

theorem effect_settings (h : Effect s t) (c : Fin 8) : (t.counter c).zeroed = (s.counter c).zeroed := by
  have same {ps : List Part} {u : State} (hb : s.sameBut ps u) (hp : Part.counters ∉ ps := by decide) :
      (u.counter c).zeroed = (s.counter c).zeroed := by rw [State.counter_congr (hb .counters hp)]
  cases h with
  | nothing => rfl
  | linkSet l en pp sp =>
    unfold State.setLinkPolicy
    dsimp only
    split
    · rfl
    · exact (report_raised _ (lockSource_ne_counterSource l) en).bank.settings c
  | opened x p ls g start free hx hc hl ha => rfl
  | closedClearing p e left k hl => rfl
  | closedLive p e w hl =>
    exact same (sameBut_trans (sameBut_mono (qs := [.progs, .freeList, .groups, .sources, .attn, .contacts]) (closedLive_sameBut s p e.extent) (by decide))
      (sameBut_mono (closeSources_sameBut _ p) (by decide)))
  | grouped p g hc => rfl
  | drafted p r v hr => rfl
  | committed p r hd h0 h1 => rfl
  | unstaged p => rfl
  | started p r hd hr => exact (enterRecord_within _ p r).bank.settings c
  | held p => exact (hold_within s p).bank.settings c
  | heldAll => exact (holdAll_within s).bank.settings c
  | resumed p r hh => exact (enterRecord_within s p _).bank.settings c
  | reportsRead p => exact (afterRead_within _ p).bank.settings c
  | cueSet g src timeout restart snapshot => exact (report_raised _ frameRefSource_ne_counterSource _).bank.settings c
  | armed g => exact same (armGroup_sameBut s _)
  | cued g => exact (takeCue_within s g _).bank.settings c
  | snapRead g x => rfl
  | loudSet p x => rfl
  | loudRestart p => rfl
  | loudRead p => rfl
  | gainSet p x m => rfl
  | almSet n prio masked rt ct hn =>
    unfold State.storeSettings
    split
    · exact (countRaises_once _).bank.settings c
    · split <;> rfl
  | almLevel v => rfl
  | almNext n hn => rfl
  | almClose n hn => rfl
  | contactSet c ceil m => rfl
  | zeroed k =>
    by_cases hk : c = k
    · subst hk; rw [State.counter_setCounter]; rfl
    · rw [State.counter_setCounter_ne s hk]
  | allZeroed =>
    have h : (s.clearCounters.counter c).zeroed = (s.counter c).zeroed := by rw [clearCounters_counter]; rfl
    exact h

/-- Settles O21. -/
theorem routesAndCounterSettingsHaveOneWriter : Obligations.RoutesAndCounterSettingsHaveOneWriter := by
  intro code body s
  refine ⟨fun hr => ?_, fun hc c => ?_⟩
  · by_cases hc : code = 0x70
    · subst hc
      rw [show takeRequest 0x70 body s = takeCountSet body s from rfl]
      rcases takeCountSet_cases s body with ⟨st, h⟩ | ⟨k, x, h⟩ <;> rw [h] <;> rfl
    · rcases takeRequest_lawful s body hr hc with ⟨st, h⟩ | ⟨-, h⟩
      · rw [h]; rfl
      · exact (effect_sameBut h .routes (by decide)).symm
  · have hz : ((takeRequest code body s).state.counter c).zeroed = (s.counter c).zeroed := by
      by_cases hr : code = 0x12
      · subst hr
        rw [show takeRequest 0x12 body s = takeRouteSet body s from rfl]
        rcases takeRouteSet_cases s body with ⟨st, h⟩ | ⟨n, r, h⟩ <;> rw [h] <;> rfl
      · rcases takeRequest_lawful s body hr hc with ⟨st, h⟩ | ⟨-, h⟩
        · rw [h]; rfl
        · exact effect_settings h c
    simp only [Counter.zeroed, Counter.mk.injEq] at hz
    obtain ⟨h1, h2, h3, h4, h5, -, -⟩ := hz
    exact ⟨h1, h2, h3, h4, h5⟩

end Sys2Proof.Machine
end

