-- ==== Sys2Proof/Proofs/AlarmLaws.lean ====
section
/-! PROOFS. Events and condition reports together, and the laws of the alarm sources and of ATTN and the contacts, which every
step keeps (chapters 8 and 9). -/

namespace Sys2Proof.Machine

variable {s t u : State}

/-! ### Level sources -/

theorem level_ne_counterSource {n : Fin 59} (h : sourceIsLevel n = true) : n ≠ counterSource := by rintro rfl; cases h

theorem lockSource_level (l : Fin 8) : sourceIsLevel (lockSource l) = true := by revert l; decide
theorem silenceSource_level (p : Fin 8) : sourceIsLevel (silenceSource p) = true := by revert p; decide
theorem loudHighSource_level (p : Fin 8) : sourceIsLevel (loudHighSource p) = true := by revert p; decide
theorem loudLowSource_level (p : Fin 8) : sourceIsLevel (loudLowSource p) = true := by revert p; decide
theorem frameRefSource_level : sourceIsLevel frameRefSource = true := by decide

/-! ### One source under events and reports -/

/-- What events and, at a level source, reports and timer steps leave of a source: its priority and the accepted flag, no pending flag
beside an accepted one, and of a latched source all that only a level source uses (R144, R152). -/
structure Source.keptAs (lvl : Bool) (r x : Source) : Prop where
  priority : x.priority = r.priority
  accepted : x.accepted = r.accepted
  pending : x.pending = true → r.pending = true ∨ r.accepted = false
  condition : lvl = false → x.condition = r.condition
  qualified : lvl = false → x.qualified = r.qualified
  timer : lvl = false → x.timer = r.timer
  raiseTime : lvl = false → x.raiseTime = r.raiseTime
  clearTime : lvl = false → x.clearTime = r.clearTime

theorem Source.keptAs.refl (lvl : Bool) (r : Source) : r.keptAs lvl r :=
  ⟨rfl, rfl, .inl, fun _ => rfl, fun _ => rfl, fun _ => rfl, fun _ => rfl, fun _ => rfl⟩

theorem Source.keptAs.trans {lvl : Bool} {r x y : Source} (h : r.keptAs lvl x) (k : x.keptAs lvl y) : r.keptAs lvl y where
  priority := k.priority.trans h.priority
  accepted := k.accepted.trans h.accepted
  pending hy := (k.pending hy).elim h.pending (fun hx => .inr (h.accepted ▸ hx))
  condition hl := (k.condition hl).trans (h.condition hl)
  qualified hl := (k.qualified hl).trans (h.qualified hl)
  timer hl := (k.timer hl).trans (h.timer hl)
  raiseTime hl := (k.raiseTime hl).trans (h.raiseTime hl)
  clearTime hl := (k.clearTime hl).trans (h.clearTime hl)

/-- At a level source the first three suffice. -/
theorem Source.keptAs.ofLevel {r x : Source} (hp : x.priority = r.priority) (ha : x.accepted = r.accepted)
    (hpend : x.pending = true → r.pending = true ∨ r.accepted = false) : r.keptAs true x :=
  ⟨hp, ha, hpend, nofun, nofun, nofun, nofun, nofun⟩

theorem latched_pending (r : Source) (hsc : Stamp) (h : ((r.raised hsc).latched).pending = true) : r.pending = true ∨ r.accepted = false := by
  cases ha : r.accepted
  · exact .inr rfl
  · rw [Source.latched, if_pos (by exact ha)] at h; exact .inl h

theorem latchedTimes_keptAs (hsc : Stamp) (k : Nat) (lvl : Bool) (r : Source) : r.keptAs lvl (r.latchedTimes hsc k) := by
  have hpend : (r.latchedTimes hsc k).pending = true → r.pending = true ∨ r.accepted = false := by
    induction k with
    | zero => exact .inl
    | succ k ih =>
      intro h
      rcases latched_pending (r.latchedTimes hsc k) hsc h with h | h
      · exact ih h
      · exact .inr ((Source.latchedTimes_accepted hsc k r).symm.trans h)
  obtain ⟨hcond, hqual, htimer, hprio, -, hraise, hclear⟩ := latchedTimes_settings hsc k r
  exact ⟨hprio, Source.latchedTimes_accepted hsc k r, hpend, fun _ => hcond, fun _ => hqual, fun _ => htimer, fun _ => hraise, fun _ => hclear⟩

theorem qualifiedAt_keptAs (hsc : Stamp) (r : Source) : r.keptAs true (r.qualifiedAt hsc) :=
  .ofLevel rfl rfl (fun h => by simpa [Source.qualifiedAt] using h)

theorem reported_keptAs (hsc : Stamp) (v : Bool) (r : Source) : r.keptAs true (r.reported hsc v) := by
  unfold Source.reported
  split
  · exact .refl true r
  · split
    · exact .ofLevel rfl rfl (fun h => by simpa [Source.qualifiedAt] using h)
    · split
      · exact .ofLevel rfl rfl nofun
      · exact .ofLevel rfl rfl .inl

theorem stepped_keptAs (hsc : Stamp) (r : Source) : r.keptAs true (r.stepped hsc) := by
  unfold Source.stepped
  split
  · exact .refl true r
  · split
    · exact qualifiedAt_keptAs hsc r
    · split
      · exact .ofLevel rfl rfl nofun
      · exact .ofLevel rfl rfl .inl

theorem stepped_condition (hsc : Stamp) (r : Source) : (r.stepped hsc).condition = r.condition := by
  unfold Source.stepped
  split
  · rfl
  · split
    · rfl
    · split <;> rfl

/-! ### Events and reports -/

/-- Between the two states only events, condition reports of the listed level sources and timer steps have been sent. -/
inductive Signals (ns : List (Fin 59)) : State → State → Prop where
  | sends {s t : State} {evs : List CountEvent} {srcs : List (Fin 59)} (h : SendsWithin evs srcs s t) : Signals ns s t
  | report (s : State) (n : Fin 59) (v : Bool) (hn : n ∈ ns) (hl : sourceIsLevel n = true) : Signals ns s (s.report n v)
  | timer (s : State) (n : Fin 59) (hl : sourceIsLevel n = true) : Signals ns s (s.timerStep n)
  | trans {s t u : State} (h : Signals ns s t) (k : Signals ns t u) : Signals ns s u

section
variable {ns ms : List (Fin 59)}

theorem Signals.refl (s : State) : Signals ns s s := .sends (evs := []) (srcs := []) (SendsWithin.refl s)

theorem Signals.mono (h : Signals ns s t) (hm : ∀ n ∈ ns, n ∈ ms) : Signals ms s t := by
  induction h with
  | sends h => exact .sends h
  | report s n v hn hl => exact .report s n v (hm n hn) hl
  | timer s n hl => exact .timer s n hl
  | trans _ _ h k => exact h.trans k

theorem signals_of_sameBut {ps : List Part} (h : s.sameBut ps t) (hp : ∀ x ∈ sendingParts, x ∉ ps := by decide) : Signals ns s t :=
  .sends (evs := []) (srcs := []) (sendsWithin_of_sameBut h hp)

/-- Raises leave COUNTER as latched events do (R176). -/
theorem counterSource_keptAs {own i : Nat} (h : Raised own i s t) : (s.source counterSource).keptAs false (t.source counterSource) := by
  rw [h.latched]; exact latchedTimes_keptAs _ _ _ _

theorem Signals.keptAs (h : Signals ns s t) (n : Fin 59) : (s.source n).keptAs (sourceIsLevel n) (t.source n) := by
  have other {s t : State} {own i : Nat} (m : Fin 59) (hr : Raised own i s t)
      (hm : m ≠ counterSource → (s.source m).keptAs (sourceIsLevel m) (t.source m)) : (s.source m).keptAs (sourceIsLevel m) (t.source m) := by
    by_cases hc : m = counterSource
    · subst hc; exact counterSource_keptAs hr
    · exact hm hc
  induction h with
  | sends h =>
    obtain ⟨_, _, -, -, h⟩ := h
    exact other n h.raised (fun hn => by rw [h.source n hn]; exact latchedTimes_keptAs _ _ _ _)
  | report s m v hm hl =>
    refine other n (report_raised s (level_ne_counterSource hl) v) (fun hn => ?_)
    by_cases hnm : n = m
    · subst hnm; rw [report_source s hn, hl]; exact reported_keptAs _ _ _
    · rw [report_source_ne s hn hnm]; exact .refl _ _
  | timer s m hl =>
    refine other n (timerStep_raised s (level_ne_counterSource hl)) (fun hn => ?_)
    by_cases hnm : n = m
    · subst hnm; rw [timerStep_source s hn, hl]; exact stepped_keptAs _ _
    · rw [timerStep_source_ne s hn hnm]; exact .refl _ _
  | trans _ _ h k => exact h.trans k

/-- A source that no report names holds its condition (R145). -/
theorem Signals.condition (h : Signals ns s t) {n : Fin 59} (hn : n ≠ counterSource) (hns : n ∉ ns) :
    (t.source n).condition = (s.source n).condition := by
  induction h with
  | sends h => exact h.condition hn
  | report s m v hm _ => rw [report_source_ne s hn (fun h => hns (h ▸ hm))]
  | timer s m hl =>
    by_cases hnm : n = m
    · subst hnm; rw [timerStep_source s hn, stepped_condition]
    · rw [timerStep_source_ne s hn hnm]
  | trans _ _ h k => exact k.trans h

theorem Signals.outputsSafe (h : Signals ns s t) (hs : s.outputsSafe) : t.outputsSafe := by
  induction h with
  | sends h => obtain ⟨_, _, -, -, h⟩ := h; exact h.outputs hs
  | report s n v _ _ => exact report_outputsSafe n v hs
  | timer s n _ => exact timerStep_outputsSafe n hs
  | trans _ _ h k => exact k (h hs)

theorem sourcesSafe_of_keptAs (h : ∀ n, (s.source n).keptAs (sourceIsLevel n) (t.source n)) (hs : s.sourcesSafe) : t.sourcesSafe := by
  obtain ⟨h1, h2, h3, h4⟩ := hs
  refine ⟨fun n ⟨hp, ha⟩ => ?_, fun n => (h n).priority ▸ h2 n, fun m n hm hn hmn => ?_, fun n hl => ?_⟩
  · rw [(h n).accepted] at ha
    exact ((h n).pending hp).elim (fun hp => h1 n ⟨hp, ha⟩) (fun h0 => absurd (ha.symm.trans h0) (by decide))
  · rw [(h m).accepted] at hm
    rw [(h n).accepted] at hn
    rw [(h m).priority, (h n).priority] at hmn
    exact h3 m n hm hn hmn
  · rw [(h n).condition hl, (h n).qualified hl, (h n).timer hl, (h n).raiseTime hl, (h n).clearTime hl]
    exact h4 n hl

theorem Signals.sourcesSafe (h : Signals ns s t) : s.sourcesSafe → t.sourcesSafe := sourcesSafe_of_keptAs h.keptAs

end

/-! ### What the operations send and report -/

theorem Sends.signals {es : List Sent} {ns ms : List (Fin 59)} (h : Sends es ms s t) : Signals ns s t :=
  .sends (h.within (evs := es.map Prod.fst) (srcs := ms) (fun _ he => List.mem_map_of_mem he) (fun _ hm => hm))

theorem count_signals {ns : List (Fin 59)} (s : State) {e : CountEvent} (he : e ≠ .alarmRaise) (o : Option (Fin 8)) (k : Nat) :
    Signals ns s (s.count e o k) := (count_sends s he o k).signals

theorem ite_signals {ns : List (Fin 59)} {b : Prop} [Decidable b] (h : Signals ns s t) (k : Signals ns t u) : Signals ns s (if b then u else t) := by
  split
  · exact h.trans k
  · exact h

/-- A link at a block end before what it sends (R11, R33). -/
def State.linkJudged (s : State) (l : Fin 8) : State :=
  s.setLink l ⟨(s.link l).rx.blockEnd, { ((s.link l).conv.judgeWindow (s.link l).rx.arrivalCount).conv with
    notLocked := !((s.link l).conv.judgeWindow (s.link l).rx.arrivalCount).conv.state.isLocked }⟩

/-- The events of a link at a block end: LOCK_LOSS, a slip and FIFO_OCC (R30, R36). -/
def State.linkEvents (s t : State) (l : Fin 8) : State :=
  let t := if ((s.link l).conv.judgeWindow (s.link l).rx.arrivalCount).lockLoss then t.count .lockLoss (some l) 1 else t
  let t := if ((s.link l).conv.judgeWindow (s.link l).rx.arrivalCount).slip then t.slipEvents l else t
  if (s.link l).conv.state.isOff then t else t.count .fifoOcc (some l) (s.link l).conv.fifo.length

theorem linkBlockEnd_eq (s : State) (l : Fin 8) : s.linkBlockEnd l =
    (s.linkEvents (s.linkJudged l) l).report (lockSource l) ((s.linkEvents (s.linkJudged l) l).link l).lockCondition := rfl

theorem linkEvents_signals {ns : List (Fin 59)} (s t : State) (l : Fin 8) : Signals ns t (s.linkEvents t l) := by
  have h1 := ite_signals (b := ((s.link l).conv.judgeWindow (s.link l).rx.arrivalCount).lockLoss = true) (.refl t)
    (count_signals (ns := ns) t (e := .lockLoss) (by decide) (some l) 1)
  have h2 := ite_signals (b := ((s.link l).conv.judgeWindow (s.link l).rx.arrivalCount).slip = true) h1 (slipEvents_sends _ l).signals
  unfold State.linkEvents
  dsimp only
  split
  · exact h2
  · exact h2.trans (count_signals _ (by decide) _ _)

theorem linkBlockEnd_signals (s : State) (l : Fin 8) : Signals [lockSource l] s (s.linkBlockEnd l) := by
  rw [linkBlockEnd_eq]
  exact ((signals_of_sameBut (setLink_sameBut s l _)).trans (linkEvents_signals s _ l)).trans (.report _ _ _ (by simp) (lockSource_level l))

theorem readConverter_signals {ns : List (Fin 59)} (s : State) (l : Fin 8) : Signals ns s (s.readConverter l) := by
  have h : Signals ns s (s.setConv l (s.link l).conv.read.conv) := signals_of_sameBut (setLink_sameBut s l _)
  unfold State.readConverter
  exact ite_signals h (slipEvents_sends _ l).signals

theorem arrive_signals {ns : List (Fin 59)} (s : State) (l : Fin 8) (f : AudioFrame) (ok : Bool) : Signals ns s (s.arrive l f ok) := by
  cases h : (s.link l).rx.enable
  · simp only [State.arrive, h, Bool.not_false, if_true]; exact .refl s
  · exact (arrive_sends h f ok).signals

theorem gainResult_signals {ns : List (Fin 59)} (s : State) (p : Fin 8) (set : LoudSettings) (r : BlockResult) (w : Nat) :
    Signals ns s (s.gainResult p set r w) := by
  have hset (x : Corrector) : Signals ns s (s.setGain p x) := signals_of_sameBut (setProg_sameBut s p _)
  unfold State.gainResult
  dsimp only
  split
  · exact ite_signals (ite_signals (hset _) (count_signals _ (by decide) _ _)) (count_signals _ (by decide) _ _)
  · exact hset _

/-- The level sources of a programme's loudness conditions (R117, R118). -/
abbrev loudSources (p : Fin 8) : List (Fin 59) := [silenceSource p, loudHighSource p, loudLowSource p]

theorem meterEvents_signals (s : State) (p : Fin 8) (set : LoudSettings) (r : BlockResult) : Signals (loudSources p) s (s.meterEvents p set r) :=
  ite_signals (((Signals.report s _ _ (by simp) (silenceSource_level p)).trans (.report _ _ _ (by simp) (loudHighSource_level p))).trans
    (.report _ _ _ (by simp) (loudLowSource_level p))) (latch_sends _ (overloadSource_ne_counterSource p)).signals

theorem sendClipped_signals {ns : List (Fin 59)} (s : State) (p : Fin 8) : Signals ns s (s.sendClipped p) := by
  unfold State.sendClipped
  dsimp only
  split
  · exact .refl s
  · exact (signals_of_sameBut (setProg_sameBut s p _)).trans (count_signals _ (by decide) _ _)

theorem programmeBlockEnd_signals (m : Vector Bool 8) (p : Fin 8) (s : State) : Signals (loudSources p) s (State.programmeBlockEnd m p s) := by
  have set (x : Meter) : Signals (loudSources p) s (s.setMeter p x) := signals_of_sameBut (setProg_sameBut s p _)
  unfold State.programmeBlockEnd
  dsimp only
  split
  · exact .refl s
  · exact .refl s
  · split
    · exact (set _).trans (sendClipped_signals _ p)
    · exact (((set _).trans (gainResult_signals _ p _ _ _)).trans (meterEvents_signals _ p _ _)).trans (sendClipped_signals _ p)

theorem reportFrameRef_signals (s : State) : Signals [frameRefSource] s s.reportFrameRef :=
  .report s _ _ (by simp) frameRefSource_level

theorem setLinkPolicy_signals (s : State) (l : Fin 8) (en : Bool) (pp : ParityPolicy) (sp : SlotPolicy) :
    Signals [lockSource l] s (s.setLinkPolicy l en pp sp) := by
  unfold State.setLinkPolicy
  dsimp only
  split
  · exact signals_of_sameBut (setLink_sameBut s l _)
  · exact (signals_of_sameBut (setLink_sameBut s l _)).trans (.report _ _ _ (by simp) (lockSource_level l))

theorem SendsWithin.signals {evs : List CountEvent} {srcs ns : List (Fin 59)} (h : SendsWithin evs srcs s t) : Signals ns s t := .sends h

/-! ### What a request sends -/

/-- The requests that reach the alarm sources, the contacts or the counters otherwise than by events and reports. -/
inductive DirectEffect (s : State) : State → Prop where
  | closed (u : State) (p : Fin 8) (h : Signals [] s u) : DirectEffect s (u.closeSources p)
  | almSet (n : Fin 59) (prio : Nat) (masked : Bool) (rt ct : Nat)
      (hn : (s.source n).accepted = true → min prio 7 = (s.source n).priority) :
      DirectEffect s (s.storeSettings n ((s.source n).withSettings (sourceIsLevel n) prio masked rt ct))
  | almLevel (v : Nat) : DirectEffect s (State.judge { s with threshold := v })
  | almNext (n : Fin 59) (hn : s.pick = some n) : DirectEffect s (s.setSource n { s.source n with pending := false, accepted := true })
  | almClose (n : Fin 59) (hn : (s.source n).accepted = true) : DirectEffect s (s.setSource n ((s.source n).closed (sourceIsLevel n)))
  | contactSet (c : Fin 4) (ceil : Option Nat) (m : Nat) :
      DirectEffect s (s.setContact c ((s.contact c).set (demand s.sources ceil) ceil m))
  | bank (t : State) (h : s.sameBut [.counters] t) : DirectEffect s t

theorem effect_signals (h : Effect s t) : (∃ l en pp sp, t = s.setLinkPolicy l en pp sp) ∨ Signals [frameRefSource] s t ∨ DirectEffect s t := by
  cases h with
  | nothing => exact .inr (.inl (.refl s))
  | linkSet l en pp sp => exact .inl ⟨l, en, pp, sp, rfl⟩
  | opened x p ls g start free hx hc hl ha =>
    have hfree : s.sameBut [.freeList] { s with freeList := free } := fun q hq => by cases q <;> first | rfl | exact absurd (by decide) hq
    exact .inr (.inl ((signals_of_sameBut hfree).trans (signals_of_sameBut (setProg_sameBut _ p _))))
  | closedClearing p e left k hl => exact .inr (.inl (signals_of_sameBut (closeProgramme_sameBut s p _ _)))
  | closedLive p e w hl => exact .inr (.inr (.closed _ p (signals_of_sameBut (closedLive_sameBut s p e.extent))))
  | grouped p g hc => exact .inr (.inl (signals_of_sameBut (setProg_sameBut s p _)))
  | drafted p r v hr => exact .inr (.inl (signals_of_sameBut (setMove_sameBut s p _)))
  | committed p r hd h0 h1 => exact .inr (.inl (signals_of_sameBut (setMove_sameBut s p _)))
  | unstaged p => exact .inr (.inl (signals_of_sameBut (setMove_sameBut s p _)))
  | started p r hd hr => exact .inr (.inl ((signals_of_sameBut (setMove_sameBut s p _)).trans (enterRecord_within _ p r).signals))
  | held p => exact .inr (.inl (hold_within s p).signals)
  | heldAll => exact .inr (.inl (holdAll_within s).signals)
  | resumed p r hh => exact .inr (.inl (enterRecord_within s p _).signals)
  | reportsRead p => exact .inr (.inl ((signals_of_sameBut (setMove_sameBut s p _)).trans (afterRead_within _ p).signals))
  | cueSet g src timeout restart snapshot =>
    exact .inr (.inl ((signals_of_sameBut (setGroup_sameBut s g _)).trans (reportFrameRef_signals _)))
  | armed g => exact .inr (.inl (signals_of_sameBut (armGroup_sameBut s _)))
  | cued g => exact .inr (.inl (takeCue_within s g _).signals)
  | snapRead g x => exact .inr (.inl (signals_of_sameBut (setSnap_sameBut s g x)))
  | loudSet p x => exact .inr (.inl (signals_of_sameBut (setProg_sameBut s p _)))
  | loudRestart p => exact .inr (.inl (signals_of_sameBut (setProg_sameBut s p _)))
  | loudRead p => exact .inr (.inl (signals_of_sameBut (setProg_sameBut s p _)))
  | gainSet p x m => exact .inr (.inl (signals_of_sameBut (setProg_sameBut s p _)))
  | almSet n prio masked rt ct hn => exact .inr (.inr (.almSet n prio masked rt ct hn))
  | almLevel v => exact .inr (.inr (.almLevel v))
  | almNext n hn => exact .inr (.inr (.almNext n hn))
  | almClose n hn => exact .inr (.inr (.almClose n hn))
  | contactSet c ceil m => exact .inr (.inr (.contactSet c ceil m))
  | zeroed c => exact .inr (.inr (.bank _ (setCounter_sameBut s c _)))
  | allZeroed => exact .inr (.inr (.bank _ (clearCounters_sameBut s)))

/-! ### The law of the sources (R144, R152, R158) -/

theorem setSource_sourcesSafe {n : Fin 59} {x : Source} (h : (s.source n).keptAs (sourceIsLevel n) x) (hs : s.sourcesSafe) :
    (s.setSource n x).sourcesSafe := by
  refine sourcesSafe_of_keptAs (fun m => ?_) hs
  by_cases hm : m = n
  · subst hm; rw [State.source_setSource]; exact h
  · rw [State.source_setSource_ne s hm]; exact .refl _ _

theorem closedSource_keptAs (r : Source) :
    r.keptAs true { r with condition := false, timer := 0, qualified := false, pending := r.pending && !r.qualified } :=
  .ofLevel rfl rfl (fun h => .inl (by simp at h; exact h.1))

theorem closeSources_sourcesSafe (p : Fin 8) (h : s.sourcesSafe) : (s.closeSources p).sourcesSafe := by
  have close {n : Fin 59} {u : State} (hl : sourceIsLevel n = true) (hu : u.sourcesSafe) : (u.closeSource n).sourcesSafe :=
    setSource_sourcesSafe (by rw [hl]; exact closedSource_keptAs _) hu
  exact close (loudLowSource_level p) (close (loudHighSource_level p) (close (silenceSource_level p) h))

theorem pick_eligible {n : Fin 59} (h : s.pick = some n) : s.eligibleAt n :=
  (mem_sourcesWith s (Source.eligible (acceptLevel s.sources) s.threshold) n).mp (mem_of_pickOf (pick_eq_pickOf s ▸ h))

theorem almNext_sourcesSafe {n : Fin 59} (hn : s.pick = some n) (hs : s.sourcesSafe) :
    (s.setSource n { s.source n with pending := false, accepted := true }).sourcesSafe := by
  obtain ⟨-, -, hbelow, -, -⟩ := (eligibleAt_iff s n).mp (pick_eligible hn)
  have hfree (m : Fin 59) (hm : (s.source m).accepted = true) : (s.source m).priority ≠ (s.source n).priority :=
    fun h => absurd (hbelow m hm) (by omega)
  have hself : (s.setSource n { s.source n with pending := false, accepted := true }).source n
      = { s.source n with pending := false, accepted := true } := State.source_setSource s n _
  have hother {m : Fin 59} (hm : m ≠ n) := State.source_setSource_ne s hm { s.source n with pending := false, accepted := true }
  obtain ⟨h1, h2, h3, h4⟩ := hs
  refine ⟨fun m => ?_, fun m => ?_, fun m k hm hk hmk => ?_, fun m hl => ?_⟩
  · by_cases hm : m = n
    · subst hm; rw [hself]; simp
    · rw [hother hm]; exact h1 m
  · by_cases hm : m = n
    · subst hm; rw [hself]; exact h2 m
    · rw [hother hm]; exact h2 m
  · by_cases hmn : m = n <;> by_cases hkn : k = n
    · rw [hmn, hkn]
    · subst hmn; rw [hself, hother hkn] at hmk; rw [hother hkn] at hk; exact absurd hmk.symm (hfree k hk)
    · subst hkn; rw [hself, hother hmn] at hmk; rw [hother hmn] at hm; exact absurd hmk (hfree m hm)
    · rw [hother hmn] at hm hmk; rw [hother hkn] at hk hmk; exact h3 m k hm hk hmk
  · by_cases hm : m = n
    · subst hm; rw [hself]; exact h4 m hl
    · rw [hother hm]; exact h4 m hl

theorem almClose_sourcesSafe (n : Fin 59) (hs : s.sourcesSafe) : (s.setSource n ((s.source n).closed (sourceIsLevel n))).sourcesSafe := by
  have hself : (s.setSource n ((s.source n).closed (sourceIsLevel n))).source n = (s.source n).closed (sourceIsLevel n) :=
    State.source_setSource s n _
  have hother {m : Fin 59} (hm : m ≠ n) := State.source_setSource_ne s hm ((s.source n).closed (sourceIsLevel n))
  have hacc (m : Fin 59) (h : ((s.setSource n ((s.source n).closed (sourceIsLevel n))).source m).accepted = true) :
      m ≠ n ∧ (s.source m).accepted = true := by
    by_cases hm : m = n
    · subst hm; rw [hself] at h; cases h
    · rw [hother hm] at h; exact ⟨hm, h⟩
  obtain ⟨h1, h2, h3, h4⟩ := hs
  refine ⟨fun m ⟨hp, ha⟩ => ?_, fun m => ?_, fun m k hm hk hmk => ?_, fun m hl => ?_⟩
  · obtain ⟨hm, ha⟩ := hacc m ha
    rw [hother hm] at hp
    exact h1 m ⟨hp, ha⟩
  · by_cases hm : m = n
    · subst hm; rw [hself]; exact h2 m
    · rw [hother hm]; exact h2 m
  · obtain ⟨hmn, hm⟩ := hacc m hm
    obtain ⟨hkn, hk⟩ := hacc k hk
    rw [hother hmn, hother hkn] at hmk
    exact h3 m k hm hk hmk
  · by_cases hm : m = n
    · subst hm; rw [hself]; exact h4 m hl
    · rw [hother hm]; exact h4 m hl

/-- ALM.SET stores a level source's times, a latched source's none, and never another priority for an accepted source (R156). -/
theorem withSettings_sourcesSafe {n : Fin 59} {prio : Nat} (masked : Bool) (rt ct : Nat)
    (hn : (s.source n).accepted = true → min prio 7 = (s.source n).priority) (hs : s.sourcesSafe) :
    (s.setSource n ((s.source n).withSettings (sourceIsLevel n) prio masked rt ct)).sourcesSafe := by
  have hself : (s.setSource n ((s.source n).withSettings (sourceIsLevel n) prio masked rt ct)).source n
      = (s.source n).withSettings (sourceIsLevel n) prio masked rt ct := State.source_setSource s n _
  have hother {m : Fin 59} (hm : m ≠ n) := State.source_setSource_ne s hm ((s.source n).withSettings (sourceIsLevel n) prio masked rt ct)
  have hacc (m : Fin 59) (h : ((s.setSource n ((s.source n).withSettings (sourceIsLevel n) prio masked rt ct)).source m).accepted = true) :
      (s.source m).accepted = true
        ∧ ((s.setSource n ((s.source n).withSettings (sourceIsLevel n) prio masked rt ct)).source m).priority = (s.source m).priority := by
    by_cases hm : m = n
    · subst hm; rw [hself] at h ⊢; exact ⟨h, hn h⟩
    · rw [hother hm] at h ⊢; exact ⟨h, rfl⟩
  obtain ⟨h1, h2, h3, h4⟩ := hs
  refine ⟨fun m => ?_, fun m => ?_, fun m k hm hk hmk => ?_, fun m hl => ?_⟩
  · by_cases hm : m = n
    · subst hm; rw [hself]; exact h1 m
    · rw [hother hm]; exact h1 m
  · by_cases hm : m = n
    · subst hm; rw [hself]; exact Nat.min_le_right prio 7
    · rw [hother hm]; exact h2 m
  · obtain ⟨hm, hpm⟩ := hacc m hm
    obtain ⟨hk, hpk⟩ := hacc k hk
    rw [hpm, hpk] at hmk
    exact h3 m k hm hk hmk
  · by_cases hm : m = n
    · subst hm
      obtain ⟨hc, hq, ht, -, -⟩ := h4 m hl
      rw [hself, hl]
      exact ⟨hc, hq, ht, rfl, rfl⟩
    · rw [hother hm]; exact h4 m hl

theorem countRaises_keptAs (s : State) (m : Fin 59) : (s.source m).keptAs (sourceIsLevel m) ((countRaises 9 1 s).source m) := by
  by_cases hm : m = counterSource
  · subst hm; exact counterSource_keptAs (countRaises_once s)
  · rw [countRaises_source_ne s hm]; exact .refl _ _

theorem storeSettings_keptAs (s : State) (n : Fin 59) (x : Source) (m : Fin 59) :
    ((s.setSource n x).source m).keptAs (sourceIsLevel m) ((s.storeSettings n x).source m) := by
  have set (y : Source) (hl : sourceIsLevel n = true) (hy : x.keptAs true y) :
      ((s.setSource n x).source m).keptAs (sourceIsLevel m) ((s.setSource n y).source m) := by
    by_cases hm : m = n
    · subst hm; rw [State.source_setSource, State.source_setSource, hl]; exact hy
    · rw [State.source_setSource_ne s hm, State.source_setSource_ne s hm]; exact .refl _ _
  unfold State.storeSettings
  split
  · next h => exact (set _ (Bool.and_eq_true_iff.mp h).1 (qualifiedAt_keptAs _ x)).trans (countRaises_keptAs _ m)
  · split
    · next h => exact set _ (Bool.and_eq_true_iff.mp h).1 (.ofLevel rfl rfl nofun)
    · exact .refl _ _

theorem directEffect_sourcesSafe (h : DirectEffect s t) (hs : s.sourcesSafe) : t.sourcesSafe := by
  have same {ps : List Part} {u : State} (hb : s.sameBut ps u) (hp : Part.sources ∉ ps) : u.sourcesSafe :=
    sourcesSafe_of_keptAs (fun n => by rw [State.source_congr (hb .sources hp).symm]; exact .refl _ _) hs
  cases h with
  | closed u p h => exact closeSources_sourcesSafe p (h.sourcesSafe hs)
  | almSet n prio masked rt ct hn =>
    exact sourcesSafe_of_keptAs (storeSettings_keptAs s n _) (withSettings_sourcesSafe masked rt ct hn hs)
  | almLevel v => exact same (judge_threshold_sameBut s v) (by decide)
  | almNext n hn => exact almNext_sourcesSafe hn hs
  | almClose n hn => exact almClose_sourcesSafe n hs
  | contactSet c ceil m => exact same (setContact_sameBut s c _) (by decide)
  | bank t h => exact same h (by decide)

/-! ### The law of ATTN and the contacts (R159, R169, R170) -/

theorem setContact_outputsSafe {c : Fin 4} {x : Contact} (hx : x.judged (demand s.sources x.ceiling)) (h : s.outputsSafe) :
    (s.setContact c x).outputsSafe := by
  obtain ⟨ha, hj⟩ := (outputsSafe_iff s).mp h
  refine (outputsSafe_iff _).mpr ⟨ha, fun k => ?_⟩
  by_cases hk : k = c
  · subst hk; rw [State.contact_setContact]; exact hx
  · rw [State.contact_setContact_ne s hk]; exact hj k

theorem Contact.step_ceiling (d : Bool) (c : Contact) : (c.step d).ceiling = c.ceiling := by
  unfold Contact.step
  split
  · dsimp only; split <;> rfl
  · rfl

theorem Contact.step_judged {d : Bool} {c : Contact} (h : c.judged d) : (c.step d).judged d := by
  obtain ⟨h1, h2, h3, h4⟩ := h
  unfold Contact.step
  split
  · next ha =>
    dsimp only
    split
    · next hr =>
      have hdf : d = false := by simp at hr; exact hr.1
      exact ⟨fun hdt => absurd (hdf.symm.trans hdt) (by decide), nofun, fun _ => rfl, fun _ => rfl⟩
    · next hr =>
      refine ⟨fun _ => ha, fun _ hdf => ?_, fun hf => absurd (ha.symm.trans hf) (by decide), h4⟩
      simpa [hdf] using hr
  · exact ⟨h1, h2, h3, h4⟩

theorem contactStep_outputsSafe (c : Fin 4) (h : s.outputsSafe) : (s.contactStep c).outputsSafe := by
  refine setContact_outputsSafe ?_ h
  rw [Contact.step_ceiling]
  exact Contact.step_judged (((outputsSafe_iff s).mp h).2 c)

theorem contactSet_outputsSafe (c : Fin 4) (ceil : Option Nat) (m : Nat) (h : s.outputsSafe) :
    (s.setContact c ((s.contact c).set (demand s.sources ceil) ceil m)).outputsSafe := by
  refine setContact_outputsSafe ?_ h
  cases ceil with
  | none => exact ⟨nofun, nofun, fun _ => rfl, fun _ => rfl⟩
  | some k =>
    have hset : (s.contact c).set (demand s.sources (some k)) (some k) m
        = Contact.judge (demand s.sources (some k)) { s.contact c with ceiling := some k, minOn := m } := rfl
    rw [hset, Contact.judge_ceiling]
    exact Contact.judge_judged ⟨(outputsSafe_atRest h c).1, nofun⟩ nofun

theorem directEffect_outputsSafe (h : DirectEffect s t) (hs : s.outputsSafe) : t.outputsSafe := by
  cases h with
  | closed u p h => exact setSource_outputsSafe _ _ (setSource_outputsSafe _ _ (setSource_outputsSafe _ _ (h.outputsSafe hs)))
  | almSet n prio masked rt ct hn =>
    unfold State.storeSettings
    split
    · exact countRaises_outputsSafe _ _ (setSource_outputsSafe _ _ hs)
    · split <;> exact setSource_outputsSafe _ _ hs
  | almLevel v => exact judge_outputsSafe (fun c => outputsSafe_atRest hs c)
  | almNext n hn => exact setSource_outputsSafe _ _ hs
  | almClose n hn => exact setSource_outputsSafe _ _ hs
  | contactSet c ceil m => exact contactSet_outputsSafe c ceil m hs
  | bank t h => exact outputsSafe_reads.keep h (by decide) hs

/-! ### Every step -/

section
variable {q : State → Prop}

theorem sampleFrm_keep {ps : List Part} (reads : Reads ps q) (hp : Part.ref ∉ ps) (signals : ∀ {s t}, Signals [frameRefSource] s t → q s → q t)
    (v : Bool) (s : State) (h : q s) : q (s.sampleFrm v) := by
  have hf : q (s.frmSampled v) := reads.keep (frmSampled_sameBut s v) (fun x hx h0 => hp (by simp at h0; exact h0 ▸ hx)) h
  rw [sampleFrm_eq]
  split
  · exact signals (cueGroups_within _ _ _).signals (signals (reportFrameRef_signals _) hf)
  · exact hf

theorem becomeAbsent_keep {ps : List Part} (reads : Reads ps q) (hp : Part.ref ∉ ps) (signals : ∀ {s t}, Signals [frameRefSource] s t → q s → q t)
    (s : State) (h : q s) : q s.becomeAbsent :=
  signals (reportFrameRef_signals _) (reads.keep (withRef_sameBut s _) (fun x hx h0 => hp (by simp at h0; exact h0 ▸ hx)) h)

theorem sampleCues_keep {ps : List Part} (reads : Reads ps q) (hp : Part.ref ∉ ps) (signals : ∀ {s t}, Signals [frameRefSource] s t → q s → q t)
    (c0 c1 : Bool) (s : State) (h : q s) : q (s.sampleCues c0 c1) := by
  rw [sampleCues_eq]
  exact signals (cuesOf_within _ _ _).signals (signals (cuesOf_within _ _ _).signals
    (reads.keep (cuesSampled_sameBut s c0 c1) (fun x hx h0 => hp (by simp at h0; exact h0 ▸ hx)) h))

theorem ringsWritten_sameBut (s : State) (m : List (Nat × Slot)) (p : Fin 8) (x : Programme) :
    s.sameBut [.mem, .progs] (State.setProg { s with mem := m } p x) := by
  intro q hq; cases q <;> first | rfl | exact absurd (by decide) hq

/-- A law of the alarm sources, ATTN and the contacts that events and reports keep, the contacts' count and the direct requests too,
every command keeps. -/
theorem kept_of_signals (reads : Reads [.sources, .threshold, .attn, .contacts] q) (signals : ∀ {ns s t}, Signals ns s t → q s → q t)
    (reset : q State.reset) (contact : ∀ c s, q s → q (s.contactStep c)) (direct : ∀ {s t}, DirectEffect s t → q s → q t) : Kept q where
  outside := reads.mono (by decide)
  reset _ _ := reads.keep (s := State.reset) (t := State.resetAll _) (ps := [.sources, .threshold, .attn, .contacts]) (qs := [.mem, .pending])
    (fun q hq => by cases q <;> first | rfl | exact absurd (by decide) hq) (by decide) reset
  request code body s h := takeRequest_keep (fun t he => by
      rcases effect_signals he with ⟨l, en, pp, sp, rfl⟩ | hs | hd
      · exact signals (setLinkPolicy_signals s l en pp sp) h
      · exact signals hs h
      · exact direct hd h)
   
    (fun n r => reads.keep (setRoute_sameBut s n r) (by decide) h) (fun c x => reads.keep (setCounter_sameBut s c x) (by decide) h) code
  arrive l f ok s := signals (arrive_signals s l f ok (ns := []))
  discard s := signals ((latch_sends s controlSource_ne_counterSource).trans (count_sends _ (by decide) _ _)).signals (ns := [])
  blockEnd s := takeBlockEnd_keep (fun s => reads.keep (withRef_sameBut s _) (by decide)) contact (fun l s => signals (linkBlockEnd_signals s l))
    (fun e k s he => signals (count_signals s he none k (ns := []))) (fun m p s => signals (programmeBlockEnd_signals m p s))
    (fun s => reads.keep (resetFeeds_sameBut s) (by decide)) (fun p s => signals (cueWaitStep_within s p).signals (ns := []))
    (fun n s hl => signals (.timer s n hl (ns := []))) (fun a s => reads.keep (withAhead_sameBut s a) (by decide))
  sample s frm c0 c1 hb _ h := takeHouseSample_keep (q := q) hb (fun s => reads.keep (withRef_sameBut s _) (by decide))
    (fun l s => signals (readConverter_signals s l (ns := [])))
    (fun ins acc p => programmeSample_keep (fun s => signals (moveStep_within s p).signals (ns := []))
      (fun w s => signals (gainStep_within s p w).signals (ns := [])) (fun h w clip s _ => reads.keep (ringsWritten_sameBut s _ p _) (by decide)) (live_steps p))
    (fun v s => reads.keep (pushOutputs_sameBut s v) (by decide)) (fun p s => reads.keep (clearStep_sameBut s p) (by decide))
    (sampleFrm_keep reads (by decide) signals) (fun s hs => ite_keep (fun _ => becomeAbsent_keep reads (by decide) signals s hs) hs)
    (sampleCues_keep reads (by decide) signals) (fun a s => reads.keep (withAhead_sameBut s a) (by decide)) h frm c0 c1
  share s f hf := onSample_keep reads (by decide) (fun hs => by
    cases hf with
    | move p => exact signals (moveStep_within _ p).signals (ns := []) hs
    | gain p w => exact signals (gainStep_within _ p w).signals (ns := []) hs
    | absent => exact becomeAbsent_keep reads (by decide) signals _ hs
    | clear p _ => exact reads.keep (clearStep_sameBut _ p) (by decide) hs)
  wait p s := signals (cueWaitStep_within s p).signals (ns := [])
  timer n s hl := signals (.timer s n hl (ns := []))
  contact := contact

end

theorem sourcesSafe_kept : Kept State.sourcesSafe :=
  kept_of_signals
    (fun _ _ h => sourcesSafe_of_keptAs (fun n => by rw [State.source_congr (h .sources (by simp) : _ = _).symm]; exact .refl _ _))
    Signals.sourcesSafe reset_sourcesSafe
    (fun c s => sourcesSafe_of_keptAs (fun n => by
      rw [State.source_congr (contactStep_sameBut s c .sources (by decide) : _ = _).symm]; exact .refl _ _)) directEffect_sourcesSafe

theorem outputsSafe_kept : Kept State.outputsSafe :=
  kept_of_signals outputsSafe_reads Signals.outputsSafe reset_outputsSafe (fun c _ => contactStep_outputsSafe c) directEffect_outputsSafe

/-- Settles O55. -/
theorem stepsKeepTheAlarmLaws : Obligations.StepsKeepTheAlarmLaws :=
  fun _ _ h => ⟨fun hs => sourcesSafe_kept.step hs h, fun hs => outputsSafe_kept.step hs h⟩

end Sys2Proof.Machine
end

