-- ==== Sys2Proof/Proofs/LinkLaws.lean ====
section
/-! PROOFS. Every step keeps the links' law and the start-up law (chapters 1 and 2, section 11.6). -/

namespace Sys2Proof.Machine

variable {s t : State}

/-! ### One converter (R14 to R29) -/

/-- What a converter's state asks of its FIFO and its lock (R15, R28, R29). -/
def ConvState.holds (st : ConvState) (fifo : List AudioFrame) (last : Option AudioFrame) (arrivals : Nat) : Prop :=
  match st with
  | .off => fifo = [] ∧ arrivals = 0
  | .seek => fifo.length ≤ 32 ∧ (0 < arrivals → fifo ≠ [])
  | .acquire _ t => fifo.length ≤ 32 ∧ (0 < arrivals → fifo ≠ []) ∧ 1 ≤ t ∧ t ≤ 3
  | .locked k => k.safe ∧ 4 ≤ fifo.length ∧ fifo.length ≤ 59
  | .holdover k bad => k.safe ∧ (fifo = [] → last.isSome) ∧ 1 ≤ bad ∧ bad ≤ 4

theorem converter_safe_iff (c : Converter) (n : Nat) : c.safe n ↔
    c.fifo.length ≤ 64 ∧ c.readPhase < 1048576 ∧ (c.state.isLocked = false → c.notLocked = true)
      ∧ c.state.holds c.fifo c.lastRead n := by
  unfold Converter.safe ConvState.holds
  cases c.state <;> rfl

theorem keepNewest_length (n : Nat) (q : List AudioFrame) : (keepNewest n q).length = min n q.length := by
  simp [keepNewest]; omega

theorem keepNewest_ne_nil {n : Nat} (hn : 0 < n) {q : List AudioFrame} (hq : q ≠ []) : keepNewest n q ≠ [] := by
  rw [← List.length_pos_iff, keepNewest_length]
  have := List.length_pos_iff.mpr hq
  omega

/-- A delivery to an enabled link's converter (R15, R28). -/
theorem deliver_safe {c : Converter} {n : Nat} (h : c.safe n) (ho : c.state.isOff = false) (f : AudioFrame) (m : Nat) :
    (c.deliver f).1.safe m := by
  obtain ⟨hlen, hphase, hmark, hst⟩ := (converter_safe_iff c n).mp h
  have hne (k : Nat) (hk : 0 < k) : keepNewest k (c.fifo ++ [f]) ≠ [] := keepNewest_ne_nil hk (by simp)
  have hle (k : Nat) : (keepNewest k (c.fifo ++ [f])).length ≤ k := by rw [keepNewest_length]; omega
  cases hs : c.state with
  | off => rw [hs] at ho; cases ho
  | seek =>
    rw [deliver_seek (.inl hs)]
    refine (converter_safe_iff _ m).mpr ⟨(hle 32).trans (by decide), hphase, hmark, ?_⟩
    dsimp only; rw [hs]
    exact ⟨hle 32, fun _ => hne 32 (by decide)⟩
  | acquire k tally =>
    rw [deliver_seek (.inr ⟨k, tally, hs⟩)]
    refine (converter_safe_iff _ m).mpr ⟨(hle 32).trans (by decide), hphase, hmark, ?_⟩
    dsimp only; rw [hs] at hst ⊢
    exact ⟨hle 32, fun _ => hne 32 (by decide), hst.2.2⟩
  | holdover k bad =>
    rw [deliver_holdover hs]
    refine (converter_safe_iff _ m).mpr ⟨hle 64, hphase, hmark, ?_⟩
    dsimp only; rw [hs] at hst ⊢
    exact ⟨hst.1, fun h0 => absurd h0 (hne 64 (by decide)), hst.2.2⟩
  | locked k =>
    rw [deliver_locked hs]
    rw [hs] at hst
    obtain ⟨hk, h4, h59⟩ := hst
    split
    · refine (converter_safe_iff _ m).mpr ⟨?_, hphase, hmark, ?_⟩
      · simp; omega
      · dsimp only; rw [hs]; exact ⟨hk, by simp; omega, by simp; omega⟩
    · refine (converter_safe_iff _ m).mpr ⟨?_, hphase, hmark, ?_⟩
      · simp; omega
      · dsimp only; rw [hs]; exact ⟨hk, by simp; omega, by simp; omega⟩

theorem deliver_state (c : Converter) (f : AudioFrame) : (c.deliver f).1.state = c.state := by
  unfold Converter.deliver
  dsimp only
  split <;> try rfl
  split <;> rfl

theorem refill_state (c : Converter) : (refill c).state = c.state := by
  unfold refill
  split <;> rfl

/-- A refill of a short FIFO with a frame to copy (R27, R29). -/
theorem refill_facts {c : Converter} (h3 : c.fifo.length ≤ 3) (h : c.lastRead.isSome = true ∨ c.fifo ≠ []) :
    (refill c).fifo.length = 32 ∧ (refill c).readPhase = c.readPhase ∧ (refill c).notLocked = c.notLocked := by
  unfold refill
  cases hl : c.lastRead with
  | some a => simp [Option.orElse, Config.fifoCentre]; omega
  | none =>
    cases hf : c.fifo with
    | nil => simp [hl, hf] at h
    | cons a q => rw [hf] at h3; simp [Option.orElse, Config.fifoCentre] at h3 ⊢; omega

/-- An output read of a FIFO that is not empty (R16). -/
theorem readOnce_facts {c : Converter} (hf : c.fifo ≠ []) (ratio : Nat) :
    (c.readOnce ratio).conv.state = c.state ∧ (c.readOnce ratio).conv.notLocked = c.notLocked
      ∧ (c.readOnce ratio).conv.readPhase < 1048576
      ∧ (c.readOnce ratio).conv.fifo.length = c.fifo.length - (c.readPhase + ratio) / 1048576
      ∧ ((c.readOnce ratio).conv.lastRead.isSome = true ∨ (c.readOnce ratio).conv.fifo ≠ []) := by
  have he : c.fifo.isEmpty = false := by simpa using hf
  unfold Converter.readOnce
  rw [he]
  refine ⟨rfl, rfl, Nat.mod_lt _ (by decide), by simp [Config.unit20], ?_⟩
  by_cases hk : (c.readPhase + ratio) / 1048576 = 0
  · right; simpa [Config.unit20, hk] using hf
  · left
    have : (c.fifo.take ((c.readPhase + ratio) / 1048576)) ≠ [] := by simp [hf]; omega
    obtain ⟨a, ha⟩ := Option.ne_none_iff_exists'.mp (mt List.getLast?_eq_none_iff.mp this)
    simp [Config.unit20, ha, Option.orElse]

theorem readOnce_of_empty {c : Converter} (h : c.fifo = []) (ratio : Nat) : (c.readOnce ratio).conv = c := by
  simp [Converter.readOnce, h]

/-- A house sample at a converter (R16, R17, R29). -/
theorem read_safe {c : Converter} {n : Nat} (h : c.safe n) : c.read.conv.safe n := by
  obtain ⟨hlen, hphase, hmark, hst⟩ := (converter_safe_iff c n).mp h
  unfold Converter.read
  split
  · exact h
  · exact h
  · exact h
  · next k bad hs =>
    by_cases hf : c.fifo = []
    · rw [readOnce_of_empty hf]; exact h
    · obtain ⟨hstate, hm, hphi, hl, hsome⟩ := readOnce_facts hf k.ratio
      refine (converter_safe_iff _ n).mpr ⟨by omega, hphi, by rw [hstate, hm]; exact hmark, ?_⟩
      rw [hstate, hs]
      rw [hs] at hst
      exact ⟨hst.1, fun h0 => hsome.resolve_right (fun hne => hne h0), hst.2.2⟩
  · next k hs =>
    rw [hs] at hst
    obtain ⟨hk, h4, h59⟩ := hst
    have hf : c.fifo ≠ [] := fun h0 => by rw [h0] at h4; exact absurd h4 (by decide)
    obtain ⟨hstate, hm, hphi, hl, hsome⟩ := readOnce_facts hf k.ratio
    dsimp only
    split
    · next h3 =>
      obtain ⟨h32, hrp, hnl⟩ := refill_facts h3 hsome
      refine (converter_safe_iff _ n).mpr ⟨?_, ?_, ?_, ?_⟩
      · dsimp only; omega
      · dsimp only; omega
      · dsimp only; rw [refill_state, hstate, hnl, hm]; exact hmark
      · dsimp only; rw [refill_state, hstate, hs]; exact ⟨hk, by omega, by omega⟩
    · refine (converter_safe_iff _ n).mpr ⟨by omega, hphi, by rw [hstate, hm]; exact hmark, ?_⟩
      rw [hstate, hs]
      exact ⟨hk, by omega, by omega⟩

theorem readOnce_state (c : Converter) (ratio : Nat) : (c.readOnce ratio).conv.state = c.state := by
  by_cases hf : c.fifo = []
  · rw [readOnce_of_empty hf]
  · exact (readOnce_facts hf ratio).1

theorem read_state (c : Converter) : c.read.conv.state = c.state := by
  unfold Converter.read
  split <;> try rfl
  · exact readOnce_state c _
  · dsimp only
    split
    · exact (refill_state _).trans (readOnce_state c _)
    · exact readOnce_state c _

/-! ### Windows (R18 to R27) -/

theorem lockOf_safe {n : Nat} (h : inRange n = true) : (lockOf n).safe := by
  obtain ⟨h1, h2⟩ := (inRange_iff n).mp h
  have hr := measuredRatio_eq h1 h2
  have hlo : 611669 ≤ measuredRatio n := by omega
  have hhi : measuredRatio n ≤ 2184533 := by omega
  exact ⟨hlo, hhi, latency_bounds hlo hhi⟩

theorem refine_safe {k : Lock} (h : k.safe) (n fill : Nat) : (k.refine n fill).safe := by
  obtain ⟨-, -, hcl⟩ := h
  have hclamp (x : Int) : 611669 ≤ (clampInt 611669 2184533 x).toNat ∧ (clampInt 611669 2184533 x).toNat ≤ 2184533 := by
    unfold clampInt
    omega
  exact ⟨(hclamp _).1, (hclamp _).2, hcl⟩

theorem recentreNewest_length {q : List AudioFrame} (h : q ≠ []) : (recentreNewest q).length = 32 := by
  obtain ⟨a, ha⟩ := Option.ne_none_iff_exists'.mp (mt List.getLast?_eq_none_iff.mp h)
  rw [recentreNewest_of_getLast ha]
  simp; omega

/-- A converter with the mark of its state. -/
def Converter.marked (c : Converter) : Converter := { c with notLocked := !c.state.isLocked }

theorem marked_safe {c : Converter} {n : Nat} (hlen : c.fifo.length ≤ 64) (hphase : c.readPhase < 1048576)
    (hst : c.state.holds c.fifo c.lastRead n) : c.marked.safe n :=
  (converter_safe_iff _ n).mpr ⟨hlen, hphase, fun h => by simp [Converter.marked] at h ⊢; exact h, hst⟩

theorem marked_locked_safe {c : Converter} {k : Lock} {n len : Nat} (hs : c.state = .locked k) (hk : k.safe) (hl : c.fifo.length = len)
    (h4 : 4 ≤ len) (h59 : len ≤ 59) (hphase : c.readPhase < 1048576) : c.marked.safe n :=
  marked_safe (by omega) hphase (by rw [hs]; exact ⟨hk, by omega, by omega⟩)

/-- The judgement of the count of a block, which the receiver then starts again from 0 (R11, R18 to R27). -/
theorem judgeWindow_safe {c : Converter} {n : Nat} (h : c.safe n) : (c.judgeWindow n).conv.marked.safe 0 := by
  obtain ⟨hlen, hphase, -, hst⟩ := (converter_safe_iff c n).mp h
  cases hs : c.state with
  | off =>
    rw [judgeWindow_off hs]
    rw [hs] at hst
    exact marked_safe hlen hphase (by show c.state.holds _ _ _; rw [hs]; exact ⟨hst.1, rfl⟩)
  | seek =>
    rw [hs] at hst
    rw [judgeWindow_seek hs]
    dsimp only [judgedAs]
    split
    · exact marked_safe hlen hphase ⟨hst.1, nofun, by decide, by decide⟩
    · exact marked_safe hlen hphase (by show c.state.holds _ _ _; rw [hs]; exact ⟨hst.1, nofun⟩)
  | acquire prev tally =>
    rw [hs] at hst
    obtain ⟨h32, hne, h1, h3⟩ := hst
    rw [judgeWindow_acquire hs]
    dsimp only [judgedAs]
    split
    · exact marked_safe hlen hphase ⟨h32, nofun⟩
    · next hr =>
      have hrange : inRange n = true := by simpa using hr
      have hn := ((inRange_iff n).mp hrange).1
      split
      · split
        · exact marked_locked_safe rfl (lockOf_safe hrange) (recentreNewest_length (hne (by omega))) (by decide) (by decide)
            (show 0 < 1048576 by decide)
        · exact marked_safe hlen hphase ⟨h32, nofun, by omega, by omega⟩
      · exact marked_safe hlen hphase ⟨h32, nofun, by decide, by decide⟩
  | locked k =>
    rw [hs] at hst
    obtain ⟨hk, h4, h59⟩ := hst
    rw [judgeWindow_locked hs]
    dsimp only [judgedAs]
    refine marked_safe hlen hphase ?_
    dsimp only
    split
    · exact ⟨refine_safe hk _ _, h4, h59⟩
    · exact ⟨hk, fun h0 => by rw [h0] at h4; exact absurd h4 (by decide), by decide, by decide⟩
  | holdover k bad =>
    rw [hs] at hst
    obtain ⟨hk, hsome, h1, h4⟩ := hst
    cases hg : goodWindow k.nRef n with
    | true =>
      rw [judgeWindow_holdover_good hs hg]
      split
      · exact marked_locked_safe (len := 32) rfl hk (by dsimp only; rw [keepNewest_length]; omega) (by decide) (by decide) hphase
      · split
        · next h3 =>
          have hcopy : c.lastRead.isSome = true ∨ c.fifo ≠ [] := by
            by_cases hf : c.fifo = []
            · exact .inl (hsome hf)
            · exact .inr hf
          obtain ⟨h32, hrp, -⟩ := refill_facts (c := { c with n := n, state := .locked k }) h3 hcopy
          exact marked_locked_safe (refill_state _) hk h32 (by decide) (by decide) (by dsimp only; rw [hrp]; exact hphase)
        · exact marked_locked_safe (len := c.fifo.length) rfl hk rfl (by omega) (by omega) hphase
    | false =>
      rw [judgeWindow_holdover_bad hs hg]
      split
      · exact marked_safe hlen hphase ⟨hk, hsome, by omega, by omega⟩
      · exact marked_safe (by simp) (show 0 < 1048576 by decide) ⟨by simp, nofun⟩

theorem judgeWindow_isOff (c : Converter) (n : Nat) : (c.judgeWindow n).conv.state.isOff = c.state.isOff := by
  cases hs : c.state with
  | off => rw [judgeWindow_off hs]; exact congrArg ConvState.isOff hs
  | seek =>
    rw [judgeWindow_seek hs]
    dsimp only [judgedAs]
    split
    · rfl
    · exact congrArg ConvState.isOff hs
  | acquire prev tally =>
    rw [judgeWindow_acquire hs]
    dsimp only [judgedAs]
    split
    · rfl
    · split
      · split <;> rfl
      · rfl
  | locked k =>
    rw [judgeWindow_locked hs]
    dsimp only [judgedAs]
    split <;> rfl
  | holdover k bad =>
    cases hg : goodWindow k.nRef n with
    | true =>
      rw [judgeWindow_holdover_good hs hg]
      split
      · rfl
      · split
        · exact (congrArg ConvState.isOff (refill_state { c with n := n, state := .locked k })).trans rfl
        · rfl
    | false =>
      rw [judgeWindow_holdover_bad hs hg]
      split <;> rfl

/-! ### One link -/

/-- A link and the LOCK condition of its source (R13, R31, R34). -/
def Link.safe (x : Link) (lock : Bool) : Prop :=
  x.conv.safe x.rx.arrivalCount ∧ x.rx.enable = !x.conv.state.isOff ∧ lock = x.lockCondition

/-- The LOCK condition that a link's source holds. -/
def State.lockHeld (s : State) (l : Fin 8) : Bool := (s.source (lockSource l)).condition

theorem linksSafe_iff (s : State) : s.linksSafe ↔ ∀ l, (s.link l).safe (s.lockHeld l) := Iff.rfl

theorem lockSource_injective {l k : Fin 8} (h : lockSource l = lockSource k) : l = k := by
  have := congrArg Fin.val h
  simp [lockSource] at this
  exact Fin.ext this

theorem lockHeld_of_signals {ns : List (Fin 59)} (h : Signals ns s t) (l : Fin 8) (hl : lockSource l ∉ ns) : t.lockHeld l = s.lockHeld l :=
  h.condition (level_ne_counterSource (lockSource_level l)) hl

theorem linksSafe_of_same (hl : s.links = t.links) (hc : ∀ l, t.lockHeld l = s.lockHeld l) (h : s.linksSafe) : t.linksSafe :=
  (linksSafe_iff t).mpr (fun l => by rw [hc l, State.link_congr hl.symm l]; exact (linksSafe_iff s).mp h l)

/-- A step that reaches one link alone, and reports no LOCK but its. -/
theorem linksSafe_of_link {l : Fin 8} (hl : (t.link l).safe (t.lockHeld l)) (ho : s.otherLinks l t)
    (hc : ∀ k, k ≠ l → t.lockHeld k = s.lockHeld k) (h : s.linksSafe) : t.linksSafe := by
  refine (linksSafe_iff t).mpr (fun k => ?_)
  by_cases hk : k = l
  · subst hk; exact hl
  · rw [ho k hk, hc k hk]; exact (linksSafe_iff s).mp h k

theorem arrive_linksSafe (l : Fin 8) (f : AudioFrame) (ok : Bool) (h : s.linksSafe) : (s.arrive l f ok).linksSafe := by
  have hc (k : Fin 8) : (s.arrive l f ok).lockHeld k = s.lockHeld k := lockHeld_of_signals (arrive_signals s l f ok (ns := [])) k (by simp)
  cases hen : (s.link l).rx.enable
  · simp only [State.arrive, hen, Bool.not_false, if_true]; exact h
  · obtain ⟨hsafe, henable, hlock⟩ := (linksSafe_iff s).mp h l
    have hoff : (s.link l).conv.state.isOff = false := by rw [hen] at henable; simpa using henable.symm
    have hlink : (s.arrive l f ok).link l = (s.arrived l f ok).link l := State.link_congr (arrive_links hen f ok) l
    refine linksSafe_of_link ?_ (fun k hk => by rw [State.link_congr (arrive_links hen f ok) k]; exact arrived_otherLinks s l f ok k hk)
      (fun k _ => hc k) h
    rw [hc l, hlink, arrived_link]
    refine ⟨deliver_safe hsafe hoff _ _, ?_, ?_⟩
    · dsimp only; rw [deliver_state]; exact henable
    · rw [hlock]; simp only [Link.lockCondition, deliver_state]; rfl

theorem readConverter_linksSafe (l : Fin 8) (h : s.linksSafe) : (s.readConverter l).linksSafe := by
  have hc (k : Fin 8) : (s.readConverter l).lockHeld k = s.lockHeld k := lockHeld_of_signals (readConverter_signals s l (ns := [])) k (by simp)
  obtain ⟨hsafe, henable, hlock⟩ := (linksSafe_iff s).mp h l
  have hlink : (s.readConverter l).link l = { s.link l with conv := (s.link l).conv.read.conv } := by
    unfold State.readConverter
    split
    · rw [State.link_congr (State.slipEvents_links _ l)]; exact State.link_setLink s l _
    · exact State.link_setLink s l _
  refine linksSafe_of_link ?_ (readConverter_otherLinks s l) (fun k _ => hc k) h
  rw [hc l, hlink]
  refine ⟨read_safe hsafe, ?_, ?_⟩
  · dsimp only; rw [read_state]; exact henable
  · rw [hlock]; simp only [Link.lockCondition, read_state]

theorem report_lockHeld (s : State) (l : Fin 8) (v : Bool) : (s.report (lockSource l) v).lockHeld l = v :=
  report_condition s (level_ne_counterSource (lockSource_level l)) v

theorem report_lockHeld_ne (s : State) {l k : Fin 8} (h : k ≠ l) (v : Bool) : (s.report (lockSource l) v).lockHeld k = s.lockHeld k := by
  unfold State.lockHeld
  rw [report_source_ne s (level_ne_counterSource (lockSource_level k)) (fun h0 => h (lockSource_injective h0))]

theorem linkBlockEnd_linksSafe (l : Fin 8) (h : s.linksSafe) : (s.linkBlockEnd l).linksSafe := by
  obtain ⟨hsafe, henable, -⟩ := (linksSafe_iff s).mp h l
  have hlinks : (s.linkBlockEnd l).links = (s.linkJudged l).links := linkBlockEnd_links s l
  have hself : (s.linkJudged l).link l = ⟨(s.link l).rx.blockEnd, ((s.link l).conv.judgeWindow (s.link l).rx.arrivalCount).conv.marked⟩ :=
    State.link_setLink s l _
  have hevents : (s.linkEvents (s.linkJudged l) l).links = (s.linkJudged l).links := by
    rw [← hlinks, linkBlockEnd_eq, State.report_links]
  refine linksSafe_of_link ?_ (fun k hk => by rw [State.link_congr hlinks k]; exact State.link_setLink_ne s hk _) (fun k hk => ?_) h
  · rw [State.link_congr hlinks l, linkBlockEnd_eq, report_lockHeld, State.link_congr hevents l, hself]
    refine ⟨judgeWindow_safe hsafe, ?_, rfl⟩
    show (s.link l).rx.enable = _
    rw [henable]
    exact congrArg not (judgeWindow_isOff _ _).symm
  · exact lockHeld_of_signals (linkBlockEnd_signals s l) k (fun h0 => hk (lockSource_injective (List.mem_singleton.mp h0)))

theorem enabled_safe (c : Converter) : c.enabled.safe 0 :=
  (converter_safe_iff _ 0).mpr ⟨Nat.zero_le _, show 0 < 1048576 by decide, fun _ => rfl, Nat.zero_le _, nofun⟩

theorem disabled_safe (c : Converter) : c.disabled.safe 0 :=
  (converter_safe_iff _ 0).mpr ⟨Nat.zero_le _, show 0 < 1048576 by decide, fun _ => rfl, rfl, rfl⟩

theorem setLinkPolicy_linksSafe (l : Fin 8) (en : Bool) (pp : ParityPolicy) (sp : SlotPolicy) (h : s.linksSafe) :
    (s.setLinkPolicy l en pp sp).linksSafe := by
  obtain ⟨hsafe, henable, hlock⟩ := (linksSafe_iff s).mp h l
  unfold State.setLinkPolicy
  dsimp only
  split
  · next he =>
    have he : (s.link l).rx.enable = en := by simpa using he
    refine linksSafe_of_link (l := l) ?_ (fun k hk => State.link_setLink_ne s hk _) (fun _ _ => rfl) h
    rw [show State.link (s.setRx l _) l = _ from State.link_setLink s l _]
    refine ⟨hsafe, he ▸ henable, ?_⟩
    show s.lockHeld l = _
    rw [hlock]; simp only [Link.lockCondition, he]
  · refine linksSafe_of_link (s := s) (l := l) ?_ (fun k hk => ?_) (fun k hk => (report_lockHeld_ne _ hk _).trans rfl) h
    · rw [report_lockHeld, State.link_congr (State.report_links _ _ _) l, State.link_setLink]
      cases en
      · exact ⟨disabled_safe _, rfl, rfl⟩
      · exact ⟨enabled_safe _, rfl, rfl⟩
    · rw [State.link_congr (State.report_links _ _ _) k]; exact State.link_setLink_ne s hk _

/-! ### Every step -/

theorem lockSource_not_mem_loudSources (l p : Fin 8) : lockSource l ∉ loudSources p := by revert l p; decide

theorem lockSource_ne_frameRefSource (l : Fin 8) : lockSource l ∉ [frameRefSource] := by revert l; decide

theorem linksSafe_of_signals {ns : List (Fin 59)} {ps : List Part} (hb : s.sameBut ps t) (h : Signals ns s t)
    (hp : Part.links ∉ ps := by decide) (hns : ∀ l, lockSource l ∉ ns := by simp) : s.linksSafe → t.linksSafe :=
  linksSafe_of_same (hb .links hp) (fun l => lockHeld_of_signals h l (hns l))

theorem linksSafe_reads : Reads [.links, .sources] State.linksSafe := fun s t h => by
  have hs : s.sources = t.sources := h .sources (by simp)
  exact linksSafe_of_same (h .links (by simp)) (fun l => by rw [State.lockHeld, State.source_congr hs.symm]; rfl)

theorem directEffect_linksSafe (hb : s.sameBut effectParts t) (h : DirectEffect s t) : s.linksSafe → t.linksSafe := by
  refine linksSafe_of_same (hb .links (by decide)) (fun l => ?_)
  have hl := level_ne_counterSource (lockSource_level l)
  have set (n : Fin 59) (x : Source) (hx : x.condition = (s.source n).condition) : (s.setSource n x).lockHeld l = s.lockHeld l := by
    unfold State.lockHeld
    by_cases hn : lockSource l = n
    · subst hn; rw [State.source_setSource, hx]
    · rw [State.source_setSource_ne s hn]
  cases h with
  | closed u p h =>
    have close (v : State) {n : Fin 59} (hn : lockSource l ≠ n) : (v.closeSource n).lockHeld l = v.lockHeld l :=
      congrArg Source.condition (State.source_setSource_ne v hn _)
    have hnot := lockSource_not_mem_loudSources l p
    simp only [List.mem_cons, List.not_mem_nil, or_false, not_or] at hnot
    obtain ⟨h1, h2, h3⟩ := hnot
    exact (close _ h3).trans ((close _ h2).trans ((close _ h1).trans (lockHeld_of_signals h l (by simp))))
  | almSet n prio masked rt ct hn =>
    unfold State.storeSettings
    split
    · exact (congrArg Source.condition (countRaises_source_ne _ hl _ _)).trans (set n _ rfl)
    · split <;> exact set n _ rfl
  | almLevel v => rfl
  | almNext n hn => exact set n _ rfl
  | almClose n hn => exact set n _ rfl
  | contactSet c ceil m => rfl
  | bank t h => rw [State.lockHeld, State.source_congr (h .sources (by decide)).symm]; rfl

theorem lockHeld_reads (l : Fin 8) (b : Bool) : Reads [.sources] (fun t => t.lockHeld l = b) := fun u v h hu => by
  have hv : v.lockHeld l = u.lockHeld l := congrArg Source.condition (State.source_congr (h .sources (by simp)).symm (lockSource l))
  exact hv.trans hu

theorem sampleFrm_lockHeld (v : Bool) (s : State) (l : Fin 8) : (s.sampleFrm v).lockHeld l = s.lockHeld l :=
  sampleFrm_keep (q := fun t => t.lockHeld l = s.lockHeld l) (ps := [.sources])
    (lockHeld_reads l _) (by decide)
    (fun h hs => (lockHeld_of_signals h l (lockSource_ne_frameRefSource l)).trans hs) v s rfl

theorem sampleCues_lockHeld (c0 c1 : Bool) (s : State) (l : Fin 8) : (s.sampleCues c0 c1).lockHeld l = s.lockHeld l :=
  sampleCues_keep (q := fun t => t.lockHeld l = s.lockHeld l) (ps := [.sources])
    (lockHeld_reads l _) (by decide)
    (fun h hs => (lockHeld_of_signals h l (lockSource_ne_frameRefSource l)).trans hs) c0 c1 s rfl

theorem becomeAbsent_lockHeld (s : State) (l : Fin 8) : s.becomeAbsent.lockHeld l = s.lockHeld l :=
  becomeAbsent_keep (q := fun t => t.lockHeld l = s.lockHeld l) (ps := [.sources])
    (lockHeld_reads l _) (by decide)
    (fun h hs => (lockHeld_of_signals h l (lockSource_ne_frameRefSource l)).trans hs) s rfl

theorem becomeAbsent_linksSafe (s : State) : s.linksSafe → s.becomeAbsent.linksSafe :=
  linksSafe_of_same (becomeAbsent_sameBut s .links (by decide)) (becomeAbsent_lockHeld s)

theorem takeBlockEnd_linksSafe (h : s.linksSafe) : s.takeBlockEnd.linksSafe :=
  takeBlockEnd_keep (q := State.linksSafe) (fun s => linksSafe_reads.keep (withRef_sameBut s _) (by decide))
    (fun c s => linksSafe_reads.keep (contactStep_sameBut s c) (by decide)) (fun l _ => linkBlockEnd_linksSafe l)
    (fun e k s he => linksSafe_of_signals (count_sameBut s e none k) (count_signals s he none k (ns := [])))
    (fun m p s => linksSafe_of_signals (programmeBlockEnd_sameBut m p s) (programmeBlockEnd_signals m p s)
      (by decide) (fun l => lockSource_not_mem_loudSources l p))
    (fun s => linksSafe_reads.keep (resetFeeds_sameBut s) (by decide))
    (fun p s => linksSafe_of_signals (cueWaitStep_sameBut s p) (cueWaitStep_within s p).signals (ns := []))
    (fun n s hl => linksSafe_of_signals (timerStep_sameBut s n) (.timer s n hl (ns := [])))
    (fun a s => linksSafe_reads.keep (withAhead_sameBut s a) (by decide)) h

theorem takeHouseSample_linksSafe (hb : s.blockEndDue = false) (frm c0 c1 : Bool) (h : s.linksSafe) : (s.takeHouseSample frm c0 c1).linksSafe :=
  takeHouseSample_keep (q := State.linksSafe) hb (fun s => linksSafe_reads.keep (withRef_sameBut s _) (by decide))
    (fun l _ => readConverter_linksSafe l)
    (fun ins acc p => programmeSample_keep (fun s => linksSafe_of_signals (moveStep_sameBut s p) (moveStep_within s p).signals (ns := []))
      (fun w s => linksSafe_of_signals (gainStep_sameBut s p w) (gainStep_within s p w).signals (ns := []))
      (fun h w clip s _ => linksSafe_reads.keep (ringsWritten_sameBut s _ p _) (by decide)) (live_steps p))
    (fun v s => linksSafe_reads.keep (pushOutputs_sameBut s v) (by decide))
    (fun p s => linksSafe_reads.keep (clearStep_sameBut s p) (by decide))
    (fun v s => linksSafe_of_same (sampleFrm_sameBut s v .links (by decide)) (sampleFrm_lockHeld v s))
    (fun s hs => ite_keep (fun _ => becomeAbsent_linksSafe s hs) hs)
    (fun a b s => linksSafe_of_same (sampleCues_sameBut s a b .links (by decide)) (sampleCues_lockHeld a b s))
    (fun a s => linksSafe_reads.keep (withAhead_sameBut s a) (by decide)) h frm c0 c1

theorem linksSafe_kept : Kept State.linksSafe where
  outside := linksSafe_reads.mono (by decide)
  reset _ _ := linksSafe_reads.keep (s := State.reset) (t := State.resetAll _) (ps := [.links, .sources]) (qs := [.mem, .pending])
    (fun q hq => by cases q <;> first | rfl | exact absurd (by decide) hq) (by decide) reset_linksSafe
  request code body s h := takeRequest_keep (fun t he => by
      rcases effect_sameBut_links he with ⟨l, en, pp, sp, rfl⟩ | hb
      · exact setLinkPolicy_linksSafe l en pp sp h
      · rcases effect_signals he with ⟨l, en, pp, sp, rfl⟩ | hs | hd
        · exact setLinkPolicy_linksSafe l en pp sp h
        · exact linksSafe_of_signals hb hs (by decide) lockSource_ne_frameRefSource h
        · exact directEffect_linksSafe hb hd h)
    (fun n r => linksSafe_reads.keep (setRoute_sameBut s n r) (by decide) h)
    (fun c x => linksSafe_reads.keep (setCounter_sameBut s c x) (by decide) h) code
  arrive l f ok _ := arrive_linksSafe l f ok
  discard s := linksSafe_of_signals (sameBut_trans (latch_sameBut s _) (count_sameBut _ _ _ _))
    ((latch_sends s controlSource_ne_counterSource).trans (count_sends _ (by decide) _ _)).signals (ns := [])
  blockEnd _ := takeBlockEnd_linksSafe
  sample _ frm c0 c1 hb _ := takeHouseSample_linksSafe hb frm c0 c1
  share s f hf := onSample_keep linksSafe_reads (by decide) (fun hs => by
    cases hf with
    | move p => exact linksSafe_of_signals (moveStep_sameBut _ p) (moveStep_within _ p).signals (ns := []) (by decide) (by simp) hs
    | gain p w => exact linksSafe_of_signals (gainStep_sameBut _ p w) (gainStep_within _ p w).signals (ns := []) (by decide) (by simp) hs
    | absent => exact becomeAbsent_linksSafe _ hs
    | clear p _ => exact linksSafe_reads.keep (clearStep_sameBut _ p) (by decide) hs)
  wait p s := linksSafe_of_signals (cueWaitStep_sameBut s p) (cueWaitStep_within s p).signals (ns := [])
  timer n s hl := linksSafe_of_signals (timerStep_sameBut s n) (.timer s n hl (ns := []))
  contact c s := linksSafe_reads.keep (contactStep_sameBut s c) (by decide)

/-! ### Start-up (R187) -/

/-- Start-up does not begin but by a reset. -/
theorem running_kept : KeptRunning (fun s => s.startUp = false) := by
  have keep {ps : List Part} {s t : State} (hb : s.sameBut ps t) (hp : Part.startUp ∉ ps := by decide) (h : s.startUp = false) :
      t.startUp = false := (hb .startUp hp).symm.trans h
  have share {s : State} {ps : List Part} {f : State → State} (hf : State.sameBut ps { s with ref := s.ref.tick } (f { s with ref := s.ref.tick }))
      (hp : Part.startUp ∉ ps := by decide) (h : s.startUp = false) : (s.onSample f).startUp = false := (hf .startUp hp).symm.trans h
  exact {
    port := fun _ _ h => h
    ahead := fun _ _ h => h
    pending := fun _ _ h => h
    startUpEnd := fun _ _ => rfl
    request := fun code body s => keep (takeRequest_within s body code)
    arrive := fun l f ok s => keep (arrive_sameBut s l f ok)
    discard := fun s => keep (sameBut_trans (latch_sameBut s _) (count_sameBut _ _ _ _))
    blockEnd := fun s => keep (takeBlockEnd_sameBut s)
    sample := fun s frm c0 c1 _ _ => keep (takeHouseSample_sameBut s frm c0 c1)
    share := fun s f hf => by
      cases hf with
      | move p => exact share (moveStep_sameBut _ p)
      | gain p w => exact share (gainStep_sameBut _ p w)
      | absent => exact share (becomeAbsent_sameBut _)
      | clear p _ => exact share (clearStep_sameBut _ p)
    wait := fun p s => keep (cueWaitStep_sameBut s p)
    timer := fun n s _ => keep (timerStep_sameBut s n)
    contact := fun c s => keep (contactStep_sameBut s c) }

theorem resetAll_startUpSafe (s : State) : s.resetAll.startUpSafe := fun _ => rfl

/-- In start-up every link is disabled and no reply is in progress, so nothing but the end of start-up and a reset changes the part. -/
theorem exec_of_startUpSafe {c : Instr} (hs : s.startUpSafe) (hu : s.startUp = true) (h : exec c s = .next t) :
    t = s ∨ t = s.resetAll ∨ t.startUp = false := by
  have hreset := hs hu
  have hport : s.port = Port.reset := by rw [hreset]; rfl
  by_cases h1 : c = .powerOnReset
  · subst h1; cases h; exact .inr (.inl rfl)
  by_cases h2 : c = .startUpEnd
  · subst h2; cases h; exact .inr (.inr rfl)
  by_cases h3 : c = .replySent
  · subst h3
    have he : exec .replySent s = .next s := by simp [exec, execReplySent, hport, Port.reset]
    rw [he, Host.Outcome.next.injEq] at h
    exact .inl h.symm
  by_cases h4 : c = .resetTakesEffect
  · subst h4
    have he : exec .resetTakesEffect s = .next s := by simp [exec, execResetTakesEffect, hport, Port.reset]
    rw [he, Host.Outcome.next.injEq] at h
    exact .inl h.symm
  by_cases h5 : ∃ l f ok, c = .frameArrival l f ok
  · obtain ⟨l, f, ok, rfl⟩ := h5
    have hl : (s.link l).rx.enable = false := by
      have hlinks : s.links = State.reset.links := by rw [hreset]
      rw [State.link_congr hlinks l, reset_link]
      rfl
    have he : exec (.frameArrival l f ok) s = .next s := by simp [exec, execFrameArrival, hl]
    rw [he, Host.Outcome.next.injEq] at h
    exact .inl h.symm
  · have he := startUpHoldsThePartStill.2 c s hu h1 h2 h3 h4 (fun l f ok hc => h5 ⟨l, f, ok, hc⟩)
    rw [he, Host.Outcome.next.injEq] at h
    exact .inl h.symm

theorem exec_startUpSafe {c : Instr} (hs : s.startUpSafe) (h : exec c s = .next t) : t.startUpSafe := by
  cases hu : s.startUp with
  | true =>
    rcases exec_of_startUpSafe hs hu h with rfl | rfl | ht
    · exact hs
    · exact resetAll_startUpSafe s
    · exact fun h0 => absurd (ht.symm.trans h0) (by decide)
  | false =>
    rcases running_kept.exec hu h with ht | rfl
    · exact fun h0 => absurd (ht.symm.trans h0) (by decide)
    · exact resetAll_startUpSafe s

theorem step_startUpSafe (hs : s.startUpSafe) (h : step s = .next t) : t.startUpSafe := by
  unfold step at h
  split at h
  · cases h; exact hs
  · next c cs _ =>
    exact exec_startUpSafe (s := { s with pending := cs }) (fun hu => congrArg (fun u : State => { u with pending := cs }) (hs hu)) h

/-- Settles O19. -/
theorem stepsKeepTheLinkAndStartUpLaws : Obligations.StepsKeepTheLinkAndStartUpLaws :=
  fun _ _ h => ⟨fun hs => linksSafe_kept.step hs h, fun hs => step_startUpSafe hs h⟩

end Sys2Proof.Machine
end

