-- ==== Sys2Proof/Proofs/Levels.lean ====
section
/-! PROOFS. The levels, the peaks and the gain factors, which the model decides by whole powers, are the rounded logarithms and powers
of the spec over the real numbers (R112, R115, R138). -/

namespace Sys2Proof.Machine

/-! ### The search -/

/-- The greatest number of a range with a property that, once lost, stays lost. -/
theorem greatest_spec {q : Nat → Bool} (hq : ∀ j k, j ≤ k → q k = true → q j = true) (fuel lo : Nat) (hlo : q lo = true) :
    q (greatest q fuel lo) = true ∧ lo ≤ greatest q fuel lo ∧ greatest q fuel lo < lo + 2 ^ fuel
      ∧ ∀ k, k < lo + 2 ^ fuel → q k = true → k ≤ greatest q fuel lo := by
  induction fuel generalizing lo with
  | zero => exact ⟨hlo, le_refl lo, by simp [greatest], fun k hk _ => by simp at hk; simp only [greatest]; omega⟩
  | succ fuel ih =>
    have hpow : 2 ^ (fuel + 1) = 2 ^ fuel + 2 ^ fuel := by rw [pow_succ]; omega
    rw [greatest]
    split
    · next h =>
      obtain ⟨h1, h2, h3, h4⟩ := ih (lo + 2 ^ fuel) h
      exact ⟨h1, by omega, by omega, fun k hk => h4 k (by omega)⟩
    · next h =>
      obtain ⟨h1, h2, h3, h4⟩ := ih lo hlo
      refine ⟨h1, h2, by omega, fun k hk hqk => ?_⟩
      by_cases hlt : k < lo + 2 ^ fuel
      · exact h4 k hlt hqk
      · exact absurd (hq _ k (by omega) hqk) h

/-- A search whose property says `k ≤ m` finds `m`, if the range reaches it. -/
theorem greatest_eq {q : Nat → Bool} {m fuel : Nat} (hq : ∀ k, q k = true ↔ k ≤ m) (hm : m < 2 ^ fuel) : greatest q fuel 0 = m := by
  obtain ⟨h1, -, -, h4⟩ := greatest_spec (fun j k hjk hk => (hq j).mpr (hjk.trans ((hq k).mp hk))) fuel 0 ((hq 0).mpr (Nat.zero_le m))
  exact le_antisymm ((hq _).mp h1) (h4 m (by omega) ((hq m).mpr (le_refl m)))

/-! ### Whole powers and logarithms -/

theorem le_round_iff (n : ℤ) (x : ℝ) : n ≤ round x ↔ (n : ℝ) - 1 / 2 ≤ x := by
  rw [round_eq, Int.le_floor, sub_le_iff_le_add]

/-- A power of 10 lies below a power of a positive number as the exponents and the logarithm stand. -/
theorem zpow_le_pow_iff {x : ℝ} (hx : 0 < x) (n : ℤ) (k : ℕ) : (10 : ℝ) ^ n ≤ x ^ k ↔ (n : ℝ) ≤ k * Real.logb 10 x := by
  have h10 : (1 : ℝ) < 10 := by norm_num
  rw [← Real.rpow_intCast, ← Real.rpow_natCast, Real.rpow_def_of_pos hx, ← Real.logb_le_logb h10 (by positivity) (Real.exp_pos _),
    Real.logb_rpow (by norm_num) (by norm_num), Real.logb, Real.log_exp, Real.logb]
  rw [mul_comm (Real.log x), mul_div_assoc]

/-- `round (100 * log10 (num / den))` of a positive energy, decided by whole powers (R112). -/
theorem centibelAtLeast_iff {num den : Nat} (hn : 0 < num) (hd : 0 < den) (k : Nat) :
    centibelAtLeast num den k = true ↔ (k : ℤ) - 1000 ≤ round (100 * Real.logb 10 ((num : ℝ) / den)) := by
  have hnr : (0 : ℝ) < num := by exact_mod_cast hn
  have hdr : (0 : ℝ) < den := by exact_mod_cast hd
  have key : (k : ℤ) - 1000 ≤ round (100 * Real.logb 10 ((num : ℝ) / den))
      ↔ (10 : ℝ) ^ (2 * ((k : ℤ) - 1000) - 1) ≤ ((num : ℝ) / den) ^ 200 := by
    rw [le_round_iff, zpow_le_pow_iff (by positivity)]
    push_cast
    constructor <;> intro h <;> linarith
  rw [key, div_pow, le_div_iff₀ (by positivity)]
  unfold centibelAtLeast
  split
  · next h =>
    rw [decide_eq_true_iff, show (2 * ((k : ℤ) - 1000) - 1) = ((2 * (k - 1000) - 1 : ℕ) : ℤ) by omega, zpow_natCast]
    exact_mod_cast Iff.rfl
  · next h =>
    rw [decide_eq_true_iff, show (2 * ((k : ℤ) - 1000) - 1) = -((2 * (1000 - k) + 1 : ℕ) : ℤ) by omega, zpow_neg, zpow_natCast,
      inv_mul_le_iff₀ (by positivity), mul_comm]
    exact_mod_cast Iff.rfl

/-- No energy of `num` passes the end of the search: 31 is above 100 times the logarithm of 2. -/
theorem round_log_le {num den : Nat} (hn : 0 < num) (hd : 0 < den) :
    round (100 * Real.logb 10 ((num : ℝ) / den)) ≤ 31 * (Nat.log2 num + 1) := by
  have hnr : (0 : ℝ) < num := by exact_mod_cast hn
  have hdr : (1 : ℝ) ≤ den := by exact_mod_cast hd
  have h2 : Real.logb 10 2 ≤ 305 / 1000 := by
    rw [Real.logb_le_iff_le_rpow (by norm_num) (by norm_num), ← Real.rpow_le_rpow_iff (by norm_num) (by positivity) (show (0 : ℝ) < 200 by norm_num),
      ← Real.rpow_mul (by norm_num)]
    norm_num
  have hle : (num : ℝ) / den ≤ 2 ^ (Nat.log2 num + 1) := by
    have h1 : (num : ℝ) ≤ 2 ^ (Nat.log2 num + 1) := by exact_mod_cast Nat.lt_log2_self.le
    exact (div_le_self hnr.le hdr).trans h1
  have hlog : Real.logb 10 ((num : ℝ) / den) ≤ (Nat.log2 num + 1) * (305 / 1000) := by
    calc Real.logb 10 ((num : ℝ) / den) ≤ Real.logb 10 (2 ^ (Nat.log2 num + 1)) :=
          Real.logb_le_logb_of_le (by norm_num) (by positivity) hle
      _ = (Nat.log2 num + 1) * Real.logb 10 2 := by rw [Real.logb_pow]; push_cast; ring
      _ ≤ _ := mul_le_mul_of_nonneg_left h2 (by positivity)
  have hround : ¬ (31 * ((Nat.log2 num : ℤ) + 1) + 1 ≤ round (100 * Real.logb 10 ((num : ℝ) / den))) := by
    rw [le_round_iff]
    push_cast
    have : (0 : ℝ) ≤ Nat.log2 num := Nat.cast_nonneg _
    intro h
    nlinarith
  omega

/-- The level of an energy of at least 10^-10 (R112). -/
theorem centibel_eq {num den : Nat} (hd : 0 < den) (h : den ≤ num * 10 ^ 10) :
    centibel num den = round (100 * Real.logb 10 ((num : ℝ) / den)) := by
  have hn : 0 < num := Nat.pos_of_ne_zero (by rintro rfl; omega)
  have hnr : (0 : ℝ) < num := by exact_mod_cast hn
  have hdr : (0 : ℝ) < den := by exact_mod_cast hd
  have hlow : -1000 ≤ round (100 * Real.logb 10 ((num : ℝ) / den)) := by
    rw [le_round_iff]
    have hpow : (10 : ℝ) ^ (-10 : ℤ) ≤ ((num : ℝ) / den) ^ 1 := by
      rw [pow_one, le_div_iff₀ hdr, zpow_neg, inv_mul_le_iff₀ (by positivity), mul_comm]
      exact_mod_cast h
    have := (zpow_le_pow_iff (by positivity) (-10) 1).mp hpow
    push_cast at this ⊢
    linarith
  have hhigh := round_log_le hn hd
  obtain ⟨m, hm⟩ : ∃ m : Nat, (m : ℤ) = round (100 * Real.logb 10 ((num : ℝ) / den)) + 1000 := ⟨_, Int.toNat_of_nonneg (by omega)⟩
  have hsearch : greatest (centibelAtLeast num den) (Nat.log2 (1000 + 31 * (Nat.log2 num + 1)) + 1) 0 = m :=
    greatest_eq (fun k => by rw [centibelAtLeast_iff hn hd]; omega)
      (lt_of_le_of_lt (by omega : m ≤ 1000 + 31 * (Nat.log2 num + 1)) Nat.lt_log2_self)
  rw [centibel, hsearch]
  omega

theorem level_of_small {num den : Nat} (h : num * 10 ^ 10 < den) : level num den = -1000 := if_pos h

theorem level_eq {num den : Nat} (hd : 0 < den) (h : den ≤ num * 10 ^ 10) :
    level num den = max (-1000) (round (100 * Real.logb 10 ((num : ℝ) / den)) - 7) := by
  rw [level, if_neg (by omega), centibel_eq hd h]

theorem level_ge (num den : Nat) : -1000 ≤ level num den := by
  unfold level
  split
  · exact le_refl _
  · exact le_max_left _ _

/-- The level never falls as the energy rises. -/
theorem level_mono {a b c d : Nat} (hb : 0 < b) (hd : 0 < d) (h : a * d ≤ c * b) : level a b ≤ level c d := by
  by_cases hsmall : a * 10 ^ 10 < b
  · rw [level_of_small hsmall]; exact level_ge c d
  · have ha : 0 < a := Nat.pos_of_ne_zero (by rintro rfl; omega)
    have hbr : (0 : ℝ) < b := by exact_mod_cast hb
    have hdr : (0 : ℝ) < d := by exact_mod_cast hd
    have har : (0 : ℝ) < a := by exact_mod_cast ha
    have hcd : d ≤ c * 10 ^ 10 := by
      have h1 : b * d ≤ a * 10 ^ 10 * d := Nat.mul_le_mul_right d (by omega)
      have h2 : a * 10 ^ 10 * d = a * d * 10 ^ 10 := by ring
      have h3 : a * d * 10 ^ 10 ≤ c * b * 10 ^ 10 := Nat.mul_le_mul_right _ h
      have h4 : c * b * 10 ^ 10 = b * (c * 10 ^ 10) := by ring
      exact Nat.le_of_mul_le_mul_left (by omega : b * d ≤ b * (c * 10 ^ 10)) hb
    rw [level_eq hb (by omega), level_eq hd hcd]
    have hle : (a : ℝ) / b ≤ (c : ℝ) / d := by rw [div_le_div_iff₀ hbr hdr]; exact_mod_cast h
    have hlog := Real.logb_le_logb_of_le (b := 10) (by norm_num) (by positivity) hle
    have hround : round (100 * Real.logb 10 ((a : ℝ) / b)) ≤ round (100 * Real.logb 10 ((c : ℝ) / d)) := by
      rw [round_eq, round_eq]; exact Int.floor_le_floor (by linarith)
    omega

/-! ### Peaks (R115) -/

theorem peakAtLeast_iff {x : Nat} (hx : 0 < x) (k : Nat) :
    peakAtLeast x k = true ↔ -(k : ℤ) ≤ round (200 * Real.logb 10 ((x : ℝ) / 2 ^ 23)) := by
  have hxr : (0 : ℝ) < x := by exact_mod_cast hx
  have key : -(k : ℤ) ≤ round (200 * Real.logb 10 ((x : ℝ) / 2 ^ 23)) ↔ (10 : ℝ) ^ (-((2 * k + 1 : ℕ) : ℤ)) ≤ ((x : ℝ) / 2 ^ 23) ^ 400 := by
    rw [le_round_iff, zpow_le_pow_iff (by positivity)]
    push_cast
    constructor <;> intro h <;> linarith
  rw [key, div_pow, le_div_iff₀ (by positivity), zpow_neg, zpow_natCast, inv_mul_le_iff₀ (by positivity), mul_comm,
    peakAtLeast, decide_eq_true_iff]
  exact_mod_cast Iff.rfl

theorem peakAtLeast_zero (k : Nat) : peakAtLeast 0 k = false := by
  rw [peakAtLeast, decide_eq_false_iff_not, zero_pow (by decide), zero_mul]
  exact Nat.not_le.mpr (by positivity)

theorem peakLevel_zero : peakLevel 0 = -1000 := by rw [peakLevel, peakAtLeast_zero, peakAtLeast_zero]; rfl

theorem peakLevel_eq {x : Nat} (hx : 0 < x) (h23 : x ≤ 8388608) :
    peakLevel x = max (-1000) (round (200 * Real.logb 10 ((x : ℝ) / 2 ^ 23))) := by
  have hle : round (200 * Real.logb 10 ((x : ℝ) / 2 ^ 23)) ≤ 0 := by
    have hxr : (0 : ℝ) < x := by exact_mod_cast hx
    have h1 : (x : ℝ) / 2 ^ 23 ≤ 1 := by rw [div_le_one (by norm_num)]; norm_num; exact_mod_cast h23
    have hlog : Real.logb 10 ((x : ℝ) / 2 ^ 23) ≤ 0 := Real.logb_nonpos (by norm_num) (by positivity) h1
    by_contra h0
    have := (le_round_iff 1 _).mp (by omega : 1 ≤ round (200 * Real.logb 10 ((x : ℝ) / 2 ^ 23)))
    push_cast at this
    linarith
  have hat (k : Nat) := peakAtLeast_iff hx k
  generalize round (200 * Real.logb 10 ((x : ℝ) / 2 ^ 23)) = v at hle hat
  unfold peakLevel
  split
  · next h => have := (hat 0).mp h; omega
  · next h0 =>
    have h0' : ¬ -((0 : Nat) : ℤ) ≤ v := fun h => h0 ((hat 0).mpr h)
    split
    · next h => have : ¬ -((1000 : Nat) : ℤ) ≤ v := fun hv => by simp [(hat 1000).mpr hv] at h
                omega
    · next h =>
      have h1000 : -((1000 : Nat) : ℤ) ≤ v := (hat 1000).mp (by simpa using h)
      obtain ⟨m, hm⟩ : ∃ m : Nat, (m : ℤ) = -v - 1 := ⟨_, Int.toNat_of_nonneg (by omega)⟩
      have hsearch : greatest (fun k => !peakAtLeast x k) 10 0 = m :=
        greatest_eq (fun k => by rw [Bool.not_eq_true', ← Bool.not_eq_true, hat]; omega) (by omega)
      rw [hsearch]
      omega

/-! ### Gain factors (R138) -/

theorem gainAtLeast_iff (a : Int) (g : Nat) :
    gainAtLeast a g = true ↔ (g : ℤ) ≤ round ((10 : ℝ) ^ ((a : ℝ) / 200) * 2 ^ 24) := by
  have hpos : (0 : ℝ) < (10 : ℝ) ^ ((a : ℝ) / 200) := by positivity
  rw [le_round_iff]
  by_cases hg : g = 0
  · subst hg
    simp only [gainAtLeast, if_true, Nat.cast_zero, Int.cast_zero, true_iff]
    linarith
  · have hodd : ((2 * g - 1 : ℕ) : ℝ) = 2 * g - 1 := by rw [Nat.cast_sub (by omega)]; push_cast; ring
    have hroot : ((10 : ℝ) ^ ((a : ℝ) / 200)) ^ 200 = (10 : ℝ) ^ a := by
      rw [← Real.rpow_natCast, ← Real.rpow_mul (by norm_num)]
      norm_num
    have hquot : (10 : ℝ) ^ a * (10 : ℝ) ^ (-a).toNat = (10 : ℝ) ^ a.toNat := by
      rw [← zpow_natCast, ← zpow_natCast, ← zpow_add₀ (by norm_num)]
      congr 1
      omega
    have hpow : (2 * g - 1 : ℕ) ≤ (10 : ℝ) ^ ((a : ℝ) / 200) * 2 ^ 25 ↔ ((2 * g - 1 : ℕ) : ℝ) ^ 200 ≤ (10 : ℝ) ^ a * 2 ^ 5000 := by
      rw [← pow_le_pow_iff_left₀ (Nat.cast_nonneg _) (by positivity) (show 200 ≠ 0 by decide), mul_pow, hroot, ← pow_mul]
    have hscale : ((2 * g - 1 : ℕ) : ℝ) ^ 200 ≤ (10 : ℝ) ^ a * 2 ^ 5000
        ↔ ((2 * g - 1 : ℕ) : ℝ) ^ 200 * (10 : ℝ) ^ (-a).toNat ≤ (10 : ℝ) ^ a.toNat * 2 ^ 5000 := by
      rw [← mul_le_mul_iff_left₀ (show (0 : ℝ) < (10 : ℝ) ^ (-a).toNat by positivity), mul_right_comm ((10 : ℝ) ^ a), hquot]
    rw [gainAtLeast, if_neg hg, decide_eq_true_iff]
    have hhalf : ((g : ℤ) : ℝ) - 1 / 2 ≤ (10 : ℝ) ^ ((a : ℝ) / 200) * 2 ^ 24 ↔ (2 * g - 1 : ℕ) ≤ (10 : ℝ) ^ ((a : ℝ) / 200) * 2 ^ 25 := by
      rw [hodd]
      push_cast
      constructor <;> intro h <;> linarith
    rw [hhalf, hpow, hscale]
    exact_mod_cast Iff.rfl

/-- The stored factor of a gain of at most +200 is the rounded power (R138). -/
theorem gainFactor_eq {a : Int} (ha : a ≤ 200) : (gainFactor a : ℤ) = round ((10 : ℝ) ^ ((a : ℝ) / 200) * 2 ^ 24) := by
  have hlow : 0 ≤ round ((10 : ℝ) ^ ((a : ℝ) / 200) * 2 ^ 24) := by
    rw [le_round_iff]
    have : (0 : ℝ) < (10 : ℝ) ^ ((a : ℝ) / 200) * 2 ^ 24 := by positivity
    push_cast; linarith
  have hhigh : ¬ (2 ^ 28 : ℤ) ≤ round ((10 : ℝ) ^ ((a : ℝ) / 200) * 2 ^ 24) := by
    rw [le_round_iff]
    have h1 : (10 : ℝ) ^ ((a : ℝ) / 200) ≤ 10 ^ (1 : ℝ) := by
      refine Real.rpow_le_rpow_of_exponent_le (by norm_num) ?_
      have : (a : ℝ) ≤ 200 := by exact_mod_cast ha
      linarith
    rw [Real.rpow_one] at h1
    push_cast
    linarith
  obtain ⟨m, hm⟩ : ∃ m : Nat, (m : ℤ) = round ((10 : ℝ) ^ ((a : ℝ) / 200) * 2 ^ 24) := ⟨_, Int.toNat_of_nonneg hlow⟩
  rw [gainFactor, greatest_eq (m := m) (fun k => by rw [gainAtLeast_iff, ← hm]; exact Int.ofNat_le) (by omega), hm]

/-! ### The output multiply (R138, R139) -/

/-- Rounding keeps a quotient within whole bounds. -/
theorem roundDiv_bounds {n lo hi : Int} {d : Nat} (hd : 0 < d) (hlo : lo * d ≤ n) (hhi : n ≤ hi * d) :
    lo ≤ roundDiv n d ∧ roundDiv n d ≤ hi := by
  have hd' : (0 : Int) < 2 * d := by omega
  unfold roundDiv
  split
  · exact ⟨Int.le_ediv_of_mul_le hd' (by linarith), Int.lt_add_one_iff.mp (Int.ediv_lt_of_lt_mul hd' (by linarith))⟩
  · have h1 : (2 * -n + (d : Int)) / (2 * d) ≤ -lo := Int.lt_add_one_iff.mp (Int.ediv_lt_of_lt_mul hd' (by linarith))
    have h2 : -hi ≤ (2 * -n + (d : Int)) / (2 * d) := Int.le_ediv_of_mul_le hd' (by linarith)
    omega

theorem roundDiv_mul {n : Int} {d : Nat} (hd : 0 < d) : roundDiv (n * d) d = n := by
  obtain ⟨h1, h2⟩ := roundDiv_bounds (lo := n) (hi := n) hd (le_refl _) (le_refl _)
  exact le_antisymm h2 h1

theorem sample_bounds (x : Sample) : -8388608 ≤ x.toInt ∧ x.toInt ≤ 8388607 := by
  have h1 := BitVec.le_toInt x
  have h2 := BitVec.toInt_lt (x := x)
  norm_num at h1 h2
  omega

theorem toInt_ofInt_of_range {v : Int} (h1 : -8388608 ≤ v) (h2 : v ≤ 8388607) : (BitVec.ofInt 24 v).toInt = v := by
  rw [BitVec.toInt_ofInt]
  exact Int.bmod_eq_of_le (by omega) (by omega)

theorem outputSlot_sample (x : Slot) (g : Nat) (fade : Nat × Nat) :
    (outputSlot x g fade).sample.toInt = max (-8388608) (min 8388607 (multiplied x.sample g fade)) := by
  rw [outputSlot]
  exact toInt_ofInt_of_range (by unfold saturate24 clampInt; omega) (by unfold saturate24 clampInt; omega)

theorem clips_iff (x : Slot) (g : Nat) (fade : Nat × Nat) :
    clips x g fade = false ↔ -8388608 ≤ multiplied x.sample g fade ∧ multiplied x.sample g fade ≤ 8388607 := by
  simp only [clips, bne_eq_false_iff_eq, saturate24, clampInt]
  omega

theorem multiplied_unity (x : Sample) : multiplied x 16777216 (1, 1) = x.toInt := by
  rw [multiplied]
  exact (congrArg (fun n => roundDiv n _) (by push_cast; ring)).trans (roundDiv_mul (n := x.toInt) (d := 16777216 * 1) (by decide))

/-- A factor of at most 1 takes no sample out of the range (R139). -/
theorem multiplied_bounds {x : Sample} {g k f : Nat} (hg : g ≤ 16777216) (hf : 0 < f) (hk : k ≤ f) :
    -8388608 ≤ multiplied x g (k, f) ∧ multiplied x g (k, f) ≤ 8388607 := by
  obtain ⟨h1, h2⟩ := sample_bounds x
  have hgk : (g * k : Int) ≤ 16777216 * f := by exact_mod_cast Nat.mul_le_mul hg hk
  have h0 : (0 : Int) ≤ g * k := by positivity
  refine roundDiv_bounds (by omega) ?_ ?_ <;> push_cast <;> nlinarith

/-- Settles O50. -/
theorem gainFactorAndOutputMultiply : Obligations.GainFactorAndOutputMultiply := by
  refine ⟨fun a _ h => gainFactor_eq h, fun x g k f hf n d hn hd => ?_, fun x g k f hf hk => ⟨?_, rfl, fun h => ?_, fun h => ?_, fun h1 h2 => ?_, fun hg => ?_⟩⟩
  · subst hn hd
    simp only [multiplied, roundDiv]
    push_cast
    rfl
  · rw [outputSlot, multiplied_unity]
    obtain ⟨h1, h2⟩ := sample_bounds x.sample
    have hsat : saturate24 x.sample.toInt = x.sample.toInt := by unfold saturate24 clampInt; omega
    rw [hsat, BitVec.ofInt_toInt]
  · rw [outputSlot_sample]
    refine ⟨by omega, ?_⟩
    rw [← Bool.not_eq_false, clips_iff]
    omega
  · rw [outputSlot_sample]
    refine ⟨by omega, ?_⟩
    rw [← Bool.not_eq_false, clips_iff]
    omega
  · rw [outputSlot_sample]
    exact ⟨by omega, (clips_iff _ _ _).mpr ⟨h1, h2⟩⟩
  · exact (clips_iff _ _ _).mpr (multiplied_bounds hg hf hk)

end Sys2Proof.Machine
end

