-- ==== Sys2Proof/Proofs/FilterArithmetic.lean ====
section
/-! PROOFS. The 53-bit arithmetic of the weighting filter is exact arithmetic rounded to nearest with ties to even (R107). -/

namespace Sys2Proof.Machine

/-! ### A significand rounded to 53 bits -/

theorem log2_bounds {m : Nat} (hm : 0 < m) : 2 ^ Nat.log2 m ≤ m ∧ m < 2 ^ (Nat.log2 m + 1) :=
  ⟨Nat.log2_self_le hm.ne', Nat.lt_log2_self⟩

/-- A significand of at most 53 bits is kept exactly. -/
theorem roundSig_of_le {m : Nat} (h : Nat.log2 m + 1 ≤ 53) (e : Int) :
    roundSig m e = (m * 2 ^ (52 - Nat.log2 m), e - ((52 - Nat.log2 m : Nat) : Int)) := by
  simp only [roundSig, if_pos h]
  rw [show 53 - (Nat.log2 m + 1) = 52 - Nat.log2 m by omega]

/-- A longer one is the nearer of the two 53-bit numbers that it lies between, or the even one of them. -/
theorem roundSig_of_gt {m : Nat} (h : 53 < Nat.log2 m + 1) (e : Int) : ∃ sh q : Nat, ∃ up : Bool, 0 < sh ∧ 2 ^ 52 ≤ q ∧ q < 2 ^ 53
    ∧ q * 2 ^ sh ≤ m ∧ m < q * 2 ^ sh + 2 ^ sh
    ∧ (up = true → q * 2 ^ sh + 2 ^ (sh - 1) ≤ m ∧ (m = q * 2 ^ sh + 2 ^ (sh - 1) → Even (q + 1)))
    ∧ (up = false → m ≤ q * 2 ^ sh + 2 ^ (sh - 1) ∧ (m = q * 2 ^ sh + 2 ^ (sh - 1) → Even q))
    ∧ roundSig m e = if q + up.toNat = 2 ^ 53 then (2 ^ 52, e + sh + 1) else (q + up.toNat, e + sh) := by
  have hm : 0 < m := Nat.pos_of_ne_zero (by rintro rfl; simp at h)
  obtain ⟨hlo, hhi⟩ := log2_bounds hm
  obtain ⟨sh, hsh⟩ : ∃ sh, Nat.log2 m + 1 = 53 + sh := ⟨Nat.log2 m + 1 - 53, by omega⟩
  have hpos : 0 < 2 ^ sh := by positivity
  have hsplit : m / 2 ^ sh * 2 ^ sh + m % 2 ^ sh = m := Nat.div_add_mod' m (2 ^ sh)
  have hrem : m % 2 ^ sh < 2 ^ sh := Nat.mod_lt m hpos
  have hq1 : 2 ^ 52 ≤ m / 2 ^ sh := by
    rw [Nat.le_div_iff_mul_le hpos, ← pow_add]
    rwa [show 52 + sh = Nat.log2 m by omega]
  have hq2 : m / 2 ^ sh < 2 ^ 53 := by
    rw [Nat.div_lt_iff_lt_mul hpos, ← pow_add]
    rwa [show 53 + sh = Nat.log2 m + 1 by omega]
  refine ⟨sh, m / 2 ^ sh, decide (2 ^ (sh - 1) < m % 2 ^ sh) || (m % 2 ^ sh == 2 ^ (sh - 1) && m / 2 ^ sh % 2 == 1), by omega, hq1, hq2,
    by omega, by omega, fun hup => ?_, fun hup => ?_, ?_⟩
  · simp only [Bool.or_eq_true, decide_eq_true_eq, Bool.and_eq_true, beq_iff_eq] at hup
    refine ⟨by omega, fun heq => ?_⟩
    rcases hup with hup | ⟨-, hodd⟩
    · omega
    · exact Nat.even_add_one.mpr (by rw [Nat.not_even_iff]; exact hodd)
  · simp only [Bool.or_eq_false_iff, decide_eq_false_iff_not, Bool.and_eq_false_iff, beq_eq_false_iff_ne] at hup
    obtain ⟨h1, h2⟩ := hup
    refine ⟨by omega, fun heq => ?_⟩
    rw [Nat.even_iff]
    omega
  · have hshift : Nat.log2 m + 1 - 53 = sh := by omega
    simp only [roundSig, if_neg (show ¬ Nat.log2 m + 1 ≤ 53 by omega), hshift]
    cases hup : decide (2 ^ (sh - 1) < m % 2 ^ sh) || (m % 2 ^ sh == 2 ^ (sh - 1) && m / 2 ^ sh % 2 == 1) <;> simp

/-- The rounded significand has 53 bits and lies within half a unit of its last place, an even one at a tie. -/
theorem roundSig_facts {m : Nat} (hm : 0 < m) (e : Int) :
    2 ^ 52 ≤ (roundSig m e).1 ∧ (roundSig m e).1 < 2 ^ 53
      ∧ |((roundSig m e).1 : ℚ) * 2 ^ (roundSig m e).2 - m * 2 ^ e| ≤ 2 ^ (roundSig m e).2 / 2
      ∧ (|((roundSig m e).1 : ℚ) * 2 ^ (roundSig m e).2 - m * 2 ^ e| = 2 ^ (roundSig m e).2 / 2 → Even (roundSig m e).1) := by
  obtain ⟨hlo, hhi⟩ := log2_bounds hm
  by_cases hbits : Nat.log2 m + 1 ≤ 53
  · rw [roundSig_of_le hbits]
    have h52 : 2 ^ Nat.log2 m * 2 ^ (52 - Nat.log2 m) = 2 ^ 52 := by rw [← pow_add]; congr 1; omega
    have h53 : 2 ^ (Nat.log2 m + 1) * 2 ^ (52 - Nat.log2 m) = 2 ^ 53 := by rw [← pow_add]; congr 1; omega
    have hexact : ((m * 2 ^ (52 - Nat.log2 m) : ℕ) : ℚ) * 2 ^ (e - ((52 - Nat.log2 m : Nat) : Int)) - m * 2 ^ e = 0 := by
      rw [zpow_sub₀ (by norm_num), zpow_natCast]
      push_cast
      field_simp
      ring
    have hunit : (0 : ℚ) < 2 ^ (e - ((52 - Nat.log2 m : Nat) : Int)) / 2 := by positivity
    refine ⟨h52 ▸ Nat.mul_le_mul_right _ hlo, h53 ▸ Nat.mul_lt_mul_of_pos_right hhi (by positivity), ?_, fun h => ?_⟩
    · rw [hexact, abs_zero]; exact hunit.le
    · rw [hexact, abs_zero] at h; exact absurd h hunit.ne
  · obtain ⟨sh, q, up, hsh, hq1, hq2, hle, hlt, hup, hdown, heq⟩ := roundSig_of_gt (by omega : 53 < Nat.log2 m + 1) e
    have he : (0 : ℚ) < 2 ^ e := by positivity
    have hdouble : 2 ^ sh = 2 * 2 ^ (sh - 1) := by rw [← pow_succ']; congr 1; omega
    have hhalf : (2 : ℚ) ^ sh = 2 * 2 ^ (sh - 1) := by exact_mod_cast hdouble
    have hpow : (2 : ℚ) ^ (e + sh) = 2 ^ sh * 2 ^ e := by rw [zpow_add₀ (by norm_num), zpow_natCast]; ring
    have hnear : |((q + up.toNat : ℕ) : ℚ) * 2 ^ sh - m| ≤ 2 ^ (sh - 1)
        ∧ (|((q + up.toNat : ℕ) : ℚ) * 2 ^ sh - m| = 2 ^ (sh - 1) → Even (q + up.toNat)) := by
      have hleq : (q : ℚ) * 2 ^ sh ≤ m := by exact_mod_cast hle
      have hltq : (m : ℚ) < q * 2 ^ sh + 2 ^ sh := by exact_mod_cast hlt
      cases up with
      | true =>
        obtain ⟨h1, h2⟩ := hup rfl
        have h1q : (q : ℚ) * 2 ^ sh + 2 ^ (sh - 1) ≤ m := by exact_mod_cast h1
        have habs : |((q + true.toNat : ℕ) : ℚ) * 2 ^ sh - m| = q * 2 ^ sh + 2 ^ sh - m := by
          rw [Bool.toNat_true]; push_cast; rw [abs_of_nonneg (by linarith)]; ring
        rw [habs]
        exact ⟨by linarith, fun h => h2 (by have : (m : ℚ) = q * 2 ^ sh + 2 ^ (sh - 1) := by linarith
                                            exact_mod_cast this)⟩
      | false =>
        obtain ⟨h1, h2⟩ := hdown rfl
        have h1q : (m : ℚ) ≤ q * 2 ^ sh + 2 ^ (sh - 1) := by exact_mod_cast h1
        have habs : |((q + false.toNat : ℕ) : ℚ) * 2 ^ sh - m| = m - q * 2 ^ sh := by
          rw [Bool.toNat_false, Nat.add_zero, abs_of_nonpos (by linarith)]; ring
        rw [habs]
        exact ⟨by linarith, fun h => h2 (by have : (m : ℚ) = q * 2 ^ sh + 2 ^ (sh - 1) := by linarith
                                            exact_mod_cast this)⟩
    have hscaled : |((q + up.toNat : ℕ) : ℚ) * 2 ^ (e + sh) - m * 2 ^ e| = |((q + up.toNat : ℕ) : ℚ) * 2 ^ sh - m| * 2 ^ e := by
      rw [hpow, ← mul_assoc, ← sub_mul, abs_mul, abs_of_pos he]
    have hunit : (2 : ℚ) ^ (e + sh) / 2 = 2 ^ (sh - 1) * 2 ^ e := by rw [hpow, hhalf]; ring
    rw [heq]
    split
    · next htop =>
      have hsame : ((2 ^ 52 : ℕ) : ℚ) * 2 ^ (e + sh + 1) = ((q + up.toNat : ℕ) : ℚ) * 2 ^ (e + sh) := by
        rw [htop, zpow_add_one₀ (by norm_num)]; push_cast; ring
      have hless : (2 : ℚ) ^ (sh - 1) * 2 ^ e < 2 ^ (e + sh + 1) / 2 := by
        rw [zpow_add_one₀ (by norm_num), mul_div_assoc, div_self (by norm_num), mul_one, hpow, hhalf]
        have : (0 : ℚ) < 2 ^ (sh - 1) * 2 ^ e := by positivity
        linarith
      have hle' := mul_le_mul_of_nonneg_right hnear.1 he.le
      dsimp only
      rw [hsame, hscaled]
      exact ⟨le_refl _, by decide, by linarith, fun h => absurd h (by linarith)⟩
    · next htop =>
      have hlt53 : q + up.toNat < 2 ^ 53 := by
        have := Bool.toNat_le up
        omega
      dsimp only
      rw [hscaled, hunit]
      exact ⟨by omega, hlt53, mul_le_mul_of_nonneg_right hnear.1 he.le, fun h => hnear.2 (mul_right_cancel₀ he.ne' h)⟩

/-! ### Numbers of the format -/

theorem ofScaled_facts {n : Int} (hn : n ≠ 0) (e : Int) :
    2 ^ 52 ≤ (F53.ofScaled n e).sig.natAbs ∧ (F53.ofScaled n e).sig.natAbs < 2 ^ 53
      ∧ |(F53.ofScaled n e).value - n * (2 : ℚ) ^ e| ≤ (2 : ℚ) ^ (F53.ofScaled n e).exp / 2
      ∧ (|(F53.ofScaled n e).value - n * (2 : ℚ) ^ e| = (2 : ℚ) ^ (F53.ofScaled n e).exp / 2 → Even (F53.ofScaled n e).sig) := by
  obtain ⟨h1, h2, h3, h4⟩ := roundSig_facts (Int.natAbs_pos.mpr hn) e
  have hr : F53.ofScaled n e = ⟨if n < 0 then -((roundSig n.natAbs e).1 : Int) else (roundSig n.natAbs e).1, (roundSig n.natAbs e).2⟩ := by
    rw [F53.ofScaled, if_neg hn]
  rw [hr]
  by_cases hneg : n < 0
  · have habs : ((n.natAbs : ℕ) : ℚ) = -n := by
      have : ((n.natAbs : ℕ) : ℤ) = -n := by omega
      rw [← Int.cast_natCast, this, Int.cast_neg]
    have hval : |F53.value ⟨if n < 0 then -((roundSig n.natAbs e).1 : Int) else (roundSig n.natAbs e).1, (roundSig n.natAbs e).2⟩ - n * (2 : ℚ) ^ e|
        = |((roundSig n.natAbs e).1 : ℚ) * 2 ^ (roundSig n.natAbs e).2 - n.natAbs * 2 ^ e| := by
      rw [habs, ← abs_neg, F53.value, if_pos hneg]
      push_cast
      congr 1
      ring
    rw [hval]
    dsimp only
    rw [if_pos hneg, Int.natAbs_neg, Int.natAbs_natCast, even_neg, Int.even_coe_nat]
    exact ⟨h1, h2, h3, h4⟩
  · have habs : ((n.natAbs : ℕ) : ℚ) = n := by
      have : ((n.natAbs : ℕ) : ℤ) = n := by omega
      rw [← Int.cast_natCast, this]
    have hval : |F53.value ⟨if n < 0 then -((roundSig n.natAbs e).1 : Int) else (roundSig n.natAbs e).1, (roundSig n.natAbs e).2⟩ - n * (2 : ℚ) ^ e|
        = |((roundSig n.natAbs e).1 : ℚ) * 2 ^ (roundSig n.natAbs e).2 - n.natAbs * 2 ^ e| := by
      rw [habs, F53.value, if_neg hneg]
      push_cast
      rfl
    rw [hval]
    dsimp only
    rw [if_neg hneg, Int.natAbs_natCast, Int.even_coe_nat]
    exact ⟨h1, h2, h3, h4⟩

theorem mul_rounded (a b : F53) : ∃ n e, F53.mul a b = F53.ofScaled n e ∧ n * (2 : ℚ) ^ e = a.value * b.value := by
  refine ⟨_, _, rfl, ?_⟩
  rw [zpow_add₀ (by norm_num), F53.value, F53.value]
  push_cast
  ring

theorem add_rounded (a b : F53) :
    (F53.add a b).value = a.value + b.value ∨ ∃ n e, F53.add a b = F53.ofScaled n e ∧ n * (2 : ℚ) ^ e = a.value + b.value := by
  have shift (x : F53) {e : Int} (h : e ≤ x.exp) : (x.sig * 2 ^ (x.exp - e).toNat : ℚ) * 2 ^ e = x.value := by
    rw [F53.value, mul_assoc, ← zpow_natCast, ← zpow_add₀ (by norm_num)]
    congr 2
    omega
  unfold F53.add
  split
  · next h => left; simp [F53.value, h]
  · split
    · next h => left; simp [F53.value, h]
    · right
      refine ⟨_, _, rfl, ?_⟩
      push_cast
      rw [add_mul, shift a (min_le_left _ _), shift b (min_le_right _ _)]

theorem sub_rounded (a b : F53) :
    (F53.sub a b).value = a.value - b.value ∨ ∃ n e, F53.sub a b = F53.ofScaled n e ∧ n * (2 : ℚ) ^ e = a.value - b.value := by
  have hneg : a.value - b.value = a.value + F53.value ⟨-b.sig, b.exp⟩ := by simp only [F53.value]; push_cast; ring
  rw [hneg]
  exact add_rounded a _

/-! ### The coefficients (R107) -/

/-- A number of the format is the nearest to a decimal. -/
def F53.nearest (a : F53) (x : ℚ) : Prop :=
  2 ^ 52 ≤ a.sig.natAbs ∧ a.sig.natAbs < 2 ^ 53 ∧ |a.value - x| ≤ (2 : ℚ) ^ a.exp / 2

theorem nearest_of_eq {a b : F53} {x : ℚ} (ha : a = b) (h : b.nearest x) : a.nearest x := ha ▸ h

/-- The bounds of a number of the format, as the arithmetic of its significand and exponent decides them. -/
theorem nearest_of_bounds {sig exp : Int} {x : ℚ} (h1 : 2 ^ 52 ≤ sig.natAbs) (h2 : sig.natAbs < 2 ^ 53)
    (h3 : sig * 2 ^ exp - 2 ^ exp / 2 ≤ x) (h4 : x ≤ sig * 2 ^ exp + 2 ^ exp / 2) : F53.nearest ⟨sig, exp⟩ x :=
  ⟨h1, h2, abs_le.mpr ⟨by dsimp only [F53.value]; linarith, by dsimp only [F53.value]; linarith⟩⟩

theorem shelf_b0 : shelfCoeffs.b0.nearest (153512485958697 / 10 ^ 14) :=
  nearest_of_eq (b := ⟨6913587745603063, -52⟩) (by decide +kernel) (nearest_of_bounds (by decide) (by decide) (by norm_num) (by norm_num))

theorem shelf_b1 : shelfCoeffs.b1.nearest (-269169618940638 / 10 ^ 14) :=
  nearest_of_eq (b := ⟨-6061160977802578, -51⟩) (by decide +kernel) (nearest_of_bounds (by decide) (by decide) (by norm_num) (by norm_num))

theorem shelf_b2 : shelfCoeffs.b2.nearest (119839281085285 / 10 ^ 14) :=
  nearest_of_eq (b := ⟨5397081416400377, -52⟩) (by decide +kernel) (nearest_of_bounds (by decide) (by decide) (by norm_num) (by norm_num))

theorem shelf_a1 : shelfCoeffs.a1.nearest (-169065929318241 / 10 ^ 14) :=
  nearest_of_eq (b := ⟨-7614052562786768, -52⟩) (by decide +kernel) (nearest_of_bounds (by decide) (by decide) (by norm_num) (by norm_num))

theorem shelf_a2 : shelfCoeffs.a2.nearest (73248077421585 / 10 ^ 14) :=
  nearest_of_eq (b := ⟨6597600283629109, -53⟩) (by decide +kernel) (nearest_of_bounds (by decide) (by decide) (by norm_num) (by norm_num))

theorem lowCut_b0 : lowCutCoeffs.b0.nearest 1 :=
  nearest_of_eq (b := ⟨4503599627370496, -52⟩) (by decide +kernel) (nearest_of_bounds (by decide) (by decide) (by norm_num) (by norm_num))

theorem lowCut_b1 : lowCutCoeffs.b1.nearest (-2) :=
  nearest_of_eq (b := ⟨-4503599627370496, -51⟩) (by decide +kernel) (nearest_of_bounds (by decide) (by decide) (by norm_num) (by norm_num))

theorem lowCut_a1 : lowCutCoeffs.a1.nearest (-199004745483398 / 10 ^ 14) :=
  nearest_of_eq (b := ⟨-8962376976039916, -52⟩) (by decide +kernel) (nearest_of_bounds (by decide) (by decide) (by norm_num) (by norm_num))

theorem lowCut_a2 : lowCutCoeffs.a2.nearest (99007225036621 / 10 ^ 14) :=
  nearest_of_eq (b := ⟨8917778035638264, -53⟩) (by decide +kernel) (nearest_of_bounds (by decide) (by decide) (by norm_num) (by norm_num))

/-- Settles O44. -/
theorem levelsAndFilterArithmeticAreRounded : Obligations.LevelsAndFilterArithmeticAreRounded := by
  refine ⟨fun num den hd => ?_, fun a b c d hb hd h => level_mono hb hd h, ⟨peakLevel_zero, fun x hx h => peakLevel_eq hx h⟩, ?_,
    fun a b => ⟨mul_rounded a b, add_rounded a b, sub_rounded a b⟩, ?_⟩
  · have hdr : (0 : ℝ) < den := by exact_mod_cast hd
    have hiff : (10 : ℝ) ^ (-10 : ℤ) ≤ (num : ℝ) / den ↔ den ≤ num * 10 ^ 10 := by
      rw [le_div_iff₀ hdr, zpow_neg, inv_mul_le_iff₀ (by positivity), mul_comm]
      exact_mod_cast Iff.rfl
    refine ⟨fun h => level_of_small ?_, fun h => level_eq hd (hiff.mp h)⟩
    have := mt hiff.mpr (not_le.mpr h)
    omega
  · rintro n e hn r rfl
    exact ofScaled_facts hn e
  · simp only [List.forall_mem_cons, List.not_mem_nil, false_imp_iff, implies_true, and_true]
    exact ⟨shelf_b0, shelf_b1, shelf_b2, shelf_a1, shelf_a2, lowCut_b0, lowCut_b1, lowCut_b0, lowCut_a1, lowCut_a2⟩

end Sys2Proof.Machine
end

