-- ==== Sys2Proof/Proofs/UnitLaws.lean ====
section
/-! PROOFS. A law of the programmes one by one that does not read their move units is kept by every step, when what a step does to
a meter, a corrector or a programme record keeps it. -/

namespace Sys2Proof.Machine

variable {q : State → Prop} {s t : State}

/-! ### The corrector at a block result -/

/-- The corrector behind a block result, before its events (R132 to R134). -/
def Corrector.resulted (c : Corrector) (set : LoudSettings) (r : BlockResult) (due rp : Int) : Corrector × Bool :=
  if c.mode = .track then
    (if r.freeze != Freeze.none then { c with freeze := r.freeze }
      else { c with freeze := r.freeze, g := stepToward c.settings c.g (wantedGain c.settings set r) }).append due rp
  else ({ c with freeze := r.freeze }, false)

theorem gainResult_eq (s : State) (p : Fin 8) (set : LoudSettings) (r : BlockResult) (w : Nat) : s.gainResult p set r w =
    let a := (s.prog p).gain.resulted set r ((w : Int) - 4800) ((w : Int) - 1 - (s.prog p).move.dcur)
    if (s.prog p).gain.mode = .track then
      let u := if r.freeze != Freeze.none then (s.setGain p a.1).count .blockFrozen (some p) 1 else s.setGain p a.1
      if a.2 then u.count .gainLate (some p) 1 else u
    else s.setGain p a.1 := by
  unfold State.gainResult Corrector.resulted
  dsimp only
  split
  · split <;> rfl
  · rfl

/-! ### Laws of the programmes -/

/-- The law holds of a programme behind whatever a step does to its record, its meter and its corrector. -/
structure UnitLaw (P : Programme → Prop) : Prop where
  reset : P Programme.reset
  move : ∀ x m, P x → P { x with move := m }
  group : ∀ x g, P x → P { x with group := g }
  opened : ∀ x ls g e, P (openedProgramme x ls g e)
  closedClearing : ∀ x, P x → P x.closedClearing
  closedLive : ∀ x, P x → P x.closedLive
  cleared : ∀ x l h, x.life.held? = some h → l.held? = some h → P x → P { x with life := l }
  sampled : ∀ x h w w' ins clip, x.life = .live h w → P x →
    P { x with life := .live h w', meter := x.meter.take ins h.lanes, gain := { x.gain with clip := clip } }
  settings : ∀ x set, P x → P { x with meter := { x.meter with settings := set } }
  restart : ∀ x, P x → P { x with meter := x.meter.restart }
  clearPeaks : ∀ x, P x → P { x with meter := x.meter.clearPeaks }
  opening : ∀ x, P x → P { x with meter := x.meter.closeOpening }
  result : ∀ x h w b, x.life = .live h w → P x → P { x with meter := (x.meter.result h.lanes b).1 }
  gainSet : ∀ x set m, P x → P { x with gain := (x.gain.withSettings (GainSettings.clamped set)).setMode m }
  gainResult : ∀ x set r due rp, P x → P { x with gain := (x.gain.resulted set r due rp).1 }
  clipped : ∀ x, P x → P { x with gain := { x.gain with clip := 0 } }
  gainStep : ∀ x rp, P x → P { x with gain := (x.gain.takeDue rp).1.rampStep }

/-- Every programme keeps the law. -/
def State.allProgs (P : Programme → Prop) (s : State) : Prop := ∀ p, P (s.prog p)

theorem allProgs_reads (P : Programme → Prop) : Reads [.progs] (State.allProgs P) := fun s t h hs p => by
  have hp : s.progs = t.progs := h .progs (by simp)
  rw [State.prog_congr hp.symm p]; exact hs p

theorem allProgs_setProg {P : Programme → Prop} {p : Fin 8} {x : Programme} (hx : P x) (h : s.allProgs P) : (s.setProg p x).allProgs P := by
  intro k
  by_cases hk : k = p
  · subst hk; rw [State.prog_setProg]; exact hx
  · rw [State.prog_setProg_ne s hk]; exact h k

section
variable {P : Programme → Prop} (law : UnitLaw P)
include law

theorem UnitLaw.of_moves (hm : s.sameButMoves t) (h : s.allProgs P) : t.allProgs P := by
  intro p; rw [hm p]; exact law.move _ _ (h p)

theorem UnitLaw.gainStep_keep (p : Fin 8) (w : Nat) (h : s.allProgs P) : (s.gainStep p w).allProgs P := by
  have hset : (s.setGain p ((s.prog p).gain.takeDue ((w : Int) - (s.prog p).move.dcur)).1.rampStep).allProgs P :=
    allProgs_setProg (law.gainStep _ _ (h p)) h
  unfold State.gainStep
  dsimp only
  split
  · exact hset
  · exact (allProgs_reads P).keep (foldl_sameBut _ eventParts _ (fun t _ => count_sameBut t _ _ _) _) (by decide) hset

theorem UnitLaw.gainResult_keep (p : Fin 8) (set : LoudSettings) (r : BlockResult) (w : Nat) (h : s.allProgs P) :
    (s.gainResult p set r w).allProgs P := by
  have hset : (s.setGain p ((s.prog p).gain.resulted set r ((w : Int) - 4800) ((w : Int) - 1 - (s.prog p).move.dcur)).1).allProgs P :=
    allProgs_setProg (law.gainResult _ _ _ _ _ (h p)) h
  have count {u : State} (e : CountEvent) (hu : u.allProgs P) : (u.count e (some p) 1).allProgs P :=
    (allProgs_reads P).keep (count_sameBut u e _ _) (by decide) hu
  rw [gainResult_eq]
  dsimp only
  split
  · have hfrozen := ite_keep (b := (r.freeze != Freeze.none) = true) (fun _ => count .blockFrozen hset) hset
    exact ite_keep (fun _ => count .gainLate hfrozen) hfrozen
  · exact hset

theorem UnitLaw.sendClipped_keep (p : Fin 8) (h : s.allProgs P) : (s.sendClipped p).allProgs P := by
  unfold State.sendClipped
  dsimp only
  split
  · exact h
  · exact (allProgs_reads P).keep (count_sameBut _ _ _ _) (by decide) (allProgs_setProg (law.clipped _ (h p)) h)

theorem UnitLaw.programmeBlockEnd_keep (m : Vector Bool 8) (p : Fin 8) (s : State) (h : s.allProgs P) :
    (State.programmeBlockEnd m p s).allProgs P := by
  unfold State.programmeBlockEnd
  dsimp only
  split
  · exact h
  · exact h
  · next e w hl =>
    split
    · exact law.sendClipped_keep p (allProgs_setProg (law.opening _ (h p)) h)
    · exact law.sendClipped_keep p ((allProgs_reads P).keep (meterEvents_sameBut _ p _ _) (by decide)
        (law.gainResult_keep p _ _ w (allProgs_setProg (law.result _ e w _ hl (h p)) h)))

theorem UnitLaw.restartCue_keep (g : Fin 4) (h : s.allProgs P) : (s.restartCue g).allProgs P := by
  unfold State.restartCue
  split
  · exact List.foldlRecOn _ _ h (fun t ht p _ => allProgs_setProg (law.restart _ (ht p)) ht)
  · exact h

theorem UnitLaw.takeCue_keep (g : Fin 4) (time : Stamp) (h : s.allProgs P) : (s.takeCue g time).allProgs P := by
  rw [takeCue_eq]
  refine (allProgs_reads P).keep (setGroup_sameBut _ g _) (by decide) (law.restartCue_keep g ?_)
  exact (allProgs_reads P).keep (snapshotCue_sameBut _ g time) (by decide) (law.of_moves (cueStarted_sameButMoves s g) h)

theorem UnitLaw.cueGroups_keep (cued : CueGroup → Bool) (time : Stamp) (h : s.allProgs P) : (s.cueGroups cued time).allProgs P :=
  forEach_induct _ (State.allProgs P) _ h (fun g _ ht => ite_keep (fun _ => law.takeCue_keep g time ht) ht)

theorem UnitLaw.cuesOf_keep (b : Bool) (src : CueSource) (h : s.allProgs P) : (s.cuesOf b src).allProgs P :=
  ite_keep (fun _ => law.cueGroups_keep _ _ h) h

theorem UnitLaw.sampleFrm_keep (v : Bool) (s : State) (h : s.allProgs P) : (s.sampleFrm v).allProgs P := by
  have hf : (s.frmSampled v).allProgs P := (allProgs_reads P).keep (frmSampled_sameBut s v) (by decide) h
  rw [sampleFrm_eq]
  exact ite_keep (fun _ => law.cueGroups_keep _ _ ((allProgs_reads P).keep (reportFrameRef_sameBut _) (by decide) hf)) hf

theorem UnitLaw.sampleCues_keep (c0 c1 : Bool) (s : State) (h : s.allProgs P) : (s.sampleCues c0 c1).allProgs P := by
  rw [sampleCues_eq]
  exact law.cuesOf_keep _ _ (law.cuesOf_keep _ _ ((allProgs_reads P).keep (cuesSampled_sameBut s c0 c1) (by decide) h))

theorem UnitLaw.clearStep_keep (p : Fin 8) (h : s.allProgs P) : (s.clearStep p).allProgs P := by
  unfold State.clearStep
  split
  · next e left k hl =>
    have hold (u : State) (hu : u.allProgs P) (hp : u.prog p = s.prog p) (l : Life) (hlh : l.held? = some e) : (u.setLife p l).allProgs P :=
      allProgs_setProg (law.cleared _ l e (by rw [hp, hl]; rfl) hlh (hu p)) hu
    split
    · exact hold s h rfl _ rfl
    · dsimp only
      split
      · exact hold _ h rfl _ rfl
      · exact hold _ h rfl _ rfl
  · exact h
  · exact h

theorem UnitLaw.effect_keep (he : Effect s t) (h : s.allProgs P) : t.allProgs P := by
  have same {ps : List Part} {u v : State} (hb : u.sameBut ps v) (hp : Part.progs ∉ ps) (hu : u.allProgs P) : v.allProgs P :=
    (allProgs_reads P).keep hb (by simpa using hp) hu
  have staged (p : Fin 8) (x : Staged) : (s.setStaged p x).allProgs P := allProgs_setProg (law.move _ _ (h p)) h
  cases he with
  | nothing => exact h
  | linkSet l en pp sp => exact same (setLinkPolicy_sameBut s l en pp sp) (by decide) h
  | opened x p ls g start free hx hc hl ha => exact allProgs_setProg (s := { s with freeList := free }) (law.opened x ls g _) h
  | closedClearing p e left k hl => exact allProgs_setProg (law.closedClearing _ (h p)) h
  | closedLive p e w hl =>
    have hr : ((s.setProg p (s.prog p).closedLive).releaseExtent e.extent).allProgs P := allProgs_setProg (law.closedLive _ (h p)) h
    exact same (closeSources_sameBut _ p) (by decide) (ite_keep (fun _ => same (leftWaiting_sameBut _ _) (by decide) hr) hr)
  | grouped p g hc => exact allProgs_setProg (law.group _ g (h p)) h
  | drafted p r v hr => exact staged p _
  | committed p r hd h0 h1 => exact staged p _
  | unstaged p => exact staged p _
  | started p r hd hr => exact law.of_moves (enterRecord_sameButMoves _ p r) (staged p _)
  | held p => exact law.of_moves (hold_sameButMoves s p) h
  | heldAll => exact law.of_moves (holdAll_sameButMoves s) h
  | resumed p r hh => exact law.of_moves (enterRecord_sameButMoves s p _) h
  | reportsRead p => exact law.of_moves (afterRead_sameButMoves _ p) (allProgs_setProg (law.move _ _ (h p)) h)
  | cueSet g src timeout restart snapshot =>
    exact same (reportFrameRef_sameBut _) (by decide) (same (setGroup_sameBut s g _) (by decide) h)
  | armed g => exact same (armGroup_sameBut s _) (by decide) h
  | cued g => exact law.takeCue_keep g _ h
  | snapRead g x => exact same (setSnap_sameBut s g x) (by decide) h
  | loudSet p x => exact allProgs_setProg (law.settings _ x (h p)) h
  | loudRestart p => exact allProgs_setProg (law.restart _ (h p)) h
  | loudRead p => exact allProgs_setProg (law.clearPeaks _ (h p)) h
  | gainSet p x m => exact allProgs_setProg (law.gainSet _ x m (h p)) h
  | almSet n prio masked rt ct hn => exact same (storeSettings_sameBut s n _) (by decide) h
  | almLevel v => exact same (judge_threshold_sameBut s v) (by decide) h
  | almNext n hn => exact same (setSource_sameBut s n _) (by decide) h
  | almClose n hn => exact same (setSource_sameBut s n _) (by decide) h
  | contactSet c ceil m => exact same (setContact_sameBut s c _) (by decide) h
  | zeroed c => exact same (setCounter_sameBut s c _) (by decide) h
  | allZeroed => exact same (clearCounters_sameBut s) (by decide) h

theorem UnitLaw.takeBlockEnd_keep (h : s.allProgs P) : s.takeBlockEnd.allProgs P :=
  Machine.takeBlockEnd_keep (q := State.allProgs P) (fun _ hs => hs) (fun c s => (allProgs_reads P).keep (contactStep_sameBut s c) (by decide))
    (fun l s => (allProgs_reads P).keep (linkBlockEnd_sameBut s l) (by decide))
    (fun e k s _ => (allProgs_reads P).keep (count_sameBut s e none k) (by decide))
    law.programmeBlockEnd_keep (fun _ hs => hs) (fun p s => law.of_moves (cueWaitStep_sameButMoves s p))
    (fun n s _ => (allProgs_reads P).keep (timerStep_sameBut s n) (by decide)) (fun _ _ hs => hs) h

theorem UnitLaw.takeHouseSample_keep (hb : s.blockEndDue = false) (frm c0 c1 : Bool) (h : s.allProgs P) :
    (s.takeHouseSample frm c0 c1).allProgs P :=
  Machine.takeHouseSample_keep (q := State.allProgs P) hb (fun _ hs => hs)
    (fun l s => (allProgs_reads P).keep (readConverter_sameBut s l) (by decide))
    (fun ins acc p => programmeSample_keep (fun s => law.of_moves (moveStep_sameButMoves s p)) (fun w s => law.gainStep_keep p w)
      (fun e w clip s hl hs => allProgs_setProg (s := { s with mem := writeRings ins e w s.mem }) (law.sampled _ e w _ ins _ hl (hs p)) hs)
      (live_steps p))
    (fun _ _ hs => hs) (fun p _ => law.clearStep_keep p) law.sampleFrm_keep
    (fun s => (allProgs_reads P).keep (absenceTest_sameBut s) (by decide)) law.sampleCues_keep (fun _ _ hs => hs) h frm c0 c1

theorem UnitLaw.kept : Kept (State.allProgs P) where
  outside := (allProgs_reads P).mono (by decide)
  reset _ _ := fun p => (reset_prog p).symm ▸ law.reset
  request code body s h := takeRequest_keep (fun _ he => law.effect_keep he h) (fun _ _ => h) (fun _ _ => h) code
  arrive l f ok s := (allProgs_reads P).keep (arrive_sameBut s l f ok) (by decide)
  discard s := (allProgs_reads P).keep (sameBut_trans (latch_sameBut s _) (count_sameBut _ _ _ _)) (by decide)
  blockEnd _ := law.takeBlockEnd_keep
  sample _ frm c0 c1 hb _ := law.takeHouseSample_keep hb frm c0 c1
  share s f hf := onSample_keep (allProgs_reads P) (by decide) (fun hs => by
    cases hf with
    | move p => exact law.of_moves (moveStep_sameButMoves _ p) hs
    | gain p w => exact law.gainStep_keep p w hs
    | absent => exact (allProgs_reads P).keep (becomeAbsent_sameBut _) (by decide) hs
    | clear p _ => exact law.clearStep_keep p hs)
  wait p s := law.of_moves (cueWaitStep_sameButMoves s p)
  timer n s _ := (allProgs_reads P).keep (timerStep_sameBut s n) (by decide)
  contact _ _ h := h

end

end Sys2Proof.Machine
end

