-- ==== Sys2Proof/Proofs/MeterResults.lean ====
section
/-! PROOFS. The loudness meter: what a lane takes, the block result, the gating windows in their bins, and the gate (chapter 6). -/

namespace Sys2Proof.Machine

/-! ### Levels of mean energies -/

/-- The level of two energies taken together lies between their levels. -/
theorem level_mediant {a b c d : Nat} (hb : 0 < b) (hd : 0 < d) :
    min (level a b) (level c d) ≤ level (a + c) (b + d) ∧ level (a + c) (b + d) ≤ max (level a b) (level c d) := by
  have hbd : 0 < b + d := by omega
  rcases Nat.le_total (a * d) (c * b) with h | h
  · exact ⟨(min_le_left _ _).trans (level_mono hb hbd (by nlinarith)), (level_mono hbd hd (by nlinarith)).trans (le_max_right _ _)⟩
  · exact ⟨(min_le_right _ _).trans (level_mono hd hbd (by nlinarith)), (level_mono hbd hb (by nlinarith)).trans (le_max_left _ _)⟩

/-- The level of the mean energy of a bin's windows (R120). -/
def Bin.mean (b : Bin) : Int := Machine.level b.sum (b.count * 2 ^ 50)

/-- The level of the mean energy of the windows in a list of bins (R122). -/
def meanOf (bs : List Bin) : Int := level (binSums bs) (binCounts bs * 2 ^ 50)

theorem meanOf_cons {b c : Bin} {bs : List Bin} (hb : 0 < b.count) (hc : 0 < c.count) :
    min b.mean (meanOf (c :: bs)) ≤ meanOf (b :: c :: bs) ∧ meanOf (b :: c :: bs) ≤ max b.mean (meanOf (c :: bs)) := by
  have hcs : 0 < binCounts (c :: bs) := by simp only [binCounts, List.map_cons, List.sum_cons]; omega
  have hcount : binCounts (b :: c :: bs) * 2 ^ 50 = b.count * 2 ^ 50 + binCounts (c :: bs) * 2 ^ 50 := by
    simp only [binCounts, List.map_cons, List.sum_cons]; ring
  have hall : meanOf (b :: c :: bs) = level (b.sum + binSums (c :: bs)) (b.count * 2 ^ 50 + binCounts (c :: bs) * 2 ^ 50) := by
    rw [meanOf, hcount, show binSums (b :: c :: bs) = b.sum + binSums (c :: bs) by simp [binSums]]
  rw [hall]
  exact level_mediant (by positivity) (by positivity)

/-- The level of the windows of several bins is at least a bound that each bin's mean is at least, and at most a bound that each is
at most. -/
theorem meanOf_bounds {bs : List Bin} (hbs : bs ≠ []) (hc : ∀ b ∈ bs, 0 < b.count) {lo hi : Int}
    (hlo : ∀ b ∈ bs, lo ≤ b.mean) (hhi : ∀ b ∈ bs, b.mean ≤ hi) : lo ≤ meanOf bs ∧ meanOf bs ≤ hi := by
  induction bs with
  | nil => exact absurd rfl hbs
  | cons b bs ih =>
    cases bs with
    | nil =>
      have hone : meanOf [b] = b.mean := by simp [meanOf, binSums, binCounts, Bin.mean]
      rw [hone]
      exact ⟨hlo b (by simp), hhi b (by simp)⟩
    | cons c bs =>
      obtain ⟨h1, h2⟩ := meanOf_cons (bs := bs) (hc b (by simp)) (hc c (by simp))
      obtain ⟨i1, i2⟩ := ih (by simp) (fun x hx => hc x (by simp [hx])) (fun x hx => hlo x (by simp [hx])) (fun x hx => hhi x (by simp [hx]))
      exact ⟨(le_min (hlo b (by simp)) i1).trans h1, h2.trans (max_le (hhi b (by simp)) i2)⟩

/-! ### Bins (R120) -/

/-- The bin of a window's level takes it: one window more and its energy; a level without a bin gets one. -/
theorem mem_enterBin {lvl : Int} {e : Nat} {hist : List Bin} (hp : hist.Pairwise (fun a b => a.level < b.level)) (b : Bin) :
    b ∈ enterBin lvl e hist ↔ (b ∈ hist ∧ b.level ≠ lvl)
      ∨ (∃ a ∈ hist, a.level = lvl ∧ b = { a with count := a.count + 1, sum := a.sum + e })
      ∨ ((∀ a ∈ hist, a.level ≠ lvl) ∧ b = ⟨lvl, 1, e⟩) := by
  induction hist with
  | nil => simp [enterBin]
  | cons c cs ih =>
    obtain ⟨hc, hcs⟩ := List.pairwise_cons.mp hp
    have ih := ih hcs
    rw [enterBin]
    split
    · next hlt =>
      have hne : ∀ a ∈ c :: cs, a.level ≠ lvl := by
        intro a ha
        rcases List.mem_cons.mp ha with rfl | ha
        · exact ne_of_gt hlt
        · exact ne_of_gt (hlt.trans (hc a ha))
      have hold : ¬ ∃ a ∈ c :: cs, a.level = lvl ∧ b = { a with count := a.count + 1, sum := a.sum + e } :=
        fun ⟨a, ha, h, _⟩ => hne a ha h
      constructor
      · intro hb
        rcases List.mem_cons.mp hb with h | h
        · exact .inr (.inr ⟨hne, h⟩)
        · exact .inl ⟨h, hne b h⟩
      · rintro (⟨h, -⟩ | h | ⟨-, h⟩)
        · exact List.mem_cons_of_mem _ h
        · exact absurd h hold
        · rw [h]; exact List.mem_cons_self
    · split
      · next _ heq =>
        have hne : ∀ a ∈ cs, a.level ≠ lvl := fun a ha => by rw [heq]; exact ne_of_gt (hc a ha)
        constructor
        · intro hb
          rcases List.mem_cons.mp hb with h | h
          · exact .inr (.inl ⟨c, List.mem_cons_self, heq.symm, h⟩)
          · exact .inl ⟨List.mem_cons_of_mem _ h, hne b h⟩
        · rintro (⟨h, hb⟩ | ⟨a, ha, hal, rfl⟩ | ⟨h, -⟩)
          · rcases List.mem_cons.mp h with rfl | h
            · exact absurd heq.symm hb
            · exact List.mem_cons_of_mem _ h
          · rcases List.mem_cons.mp ha with rfl | ha
            · exact List.mem_cons_self
            · exact absurd hal (hne a ha)
          · exact absurd heq.symm (h c List.mem_cons_self)
      · next hnlt hneq =>
        have hcl : c.level ≠ lvl := fun h => hneq h.symm
        rw [List.mem_cons, ih]
        constructor
        · rintro (rfl | ⟨h, hb⟩ | ⟨a, ha, h⟩ | ⟨h, hb⟩)
          · exact .inl ⟨List.mem_cons_self, hcl⟩
          · exact .inl ⟨List.mem_cons_of_mem _ h, hb⟩
          · exact .inr (.inl ⟨a, List.mem_cons_of_mem _ ha, h⟩)
          · exact .inr (.inr ⟨fun a ha => (List.mem_cons.mp ha).elim (fun h0 => h0 ▸ hcl) (h a), hb⟩)
        · rintro (⟨h, hb⟩ | ⟨a, ha, h, hb⟩ | ⟨h, hb⟩)
          · rcases List.mem_cons.mp h with rfl | h
            · exact .inl rfl
            · exact .inr (.inl ⟨h, hb⟩)
          · rcases List.mem_cons.mp ha with rfl | ha
            · exact absurd h hcl
            · exact .inr (.inr (.inl ⟨a, ha, h, hb⟩))
          · exact .inr (.inr (.inr ⟨fun a ha => h a (List.mem_cons_of_mem _ ha), hb⟩))

theorem level_of_mem_enterBin {lvl : Int} {e : Nat} {hist : List Bin} (hp : hist.Pairwise (fun a b => a.level < b.level)) {b : Bin}
    (hb : b ∈ enterBin lvl e hist) : b.level = lvl ∨ b ∈ hist := by
  rcases (mem_enterBin hp b).mp hb with ⟨h, -⟩ | ⟨a, -, ha, rfl⟩ | ⟨-, rfl⟩
  · exact .inr h
  · exact .inl ha
  · exact .inl rfl

theorem enterBin_pairwise {lvl : Int} {e : Nat} {hist : List Bin} (hp : hist.Pairwise (fun a b => a.level < b.level)) :
    (enterBin lvl e hist).Pairwise (fun a b => a.level < b.level) := by
  induction hist with
  | nil => simp [enterBin]
  | cons c cs ih =>
    obtain ⟨hc, hcs⟩ := List.pairwise_cons.mp hp
    rw [enterBin]
    split
    · next hlt =>
      refine List.pairwise_cons.mpr ⟨fun a ha => ?_, hp⟩
      rcases List.mem_cons.mp ha with rfl | ha
      · exact hlt
      · exact hlt.trans (hc a ha)
    · split
      · exact List.pairwise_cons.mpr ⟨hc, hcs⟩
      · refine List.pairwise_cons.mpr ⟨fun a ha => ?_, ih hcs⟩
        rcases level_of_mem_enterBin hcs ha with h | h
        · omega
        · exact hc a h

/-! ### The law of the bins (R120, R121) -/

theorem bin_safe_iff (b : Bin) : b.safe ↔ 1 ≤ b.count ∧ -700 ≤ b.level ∧ b.level ≤ 50 ∧ b.level ≤ b.mean ∧ (b.level < 50 → b.mean = b.level) := Iff.rfl

theorem newBin_safe {e : Nat} (h : -700 ≤ level e (2 ^ 50)) : Bin.safe ⟨min (level e (2 ^ 50)) 50, 1, e⟩ := by
  have hmean : Bin.mean ⟨min (level e (2 ^ 50)) 50, 1, e⟩ = level e (2 ^ 50) := by simp [Bin.mean]
  refine (bin_safe_iff _).mpr ⟨le_refl _, ?_, ?_, ?_, fun hlt => ?_⟩ <;> (try rw [hmean]) <;> dsimp only at * <;> omega

theorem bin_take_safe {b : Bin} {e : Nat} (hb : b.safe) (h : b.level = min (level e (2 ^ 50)) 50) :
    Bin.safe { b with count := b.count + 1, sum := b.sum + e } := by
  obtain ⟨h1, h2, h3, h4, h5⟩ := (bin_safe_iff b).mp hb
  have hmean : Bin.mean { b with count := b.count + 1, sum := b.sum + e } = level (b.sum + e) (b.count * 2 ^ 50 + 2 ^ 50) := by
    simp only [Bin.mean, add_mul, one_mul]
  obtain ⟨m1, m2⟩ := level_mediant (a := b.sum) (b := b.count * 2 ^ 50) (c := e) (d := 2 ^ 50) (by positivity) (by positivity)
  rw [← Bin.mean] at m1 m2
  refine (bin_safe_iff _).mpr ⟨by dsimp only; omega, h2, h3, ?_, fun hlt => ?_⟩
  · rw [hmean]; dsimp only; omega
  · rw [hmean]; dsimp only at hlt ⊢
    have := h5 hlt
    omega

theorem enterBin_safe {e : Nat} {hist : List Bin} (hp : hist.Pairwise (fun a b => a.level < b.level)) (hs : ∀ b ∈ hist, b.safe)
    (h : -700 ≤ level e (2 ^ 50)) : ∀ b ∈ enterBin (min (level e (2 ^ 50)) 50) e hist, b.safe := by
  intro b hb
  rcases (mem_enterBin hp b).mp hb with ⟨hb, -⟩ | ⟨a, ha, hal, rfl⟩ | ⟨-, rfl⟩
  · exact hs b hb
  · exact bin_take_safe (hs a ha) hal
  · exact newBin_safe h

/-! ### The block result (R109 to R116, R120, R122) -/

/-- The newest four entries enter the histogram (R120). -/
def Meter.enters (m : Meter) : Bool :=
  decide (4 ≤ m.n) && (m.ring.take 4).all (fun x => !x.suspect)
    && decide (-700 ≤ level ((m.ring.take 4).map RingEntry.energy).sum (2 ^ 50))
    && !binFull (min (level ((m.ring.take 4).map RingEntry.energy).sum (2 ^ 50)) 50) m.hist

theorem offerWindow_eq (m : Meter) : m.offerWindow = if m.enters then
    { m with hist := enterBin (min (level ((m.ring.take 4).map RingEntry.energy).sum (2 ^ 50)) 50) ((m.ring.take 4).map RingEntry.energy).sum m.hist
             entered := satInc Config.max32 m.entered } else m := rfl

theorem enters_level {m : Meter} (h : m.enters = true) : -700 ≤ level ((m.ring.take 4).map RingEntry.energy).sum (2 ^ 50) := by
  simp only [Meter.enters, Bool.and_eq_true, decide_eq_true_eq] at h
  exact h.1.2

/-- The gating computes the gate and I anew and nothing else (R122). -/
theorem gating_eq (m : Meter) : m.gating = { m with
    gate := if m.hist = [] then none else some (meanOf m.hist - 100)
    integrated := if m.hist = [] then none else some (meanOf (m.hist.filter (fun b => decide (meanOf m.hist - 100 ≤ b.level)))) } := by
  unfold Meter.gating
  by_cases h : m.hist = []
  · simp [h]
  · simp only [List.isEmpty_iff, h, if_false]; rfl

/-- The meter behind a block result, before the gating window and the gate (R108, R111 to R115). -/
def Meter.pushed (m : Meter) (lanes : List LaneWeight) (suspect : Bool) : Meter :=
  let ring := (⟨m.blockEnergy lanes, suspect⟩ :: m.ring).take 30
  let n := satInc Config.max32 m.n
  { m with
    ring := ring, n := n, m := meanLevel (ring.take (min 4 n)), s := meanLevel (ring.take (min 30 n))
    suspects := if suspect then satInc Config.max32 m.suspects else m.suspects
    lanes := m.lanes.map (fun x => { x.zeroed with peakHold := max x.peakHold (peakLevel x.blockMax) }) }

theorem result_fst (m : Meter) (lanes : List LaneWeight) (suspect : Bool) : (m.result lanes suspect).1 = (m.pushed lanes suspect).offerWindow.gating := rfl

theorem offerWindow_lanes (m : Meter) : m.offerWindow.lanes = m.lanes := by rw [offerWindow_eq]; split <;> rfl

theorem result_lanes (m : Meter) (lanes : List LaneWeight) (suspect : Bool) :
    (m.result lanes suspect).1.lanes = m.lanes.map (fun x => { x.zeroed with peakHold := max x.peakHold (peakLevel x.blockMax) }) := by
  rw [result_fst, gating_eq]
  exact offerWindow_lanes _

theorem meter_safe_iff (m : Meter) : m.safe ↔ m.ring.length = min m.n 30 ∧ (∀ b ∈ m.hist, b.safe) ∧ m.hist.Pairwise (fun a b => a.level < b.level) :=
  Iff.rfl

theorem result_safe {m : Meter} (h : m.safe) (lanes : List LaneWeight) (suspect : Bool) : (m.result lanes suspect).1.safe := by
  obtain ⟨hr, hb, hp⟩ := (meter_safe_iff m).mp h
  have hlen : (m.pushed lanes suspect).ring.length = min (m.pushed lanes suspect).n 30 := by
    simp only [Meter.pushed, List.length_take, List.length_cons, hr, satInc, Config.max32]
    split <;> omega
  rw [result_fst, gating_eq, offerWindow_eq]
  refine (meter_safe_iff _).mpr ?_
  dsimp only
  split
  · next he => exact ⟨hlen, enterBin_safe hp hb (enters_level he), enterBin_pairwise hp⟩
  · exact ⟨hlen, hb, hp⟩

end Sys2Proof.Machine
end

