-- ==== Sys2Proof/Proofs/GainLaws.lean ====
section
/-! PROOFS. The gain corrector (chapter 7): what GAIN.SET, the block result, the take and the ramp do to it, and the laws of meters and
correctors that every step keeps. -/

namespace Sys2Proof.Machine

variable {s t : State}

/-! ### Limits and clamped settings (R129, R130) -/

theorem limit_bounds {x : GainSettings} (h : -x.cut ≤ x.boost) (v : Int) : -x.cut ≤ x.limit v ∧ x.limit v ≤ x.boost := by
  unfold GainSettings.limit clampInt; omega

/-- Settings as GAIN.SET stores them are in their ranges (R129). -/
theorem clamped_iff (x : GainSettings) : x.clamped = x ↔
    (0 ≤ x.boost ∧ x.boost ≤ 200) ∧ (0 ≤ x.cut ∧ x.cut ≤ 300) ∧ (1 ≤ x.rise ∧ x.rise ≤ 50) ∧ (1 ≤ x.fall ∧ x.fall ≤ 100)
      ∧ (-300 ≤ x.fixed ∧ x.fixed ≤ 200) := by
  have hclamp {lo hi v : Int} (h : lo ≤ hi) : clampInt lo hi v = v ↔ lo ≤ v ∧ v ≤ hi := by unfold clampInt; omega
  obtain ⟨b, c, r, f, v⟩ := x
  simp only [GainSettings.clamped, GainSettings.mk.injEq]
  rw [hclamp (by decide), hclamp (by decide), hclamp (by decide), hclamp (by decide), hclamp (by decide)]

theorem clamped_clamped (x : GainSettings) : x.clamped.clamped = x.clamped := by
  rw [clamped_iff]
  simp only [GainSettings.clamped, clampInt]
  omega

/-! ### The law of a corrector (R128 to R131, R133, R137) -/

/-- The law read off a corrector: its settings in their ranges, and every gain of it within the limits or within -300 to +200. -/
theorem corrector_safe_iff (c : Corrector) : c.safe ↔ c.settings.clamped = c.settings
    ∧ (-c.settings.cut ≤ c.g ∧ c.g ≤ c.settings.boost)
    ∧ (∀ e ∈ c.schedule, -c.settings.cut ≤ e.value ∧ e.value ≤ c.settings.boost)
    ∧ (-300 ≤ c.taken ∧ c.taken ≤ 200) ∧ (-300 ≤ c.applied ∧ c.applied ≤ 200) ∧ c.ramp ≤ 47 := by
  unfold Corrector.safe; tauto

/-- What lies within the limits lies within -300 to +200. -/
theorem limits_within {x : GainSettings} (h : x.clamped = x) {v : Int} (hv : -x.cut ≤ v ∧ v ≤ x.boost) : -300 ≤ v ∧ v ≤ 200 := by
  obtain ⟨hb, hc, -⟩ := (clamped_iff x).mp h
  omega

theorem setTaken_safe {c : Corrector} (h : c.safe) {v : Int} (hv : -300 ≤ v ∧ v ≤ 200) : (c.setTaken v).safe := by
  obtain ⟨hset, hg, hsch, -, ha, hr⟩ := (corrector_safe_iff c).mp h
  refine (corrector_safe_iff _).mpr ⟨hset, hg, hsch, hv, ha, ?_⟩
  simp only [Corrector.setTaken]
  split
  · exact Nat.zero_le _
  · exact hr

theorem withSettings_safe {c : Corrector} (h : c.safe) {x : GainSettings} (hx : x.clamped = x) : (c.withSettings x).safe := by
  obtain ⟨-, -, -, ht, ha, hr⟩ := (corrector_safe_iff c).mp h
  obtain ⟨hb, hc, -⟩ := (clamped_iff x).mp hx
  have hlim (v : Int) := limit_bounds (x := x) (by omega) v
  have hset : Corrector.safe { c with settings := x, g := x.limit c.g, schedule := c.schedule.map (fun e => { e with value := x.limit e.value }) } := by
    refine (corrector_safe_iff _).mpr ⟨hx, hlim _, fun e he => ?_, ht, ha, hr⟩
    obtain ⟨e0, -, rfl⟩ := List.mem_map.mp he
    exact hlim _
  unfold Corrector.withSettings
  dsimp only
  split
  · exact setTaken_safe hset (limits_within hx (hlim _))
  · exact hset

theorem setMode_safe {c : Corrector} (h : c.safe) (m : GainMode) : (c.setMode m).safe := by
  obtain ⟨hset, hg, hsch, ht, ha, hr⟩ := (corrector_safe_iff c).mp h
  obtain ⟨hb, hc, -, -, hf⟩ := (clamped_iff c.settings).mp hset
  have hlim := limit_bounds (x := c.settings) (by omega) c.applied
  have mode : Corrector.safe { c with mode := m } := (corrector_safe_iff _).mpr ⟨hset, hg, hsch, ht, ha, hr⟩
  have left : Corrector.safe { c with mode := m, schedule := [] } := (corrector_safe_iff _).mpr ⟨hset, hg, by simp, ht, ha, hr⟩
  have entered : Corrector.safe { c with mode := m, g := c.settings.limit c.applied } := (corrector_safe_iff _).mpr ⟨hset, hlim, hsch, ht, ha, hr⟩
  unfold Corrector.setMode
  split
  · exact h
  · exact setTaken_safe entered (limits_within hset hlim)
  · exact setTaken_safe entered (limits_within hset hlim)
  · exact setTaken_safe left (by decide)
  · exact setTaken_safe left hf
  · exact setTaken_safe mode (by decide)
  · exact setTaken_safe mode (by decide)
  · exact setTaken_safe mode hf
  · exact setTaken_safe mode hf

/-! ### The gain law (R133) -/

theorem wantedGain_bounds {x : GainSettings} (h : -x.cut ≤ x.boost) (set : LoudSettings) (r : BlockResult) :
    -x.cut ≤ wantedGain x set r ∧ wantedGain x set r ≤ x.boost := by
  unfold wantedGain GainSettings.limit clampInt; omega

/-- A step goes up by at most the rise step and down by at most the fall step, and does not pass the wanted gain. -/
theorem stepToward_eq {x : GainSettings} (hr : 1 ≤ x.rise) (hf : 1 ≤ x.fall) (g gd : Int) :
    (g < gd → stepToward x g gd = min gd (g + x.rise)) ∧ (gd < g → stepToward x g gd = max gd (g - x.fall)) ∧ stepToward x g g = g
      ∧ stepToward x g gd ≤ g + x.rise ∧ g - x.fall ≤ stepToward x g gd
      ∧ min g gd ≤ stepToward x g gd ∧ stepToward x g gd ≤ max g gd := by
  unfold stepToward; split_ifs <;> omega

theorem append_safe {c : Corrector} (h : c.safe) (due rp : Int) : (c.append due rp).1.safe := by
  obtain ⟨hset, hg, hsch, ht, ha, hr⟩ := (corrector_safe_iff c).mp h
  unfold Corrector.append
  split
  · exact setTaken_safe h (limits_within hset hg)
  · refine (corrector_safe_iff _).mpr ⟨hset, hg, fun e he => ?_, ht, ha, hr⟩
    rcases List.mem_append.mp he with he | he
    · exact hsch e he
    · rw [List.mem_singleton.mp he]; exact hg

theorem resulted_safe {c : Corrector} (h : c.safe) (set : LoudSettings) (r : BlockResult) (due rp : Int) : (c.resulted set r due rp).1.safe := by
  obtain ⟨hset, hg, hsch, ht, ha, hr⟩ := (corrector_safe_iff c).mp h
  obtain ⟨hb, hc, hrise, hfall, -⟩ := (clamped_iff c.settings).mp hset
  have hfreeze : Corrector.safe { c with freeze := r.freeze } := (corrector_safe_iff _).mpr ⟨hset, hg, hsch, ht, ha, hr⟩
  have hw := wantedGain_bounds (x := c.settings) (by omega) set r
  have hstep := stepToward_eq (x := c.settings) (by omega) (by omega) c.g (wantedGain c.settings set r)
  unfold Corrector.resulted
  split
  · refine append_safe ?_ _ _
    split
    · exact hfreeze
    · exact (corrector_safe_iff _).mpr ⟨hset, by dsimp only; omega, hsch, ht, ha, hr⟩
  · exact hfreeze

/-! ### The take and the ramp (R135, R137) -/

theorem takeDue_safe {c : Corrector} (h : c.safe) (rp : Int) : (c.takeDue rp).1.safe := by
  obtain ⟨hset, hg, hsch, ht, ha, hr⟩ := (corrector_safe_iff c).mp h
  unfold Corrector.takeDue
  split
  · dsimp only
    split
    · exact h
    · next e he =>
      have hleft : Corrector.safe { c with schedule := c.schedule.filter (fun e => !decide (e.due ≤ rp)) } :=
        (corrector_safe_iff _).mpr ⟨hset, hg, fun e he => hsch e (List.mem_of_mem_filter he), ht, ha, hr⟩
      exact setTaken_safe hleft (limits_within hset (hsch e (List.mem_of_mem_filter (List.mem_of_getLast? he))))
  · exact h

theorem rampStep_safe {c : Corrector} (h : c.safe) : c.rampStep.safe := by
  obtain ⟨hset, hg, hsch, ht, ha, hr⟩ := (corrector_safe_iff c).mp h
  unfold Corrector.rampStep
  split
  · exact (corrector_safe_iff _).mpr ⟨hset, hg, hsch, ht, ha, by dsimp only; omega⟩
  · split
    · exact (corrector_safe_iff _).mpr ⟨hset, hg, hsch, ht, by dsimp only; split <;> omega, by dsimp only; omega⟩
    · exact (corrector_safe_iff _).mpr ⟨hset, hg, hsch, ht, ha, by dsimp only; omega⟩

theorem corrector_reset_safe : Corrector.reset.safe := by
  simp [Corrector.safe, Corrector.reset, GainSettings.clamped, clampInt, GainSettings.defaults]

theorem corrector_closed_safe {c : Corrector} (h : c.safe) : c.closed.safe := by
  obtain ⟨hset, -⟩ := (corrector_safe_iff c).mp h
  obtain ⟨hb, hc, -⟩ := (clamped_iff c.settings).mp hset
  refine (corrector_safe_iff _).mpr ⟨hset, ?_, by simp [Corrector.closed, Corrector.reset],
    by simp [Corrector.closed, Corrector.reset], by simp [Corrector.closed, Corrector.reset], Nat.zero_le _⟩
  simp only [Corrector.closed, Corrector.reset]
  omega

/-! ### The laws kept by every step (R105, R113, R120, R128 to R137) -/

theorem gainLaw : UnitLaw (fun x => x.gain.safe) where
  reset := corrector_reset_safe
  move _ _ h := h
  group _ _ h := h
  opened _ _ _ _ := corrector_reset_safe
  closedClearing _ h := h
  closedLive _ h := corrector_closed_safe h
  cleared _ _ _ _ _ h := h
  sampled _ _ _ _ _ _ _ h := h
  settings _ _ h := h
  restart _ h := h
  clearPeaks _ h := h
  opening _ h := h
  result _ _ _ _ _ h := h
  gainSet _ set m h := setMode_safe (withSettings_safe h (clamped_clamped set)) m
  gainResult _ set r due rp h := resulted_safe h set r due rp
  clipped _ h := h
  gainStep _ rp h := rampStep_safe (takeDue_safe h rp)

theorem meterReset_safe (lanes : List LaneMeter) (opening : Bool) (set : LoudSettings) :
    Meter.safe { Meter.reset with lanes := lanes, opening := opening, settings := set } := by
  simp [Meter.safe, Meter.reset]

theorem meterLaw : UnitLaw (fun x => x.meter.safe) where
  reset := meterReset_safe _ _ _
  move _ _ h := h
  group _ _ h := h
  opened _ _ _ _ := meterReset_safe _ _ _
  closedClearing _ _ := meterReset_safe _ _ _
  closedLive _ _ := meterReset_safe _ _ _
  cleared _ _ _ _ _ h := h
  sampled _ _ _ _ _ _ _ h := h
  settings _ _ h := h
  restart _ h := ⟨h.1, by simp [Meter.restart], by simp [Meter.restart]⟩
  clearPeaks _ h := h
  opening _ h := h
  result _ h _ b _ hs := result_safe hs h.lanes b
  gainSet _ _ _ h := h
  gainResult _ _ _ _ _ h := h
  clipped _ h := h
  gainStep _ _ h := h

/-- An open programme's meter holds one record for each of its lanes (R105). -/
def Programme.metersLanes (x : Programme) : Prop := ∀ h, x.life.held? = some h → x.meter.lanes.length = h.lanes.length

theorem meterLanesLaw : UnitLaw Programme.metersLanes where
  reset _ h := by simp [Programme.reset, Life.held?] at h
  move _ _ h := h
  group _ _ h := h
  opened x ls g e := by simp [Programme.metersLanes, openedProgramme, Life.held?, Meter.opened]
  closedClearing _ _ _ h := by simp [Programme.closedClearing, Life.held?] at h
  closedLive _ _ _ h := by simp [Programme.closedLive, Life.held?] at h
  cleared x l h hx hl hs h' hh := hs h' (hx.trans (hl.symm.trans hh))
  sampled x h w w' ins clip hl hs h' hh := by
    have hlen := hs h (by rw [hl]; rfl)
    obtain rfl : h = h' := by simpa [Life.held?] using hh
    simp [Meter.take, hlen]
  settings _ _ h := h
  restart _ h := h
  clearPeaks _ hs h hh := by simpa [Meter.clearPeaks] using hs h hh
  opening _ hs h hh := by simpa [Meter.closeOpening] using hs h hh
  result x h w b _ hs h' hh := by simpa [result_lanes] using hs h' hh
  gainSet _ _ _ h := h
  gainResult _ _ _ _ _ h := h
  clipped _ h := h
  gainStep _ _ h := h

/-- Settles O46: each law speaks of one programme at a time and holds behind whatever a step does to its record, its meter and its
corrector. -/
theorem stepsKeepTheMeterAndGainLaws : Obligations.StepsKeepTheMeterAndGainLaws := by
  unfold Obligations.StepsKeepTheMeterAndGainLaws
  intro s t h
  exact ⟨fun hs => meterLaw.kept.step hs h, fun hs => gainLaw.kept.step hs h, fun hs => meterLanesLaw.kept.step hs h⟩

end Sys2Proof.Machine
end

