-- ==== Sys2Proof/Proofs/GainRequests.lean ====
section
/-! PROOFS. GAIN.SET's checks and what it stores, the gain law, the take of the schedule, and the ramp step (R129 to R137). -/

namespace Sys2Proof.Machine

variable {s : State} {p : Fin 8}

/-- A request whose owner answers with one programme written completes with that programme, and changes nothing else but the port. -/
theorem completes_of_setProg {c : Instr} {r : Request} {x : Programme} {st : Status} {body : List Byte} (hc : requestOf c = some r)
    (hs : s.ready) (ha : takeRequest r.code r.body (s.taking r) = ⟨(s.taking r).setProg p x, st, body⟩) :
    Completes c s st body (fun t => t.prog p = x ∧ s.otherProgs p t ∧ s.sameBut [.progs, .port] t) :=
  completes_of_answer (a := ⟨_, st, body⟩) hc (.inl hs) ha
    ⟨State.prog_setProg (s.taking r) p _, fun _ hk => State.prog_setProg_ne (s.taking r) hk _,
      sameBut_of_take (by decide) (sameBut_mono (setProg_sameBut (s.taking r) p _) (by decide))⟩

/-! ### What GAIN.SET is answered (R129) -/

theorem readGainMode_of_lt {b : Byte} (h : 2 < b.toNat) : readGainMode b = none := by
  have hne (c : Byte) (hc : c.toNat ≤ 2) : b ≠ c := fun hb => by subst hb; omega
  rw [readGainMode, if_neg (hne 0x00 (by decide)), if_neg (hne 0x01 (by decide)), if_neg (hne 0x02 (by decide))]

theorem readGainMode_of_le {b : Byte} (h : b.toNat ≤ 2) : ∃ m, readGainMode b = some m := by
  have : b = 0 ∨ b = 1 ∨ b = 2 := by
    have hb : b.toNat = 0 ∨ b.toNat = 1 ∨ b.toNat = 2 := by omega
    exact hb.imp (fun h => BitVec.eq_of_toNat_eq h) (Or.imp (fun h => BitVec.eq_of_toNat_eq h) (fun h => BitVec.eq_of_toNat_eq h))
  rcases this with rfl | rfl | rfl
  · exact ⟨_, rfl⟩
  · exact ⟨_, rfl⟩
  · exact ⟨_, rfl⟩

theorem takeGainSet_of_length_ne {body : List Byte} (h : body.length ≠ 12) : takeGainSet body s = refuse s .malformed := by
  unfold takeGainSet
  split
  · exact absurd rfl h
  · rfl

theorem takeGainSet_of_bad_mode {a md : Byte} {rest : List Byte} (hr : rest.length = 10) (h : 2 < md.toNat) :
    takeGainSet (a :: md :: rest) s = refuse s .malformed := by
  match rest, hr with
  | [_, _, _, _, _, _, _, _, _, _], _ => simp only [takeGainSet, readGainMode_of_lt h]

theorem takeGainSet_of_bad_programme {a md : Byte} {rest : List Byte} (hr : rest.length = 10) (h : md.toNat ≤ 2) (ha : 8 ≤ a.toNat) :
    takeGainSet (a :: md :: rest) s = refuse s .range := by
  obtain ⟨m, hm⟩ := readGainMode_of_le h
  match rest, hr with
  | [_, _, _, _, _, _, _, _, _, _], _ => simp only [takeGainSet, hm, readId_of_le ha]

theorem takeGainSet_of_closed {md : Byte} {rest : List Byte} (hr : rest.length = 10) (h : md.toNat ≤ 2)
    (hc : (s.prog p).life.isClosed = true) : takeGainSet (byte1 p ++ md :: rest) s = refuse s .state := by
  obtain ⟨m, hm⟩ := readGainMode_of_le h
  match rest, hr with
  | [_, _, _, _, _, _, _, _, _, _], _ => simp [takeGainSet, byte1, hm, readId_ofNat, hc]

/-- Settings of 16 bits read back from the body, so an open programme stores them clamped and acts on the mode. -/
theorem takeGainSet_of_open {x : GainSettings} (mode : GainMode) (h : (s.prog p).life.isClosed = false)
    (hx : ∀ v ∈ [x.boost, x.cut, x.rise, x.fall, x.fixed], -32768 ≤ v ∧ v ≤ 32767) :
    takeGainSet (byte1 p ++ gainModeCode mode :: gainSettingsRecord x) s
      = ⟨s.setGain p (((s.prog p).gain.withSettings x.clamped).setMode mode), if x.clamped = x then .ok else .adjusted,
          gainModeCode mode :: gainSettingsRecord x.clamped⟩ := by
  simp only [List.forall_mem_cons, List.not_mem_nil, false_imp_iff, implies_true, and_true] at hx
  obtain ⟨⟨ht0, ht1⟩, ⟨hu0, hu1⟩, ⟨hl0, hl1⟩, ⟨hs0, hs1⟩, hc0, hc1⟩ := hx
  rw [← okOrAdjusted_bne]
  simp [takeGainSet, gainSettingsRecord, byte1, signed2, byte2, readGainMode_code, readId_ofNat, h, int2_signed2, ht0, ht1, hu0, hu1, hl0,
    hl1, hs0, hs1, hc0, hc1]

/-- What GAIN.SET leaves of a corrector (R130, R131). -/
theorem setMode_withSettings (c : Corrector) (y : GainSettings) (mode : GainMode) {d : Corrector} (hd : d = (c.withSettings y).setMode mode) :
    d.mode = mode ∧ d.settings = y
      ∧ d.g = (if mode = .track ∧ c.mode ≠ .track then y.limit c.applied else y.limit c.g)
      ∧ d.schedule = (if c.mode = .track ∧ mode ≠ .track then [] else c.schedule.map (fun e => { e with value := y.limit e.value }))
      ∧ d.taken = (match (generalizing := false) mode with
          | .off => 0
          | .fixed => y.fixed
          | .track => if c.mode = .track then y.limit c.taken else y.limit c.applied)
      ∧ d.ramp = (if d.taken = c.applied ∨ (c.mode = .track ∧ y.limit c.taken = c.applied) then 0 else c.ramp)
      ∧ d.applied = c.applied ∧ d.freeze = c.freeze ∧ d.clip = c.clip := by
  subst hd
  obtain ⟨cm, cs, g, sch, tk, ap, rm, fz, cl⟩ := c
  cases cm with
  | off => cases mode <;> simp [Corrector.withSettings, Corrector.setMode, Corrector.setTaken]
  | fixed => cases mode <;> simp [Corrector.withSettings, Corrector.setMode, Corrector.setTaken]
  | track =>
    by_cases h : y.limit tk = ap
    · cases mode <;> simp [Corrector.withSettings, Corrector.setMode, Corrector.setTaken, h]
    · cases mode <;> simp [Corrector.withSettings, Corrector.setMode, Corrector.setTaken, h]

/-- Settles O47: the settings read back, their clamping acts on G, the schedule and the mode; the checks are met in their order. -/
theorem gainSetClampsAndActsOnTheMode : Obligations.GainSetClampsAndActsOnTheMode := by
  unfold Obligations.GainSetClampsAndActsOnTheMode
  refine ⟨fun s tag hs => ⟨fun body h => ?_, fun a md rest hr => ⟨fun h => ?_, fun h ha => ?_⟩, fun p md rest hr h hc => ?_⟩,
    fun s tag p mode x hs hopen hx y hy c hc lim hlim => ?_⟩
  · exact refused_of_answer (r := ⟨tag, 0x53, _⟩) rfl (.inl hs) (takeGainSet_of_length_ne h)
  · exact refused_of_answer (r := ⟨tag, 0x53, _⟩) rfl (.inl hs) (takeGainSet_of_bad_mode hr h)
  · exact refused_of_answer (r := ⟨tag, 0x53, _⟩) rfl (.inl hs) (takeGainSet_of_bad_programme hr h ha)
  · exact refused_of_answer (r := ⟨tag, 0x53, _⟩) rfl (.inl hs) (takeGainSet_of_closed hr h hc)
  · obtain rfl : y = x.clamped := hy
    obtain rfl : lim = x.clamped.limit := funext hlim
    subst hc
    obtain ⟨h1, h2, h3, h4, h5, h6, h7⟩ := setMode_withSettings (s.prog p).gain x.clamped mode rfl
    refine Completes.imp (completes_of_setProg (r := ⟨tag, 0x53, _⟩) rfl hs (takeGainSet_of_open mode hopen hx)) ?_
    rintro t ⟨ht, hothers, hparts⟩
    rw [ht]
    exact ⟨h1, h2, h3, h4, h5, h6, h7.1, h7.2.1, h7.2.2, rfl, hothers, hparts⟩

end Sys2Proof.Machine
end

