-- ==== Sys2Proof/Proofs/GainSteps.lean ====
section
/-! PROOFS. The gain law, the take of the schedule and the step of the applied gain (R133, R135, R137), and a unit's share of a house sample
taken ahead. -/

namespace Sys2Proof.Machine

variable {s : State} {p : Fin 8}

/-! ### The take of the schedule (R135) -/

theorem takeDue_of_none {c : Corrector} {rp : Int} (h : c.mode = .track → ∀ e ∈ c.schedule, rp < e.due) : c.takeDue rp = (c, 0) := by
  unfold Corrector.takeDue
  split
  · next ht =>
    have hnil : c.schedule.filter (fun e => decide (e.due ≤ rp)) = [] :=
      List.filter_eq_nil_iff.mpr fun e he => by simpa using h ht e he
    simp [hnil]
  · rfl

/-- Of a schedule whose entries up to a point are due and after it are not, the last due entry is taken (R135). -/
theorem takeDue_split {c : Corrector} {rp : Int} {pre post : List ScheduleEntry} (hm : c.mode = .track) (hc : c.schedule = pre ++ post)
    (hpre : ∀ e ∈ pre, e.due ≤ rp) (hpost : ∀ e ∈ post, rp < e.due) :
    (c.takeDue rp).1.schedule = post ∧ (c.takeDue rp).1.taken = (pre.getLast?.map ScheduleEntry.value).getD c.taken
      ∧ (c.takeDue rp).1.applied = c.applied ∧ (c.takeDue rp).2 = pre.length - 1 := by
  have hdue : c.schedule.filter (fun e => decide (e.due ≤ rp)) = pre := by
    rw [hc, List.filter_append, List.filter_eq_self.mpr (by simpa using hpre),
      List.filter_eq_nil_iff.mpr (by simpa using hpost), List.append_nil]
  have hleft : c.schedule.filter (fun e => !decide (e.due ≤ rp)) = post := by
    rw [hc, List.filter_append, List.filter_eq_nil_iff.mpr (by simpa using hpre), List.filter_eq_self.mpr (by simpa using hpost), List.nil_append]
  rw [Corrector.takeDue, if_pos hm, hdue, hleft]
  cases hlast : pre.getLast? with
  | none =>
    obtain rfl : pre = [] := List.getLast?_eq_none_iff.mp hlast
    simpa using hc
  | some e => simp [hlast, Corrector.setTaken]

/-- Settles O48: the gain law by the order of its clamps and steps; the take by the split of the schedule at the read position. -/
theorem gainLawAndScheduleTake : Obligations.GainLawAndScheduleTake := by
  unfold Obligations.GainLawAndScheduleTake
  refine ⟨fun c set r h => ?_, fun c rp pre post hm hc hpre hpost => takeDue_split hm hc hpre hpost⟩
  obtain ⟨hset, hg, -⟩ := (corrector_safe_iff c).mp h
  obtain ⟨hb, hc, hr, hf, -⟩ := (clamped_iff c.settings).mp hset
  have hw := wantedGain_bounds (x := c.settings) (by omega) set r
  obtain ⟨-, -, -, hup, hdown, hmin, hmax⟩ := stepToward_eq (x := c.settings) hr.1 hf.1 c.g (wantedGain c.settings set r)
  refine ⟨rfl, fun g gd => ?_, hw.1, hw.2, fun hceil => ?_, by omega, by omega, hup, hdown, hmin, hmax⟩
  · obtain ⟨h1, h2, h3, -⟩ := stepToward_eq (x := c.settings) hr.1 hf.1 g gd
    exact ⟨h1, h2, h3⟩
  · unfold wantedGain; omega

/-! ### A share taken ahead (log entry 4) -/

/-- A share that leaves the state at the house sample's time as it was leaves the state. -/
theorem onSample_of_unchanged {f : State → State} (h : f { s with ref := s.ref.tick } = { s with ref := s.ref.tick }) : s.onSample f = s := by
  have htick : { s.ref.tick with started := s.ref.started, hsc := s.ref.hsc, phase := s.ref.phase, blockEndTaken := s.ref.blockEndTaken } = s.ref := by
    unfold RefUnit.tick; split <;> rfl
  unfold State.onSample
  rw [h]
  dsimp only
  rw [htick]

/-- A share that leaves the reference unit leaves it, and every other part is as the share at the house sample's time leaves it. -/
theorem onSample_eq {f : State → State} (h : (f { s with ref := s.ref.tick }).ref = s.ref.tick) :
    s.onSample f = { f { s with ref := s.ref.tick } with ref := s.ref } := by
  have htick : { s.ref.tick with started := s.ref.started, hsc := s.ref.hsc, phase := s.ref.phase, blockEndTaken := s.ref.blockEndTaken } = s.ref := by
    unfold RefUnit.tick; split <;> rfl
  unfold State.onSample
  dsimp only
  rw [h, htick]

theorem moveStep_still (h : (s.prog p).move.state = .still) : s.moveStep p = s := by
  unfold State.moveStep; dsimp only; rw [h]

theorem gainStep_of_none {w : Nat} (h : (s.prog p).gain.mode = .track → ∀ e ∈ (s.prog p).gain.schedule, (w : Int) - (s.prog p).move.dcur < e.due) :
    s.gainStep p w = s.setGain p (s.prog p).gain.rampStep := by
  unfold State.gainStep
  simp [takeDue_of_none h]

/-! ### The step of the applied gain (R137) -/

theorem rampStep_of_due {c : Corrector} (hne : c.applied ≠ c.taken) (h : 47 ≤ c.ramp) :
    c.rampStep = { c with ramp := 0, applied := if c.applied < c.taken then c.applied + 1 else c.applied - 1 } := by
  rw [Corrector.rampStep, if_neg hne, if_pos (by omega)]

theorem rampDue_iff (c : Corrector) : c.rampDue = true ↔ c.applied ≠ c.taken ∧ 47 ≤ c.ramp := by
  simp [Corrector.rampDue]

/-- The state of the part when the corrector takes its share: with the move unit's share taken, ahead or just now (R63, R137). -/
theorem moved_of_still (h : s.ahead.contains (.move p) = true ∨ (s.prog p).move.state = .still) :
    ∃ a, (if s.ahead.contains (.move p) then s else (s.onSample (fun u => u.moveStep p)).markAhead (.move p)) = { s with ahead := a } := by
  by_cases ha : s.ahead.contains (.move p) = true
  · exact ⟨s.ahead, by rw [if_pos ha]⟩
  · rw [if_neg ha, onSample_of_unchanged (moveStep_still (s := { s with ref := s.ref.tick }) (h.resolve_left ha))]
    exact ⟨_, rfl⟩

/-- Settles O49: with the move step taken and no entry due, the corrector's share is its ramp step. -/
theorem appliedGainStepMovesOneTenth : Obligations.AppliedGainStepMovesOneTenth := by
  unfold Obligations.AppliedGainStepMovesOneTenth
  intro s p h w hdue hl hclear hgain hmove hsch
  have hlive : s.liveIndex? p = some w := by rw [State.liveIndex?, hl]; simp only [hclear]; rfl
  obtain ⟨a, ha⟩ := moved_of_still hmove
  have hnone := takeDue_of_none hsch
  have hexec : exec (.appliedGainStep p) s = .next (if (s.prog p).gain.rampDue then
      ((State.onSample { s with ahead := a } (fun u => u.gainStep p w)).markAhead (.gain p)) else s) := by
    change execAppliedGainStep p s = _
    unfold execAppliedGainStep
    rw [hlive]
    dsimp only
    rw [ha, hdue, hgain]
    rw [show State.prog { s with ahead := a } p = s.prog p from rfl, hnone]
    rfl
  rw [hexec]
  refine ⟨fun hne hr => ?_, fun hno => ?_⟩
  · rw [if_pos ((rampDue_iff _).mpr ⟨hne, hr⟩)]
    refine ⟨_, rfl, ?_⟩
    rw [onSample_eq (by rw [gainStep_of_none (s := { s with ahead := a, ref := s.ref.tick }) hsch]; rfl),
      gainStep_of_none (s := { s with ahead := a, ref := s.ref.tick }) hsch]
    refine ⟨?_, fun k hk => State.prog_setProg_ne _ hk _, ?_⟩
    · refine (State.prog_setProg _ p _).trans ?_
      exact congrArg (fun c => { s.prog p with gain := c }) (rampStep_of_due hne hr)
    · intro q hq
      cases q <;> first | rfl | simp at hq
  · rw [if_neg]
    rw [rampDue_iff]
    omega

end Sys2Proof.Machine
end

