-- ==== Sys2Proof/Proofs/BlockResults.lean ====
section
/-! PROOFS. What a lane meter takes of a sample in exact arithmetic, and what the block result measures (R106 to R116, R120, R122). -/

namespace Sys2Proof.Machine

/-! ### A sample through the filter (R107, R108) -/

/-- A significand of at most 53 bits is kept exactly. -/
theorem ofScaled_value {n : Int} (h : n.natAbs < 2 ^ 53) (e : Int) : (F53.ofScaled n e).value = n * 2 ^ e := by
  by_cases hn : n = 0
  · simp [hn, F53.ofScaled, F53.value, F53.zero]
  · have hlog : Nat.log2 n.natAbs + 1 ≤ 53 := (Nat.log2_lt (by omega)).mpr h
    have hsig : ∀ m : ℚ, m * 2 ^ (52 - Nat.log2 n.natAbs) * 2 ^ (e - ((52 - Nat.log2 n.natAbs : Nat) : Int)) = m * 2 ^ e := by
      intro m
      rw [zpow_sub₀ (by norm_num), zpow_natCast]
      field_simp
    simp only [F53.ofScaled, if_neg hn, roundSig_of_le hlog, F53.value]
    rw [← hsig n]
    congr 1
    split
    · next hneg => push_cast; rw [abs_of_neg (show (n : ℚ) < 0 by exact_mod_cast hneg)]; ring
    · next hpos => push_cast; rw [abs_of_nonneg (show (0 : ℚ) ≤ n by exact_mod_cast not_lt.mp hpos)]

theorem energy_add_value (a b : Energy) : (a.add b).value = a.value + b.value := by
  have h1 : (2 : ℚ) ^ (max a.scale b.scale) = 2 ^ (max a.scale b.scale - a.scale) * 2 ^ a.scale := by rw [← pow_add]; congr 1; omega
  have h2 : (2 : ℚ) ^ (max a.scale b.scale) = 2 ^ (max a.scale b.scale - b.scale) * 2 ^ b.scale := by rw [← pow_add]; congr 1; omega
  simp only [Energy.add, Energy.value]
  push_cast
  rw [add_div]
  congr 1
  · rw [h1]; field_simp
  · rw [h2]; field_simp

theorem square_value (a : F53) : a.square.value = a.value ^ 2 := by
  have hz : ((2 : ℚ) ^ a.exp) ^ 2 = 2 ^ (2 * a.exp) := by rw [← zpow_natCast, ← zpow_mul, mul_comm]; rfl
  have hsplit : (2 : ℚ) ^ (2 * a.exp) = 2 ^ (2 * a.exp).toNat / 2 ^ (-(2 * a.exp)).toNat := by
    rw [← zpow_natCast, ← zpow_natCast, ← zpow_sub₀ (by norm_num)]; congr 1; omega
  have habs : ((a.sig.natAbs : ℕ) : ℚ) ^ 2 = (a.sig : ℚ) ^ 2 := by
    rw [Nat.cast_natAbs]; push_cast; exact sq_abs _
  simp only [F53.square, Energy.value, F53.value]
  push_cast
  rw [mul_pow, hz, hsplit, habs, mul_div_assoc]

/-- The magnitude exceeds 1 (R107). -/
theorem exceedsOne_iff (a : F53) : a.exceedsOne = true ↔ 1 < |a.value| := by
  have habs : |a.value| = (a.sig.natAbs : ℚ) * 2 ^ a.exp := by
    rw [F53.value, abs_mul, abs_of_pos (show (0 : ℚ) < 2 ^ a.exp by positivity), Nat.cast_natAbs]; push_cast; rfl
  rw [habs]
  unfold F53.exceedsOne
  split
  · next hexp =>
    obtain ⟨k, hk⟩ := Int.eq_ofNat_of_zero_le hexp
    rw [hk, show ((2 : ℚ) ^ ((k : ℕ) : ℤ)) = ((2 ^ k : ℕ) : ℚ) by push_cast; exact zpow_natCast _ _]
    norm_cast
    have hk1 : 1 ≤ 2 ^ k := Nat.one_le_two_pow
    simp only [Bool.and_eq_true, bne_iff_ne, ne_eq, Bool.or_eq_true, decide_eq_true_eq]
    constructor
    · rintro ⟨hs, h | h⟩
      · nlinarith
      · have : 2 ≤ 2 ^ k := by
          calc 2 = 2 ^ 1 := rfl
            _ ≤ 2 ^ k := Nat.pow_le_pow_right (by norm_num) (by omega)
        have : 1 ≤ a.sig.natAbs := by omega
        nlinarith
    · intro h
      refine ⟨fun h0 => by simp [h0] at h, ?_⟩
      by_contra hno
      obtain ⟨h1, h2⟩ := not_or.mp hno
      obtain rfl : k = 0 := by omega
      omega
  · next hexp =>
    have hpow : (2 : ℚ) ^ a.exp = 1 / ((2 ^ (-a.exp).toNat : ℕ) : ℚ) := by
      push_cast
      rw [one_div, ← zpow_natCast, ← zpow_neg]; congr 1; omega
    rw [hpow, mul_one_div, one_lt_div (by positivity), decide_eq_true_eq]
    norm_cast

theorem limit_value (a : F53) : a.limit.value = max (-1) (min 1 a.value) := by
  have hpos : (0 : ℚ) < 2 ^ a.exp := by positivity
  unfold F53.limit
  split
  · next h =>
    rw [exceedsOne_iff] at h
    by_cases hs : a.sig < 0
    · have hneg : a.value < 0 := mul_neg_of_neg_of_pos (by exact_mod_cast hs) hpos
      rw [abs_of_neg hneg] at h
      rw [if_pos hs, min_eq_right (by linarith), max_eq_left (by linarith)]
      norm_num [F53.value]
    · have hnn : 0 ≤ a.value := mul_nonneg (by exact_mod_cast (not_lt.mp hs)) hpos.le
      rw [abs_of_nonneg hnn] at h
      rw [if_neg hs, min_eq_left (by linarith), max_eq_right (by linarith)]
      norm_num [F53.value]
  · next h =>
    rw [exceedsOne_iff, not_lt, abs_le] at h
    rw [min_eq_right h.2, max_eq_right h.1]

/-- A 24-bit sample is read exactly, as a fraction of full scale. -/
theorem sample_value (x : Sample) : (F53.ofScaled x.toInt (-23)).value = x.toInt / 2 ^ 23 := by
  have := sample_bounds x
  rw [ofScaled_value (by omega)]
  norm_num [div_eq_mul_inv]

/-! ### The energies of a block (R111) -/

/-- The lane energy truncated to 2^-48. -/
theorem laneEnergy_eq (m : LaneMeter) : (m.energy : ℤ) = ⌊m.acc.value / 4800 * 2 ^ 48⌋ := by
  have hq : m.acc.value / 4800 * 2 ^ 48 = ((m.acc.num * 2 ^ 48 : ℕ) : ℚ) / ((4800 * 2 ^ m.acc.scale : ℕ) : ℚ) := by
    rw [Energy.value]; push_cast; field_simp; norm_num
  rw [hq, Rat.floor_natCast_div_natCast]
  rfl

theorem blockEnergy_eq (m : Meter) (lanes : List LaneWeight) : (m.blockEnergy lanes : ℤ)
    = ⌊((lanes.zip m.lanes).map (fun y => ((y.1.weight : ℚ) / 256) * ⌊y.2.acc.value / 4800 * 2 ^ 48⌋)).sum⌋ := by
  have hsum : ∀ ys : List (LaneWeight × LaneMeter), (ys.map (fun y => ((y.1.weight : ℚ) / 256) * ⌊y.2.acc.value / 4800 * 2 ^ 48⌋)).sum
      = (((ys.map (fun y => y.1.weight * y.2.energy)).sum : ℕ) : ℚ) / ((256 : ℕ) : ℚ) := by
    intro ys
    induction ys with
    | nil => simp
    | cons y ys ih =>
      rw [List.map_cons, List.sum_cons, ih, List.map_cons, List.sum_cons, ← laneEnergy_eq]
      push_cast
      ring
  rw [hsum, Rat.floor_natCast_div_natCast, Meter.blockEnergy, ← List.map_uncurry_zip_eq_zipWith]
  rfl

/-! ### The suspect flag and the highest peak (R110, R115) -/

theorem suspectBlock_iff (feeds : Vector (List (Fin 8)) 32) (marks : Vector Bool 8) (lanes : List LaneWeight) :
    suspectBlock feeds marks lanes = true ↔ ∃ lw ∈ lanes, ∃ l ∈ feeds[lw.lane], marks[l] = true := by
  simp only [suspectBlock, List.any_eq_true]

theorem peakLevel_ge (x : Nat) : -1000 ≤ peakLevel x := by
  rcases Nat.eq_zero_or_pos x with rfl | hx
  · rw [peakLevel_zero]
  · by_cases h23 : x ≤ 8388608
    · rw [peakLevel_eq hx h23]; exact le_max_left _ _
    · have hfull : peakAtLeast x 0 = true := by
        rw [peakAtLeast_iff hx, le_round_iff]
        have h1 : (1 : ℝ) ≤ (x : ℝ) / 2 ^ 23 := by
          rw [le_div_iff₀ (by norm_num)]; norm_num; exact_mod_cast (not_le.mp h23).le
        have := Real.logb_nonneg (b := 10) (by norm_num) h1
        push_cast
        linarith
      rw [peakLevel, if_pos hfull]; decide

theorem foldl_max_facts (ps : List Int) (a : Int) :
    a ≤ ps.foldl max a ∧ (∀ y ∈ ps, y ≤ ps.foldl max a) ∧ (ps.foldl max a = a ∨ ps.foldl max a ∈ ps) := by
  induction ps generalizing a with
  | nil => simp
  | cons p ps ih =>
    obtain ⟨h1, h2, h3⟩ := ih (max a p)
    rw [List.foldl_cons]
    refine ⟨(le_max_left _ _).trans h1, List.forall_mem_cons.mpr ⟨(le_max_right _ _).trans h1, h2⟩, ?_⟩
    rcases h3 with h3 | h3
    · rcases max_choice a p with hm | hm
      · exact .inl (h3.trans hm)
      · exact .inr (by rw [h3, hm]; exact List.mem_cons_self)
    · exact .inr (List.mem_cons_of_mem _ h3)

/-- The highest of peaks of -1,000 or more is one of them (R115). -/
theorem highest_facts (ps : List Int) : (∀ y ∈ ps, y ≤ highest ps) ∧ (ps ≠ [] → (∀ y ∈ ps, -1000 ≤ y) → highest ps ∈ ps) := by
  obtain ⟨h1, h2, h3⟩ := foldl_max_facts ps (-1000)
  refine ⟨h2, fun hne hge => h3.elim (fun heq => ?_) id⟩
  obtain ⟨y, ys, rfl⟩ := List.exists_cons_of_ne_nil hne
  have hy := h2 y List.mem_cons_self
  have hy' := hge y List.mem_cons_self
  rw [show highest (y :: ys) = y from by unfold highest; omega]
  exact List.mem_cons_self

/-! ### The gate (R122) -/

theorem level_sixteen : level 16 1 = 113 := by decide +kernel

/-- The windows of a bin that eight lanes can give have a mean level of at most 113. -/
theorem mean_le {b : Bin} (hc : 1 ≤ b.count) (h : b.sum ≤ b.count * (16 * 2 ^ 50)) : b.mean ≤ 113 := by
  rw [← level_sixteen]
  exact level_mono (by positivity) (by norm_num) (by omega)

/-- The bins at or above the gate hold a level of at least the gate and at least -700. -/
theorem gated_bounds {hist : List Bin} (hne : hist ≠ []) (h : ∀ b ∈ hist, b.safe ∧ b.sum ≤ b.count * (16 * 2 ^ 50)) :
    let counted := hist.filter (fun b => decide (meanOf hist - 100 ≤ b.level))
    meanOf hist - 100 ≤ meanOf counted ∧ -700 ≤ meanOf counted := by
  intro counted
  have hsafe : ∀ b ∈ hist, 1 ≤ b.count ∧ -700 ≤ b.level ∧ b.level ≤ b.mean ∧ (b.level < 50 → b.mean = b.level) ∧ b.mean ≤ 113 := by
    intro b hb
    obtain ⟨h1, h2, -, h4, h5⟩ := (bin_safe_iff b).mp (h b hb).1
    exact ⟨h1, h2, h4, h5, mean_le h1 (h b hb).2⟩
  have hsome : counted ≠ [] := by
    intro hnil
    have hbelow : ∀ b ∈ hist, b.mean ≤ meanOf hist - 1 := by
      intro b hb
      have hlt : ¬ meanOf hist - 100 ≤ b.level := by simpa using List.filter_eq_nil_iff.mp hnil b hb
      obtain ⟨-, -, -, h5, h6⟩ := hsafe b hb
      by_cases h50 : b.level < 50
      · rw [h5 h50]; omega
      · omega
    have := (meanOf_bounds hne (fun b hb => (hsafe b hb).1) (lo := -700) (fun b hb => by have := hsafe b hb; omega) hbelow).2
    omega
  have hcounted : ∀ b ∈ counted, b ∈ hist ∧ meanOf hist - 100 ≤ b.level := fun b hb => by simpa [counted] using List.mem_filter.mp hb
  have hlow : ∀ lo : Int, (∀ b ∈ counted, lo ≤ b.level) → lo ≤ meanOf counted := fun lo hlo =>
    (meanOf_bounds hsome (fun b hb => (hsafe b (hcounted b hb).1).1) (hi := 113)
      (fun b hb => (hlo b hb).trans (hsafe b (hcounted b hb).1).2.2.1) (fun b hb => (hsafe b (hcounted b hb).1).2.2.2.2)).1
  exact ⟨hlow _ (fun b hb => (hcounted b hb).2), hlow _ (fun b hb => (hsafe b (hcounted b hb).1).2.1)⟩

/-! ### The obligation -/

theorem satInc_eq (top n : Nat) : satInc top n = min top (n + 1) := by unfold satInc; split <;> omega

/-- A lane meter takes the sample's fraction of full scale through both sections (R106 to R108). -/
theorem laneTake_facts (x : Sample) (m : LaneMeter) {u v y : F53} (hu : u = F53.ofScaled x.toInt (-23))
    (hv : v = sectionOut shelfCoeffs m.shelf u) (hy : y = sectionOut lowCutCoeffs m.lowCut v) :
    u.value = x.toInt / 2 ^ 23 ∧ (LaneMeter.take x m).shelf = ⟨u, m.shelf.x1, v, m.shelf.v1⟩
      ∧ (LaneMeter.take x m).lowCut = ⟨v, m.lowCut.x1, y, m.lowCut.v1⟩
      ∧ (LaneMeter.take x m).acc.value = m.acc.value + (max (-1) (min 1 y.value)) ^ 2
      ∧ (LaneMeter.take x m).blockMax = max m.blockMax x.toInt.natAbs ∧ (LaneMeter.take x m).peakHold = m.peakHold := by
  subst hu hv hy
  refine ⟨sample_value x, rfl, rfl, ?_, rfl, rfl⟩
  rw [← limit_value, ← square_value, ← energy_add_value]
  rfl

/-- The newest four entries enter the histogram exactly when they may (R120). -/
theorem enters_iff (m : Meter) {e : Nat} {bin : Int} (he : e = ((m.ring.take 4).map RingEntry.energy).sum) (hbin : bin = min 50 (level e (2 ^ 50))) :
    m.enters = true ↔ 4 ≤ m.n ∧ (∀ x ∈ m.ring.take 4, x.suspect = false) ∧ -700 ≤ level e (2 ^ 50)
      ∧ ∀ b ∈ m.hist, b.level = bin → b.count < 4294967295 := by
  subst he
  have hfull : binFull (min (level ((m.ring.take 4).map RingEntry.energy).sum (2 ^ 50)) 50) m.hist = false
      ↔ ∀ b ∈ m.hist, b.level = bin → b.count < 4294967295 := by
    rw [min_comm, ← hbin]
    simp [binFull, Config.max32]
  simp only [Meter.enters, Bool.and_eq_true, decide_eq_true_eq, Bool.not_eq_true', hfull, List.all_eq_true, and_assoc]

/-- What the offered window does to the histogram (R120). -/
theorem offered_facts (m : Meter) {e : Nat} {bin : Int} (hp : m.hist.Pairwise (fun a b => a.level < b.level))
    (he : e = ((m.ring.take 4).map RingEntry.energy).sum) (hbin : bin = min 50 (level e (2 ^ 50))) :
    (m.enters = false → m.offerWindow.hist = m.hist ∧ m.offerWindow.entered = m.entered)
    ∧ (m.enters = true → m.offerWindow.entered = min 4294967295 (m.entered + 1) ∧ m.offerWindow.hist.Pairwise (fun a b => a.level < b.level)
        ∧ (∀ b, b.level ≠ bin → (b ∈ m.offerWindow.hist ↔ b ∈ m.hist))
        ∧ (∀ b ∈ m.hist, b.level = bin → ⟨bin, b.count + 1, b.sum + e⟩ ∈ m.offerWindow.hist)
        ∧ ((∀ b ∈ m.hist, b.level ≠ bin) → ⟨bin, 1, e⟩ ∈ m.offerWindow.hist)) := by
  rw [offerWindow_eq, ← he, min_comm, ← hbin]
  refine ⟨fun h => by simp [h], fun h => ?_⟩
  rw [if_pos h]
  dsimp only
  refine ⟨satInc_eq _ _, enterBin_pairwise hp, fun b hb => ?_, fun b hb hl => ?_, fun hno => ?_⟩
  · rw [mem_enterBin hp]
    constructor
    · rintro (⟨h, -⟩ | ⟨a, -, ha, rfl⟩ | ⟨-, rfl⟩)
      · exact h
      · exact absurd ha hb
      · exact absurd rfl hb
    · exact fun h => .inl ⟨h, hb⟩
  · exact (mem_enterBin hp _).mpr (.inr (.inl ⟨b, hb, hl, by rw [hl]⟩))
  · exact (mem_enterBin hp _).mpr (.inr (.inr ⟨hno, rfl⟩))

/-- The window and the gate leave what the block result has pushed. -/
theorem result_kept (m : Meter) (lanes : List LaneWeight) (suspect : Bool) {m' : Meter} (h : m' = (m.result lanes suspect).1) :
    m'.ring = (m.pushed lanes suspect).ring ∧ m'.n = (m.pushed lanes suspect).n ∧ m'.suspects = (m.pushed lanes suspect).suspects
    ∧ m'.m = (m.pushed lanes suspect).m ∧ m'.s = (m.pushed lanes suspect).s ∧ m'.lanes = (m.pushed lanes suspect).lanes
    ∧ m'.settings = m.settings ∧ m'.opening = m.opening ∧ m'.hist = (m.pushed lanes suspect).offerWindow.hist
    ∧ m'.entered = (m.pushed lanes suspect).offerWindow.entered := by
  subst h
  rw [result_fst, gating_eq]
  dsimp only
  rw [offerWindow_eq]
  split <;> exact ⟨rfl, rfl, rfl, rfl, rfl, rfl, rfl, rfl, rfl, rfl⟩

theorem gating_gating (m : Meter) : m.gating.gating = m.gating := by rw [gating_eq, gating_eq m]

/-- Settles O45: the sample in exact arithmetic, the block's result read off the ring, the bins and the lanes, and the gate's level
against the bins it admits. -/
theorem blockResultsMeasureTheBlock : Obligations.BlockResultsMeasureTheBlock := by
  unfold Obligations.BlockResultsMeasureTheBlock
  refine ⟨fun x m u v y out hout hu hv hy => ?_, suspectBlock_iff, fun m m' r lanes suspect hres _ hp energy enters e bin window henergy hw he hbin henters => ?_,
    fun m => ⟨fun h => ?_, fun h g i counted hg hc hi => ?_⟩⟩
  · have hsec : out = sectionOut := by funext c k z; exact hout c k z
    subst hsec
    exact laneTake_facts x m hu hv hy
  · have hfst : m' = (m.result lanes suspect).1 := by rw [hres]
    obtain rfl : (m.result lanes suspect).2 = r := by rw [hres]
    obtain ⟨kring, kn, ksus, km, ks, klanes, kset, kop, khist, kent⟩ := result_kept m lanes suspect hfst
    have hidem : m'.gating = m' := by rw [hfst, result_fst, gating_gating]
    obtain ⟨hhigh, hmem⟩ := highest_facts (m.lanes.map (fun x => peakLevel x.blockMax))
    have hpeaks : ∀ y ∈ m.lanes.map (fun x => peakLevel x.blockMax), -1000 ≤ y := by
      intro y hy
      obtain ⟨x, -, rfl⟩ := List.mem_map.mp hy
      exact peakLevel_ge _
    have hsum : e = (((m.pushed lanes suspect).ring.take 4).map RingEntry.energy).sum := by rw [he, hw, henergy, kring]
    have hent : (m.pushed lanes suspect).enters = true ↔ enters := by
      rw [enters_iff _ hsum hbin, henters, hw, kring, kn]; rfl
    obtain ⟨hno, hyes⟩ := offered_facts (m.pushed lanes suspect) hp hsum hbin
    rw [kset, kop, khist, kent, klanes]
    refine ⟨⟨⟨m.blockEnergy lanes, suspect⟩, kring, rfl, blockEnergy_eq m lanes⟩, kn.trans (satInc_eq _ _), ?_, ?_, ?_, rfl, km.symm, ks.symm, rfl,
      hhigh, fun hne => hmem hne hpeaks, ?_, fun h => hno ?_, fun h => hyes (hent.mpr h), hidem, rfl, rfl⟩
    · rw [ksus, ← satInc_eq]; rfl
    · rintro xs rfl; rw [km, kring, kn, henergy]; rfl
    · rintro xs rfl; rw [ks, kring, kn, henergy]; rfl
    · rfl
    · exact Bool.eq_false_iff.mpr fun h' => h (hent.mp h')
  · rw [gating_eq, if_pos h, if_pos h]
  · obtain rfl : g = meanOf m.hist - 100 := hg
    subst hc
    obtain rfl : i = meanOf (m.hist.filter (fun b => decide (meanOf m.hist - 100 ≤ b.level))) := hi
    refine ⟨by rw [gating_eq, if_neg h, if_neg h], fun hb => gated_bounds h hb⟩

end Sys2Proof.Machine
end

