-- ==== Sys2Proof/Proofs/MoveUnits.lean ====
section
/-! PROOFS. What each operation of a move unit makes of its programme, as a function of that programme and the house time alone
(R70 to R85). -/

namespace Sys2Proof.Machine

variable {s t : State} {p : Fin 8}

/-! ### The operations at the programme -/

/-- The programme with its move unit replaced. -/
def Programme.withMove (x : Programme) (u : MoveUnit) : Programme := { x with move := u }

/-- The unit with a report written into its slots (R83). -/
def MoveUnit.written (u : MoveUnit) (r : Report) : MoveUnit :=
  match u.reports with
  | [] => { u with reports := [r] }
  | [a] => { u with reports := [a, r] }
  | a :: _ :: _ => { u with reports := [a, r], lost := satInc 255 u.lost }

/-- A move ends CUE_MISSED (R71). -/
def Programme.missed (x : Programme) (r : MoveRecord) (time : Stamp) : Programme :=
  x.withMove { x.move.written (reportOf r .cueMissed x.move.dcur time) with state := .still, staged := .empty }

/-- A record is entered (R70). -/
def Programme.entered (x : Programme) (r : MoveRecord) (time : Stamp) : Programme :=
  if x.policy = .block ∧ 2 ≤ x.move.reports.length then x.withMove { x.move with state := .readWait r none }
  else if r.cued then
    match x.group with
    | none => x.missed r time
    | some _ => x.withMove { x.move with state := .cueWait r 0 }
  else x.withMove { x.move with state := startState r }

/-- What follows a move's end (R71). -/
def Programme.followed (x : Programme) (r : MoveRecord) (o : MoveOutcome) (time : Stamp) : Programme :=
  match x.move.staged with
  | .committed c => (x.withMove { x.move with staged := .empty }).entered c time
  | .empty => x.withMove { x.move with state := if o = .halted then .halted r else .still }
  | .draft _ => x.withMove { x.move with state := if o = .halted then .halted r else .still }

/-- A move ends (R71). -/
def Programme.ended (x : Programme) (r : MoveRecord) (o : MoveOutcome) (time : Stamp) : Programme :=
  (x.withMove (x.move.written (reportOf r o x.move.dcur time))).followed r o time

/-- The move step of a house sample (R63). -/
def Programme.stepped (x : Programme) (time : Stamp) : Programme :=
  match x.move.state with
  | .moving r ph k =>
    let t := stepRecord r ph k x.move.pos
    let y := x.withMove { x.move with pos := t.pos, state := t.state }
    match t.ends with
    | none => y
    | some o => y.ended r o time
  | .still => x
  | .cueWait _ _ => x
  | .readWait _ _ => x
  | .halted _ => x

/-- A MOVING unit takes a hold (R76, R77). -/
def Programme.heldMoving (x : Programme) (r : MoveRecord) (ph : Phase) (k : Nat) (time : Stamp) : Programme :=
  match r.kind with
  | .jump => x
  | .glide _ => (x.withMove { x.move with pos := x.move.dcur * 65536 }).ended r .halted time
  | .fade f =>
    match ph with
    | .fadeOut => if f ≤ k then x.ended r .halted time else x.withMove { x.move with state := .moving r .fadeBack k }
    | .fadeIn => x
    | .fadeBack => x
    | .none => x

/-- The staged slot emptied (R68). -/
def Programme.unstaged (x : Programme) : Programme := x.withMove { x.move with staged := .empty }

/-- A unit with an empty staged slot takes a hold (R76 to R80). -/
def Programme.stopped (x : Programme) (time : Stamp) : Programme :=
  match x.move.state with
  | .still => x
  | .halted _ => x
  | .moving r ph k => x.heldMoving r ph k time
  | .cueWait r _ => x.ended r .cancelled time
  | .readWait _ (some _) => x
  | .readWait r none => x.withMove { x.move with state := .readWait r (some ⟨x.move.dcur, time⟩) }

/-- A programme takes a hold (R76 to R80). -/
def Programme.held (x : Programme) (time : Stamp) : Programme := x.unstaged.stopped time

/-- A unit goes on once its slots have been emptied (R85). -/
def Programme.readOn (x : Programme) (time : Stamp) : Programme :=
  match x.move.state with
  | .readWait r (some d) => (x.withMove (x.move.written (reportOf r .cancelled d.dcur d.hsc))).followed r .cancelled time
  | .readWait r none => x.entered r time
  | .still => x
  | .moving _ _ _ => x
  | .cueWait _ _ => x
  | .halted _ => x

/-- The cue wait counts a block, or ends at its group's timeout (R75). -/
def Programme.waited (x : Programme) (timeout : Nat) (time : Stamp) : Programme :=
  match x.move.state with
  | .cueWait r k => if timeout ≤ k + 1 then x.missed r time else x.withMove { x.move with state := .cueWait r (k + 1) }
  | .still => x
  | .moving _ _ _ => x
  | .readWait _ _ => x
  | .halted _ => x

/-- A waiting move is started by a cue (R99). -/
def Programme.cueStarted (x : Programme) : Programme :=
  match x.move.state with
  | .cueWait r _ => x.withMove { x.move with state := startState r }
  | .still => x
  | .moving _ _ _ => x
  | .readWait _ _ => x
  | .halted _ => x

/-! ### The operations at the state -/

theorem prog_setMove (s : State) (p : Fin 8) (u : MoveUnit) : (s.setMove p u).prog p = (s.prog p).withMove u := State.prog_setProg s p _

theorem prog_setStaged (s : State) (p : Fin 8) (x : Staged) : (s.setStaged p x).prog p = (s.prog p).withMove { (s.prog p).move with staged := x } :=
  prog_setMove s p _

theorem prog_setMoveState (s : State) (p : Fin 8) (x : MoveState) :
    (s.setMoveState p x).prog p = (s.prog p).withMove { (s.prog p).move with state := x } := prog_setMove s p _

theorem prog_of_sameBut {ps : List Part} (h : s.sameBut ps t) (hp : Part.progs ∉ ps) (k : Fin 8) : t.prog k = s.prog k :=
  (State.prog_congr (h .progs hp) k).symm

theorem prog_moveEvents (s : State) (p k : Fin 8) (o : MoveOutcome) : (s.moveEvents p o).prog k = s.prog k :=
  prog_of_sameBut (moveEvents_sameBut s p o) (by decide) k

theorem prog_armGroup (s : State) (g : Option (Fin 4)) (k : Fin 8) : (s.armGroup g).prog k = s.prog k :=
  prog_of_sameBut (armGroup_sameBut s g) (by decide) k

theorem prog_leftWaiting (s : State) (g : Option (Fin 4)) (k : Fin 8) : (s.leftWaiting g).prog k = s.prog k :=
  prog_of_sameBut (leftWaiting_sameBut s g) (by decide) k

theorem prog_writeReport (s : State) (p : Fin 8) (r : Report) : (s.writeReport p r).prog p = (s.prog p).withMove ((s.prog p).move.written r) := by
  unfold State.writeReport MoveUnit.written
  dsimp only
  rcases (s.prog p).move.reports with _ | ⟨a, _ | ⟨b, l⟩⟩
  · exact prog_setMove s p _
  · exact prog_setMove s p _
  · exact (prog_of_sameBut (count_sameBut _ _ _ _) (by decide) p).trans (prog_setMove s p _)

theorem ref_of_sameBut {ps : List Part} (h : s.sameBut ps t) (hp : Part.ref ∉ ps) : t.ref = s.ref := (h .ref hp).symm

theorem prog_endMissed (s : State) (p : Fin 8) (r : MoveRecord) : (s.endMissed p r).prog p = (s.prog p).missed r s.ref.hsc := by
  unfold State.endMissed
  dsimp only
  rw [prog_setMove, prog_moveEvents, prog_writeReport]
  rfl

theorem prog_enterRecord (s : State) (p : Fin 8) (r : MoveRecord) : (s.enterRecord p r).prog p = (s.prog p).entered r s.ref.hsc := by
  unfold State.enterRecord Programme.entered
  dsimp only
  split
  · exact prog_setMoveState s p _
  · split
    · cases (s.prog p).group with
      | none => exact prog_endMissed s p r
      | some g => exact (prog_armGroup _ _ p).trans (prog_setMoveState s p _)
    · exact prog_setMoveState s p _

theorem prog_afterEnd (s : State) (p : Fin 8) (r : MoveRecord) (o : MoveOutcome) :
    (s.afterEnd p r o).prog p = (s.prog p).followed r o s.ref.hsc := by
  unfold State.afterEnd Programme.followed
  cases (s.prog p).move.staged with
  | committed c =>
    refine (prog_enterRecord _ p c).trans ?_
    rw [prog_setStaged]
    rfl
  | empty => exact prog_setMoveState s p _
  | draft d => exact prog_setMoveState s p _

theorem prog_endMove (s : State) (p : Fin 8) (r : MoveRecord) (o : MoveOutcome) :
    (s.endMove p r o).prog p = (s.prog p).ended r o s.ref.hsc := by
  unfold State.endMove
  dsimp only
  rw [prog_afterEnd, prog_moveEvents, prog_writeReport, ref_of_sameBut (moveEvents_sameBut _ p o) (by decide),
    ref_of_sameBut (writeReport_sameBut s p _) (by decide)]
  rfl

theorem prog_moveStep (s : State) (p : Fin 8) : (s.moveStep p).prog p = (s.prog p).stepped s.ref.hsc := by
  unfold State.moveStep Programme.stepped
  dsimp only
  cases (s.prog p).move.state with
  | moving r ph k =>
    dsimp only
    cases (stepRecord r ph k (s.prog p).move.pos).ends with
    | none => exact prog_setMove s p _
    | some o => exact (prog_endMove _ p r o).trans (by rw [prog_setMove]; rfl)
  | still => rfl
  | cueWait _ _ => rfl
  | readWait _ _ => rfl
  | halted _ => rfl

theorem prog_holdMoving (s : State) (p : Fin 8) (r : MoveRecord) (ph : Phase) (k : Nat) :
    (s.holdMoving p r ph k).prog p = (s.prog p).heldMoving r ph k s.ref.hsc := by
  unfold State.holdMoving Programme.heldMoving
  cases r.kind with
  | jump => rfl
  | glide v => exact (prog_endMove _ p r _).trans (by rw [prog_setMove]; rfl)
  | fade f =>
    cases ph with
    | fadeOut =>
      dsimp only
      split
      · exact prog_endMove s p r _
      · exact prog_setMoveState s p _
    | fadeIn => rfl
    | fadeBack => rfl
    | none => rfl

theorem prog_hold (s : State) (p : Fin 8) : (s.hold p).prog p = (s.prog p).held s.ref.hsc := by
  have hunstaged : (s.setStaged p .empty).prog p = (s.prog p).unstaged := prog_setStaged s p _
  have href : (s.setStaged p .empty).ref = s.ref := rfl
  unfold State.hold Programme.held Programme.stopped
  rw [← hunstaged, ← href]
  generalize s.setStaged p .empty = u
  dsimp only
  cases (u.prog p).move.state with
  | still => rfl
  | halted _ => rfl
  | moving r ph k => exact prog_holdMoving u p r ph k
  | cueWait r k => exact (prog_leftWaiting _ _ p).trans (prog_endMove u p r _)
  | readWait r d =>
    cases d with
    | none => exact (prog_moveEvents _ p p _).trans (prog_setMoveState u p _)
    | some d => rfl

theorem prog_afterRead (s : State) (p : Fin 8) : (s.afterRead p).prog p = (s.prog p).readOn s.ref.hsc := by
  unfold State.afterRead Programme.readOn
  cases (s.prog p).move.state with
  | readWait r d =>
    cases d with
    | none => exact prog_enterRecord s p r
    | some d =>
      exact (prog_afterEnd _ p r _).trans (by rw [prog_writeReport, ref_of_sameBut (writeReport_sameBut s p _) (by decide)])
  | still => rfl
  | moving _ _ _ => rfl
  | cueWait _ _ => rfl
  | halted _ => rfl

theorem prog_cueWaitStep (s : State) (p : Fin 8) :
    (s.cueWaitStep p).prog p = (s.prog p).waited (s.timeoutOf (s.prog p).group) s.ref.hsc := by
  unfold State.cueWaitStep Programme.waited State.cueTimesOut
  cases (s.prog p).move.state with
  | cueWait r k =>
    dsimp only
    by_cases h : s.timeoutOf (s.prog p).group ≤ k + 1
    · rw [if_pos (decide_eq_true h), if_pos h]; exact (prog_leftWaiting _ _ p).trans (prog_endMissed s p r)
    · rw [if_neg (by simpa using h), if_neg h]; exact prog_setMoveState s p _
  | still => rfl
  | moving _ _ _ => rfl
  | readWait _ _ => rfl
  | halted _ => rfl

theorem prog_startWaiting (s : State) (p : Fin 8) : (s.startWaiting p).prog p = (s.prog p).cueStarted := by
  unfold State.startWaiting Programme.cueStarted
  cases (s.prog p).move.state with
  | cueWait r k => exact prog_setMoveState s p _
  | still => rfl
  | moving _ _ _ => rfl
  | readWait _ _ => rfl
  | halted _ => rfl

/-! ### Other programmes -/

theorem holdMoving_otherProgs (s : State) (p : Fin 8) (r : MoveRecord) (ph : Phase) (k : Nat) : s.otherProgs p (s.holdMoving p r ph k) := by
  unfold State.holdMoving
  cases r.kind with
  | jump => exact fun _ _ => rfl
  | glide v => exact otherProgs_trans s (setMove_otherProgs s p _) (endMove_otherProgs _ p r _)
  | fade f =>
    cases ph with
    | fadeOut =>
      dsimp only
      split
      · exact endMove_otherProgs s p r _
      · exact setMove_otherProgs s p _
    | fadeIn => exact fun _ _ => rfl
    | fadeBack => exact fun _ _ => rfl
    | none => exact fun _ _ => rfl

theorem otherProgs_of_sameBut {ps : List Part} (h : s.sameBut ps t) (hp : Part.progs ∉ ps) (p : Fin 8) : s.otherProgs p t :=
  otherProgs_of_progs s p (h .progs hp)

theorem hold_otherProgs (s : State) (p : Fin 8) : s.otherProgs p (s.hold p) := by
  unfold State.hold
  refine otherProgs_trans s (t := s.setStaged p .empty) (setMove_otherProgs s p _) ?_
  generalize s.setStaged p .empty = u
  dsimp only
  cases (u.prog p).move.state with
  | still => exact fun _ _ => rfl
  | halted _ => exact fun _ _ => rfl
  | moving r ph k => exact holdMoving_otherProgs u p r ph k
  | cueWait r k => exact otherProgs_trans u (endMove_otherProgs u p r _) (otherProgs_of_sameBut (leftWaiting_sameBut _ _) (by decide) p)
  | readWait r d =>
    cases d with
    | none => exact otherProgs_trans u (setMove_otherProgs u p _) (otherProgs_of_sameBut (moveEvents_sameBut _ p _) (by decide) p)
    | some d => exact fun _ _ => rfl

theorem afterRead_otherProgs (s : State) (p : Fin 8) : s.otherProgs p (s.afterRead p) := by
  unfold State.afterRead
  cases (s.prog p).move.state with
  | readWait r d =>
    cases d with
    | none => exact enterRecord_otherProgs s p r
    | some d => exact otherProgs_trans s (writeReport_otherProgs s p _) (afterEnd_otherProgs _ p r _)
  | still => exact fun _ _ => rfl
  | moving _ _ _ => exact fun _ _ => rfl
  | cueWait _ _ => exact fun _ _ => rfl
  | halted _ => exact fun _ _ => rfl

theorem cueWaitStep_otherProgs (s : State) (p : Fin 8) : s.otherProgs p (s.cueWaitStep p) := by
  unfold State.cueWaitStep
  cases (s.prog p).move.state with
  | cueWait r k =>
    dsimp only
    split
    · exact otherProgs_trans s (endMissed_otherProgs s p r) (otherProgs_of_sameBut (leftWaiting_sameBut _ _) (by decide) p)
    · exact setMove_otherProgs s p _
  | still => exact fun _ _ => rfl
  | moving _ _ _ => exact fun _ _ => rfl
  | readWait _ _ => exact fun _ _ => rfl
  | halted _ => exact fun _ _ => rfl

theorem startWaiting_otherProgs (s : State) (p : Fin 8) : s.otherProgs p (s.startWaiting p) := by
  unfold State.startWaiting
  cases (s.prog p).move.state with
  | cueWait r k => exact setMove_otherProgs s p _
  | still => exact fun _ _ => rfl
  | moving _ _ _ => exact fun _ _ => rfl
  | readWait _ _ => exact fun _ _ => rfl
  | halted _ => exact fun _ _ => rfl

/-- A fold of a programme's own step over distinct programmes leaves each as that step alone leaves it. -/
theorem forProgs_prog {f : Fin 8 → State → State} {F : State → Fin 8 → Programme → Programme}
    (own : ∀ p (t : State), (f p t).prog p = F t p (t.prog p)) (other : ∀ p (t : State), t.otherProgs p (f p t))
    (same : ∀ p k (t : State) x, F (f p t) k x = F t k x) (ps : List (Fin 8)) (hps : ps.Nodup) (s : State) (k : Fin 8) :
    (forProgs ps f s).prog k = if k ∈ ps then F s k (s.prog k) else s.prog k := by
  induction ps generalizing s with
  | nil => rfl
  | cons p ps ih =>
    obtain ⟨hp, hps⟩ := List.nodup_cons.mp hps
    have hstep := ih hps (f p s)
    rw [same] at hstep
    rw [show forProgs (p :: ps) f s = forProgs ps f (f p s) from rfl, hstep]
    by_cases hk : k = p
    · subst hk
      rw [if_neg hp, if_pos List.mem_cons_self, own]
    · have hother : (f p s).prog k = s.prog k := other p s k hk
      simp only [hother, List.mem_cons, hk, false_or]

end Sys2Proof.Machine
end

