-- ==== Sys2Proof/Proofs/MoveLaw.lean ====
section
/-! PROOFS. The move units' law (R62, R68, R70, R83, R94), operation by operation at one programme, and its keeping by every step. -/

namespace Sys2Proof.Machine

variable {s t : State} {x : Programme} {r : MoveRecord} {time : Stamp}

/-! ### The law taken apart -/

/-- What the law says of an open programme whatever its move state. -/
structure Programme.moveBase (x : Programme) : Prop where
  lowHigh : x.low ≤ x.high
  highMax : x.high ≤ x.dmax
  lowPos : x.low * 65536 ≤ x.move.pos
  posHigh : x.move.pos ≤ x.high * 65536
  staged : ∀ r, x.move.staged.record? = some r → r.within x.low x.high
  reports : x.move.reports.length ≤ 2
  lost : x.policy = .block → x.move.lost = 0

/-- Under BLOCK a report slot is free (R70). -/
def Programme.slotFree (x : Programme) : Prop := x.policy = .block → x.move.reports.length ≤ 1

/-- What the law says of a move state. -/
def Programme.moveFits (x : Programme) : Prop :=
  match x.move.state with
  | .still => x.move.staged.isCommitted = false
  | .halted r => r.within x.low x.high ∧ x.move.staged.isCommitted = false
  | .moving r _ _ => r.within x.low x.high ∧ x.slotFree
  | .cueWait r _ => r.within x.low x.high ∧ x.slotFree ∧ x.group.isSome
  | .readWait r _ => r.within x.low x.high ∧ x.policy = .block ∧ x.move.reports.length = 2

theorem low_le_dcur_iff (u : MoveUnit) (low : Nat) : low ≤ u.dcur ↔ low * 65536 ≤ u.pos := by unfold MoveUnit.dcur; omega

theorem moveSafe_iff (x : Programme) : x.moveSafe ↔ (x.life.isClosed = false → x.moveBase ∧ x.moveFits) := by
  unfold Programme.moveSafe
  refine imp_congr_right fun _ => ?_
  constructor
  · rintro ⟨h1, h2, h3, h4, hrec, hst, hcom, hrep, hlost, hmov, hcue, hgrp, hread⟩
    refine ⟨⟨h1, h2, (low_le_dcur_iff _ _).mp h3, h4, hst, hrep, hlost⟩, ?_⟩
    unfold Programme.moveFits
    cases hs : x.move.state with
    | still => exact Bool.eq_false_iff.mpr fun h => (hcom h).1 hs
    | halted r => exact ⟨hrec r (by rw [hs]; rfl), Bool.eq_false_iff.mpr fun h => (hcom h).2 r hs⟩
    | moving r ph k => exact ⟨hrec r (by rw [hs]; rfl), fun hb => hmov hb r ph k hs⟩
    | cueWait r k => exact ⟨hrec r (by rw [hs]; rfl), fun hb => hcue hb r k hs, hgrp r k hs⟩
    | readWait r d => exact ⟨hrec r (by rw [hs]; rfl), hread r d hs⟩
  · rintro ⟨b, hfit⟩
    unfold Programme.moveFits at hfit
    refine ⟨b.lowHigh, b.highMax, (low_le_dcur_iff _ _).mpr b.lowPos, b.posHigh, ?_, b.staged, ?_, b.reports, b.lost, ?_, ?_, ?_, ?_⟩
    all_goals
      cases hs : x.move.state <;> rw [hs] at hfit <;>
        simp_all [MoveState.record?, Programme.slotFree]

/-! ### Reports written (R83) -/

theorem written_eq (u : MoveUnit) (y : Report) : ∃ l n, u.written y = { u with reports := l, lost := n } ∧ l.length ≤ 2
    ∧ (u.reports.length ≤ 1 → n = u.lost) := by
  unfold MoveUnit.written
  rcases u.reports with _ | ⟨a, _ | ⟨b, l⟩⟩
  · exact ⟨_, _, rfl, by simp, fun _ => rfl⟩
  · exact ⟨_, _, rfl, by simp, fun _ => rfl⟩
  · exact ⟨_, _, rfl, by simp, fun h => by simp at h⟩

/-- With a slot free under BLOCK, a report written keeps what the law says whatever the state. -/
theorem Programme.moveBase.written (b : x.moveBase) (hfree : x.slotFree) (y : Report) : (x.withMove (x.move.written y)).moveBase := by
  obtain ⟨l, n, hu, hl, hn⟩ := written_eq x.move y
  rw [hu]
  exact ⟨b.lowHigh, b.highMax, b.lowPos, b.posHigh, b.staged, hl, fun hb => (hn (hfree hb)).trans (b.lost hb)⟩

/-- A move state replaced and the staged slot emptied or kept keep what the law says whatever the state. -/
theorem Programme.moveBase.withState (b : x.moveBase) (v : MoveState) : (x.withMove { x.move with state := v }).moveBase :=
  ⟨b.lowHigh, b.highMax, b.lowPos, b.posHigh, b.staged, b.reports, b.lost⟩

theorem Programme.moveBase.emptied (b : x.moveBase) : (x.withMove { x.move with staged := .empty }).moveBase :=
  ⟨b.lowHigh, b.highMax, b.lowPos, b.posHigh, (fun _ h => by cases h), b.reports, b.lost⟩

/-! ### Entering and ending (R70, R71) -/

theorem missed_law (b : x.moveBase) (hfree : x.slotFree) : (x.missed r time).moveBase ∧ (x.missed r time).moveFits :=
  ⟨((b.written hfree _).emptied).withState .still, rfl⟩

theorem startState_law (hr : r.within x.low x.high) (hfree : x.slotFree) : (x.withMove { x.move with state := startState r }).moveFits := by
  unfold Programme.moveFits startState
  cases hk : r.kind <;> simp only [Programme.withMove] <;> exact ⟨hr, hfree⟩

/-- A record within the limits may be entered whatever the staged slot holds. -/
theorem entered_law (b : x.moveBase) (hr : r.within x.low x.high) : (x.entered r time).moveBase ∧ (x.entered r time).moveFits := by
  unfold Programme.entered
  split
  · next h => exact ⟨b.withState _, hr, h.1, Nat.le_antisymm b.reports h.2⟩
  · next h =>
    have hfree : x.slotFree := fun hb => by have := not_and.mp h hb; omega
    split
    · split
      · exact missed_law b hfree
      · next g hg => exact ⟨b.withState _, hr, hfree, by simp [Programme.withMove, hg]⟩
    · exact ⟨b.withState _, startState_law hr hfree⟩

theorem followed_law (b : x.moveBase) (hr : r.within x.low x.high) (o : MoveOutcome) :
    (x.followed r o time).moveBase ∧ (x.followed r o time).moveFits := by
  unfold Programme.followed
  have rest (h : x.move.staged.isCommitted = false) :
      (x.withMove { x.move with state := if o = .halted then .halted r else .still }).moveFits := by
    unfold Programme.moveFits
    by_cases ho : o = .halted
    · simp only [Programme.withMove, ho, if_true]; exact ⟨hr, h⟩
    · simp only [Programme.withMove, ho, if_false]; exact h
  split
  · next c hc => exact entered_law b.emptied (b.staged c (by rw [hc]; rfl))
  · next hc => exact ⟨b.withState _, rest (by rw [hc]; rfl)⟩
  · next d hc => exact ⟨b.withState _, rest (by rw [hc]; rfl)⟩

theorem ended_law (b : x.moveBase) (hfree : x.slotFree) (hr : r.within x.low x.high) (o : MoveOutcome) :
    (x.ended r o time).moveBase ∧ (x.ended r o time).moveFits := followed_law (b.written hfree _) hr o

/-! ### The step of a house sample (R72 to R74) -/

theorem glideTo_between (pos goal step : Nat) : min pos goal ≤ glideTo pos goal step ∧ glideTo pos goal step ≤ max pos goal := by
  unfold glideTo; split_ifs <;> omega

/-- A step moves the unit no further than between where it stands and its target, and leaves it MOVING with its record. -/
theorem stepRecord_facts (r : MoveRecord) (ph : Phase) (k pos : Nat) :
    min pos (r.target * 65536) ≤ (stepRecord r ph k pos).pos ∧ (stepRecord r ph k pos).pos ≤ max pos (r.target * 65536)
      ∧ ∃ ph' k', (stepRecord r ph k pos).state = .moving r ph' k' := by
  unfold stepRecord
  dsimp only
  cases r.kind with
  | jump => exact ⟨min_le_right _ _, le_max_right _ _, _, _, rfl⟩
  | glide v => exact ⟨(glideTo_between _ _ _).1, (glideTo_between _ _ _).2, _, _, rfl⟩
  | fade f =>
    cases ph with
    | fadeOut =>
      dsimp only
      split
      · exact ⟨min_le_left _ _, le_max_left _ _, _, _, rfl⟩
      · exact ⟨min_le_right _ _, le_max_right _ _, _, _, rfl⟩
    | fadeIn => exact ⟨min_le_left _ _, le_max_left _ _, _, _, rfl⟩
    | fadeBack => exact ⟨min_le_left _ _, le_max_left _ _, _, _, rfl⟩
    | none => exact ⟨min_le_left _ _, le_max_left _ _, _, _, rfl⟩

/-- A new position within the limits keeps what the law says whatever the state. -/
theorem Programme.moveBase.moved (b : x.moveBase) {pos : Nat} (h0 : x.low * 65536 ≤ pos) (h1 : pos ≤ x.high * 65536) (v : MoveState) :
    (x.withMove { x.move with pos := pos, state := v }).moveBase :=
  ⟨b.lowHigh, b.highMax, h0, h1, b.staged, b.reports, b.lost⟩

theorem stepped_law (b : x.moveBase) (h : x.moveFits) : (x.stepped time).moveBase ∧ (x.stepped time).moveFits := by
  unfold Programme.stepped
  split
  · next r ph k hs =>
    obtain ⟨hr, hfree⟩ : r.within x.low x.high ∧ x.slotFree := by unfold Programme.moveFits at h; rwa [hs] at h
    obtain ⟨hlo, hhi, ph', k', hst⟩ := stepRecord_facts r ph k x.move.pos
    obtain ⟨h1, h2⟩ := hr
    have := b.lowPos
    have := b.posHigh
    have hmoved := b.moved (pos := (stepRecord r ph k x.move.pos).pos) (by omega) (by omega) (stepRecord r ph k x.move.pos).state
    dsimp only
    split
    · refine ⟨hmoved, ?_⟩
      unfold Programme.moveFits
      simp only [Programme.withMove, hst]
      exact ⟨⟨h1, h2⟩, hfree⟩
    · exact ended_law hmoved hfree ⟨h1, h2⟩ _
  all_goals exact ⟨b, h⟩

/-! ### Holds, reads, cues and timeouts (R75 to R80, R85, R99) -/

theorem unstaged_law (b : x.moveBase) (h : x.moveFits) : x.unstaged.moveBase ∧ x.unstaged.moveFits := by
  refine ⟨b.emptied, ?_⟩
  unfold Programme.moveFits at h ⊢
  unfold Programme.unstaged Programme.withMove
  dsimp only
  cases hs : x.move.state <;> rw [hs] at h
  case still => rfl
  case halted => exact ⟨h.1, rfl⟩
  all_goals exact h

theorem stopped_law (b : x.moveBase) (h : x.moveFits) : (x.stopped time).moveBase ∧ (x.stopped time).moveFits := by
  have hfit := h
  unfold Programme.moveFits at hfit
  unfold Programme.stopped
  split
  · exact ⟨b, h⟩
  · exact ⟨b, h⟩
  · next r ph k hs =>
    rw [hs] at hfit
    obtain ⟨hr, hfree⟩ := hfit
    unfold Programme.heldMoving
    split
    · exact ⟨b, h⟩
    · have hpos : x.move.dcur * 65536 ≤ x.move.pos := by unfold MoveUnit.dcur; omega
      have hlow := Nat.mul_le_mul_right 65536 ((low_le_dcur_iff x.move x.low).mpr b.lowPos)
      exact ended_law (b.moved hlow (hpos.trans b.posHigh) x.move.state) hfree hr _
    · split
      · split
        · exact ended_law b hfree hr _
        · exact ⟨b.withState _, hr, hfree⟩
      all_goals exact ⟨b, h⟩
  · next r k hs =>
    rw [hs] at hfit
    exact ended_law b hfit.2.1 hfit.1 _
  · exact ⟨b, h⟩
  · next r hs =>
    rw [hs] at hfit
    exact ⟨b.withState _, hfit⟩

theorem held_law (b : x.moveBase) (h : x.moveFits) : (x.held time).moveBase ∧ (x.held time).moveFits :=
  stopped_law (unstaged_law b h).1 (unstaged_law b h).2

/-- The slots emptied and the lost count zeroed (R85). -/
def Programme.slotsEmptied (x : Programme) : Programme := x.withMove { x.move with reports := [], lost := 0 }

theorem slotsEmptied_base (b : x.moveBase) : x.slotsEmptied.moveBase :=
  ⟨b.lowHigh, b.highMax, b.lowPos, b.posHigh, b.staged, Nat.zero_le _, fun _ => rfl⟩

theorem slotsEmptied_free (x : Programme) : x.slotsEmptied.slotFree := fun _ => Nat.zero_le _

theorem readOn_law (b : x.moveBase) (h : x.moveFits) : (x.slotsEmptied.readOn time).moveBase ∧ (x.slotsEmptied.readOn time).moveFits := by
  have hb := slotsEmptied_base b
  have hfree := slotsEmptied_free x
  have hstate : x.slotsEmptied.move.state = x.move.state := rfl
  unfold Programme.moveFits at h
  unfold Programme.readOn
  rw [hstate]
  cases hs : x.move.state with
  | readWait r d =>
    rw [hs] at h
    cases d with
    | none => exact entered_law hb h.1
    | some d => exact followed_law (hb.written hfree _) h.1 _
  | still =>
    rw [hs] at h
    exact ⟨hb, by unfold Programme.moveFits; rw [hstate, hs]; exact h⟩
  | halted r =>
    rw [hs] at h
    exact ⟨hb, by unfold Programme.moveFits; rw [hstate, hs]; exact h⟩
  | moving r ph k =>
    rw [hs] at h
    exact ⟨hb, by unfold Programme.moveFits; rw [hstate, hs]; exact ⟨h.1, hfree⟩⟩
  | cueWait r k =>
    rw [hs] at h
    exact ⟨hb, by unfold Programme.moveFits; rw [hstate, hs]; exact ⟨h.1, hfree, h.2.2⟩⟩

theorem waited_law (b : x.moveBase) (h : x.moveFits) (timeout : Nat) : (x.waited timeout time).moveBase ∧ (x.waited timeout time).moveFits := by
  unfold Programme.waited
  split
  · next r k hs =>
    have hfit := h
    unfold Programme.moveFits at hfit
    rw [hs] at hfit
    split
    · exact missed_law b hfit.2.1
    · exact ⟨b.withState _, hfit⟩
  all_goals exact ⟨b, h⟩

theorem cueStarted_law (b : x.moveBase) (h : x.moveFits) : x.cueStarted.moveBase ∧ x.cueStarted.moveFits := by
  unfold Programme.cueStarted
  split
  · next r k hs =>
    have hfit := h
    unfold Programme.moveFits at hfit
    rw [hs] at hfit
    exact ⟨b.withState _, startState_law hfit.1 hfit.2.1⟩
  all_goals exact ⟨b, h⟩

end Sys2Proof.Machine
end

