-- ==== Sys2Proof/Proofs/MoveLawKept.lean ====
section
/-! PROOFS. Every step keeps the move units' law. -/

namespace Sys2Proof.Machine

variable {s t : State} {p : Fin 8}

/-! ### The law across states -/

theorem movesSafe_reads : Reads [.progs] State.movesSafe := fun s t h hs p => by
  have hp : s.progs = t.progs := h .progs (by simp)
  rw [State.prog_congr hp.symm p]; exact hs p

/-- What reaches one programme's move unit keeps the law when it keeps it of that programme. -/
theorem movesSafe_of_move (hm : s.sameButMoves t) (ho : s.otherProgs p t)
    (hp : (s.prog p).moveBase → (s.prog p).moveFits → (t.prog p).moveBase ∧ (t.prog p).moveFits) (h : s.movesSafe) : t.movesSafe := by
  intro k
  by_cases hk : k = p
  · subst hk
    have hlife : (t.prog k).life = (s.prog k).life := by rw [hm k]
    refine (moveSafe_iff _).mpr fun hc => ?_
    obtain ⟨hb, hf⟩ := (moveSafe_iff _).mp (h k) (hlife ▸ hc)
    exact hp hb hf
  · rw [ho k hk]; exact h k

/-- What reaches no programme but its meter and corrector keeps the law. -/
theorem movesSafe_of_meters (hm : s.sameButMeters t) (h : s.movesSafe) : t.movesSafe := by
  intro p; rw [hm p]; exact h p

theorem movesSafe_of_sameBut {ps : List Part} (hs : s.sameBut ps t) (hp : Part.progs ∉ ps) (h : s.movesSafe) : t.movesSafe :=
  movesSafe_reads.keep hs (by simpa using hp) h

theorem movesSafe_setProg {x : Programme} (hx : x.moveSafe) (h : s.movesSafe) : (s.setProg p x).movesSafe := allProgs_setProg hx h

/-! ### Operations of the move units -/

theorem moveStep_movesSafe (p : Fin 8) (h : s.movesSafe) : (s.moveStep p).movesSafe :=
  movesSafe_of_move (moveStep_sameButMoves s p) (moveStep_otherProgs s p) (fun hb hf => by rw [prog_moveStep]; exact stepped_law hb hf) h

theorem hold_movesSafe (p : Fin 8) (h : s.movesSafe) : (s.hold p).movesSafe :=
  movesSafe_of_move (hold_sameButMoves s p) (hold_otherProgs s p) (fun hb hf => by rw [prog_hold]; exact held_law hb hf) h

theorem cueWaitStep_movesSafe (p : Fin 8) (h : s.movesSafe) : (s.cueWaitStep p).movesSafe :=
  movesSafe_of_move (cueWaitStep_sameButMoves s p) (cueWaitStep_otherProgs s p)
    (fun hb hf => by rw [prog_cueWaitStep]; exact waited_law hb hf _) h

theorem startWaiting_movesSafe (p : Fin 8) (h : s.movesSafe) : (s.startWaiting p).movesSafe :=
  movesSafe_of_move (startWaiting_sameButMoves s p) (startWaiting_otherProgs s p)
    (fun hb hf => by rw [prog_startWaiting]; exact cueStarted_law hb hf) h

theorem reportsRead_movesSafe (p : Fin 8) (h : s.movesSafe) :
    ((s.setMove p { (s.prog p).move with reports := [], lost := 0 }).afterRead p).movesSafe := by
  refine movesSafe_of_move (p := p) ((setMove_sameButMoves s p _).trans (afterRead_sameButMoves _ p))
    (otherProgs_trans s (setMove_otherProgs s p _) (afterRead_otherProgs _ p)) (fun hb hf => ?_) h
  rw [prog_afterRead, prog_setMove]
  exact readOn_law hb hf

/-- A staged slot that holds no committed record, or one behind a move, keeps the law. -/
theorem setStaged_movesSafe {v : Staged} (hv : (s.prog p).moveBase → ∀ r, v.record? = some r → r.within (s.prog p).low (s.prog p).high)
    (hc : v.isCommitted = true → (s.prog p).move.state ≠ .still ∧ ∀ r, (s.prog p).move.state ≠ .halted r) (h : s.movesSafe) :
    (s.setStaged p v).movesSafe := by
  refine movesSafe_of_move (p := p) (setMove_sameButMoves s p { (s.prog p).move with staged := v }) (setMove_otherProgs s p _) (fun hb hf => ?_) h
  rw [prog_setStaged]
  refine ⟨⟨hb.lowHigh, hb.highMax, hb.lowPos, hb.posHigh, hv hb, hb.reports, hb.lost⟩, ?_⟩
  unfold Programme.moveFits at hf ⊢
  simp only [Programme.withMove]
  cases hs : (s.prog p).move.state <;> rw [hs] at hf
  case still => exact Bool.eq_false_iff.mpr fun h0 => (hc h0).1 hs
  case halted r => exact ⟨hf.1, Bool.eq_false_iff.mpr fun h0 => (hc h0).2 r hs⟩
  all_goals exact hf

/-- A record of the unit's own is entered, its staged slot emptied or kept. -/
theorem enterRecord_movesSafe {r : MoveRecord} (hr : (s.prog p).life.isClosed = false → r.within (s.prog p).low (s.prog p).high)
    (hopen : (s.prog p).life.isClosed = false → (s.prog p).moveBase) (h : ∀ k, k ≠ p → (s.prog k).moveSafe) : (s.enterRecord p r).movesSafe := by
  intro k
  by_cases hk : k = p
  · subst hk
    refine (moveSafe_iff _).mpr fun hc => ?_
    rw [(enterRecord_sameButMoves s k r).units.life k] at hc
    rw [prog_enterRecord]
    exact entered_law (hopen hc) (hr hc)
  · rw [enterRecord_otherProgs s p r k hk]; exact h k hk

theorem takeCue_movesSafe (g : Fin 4) (time : Stamp) (h : s.movesSafe) : (s.takeCue g time).movesSafe := by
  rw [takeCue_eq]
  refine movesSafe_of_sameBut (setGroup_sameBut _ g _) (by decide) (movesSafe_of_meters (restartCue_sameButMeters _ g) ?_)
  refine movesSafe_of_sameBut (snapshotCue_sameBut _ g time) (by decide) ?_
  exact List.foldlRecOn _ _ (movesSafe_of_sameBut (countCue_sameBut s g) (by decide) h) (fun t ht p _ => startWaiting_movesSafe p ht)

theorem cueGroups_movesSafe (cued : CueGroup → Bool) (time : Stamp) (h : s.movesSafe) : (s.cueGroups cued time).movesSafe :=
  forEach_induct _ State.movesSafe _ h (fun g _ ht => ite_keep (fun _ => takeCue_movesSafe g time ht) ht)

theorem cuesOf_movesSafe (b : Bool) (src : CueSource) (h : s.movesSafe) : (s.cuesOf b src).movesSafe :=
  ite_keep (fun _ => cueGroups_movesSafe _ _ h) h

theorem sampleFrm_movesSafe (v : Bool) (s : State) (h : s.movesSafe) : (s.sampleFrm v).movesSafe := by
  have hf := movesSafe_of_sameBut (frmSampled_sameBut s v) (by decide) h
  rw [sampleFrm_eq]
  exact ite_keep (fun _ => cueGroups_movesSafe _ _ (movesSafe_of_sameBut (reportFrameRef_sameBut _) (by decide) hf)) hf

theorem sampleCues_movesSafe (c0 c1 : Bool) (s : State) (h : s.movesSafe) : (s.sampleCues c0 c1).movesSafe := by
  rw [sampleCues_eq]
  exact cuesOf_movesSafe _ _ (cuesOf_movesSafe _ _ (movesSafe_of_sameBut (cuesSampled_sameBut s c0 c1) (by decide) h))

/-! ### Records of programmes -/

/-- A programme whose life changes without a close keeps the law. -/
theorem moveSafe_withLife {x : Programme} {l : Life} (hl : l.isClosed = false → x.life.isClosed = false) (h : x.moveSafe) :
    Programme.moveSafe { x with life := l } := fun hc => h (hl hc)

theorem closed_moveSafe {x : Programme} (h : x.life.isClosed = true) : x.moveSafe := fun hc => by rw [h] at hc; cases hc

theorem opened_moveSafe (x : OpenRequest) (ls : List LaneWeight) (g : Option (Fin 4)) (e : Extent) : (openedProgramme x ls g e).moveSafe := by
  refine (moveSafe_iff _).mpr fun _ => ⟨⟨min_le_right _ _, min_le_right _ _, le_refl _, Nat.mul_le_mul_right _ (min_le_right _ _), ?_, Nat.zero_le _, fun _ => rfl⟩, rfl⟩
  intro r hr; cases hr

theorem clearStep_movesSafe (p : Fin 8) (s : State) (h : s.movesSafe) : (s.clearStep p).movesSafe := by
  unfold State.clearStep
  split
  · next e left k hl =>
    have hopen (u : State) (hu : u.movesSafe) (hp : u.prog p = s.prog p) (l : Life) : (u.setLife p l).movesSafe :=
      movesSafe_setProg (moveSafe_withLife (fun _ => by rw [hp, hl]; rfl) (hu p)) hu
    split
    · exact hopen s h rfl _
    · dsimp only
      split
      · exact hopen _ h rfl _
      · exact hopen _ h rfl _
  · exact h
  · exact h

theorem grouped_moveSafe {x : Programme} (hc : x.move.state.isCueWait = false) (g : Option (Fin 4)) (h : x.moveSafe) :
    Programme.moveSafe { x with group := g } := by
  refine (moveSafe_iff _).mpr fun ho => ?_
  obtain ⟨hb, hf⟩ := (moveSafe_iff _).mp h ho
  refine ⟨⟨hb.lowHigh, hb.highMax, hb.lowPos, hb.posHigh, hb.staged, hb.reports, hb.lost⟩, ?_⟩
  unfold Programme.moveFits at hf ⊢
  dsimp only
  cases hs : x.move.state <;> rw [hs] at hf hc
  case cueWait => cases hc
  all_goals exact hf

/-! ### Requests -/

theorem effect_movesSafe (he : Effect s t) (h : s.movesSafe) : t.movesSafe := by
  have law (p : Fin 8) (hc : (s.prog p).life.isClosed = false) := (moveSafe_iff _).mp (h p) hc
  cases he with
  | nothing => exact h
  | linkSet l en pp sp => exact movesSafe_of_sameBut (setLinkPolicy_sameBut s l en pp sp) (by decide) h
  | opened x p ls g start free hx hc hl ha => exact movesSafe_setProg (s := { s with freeList := free }) (opened_moveSafe x ls g _) h
  | closedClearing p e left k hl => exact movesSafe_setProg (closed_moveSafe rfl) h
  | closedLive p e w hl =>
    have hr : ((s.setProg p (s.prog p).closedLive).releaseExtent e.extent).movesSafe := movesSafe_setProg (closed_moveSafe rfl) h
    exact movesSafe_of_sameBut (closeSources_sameBut _ p) (by decide)
      (ite_keep (fun _ => movesSafe_of_sameBut (leftWaiting_sameBut _ _) (by decide) hr) hr)
  | grouped p g hc => exact movesSafe_setProg (grouped_moveSafe hc g (h p)) h
  | drafted p r v hr =>
    refine setStaged_movesSafe (fun hb r' hr' => ?_) (fun hc => by cases hc) h
    obtain rfl : r = r' := Option.some.inj hr'
    have := hb.lowHigh
    unfold MoveRecord.within
    rw [hr]
    unfold clampNat
    omega
  | committed p r hd h0 h1 =>
    exact setStaged_movesSafe (fun hb r' hr' => hb.staged r' (by rw [hd]; exact hr')) (fun _ => ⟨h0, h1⟩) h
  | unstaged p => exact setStaged_movesSafe (fun _ _ hr => by cases hr) (fun hc => by cases hc) h
  | started p r hd hr =>
    have hprog : (s.setStaged p .empty).prog p = (s.prog p).unstaged := prog_setStaged s p _
    refine enterRecord_movesSafe (fun hc => ?_) (fun hc => ?_) (fun k hk => ?_)
    · rw [hprog] at hc ⊢; exact (law p hc).1.staged r (by rw [hd]; rfl)
    · rw [hprog] at hc ⊢; exact (law p hc).1.emptied
    · rw [show (s.setStaged p .empty).prog k = s.prog k from setMove_otherProgs s p _ k hk]; exact h k
  | held p => exact hold_movesSafe p h
  | heldAll => exact forEach_induct s State.movesSafe _ h (fun p _ ht => ite_keep (fun _ => hold_movesSafe p ht) ht)
  | resumed p r hh =>
    refine enterRecord_movesSafe (fun hc => ?_) (fun hc => (law p hc).1) (fun k _ => h k)
    have hf := (law p hc).2
    unfold Programme.moveFits at hf
    rw [hh] at hf
    exact hf.1
  | reportsRead p => exact reportsRead_movesSafe p h
  | cueSet g src timeout restart snapshot =>
    exact movesSafe_of_sameBut (reportFrameRef_sameBut _) (by decide) (movesSafe_of_sameBut (setGroup_sameBut s g _) (by decide) h)
  | armed g => exact movesSafe_of_sameBut (armGroup_sameBut s _) (by decide) h
  | cued g => exact takeCue_movesSafe g _ h
  | snapRead g x => exact movesSafe_of_sameBut (setSnap_sameBut s g x) (by decide) h
  | loudSet p x => exact movesSafe_of_meters (setMeter_sameButMeters s p _) h
  | loudRestart p => exact movesSafe_of_meters (setMeter_sameButMeters s p _) h
  | loudRead p => exact movesSafe_of_meters (setMeter_sameButMeters s p _) h
  | gainSet p x m => exact movesSafe_of_meters (setGain_sameButMeters s p _) h
  | almSet n prio masked rt ct hn => exact movesSafe_of_sameBut (storeSettings_sameBut s n _) (by decide) h
  | almLevel v => exact movesSafe_of_sameBut (judge_threshold_sameBut s v) (by decide) h
  | almNext n hn => exact movesSafe_of_sameBut (setSource_sameBut s n _) (by decide) h
  | almClose n hn => exact movesSafe_of_sameBut (setSource_sameBut s n _) (by decide) h
  | contactSet c ceil m => exact movesSafe_of_sameBut (setContact_sameBut s c _) (by decide) h
  | zeroed c => exact movesSafe_of_sameBut (setCounter_sameBut s c _) (by decide) h
  | allZeroed => exact movesSafe_of_sameBut (clearCounters_sameBut s) (by decide) h

/-! ### Block ends, house samples and every step -/

theorem takeBlockEnd_movesSafe (h : s.movesSafe) : s.takeBlockEnd.movesSafe :=
  takeBlockEnd_keep (q := State.movesSafe) (fun _ hs => hs) (fun c s => movesSafe_of_sameBut (contactStep_sameBut s c) (by decide))
    (fun l s => movesSafe_of_sameBut (linkBlockEnd_sameBut s l) (by decide))
    (fun e k s _ => movesSafe_of_sameBut (count_sameBut s e none k) (by decide))
    (fun m p s => movesSafe_of_meters (programmeBlockEnd_sameButMeters m p s)) (fun _ hs => hs) (fun p _ => cueWaitStep_movesSafe p)
    (fun n s _ => movesSafe_of_sameBut (timerStep_sameBut s n) (by decide)) (fun _ _ hs => hs) h

theorem takeHouseSample_movesSafe (hb : s.blockEndDue = false) (frm c0 c1 : Bool) (h : s.movesSafe) :
    (s.takeHouseSample frm c0 c1).movesSafe :=
  takeHouseSample_keep (q := State.movesSafe) hb (fun _ hs => hs) (fun l s => movesSafe_of_sameBut (readConverter_sameBut s l) (by decide))
    (fun ins acc p => programmeSample_keep (fun _ => moveStep_movesSafe p) (fun w s => movesSafe_of_meters (gainStep_sameButMeters s p w))
      (fun e w clip s hl hs => movesSafe_setProg (s := { s with mem := writeRings ins e w s.mem })
        (x := { s.prog p with life := .live e ((w + 1) % 281474976710656), meter := (s.prog p).meter.take ins e.lanes
                              gain := { (s.prog p).gain with clip := (s.prog p).gain.clip + clip } })
        (moveSafe_withLife (fun _ => by rw [hl]; rfl) (hs p)) hs)
      (live_steps p))
    (fun _ _ hs => hs) clearStep_movesSafe sampleFrm_movesSafe
    (fun s => movesSafe_of_sameBut (absenceTest_sameBut s) (by decide)) sampleCues_movesSafe (fun _ _ hs => hs) h frm c0 c1

theorem movesSafe_kept : Kept State.movesSafe where
  outside := movesSafe_reads.mono (by decide)
  reset _ _ := fun p => (reset_prog p).symm ▸ closed_moveSafe rfl
  request code body s h := takeRequest_keep (fun _ he => effect_movesSafe he h) (fun _ _ => h) (fun _ _ => h) code
  arrive l f ok s := movesSafe_of_sameBut (arrive_sameBut s l f ok) (by decide)
  discard s := movesSafe_of_sameBut (sameBut_trans (latch_sameBut s _) (count_sameBut _ _ _ _)) (by decide)
  blockEnd _ := takeBlockEnd_movesSafe
  sample _ frm c0 c1 hb _ := takeHouseSample_movesSafe hb frm c0 c1
  share s f hf := onSample_keep movesSafe_reads (by decide) (fun hs => by
    cases hf with
    | move p => exact moveStep_movesSafe p hs
    | gain p w => exact movesSafe_of_meters (gainStep_sameButMeters _ p w) hs
    | absent => exact movesSafe_of_sameBut (becomeAbsent_sameBut _) (by decide) hs
    | clear p _ => exact clearStep_movesSafe p _ hs)
  wait p _ := cueWaitStep_movesSafe p
  timer n s _ := movesSafe_of_sameBut (timerStep_sameBut s n) (by decide)
  contact _ _ h := h

/-- Settles O38: the law speaks of one programme at a time, and each operation of a move unit keeps it of its programme. -/
theorem stepsKeepTheMoveLaw : Obligations.StepsKeepTheMoveLaw := by
  unfold Obligations.StepsKeepTheMoveLaw
  exact fun _ _ hs h => movesSafe_kept.step hs h

end Sys2Proof.Machine
end

