-- ==== Sys2Proof/Proofs/Stages.lean ====
section
/-! PROOFS. What each stage of a block end reaches, and how a move unit arms and disarms its group (R89, R96, R101). -/

namespace Sys2Proof.Machine

variable {s t : State} {p : Fin 8}

/-! ### The stages of a block end -/

theorem endContacts_sameBut (s : State) : s.sameBut [.ref, .contacts] s.endContacts :=
  sameBut_trans (sameBut_mono (withRef_sameBut s _) (by decide))
    (forEach_sameBut _ _ _ (fun c t => unlessAhead_sameBut (sameBut_mono (contactStep_sameBut t c) (by decide))))

theorem endLinks_sameBut (s : State) : s.endContacts.sameBut (.links :: eventParts) s.endLinks :=
  forEach_sameBut _ _ _ (fun l t => linkBlockEnd_sameBut t l)

theorem endCounted_sameBut (s : State) : s.endLinks.sameBut eventParts s.endCounted :=
  sameBut_trans (count_sameBut _ _ _ _) (count_sameBut _ _ _ _)

theorem endProgs_sameBut (s : State) : s.endCounted.sameBut reportParts s.endProgs :=
  forEach_sameBut _ _ _ (fun p t => programmeBlockEnd_sameBut _ p t)

theorem endWaits_sameBut (s : State) : s.endProgs.resetFeeds.sameBut moveParts s.endWaits :=
  forEach_sameBut _ _ _ (fun p t => unlessAhead_sameBut (cueWaitStep_sameBut t p))

theorem stepTimers_sameBut (s : State) : s.sameBut eventParts s.stepTimers := by
  refine forEach_sameBut _ _ _ (fun n t => ?_)
  split
  · exact unlessAhead_sameBut (timerStep_sameBut t n)
  · exact sameBut_refl t _

/-- A block end up to the cue waits reaches the links, the programmes' meters and correctors, the contacts and what events reach. -/
theorem endProgs_of_start (s : State) : s.sameBut (.ref :: .links :: reportParts) s.endProgs :=
  sameBut_trans (sameBut_trans (sameBut_trans (sameBut_mono (endContacts_sameBut s) (by decide))
    (sameBut_mono (endLinks_sameBut s) (by decide))) (sameBut_mono (endCounted_sameBut s) (by decide)))
    (sameBut_mono (endProgs_sameBut s) (by decide))

/-- A block end leaves as feeding links those of the routes as they stand (R42). -/
theorem takeBlockEnd_feeds (s : State) : s.takeBlockEnd.feeds = s.resetFeeds.feeds := by
  have htimers : s.endWaits.feeds = s.endWaits.stepTimers.feeds := stepTimers_sameBut s.endWaits .feeds (by decide)
  have hwaits : s.endProgs.resetFeeds.feeds = s.endWaits.feeds := endWaits_sameBut s .feeds (by decide)
  have hroutes : s.routes = s.endProgs.routes := endProgs_of_start s .routes (by decide)
  rw [takeBlockEnd_eq]
  dsimp only
  rw [← htimers, ← hwaits]
  simp only [State.resetFeeds, hroutes]

/-! ### Waiting sets and arming (R94, R96, R101) -/

theorem mem_waiting (s : State) (g : Fin 4) (p : Fin 8) : p ∈ s.waiting g ↔
    (s.prog p).life.isClosed = false ∧ (s.prog p).group = some g ∧ (s.prog p).move.state.isCueWait = true := by
  simp only [State.waiting, State.members, List.mem_filter, List.mem_finRange, true_and, Bool.and_eq_true, Bool.not_eq_true', beq_iff_eq, and_assoc]

theorem waiting_congr (h : ∀ p, (t.prog p).life = (s.prog p).life ∧ (t.prog p).group = (s.prog p).group
    ∧ (t.prog p).move.state.isCueWait = (s.prog p).move.state.isCueWait) (g : Fin 4) : t.waiting g = s.waiting g := by
  have hm : t.members g = s.members g := by
    unfold State.members
    exact List.filter_congr fun p _ => by rw [(h p).1, (h p).2.1]
  unfold State.waiting
  rw [hm]
  exact List.filter_congr fun p _ => (h p).2.2

theorem waiting_of_progs (h : t.progs = s.progs) (g : Fin 4) : t.waiting g = s.waiting g :=
  waiting_congr (fun p => by rw [State.prog_congr h p]; exact ⟨rfl, rfl, rfl⟩) g

/-- A group is disarmed when the programme's wait was its last (R101). -/
theorem leftWaiting_group (s : State) (x : Option (Fin 4)) (g : Fin 4) :
    (s.leftWaiting x).group g = if x = some g ∧ s.waiting g = [] then { s.group g with armed := false } else s.group g := by
  cases x with
  | none => simp [State.leftWaiting]
  | some k =>
    unfold State.leftWaiting
    dsimp only
    by_cases hk : g = k
    · subst hk
      by_cases hw : s.waiting g = []
      · simp [hw]
      · simp [hw, List.isEmpty_iff]
    · have hk' : k ≠ g := fun h => hk h.symm
      split
      · rw [State.group_setGroup_ne s hk, if_neg (by simp [hk'])]
      · rw [if_neg (by simp [hk'])]

theorem armGroup_group (s : State) (k g : Fin 4) :
    (s.armGroup (some k)).group g = if k = g then { s.group g with armed := true } else s.group g := by
  by_cases hk : g = k
  · subst hk; simp [State.armGroup]
  · have hk' : k ≠ g := fun h => hk h.symm
    rw [if_neg hk']
    exact State.group_setGroup_ne s hk _

end Sys2Proof.Machine
end

