-- ==== Sys2Proof/Proofs/RouteRequests.lean ====
section
/-! PROOFS. ROUTE.SET: its checks, the route it stores and the links that feed a lane (R39 to R42). -/

namespace Sys2Proof.Machine

variable {s : State}

theorem takeRouteSet_pair (n : Fin 32) (l k : Fin 8) :
    takeRouteSet (byte1 n ++ [0x00] ++ byte1 l ++ byte1 k) s = ⟨s.setRoute n (.pair l k), .ok, []⟩ := by
  simp [takeRouteSet, byte1, readId_ofNat]

theorem takeRouteSet_unrouted (n : Fin 32) (a b : Byte) : takeRouteSet (byte1 n ++ [0x01, a, b]) s = ⟨s.setRoute n .unrouted, .ok, []⟩ := by
  simp [takeRouteSet, byte1, readId_ofNat]

theorem takeRouteSet_of_length_ne {body : List Byte} (h : body.length ≠ 4) : takeRouteSet body s = refuse s .malformed := by
  unfold takeRouteSet
  split
  · exact absurd rfl h
  · rfl

theorem takeRouteSet_of_bad_kind {n k a b : Byte} (h : 1 < k.toNat) : takeRouteSet [n, k, a, b] s = refuse s .malformed := by
  have hne (c : Byte) (hc : c.toNat ≤ 1) : k ≠ c := fun hk => by subst hk; omega
  simp only [takeRouteSet]
  rw [if_neg (hne 0x01 (by decide)), if_neg (hne 0x00 (by decide))]

theorem takeRouteSet_of_bad_lane {n k a b : Byte} (hk : k.toNat ≤ 1) (h : 32 ≤ n.toNat) : takeRouteSet [n, k, a, b] s = refuse s .range := by
  have hkind : k = 0x00 ∨ k = 0x01 := by
    rcases (by omega : k.toNat = 0 ∨ k.toNat = 1) with h | h
    · exact .inl (BitVec.eq_of_toNat_eq h)
    · exact .inr (BitVec.eq_of_toNat_eq h)
  rcases hkind with rfl | rfl
  · simp [takeRouteSet, readId_of_le h]
  · simp [takeRouteSet, readId_of_le h]

theorem takeRouteSet_of_bad_pair {n a b : Byte} (h : 8 ≤ a.toNat ∨ 8 ≤ b.toNat) : takeRouteSet [n, 0x00, a, b] s = refuse s .range := by
  rcases h with h | h
  · simp [takeRouteSet, readId_of_le h]
  · cases hn : readId 32 n <;> cases ha : readId 8 a <;> simp [takeRouteSet, readId_of_le h, hn, ha]

/-- UNROUTED takes no link away from those that fed the lane (R42). -/
theorem setRoute_unrouted_sameBut (s : State) (n : Fin 32) : s.sameBut [.routes] (s.setRoute n .unrouted) := by
  intro q hq
  cases q
  case routes => simp at hq
  case feeds => simp [Part.same, State.setRoute, feedWith]
  all_goals rfl

/-- Settles O20: a pair joins the links that fed its lane, UNROUTED takes none away, a block end begins them again from the routes. -/
theorem routeSetReplacesOneRoute : Obligations.RouteSetReplacesOneRoute := by
  unfold Obligations.RouteSetReplacesOneRoute
  refine fun s tag hs => ⟨fun n l k => ?_, fun n a b => ?_, fun u t hu he n j => ?_, fun body h => ?_, fun n k a b => ⟨fun h => ?_, fun hk h => ?_, fun h => ?_⟩⟩
  · refine completes_of_answer (r := ⟨tag, 0x12, _⟩) (a := ⟨_, _, _⟩) rfl (.inl hs) (takeRouteSet_pair n l k) ⟨?_, fun m hm => ⟨?_, ?_⟩, fun j => ?_, ?_⟩
    · exact State.route_setRoute _ n _
    · exact State.route_setRoute_ne _ hm _
    · exact setRoute_feeds_ne _ hm _
    · change j ∈ ((s.taking _).setRoute n (.pair l k)).feeds[n] ↔ _
      rw [setRoute_feeds, mem_feedWith]
      refine or_congr Iff.rfl ⟨fun ⟨k', h⟩ => (Route.pair.inj h).1.symm, fun h => ⟨k, by rw [h]⟩⟩
    · exact sameBut_of_take (by decide) (sameBut_mono (setRoute_sameBut _ n _) (by decide))
  · refine completes_of_answer (r := ⟨tag, 0x12, _⟩) (a := ⟨_, _, _⟩) rfl (.inl hs) (takeRouteSet_unrouted n a b) ⟨?_, fun m hm => ?_, ?_⟩
    · exact State.route_setRoute _ n _
    · exact State.route_setRoute_ne _ hm _
    · exact sameBut_of_take (by decide) (sameBut_mono (setRoute_unrouted_sameBut _ n) (by decide))
  · rw [exec_blockEnd hu, Host.Outcome.next.injEq] at he
    subst he
    rw [show u.takeBlockEnd.feeds[n] = u.resetFeeds.feeds[n] by rw [takeBlockEnd_feeds]]
    exact resetFeeds_mem u n j
  · exact refused_of_answer (r := ⟨tag, 0x12, _⟩) rfl (.inl hs) (takeRouteSet_of_length_ne h)
  · exact refused_of_answer (r := ⟨tag, 0x12, _⟩) rfl (.inl hs) (takeRouteSet_of_bad_kind h)
  · exact refused_of_answer (r := ⟨tag, 0x12, _⟩) rfl (.inl hs) (takeRouteSet_of_bad_lane hk h)
  · exact refused_of_answer (r := ⟨tag, 0x12, _⟩) rfl (.inl hs) (takeRouteSet_of_bad_pair h)

end Sys2Proof.Machine
end

