-- ==== Sys2Proof/Proofs/ProgrammeRequests.lean ====
section
/-! PROOFS. PROG.OPEN's body, checks and reply, PROG.CLOSE and PROG.GROUP (R46 to R48, R50, R58 to R60, R154, section 12.3). -/

namespace Sys2Proof.Machine

variable {s : State} {p : Fin 8}

/-! ### The body of PROG.OPEN (section 12.3) -/

theorem readOpt2_optField {w : Option Nat} (h : ∀ v, w = some v → v < 65536) (rest : List Byte) :
    readOpt2 (optField byte2 w ++ rest) = some (w, rest) := by
  cases w with
  | none => rfl
  | some v => simp [optField, byte2, readOpt2, nat2_byte2 (h v rfl)]

/-- The lane entries read back, with what follows them. -/
theorem readLaneEntries_flatMap {es : List (Byte × Option Nat)} (h : ∀ e ∈ es, ∀ w, e.2 = some w → w < 65536) (rest : List Byte) :
    readLaneEntries es.length (es.flatMap (fun e => e.1 :: optField byte2 e.2) ++ rest) = some (es, rest) := by
  induction es with
  | nil => rfl
  | cons e es ih =>
    have hread := readOpt2_optField (h e List.mem_cons_self) (es.flatMap (fun e => e.1 :: optField byte2 e.2) ++ rest)
    have hrest := ih (fun x hx => h x (List.mem_cons_of_mem _ hx))
    simp only [List.length_cons, List.flatMap_cons, List.cons_append, List.append_assoc, readLaneEntries, hread, hrest, Option.map_some]

/-- Settles O23: the entries by induction over the list, the fixed fields by their bytes. -/
theorem openBodyReadsBack : Obligations.OpenBodyReadsBack := by
  unfold Obligations.OpenBodyReadsBack
  intro p grp es dmax low high pol hes hw hd hl hh
  have hlen : (BitVec.ofNat 8 es.length).toNat = es.length := by rw [BitVec.toNat_ofNat]; exact Nat.mod_eq_of_lt hes
  have hread := readLaneEntries_flatMap hw (byte4 dmax ++ (byte4 low ++ (byte4 high ++ [reportPolicyCode pol, grp])))
  simp only [List.append_assoc, readOpen, hlen, hread]
  simp [byte4, nat4_byte4 hd, nat4_byte4 hl, nat4_byte4 hh]

/-! ### The numbers of PROG.OPEN (R46, R47) -/

theorem readId_eq_none_iff (n : Nat) (b : Byte) : readId n b = none ↔ n ≤ b.toNat := by
  unfold readId; split <;> simp <;> omega

theorem readId_eq_some {n : Nat} {b : Byte} {i : Fin n} (h : readId n b = some i) : i.val = b.toNat := by
  unfold readId at h
  split at h
  · rw [Option.some.injEq] at h; rw [← h]
  · cases h

theorem readGroup_eq_none_iff (b : Byte) : readGroup b = none ↔ 4 ≤ b.toNat ∧ b ≠ 0xFF := by
  unfold readGroup
  split
  · next h => subst h; simp
  · next h => rw [Option.map_eq_none_iff, readId_eq_none_iff]; exact ⟨fun h4 => ⟨h4, h⟩, And.left⟩

theorem readGroup_eq_some {b : Byte} {g : Option (Fin 4)} (h : readGroup b = some g) :
    (g = none ↔ b = 0xFF) ∧ ∀ k, g = some k → k.val = b.toNat := by
  unfold readGroup at h
  split at h
  · next hb => obtain rfl := Option.some.inj h; exact ⟨⟨fun _ => hb, fun _ => rfl⟩, (fun k hk => by cases hk)⟩
  · next hb =>
    obtain ⟨i, hi, rfl⟩ := Option.map_eq_some_iff.mp h
    exact ⟨⟨(fun h => by cases h), fun h => absurd h hb⟩, fun k hk => by obtain rfl := Option.some.inj hk; exact readId_eq_some hi⟩

/-- The lanes of a request that reads: each number with its weight clamped or defaulted (R47). -/
theorem mapM_laneWeight_eq_some {es : List (Byte × Option Nat)} {ls : List LaneWeight} (h : es.mapM laneWeight = some ls) :
    ls.map (fun lw => (lw.lane.val, lw.weight)) = es.map (fun e => (e.1.toNat, min 512 (e.2.getD 256))) := by
  induction es generalizing ls with
  | nil => obtain rfl := Option.some.inj h; rfl
  | cons e es ih =>
    rw [List.mapM_cons] at h
    obtain ⟨lw, hlw, h⟩ := Option.bind_eq_some_iff.mp h
    obtain ⟨lws, hlws, h⟩ := Option.bind_eq_some_iff.mp h
    obtain rfl : lw :: lws = ls := Option.some.inj h
    obtain ⟨i, hi, rfl⟩ := Option.map_eq_some_iff.mp hlw
    rw [List.map_cons, List.map_cons, ih hlws, readId_eq_some hi]
    simp [clampNat]

theorem mapM_laneWeight_eq_none_iff (es : List (Byte × Option Nat)) : es.mapM laneWeight = none ↔ ∃ e ∈ es, 32 ≤ e.1.toNat := by
  induction es with
  | nil => simp
  | cons e es ih =>
    rw [List.mapM_cons]
    by_cases he : 32 ≤ e.1.toNat
    · have : laneWeight e = none := by rw [laneWeight, (readId_eq_none_iff _ _).mpr he]; rfl
      simp [this, he]
    · obtain ⟨i, hi⟩ := Option.ne_none_iff_exists'.mp (fun h => he ((readId_eq_none_iff 32 e.1).mp h))
      have : laneWeight e = some ⟨i, clampNat 0 512 (e.2.getD 256)⟩ := by rw [laneWeight, hi]; rfl
      cases hm : es.mapM laneWeight with
      | none => simpa [this, he] using ih.mp hm
      | some ls =>
        have hall : ¬ ∃ e ∈ es, 32 ≤ e.1.toNat := fun h => by simp [ih.mpr h] at hm
        simpa [this, he] using hall

/-- The lane numbers of a request that reads are distinct as lanes exactly when they are as bytes. -/
theorem distinctLanes_iff {es : List (Byte × Option Nat)} {ls : List LaneWeight}
    (h : ls.map (fun lw => (lw.lane.val, lw.weight)) = es.map (fun e => (e.1.toNat, min 512 (e.2.getD 256)))) :
    distinctLanes ls = true ↔ (es.map Prod.fst).Nodup := by
  have hvals : (ls.map LaneWeight.lane).map Fin.val = (es.map Prod.fst).map BitVec.toNat := by
    have := congrArg (List.map Prod.fst) h
    simpa only [List.map_map, Function.comp_def] using this
  rw [distinctLanes, decide_eq_true_iff, ← List.nodup_map_iff Fin.val_injective, hvals,
    List.nodup_map_iff (fun a b hab => BitVec.eq_of_toNat_eq hab)]

theorem inRange_eq_none_iff (x : OpenRequest) : x.inRange? = none ↔ 8 ≤ x.programme.toNat ∨ x.entries.length = 0 ∨ 8 < x.entries.length
    ∨ (∃ e ∈ x.entries, 32 ≤ e.1.toNat) ∨ ¬ (x.entries.map Prod.fst).Nodup ∨ (4 ≤ x.group.toNat ∧ x.group ≠ 0xFF) ∨ 192000 < x.dmax := by
  unfold OpenRequest.inRange? OpenRequest.lanes?
  rw [← readId_eq_none_iff, ← mapM_laneWeight_eq_none_iff, ← readGroup_eq_none_iff]
  cases hp : readId 8 x.programme with
  | none => simp
  | some p =>
    cases hm : x.entries.mapM laneWeight with
    | none => simp
    | some ls =>
      cases hg : readGroup x.group with
      | none => simp
      | some g =>
        have hlanes := mapM_laneWeight_eq_some hm
        have hlen : ls.length = x.entries.length := by simpa using congrArg List.length hlanes
        simp only [ite_eq_right_iff, reduceCtorEq, imp_false, distinctLanes_iff hlanes, hlen, false_or]
        constructor
        · intro h
          by_contra hno
          simp only [not_or, not_not] at hno
          exact h ⟨by omega, by omega, hno.2.2.1, by omega⟩
        · rintro (h | h | h | h) ⟨h1, h2, h3, h4⟩
          · omega
          · omega
          · exact h h3
          · omega

theorem inRange_eq_some {x : OpenRequest} {ls : List LaneWeight} {g : Option (Fin 4)} (h : x.inRange? = some (p, ls, g)) :
    p.val = x.programme.toNat ∧ (g = none ↔ x.group = 0xFF) ∧ (∀ k, g = some k → k.val = x.group.toNat)
      ∧ ls.map (fun lw => (lw.lane.val, lw.weight)) = x.entries.map (fun e => (e.1.toNat, min 512 (e.2.getD 256))) := by
  unfold OpenRequest.inRange? at h
  split at h
  · next hp hm hg =>
    split at h
    · simp only [Option.some.injEq, Prod.mk.injEq] at h
      obtain ⟨rfl, rfl, rfl⟩ := h
      exact ⟨readId_eq_some hp, (readGroup_eq_some hg).1, (readGroup_eq_some hg).2, mapM_laneWeight_eq_some hm⟩
    · cases h
  · cases h

/-! ### What PROG.OPEN is answered (R46, R48) -/

theorem takeProgOpen_of_range {body : List Byte} {x : OpenRequest} (h : readOpen body = some x) (hr : x.inRange? = none) :
    takeProgOpen body s = refuse s .range := by simp only [takeProgOpen, h, hr]

theorem takeProgOpen_of_state {body : List Byte} {x : OpenRequest} {ls : List LaneWeight} {g : Option (Fin 4)} (h : readOpen body = some x)
    (hr : x.inRange? = some (p, ls, g)) (ht : (s.prog p).life.isClosed = false ∨ ∃ lw ∈ ls, s.laneTaken lw.lane = true) :
    takeProgOpen body s = refuse s .state := by
  have : (!(s.prog p).life.isClosed || ls.any (fun lw => s.laneTaken lw.lane)) = true := by
    rw [Bool.or_eq_true, Bool.not_eq_true', List.any_eq_true]; exact ht
  simp only [takeProgOpen, h, hr, this, if_true]

/-- Past its third stage PROG.OPEN asks the allocator (R46). -/
theorem takeProgOpen_allocates {body : List Byte} {x : OpenRequest} {ls : List LaneWeight} {g : Option (Fin 4)} (h : readOpen body = some x)
    (hr : x.inRange? = some (p, ls, g)) (hc : (s.prog p).life.isClosed = true) (hl : ∀ lw ∈ ls, s.laneTaken lw.lane = false) :
    takeProgOpen body s = match allocate s.freeList (pagesNeeded ls.length x.dmax) with
      | none => refuse s .noSpace
      | some (start, free) => ⟨s.opened x p ls g start free,
          okOrAdjusted (x.entries.any weightClamped || min x.high x.dmax != x.high || min x.low (min x.high x.dmax) != x.low),
          openRecord ⟨start, pagesNeeded ls.length x.dmax⟩ (min x.low (min x.high x.dmax)) (min x.high x.dmax)⟩ := by
  have : (!(s.prog p).life.isClosed || ls.any (fun lw => s.laneTaken lw.lane)) = false := by
    rw [hc, Bool.not_true, Bool.false_or, List.any_eq_false]; exact fun lw hlw => by rw [hl lw hlw]; decide
  simp only [takeProgOpen, h, hr, this, Bool.false_eq_true, if_false]
  rfl

theorem openAdjusted_iff (x : OpenRequest) :
    (x.entries.any weightClamped || min x.high x.dmax != x.high || min x.low (min x.high x.dmax) != x.low) = true
      ↔ (∃ e ∈ x.entries, 512 < e.2.getD 256) ∨ x.dmax < x.high ∨ min x.high x.dmax < x.low := by
  simp only [Bool.or_eq_true, List.any_eq_true, weightClamped, decide_eq_true_eq, bne_iff_ne, ne_eq, or_assoc]
  refine or_congr Iff.rfl (or_congr ?_ ?_) <;> omega

/-- Settles O22: the stages of the checks one by one; past them the allocator's grant is the programme's extent. -/
theorem progOpenChecksAndStartsClearing : Obligations.ProgOpenChecksAndStartsClearing := by
  unfold Obligations.ProgOpenChecksAndStartsClearing
  refine ⟨fun s tag body x p ls g start free hs hread hr hlife hl ha => ?_, fun s tag body hs => ⟨fun h => ?_, fun x hread => ⟨fun hr => ?_, fun p ls g hr =>
    ⟨fun ht => ?_, fun hc hl ha => ?_⟩⟩⟩, fun x => ⟨inRange_eq_none_iff x, fun p ls g h => inRange_eq_some h⟩⟩
  · have hanswer := (takeProgOpen_allocates (s := s.taking ⟨tag, 0x20, body⟩) hread hr (by rw [show (s.taking _).prog p = s.prog p from rfl, hlife]; rfl) hl).trans
      (by rw [show allocate (s.taking _).freeList (pagesNeeded ls.length x.dmax) = some (start, free) from ha])
    have hstatus := if_congr (openAdjusted_iff x) (Eq.refl Status.adjusted) (Eq.refl Status.ok)
    rw [← hstatus]
    refine completes_of_answer (r := ⟨tag, 0x20, body⟩) (a := ⟨_, _, _⟩) rfl (.inl hs) hanswer ⟨?_, rfl, fun k hk => ?_, ?_⟩
    · exact State.prog_setProg _ p _
    · exact State.prog_setProg_ne _ hk _
    · refine sameBut_of_take (by decide) (sameBut_mono (ps := [.progs, .freeList]) ?_ (by decide))
      intro q hq
      cases q <;> first | rfl | exact absurd (by decide) hq
  · exact refused_of_answer (r := ⟨tag, 0x20, _⟩) rfl (.inl hs) (show takeProgOpen body _ = _ by simp only [takeProgOpen, h])
  · exact refused_of_answer (r := ⟨tag, 0x20, _⟩) rfl (.inl hs) (takeProgOpen_of_range hread hr)
  · exact refused_of_answer (r := ⟨tag, 0x20, _⟩) rfl (.inl hs) (takeProgOpen_of_state hread hr ht)
  · refine refused_of_answer (r := ⟨tag, 0x20, body⟩) rfl (.inl hs) ((takeProgOpen_allocates (s := s.taking ⟨tag, 0x20, body⟩) hread hr hc hl).trans ?_)
    rw [show allocate (s.taking _).freeList (pagesNeeded ls.length x.dmax) = none from ha]

end Sys2Proof.Machine
end

