-- ==== Sys2Proof/Proofs/ProgrammeClose.lean ====
section
/-! PROOFS. PROG.CLOSE of a CLEARING and of a LIVE programme, and PROG.GROUP (R58 to R60, R154). -/

namespace Sys2Proof.Machine

variable {s : State} {p : Fin 8}

/-! ### The programme's sources (R154) -/

theorem closeSource_source (s : State) (n k : Fin 59) : (s.closeSource n).source k = if k = n then { s.source n with
    condition := false, timer := 0, qualified := false, pending := (s.source n).pending && !(s.source n).qualified } else s.source k := by
  by_cases h : k = n
  · subst h; rw [if_pos rfl]; exact State.source_setSource _ k _
  · rw [if_neg h]; exact State.source_setSource_ne _ h _

theorem closeSources_source (s : State) (p : Fin 8) (k : Fin 59) : (s.closeSources p).source k
    = if k ∈ [silenceSource p, loudHighSource p, loudLowSource p] then { s.source k with
        condition := false, timer := 0, qualified := false, pending := (s.source k).pending && !(s.source k).qualified } else s.source k := by
  have h1 : silenceSource p ≠ loudHighSource p := by simp [silenceSource, loudHighSource, Fin.ext_iff]
  have h2 : silenceSource p ≠ loudLowSource p := by simp [silenceSource, loudLowSource, Fin.ext_iff]
  have h3 : loudHighSource p ≠ loudLowSource p := by simp [loudHighSource, loudLowSource, Fin.ext_iff]
  simp only [State.closeSources, closeSource_source, List.mem_cons, List.not_mem_nil, or_false]
  by_cases hk1 : k = silenceSource p
  · subst hk1; simp [h1, h2]
  · by_cases hk2 : k = loudHighSource p
    · subst hk2; simp [h1.symm, h3]
    · by_cases hk3 : k = loudLowSource p
      · subst hk3; simp [h2.symm, h3.symm]
      · simp [hk1, hk2, hk3]

/-! ### PROG.CLOSE (R58, R59) -/

theorem takeProgClose_clearing {h : Held} {left k : Nat} (hl : (s.prog p).life = .clearing h left k) :
    takeProgClose (byte1 p) s = ⟨(s.setProg p (s.prog p).closedClearing).releaseExtent h.extent, .ok, []⟩ := by
  simp [takeProgClose, byte1, readId_ofNat, hl]

theorem takeProgClose_live {h : Held} {w : Nat} (hl : (s.prog p).life = .live h w) :
    takeProgClose (byte1 p) s = ⟨(s.closedLive p h.extent).closeSources p, .ok, []⟩ := by
  simp [takeProgClose, byte1, readId_ofNat, hl, State.closedLive, State.closeSources]

/-- What a close of a LIVE programme leaves up to its sources: the programme closed, its extent released, and its group disarmed of its
last waiting member (R59, R101). -/
theorem closedLive_facts (s : State) (p : Fin 8) (e : Extent) : (s.closedLive p e).prog p = (s.prog p).closedLive
    ∧ s.otherProgs p (s.closedLive p e) ∧ (s.closedLive p e).freeList = release s.freeList e
    ∧ (∀ g, (s.closedLive p e).group g = if (s.prog p).group = some g ∧ (s.prog p).move.state.isCueWait = true ∧ (s.closedLive p e).waiting g = [] then
        { s.group g with armed := false } else s.group g)
    ∧ s.sameBut [.progs, .freeList, .groups] (s.closedLive p e) := by
  have hrel : s.sameBut [.progs, .freeList] ((s.setProg p (s.prog p).closedLive).releaseExtent e) := closeProgramme_sameBut s p _ e
  unfold State.closedLive
  split
  · next hc =>
    have hprogs := (leftWaiting_sameBut ((s.setProg p (s.prog p).closedLive).releaseExtent e) (s.prog p).group .progs (by decide)).symm
    refine ⟨(prog_leftWaiting _ _ p).trans (State.prog_setProg s p _), fun k hk => (prog_leftWaiting _ _ k).trans (State.prog_setProg_ne s hk _),
      (leftWaiting_sameBut _ _ .freeList (by decide)).symm, fun g => ?_, ?_⟩
    · rw [leftWaiting_group, waiting_of_progs hprogs, hc]
      simp only [true_and]
      rfl
    · exact sameBut_trans (sameBut_mono hrel (by decide)) (sameBut_mono (leftWaiting_sameBut _ _) (by decide))
  · next hc =>
    refine ⟨State.prog_setProg s p _, fun k hk => State.prog_setProg_ne s hk _, rfl, fun g => ?_, sameBut_mono hrel (by decide)⟩
    rw [if_neg (fun h => hc h.2.1)]
    rfl

/-! ### PROG.GROUP (R60) -/

theorem takeProgGroup_of_open {g : Option (Fin 4)} (hc : (s.prog p).life.isClosed = false) (hw : (s.prog p).move.state.isCueWait = false) :
    takeProgGroup (byte1 p ++ [groupCode g]) s = ⟨s.setProg p { s.prog p with group := g }, .ok, []⟩ := by
  simp [takeProgGroup, byte1, readId_ofNat, hc, hw]

theorem takeProgGroup_of_state {g : Option (Fin 4)} (h : (s.prog p).life.isClosed = true ∨ (s.prog p).move.state.isCueWait = true) :
    takeProgGroup (byte1 p ++ [groupCode g]) s = refuse s .state := by
  rw [← Bool.or_eq_true] at h
  simp [takeProgGroup, byte1, readId_ofNat, h]

theorem takeProgGroup_of_bad_group {a b : Byte} (h : 4 ≤ b.toNat) (hne : b ≠ 0xFF) : takeProgGroup [a, b] s = refuse s .range := by
  have hg := (readGroup_eq_none_iff b).mpr ⟨h, hne⟩
  cases ha : readId 8 a <;> simp only [takeProgGroup, ha, hg]

theorem takeProgGroup_of_bad_programme {a b : Byte} (h : 8 ≤ a.toNat) : takeProgGroup [a, b] s = refuse s .range := by
  simp only [takeProgGroup, readId_of_le h]

theorem takeProgGroup_of_length_ne {body : List Byte} (h : body.length ≠ 2) : takeProgGroup body s = refuse s .malformed := by
  unfold takeProgGroup
  split
  · exact absurd rfl h
  · rfl

/-- Settles O24: a close writes the programme's record, gives its extent back and, LIVE, ends its wait and closes its three level
sources; PROG.GROUP writes the group. -/
theorem progCloseAndGroupActOnTheProgramme : Obligations.ProgCloseAndGroupActOnTheProgramme := by
  unfold Obligations.ProgCloseAndGroupActOnTheProgramme
  refine ⟨fun s tag p h hs => ⟨fun left k hl => ?_, fun w hl => ?_⟩, fun s tag p g hs => ⟨fun hc hw => ?_, fun h => ?_, fun b h hne => ?_, fun a b h => ?_, fun body h => ?_⟩⟩
  · refine completes_of_answer (r := ⟨tag, 0x21, byte1 p⟩) (a := ⟨_, _, _⟩) rfl (.inl hs) (takeProgClose_clearing (s := s.taking _) hl) ?_
    have hp := State.prog_setProg (s.taking ⟨tag, 0x21, byte1 p⟩) p (s.prog p).closedClearing
    refine ⟨congrArg Programme.life hp, congrArg Programme.group hp, rfl, fun k hk => State.prog_setProg_ne _ hk _, ?_⟩
    exact sameBut_of_take (by decide) (sameBut_mono (closeProgramme_sameBut _ p _ _) (by decide))
  · refine completes_of_answer (r := ⟨tag, 0x21, byte1 p⟩) (a := ⟨_, _, _⟩) rfl (.inl hs) (takeProgClose_live (s := s.taking _) hl) ?_
    obtain ⟨hp, ho, hfree, hgroup, hsame⟩ := closedLive_facts (s.taking ⟨tag, 0x21, byte1 p⟩) p h.extent
    have hclose := closeSources_sameBut ((s.taking ⟨tag, 0x21, byte1 p⟩).closedLive p h.extent) p
    have hprog := (prog_of_sameBut hclose (by decide) p).trans hp
    have hsource (n : Fin 59) := (closeSources_source ((s.taking ⟨tag, 0x21, byte1 p⟩).closedLive p h.extent) p n)
    simp only [State.source_congr (hsame .sources (by decide)).symm] at hsource
    refine ⟨congrArg Programme.life hprog, congrArg Programme.group hprog, (hclose .freeList (by decide)).symm.trans hfree,
      congrArg Programme.move hprog, congrArg Programme.gain hprog, congrArg Programme.meter hprog, fun n hn => (hsource n).trans (if_pos hn),
      fun n hn => (hsource n).trans (if_neg hn), fun g => ?_, fun k hk => (prog_of_sameBut hclose (by decide) k).trans (ho k hk), ?_⟩
    · refine (State.group_congr (hclose .groups (by decide)).symm g).trans ((hgroup g).trans ?_)
      rw [← waiting_of_progs (hclose .progs (by decide)).symm g]
      rfl
    · exact sameBut_of_take (by decide) (sameBut_trans (sameBut_mono hsame (by decide)) (sameBut_mono hclose (by decide)))
  · exact completes_of_setProg (r := ⟨tag, 0x23, _⟩) rfl hs (takeProgGroup_of_open hc hw)
  · exact refused_of_answer (r := ⟨tag, 0x23, _⟩) rfl (.inl hs) (takeProgGroup_of_state h)
  · exact refused_of_answer (r := ⟨tag, 0x23, _⟩) rfl (.inl hs) (takeProgGroup_of_bad_group h hne)
  · exact refused_of_answer (r := ⟨tag, 0x23, _⟩) rfl (.inl hs) (takeProgGroup_of_bad_programme h)
  · exact refused_of_answer (r := ⟨tag, 0x23, _⟩) rfl (.inl hs) (takeProgGroup_of_length_ne h)

end Sys2Proof.Machine
end

