-- ==== Sys2Proof/Proofs/PageClearing.lean ====
section
/-! PROOFS. PAGE_CLEAR_STEP: the next page from the lowest, and the last one LIVE (R52, R53). -/

namespace Sys2Proof.Machine

variable {s : State} {p : Fin 8}

/-- The sixth house sample clears the next page from the lowest (R52, R53). -/
theorem clearStep_of_due {h : Held} {left k : Nat} (hl : (s.prog p).life = .clearing h left k) (hk : 5 ≤ k) :
    s.clearStep p = State.setLife { s with mem := clearPage s.mem (h.extent.start + (h.extent.len - left)) } p
      (if left ≤ 1 then .live h 0 else .clearing h (left - 1) 0) := by
  unfold State.clearStep
  rw [hl]
  dsimp only
  rw [if_neg (by omega)]
  split <;> rfl

/-- Before it the house sample is counted. -/
theorem clearStep_of_not_due {h : Held} {left k : Nat} (hl : (s.prog p).life = .clearing h left k) (hk : k < 5) :
    s.clearStep p = s.setLife p (.clearing h left (k + 1)) := by
  unfold State.clearStep
  rw [hl]
  dsimp only
  rw [if_pos (by omega)]

/-- Settles O29: the share of a programme whose sixth house sample is due clears its page, and before it the row does nothing. -/
theorem pageClearStepClearsTheNextPage : Obligations.PageClearStepClearsTheNextPage := by
  unfold Obligations.PageClearStepClearsTheNextPage
  intro s p h left k hdue ha hl
  have hexec : exec (.pageClearStep p) s = execPageClearStep p s := rfl
  have hcount : (s.prog p).life.clearsNext = decide (6 ≤ k + 1) := by rw [hl]; rfl
  rw [hexec, execPageClearStep, hdue, ha, hcount]
  refine ⟨fun hk hext hleft => ?_, fun hk => ?_⟩
  · have hin : (s.prog p).life.extentInside = true := by
      rw [hl]; simp only [Life.extentInside, Bool.and_eq_true, decide_eq_true_eq]; exact ⟨hext, hleft⟩
    rw [if_pos (by simpa using hk), if_pos hin]
    refine ⟨_, rfl, ?_⟩
    have hstep := clearStep_of_due (s := { s with ref := s.ref.tick }) hl hk
    rw [onSample_eq (by rw [hstep]; rfl), hstep]
    refine ⟨State.prog_setProg _ p _, fun a hpage => ?_, fun a hpage => ?_, fun j hj => State.prog_setProg_ne _ hj _, ?_⟩
    · exact (readWord_clearPage s.mem _ a).trans (if_pos hpage)
    · exact (readWord_clearPage s.mem _ a).trans (if_neg hpage)
    · intro q hq
      cases q <;> first | rfl | simp at hq
  · rw [if_neg (by simpa using hk)]

end Sys2Proof.Machine
end

