-- ==== Sys2Proof/Proofs/MoveDurations.lean ====
section
/-! PROOFS. How long a GLIDE and a FADE last (R73, R74): the run of a move step by step. -/

namespace Sys2Proof.Machine

/-! ### A GLIDE (R74) -/

theorem glideStep_bounds {rate : Nat} (h0 : 1 ≤ rate) (h1 : rate ≤ 480) :
    glideStep rate = (2 * (rate * 65536) + 4800) / 9600 ∧ 1 ≤ glideStep rate ∧ glideStep rate ≤ 65536 := by
  have heq : glideStep rate = (2 * (rate * 65536) + 4800) / 9600 := rfl
  rw [heq]
  exact ⟨rfl, by omega, by omega⟩

/-- One step of a moving GLIDE. -/
theorem stepOnce_glide {r : MoveRecord} {rate : Nat} (hr : r.kind = .glide rate) (i pos : Nat) (ph : Phase) (k : Nat) :
    stepOnce i ⟨.moving r ph k, pos, none⟩ = ⟨.moving r ph k, glideTo pos (r.target * 65536) (glideStep rate),
      if glideTo pos (r.target * 65536) (glideStep rate) = r.target * 65536 then some (i, .reached) else none⟩ := by
  simp only [stepOnce, stepRecord, hr]
  split <;> rfl

/-- Where a GLIDE stands behind a distance made good (R74). -/
def glideAt (pos goal made : Nat) : Nat := if pos ≤ goal then pos + made else pos - made

/-- The distance still to go is the distance less what is made good. -/
theorem glideTo_glideAt {pos goal made step : Nat} (h : made + step ≤ max goal pos - min goal pos) :
    glideTo (glideAt pos goal made) goal step = glideAt pos goal (made + step) := by
  unfold glideTo glideAt; split_ifs <;> omega

theorem glideTo_ends {pos goal made step : Nat} (h0 : made ≤ max goal pos - min goal pos) (h1 : max goal pos - min goal pos ≤ made + step) :
    glideTo (glideAt pos goal made) goal step = goal := by
  unfold glideTo glideAt; split_ifs <;> omega

theorem glideAt_ne {pos goal made : Nat} (h : made < max goal pos - min goal pos) : glideAt pos goal made ≠ goal := by
  unfold glideAt; split_ifs <;> omega

/-- The number of steps is the least whole number of them that covers the distance, and at least 1. -/
theorem steps_facts {d s n : Nat} (hs : 1 ≤ s) (hn : n = max 1 ((d + s - 1) / s)) : 1 ≤ n ∧ d ≤ n * s ∧ ∀ j, 0 < j → j < n → j * s < d := by
  have hdiv := Nat.div_add_mod (d + s - 1) s
  have hmod := Nat.mod_lt (d + s - 1) hs
  rw [Nat.mul_comm] at hdiv
  have hcover : d ≤ (d + s - 1) / s * s := by omega
  refine ⟨by omega, hcover.trans (Nat.mul_le_mul_right s (by omega)), fun j h0 hj => ?_⟩
  have hj' : (j + 1) * s ≤ (d + s - 1) / s * s := Nat.mul_le_mul_right s (by omega)
  rw [Nat.succ_mul] at hj'
  omega

section
variable {r : MoveRecord} {rate pos n d s : Nat} {ph : Phase} {k : Nat}

/-- Short of its last step a GLIDE stands a whole number of steps from where it began. -/
theorem runMove_glide (hr : r.kind = .glide rate) (hs : s = glideStep rate) (hs1 : 1 ≤ s)
    (hd : d = max (r.target * 65536) pos - min (r.target * 65536) pos) (hn : n = max 1 ((d + s - 1) / s)) {j : Nat} (hj : j < n) :
    runMove j ⟨.moving r ph k, pos, none⟩ = ⟨.moving r ph k, glideAt pos (r.target * 65536) (j * s), none⟩ := by
  induction j with
  | zero => simp [runMove, glideAt]
  | succ j ih =>
    have hlt := (steps_facts hs1 hn).2.2 (j + 1) (by omega) hj
    rw [Nat.succ_mul] at hlt
    rw [runMove, ih (by omega), stepOnce_glide hr, ← hs, glideTo_glideAt (by omega), ← Nat.succ_mul, if_neg (glideAt_ne (by rw [Nat.succ_mul]; omega))]

/-- At its last step a GLIDE ends at its target. -/
theorem runMove_glide_end (hr : r.kind = .glide rate) (hs : s = glideStep rate) (hs1 : 1 ≤ s)
    (hd : d = max (r.target * 65536) pos - min (r.target * 65536) pos) (hn : n = max 1 ((d + s - 1) / s)) :
    runMove n ⟨.moving r ph k, pos, none⟩ = ⟨.moving r ph k, r.target * 65536, some (n, .reached)⟩ := by
  obtain ⟨h1, hcover, hshort⟩ := steps_facts hs1 hn
  obtain ⟨j, rfl⟩ : ∃ j, n = j + 1 := ⟨n - 1, by omega⟩
  have hmade : j * s ≤ d := by
    rcases Nat.eq_zero_or_pos j with rfl | h0
    · omega
    · exact (hshort j h0 (by omega)).le
  rw [Nat.succ_mul] at hcover
  rw [runMove, runMove_glide hr hs hs1 hd hn (by omega), stepOnce_glide hr, ← hs, glideTo_ends (by omega) (by omega), if_pos rfl]

end

/-! ### A FADE (R73) -/

section
variable {r : MoveRecord} {f : Nat}

theorem stepOnce_fadeOut (hr : r.kind = .fade f) (i pos j : Nat) :
    stepOnce i ⟨.moving r .fadeOut (j + 1), pos, none⟩ = ⟨.moving r .fadeOut j, pos, none⟩ := by
  simp [stepOnce, stepRecord, hr]

theorem stepOnce_turn (hr : r.kind = .fade f) (i pos : Nat) :
    stepOnce i ⟨.moving r .fadeOut 0, pos, none⟩ = ⟨.moving r .fadeIn 1, r.target * 65536, if f ≤ 1 then some (i, .reached) else none⟩ := by
  simp only [stepOnce, stepRecord, hr, lt_irrefl, if_false]
  split <;> rfl

theorem stepOnce_fadeIn (hr : r.kind = .fade f) (i pos j : Nat) :
    stepOnce i ⟨.moving r .fadeIn j, pos, none⟩ = ⟨.moving r .fadeIn (j + 1), pos, if f ≤ j + 1 then some (i, .reached) else none⟩ := by
  simp only [stepOnce, stepRecord, hr]
  split <;> rfl

theorem startState_fade (hr : r.kind = .fade f) : startState r = .moving r .fadeOut f := by simp only [startState, hr]

/-- The way out: the fade position falls by one a step and the delay stands. -/
theorem runMove_fadeOut (hr : r.kind = .fade f) (pos : Nat) {j : Nat} (hj : j ≤ f) :
    runMove j ⟨startState r, pos, none⟩ = ⟨.moving r .fadeOut (f - j), pos, none⟩ := by
  induction j with
  | zero => rw [startState_fade hr]; rfl
  | succ j ih => rw [runMove, ih (by omega), show f - j = f - (j + 1) + 1 by omega, stepOnce_fadeOut hr]

/-- The way in: from the turn on the delay is the target and the fade position rises by one a step. -/
theorem runMove_fadeIn (hr : r.kind = .fade f) (pos : Nat) {j : Nat} (h0 : f < j) (hj : j ≤ 2 * f) :
    runMove j ⟨startState r, pos, none⟩ = ⟨.moving r .fadeIn (j - f), r.target * 65536, if 2 * f ≤ j then some (j, .reached) else none⟩ := by
  induction j with
  | zero => omega
  | succ j ih =>
    rcases Nat.lt_or_ge f j with hlt | hge
    · rw [runMove, ih hlt (by omega), if_neg (by omega), stepOnce_fadeIn hr, show j - f + 1 = j + 1 - f by omega]
      congr 1
      exact if_congr (by omega) rfl rfl
    · obtain rfl : j = f := by omega
      rw [runMove, runMove_fadeOut hr pos (le_refl _), Nat.sub_self, stepOnce_turn hr, show j + 1 - j = 1 by omega]
      congr 1
      exact if_congr (by omega) rfl rfl

end

/-- Settles O37: by induction over the steps of the run, a GLIDE a whole number of steps on its way, a FADE at its fade position. -/
theorem glidesAndFadesLastAsLongAsStated : Obligations.GlidesAndFadesLastAsLongAsStated := by
  unfold Obligations.GlidesAndFadesLastAsLongAsStated
  refine ⟨fun r rate pos ph k hr h0 h1 s d n hs hd hn => ?_, fun r f pos hr h1 => ⟨fun j hj => runMove_fadeOut hr pos hj, fun j h0 hj => ?_, ?_⟩⟩
  · obtain ⟨hstep, hs1, hs2⟩ := glideStep_bounds h0 h1
    rw [← hstep] at hs
    subst hs
    have hend := runMove_glide_end (ph := ph) (k := k) hr rfl hs1 hd hn
    refine ⟨fun j hj => ⟨by rw [runMove_glide hr rfl hs1 hd hn hj], ?_⟩, by rw [hend], by rw [hend]⟩
    have hnow := runMove_glide (ph := ph) (k := k) hr rfl hs1 hd hn hj
    have hnext : (runMove (j + 1) ⟨.moving r ph k, pos, none⟩).pos = glideTo (glideAt pos (r.target * 65536) (j * glideStep rate)) (r.target * 65536) (glideStep rate) := by
      rw [runMove, hnow, stepOnce_glide hr]
    rw [hnext, hnow]
    generalize glideAt pos (r.target * 65536) (j * glideStep rate) = at'
    unfold glideTo
    dsimp only
    split_ifs <;> omega
  · rw [runMove_fadeIn hr pos h0 hj.le, if_neg (by omega)]
  · rw [runMove_fadeIn hr pos (by omega) (le_refl _), if_pos (le_refl _), show 2 * f - f = f by omega]

end Sys2Proof.Machine
end

