-- ==== Sys2Proof/Proofs/MoveEvents.lean ====
section
/-! PROOFS. The events each operation of a move unit sends and the group it arms, as functions of its programme (R70, R71, R83, R84,
R96, R101). -/

namespace Sys2Proof.Machine

variable {s t : State} {p : Fin 8}

/-! ### The slots (R83) -/

theorem written_eq_reported (u : MoveUnit) (y : Report) : u.written y = u.reported y := by
  unfold MoveUnit.written MoveUnit.reported
  rcases hr : u.reports with _ | ⟨a, _ | ⟨b, l⟩⟩
  · simp
  · simp
  · simp [satInc_eq]

/-! ### What an operation sends -/

/-- The counting events of a move unit's operation, and how many latched events its MOVE source takes. -/
abbrev MoveSent : Type := List Sent × Nat

/-- A move that ends sends REPORT_LOST for a report replaced and MOVE_DONE, and, unless REACHED, the latched event (R71, R83, R84). -/
def Programme.endSent (x : Programme) (p : Fin 8) (o : MoveOutcome) : MoveSent :=
  (x.move.lossSent p ++ [(.moveDone, some p, 1)], if o = .reached then 0 else 1)

def MoveSent.append (a b : MoveSent) : MoveSent := (a.1 ++ b.1, a.2 + b.2)

def Programme.enteredSent (x : Programme) (p : Fin 8) (r : MoveRecord) : MoveSent :=
  if x.policy = .block ∧ 2 ≤ x.move.reports.length then ([], 0)
  else if r.cued then
    match x.group with
    | none => x.endSent p .cueMissed
    | some _ => ([], 0)
  else ([], 0)

def Programme.followedSent (x : Programme) (p : Fin 8) : MoveSent :=
  match x.move.staged with
  | .committed c => x.unstaged.enteredSent p c
  | .empty => ([], 0)
  | .draft _ => ([], 0)

def Programme.endedSent (x : Programme) (p : Fin 8) (r : MoveRecord) (o : MoveOutcome) (time : Stamp) : MoveSent :=
  (x.endSent p o).append ((x.withMove (x.move.written (reportOf r o x.move.dcur time))).followedSent p)

def Programme.steppedSent (x : Programme) (p : Fin 8) (time : Stamp) : MoveSent :=
  match x.move.state with
  | .moving r ph k =>
    match (stepRecord r ph k x.move.pos).ends with
    | none => ([], 0)
    | some o => (x.withMove { x.move with pos := (stepRecord r ph k x.move.pos).pos, state := (stepRecord r ph k x.move.pos).state }).endedSent p r o time
  | .still => ([], 0)
  | .cueWait _ _ => ([], 0)
  | .readWait _ _ => ([], 0)
  | .halted _ => ([], 0)

def Programme.waitedSent (x : Programme) (p : Fin 8) (timeout : Nat) : MoveSent :=
  match x.move.state with
  | .cueWait _ k => if timeout ≤ k + 1 then x.endSent p .cueMissed else ([], 0)
  | .still => ([], 0)
  | .moving _ _ _ => ([], 0)
  | .readWait _ _ => ([], 0)
  | .halted _ => ([], 0)

/-- A programme that takes a hold ends its current move: a GLIDE, a CUE_WAIT, or a FADE at its starting sample (R76 to R78). -/
def Programme.holdEnds (x : Programme) : Option MoveOutcome :=
  match x.move.state with
  | .moving r ph k =>
    match r.kind with
    | .jump => none
    | .glide _ => some .halted
    | .fade f =>
      match ph with
      | .fadeOut => if f ≤ k then some .halted else none
      | .fadeIn => none
      | .fadeBack => none
      | .none => none
  | .cueWait _ _ => some .cancelled
  | .still => none
  | .readWait _ _ => none
  | .halted _ => none

/-- A hold of an undecided READ_WAIT decides it (R80). -/
def Programme.holdDecides (x : Programme) : Bool :=
  match x.move.state with
  | .readWait _ none => true
  | .readWait _ (some _) => false
  | .still => false
  | .moving _ _ _ => false
  | .cueWait _ _ => false
  | .halted _ => false

def Programme.heldSent (x : Programme) (p : Fin 8) : MoveSent :=
  match x.holdEnds with
  | some o => x.endSent p o
  | none => if x.holdDecides then ([(.moveDone, some p, 1)], 1) else ([], 0)

/-! ### The operations send so -/

/-- The operation sends these counting events and so many latched events to the programme's MOVE source. -/
abbrev SendsMove (a : MoveSent) (p : Fin 8) (s t : State) : Prop := Sends a.1 (List.replicate a.2 (moveSource p)) s t

theorem SendsMove.append {a b : MoveSent} {u : State} (h : SendsMove a p s t) (k : SendsMove b p t u) : SendsMove (a.append b) p s u := by
  unfold SendsMove MoveSent.append
  rw [List.replicate_add]
  exact Sends.trans h k

theorem sendsMove_of_sameBut {ps : List Part} (h : s.sameBut ps t) (hp : ∀ x ∈ sendingParts, x ∉ ps := by decide) : SendsMove ([], 0) p s t :=
  sends_of_sameBut h hp

theorem endEvents_sends (s : State) (p : Fin 8) (y : Report) (o : MoveOutcome) :
    SendsMove ((s.prog p).endSent p o) p s ((s.writeReport p y).moveEvents p o) := by
  have h := (writeReport_sends s p y).trans (moveEvents_sends _ p o)
  unfold SendsMove Programme.endSent
  by_cases ho : o = .reached
  · rw [if_pos ho] at h ⊢; exact h
  · rw [if_neg ho] at h ⊢; exact h

theorem endMissed_sendsMove (s : State) (p : Fin 8) (r : MoveRecord) : SendsMove ((s.prog p).endSent p .cueMissed) p s (s.endMissed p r) :=
  (endEvents_sends s p _ .cueMissed).before (setMove_sameBut _ p _)

theorem enterRecord_sends (s : State) (p : Fin 8) (r : MoveRecord) : SendsMove ((s.prog p).enteredSent p r) p s (s.enterRecord p r) := by
  unfold State.enterRecord Programme.enteredSent
  dsimp only
  split
  · exact sendsMove_of_sameBut (setMove_sameBut s p _)
  · split
    · cases (s.prog p).group with
      | none => exact endMissed_sendsMove s p r
      | some g => exact (sendsMove_of_sameBut (p := p) (setMove_sameBut s p _)).before (armGroup_sameBut _ _)
    · exact sendsMove_of_sameBut (setMove_sameBut s p _)

theorem afterEnd_sends (s : State) (p : Fin 8) (r : MoveRecord) (o : MoveOutcome) :
    SendsMove ((s.prog p).followedSent p) p s (s.afterEnd p r o) := by
  have henter (c : MoveRecord) : SendsMove ((s.prog p).unstaged.enteredSent p c) p s ((s.setStaged p .empty).enterRecord p c) := by
    have h := enterRecord_sends (s.setStaged p .empty) p c
    rw [prog_setStaged] at h
    exact h.behind (setMove_sameBut s p _)
  unfold State.afterEnd Programme.followedSent
  cases (s.prog p).move.staged with
  | committed c => exact henter c
  | empty => exact sendsMove_of_sameBut (setMove_sameBut s p _)
  | draft d => exact sendsMove_of_sameBut (setMove_sameBut s p _)

theorem endMove_sends (s : State) (p : Fin 8) (r : MoveRecord) (o : MoveOutcome) :
    SendsMove ((s.prog p).endedSent p r o s.ref.hsc) p s (s.endMove p r o) := by
  have hafter := afterEnd_sends ((s.writeReport p (reportOf r o (s.prog p).move.dcur s.ref.hsc)).moveEvents p o) p r o
  rw [prog_moveEvents, prog_writeReport] at hafter
  exact SendsMove.append (endEvents_sends s p _ o) hafter

theorem moveStep_sends (s : State) (p : Fin 8) : SendsMove ((s.prog p).steppedSent p s.ref.hsc) p s (s.moveStep p) := by
  unfold State.moveStep Programme.steppedSent
  dsimp only
  cases (s.prog p).move.state with
  | moving r ph k =>
    dsimp only
    cases (stepRecord r ph k (s.prog p).move.pos).ends with
    | none => exact sendsMove_of_sameBut (setMove_sameBut s p _)
    | some o =>
      have h := endMove_sends (s.setMove p { (s.prog p).move with
        pos := (stepRecord r ph k (s.prog p).move.pos).pos, state := (stepRecord r ph k (s.prog p).move.pos).state }) p r o
      rw [prog_setMove] at h
      exact h.behind (setMove_sameBut s p _)
  | still => exact sends_refl s
  | cueWait _ _ => exact sends_refl s
  | readWait _ _ => exact sends_refl s
  | halted _ => exact sends_refl s

theorem cueWaitStep_sends (s : State) (p : Fin 8) :
    SendsMove ((s.prog p).waitedSent p (s.timeoutOf (s.prog p).group)) p s (s.cueWaitStep p) := by
  unfold State.cueWaitStep Programme.waitedSent State.cueTimesOut
  cases (s.prog p).move.state with
  | cueWait r k =>
    dsimp only
    by_cases h : s.timeoutOf (s.prog p).group ≤ k + 1
    · rw [if_pos (decide_eq_true h), if_pos h]; exact (endMissed_sendsMove s p r).before (leftWaiting_sameBut _ _)
    · rw [if_neg h, if_neg (by simpa using h)]; exact sendsMove_of_sameBut (setMove_sameBut s p _)
  | still => exact sends_refl s
  | moving _ _ _ => exact sends_refl s
  | readWait _ _ => exact sends_refl s
  | halted _ => exact sends_refl s

/-- With nothing staged nothing follows a move's end. -/
theorem endedSent_of_unstaged {x : Programme} (h : x.move.staged = .empty) (r : MoveRecord) (o : MoveOutcome) (time : Stamp) :
    x.endedSent p r o time = x.endSent p o := by
  have hst : (x.withMove (x.move.written (reportOf r o x.move.dcur time))).move.staged = .empty := by
    obtain ⟨l, n, hu, -⟩ := written_eq x.move (reportOf r o x.move.dcur time)
    rw [hu]; exact h
  unfold Programme.endedSent Programme.followedSent
  rw [hst]
  simp [MoveSent.append]

theorem hold_sends (s : State) (p : Fin 8) : SendsMove ((s.prog p).heldSent p) p s (s.hold p) := by
  have hunstaged : (s.setStaged p .empty).prog p = (s.prog p).unstaged := prog_setStaged s p _
  have hsame : (s.prog p).heldSent p = (s.prog p).unstaged.heldSent p := rfl
  have hempty : ((s.setStaged p .empty).prog p).move.staged = .empty := by rw [hunstaged]; rfl
  unfold State.hold
  rw [hsame, ← hunstaged]
  refine Sends.behind ?_ (setMove_sameBut s p { (s.prog p).move with staged := .empty })
  change SendsMove (((s.setStaged p .empty).prog p).heldSent p) p (s.setStaged p .empty) _
  generalize s.setStaged p .empty = u at hempty
  dsimp only
  have ends (v : State) (r : MoveRecord) (o : MoveOutcome) (hv : (v.prog p).move.staged = .empty) :
      SendsMove ((v.prog p).endSent p o) p v (v.endMove p r o) := by
    have := endMove_sends v p r o
    rwa [endedSent_of_unstaged hv] at this
  unfold Programme.heldSent Programme.holdEnds Programme.holdDecides
  cases hs : (u.prog p).move.state with
  | still => exact sends_refl u
  | halted _ => exact sends_refl u
  | moving r ph k =>
    dsimp only
    unfold State.holdMoving
    cases r.kind with
    | jump => exact sends_refl u
    | glide v =>
      have h := ends (u.setMove p { (u.prog p).move with pos := (u.prog p).move.dcur * 65536 }) r .halted (by rw [prog_setMove]; exact hempty)
      rw [prog_setMove] at h
      exact h.behind (setMove_sameBut u p _)
    | fade f =>
      cases ph with
      | fadeOut =>
        dsimp only
        by_cases hf : f ≤ k
        · rw [if_pos hf, if_pos hf]; exact ends u r .halted hempty
        · rw [if_neg hf, if_neg hf]; exact sendsMove_of_sameBut (setMove_sameBut u p _)
      | fadeIn => exact sends_refl u
      | fadeBack => exact sends_refl u
      | none => exact sends_refl u
  | cueWait r k => exact (ends u r .cancelled hempty).before (leftWaiting_sameBut _ _)
  | readWait r d =>
    cases d with
    | none => exact (moveEvents_sends (u.setMoveState p _) p .cancelled).behind (setMove_sameBut u p _)
    | some d => exact sends_refl u

/-! ### The group an operation arms (R96) -/

/-- The group that a record entered into CUE_WAIT arms. -/
def Programme.enteredArms (x : Programme) (r : MoveRecord) : Option (Fin 4) :=
  if x.policy = .block ∧ 2 ≤ x.move.reports.length then none else if r.cued then x.group else none

def Programme.followedArms (x : Programme) : Option (Fin 4) :=
  match x.move.staged with
  | .committed c => x.unstaged.enteredArms c
  | .empty => none
  | .draft _ => none

def Programme.endedArms (x : Programme) (r : MoveRecord) (o : MoveOutcome) (time : Stamp) : Option (Fin 4) :=
  (x.withMove (x.move.written (reportOf r o x.move.dcur time))).followedArms

def Programme.steppedArms (x : Programme) (time : Stamp) : Option (Fin 4) :=
  match x.move.state with
  | .moving r ph k =>
    match (stepRecord r ph k x.move.pos).ends with
    | none => none
    | some o => (x.withMove { x.move with pos := (stepRecord r ph k x.move.pos).pos, state := (stepRecord r ph k x.move.pos).state }).endedArms r o time
  | .still => none
  | .cueWait _ _ => none
  | .readWait _ _ => none
  | .halted _ => none

theorem armGroup_groups_congr (h : t.groups = s.groups) (g : Option (Fin 4)) : (t.armGroup g).groups = (s.armGroup g).groups := by
  cases g with
  | none => exact h
  | some g => simp only [State.armGroup, State.setGroup, State.group, h]

theorem groups_of_sameBut {ps : List Part} (h : s.sameBut ps t) (hp : Part.groups ∉ ps) : t.groups = s.groups := (h .groups hp).symm

theorem enterRecord_groups (s : State) (p : Fin 8) (r : MoveRecord) : (s.enterRecord p r).groups = (s.armGroup ((s.prog p).enteredArms r)).groups := by
  unfold State.enterRecord Programme.enteredArms
  dsimp only
  split
  · rfl
  · split
    · cases (s.prog p).group with
      | none => exact groups_of_sameBut (endMissed_sameBut s p r) (by decide)
      | some g => exact armGroup_groups_congr rfl _
    · rfl

theorem afterEnd_groups (s : State) (p : Fin 8) (r : MoveRecord) (o : MoveOutcome) :
    (s.afterEnd p r o).groups = (s.armGroup ((s.prog p).followedArms)).groups := by
  unfold State.afterEnd Programme.followedArms
  cases (s.prog p).move.staged with
  | committed c =>
    refine (enterRecord_groups _ p c).trans ?_
    rw [prog_setStaged]
    exact armGroup_groups_congr (groups_of_sameBut (setMove_sameBut s p _) (by decide)) _
  | empty => rfl
  | draft d => rfl

theorem endMove_groups (s : State) (p : Fin 8) (r : MoveRecord) (o : MoveOutcome) :
    (s.endMove p r o).groups = (s.armGroup ((s.prog p).endedArms r o s.ref.hsc)).groups := by
  unfold State.endMove
  dsimp only
  rw [afterEnd_groups, prog_moveEvents, prog_writeReport]
  refine armGroup_groups_congr ?_ _
  rw [groups_of_sameBut (moveEvents_sameBut _ p o) (by decide), groups_of_sameBut (writeReport_sameBut s p _) (by decide)]

theorem moveStep_groups (s : State) (p : Fin 8) : (s.moveStep p).groups = (s.armGroup ((s.prog p).steppedArms s.ref.hsc)).groups := by
  unfold State.moveStep Programme.steppedArms
  dsimp only
  cases (s.prog p).move.state with
  | moving r ph k =>
    dsimp only
    cases (stepRecord r ph k (s.prog p).move.pos).ends with
    | none => rfl
    | some o =>
      refine (endMove_groups _ p r o).trans ?_
      rw [prog_setMove]
      exact armGroup_groups_congr (groups_of_sameBut (setMove_sameBut s p _) (by decide)) _
  | still => rfl
  | cueWait _ _ => rfl
  | readWait _ _ => rfl
  | halted _ => rfl

/-- With nothing staged a move's end arms no group. -/
theorem endedArms_of_unstaged {x : Programme} (h : x.move.staged = .empty) (r : MoveRecord) (o : MoveOutcome) (time : Stamp) :
    x.endedArms r o time = none := by
  have hst : (x.withMove (x.move.written (reportOf r o x.move.dcur time))).move.staged = .empty := by
    obtain ⟨l, n, hu, -⟩ := written_eq x.move (reportOf r o x.move.dcur time)
    rw [hu]; exact h
  unfold Programme.endedArms Programme.followedArms
  rw [hst]

end Sys2Proof.Machine
end

