-- ==== Sys2Proof/Proofs/MoveRequests.lean ====
section
/-! PROOFS. MOVE.GO and MOVE.HOLD (R69, R70, R72, R73, R76 to R78, R80). -/

namespace Sys2Proof.Machine

variable {s t u : State} {p : Fin 8}

/-! ### From the owner's step to the request -/

/-- What the owner's step sends, the whole request sends. -/
theorem Sends.acrossRequest {es : List Sent} {ns : List (Fin 59)} {r : Request} (h : Sends es ns (s.taking r) u) (st : Status) (b : List Byte) :
    Sends es ns s ((⟨u, st, b⟩ : Answer).sent r) := (h.behind (taking_sameBut (r := r))).before (sent_sameBut ⟨u, st, b⟩ r)

/-- What a unit's operation sends reaches its own source and the counters of MOVE_DONE and REPORT_LOST alone. -/
theorem SendsMove.within {a : MoveSent} (h : SendsMove a p s t) (ha : ∀ e ∈ a.1, e.1 ∈ moveCounts) : SendsWithin moveCounts [moveSource p] s t :=
  Sends.within h ha (fun n hn => by rw [List.eq_of_mem_replicate hn]; exact List.mem_singleton.mpr rfl)

theorem SendsMove.latchedIn {a : MoveSent} (h : SendsMove a p s t) (ha : 0 < a.2) : s.latchedIn (moveSource p) a.2 s.ref.hsc t :=
  Sends.latchedIn h (moveSource_ne_counterSource p) ha (by simp)

theorem SendsMove.raisesCounted {a : MoveSent} (h : SendsMove a p s t) : s.raisesCounted a.2 t := by
  have := Sends.raisesCounted h
  rwa [List.length_replicate] at this

theorem endSent_events (x : Programme) (p : Fin 8) (o : MoveOutcome) : ∀ e ∈ (x.endSent p o).1, e.1 ∈ moveCounts := by
  intro e he
  rcases List.mem_append.mp he with he | he
  · rw [mem_lossSent he]; simp
  · rw [List.mem_singleton.mp he]; simp

/-- The events of a move's end: one MOVE_DONE, a REPORT_LOST for a report replaced, and the latched event (R71, R83, R84). -/
theorem SendsMove.ofEnd {x : Programme} {o : MoveOutcome} (h : SendsMove (x.endSent p o) p s t) (ho : o ≠ .reached) :
    s.latchedIn (moveSource p) 1 s.ref.hsc t ∧ s.countedIn .moveDone (some p) 1 t ∧ s.raisesCounted 1 t
      ∧ s.countedIn .reportLost (some p) x.move.loses t ∧ s.otherSources [moveSource p] t ∧ s.otherCounters [.moveDone, .reportLost] t := by
  have hone : (x.endSent p o).2 = 1 := if_neg ho
  have hwithin := SendsMove.within h (endSent_events x p o)
  refine ⟨hone ▸ SendsMove.latchedIn h (by rw [hone]; exact Nat.one_pos), Sends.countedIn h (by simp) ?_, hone ▸ SendsMove.raisesCounted h,
    Sends.countedIn h (by simp) ?_, hwithin.otherSources, hwithin.otherCounters⟩
  · simp [Programme.endSent, MoveUnit.lossSent]
  · simp [Programme.endSent, MoveUnit.lossSent]

/-! ### What a move's end with nothing staged leaves -/

theorem ended_of_unstaged {x : Programme} (h : x.move.staged = .empty) (r : MoveRecord) (o : MoveOutcome) (time : Stamp) :
    x.ended r o time = x.withMove (MoveUnit.reported { x.move with state := if o = .halted then .halted r else .still } (reportOf r o x.move.dcur time)) := by
  obtain ⟨life, dmax, low, high, group, policy, ⟨st, pos, staged, reports, lost⟩, meter, gain⟩ := x
  cases h
  unfold Programme.ended
  rw [written_eq_reported]
  unfold MoveUnit.reported
  by_cases hl : reports.length < 2
  · simp only [hl, if_true]; rfl
  · simp only [hl, if_false]; rfl

theorem endMove_sameBut_of_unstaged (h : (s.prog p).move.staged = .empty) (r : MoveRecord) (o : MoveOutcome) :
    s.sameBut (.progs :: eventParts) (s.endMove p r o) := by
  have hgroups : (s.endMove p r o).groups = s.groups := by rw [endMove_groups, endedArms_of_unstaged h]; rfl
  intro q hq
  by_cases hg : q = .groups
  · subst hg; exact hgroups.symm
  · exact endMove_sameBut s p r o q (by simp only [moveParts, List.mem_cons] at hq ⊢; tauto)

/-! ### MOVE.HOLD -/

theorem takeMoveHold_of_live (h : (s.prog p).life.isLive = true) : takeMoveHold (byte1 p) s = ⟨s.hold p, .ok, []⟩ := by
  simp [takeMoveHold, withLiveProgramme, byte1, readId_ofNat, h]

/-- A hold that ends and decides nothing writes the programme alone. -/
theorem hold_of_silent (he : (s.prog p).holdEnds = none) (hd : (s.prog p).holdDecides = false) :
    s.hold p = s.setProg p ((s.prog p).held s.ref.hsc) := by
  have hunstaged : (s.setStaged p .empty).prog p = (s.prog p).unstaged := prog_setStaged s p _
  have hset (x : Programme) : (s.setStaged p .empty).setProg p x = s.setProg p x := by
    simp [State.setStaged, State.setMove, State.setProg]
  change (s.prog p).unstaged.holdEnds = none at he
  change (s.prog p).unstaged.holdDecides = false at hd
  unfold State.hold Programme.held Programme.stopped
  rw [← hunstaged] at he hd ⊢
  rw [← hset]
  have hsame : s.ref.hsc = (s.setStaged p .empty).ref.hsc := rfl
  rw [hsame]
  generalize s.setStaged p .empty = u at he hd
  have hself : u = u.setProg p (u.prog p) := by simp [State.setProg, State.prog]
  unfold Programme.holdEnds at he
  unfold Programme.holdDecides at hd
  dsimp only
  cases hst : (u.prog p).move.state with
  | still => exact hself
  | halted _ => exact hself
  | moving r ph k =>
    simp only [hst] at he
    dsimp only
    unfold State.holdMoving Programme.heldMoving
    cases hk : r.kind with
    | jump => exact hself
    | glide v => simp [hk] at he
    | fade f =>
      cases ph with
      | fadeOut =>
        simp only [hk] at he
        dsimp only
        by_cases hf : f ≤ k
        · simp [hf] at he
        · rw [if_neg hf, if_neg hf]; rfl
      | fadeIn => exact hself
      | fadeBack => exact hself
      | none => exact hself
  | cueWait r k => simp [hst] at he
  | readWait r d =>
    cases d with
    | none => simp [hst] at hd
    | some d => exact hself

theorem stopMoving_groups (hempty : (u.prog p).move.staged = .empty) (r : MoveRecord) (ph : Phase) (k : Nat) :
    (u.holdMoving p r ph k).groups = u.groups := by
  unfold State.holdMoving
  cases r.kind with
  | jump => rfl
  | glide v => exact (endMove_sameBut_of_unstaged (by rw [prog_setMove]; exact hempty) r .halted .groups (by decide)).symm
  | fade f =>
    cases ph with
    | fadeOut =>
      dsimp only
      by_cases hf : f ≤ k
      · rw [if_pos hf]; exact (endMove_sameBut_of_unstaged hempty r .halted .groups (by decide)).symm
      · rw [if_neg hf]; rfl
    | fadeIn => rfl
    | fadeBack => rfl
    | none => rfl

/-- A hold reaches the groups only where it ends a wait. -/
theorem hold_groups_of_not_waiting (h : (s.prog p).move.state.isCueWait = false) : (s.hold p).groups = s.groups := by
  have hunstaged : (s.setStaged p .empty).prog p = (s.prog p).unstaged := prog_setStaged s p _
  have hgroups : s.groups = (s.setStaged p .empty).groups := rfl
  change (s.prog p).unstaged.move.state.isCueWait = false at h
  have hempty : ((s.setStaged p .empty).prog p).move.staged = .empty := by rw [hunstaged]; rfl
  unfold State.hold
  rw [← hunstaged] at h
  rw [hgroups]
  generalize s.setStaged p .empty = u at hempty h
  dsimp only
  cases hst : (u.prog p).move.state with
  | still => rfl
  | halted _ => rfl
  | moving r ph k => exact stopMoving_groups hempty r ph k
  | cueWait r k => rw [hst] at h; cases h
  | readWait r d =>
    cases d with
    | none => exact (moveEvents_sameBut _ p .cancelled .groups (by decide)).symm
    | some d => rfl

/-- A hold that ends a wait disarms its group when nobody else waits (R78, R101). -/
theorem hold_group_of_waiting {r : MoveRecord} {k : Nat} (h : (s.prog p).move.state = .cueWait r k) (g : Fin 4) :
    (s.hold p).group g = if (s.prog p).group = some g ∧ (s.hold p).waiting g = [] then { s.group g with armed := false } else s.group g := by
  have hunstaged : (s.setStaged p .empty).prog p = (s.prog p).unstaged := prog_setStaged s p _
  have hstate : ((s.setStaged p .empty).prog p).move.state = .cueWait r k := by rw [hunstaged]; exact h
  have hempty : ((s.setStaged p .empty).prog p).move.staged = .empty := by rw [hunstaged]; rfl
  have hhold : s.hold p = ((s.setStaged p .empty).endMove p r .cancelled).leftWaiting (s.prog p).group := by
    unfold State.hold
    dsimp only
    rw [hstate]
    dsimp only
    rw [hunstaged]
    rfl
  have hgroup : ((s.setStaged p .empty).endMove p r .cancelled).group g = s.group g :=
    (State.group_congr (endMove_sameBut_of_unstaged hempty r .cancelled .groups (by decide)) g).symm
  rw [hhold, leftWaiting_group, hgroup, waiting_of_progs (leftWaiting_sameBut _ _ .progs (by decide)).symm]

theorem hold_sameBut_of_not_waiting (h : (s.prog p).move.state.isCueWait = false) : s.sameBut (.progs :: eventParts) (s.hold p) := by
  intro q hq
  by_cases hg : q = .groups
  · subst hg; exact (hold_groups_of_not_waiting h).symm
  · exact hold_sameBut s p q (by simp only [moveParts, List.mem_cons] at hq ⊢; tauto)

/-! ### What a hold leaves, by the move state -/

theorem held_of_ends {x : Programme} {r : MoveRecord} {o : MoveOutcome} {time : Stamp} {v : MoveUnit}
    (hs : x.unstaged.stopped time = (x.withMove v).ended r o time) (hv : v.staged = .empty) :
    x.held time = x.withMove (MoveUnit.reported { v with state := if o = .halted then .halted r else .still } (reportOf r o v.dcur time)) := by
  unfold Programme.held
  rw [hs, ended_of_unstaged hv]
  rfl

/-- A hold that leaves the current move alone, or turns a FADE back, completes with the staged slot empty. -/
theorem completes_of_silent_hold {tag : Byte} {y : Programme} (hs : s.ready) (hl : (s.prog p).life.isLive = true)
    (he : (s.prog p).holdEnds = none) (hd : (s.prog p).holdDecides = false) (hy : (s.prog p).held s.ref.hsc = y) :
    Completes (.moveHold tag (byte1 p)) s .ok [] (fun t => t.prog p = y ∧ s.otherProgs p t ∧ s.sameBut [.progs, .port] t) := by
  subst hy
  refine completes_of_setProg (r := ⟨tag, 0x33, byte1 p⟩) rfl hs ?_
  refine (takeMoveHold_of_live (s := s.taking ⟨tag, 0x33, byte1 p⟩) hl).trans ?_
  rw [hold_of_silent (s := s.taking ⟨tag, 0x33, byte1 p⟩) he hd]
  rfl

/-- A hold completes with what its unit's operation leaves and sends. -/
theorem completes_of_hold {tag : Byte} (hs : s.ready) (hl : (s.prog p).life.isLive = true) :
    Completes (.moveHold tag (byte1 p)) s .ok [] (fun t => ∃ u r, u = (s.taking r).hold p ∧ t = (⟨u, .ok, []⟩ : Answer).sent r
      ∧ t.prog p = (s.prog p).held s.ref.hsc ∧ s.otherProgs p t ∧ SendsMove ((s.prog p).heldSent p) p s t) :=
  completes_of_answer (r := ⟨tag, 0x33, byte1 p⟩) (a := ⟨_, _, _⟩) rfl (.inl hs) (takeMoveHold_of_live (s := s.taking _) hl)
    ⟨_, _, rfl, rfl, prog_hold (s.taking _) p, hold_otherProgs (s.taking _) p, Sends.acrossRequest (hold_sends (s.taking _) p) _ _⟩

/-- A hold that ends a move which was not waiting for a cue. -/
theorem completes_of_ending_hold {tag : Byte} {v : MoveUnit} {r : MoveRecord} {o : MoveOutcome} (hs : s.ready) (hl : (s.prog p).life.isLive = true)
    (he : (s.prog p).holdEnds = some o) (ho : o ≠ .reached) (hw : (s.prog p).move.state.isCueWait = false)
    (hv : v.staged = .empty) (hstop : (s.prog p).unstaged.stopped s.ref.hsc = ((s.prog p).withMove v).ended r o s.ref.hsc) :
    Completes (.moveHold tag (byte1 p)) s .ok [] (fun t =>
      t.prog p = (s.prog p).withMove (MoveUnit.reported { v with state := if o = .halted then .halted r else .still } (reportOf r o v.dcur s.ref.hsc))
      ∧ s.latchedIn (moveSource p) 1 s.ref.hsc t ∧ s.countedIn .moveDone (some p) 1 t ∧ s.raisesCounted 1 t
      ∧ s.countedIn .reportLost (some p) (s.prog p).move.loses t
      ∧ s.otherProgs p t ∧ s.otherSources [moveSource p] t ∧ s.otherCounters [.moveDone, .reportLost] t
      ∧ s.sameBut (.progs :: .port :: eventParts) t) := by
  have hsent : (s.prog p).heldSent p = (s.prog p).endSent p o := by unfold Programme.heldSent; rw [he]
  refine (completes_of_hold hs hl).imp ?_
  rintro _ ⟨u, q, rfl, rfl, hprog, hothers, hsends⟩
  rw [hsent] at hsends
  obtain ⟨hlatched, hdone, hraises, hlost, hsources, hcounters⟩ := SendsMove.ofEnd hsends ho
  exact ⟨hprog.trans (held_of_ends hstop hv), hlatched, hdone, hraises, hlost, hothers, hsources, hcounters,
    sameBut_of_take (by decide) (sameBut_mono (hold_sameBut_of_not_waiting (s := s.taking q) hw) (by decide))⟩

/-- Settles O33: by the move state and the kind, a hold writes the unit alone, decides a READ_WAIT, or ends the move. -/
theorem moveHoldStopsWhatItCan : Obligations.MoveHoldStopsWhatItCan := by
  unfold Obligations.MoveHoldStopsWhatItCan
  intro s tag p r hs hl u hu
  subst hu
  refine ⟨fun h => ?_, fun f k hk hst hf => ?_, fun f k hk hst hf => ?_, fun v ph k hk hst => ?_, fun k hst => ?_, fun hst => ?_⟩
  · refine completes_of_silent_hold hs hl ?_ ?_ ?_
    · rcases h with h | h | ⟨d, h⟩ | ⟨f, hk, k, h | h⟩ | ⟨hk, ph, k, h⟩ <;> simp [Programme.holdEnds, *]
    · rcases h with h | h | ⟨d, h⟩ | ⟨f, hk, k, h | h⟩ | ⟨hk, ph, k, h⟩ <;> simp [Programme.holdDecides, *]
    · rcases h with h | h | ⟨d, h⟩ | ⟨f, hk, k, h | h⟩ | ⟨hk, ph, k, h⟩ <;>
        simp [Programme.held, Programme.stopped, Programme.unstaged, Programme.withMove, Programme.heldMoving, *]
  · refine completes_of_silent_hold hs hl ?_ ?_ ?_
    · simp [Programme.holdEnds, hst, hk, Nat.not_le.mpr hf]
    · simp [Programme.holdDecides, hst]
    · simp [Programme.held, Programme.stopped, Programme.unstaged, Programme.withMove, Programme.heldMoving, hst, hk, Nat.not_le.mpr hf]
  · refine completes_of_ending_hold (v := { (s.prog p).move with staged := .empty }) (o := .halted) hs hl ?_ (by decide) ?_ rfl ?_
    · simp [Programme.holdEnds, hst, hk, hf]
    · rw [hst]; rfl
    · simp [Programme.stopped, Programme.unstaged, Programme.withMove, Programme.heldMoving, hst, hk, hf]
  · refine (completes_of_ending_hold (v := { (s.prog p).move with staged := .empty, pos := (s.prog p).move.pos / 65536 * 65536 }) (r := r)
      (o := .halted) hs hl ?_ (by decide) ?_ rfl ?_).imp ?_
    · simp [Programme.holdEnds, hst, hk]
    · rw [hst]; rfl
    · simp [Programme.stopped, Programme.unstaged, Programme.withMove, Programme.heldMoving, hst, hk, MoveUnit.dcur]
    · rintro t ⟨hprog, hrest⟩
      refine ⟨hprog.trans ?_, hrest⟩
      simp only [MoveUnit.dcur, Nat.mul_div_cancel _ (show 0 < 65536 by decide)]
      rfl
  · have hsent : (s.prog p).heldSent p = (s.prog p).endSent p .cancelled := by simp [Programme.heldSent, Programme.holdEnds, hst]
    refine (completes_of_hold hs hl).imp ?_
    rintro _ ⟨u, q, rfl, rfl, hprog, hothers, hsends⟩
    rw [hsent] at hsends
    obtain ⟨hlatched, hdone, hraises, hlost, hsources, hcounters⟩ := SendsMove.ofEnd hsends (by decide)
    have hstop : (s.prog p).unstaged.stopped s.ref.hsc
        = ((s.prog p).withMove { (s.prog p).move with staged := .empty }).ended r .cancelled s.ref.hsc := by
      simp [Programme.stopped, Programme.unstaged, Programme.withMove, hst]
    exact ⟨hprog.trans (held_of_ends hstop rfl),
      fun g => hold_group_of_waiting (s := s.taking q) hst g, hlatched, hdone, hraises, hlost, hothers, hsources, hcounters,
      sameBut_of_take (by decide) (sameBut_mono (hold_sameBut (s.taking q) p) (by decide))⟩
  · have hsent : (s.prog p).heldSent p = ([(.moveDone, some p, 1)], 1) := by
      simp [Programme.heldSent, Programme.holdEnds, Programme.holdDecides, hst]
    refine (completes_of_hold hs hl).imp ?_
    rintro _ ⟨u, q, rfl, rfl, hprog, hothers, hsends⟩
    rw [hsent] at hsends
    have hwithin : SendsWithin [.moveDone] [moveSource p] s _ := Sends.within hsends (by simp) (by simp)
    have hwait : (s.prog p).move.state.isCueWait = false := by rw [hst]; rfl
    refine ⟨hprog.trans ?_, SendsMove.latchedIn hsends Nat.one_pos, Sends.countedIn hsends (by simp) (by simp), SendsMove.raisesCounted hsends,
      hothers, hwithin.otherSources, hwithin.otherCounters, sameBut_of_take (by decide)
        (sameBut_mono (hold_sameBut_of_not_waiting (s := s.taking q) hwait) (by decide))⟩
    simp [Programme.held, Programme.stopped, Programme.unstaged, Programme.withMove, hst, MoveUnit.dcur]

/-! ### A record entered (R70) -/

section
variable {r : MoveRecord}

theorem enterRecord_of_full (h : (s.prog p).policy = .block ∧ 2 ≤ (s.prog p).move.reports.length) (r : MoveRecord) :
    s.enterRecord p r = s.setMoveState p (.readWait r none) := if_pos h

theorem enterRecord_of_uncued (h : ¬ ((s.prog p).policy = .block ∧ 2 ≤ (s.prog p).move.reports.length)) (hc : r.cued = false) :
    s.enterRecord p r = s.setMoveState p (startState r) := by
  unfold State.enterRecord
  dsimp only
  rw [if_neg h, hc]
  rfl

theorem enterRecord_of_cued (h : ¬ ((s.prog p).policy = .block ∧ 2 ≤ (s.prog p).move.reports.length)) (hc : r.cued = true)
    {g : Fin 4} (hg : (s.prog p).group = some g) : s.enterRecord p r = (s.setMoveState p (.cueWait r 0)).armGroup (some g) := by
  unfold State.enterRecord
  dsimp only
  rw [if_neg h, if_pos hc, hg]

theorem enterRecord_of_no_group (h : ¬ ((s.prog p).policy = .block ∧ 2 ≤ (s.prog p).move.reports.length)) (hc : r.cued = true)
    (hg : (s.prog p).group = none) : s.enterRecord p r = s.endMissed p r := by
  unfold State.enterRecord
  dsimp only
  rw [if_neg h, if_pos hc, hg]

end

theorem setProg_setProg (s : State) (p : Fin 8) (x y : Programme) : (s.setProg p x).setProg p y = s.setProg p y := by
  simp [State.setProg]

/-- A move unit written twice holds what was written last. -/
theorem setMove_setMoveState (s : State) (p : Fin 8) (u : MoveUnit) (x : MoveState) :
    (s.setMove p u).setMoveState p x = s.setMove p { u with state := x } := by
  unfold State.setMoveState State.setMove
  rw [setProg_setProg, State.prog_setProg]

/-- A request whose owner puts the unit into CUE_WAIT arms the programme's group (R96). -/
theorem completes_of_armed {c : Instr} {q : Request} {v : MoveUnit} {st : Status} {body : List Byte} {g : Fin 4} (hc : requestOf c = some q)
    (hs : s.ready) (ha : takeRequest q.code q.body (s.taking q) = ⟨((s.taking q).setMove p v).armGroup (some g), st, body⟩) :
    Completes c s st body (fun t => t.prog p = { s.prog p with move := v } ∧ t.group g = { s.group g with armed := true }
      ∧ (∀ k, k ≠ g → t.group k = s.group k) ∧ s.otherProgs p t ∧ s.sameBut [.progs, .groups, .port] t) := by
  refine completes_of_answer (a := ⟨_, st, body⟩) hc (.inl hs) ha ⟨?_, ?_, fun k hk => ?_, fun k hk => ?_, ?_⟩
  · exact (prog_armGroup _ _ p).trans (prog_setMove (s.taking q) p v)
  · exact (armGroup_group _ g g).trans (if_pos rfl)
  · exact (armGroup_group _ g k).trans (if_neg (fun h => hk h.symm))
  · exact (prog_armGroup _ _ k).trans (setMove_otherProgs (s.taking q) p v k hk)
  · exact sameBut_of_take (by decide) (sameBut_trans (sameBut_mono (setMove_sameBut (s.taking q) p v) (by decide))
      (sameBut_mono (armGroup_sameBut _ _) (by decide)))

/-! ### MOVE.GO (R69) -/

/-- The owner's answer to a MOVE.GO of a draft at rest. -/
theorem takeMoveGo_of_rest {r : MoveRecord} (hl : (s.prog p).life.isLive = true) (hd : (s.prog p).move.staged = .draft r)
    (hst : (s.prog p).move.state = .still ∨ ∃ h, (s.prog p).move.state = .halted h) :
    takeMoveGo (byte1 p) s = if r.cued && (s.prog p).group.isNone then refuse s .state else ⟨(s.setStaged p .empty).enterRecord p r, .ok, []⟩ := by
  rcases hst with hst | ⟨h, hst⟩ <;> simp [takeMoveGo, withLiveProgramme, byte1, readId_ofNat, hl, hd, hst]

theorem takeMoveGo_of_motion {r : MoveRecord} (hl : (s.prog p).life.isLive = true) (hd : (s.prog p).move.staged = .draft r)
    (hstill : (s.prog p).move.state ≠ .still) (hhalted : ∀ h, (s.prog p).move.state ≠ .halted h) :
    takeMoveGo (byte1 p) s = ⟨s.setStaged p (.committed r), .ok, []⟩ := by
  cases hst : (s.prog p).move.state with
  | still => exact absurd hst hstill
  | halted h => exact absurd hst (hhalted h)
  | moving _ _ _ => simp [takeMoveGo, withLiveProgramme, byte1, readId_ofNat, hl, hd, hst]
  | cueWait _ _ => simp [takeMoveGo, withLiveProgramme, byte1, readId_ofNat, hl, hd, hst]
  | readWait _ _ => simp [takeMoveGo, withLiveProgramme, byte1, readId_ofNat, hl, hd, hst]

/-- Settles O31: behind a move the draft is committed; at rest it is entered as R70 says, or refused. -/
theorem moveGoStartsOrCommits : Obligations.MoveGoStartsOrCommits := by
  unfold Obligations.MoveGoStartsOrCommits
  intro s tag p r hs hl
  have same (q : Request) : (s.taking q).prog p = s.prog p := rfl
  refine ⟨fun hd => ⟨fun st hst hstill hhalted => ?_, fun st hst hrest => ?_⟩, fun he => ?_, fun hc => ?_⟩
  · subst hst
    exact completes_of_setProg (r := ⟨tag, 0x31, byte1 p⟩) rfl hs (takeMoveGo_of_motion (s := s.taking _) hl hd hstill hhalted)
  · subst hst
    have hgo := takeMoveGo_of_rest (s := s.taking ⟨tag, 0x31, byte1 p⟩) hl hd hrest
    have hunstaged := prog_setStaged (s.taking ⟨tag, 0x31, byte1 p⟩) p .empty
    have hkeep : ((s.taking ⟨tag, 0x31, byte1 p⟩).setStaged p .empty).prog p = (s.prog p).unstaged := hunstaged
    refine ⟨fun hblock hfull hgroup => ?_, fun hroom => ?_, fun hcued hnone => ?_⟩
    · have hfree : (r.cued && (s.prog p).group.isNone) = false := by
        cases hc : r.cued with
        | false => rfl
        | true =>
          obtain ⟨g, hg⟩ := Option.isSome_iff_exists.mp (hgroup hc)
          rw [hg]; rfl
      refine completes_of_setProg (r := ⟨tag, 0x31, byte1 p⟩) rfl hs (hgo.trans ?_)
      rw [same, hfree, if_neg (by simp), enterRecord_of_full (by rw [hkeep]; exact ⟨hblock, hfull⟩)]
      exact congrArg (Answer.mk · .ok []) (setMove_setMoveState _ p _ _)
    · have hnot : ¬ (((s.taking ⟨tag, 0x31, byte1 p⟩).setStaged p .empty).prog p).policy = .block
          ∨ ¬ 2 ≤ (((s.taking ⟨tag, 0x31, byte1 p⟩).setStaged p .empty).prog p).move.reports.length := by
        rw [hkeep]
        rcases hroom with h | h
        · exact .inl (fun hb => by rw [show (s.prog p).unstaged.policy = (s.prog p).policy from rfl, h] at hb; cases hb)
        · exact .inr (Nat.not_le.mpr h)
      have hnot' := not_and_or.mpr hnot
      refine ⟨fun hcued => ?_, fun hcued g hg => ?_⟩
      · refine completes_of_setProg (r := ⟨tag, 0x31, byte1 p⟩) rfl hs (hgo.trans ?_)
        rw [hcued, Bool.false_and, if_neg (by simp), enterRecord_of_uncued hnot' hcued]
        exact congrArg (Answer.mk · .ok []) (setMove_setMoveState _ p _ _)
      · refine completes_of_armed (q := ⟨tag, 0x31, byte1 p⟩) rfl hs (hgo.trans ?_)
        rw [same, hg, Option.isNone_some, Bool.and_false, if_neg (by simp), enterRecord_of_cued hnot' hcued (by rw [hkeep]; exact hg)]
        exact congrArg (fun x => Answer.mk (State.armGroup x (some g)) .ok []) (setMove_setMoveState _ p _ _)
    · refine refused_of_answer (r := ⟨tag, 0x31, byte1 p⟩) rfl (.inl hs) (hgo.trans ?_)
      rw [same, hcued, hnone]
      rfl
  · refine refused_of_answer (r := ⟨tag, 0x31, byte1 p⟩) rfl (.inl hs) ?_
    change takeMoveGo (byte1 p) _ = _
    simp [takeMoveGo, withLiveProgramme, byte1, readId_ofNat, same, hl, he]
  · refine refused_of_answer (r := ⟨tag, 0x31, byte1 p⟩) rfl (.inl hs) ?_
    change takeMoveGo (byte1 p) _ = _
    simp [takeMoveGo, withLiveProgramme, byte1, readId_ofNat, same, hl, hc]

end Sys2Proof.Machine
end

