-- ==== Sys2Proof/Proofs/MoveReports.lean ====
section
/-! PROOFS. MOVE.RESUME and MOVE.REPORTS (R79, R85), and MOVE.HOLDALL (R82, R84). -/

namespace Sys2Proof.Machine

variable {s t u : State} {p : Fin 8}

/-! ### MOVE.RESUME (R79) -/

theorem takeMoveResume_of_halted {r : MoveRecord} (hl : (s.prog p).life.isLive = true) (hst : (s.prog p).move.state = .halted r) :
    takeMoveResume (byte1 p) s = ⟨s.enterRecord p { r with cued := false }, .ok, []⟩ := by
  simp [takeMoveResume, withLiveProgramme, byte1, readId_ofNat, hl, hst]

theorem takeMoveResume_of_not_halted (hl : (s.prog p).life.isLive = true) (hst : ∀ r, (s.prog p).move.state ≠ .halted r) :
    takeMoveResume (byte1 p) s = refuse s .state := by
  cases h : (s.prog p).move.state with
  | halted r => exact absurd h (hst r)
  | still => simp [takeMoveResume, withLiveProgramme, byte1, readId_ofNat, hl, h]
  | moving _ _ _ => simp [takeMoveResume, withLiveProgramme, byte1, readId_ofNat, hl, h]
  | cueWait _ _ => simp [takeMoveResume, withLiveProgramme, byte1, readId_ofNat, hl, h]
  | readWait _ _ => simp [takeMoveResume, withLiveProgramme, byte1, readId_ofNat, hl, h]

/-! ### MOVE.REPORTS (R85) -/

/-- The unit with its slots read. -/
def MoveUnit.read (u : MoveUnit) : MoveUnit := { u with reports := [], lost := 0 }

/-- The report of a move held undecided. -/
def decidedReport (r : MoveRecord) (d : Decided) : Report := reportOf r .cancelled d.dcur d.hsc

theorem takeMoveReports_of_live (hl : (s.prog p).life.isLive = true) :
    takeMoveReports (byte1 p) s = ⟨(s.setMove p (s.prog p).move.read).afterRead p, .ok, reportsRecord (s.prog p).move⟩ := by
  simp [takeMoveReports, withLiveProgramme, byte1, readId_ofNat, hl, MoveUnit.read]

theorem setMove_setMove (s : State) (p : Fin 8) (u v : MoveUnit) : (s.setMove p u).setMove p v = s.setMove p v := by
  unfold State.setMove
  rw [setProg_setProg, State.prog_setProg]

/-- A report written into empty slots. -/
theorem writeReport_of_nil (h : (s.prog p).move.reports = []) (y : Report) :
    s.writeReport p y = s.setMove p { (s.prog p).move with reports := [y] } := by
  unfold State.writeReport
  dsimp only
  rw [h]

/-- The unit read has the state it had. -/
theorem state_setMove_read (s : State) (p : Fin 8) :
    ((s.setMove p (s.prog p).move.read).prog p).move.state = (s.prog p).move.state := by rw [prog_setMove]; rfl

theorem afterRead_of_other (hst : ∀ r d, (s.prog p).move.state ≠ .readWait r d) :
    (s.setMove p (s.prog p).move.read).afterRead p = s.setMove p (s.prog p).move.read := by
  unfold State.afterRead
  rw [state_setMove_read]
  cases h : (s.prog p).move.state with
  | readWait r d => exact absurd h (hst r d)
  | still => rfl
  | moving _ _ _ => rfl
  | cueWait _ _ => rfl
  | halted _ => rfl

theorem afterRead_of_undecided {r : MoveRecord} (hst : (s.prog p).move.state = .readWait r none) :
    (s.setMove p (s.prog p).move.read).afterRead p = (s.setMove p (s.prog p).move.read).enterRecord p r := by
  unfold State.afterRead
  rw [state_setMove_read, hst]

theorem afterRead_of_decided {r : MoveRecord} {d : Decided} (hst : (s.prog p).move.state = .readWait r (some d)) :
    (s.setMove p (s.prog p).move.read).afterRead p
      = (s.setMove p { (s.prog p).move.read with reports := [decidedReport r d] }).afterEnd p r .cancelled := by
  have hnil : ((s.setMove p (s.prog p).move.read).prog p).move.reports = [] := by rw [prog_setMove]; rfl
  unfold State.afterRead
  rw [state_setMove_read, hst]
  dsimp only
  rw [writeReport_of_nil hnil, setMove_setMove, prog_setMove]
  rfl

/-- What a read leaves of the unit before the record that becomes current is entered. -/
theorem afterRead_enters {r c : MoveRecord} {d : Option Decided} {read : MoveUnit} (hst : (s.prog p).move.state = .readWait r d)
    (h : (d = none ∧ c = r ∧ read = { (s.prog p).move with reports := [], lost := 0 })
      ∨ (∃ k, d = some k ∧ (s.prog p).move.staged = .committed c ∧ read = { (s.prog p).move with
          staged := .empty, lost := 0, reports := [⟨r.tag, r.kind, .cancelled, k.dcur, k.hsc, r.clamped⟩] })) :
    (s.setMove p (s.prog p).move.read).afterRead p = (s.setMove p read).enterRecord p c ∧ read.reports.length ≤ 1
      ∧ read.pos = (s.prog p).move.pos := by
  rcases h with ⟨rfl, rfl, rfl⟩ | ⟨k, rfl, hc, rfl⟩
  · exact ⟨afterRead_of_undecided hst, Nat.zero_le _, rfl⟩
  · refine ⟨?_, Nat.le_refl _, rfl⟩
    rw [afterRead_of_decided hst]
    have hstaged : ((s.setMove p { (s.prog p).move.read with reports := [decidedReport r k] }).prog p).move.staged = .committed c := by
      rw [prog_setMove]; exact hc
    unfold State.afterEnd
    rw [hstaged]
    dsimp only
    unfold State.setStaged
    rw [setMove_setMove, prog_setMove]
    rfl

/-- A move that ends CUE_MISSED (R71). -/
theorem missed_eq (x : Programme) (r : MoveRecord) (time : Stamp) : x.missed r time
    = x.withMove (MoveUnit.reported { x.move with state := .still, staged := .empty } (reportOf r .cueMissed x.move.dcur time)) := by
  unfold Programme.missed
  rw [written_eq_reported]
  unfold MoveUnit.reported
  by_cases h : x.move.reports.length < 2
  · simp only [h, if_true]
  · simp only [h, if_false]

theorem missed_sends (hl : (s.prog p).move.reports.length < 2) (r : MoveRecord) :
    SendsMove ([(.moveDone, some p, 1)], 1) p s (s.endMissed p r) := by
  have h := endMissed_sendsMove s p r
  unfold Programme.endSent MoveUnit.lossSent MoveUnit.loses at h
  rw [if_pos hl] at h
  exact h

theorem prog_setMove_endMissed (s : State) (p : Fin 8) (v : MoveUnit) (r : MoveRecord) : ((s.setMove p v).endMissed p r).prog p
    = { s.prog p with move := MoveUnit.reported { v with state := .still, staged := .empty } (reportOf r .cueMissed v.dcur s.ref.hsc) } := by
  rw [prog_endMissed, prog_setMove, missed_eq]
  rfl

/-- A request whose owner ends a record CUE_MISSED at once (R70, R71). -/
theorem completes_of_missed {c : Instr} {q : Request} {v : MoveUnit} {r : MoveRecord} {st : Status} {body : List Byte} (hc : requestOf c = some q)
    (hs : s.ready) (ha : takeRequest q.code q.body (s.taking q) = ⟨((s.taking q).setMove p v).endMissed p r, st, body⟩) (hroom : v.reports.length < 2) :
    Completes c s st body (fun t =>
      t.prog p = { s.prog p with move := MoveUnit.reported { v with state := .still, staged := .empty } (reportOf r .cueMissed v.dcur s.ref.hsc) }
      ∧ s.latchedIn (moveSource p) 1 s.ref.hsc t ∧ s.countedIn .moveDone (some p) 1 t ∧ s.raisesCounted 1 t
      ∧ s.otherProgs p t ∧ s.otherSources [moveSource p] t ∧ s.otherCounters [.moveDone] t
      ∧ s.sameBut (.progs :: .port :: eventParts) t) := by
  have hsends : SendsMove ([(.moveDone, some p, 1)], 1) p ((s.taking q).setMove p v) (((s.taking q).setMove p v).endMissed p r) :=
    missed_sends (by rw [prog_setMove]; exact hroom) r
  have hall : SendsMove ([(.moveDone, some p, 1)], 1) p s _ := Sends.acrossRequest (Sends.behind hsends (setMove_sameBut _ p v)) st body
  have hwithin : SendsWithin [.moveDone] [moveSource p] s _ := Sends.within hall (by simp) (by simp)
  refine completes_of_answer (a := ⟨_, st, body⟩) hc (.inl hs) ha ?_
  have hsame : s.sameBut (.progs :: .port :: eventParts) ((⟨((s.taking q).setMove p v).endMissed p r, st, body⟩ : Answer).sent q) :=
    sameBut_of_take (by decide) (sameBut_trans (sameBut_mono (setMove_sameBut _ p v) (by decide)) (sameBut_mono (endMissed_sameBut _ p r) (by decide)))
  have hothers : s.otherProgs p (((s.taking q).setMove p v).endMissed p r) := fun k hk =>
    (endMissed_otherProgs _ p r k hk).trans (setMove_otherProgs (s.taking q) p v k hk)
  have hprog := prog_setMove_endMissed (s.taking q) p v r
  generalize ((s.taking q).setMove p v).endMissed p r = u at *
  exact ⟨hprog, SendsMove.latchedIn hall Nat.one_pos, Sends.countedIn hall (by simp) (by simp), SendsMove.raisesCounted hall, hothers,
    hwithin.otherSources, hwithin.otherCounters, hsame⟩

/-- Settles O35: a halted record is entered uncued; a read goes on from READ_WAIT with the record that becomes current. -/
theorem resumeAndReportsMoveTheUnitOn : Obligations.ResumeAndReportsMoveTheUnitOn := by
  unfold Obligations.ResumeAndReportsMoveTheUnitOn
  refine ⟨fun s tag p hs hl => ⟨fun r hst => ?_, fun hst => ?_⟩, fun s tag p hs hl => ⟨fun hst => ?_, fun r d hst hc => ?_, fun r c d read hst hread => ?_⟩⟩
  · refine completes_of_setProg (r := ⟨tag, 0x35, byte1 p⟩) rfl hs ?_
    refine (takeMoveResume_of_halted (s := s.taking ⟨tag, 0x35, byte1 p⟩) hl hst).trans ?_
    by_cases hfull : (s.prog p).policy = .block ∧ 2 ≤ (s.prog p).move.reports.length
    · rw [enterRecord_of_full (s := s.taking ⟨tag, 0x35, byte1 p⟩) hfull, if_pos hfull]; rfl
    · rw [enterRecord_of_uncued (s := s.taking ⟨tag, 0x35, byte1 p⟩) hfull rfl, if_neg hfull]; rfl
  · exact refused_of_answer (r := ⟨tag, 0x35, byte1 p⟩) rfl (.inl hs) (takeMoveResume_of_not_halted (s := s.taking _) hl hst)
  · refine completes_of_setProg (r := ⟨tag, 0x38, byte1 p⟩) rfl hs ?_
    refine (takeMoveReports_of_live (s := s.taking ⟨tag, 0x38, byte1 p⟩) hl).trans ?_
    rw [afterRead_of_other (s := s.taking ⟨tag, 0x38, byte1 p⟩) hst]
    rfl
  · refine completes_of_setProg (r := ⟨tag, 0x38, byte1 p⟩) rfl hs ?_
    refine (takeMoveReports_of_live (s := s.taking ⟨tag, 0x38, byte1 p⟩) hl).trans ?_
    rw [afterRead_of_decided (s := s.taking ⟨tag, 0x38, byte1 p⟩) hst]
    have hstaged : (((s.taking ⟨tag, 0x38, byte1 p⟩).setMove p { (s.prog p).move.read with reports := [decidedReport r d] }).prog p).move.staged
        = (s.prog p).move.staged := by rw [prog_setMove]; rfl
    have hend : ((s.taking ⟨tag, 0x38, byte1 p⟩).setMove p { (s.prog p).move.read with reports := [decidedReport r d] }).afterEnd p r .cancelled
        = ((s.taking ⟨tag, 0x38, byte1 p⟩).setMove p { (s.prog p).move.read with reports := [decidedReport r d] }).setMoveState p .still := by
      unfold State.afterEnd
      rw [hstaged]
      cases hcase : (s.prog p).move.staged with
      | committed c => rw [hcase] at hc; cases hc
      | empty => rfl
      | draft _ => rfl
    exact congrArg (Answer.mk · .ok _) (hend.trans (setMove_setMoveState _ p _ _))
  · have hanswer := takeMoveReports_of_live (s := s.taking ⟨tag, 0x38, byte1 p⟩) hl
    obtain ⟨hafter, hroom, hpos⟩ := afterRead_enters (s := s.taking ⟨tag, 0x38, byte1 p⟩) hst hread
    have hprog : ((s.taking ⟨tag, 0x38, byte1 p⟩).setMove p read).prog p = { s.prog p with move := read } := prog_setMove _ p read
    have hnot : ¬ ((((s.taking ⟨tag, 0x38, byte1 p⟩).setMove p read).prog p).policy = .block
        ∧ 2 ≤ (((s.taking ⟨tag, 0x38, byte1 p⟩).setMove p read).prog p).move.reports.length) := by
      rw [hprog]; rintro ⟨-, h⟩; exact absurd (Nat.le_trans h hroom) (by decide)
    rw [hafter] at hanswer
    refine ⟨fun hcued => ?_, fun hcued g hg => ?_, fun hcued hg => ?_⟩
    · rw [enterRecord_of_uncued hnot hcued, setMove_setMoveState] at hanswer
      exact completes_of_setProg (r := ⟨tag, 0x38, byte1 p⟩) rfl hs hanswer
    · rw [enterRecord_of_cued hnot hcued (by rw [hprog]; exact hg), setMove_setMoveState] at hanswer
      exact completes_of_armed (q := ⟨tag, 0x38, byte1 p⟩) rfl hs hanswer
    · rw [enterRecord_of_no_group hnot hcued (by rw [hprog]; exact hg)] at hanswer
      have hpos' : (s.prog p).move.pos = read.pos := hpos.symm
      rw [hpos']
      exact completes_of_missed (c := .moveReports tag (byte1 p)) (q := ⟨tag, 0x38, byte1 p⟩) rfl hs hanswer (Nat.lt_succ_of_le hroom)

end Sys2Proof.Machine
end

