-- ==== Sys2Proof/Proofs/HoldAll.lean ====
section
/-! PROOFS. One operation at each of several programmes, and MOVE.HOLDALL (R82, R84). -/

namespace Sys2Proof.Machine

variable {s t u : State} {p : Fin 8}

/-! ### One operation at each programme -/

/-- Operations at distinct programmes, each sending what its own programme makes it send, send the lists one after the other. -/
theorem forProgs_sends {f : Fin 8 → State → State} {es : Fin 8 → State → List Sent} {ns : Fin 8 → State → List (Fin 59)}
    (own : ∀ p (t : State), Sends (es p t) (ns p t) t (f p t)) (same : ∀ p k (t : State), k ≠ p → es k (f p t) = es k t ∧ ns k (f p t) = ns k t)
    (ps : List (Fin 8)) (hps : ps.Nodup) (s : State) :
    Sends (ps.flatMap (fun p => es p s)) (ps.flatMap (fun p => ns p s)) s (forProgs ps f s) := by
  induction ps generalizing s with
  | nil => exact sends_refl s
  | cons p ps ih =>
    obtain ⟨hp, hps⟩ := List.nodup_cons.mp hps
    have hne : ∀ k ∈ ps, k ≠ p := fun k hk h => hp (h ▸ hk)
    have hrest := ih hps (f p s)
    rw [List.flatMap_congr (fun k hk => (same p k s (hne k hk)).1), List.flatMap_congr (fun k hk => (same p k s (hne k hk)).2)] at hrest
    rw [List.flatMap_cons, List.flatMap_cons]
    exact (own p s).trans hrest

theorem count_flatMap_finRange {α : Type} [DecidableEq α] {g : Fin 8 → α} (hg : Function.Injective g) (n : Fin 8 → Nat) (p : Fin 8) :
    ((List.finRange 8).flatMap (fun k => List.replicate (n k) (g k))).count (g p) = n p := by
  have hcount : ∀ ks : List (Fin 8), ks.Nodup → (ks.flatMap (fun k => List.replicate (n k) (g k))).count (g p) = if p ∈ ks then n p else 0 := by
    intro ks
    induction ks with
    | nil => intro _; rfl
    | cons k ks ih =>
      intro hks
      obtain ⟨hk, hks⟩ := List.nodup_cons.mp hks
      rw [List.flatMap_cons, List.count_append, ih hks, List.count_replicate]
      by_cases h : p = k
      · subst h; simp [hk]
      · have hne : g k ≠ g p := fun hgk => h (hg hgk).symm
        simp [h, hne]
  rw [hcount _ (List.nodup_finRange 8), if_pos (List.mem_finRange p)]

theorem moveSource_injective : Function.Injective moveSource := fun a b h => by
  have := congrArg Fin.val h
  simp only [moveSource] at this
  exact Fin.ext (by omega)

/-! ### A hold at every LIVE programme -/

/-- The hold of one programme in a MOVE.HOLDALL (R82). -/
def State.holdLive (p : Fin 8) (s : State) : State := if (s.prog p).life.isLive then s.hold p else s

theorem holdAll_eq (s : State) : s.holdAll = forProgs (List.finRange 8) State.holdLive s := rfl

/-- A programme after its hold, where it takes one. -/
def Programme.heldLive (x : Programme) (time : Stamp) : Programme := if x.life.isLive then x.held time else x

def Programme.heldLiveSent (x : Programme) (p : Fin 8) : MoveSent := if x.life.isLive then x.heldSent p else ([], 0)

theorem prog_holdLive (s : State) (p : Fin 8) : (s.holdLive p).prog p = (s.prog p).heldLive s.ref.hsc := by
  unfold State.holdLive Programme.heldLive
  cases (s.prog p).life.isLive with
  | true => exact prog_hold s p
  | false => rfl

theorem holdLive_otherProgs (s : State) (p : Fin 8) : s.otherProgs p (s.holdLive p) := by
  unfold State.holdLive
  split
  · exact hold_otherProgs s p
  · exact fun _ _ => rfl

theorem holdLive_sends (s : State) (p : Fin 8) : SendsMove ((s.prog p).heldLiveSent p) p s (s.holdLive p) := by
  unfold State.holdLive Programme.heldLiveSent
  cases (s.prog p).life.isLive with
  | true => exact hold_sends s p
  | false => exact sends_refl s

theorem holdLive_sameBut (s : State) (p : Fin 8) : s.sameBut moveParts (s.holdLive p) := by
  unfold State.holdLive
  split
  · exact hold_sameBut s p
  · exact sameBut_refl s _

theorem holdLive_sameButMoves (s : State) (p : Fin 8) : s.sameButMoves (s.holdLive p) := by
  unfold State.holdLive
  split
  · exact hold_sameButMoves s p
  · exact sameButMoves_refl s

theorem holdLive_hsc (s : State) (p : Fin 8) : (s.holdLive p).ref.hsc = s.ref.hsc :=
  congrArg RefUnit.hsc (ref_of_sameBut (holdLive_sameBut s p) (by decide))

theorem prog_holdEach {ps : List (Fin 8)} (hps : ps.Nodup) (s : State) (k : Fin 8) :
    (forProgs ps State.holdLive s).prog k = if k ∈ ps then (s.prog k).heldLive s.ref.hsc else s.prog k :=
  forProgs_prog (F := fun t _ x => x.heldLive t.ref.hsc) (fun p t => prog_holdLive t p) (fun p t => holdLive_otherProgs t p)
    (fun p k t x => by rw [holdLive_hsc t p]) ps hps s k

theorem prog_holdAll (s : State) (k : Fin 8) : s.holdAll.prog k = (s.prog k).heldLive s.ref.hsc := by
  rw [holdAll_eq, prog_holdEach (List.nodup_finRange 8), if_pos (List.mem_finRange k)]

theorem holdAll_sends (s : State) : Sends ((List.finRange 8).flatMap (fun p => ((s.prog p).heldLiveSent p).1))
    ((List.finRange 8).flatMap (fun p => List.replicate ((s.prog p).heldLiveSent p).2 (moveSource p))) s s.holdAll :=
  forProgs_sends (es := fun p t => ((t.prog p).heldLiveSent p).1) (ns := fun p t => List.replicate ((t.prog p).heldLiveSent p).2 (moveSource p))
    (fun p t => holdLive_sends t p) (fun p k t hk => by rw [holdLive_otherProgs t p k hk]; exact ⟨rfl, rfl⟩) _ (List.nodup_finRange 8) s

/-! ### The groups after it (R78, R101) -/

/-- No unit waits for a cue after a hold. -/
theorem held_not_waiting (x : Programme) (time : Stamp) : (x.held time).move.state.isCueWait = false := by
  have hended (y : Programme) (hy : y.move.staged = .empty) (r : MoveRecord) (o : MoveOutcome) :
      (y.ended r o time).move.state.isCueWait = false := by
    rw [ended_of_unstaged hy]
    have hstate (v : MoveUnit) (z : Report) : (v.reported z).state = v.state := by unfold MoveUnit.reported; split <;> rfl
    change (MoveUnit.reported _ _).state.isCueWait = false
    rw [hstate]
    dsimp only
    split <;> rfl
  have hempty : x.unstaged.move.staged = .empty := rfl
  unfold Programme.held
  generalize x.unstaged = y at hempty
  unfold Programme.stopped
  cases hst : y.move.state with
  | still => rw [hst]; rfl
  | halted _ => rw [hst]; rfl
  | moving r ph k =>
    dsimp only
    unfold Programme.heldMoving
    cases r.kind with
    | jump => rw [hst]; rfl
    | glide v => exact hended (y.withMove { y.move with pos := y.move.dcur * 65536 }) hempty r .halted
    | fade f =>
      cases ph with
      | fadeOut =>
        dsimp only
        by_cases hf : f ≤ k
        · rw [if_pos hf]; exact hended _ hempty r _
        · rw [if_neg hf]; rfl
      | fadeIn => rw [hst]; rfl
      | fadeBack => rw [hst]; rfl
      | none => rw [hst]; rfl
  | cueWait r k => exact hended _ hempty r _
  | readWait r d =>
    cases d with
    | none => rfl
    | some d => dsimp only; rw [hst]; rfl

/-- A LIVE programme of this group waits for its cue. -/
abbrev Programme.waitsLive (x : Programme) (g : Fin 4) : Prop := x.life.isLive = true ∧ x.group = some g ∧ x.move.state.isCueWait = true

theorem isCueWait_iff {x : MoveState} : x.isCueWait = true ↔ ∃ r k, x = .cueWait r k := by
  cases x <;> simp [MoveState.isCueWait]

theorem holdLive_group (s : State) (p : Fin 8) (g : Fin 4) : (s.holdLive p).group g =
    if (s.prog p).waitsLive g ∧ (s.holdLive p).waiting g = [] then { s.group g with armed := false } else s.group g := by
  by_cases hl : (s.prog p).life.isLive = true
  · have hhold : s.holdLive p = s.hold p := if_pos hl
    rw [hhold]
    by_cases hw : (s.prog p).move.state.isCueWait = true
    · obtain ⟨r, k, hst⟩ := isCueWait_iff.mp hw
      rw [hold_group_of_waiting hst]
      simp only [Programme.waitsLive, hl, hw, and_true, true_and]
    · rw [if_neg (fun h => hw h.1.2.2)]
      exact State.group_congr (hold_groups_of_not_waiting (by simpa using hw)) g
  · have hhold : s.holdLive p = s := if_neg hl
    rw [hhold, if_neg (fun h => hl h.1.1)]

/-- The holds of a list of programmes end the waits of its LIVE programmes and begin none. -/
theorem waiting_holdEach {ps : List (Fin 8)} (hps : ps.Nodup) (s : State) (g : Fin 4) :
    (s.waiting g = [] → (forProgs ps State.holdLive s).waiting g = [])
      ∧ ((forProgs ps State.holdLive s).waiting g = [] → (∀ q ∈ ps, ¬ (s.prog q).waitsLive g) → s.waiting g = []) := by
  have hkept : s.sameButMoves (forProgs ps State.holdLive s) :=
    foldl_trans sameButMoves_refl State.sameButMoves.trans _ (fun t p => holdLive_sameButMoves t p) ps s
  have hlife (q : Fin 8) : ((forProgs ps State.holdLive s).prog q).life = (s.prog q).life := by rw [hkept q]
  have hgroup (q : Fin 8) : ((forProgs ps State.holdLive s).prog q).group = (s.prog q).group := by rw [hkept q]
  have hwait (q : Fin 8) : ((forProgs ps State.holdLive s).prog q).move.state.isCueWait
      = if q ∈ ps ∧ (s.prog q).life.isLive = true then false else (s.prog q).move.state.isCueWait := by
    rw [prog_holdEach hps]
    unfold Programme.heldLive
    by_cases hq : q ∈ ps
    · by_cases hl : (s.prog q).life.isLive = true
      · rw [if_pos hq, if_pos hl, if_pos ⟨hq, hl⟩, held_not_waiting]
      · rw [if_pos hq, if_neg hl, if_neg (fun h => hl h.2)]
    · rw [if_neg hq, if_neg (fun h => hq h.1)]
  simp only [List.eq_nil_iff_forall_not_mem, mem_waiting, hlife, hgroup, hwait]
  refine ⟨fun h q ⟨hc, hg, hw⟩ => ?_, fun h hno q ⟨hc, hg, hw⟩ => ?_⟩
  · by_cases hq : q ∈ ps ∧ (s.prog q).life.isLive = true
    · rw [if_pos hq] at hw; cases hw
    · rw [if_neg hq] at hw; exact h q ⟨hc, hg, hw⟩
  · have hq : ¬ (q ∈ ps ∧ (s.prog q).life.isLive = true) := fun hq => hno q hq.1 ⟨hq.2, hg, hw⟩
    exact h q ⟨hc, hg, by rw [if_neg hq]; exact hw⟩

/-- The holds disarm a group exactly when they end a wait in it and nobody waits there after them (R78, R101). -/
theorem holdEach_group {ps : List (Fin 8)} (hps : ps.Nodup) (s : State) (g : Fin 4) : (forProgs ps State.holdLive s).group g =
    if (∃ q ∈ ps, (s.prog q).waitsLive g) ∧ (forProgs ps State.holdLive s).waiting g = [] then { s.group g with armed := false } else s.group g := by
  induction ps generalizing s with
  | nil => rw [if_neg (by simp)]; rfl
  | cons p ps ih =>
    obtain ⟨hp, hps⟩ := List.nodup_cons.mp hps
    have hrest : forProgs (p :: ps) State.holdLive s = forProgs ps State.holdLive (s.holdLive p) := rfl
    have hother (q : Fin 8) (hq : q ∈ ps) : (s.holdLive p).prog q = s.prog q := holdLive_otherProgs s p q (fun h => hp (h ▸ hq))
    have hsame : (∃ q ∈ ps, ((s.holdLive p).prog q).waitsLive g) ↔ ∃ q ∈ ps, (s.prog q).waitsLive g :=
      exists_congr fun q => and_congr_right fun hq => by rw [hother q hq]
    obtain ⟨hdown, hup⟩ := waiting_holdEach hps (s.holdLive p) g
    rw [hrest, ih hps (s.holdLive p), holdLive_group]
    simp only [hsame, List.exists_mem_cons_iff]
    by_cases hall : (forProgs ps State.holdLive (s.holdLive p)).waiting g = []
    · by_cases hsome : ∃ q ∈ ps, (s.prog q).waitsLive g
      · simp only [hall, hsome, and_true, or_true, if_true]
        split <;> rfl
      · have hnow : (s.holdLive p).waiting g = [] :=
          hup hall (fun q hq hw => hsome ⟨q, hq, by rw [← hother q hq]; exact hw⟩)
        rw [if_neg (fun h => hsome h.1)]
        simp only [hnow, hall, hsome, or_false, and_true]
    · have hnow : (s.holdLive p).waiting g ≠ [] := fun h => hall (hdown h)
      simp only [hall, hnow, and_false, if_false]

/-! ### MOVE.HOLDALL -/

theorem holdEnds_isSome_iff (x : Programme) : x.holdEnds.isSome = true ↔ (∃ r k, x.move.state = .cueWait r k)
    ∨ (∃ r v ph k, x.move.state = .moving r ph k ∧ r.kind = .glide v)
    ∨ ∃ r f k, x.move.state = .moving r .fadeOut k ∧ r.kind = .fade f ∧ f ≤ k := by
  unfold Programme.holdEnds
  cases x.move.state with
  | still => simp
  | halted _ => simp
  | readWait _ _ => simp
  | cueWait r k => simp
  | moving r ph k =>
    dsimp only
    cases hk : r.kind with
    | jump => simp [hk]
    | glide v => simp [hk]
    | fade f =>
      cases ph with
      | fadeOut => by_cases hf : f ≤ k <;> simp [hk, hf]
      | fadeIn => simp [hk]
      | fadeBack => simp [hk]
      | none => simp [hk]

theorem holdDecides_iff (x : Programme) : x.holdDecides = true ↔ ∃ r, x.move.state = .readWait r none := by
  unfold Programme.holdDecides
  cases x.move.state with
  | readWait r d => cases d <;> simp
  | still => simp
  | moving _ _ _ => simp
  | cueWait _ _ => simp
  | halted _ => simp

/-- The MOVE_DONE and the REPORT_LOST events of one programme's hold. -/
theorem heldLiveSent_filter (x : Programme) (p : Fin 8) :
    (x.heldLiveSent p).1.filter (fun e => e.1 == .moveDone)
        = (if (x.life.isLive && (x.holdEnds.isSome || x.holdDecides)) = true then [(.moveDone, some p, 1)] else [])
      ∧ (x.heldLiveSent p).1.filter (fun e => e.1 == .reportLost)
        = (if (x.life.isLive && x.holdEnds.isSome && decide (2 ≤ x.move.reports.length)) = true then [(.reportLost, some p, 1)] else []) := by
  unfold Programme.heldLiveSent Programme.heldSent
  cases x.life.isLive with
  | false => simp
  | true =>
    cases x.holdEnds with
    | none => cases x.holdDecides <;> simp
    | some o =>
      by_cases hl : x.move.reports.length < 2
      · simp [Programme.endSent, MoveUnit.lossSent, MoveUnit.loses, hl, Nat.not_le.mpr hl]
      · simp [Programme.endSent, MoveUnit.lossSent, MoveUnit.loses, hl, Nat.le_of_not_lt hl]

/-- The events of one kind, one for each programme that sends one. -/
theorem filter_flatMap_sent {es : Fin 8 → List Sent} {b : Fin 8 → Bool} {e : CountEvent}
    (h : ∀ p, (es p).filter (fun x => x.1 == e) = if b p = true then [(e, some p, 1)] else []) (ks : List (Fin 8)) :
    (ks.flatMap es).filter (fun x => x.1 == e) = (ks.filter b).map (fun p => (e, some p, 1)) := by
  induction ks with
  | nil => rfl
  | cons k ks ih =>
    rw [List.flatMap_cons, List.filter_append, ih, h, List.filter_cons]
    cases b k <;> rfl

/-- A counter that has been offered one event of its kind for each of these programmes. -/
theorem Sends.counter_of_each {es : Fin 8 → List Sent} {ns : List (Fin 59)} {b : Fin 8 → Bool} {e : CountEvent} {c : Fin 8}
    (hs : Sends ((List.finRange 8).flatMap es) ns s t) (he : e ≠ .alarmRaise) (hc : (s.counter c).event = some e)
    (h : ∀ p, (es p).filter (fun x => x.1 == e) = if b p = true then [(e, some p, 1)] else []) :
    t.counter c = ((List.finRange 8).filter b).foldl (fun x p => Counter.offer e (some p) 1 x) (s.counter c) := by
  rw [hs.counter c (by rw [hc]; simpa using he), Counter.offerAll_filter hc, filter_flatMap_sent h, Counter.offerAll, List.foldl_map]

theorem holdAll_group (s : State) (g : Fin 4) : s.holdAll.group g =
    if (∃ q ∈ List.finRange 8, (s.prog q).waitsLive g) ∧ s.holdAll.waiting g = [] then { s.group g with armed := false } else s.group g :=
  holdEach_group (List.nodup_finRange 8) s g

/-- Settles O34: the holds are taken one programme after the other, and each reads and writes its own programme, MOVE source and
group alone. -/
theorem moveHoldallHoldsEveryLiveProgramme : Obligations.MoveHoldallHoldsEveryLiveProgramme := by
  unfold Obligations.MoveHoldallHoldsEveryLiveProgramme
  refine fun s tag hs => ⟨fun ended cancelled hcancelled hended => ?_, fun b bs => ?_⟩
  · refine completes_of_answer (r := ⟨tag, 0x36, []⟩) (a := ⟨(s.taking ⟨tag, 0x36, []⟩).holdAll, .ok, []⟩) rfl (.inl hs) rfl ?_
    have hsends : Sends ((List.finRange 8).flatMap (fun p => ((s.prog p).heldLiveSent p).1))
        ((List.finRange 8).flatMap (fun p => List.replicate ((s.prog p).heldLiveSent p).2 (moveSource p))) s
        ((⟨(s.taking ⟨tag, 0x36, []⟩).holdAll, .ok, []⟩ : Answer).sent ⟨tag, 0x36, []⟩) :=
      Sends.acrossRequest (holdAll_sends (s.taking ⟨tag, 0x36, []⟩)) .ok []
    have hprog (p : Fin 8) : (s.taking ⟨tag, 0x36, []⟩).holdAll.prog p = (s.prog p).heldLive s.ref.hsc := prog_holdAll _ p
    have hgroup (g : Fin 4) := holdAll_group (s.taking ⟨tag, 0x36, []⟩) g
    have hwithin := (sendsWithin_of_sameBut (taking_sameBut (s := s) (r := ⟨tag, 0x36, []⟩))).trans (holdAll_within (s.taking ⟨tag, 0x36, []⟩))
    have hall := holdAll_sameBut (s.taking ⟨tag, 0x36, []⟩)
    have hcount (p : Fin 8) := count_flatMap_finRange moveSource_injective (fun k => ((s.prog k).heldLiveSent k).2) p
    have hend (p : Fin 8) : ended p = ((s.prog p).life.isLive && (s.prog p).holdEnds.isSome) := by
      rw [Bool.eq_iff_iff, hended, Bool.and_eq_true, holdEnds_isSome_iff]
    have hcancel (p : Fin 8) : cancelled p = ((s.prog p).life.isLive && (s.prog p).holdDecides) := by
      rw [Bool.eq_iff_iff, hcancelled, Bool.and_eq_true, holdDecides_iff]
    have hwaits (g : Fin 4) : (∃ p r k, (s.prog p).life.isLive = true ∧ (s.prog p).group = some g ∧ (s.prog p).move.state = .cueWait r k)
        ↔ ∃ p ∈ List.finRange 8, (s.prog p).waitsLive g := by
      simp only [List.mem_finRange, true_and, Programme.waitsLive, isCueWait_iff]
      exact exists_congr fun p => ⟨fun ⟨r, k, h1, h2, h3⟩ => ⟨h1, h2, r, k, h3⟩, fun ⟨h1, h2, r, k, h3⟩ => ⟨r, k, h1, h2, h3⟩⟩
    generalize (s.taking ⟨tag, 0x36, []⟩).holdAll = v at *
    have hsame : s.sameBut (.progs :: .groups :: .port :: eventParts) ((⟨v, .ok, []⟩ : Answer).sent ⟨tag, 0x36, []⟩) :=
      sameBut_of_take (a := ⟨v, .ok, []⟩) (by decide) (sameBut_mono hall (by decide))
    have hsource (p : Fin 8) : v.source (moveSource p) = (s.source (moveSource p)).latchedTimes s.ref.hsc ((s.prog p).heldLiveSent p).2 := by
      refine (hsends.source (moveSource p) (moveSource_ne_counterSource p)).trans ?_
      rw [hcount]
    refine ⟨fun p hl => ?_, fun p hl => ?_, fun g => ?_, fun c hc => ?_, fun c hc => ?_, hwithin.otherSources, hwithin.otherCounters, hsame⟩
    · obtain ⟨q, v, hq, hexec, -, u, r, -, -, hheld, -, hone⟩ := completes_of_hold (tag := tag) hs hl
      refine ⟨v, hexec, (hprog p).trans ((if_pos hl).trans hheld.symm), ?_⟩
      rw [Sends.source hone _ (moveSource_ne_counterSource p), List.count_replicate_self]
      refine (hsource p).trans ?_
      unfold Programme.heldLiveSent
      rw [if_pos hl]
    · have hno : ¬ (s.prog p).life.isLive = true := by rw [hl]; decide
      refine ⟨(hprog p).trans (if_neg hno), (hsource p).trans ?_⟩
      have hzero : ((s.prog p).heldLiveSent p).2 = 0 := by unfold Programme.heldLiveSent; rw [if_neg hno]
      rw [hzero]
      rfl
    · rw [hwaits]
      exact ⟨fun h => (hgroup g).trans (if_pos h), fun h => (hgroup g).trans (if_neg h)⟩
    · refine hsends.counter_of_each (by simp) hc (fun p => ?_)
      rw [hend, hcancel, ← Bool.and_or_distrib_left]
      exact (heldLiveSent_filter (s.prog p) p).1
    · refine hsends.counter_of_each (by simp) hc (fun p => ?_)
      rw [hend]
      exact (heldLiveSent_filter (s.prog p) p).2
  · exact refused_of_answer (r := ⟨tag, 0x36, b :: bs⟩) rfl (.inl hs) rfl

end Sys2Proof.Machine
end

