-- ==== Sys2Proof/Proofs/MoveEnds.lean ====
section
/-! PROOFS. MOVE_END: the share of the house sample now due that ends a move (R70 to R74, R83, R84). -/

namespace Sys2Proof.Machine

variable {s t u : State} {p : Fin 8}

/-! ### Reports and records entered, at the programme -/

theorem reported_withState (u : MoveUnit) (st : MoveState) (y : Report) :
    MoveUnit.reported { u with state := st } y = { u.reported y with state := st } := by
  unfold MoveUnit.reported
  by_cases h : u.reports.length < 2
  · rw [if_pos h, if_pos h]
  · rw [if_neg h, if_neg h]

theorem reported_eq (u : MoveUnit) (y : Report) : ∃ l n, u.reported y = { u with reports := l, lost := n } := by
  obtain ⟨l, n, h, -⟩ := written_eq u y
  exact ⟨l, n, by rw [← written_eq_reported, h]⟩

section
variable {x : Programme} {c : MoveRecord} {time : Stamp}

/-- A record entered with the slots full waits for them to be read (R70). -/
theorem entered_of_full (h : x.policy = .block ∧ 2 ≤ x.move.reports.length) (c : MoveRecord) (p : Fin 8) (time : Stamp) :
    x.entered c time = x.withMove { x.move with state := .readWait c none } ∧ x.enteredArms c = none ∧ x.enteredSent p c = ([], 0) :=
  ⟨if_pos h, if_pos h, if_pos h⟩

theorem entered_of_uncued (h : ¬ (x.policy = .block ∧ 2 ≤ x.move.reports.length)) (hc : c.cued = false) (p : Fin 8) (time : Stamp) :
    x.entered c time = x.withMove { x.move with state := startState c } ∧ x.enteredArms c = none ∧ x.enteredSent p c = ([], 0) := by
  unfold Programme.entered Programme.enteredArms Programme.enteredSent
  rw [if_neg h, if_neg h, if_neg h, hc]
  exact ⟨rfl, rfl, rfl⟩

theorem entered_of_cued (h : ¬ (x.policy = .block ∧ 2 ≤ x.move.reports.length)) (hc : c.cued = true) {g : Fin 4} (hg : x.group = some g)
    (p : Fin 8) (time : Stamp) :
    x.entered c time = x.withMove { x.move with state := .cueWait c 0 } ∧ x.enteredArms c = some g ∧ x.enteredSent p c = ([], 0) := by
  unfold Programme.entered Programme.enteredArms Programme.enteredSent
  rw [if_neg h, if_neg h, if_neg h, hc, hg]
  exact ⟨rfl, rfl, rfl⟩

theorem entered_of_no_group (h : ¬ (x.policy = .block ∧ 2 ≤ x.move.reports.length)) (hc : c.cued = true) (hg : x.group = none)
    (p : Fin 8) (time : Stamp) : x.entered c time
        = x.withMove (MoveUnit.reported { x.move with state := .still, staged := .empty } (reportOf c .cueMissed x.move.dcur time))
      ∧ x.enteredArms c = none ∧ x.enteredSent p c = x.endSent p .cueMissed := by
  unfold Programme.entered Programme.enteredArms Programme.enteredSent
  rw [if_neg h, if_neg h, if_neg h, hc, hg]
  exact ⟨missed_eq x c time, rfl, rfl⟩

/-- A record that is entered otherwise than to end at once sends nothing. -/
theorem enteredSent_eq_nil (h : c.cued = true → x.group = none → x.policy = .block ∧ 2 ≤ x.move.reports.length) :
    x.enteredSent p c = ([], 0) := by
  by_cases hfull : x.policy = .block ∧ 2 ≤ x.move.reports.length
  · exact (entered_of_full hfull c p 0).2.2
  · cases hc : c.cued with
    | false => exact (entered_of_uncued hfull hc p 0).2.2
    | true =>
      cases hg : x.group with
      | none => exact absurd (h hc hg) hfull
      | some g => exact (entered_of_cued hfull hc hg p 0).2.2

/-! ### A move's end, at the programme (R71) -/

/-- With nothing committed the unit comes to rest. -/
theorem ended_of_uncommitted (h : x.move.staged.isCommitted = false) (r : MoveRecord) (o : MoveOutcome) (p : Fin 8) (time : Stamp) :
    x.ended r o time = x.withMove { x.move.reported (reportOf r o x.move.dcur time) with state := if o = .halted then .halted r else .still }
      ∧ x.endedArms r o time = none ∧ x.endedSent p r o time = x.endSent p o := by
  obtain ⟨l, n, hu⟩ := reported_eq x.move (reportOf r o x.move.dcur time)
  have hst : (x.withMove (x.move.written (reportOf r o x.move.dcur time))).move.staged = x.move.staged := by
    rw [written_eq_reported, hu]; rfl
  unfold Programme.ended Programme.endedArms Programme.endedSent Programme.followed Programme.followedArms Programme.followedSent
  rw [hst, written_eq_reported]
  cases hcase : x.move.staged with
  | committed c => rw [hcase] at h; cases h
  | empty => exact ⟨rfl, rfl, by simp [MoveSent.append]⟩
  | draft d => exact ⟨rfl, rfl, by simp [MoveSent.append]⟩

/-- A committed record is entered behind the move's end. -/
theorem ended_of_committed (h : x.move.staged = .committed c) (r : MoveRecord) (o : MoveOutcome) (p : Fin 8) (time : Stamp) :
    ∀ z : Programme, z = x.withMove { x.move.reported (reportOf r o x.move.dcur time) with staged := .empty } →
      x.ended r o time = z.entered c time ∧ x.endedArms r o time = z.enteredArms c
        ∧ x.endedSent p r o time = (x.endSent p o).append (z.enteredSent p c) := by
  rintro z rfl
  obtain ⟨l, n, hu⟩ := reported_eq x.move (reportOf r o x.move.dcur time)
  have hst : (x.withMove (x.move.written (reportOf r o x.move.dcur time))).move.staged = .committed c := by
    rw [written_eq_reported, hu]; exact h
  unfold Programme.ended Programme.endedArms Programme.endedSent Programme.followed Programme.followedArms Programme.followedSent
  rw [hst, written_eq_reported]
  exact ⟨rfl, rfl, rfl⟩

end

/-! ### The step that ends a move (R72 to R74, R77) -/

section
variable {r : MoveRecord} {ph : Phase} {k q pos : Nat} {o : MoveOutcome}

theorem stepRecord_ends (h : (r.kind = .jump ∧ o = .reached ∧ pos = r.target * 65536)
    ∨ (∃ v, r.kind = .glide v ∧ max (r.target * 65536) q - min (r.target * 65536) q ≤ (2 * (v * 65536) + 4800) / 9600 ∧ o = .reached
        ∧ pos = r.target * 65536)
    ∨ (∃ f, r.kind = .fade f ∧ f ≤ k + 1 ∧ pos = q ∧ ((ph = .fadeIn ∧ o = .reached) ∨ (ph = .fadeBack ∧ o = .halted)))) :
    (stepRecord r ph k q).ends = some o ∧ (stepRecord r ph k q).pos = pos := by
  rcases h with ⟨hk, rfl, rfl⟩ | ⟨v, hk, hfar, rfl, rfl⟩ | ⟨f, hk, hf, rfl, ⟨rfl, rfl⟩ | ⟨rfl, rfl⟩⟩
  · unfold stepRecord; rw [hk]; exact ⟨rfl, rfl⟩
  · have hgoal : glideTo q (r.target * 65536) (glideStep v) = r.target * 65536 := by
      have hstep : glideStep v = (2 * (v * 65536) + 4800) / 9600 := rfl
      rw [← hstep] at hfar
      unfold glideTo; split_ifs <;> omega
    unfold stepRecord; rw [hk]
    exact ⟨if_pos hgoal, hgoal⟩
  · unfold stepRecord; rw [hk]; exact ⟨if_pos hf, rfl⟩
  · unfold stepRecord; rw [hk]; exact ⟨if_pos hf, rfl⟩

theorem stepRecord_goes_on (h : (∃ v, r.kind = .glide v ∧ (2 * (v * 65536) + 4800) / 9600 < max (r.target * 65536) q - min (r.target * 65536) q)
    ∨ ∃ f, r.kind = .fade f ∧ ((ph = .fadeOut ∧ 1 < f) ∨ (ph ≠ .fadeOut ∧ k + 1 < f))) :
    (stepRecord r ph k q).ends = none := by
  rcases h with ⟨v, hk, hfar⟩ | ⟨f, hk, h⟩
  · have hgoal : glideTo q (r.target * 65536) (glideStep v) ≠ r.target * 65536 := by
      have hstep : glideStep v = (2 * (v * 65536) + 4800) / 9600 := rfl
      rw [← hstep] at hfar
      unfold glideTo; split_ifs <;> omega
    unfold stepRecord; rw [hk]
    exact if_neg hgoal
  · unfold stepRecord
    rw [hk]
    cases ph with
    | fadeOut =>
      have hf : ¬ f ≤ 1 := by rcases h with h | h <;> omega
      by_cases h0 : 0 < k
      · simp only [h0, if_true]
      · simp only [h0, if_false, hf]
    | fadeIn =>
      have hf : ¬ f ≤ k + 1 := by rcases h with h | h; exact absurd h.1 (by decide); omega
      exact if_neg hf
    | fadeBack =>
      have hf : ¬ f ≤ k + 1 := by rcases h with h | h; exact absurd h.1 (by decide); omega
      exact if_neg hf
    | none => rfl

end

/-- The move step that ends a move. -/
theorem stepped_of_ends {x : Programme} {r : MoveRecord} {ph : Phase} {k pos : Nat} {o : MoveOutcome} (hst : x.move.state = .moving r ph k)
    (he : (stepRecord r ph k x.move.pos).ends = some o) (hpos : (stepRecord r ph k x.move.pos).pos = pos) (p : Fin 8) (time : Stamp) :
    ∀ y : Programme, y = x.withMove { x.move with pos := pos, state := (stepRecord r ph k x.move.pos).state } →
      x.stepped time = y.ended r o time ∧ x.steppedArms time = y.endedArms r o time ∧ x.steppedSent p time = y.endedSent p r o time := by
  rintro y rfl
  unfold Programme.stepped Programme.steppedArms Programme.steppedSent
  rw [hst]
  dsimp only
  rw [he, hpos]
  exact ⟨rfl, rfl, rfl⟩

/-! ### What the events come to -/

theorem SendsMove.counts {x : Programme} {o : MoveOutcome} (h : SendsMove (x.endSent p o) p s t) :
    s.countedIn .moveDone (some p) 1 t ∧ s.countedIn .reportLost (some p) x.move.loses t
      ∧ (o = .reached → t.source (moveSource p) = s.source (moveSource p)) ∧ (o ≠ .reached → s.latchedIn (moveSource p) 1 s.ref.hsc t) := by
  refine ⟨Sends.countedIn h (by simp) ?_, Sends.countedIn h (by simp) ?_, fun ho => ?_, fun ho => (SendsMove.ofEnd h ho).1⟩
  · simp [Programme.endSent, MoveUnit.lossSent]
  · simp [Programme.endSent, MoveUnit.lossSent]
  · exact Sends.source_of_not_mem h (moveSource_ne_counterSource p) (by simp [Programme.endSent, ho])

/-- A move's end and, behind it, a record that ends CUE_MISSED at once (R70, R71). -/
theorem SendsMove.counts_missed {x z : Programme} {o : MoveOutcome} (h : SendsMove ((x.endSent p o).append (z.endSent p .cueMissed)) p s t) :
    s.countedIn .moveDone (some p) 2 t ∧ s.countedIn .reportLost (some p) (x.move.loses + z.move.loses) t
      ∧ s.latchedIn (moveSource p) (if o = .reached then 1 else 2) s.ref.hsc t := by
  have htwo : ((x.endSent p o).append (z.endSent p .cueMissed)).2 = if o = .reached then 1 else 2 := by
    by_cases ho : o = .reached <;> simp [MoveSent.append, Programme.endSent, ho]
  refine ⟨Sends.countedIn h (by simp) ?_, Sends.countedIn h (by simp) ?_, ?_⟩
  · simp [MoveSent.append, Programme.endSent, MoveUnit.lossSent, List.replicate]
  · simp [MoveSent.append, Programme.endSent, MoveUnit.lossSent]
  · rw [← htwo]
    exact SendsMove.latchedIn h (by rw [htwo]; split <;> decide)

theorem armGroup_some {g : Fin 4} (h : t.groups = (s.armGroup (some g)).groups) :
    t.group g = { s.group g with armed := true } ∧ ∀ j, j ≠ g → t.group j = s.group j := by
  refine ⟨(State.group_congr h g).trans ((armGroup_group s g g).trans (if_pos rfl)), fun j hj => ?_⟩
  exact (State.group_congr h j).trans ((armGroup_group s g j).trans (if_neg (fun hg => hj hg.symm)))

/-! ### MOVE_END -/

theorem tick_hsc (r : RefUnit) : r.tick.hsc = if r.started then r.hsc + 1 else r.hsc := by unfold RefUnit.tick; split <;> rfl

/-- The state in which the house sample now due is taken: its stamp is the house time it will have. -/
def State.ticked (s : State) : State := { s with ref := s.ref.tick }

/-- The state in which a move unit has taken its share of the house sample now due. -/
def State.moveShare (s : State) (p : Fin 8) : State := (s.onSample (fun u => u.moveStep p)).markAhead (.move p)

theorem moveShare_eq (s : State) (p : Fin 8) :
    s.moveShare p = State.markAhead { s.ticked.moveStep p with ref := s.ref } (.move p) := by
  unfold State.moveShare
  rw [onSample_eq (ref_of_sameBut (moveStep_sameBut s.ticked p) (by decide))]
  rfl

theorem moveShare_ahead (s : State) (p : Fin 8) : (s.moveShare p).ahead = .move p :: s.ahead := by
  rw [moveShare_eq]
  exact congrArg (Ahead.move p :: ·) (moveStep_sameBut s.ticked p .ahead (by decide)).symm

/-- A share that leaves the rest as this state at the house sample's time leaves it. -/
theorem sameBut_of_ticked {ps : List Part} (h : s.ticked.sameBut ps t) (a : List Ahead) :
    s.sameBut (.ahead :: ps) { t with ref := s.ref, ahead := a } := by
  intro q hq
  have hne : q ≠ .ahead ∧ q ∉ ps := by simpa using hq
  have hk := h q hne.2
  cases q <;> first | exact hk | rfl | exact absurd rfl hne.1

theorem exec_moveEnd {h : Held} {w : Nat} (hdue : s.sampleDue = true) (hl : (s.prog p).life = .live h w) (hc : s.ahead.contains (.clear p) = false)
    (hm : s.ahead.contains (.move p) = false) : exec (.moveEnd p) s = .next (if (s.prog p).move.endsNext then s.moveShare p else s) := by
  have hlive : s.liveIndex? p = some w := by rw [State.liveIndex?, hl]; simp only [hc]; rfl
  change execMoveEnd p s = _
  unfold execMoveEnd
  rw [hdue, hlive, hm]
  cases (s.prog p).move.endsNext <;> rfl

/-- Settles O36: the unit's share is its move step at the stamp of the house sample now due; the step ends the move, and the record
committed behind it is entered. -/
theorem moveEndReportsTheMove : Obligations.MoveEndReportsTheMove := by
  unfold Obligations.MoveEndReportsTheMove
  intro s p r ph k w h hdue hl hclear hmove hst x stamp goal far hx hstamp hgoal hfar
  subst hx
  rw [exec_moveEnd hdue hl hclear hmove]
  have hhsc : s.ticked.ref.hsc = stamp := (tick_hsc s.ref).trans hstamp.symm
  refine ⟨fun pos o u hkind hu => ?_, fun hkind => ?_⟩
  · subst hgoal hfar
    obtain ⟨hends, hpos⟩ := stepRecord_ends (ph := ph) hkind
    have hnext : (s.prog p).move.endsNext = true := by unfold MoveUnit.endsNext; rw [hst]; dsimp only; rw [hends]; rfl
    rw [if_pos hnext]
    have hsame := moveStep_sameBut s.ticked p
    have hwithin := moveStep_within s.ticked p
    have hothers := moveStep_otherProgs s.ticked p
    have hprog := prog_moveStep s.ticked p
    have hgroups := moveStep_groups s.ticked p
    have hsends := moveStep_sends s.ticked p
    rw [hhsc] at hprog hgroups hsends
    have hkept : s.ticked.prog p = s.prog p := rfl
    obtain ⟨y, hy⟩ : ∃ y, y = (s.prog p).withMove { (s.prog p).move with pos := pos, state := (stepRecord r ph k (s.prog p).move.pos).state } := ⟨_, rfl⟩
    obtain ⟨hstep, harms, hsent⟩ := stepped_of_ends hst hends hpos p stamp y hy
    rw [hkept, hstep] at hprog
    rw [hkept, harms] at hgroups
    rw [hkept, hsent] at hsends
    have hendSent : y.endSent p o = (s.prog p).endSent p o := by rw [hy]; rfl
    have hwritten : y.move.reported (reportOf r o y.move.dcur stamp) = { u with state := (stepRecord r ph k (s.prog p).move.pos).state } := by
      rw [hu, hy]; exact reported_withState { (s.prog p).move with pos := pos } _ _
    have hupos : u.pos = pos ∧ u.staged = (s.prog p).move.staged := by
      obtain ⟨l, n, h⟩ := reported_eq { (s.prog p).move with pos := pos } ⟨r.tag, r.kind, o, pos / 65536, stamp, r.clamped⟩
      rw [hu, h]; exact ⟨rfl, rfl⟩
    have hdcur : y.move.dcur = pos / 65536 := by rw [hy]; rfl
    have hloses : (s.prog p).move.loses = y.move.loses := by rw [hy]; rfl
    have hstaged : y.move.staged = (s.prog p).move.staged := by rw [hy]; rfl
    have hrest (v : MoveUnit) : y.withMove v = { s.prog p with move := v } := by rw [hy]; rfl
    refine ⟨_, rfl, moveShare_ahead s p, ?_⟩
    rw [moveShare_eq]
    generalize s.ticked.moveStep p = v at *
    refine ⟨hothers, hwithin.otherSources, hwithin.otherCounters, sameBut_mono (sameBut_of_ticked hsame _) (by decide), fun full hfull => ⟨fun hnot => ?_, fun hc => ?_, fun c hc => ?_⟩⟩
    · have hone : SendsMove ((s.prog p).endSent p o) p s.ticked v := by
        cases hcase : (s.prog p).move.staged.isCommitted with
        | false => rwa [(ended_of_uncommitted (hstaged ▸ hcase) r o p stamp).2.2, hendSent] at hsends
        | true =>
          obtain ⟨c, hc⟩ : ∃ c, (s.prog p).move.staged = .committed c := by
            revert hcase
            cases (s.prog p).move.staged with
            | committed c => exact fun _ => ⟨c, rfl⟩
            | empty => exact fun h => by cases h
            | draft _ => exact fun h => by cases h
          have hsilent : (y.withMove { y.move.reported (reportOf r o y.move.dcur stamp) with staged := .empty }).enteredSent p c = ([], 0) := by
            rw [hwritten, hrest]
            exact enteredSent_eq_nil fun hcued hg => hfull.mp (hnot c hc hcued hg)
          rw [(ended_of_committed (hstaged.trans hc) r o p stamp _ rfl).2.2, hsilent, hendSent] at hsends
          simpa only [MoveSent.append, List.append_nil, Nat.add_zero] using hsends
      obtain ⟨hdone, hlost, hreached, hother⟩ := hone.counts
      exact ⟨hdone, hlost, hreached, fun ho => hhsc ▸ hother ho⟩
    · obtain ⟨hend, harm, -⟩ := ended_of_uncommitted (x := y) (by rw [hstaged]; exact hc) r o p stamp
      rw [hend, hwritten, hrest] at hprog
      rw [harm] at hgroups
      exact ⟨hprog, hgroups⟩
    · obtain ⟨z, hz⟩ : ∃ z, z = y.withMove { y.move.reported (reportOf r o y.move.dcur stamp) with staged := .empty } := ⟨_, rfl⟩
      obtain ⟨hend, harm, hsent⟩ := ended_of_committed (hstaged.trans hc) r o p stamp z hz
      rw [hwritten, hrest] at hz
      rw [hend] at hprog
      rw [harm] at hgroups
      rw [hsent, hendSent] at hsends
      have hslots : (z.policy = .block ∧ 2 ≤ z.move.reports.length) ↔ full := by rw [hfull, hz]
      refine ⟨fun hf => ?_, fun hf hcued => ?_, fun hf hcued g hg => ?_, fun hf hcued hg => ?_⟩
      · obtain ⟨hentered, harm, -⟩ := entered_of_full (hslots.mpr hf) c p stamp
        rw [hentered, hz] at hprog
        rw [harm] at hgroups
        exact ⟨hprog, hgroups⟩
      · obtain ⟨hentered, harm, -⟩ := entered_of_uncued (fun h => hf (hslots.mp h)) hcued p stamp
        rw [hentered, hz] at hprog
        rw [harm] at hgroups
        exact ⟨hgroups, hprog⟩
      · obtain ⟨hentered, harm, -⟩ := entered_of_cued (x := z) (fun h => hf (hslots.mp h)) hcued (by rw [hz]; exact hg) p stamp
        rw [hentered, hz] at hprog
        rw [harm] at hgroups
        exact ⟨hprog, armGroup_some hgroups⟩
      · obtain ⟨hentered, harm, hmissed⟩ := entered_of_no_group (x := z) (fun h => hf (hslots.mp h)) hcued (by rw [hz]; exact hg) p stamp
        have hzdcur : z.move.dcur = pos / 65536 := by rw [hz, ← hupos.1]; rfl
        have hzloses : z.move.loses = u.loses := by rw [hz]; rfl
        rw [hentered, hzdcur, hz] at hprog
        rw [harm] at hgroups
        rw [hmissed] at hsends
        obtain ⟨hdone, hlost, hlatched⟩ := hsends.counts_missed
        rw [hzloses] at hlost
        exact ⟨hprog, hgroups, hdone, hlost, hhsc ▸ hlatched⟩
  · subst hgoal hfar
    have hnext : (s.prog p).move.endsNext = false := by
      unfold MoveUnit.endsNext; rw [hst]; dsimp only; rw [stepRecord_goes_on hkind]; rfl
    rw [hnext]
    rfl

end Sys2Proof.Machine
end

