-- ==== Sys2Proof/Proofs/MoveSet.lean ====
section
/-! PROOFS. MOVE.SET: how its body is read, and the record it builds (R64 to R67). -/

namespace Sys2Proof.Machine

variable {s : State} {p : Fin 8}

/-! ### Optional fields -/

theorem byte2_nat2 (a b : Byte) : byte2 (nat2 a b) = [a, b] := by
  have ha : BitVec.ofNat 8 (nat2 a b / 256) = a := by
    apply BitVec.eq_of_toNat_eq
    simp only [nat2, BitVec.toNat_ofNat]
    omega
  have hb : BitVec.ofNat 8 (nat2 a b) = b := by
    apply BitVec.eq_of_toNat_eq
    simp only [nat2, BitVec.toNat_ofNat]
    omega
  rw [byte2, ha, hb]

/-- What an optional field reads as is what it was laid out from, modulo its width. -/
theorem readOpt2_optField_mod (w : Option Nat) (rest : List Byte) : readOpt2 (optField byte2 w ++ rest) = some (w.map (· % 65536), rest) := by
  cases w with
  | none => rfl
  | some v =>
    have hv : nat2 (BitVec.ofNat 8 (v / 256)) (BitVec.ofNat 8 v) = v % 65536 := by simp only [nat2, BitVec.toNat_ofNat]; omega
    simp [optField, byte2, readOpt2, hv]

theorem readOpt2_eq_some {l rest : List Byte} {w : Option Nat} (h : readOpt2 l = some (w, rest)) : l = optField byte2 w ++ rest := by
  cases l with
  | nil => cases h
  | cons b l =>
    unfold readOpt2 at h
    dsimp only at h
    by_cases h0 : b = 0x00
    · rw [if_pos h0] at h
      cases h
      rw [h0]; rfl
    · rw [if_neg h0] at h
      by_cases h1 : b = 0x01
      · rw [if_pos h1] at h
        match l, h with
        | x :: y :: l', h =>
          cases h
          rw [h1, optField, byte2_nat2]; rfl
      · rw [if_neg h1] at h; cases h

/-! ### Codes -/

theorem readKind_eq_none_iff (b : Byte) : readKind b = none ↔ 2 < b.toNat := by
  unfold readKind
  split_ifs with h0 h1 h2
  · simp [h0]
  · simp [h1]
  · simp [h2]
  · simp only [true_iff]; bv_omega

theorem readUnit_eq_none_iff (b : Byte) : readUnit b = none ↔ 2 < b.toNat := by
  unfold readUnit
  split_ifs with h0 h1 h2
  · simp [h0]
  · simp [h1]
  · simp [h2]
  · simp only [true_iff]; bv_omega

theorem readKind_eq_some {b : Byte} {k : KindCode} (h : readKind b = some k) : (b = 0x02 ↔ k = .glide) ∧ (b = 0x01 ↔ k = .fade) := by
  unfold readKind at h
  split_ifs at h with h0 h1 h2 <;> cases h
  · subst h0; decide
  · subst h1; decide
  · subst h2; decide

theorem readUnit_eq_some {b : Byte} {u : TargetUnit} (h : readUnit b = some u) : b = 0x02 ↔ u = .frames := by
  unfold readUnit at h
  split_ifs at h with h0 h1 h2 <;> cases h
  · subst h0; decide
  · subst h1; decide
  · subst h2; decide

theorem kindFieldsOk_iff (k : KindCode) (rate fade : Option Nat) :
    kindFieldsOk k rate fade = true ↔ (rate.isSome = true ↔ k = .glide) ∧ (fade.isSome = true → k = .fade) := by
  cases k <;> cases rate <;> cases fade <;> simp [kindFieldsOk]

/-! ### The body -/

section
variable {a mtag kc uc v3 v2 v1 v0 flag : Byte} {rate fade : Option Nat}

/-- The body of a MOVE.SET, laid out (section 12.3). -/
def moveSetBody (a mtag kc uc v3 v2 v1 v0 : Byte) (rate fade : Option Nat) (flag : Byte) : List Byte :=
  [a, mtag, kc, uc, v3, v2, v1, v0] ++ (optField byte2 rate ++ optField byte2 fade ++ [flag])

theorem takeMoveSet_of_bad_codes (h : 2 < kc.toNat ∨ 2 < uc.toNat) :
    takeMoveSet (moveSetBody a mtag kc uc v3 v2 v1 v0 rate fade flag) s = refuse s .malformed := by
  unfold moveSetBody takeMoveSet
  rw [List.append_assoc]
  simp only [List.cons_append, List.nil_append, readOpt2_optField_mod]
  rcases h with h | h
  · simp only [(readKind_eq_none_iff kc).mpr h]
  · simp only [(readUnit_eq_none_iff uc).mpr h]
    cases readKind kc <;> rfl

theorem takeMoveSet_of_bad_programme (hk : kc.toNat ≤ 2) (hu : uc.toNat ≤ 2) (ha : 8 ≤ a.toNat) :
    takeMoveSet (moveSetBody a mtag kc uc v3 v2 v1 v0 rate fade flag) s = refuse s .range := by
  obtain ⟨kind, hkind⟩ : ∃ k, readKind kc = some k := Option.ne_none_iff_exists'.mp (fun h => by have := (readKind_eq_none_iff kc).mp h; omega)
  obtain ⟨unit, hunit⟩ : ∃ u, readUnit uc = some u := Option.ne_none_iff_exists'.mp (fun h => by have := (readUnit_eq_none_iff uc).mp h; omega)
  unfold moveSetBody takeMoveSet
  rw [List.append_assoc]
  simp only [List.cons_append, List.nil_append, readOpt2_optField_mod, hkind, hunit, readId_of_le ha]

theorem takeMoveSet_of_codes {kind : KindCode} {unit : TargetUnit} (hk : readKind kc = some kind) (hu : readUnit uc = some unit)
    (ha : readId 8 a = some p) : takeMoveSet (moveSetBody a mtag kc uc v3 v2 v1 v0 rate fade flag) s = if (s.prog p).life.isLive then
      moveSetChecked s p mtag kind unit (nat4 v3 v2 v1 v0) (rate.map (· % 65536)) (fade.map (· % 65536)) flag else refuse s .state := by
  unfold moveSetBody takeMoveSet
  rw [List.append_assoc]
  simp only [List.cons_append, List.nil_append, readOpt2_optField_mod, hk, hu, ha]

/-- A body that is read is laid out as one. -/
theorem takeMoveSet_of_bad_body {body : List Byte} (h : ¬ ∃ (front : List Byte) (rate fade : Option Nat) (flag : Byte), front.length = 8
    ∧ body = front ++ (optField byte2 rate ++ optField byte2 fade ++ [flag])) : takeMoveSet body s = refuse s .malformed := by
  unfold takeMoveSet
  split
  · next p tag kind unit a b c d rest =>
    cases hrate : readOpt2 rest with
    | none => rfl
    | some x =>
      obtain ⟨rate, rest'⟩ := x
      dsimp only
      cases hfade : readOpt2 rest' with
      | none => rfl
      | some y =>
        obtain ⟨fade, rest''⟩ := y
        match rest'', hfade with
        | [], _ => rfl
        | [flag], hfade =>
          refine absurd ⟨[p, tag, kind, unit, a, b, c, d], rate, fade, flag, rfl, ?_⟩ h
          rw [readOpt2_eq_some hrate, readOpt2_eq_some hfade]
          simp
        | _ :: _ :: _, _ => rfl
  · rfl

end

/-! ### The checks, in order (R66, R67) -/

section
variable {mtag flag : Byte} {kind : KindCode} {unit : TargetUnit} {value : Nat} {rate fade : Option Nat}

theorem moveSetChecked_of_bad_fields (h : ¬ (kindFieldsOk kind rate fade = true ∧ flag.toNat ≤ 1)) :
    moveSetChecked s p mtag kind unit value rate fade flag = refuse s .malformed := by
  unfold moveSetChecked
  cases hk : kindFieldsOk kind rate fade with
  | false => rfl
  | true =>
    have hnone : readFlag flag = none := (readFlag_eq_none_iff flag).mpr (Nat.lt_of_not_le fun hle => h ⟨hk, hle⟩)
    rw [hnone]

theorem moveSetChecked_of_good_fields {cued : Bool} (hk : kindFieldsOk kind rate fade = true) (hf : readFlag flag = some cued)
    {asked target : Nat} {k : MoveKind × Bool} {r : MoveRecord} (hasked : asked = targetSamples unit value s.ref.history)
    (htarget : target = clampNat (s.prog p).low (s.prog p).high asked) (hkind : k = clampKind kind rate fade)
    (hr : r = { tag := mtag, kind := k.1, target := target, cued := cued, clamped := target != asked }) :
    moveSetChecked s p mtag kind unit value rate fade flag =
      if unit = .frames ∧ s.ref.history.length < 5 then refuse s .range
      else if (s.prog p).move.staged.isCommitted then refuse s .committed
      else ⟨s.setStaged p (.draft r), okOrAdjusted (r.clamped || k.2), moveRecordBytes r⟩ := by
  subst hasked htarget hkind hr
  unfold moveSetChecked
  rw [hk, hf]

end

/-- The kind with its field, clamped or defaulted (R67). -/
theorem clampKind_eq {kind : KindCode} {rate fade : Option Nat} {k : MoveKind} {moved : Bool} (hglide : rate.isSome = true ↔ kind = .glide)
    (hfadeKind : fade.isSome = true → kind = .fade) (hjump : kind = .jump → k = .jump ∧ moved = false)
    (hfade : kind = .fade → (fade = none → k = .fade 240 ∧ moved = false)
      ∧ ∀ v, fade = some v → k = .fade (max 48 (min 4800 v)) ∧ (moved = true ↔ (v < 48 ∨ 4800 < v)))
    (hrate : kind = .glide → ∀ v, rate = some v → k = .glide (max 1 (min 480 v)) ∧ (moved = true ↔ (v < 1 ∨ 480 < v))) :
    clampKind kind rate fade = (k, moved) := by
  have hclamp {lo hi v : Nat} {b : Bool} (hlo : lo ≤ hi) (h : b = true ↔ (v < lo ∨ hi < v)) : (clampNat lo hi v != v) = b := by
    rw [Bool.eq_iff_iff, h, bne_iff_ne, clampNat]
    omega
  cases kind with
  | jump =>
    obtain ⟨rfl, rfl⟩ := hjump rfl
    rfl
  | fade =>
    cases fade with
    | none =>
      obtain ⟨rfl, rfl⟩ := (hfade rfl).1 rfl
      rfl
    | some v =>
      obtain ⟨rfl, hm⟩ := (hfade rfl).2 v rfl
      exact Prod.ext rfl (hclamp (by decide) hm)
  | glide =>
    cases rate with
    | none => exact absurd (hglide.mpr rfl) (by simp)
    | some v =>
      obtain ⟨rfl, hm⟩ := hrate rfl v rfl
      exact Prod.ext rfl (hclamp (by decide) hm)

/-- The codes of a kind and of a unit on the wire. -/
def kindByte : KindCode → Byte
  | .jump => 0x00
  | .fade => 0x01
  | .glide => 0x02

def unitByte : TargetUnit → Byte
  | .samples => 0x00
  | .tenthsMs => 0x01
  | .frames => 0x02

theorem readKind_kindByte (k : KindCode) : readKind (kindByte k) = some k := by cases k <;> rfl

theorem readUnit_unitByte (u : TargetUnit) : readUnit (unitByte u) = some u := by cases u <;> rfl

/-- A body laid out from its fields comes to the checks with those fields. -/
theorem takeMoveSet_of_fields {mtag : Byte} {kind : KindCode} {unit : TargetUnit} {value : Nat} {rate fade : Option Nat} {cued : Bool}
    (hl : (s.prog p).life.isLive = true) (hvalue : value < 4294967296) (hrate : ∀ v, rate = some v → v < 65536)
    (hfade : ∀ v, fade = some v → v < 65536) :
    takeMoveSet (byte1 p ++ [mtag, kindByte kind, unitByte unit] ++ byte4 value ++ (optField byte2 rate ++ optField byte2 fade ++ flagByte cued)) s
      = moveSetChecked s p mtag kind unit value rate fade (if cued then 0x01 else 0x00) := by
  have hmod (w : Option Nat) (hw : ∀ v, w = some v → v < 65536) : w.map (· % 65536) = w := by
    cases w with
    | none => rfl
    | some v => exact congrArg some (Nat.mod_eq_of_lt (hw v rfl))
  have h := takeMoveSet_of_codes (s := s) (mtag := mtag) (v3 := BitVec.ofNat 8 (value / 16777216)) (v2 := BitVec.ofNat 8 (value / 65536))
    (v1 := BitVec.ofNat 8 (value / 256)) (v0 := BitVec.ofNat 8 value) (rate := rate) (fade := fade) (flag := if cued then 0x01 else 0x00)
    (readKind_kindByte kind) (readUnit_unitByte unit) (readId_ofNat (show 8 ≤ 256 by decide) p)
  rw [if_pos hl, nat4_byte4 hvalue, hmod rate hrate, hmod fade hfade] at h
  exact h

/-- Settles O30: a body reads back as its fields, which are checked in the order of R66 and R67, and the record is built of what they
are clamped to. -/
theorem moveSetBuildsAClampedDraft : Obligations.MoveSetBuildsAClampedDraft := by
  unfold Obligations.MoveSetBuildsAClampedDraft
  refine ⟨?_, fun s tag body hs h => ?_, fun s tag a mtag kc uc v3 v2 v1 v0 flag rate fade body hs hbody => ?_⟩
  · intro s tag mtag p kind unit value rate fade cued hs hvalue hrate hfade hl hcommitted hglide hfadeKind hframes asked k moved rec hasked hjump
      hfadeCase hglideCase hrec
    have hkind := clampKind_eq (kind := kind) (rate := rate) (fade := fade) hglide hfadeKind hjump hfadeCase hglideCase
    have hrecord : rec = ⟨mtag, (k, moved).1, max (s.prog p).low (min (s.prog p).high asked), cued,
        max (s.prog p).low (min (s.prog p).high asked) != asked⟩ := by
      rw [hrec]
      congr 1
      rw [Bool.eq_iff_iff, bne_iff_ne, decide_eq_true_eq]
    obtain ⟨body, hbody⟩ : ∃ body, body = byte1 p ++ [mtag, kindByte kind, unitByte unit] ++ byte4 value
        ++ (optField byte2 rate ++ optField byte2 fade ++ flagByte cued) := ⟨_, rfl⟩
    have hchecked := moveSetChecked_of_good_fields (s := s.taking ⟨tag, 0x30, body⟩) (p := p) (mtag := mtag) (flag := if cued then 0x01 else 0x00)
      (unit := unit) (value := value) ((kindFieldsOk_iff kind rate fade).mpr ⟨hglide, hfadeKind⟩) (readFlag_flag cued)
      (asked := asked) (by rw [hasked]; cases unit <;> rfl) rfl hkind.symm hrecord
    have hpassed := hchecked.trans ((if_neg (fun hn => absurd (hframes hn.1) (Nat.not_le.mpr hn.2))).trans
      (if_neg (fun hn => absurd (hcommitted.symm.trans hn) (by decide))))
    have hstatus : okOrAdjusted (rec.clamped || (k, moved).2) = if rec.clamped = true ∨ moved = true then Status.adjusted else .ok := by
      unfold okOrAdjusted
      simp only [Bool.or_eq_true]
    rw [← hstatus]
    have hdone : Completes (.moveSet tag body) s (okOrAdjusted (rec.clamped || (k, moved).2)) (moveRecordBytes rec) (fun t =>
        t.prog p = { s.prog p with move := { (s.prog p).move with staged := .draft rec } } ∧ s.otherProgs p t ∧ s.sameBut [.progs, .port] t) := by
      refine completes_of_setProg (r := ⟨tag, 0x30, body⟩) rfl hs ?_
      have htaken := takeMoveSet_of_fields (s := s.taking ⟨tag, 0x30, body⟩) (p := p) (mtag := mtag) (kind := kind) (unit := unit) (cued := cued)
        hl hvalue hrate hfade
      rw [← hbody] at htaken
      exact htaken.trans hpassed
    rw [hbody] at hdone
    exact hdone
  · exact refused_of_answer (r := ⟨tag, 0x30, body⟩) rfl (.inl hs) (takeMoveSet_of_bad_body h)
  · subst hbody
    have refused {st : Status} (h : takeMoveSet (moveSetBody a mtag kc uc v3 v2 v1 v0 rate fade flag)
          (s.taking ⟨tag, 0x30, moveSetBody a mtag kc uc v3 v2 v1 v0 rate fade flag⟩) = refuse _ st) :
        RefusedWith (.moveSet tag (moveSetBody a mtag kc uc v3 v2 v1 v0 rate fade flag)) s st :=
      refused_of_answer (r := ⟨tag, 0x30, _⟩) rfl (.inl hs) h
    refine ⟨fun h => refused (takeMoveSet_of_bad_codes h), fun hk hu => ⟨fun ha => refused (takeMoveSet_of_bad_programme hk hu ha), fun p ha => ?_⟩⟩
    obtain ⟨kind, hkind⟩ : ∃ k, readKind kc = some k := Option.ne_none_iff_exists'.mp (fun h => by have := (readKind_eq_none_iff kc).mp h; omega)
    obtain ⟨unit, hunit⟩ : ∃ u, readUnit uc = some u := Option.ne_none_iff_exists'.mp (fun h => by have := (readUnit_eq_none_iff uc).mp h; omega)
    have hid : readId 8 a = some p := by
      unfold readId
      rw [dif_pos (by omega)]
      exact congrArg some (Fin.ext ha)
    have hfields : ((rate.isSome = true ↔ kc = 0x02) ∧ (fade.isSome = true → kc = 0x01) ∧ flag.toNat ≤ 1)
        ↔ kindFieldsOk kind (rate.map (· % 65536)) (fade.map (· % 65536)) = true ∧ flag.toNat ≤ 1 := by
      rw [kindFieldsOk_iff, Option.isSome_map, Option.isSome_map, (readKind_eq_some hkind).1, (readKind_eq_some hkind).2, and_assoc]
    refine ⟨fun hl => refused ((takeMoveSet_of_codes hkind hunit hid).trans (if_neg (fun h => absurd (hl.symm.trans h) (by decide)))),
      fun hl agrees hagrees => ?_⟩
    · have hchecked {st : Status} (h : moveSetChecked (s.taking ⟨tag, 0x30, moveSetBody a mtag kc uc v3 v2 v1 v0 rate fade flag⟩) p mtag kind unit
            (nat4 v3 v2 v1 v0) (rate.map (· % 65536)) (fade.map (· % 65536)) flag = refuse _ st) :
          RefusedWith (.moveSet tag (moveSetBody a mtag kc uc v3 v2 v1 v0 rate fade flag)) s st :=
        refused (by rw [takeMoveSet_of_codes hkind hunit hid, if_pos (by exact hl)]; exact h)
      rw [hfields] at hagrees
      have hgood (h : agrees) : ∃ cued, readFlag flag = some cued :=
        Option.ne_none_iff_exists'.mp (fun hn => by have := (readFlag_eq_none_iff flag).mp hn; have := (hagrees.mp h).2; omega)
      refine ⟨fun h => hchecked (moveSetChecked_of_bad_fields (fun hg => h (hagrees.mpr hg))), fun h huc hlen => ?_, fun h hlen hc => ?_⟩
      · obtain ⟨cued, hcued⟩ := hgood h
        refine hchecked ((moveSetChecked_of_good_fields (hagrees.mp h).1 hcued rfl rfl rfl rfl).trans (if_pos ⟨(readUnit_eq_some hunit).mp huc, hlen⟩))
      · obtain ⟨cued, hcued⟩ := hgood h
        refine hchecked ((moveSetChecked_of_good_fields (hagrees.mp h).1 hcued rfl rfl rfl rfl).trans ?_)
        rw [if_neg (fun hn => absurd (hlen ((readUnit_eq_some hunit).mpr hn.1)) (Nat.not_le.mpr hn.2)), if_pos (by exact hc)]

end Sys2Proof.Machine
end

