-- ==== Sys2Proof/Proofs/AlarmTimers.lean ====
section
/-! PROOFS. ALM.SET, and the timer step of one level source taken ahead (R148 to R151, R156, R157). -/

namespace Sys2Proof.Machine

variable {s t : State} {n : Fin 59}

/-! ### ALM.SET (R156, R157) -/

theorem raisesCounted_of_counters (h : t.counters = s.counters) : s.raisesCounted 0 t := fun c _ => by
  rw [crossings_of_counters h, State.counter_congr h]; rfl

/-- What the settings and the test of the running timer leave of the source. -/
theorem storeSettings_source (s : State) (n : Fin 59) (x : Source) : (s.storeSettings n x).source n =
    if (sourceIsLevel n && x.raiseOver x.timer) = true then x.qualifiedAt s.ref.hsc
    else if (sourceIsLevel n && x.clearOver x.timer) = true then x.unqualified else x := by
  unfold State.storeSettings
  by_cases h : (sourceIsLevel n && x.raiseOver x.timer) = true
  · rw [if_pos h, if_pos h, countRaises_source_ne _ (level_ne_counterSource (by simp only [Bool.and_eq_true] at h; exact h.1)), State.source_setSource]
  · rw [if_neg h, if_neg h]
    by_cases h : (sourceIsLevel n && x.clearOver x.timer) = true
    · rw [if_pos h, if_pos h, State.source_setSource]
    · rw [if_neg h, if_neg h, State.source_setSource]

theorem storeSettings_attnJudged (s : State) (n : Fin 59) (x : Source) : (s.storeSettings n x).attnJudged := by
  unfold State.storeSettings
  split
  · exact countRaises_attnJudged _ _ _ (setSource_attnJudged s n _)
  · split <;> exact setSource_attnJudged s n _

theorem storeSettings_otherSources (s : State) (n : Fin 59) (x : Source) : s.otherSources [n] (s.storeSettings n x) := by
  intro m hm hc
  have hne : m ≠ n := fun h => hm (List.mem_singleton.mpr h)
  unfold State.storeSettings
  split
  · rw [countRaises_source_ne _ hc, State.source_setSource_ne _ hne]
  · split <;> exact State.source_setSource_ne _ hne _

theorem storeSettings_raisesCounted (s : State) (n : Fin 59) (x : Source) (hx : x.qualified = (s.source n).qualified) :
    s.raisesCounted (if (s.source n).qualified = false ∧ ((s.storeSettings n x).source n).qualified = true then 1 else 0) (s.storeSettings n x) := by
  by_cases hn : n = counterSource
  · have hlevel : sourceIsLevel n = false := by rw [hn]; rfl
    have hstore : s.storeSettings n x = s.setSource n x := by unfold State.storeSettings; rw [hlevel]; rfl
    rw [hstore, State.source_setSource, if_neg (by rw [hx]; intro h; exact absurd (h.1.symm.trans h.2) (by decide))]
    exact raisesCounted_of_counters rfl
  · exact (storeSettings_raised s hn x hx).raisesCounted

theorem takeAlmSet_of_length_ne {body : List Byte} (h : body.length ≠ 7) : takeAlmSet body s = refuse s .malformed := by
  unfold takeAlmSet
  split
  · exact absurd rfl h
  · rfl

theorem takeAlmSet_of_fields {prio : Byte} {masked : Bool} {rt ct : Nat} (hrt : rt < 65536) (hct : ct < 65536) :
    takeAlmSet (byte1 n ++ prio :: flagByte masked ++ byte2 rt ++ byte2 ct) s =
      if (s.source n).accepted && min prio.toNat 7 != (s.source n).priority then refuse s .inUse
      else
        ⟨s.storeSettings n ((s.source n).withSettings (sourceIsLevel n) prio.toNat masked rt ct),
          okOrAdjusted (min prio.toNat 7 != prio.toNat || (if sourceIsLevel n then min rt 6000 else 0) != rt
            || (if sourceIsLevel n then min ct 6000 else 0) != ct),
          sourceRecord n ((s.storeSettings n ((s.source n).withSettings (sourceIsLevel n) prio.toNat masked rt ct)).source n)⟩ := by
  have hid := readId_ofNat (show 59 ≤ 256 by decide) n
  have hflag : readFlag (if masked = true then 0x01 else 0x00) = some masked := readFlag_flag masked
  simp only [takeAlmSet, byte1, flagByte, byte2, List.cons_append, List.nil_append, hflag, hid, nat2_byte2 hrt, nat2_byte2 hct, Source.withSettings]

/-- Settles O51: the settings are stored, a running timer that is over acts on the record at once, and ATTN is judged on what is left. -/
theorem almSetStoresAndTestsTheTimer : Obligations.AlmSetStoresAndTestsTheTimer := by
  unfold Obligations.AlmSetStoresAndTestsTheTimer
  refine ⟨fun s tag hs => ⟨fun body h => ?_, fun n prio m r1 r0 c1 c0 => ⟨fun hm => ?_, fun hm hn => ?_⟩⟩, fun s tag prio n masked rt ct hs hrt hct => ⟨fun ha hp => ?_, fun hfree x hx y hy => ?_⟩⟩
  · exact refused_of_answer (r := ⟨tag, 0x60, body⟩) rfl (.inl hs) (takeAlmSet_of_length_ne h)
  · refine refused_of_answer (r := ⟨tag, 0x60, _⟩) rfl (.inl hs) ?_
    change takeAlmSet [n, prio, m, r1, r0, c1, c0] _ = _
    simp only [takeAlmSet, (readFlag_eq_none_iff m).mpr hm]
  · obtain ⟨b, hb⟩ : ∃ b, readFlag m = some b :=
      Option.ne_none_iff_exists'.mp (fun h => by have := (readFlag_eq_none_iff m).mp h; omega)
    refine refused_of_answer (r := ⟨tag, 0x60, _⟩) rfl (.inl hs) ?_
    change takeAlmSet [n, prio, m, r1, r0, c1, c0] _ = _
    simp only [takeAlmSet, hb, readId_of_le hn]
  · refine refused_of_answer (r := ⟨tag, 0x60, _⟩) rfl (.inl hs) ((takeAlmSet_of_fields hrt hct).trans (if_pos ?_))
    rw [Bool.and_eq_true, bne_iff_ne]
    exact ⟨ha, hp⟩
  · have hpass (u : State) (hu : u.source n = s.source n) : ¬ ((u.source n).accepted && min prio.toNat 7 != (u.source n).priority) = true := by
      rw [Bool.and_eq_true, bne_iff_ne, hu]
      rintro ⟨ha, hp⟩
      exact hfree.elim (fun h => absurd (h.symm.trans ha) (by decide)) (fun h => hp h)
    have hfields : (s.source n).withSettings (sourceIsLevel n) prio.toNat masked rt ct = x := hx.symm
    obtain ⟨q, hq⟩ : ∃ q : Request, q = ⟨tag, 0x60, byte1 n ++ prio :: flagByte masked ++ byte2 rt ++ byte2 ct⟩ := ⟨_, rfl⟩
    have hsource : ((s.taking q).storeSettings n x).source n = y := by
      rw [storeSettings_source, hy]
      simp only [Source.raiseOver, Source.clearOver, Bool.and_eq_true, Bool.not_eq_true', decide_eq_true_eq, and_assoc]
      rfl
    have hstatus : okOrAdjusted (min prio.toNat 7 != prio.toNat || x.raiseTime != rt || x.clearTime != ct)
        = if prio.toNat ≤ 7 ∧ x.raiseTime = rt ∧ x.clearTime = ct then Status.ok else .adjusted := by
      have hp : min prio.toNat 7 = prio.toNat ↔ prio.toNat ≤ 7 := by omega
      unfold okOrAdjusted
      by_cases h1 : min prio.toNat 7 = prio.toNat <;> by_cases h2 : x.raiseTime = rt <;> by_cases h3 : x.clearTime = ct <;>
        simp [h1, h2, h3, ← hp]
    have hanswer : takeRequest q.code q.body (s.taking q) = ⟨(s.taking q).storeSettings n x,
        okOrAdjusted (min prio.toNat 7 != prio.toNat || x.raiseTime != rt || x.clearTime != ct), sourceRecord n y⟩ := by
      rw [hq]
      refine (takeAlmSet_of_fields hrt hct).trans ((if_neg (hpass _ rfl)).trans ?_)
      rw [← hq, ← hsource, ← hfields]
      rfl
    rw [← hstatus]
    refine completes_of_answer (a := ⟨_, _, _⟩) (by rw [hq]; rfl) (.inl hs) hanswer ?_
    have hkept : x.qualified = ((s.taking q).source n).qualified := by rw [hx]; rfl
    have hraises := storeSettings_raisesCounted (s.taking q) n x hkept
    rw [hsource, ← hkept] at hraises
    exact ⟨hsource, storeSettings_attnJudged _ n x, hraises, storeSettings_otherSources (s.taking q) n x,
      otherCounters_of_same [] (fun c hc => storeSettings_counter (s := s.taking q) hc n x),
      sameBut_of_take (by decide) (sameBut_mono (storeSettings_sameBut _ n x) (by decide))⟩

/-! ### A level source takes the block end ahead (R148 to R151) -/

theorem timerStep_of_settled (h : (s.source n).condition = (s.source n).qualified) : s.timerStep n = s := by
  unfold State.timerStep
  dsimp only
  rw [if_pos (by simpa using h)]

theorem timerStep_of_raise (hc : (s.source n).condition = true) (hq : (s.source n).qualified = false)
    (hr : (s.source n).raiseTime ≤ (s.source n).timer + 1) : s.timerStep n = s.qualify n := by
  unfold State.timerStep
  dsimp only
  rw [if_neg (by simp [hc, hq]), if_pos (by simp [Source.raiseOver, hc, hq, hr])]

theorem timerStep_of_clear (hc : (s.source n).condition = false) (hq : (s.source n).qualified = true)
    (hr : (s.source n).clearTime ≤ (s.source n).timer + 1) : s.timerStep n = s.setSource n (s.source n).unqualified := by
  unfold State.timerStep
  dsimp only
  rw [if_neg (by simp [hc, hq]), if_neg (by simp [Source.raiseOver, hc]), if_pos (by simp [Source.clearOver, hc, hq, hr])]
  rfl

theorem timerStep_of_running (hne : (s.source n).condition ≠ (s.source n).qualified) (hr : (s.source n).raiseOver ((s.source n).timer + 1) = false)
    (hc : (s.source n).clearOver ((s.source n).timer + 1) = false) :
    s.timerStep n = s.setSource n { s.source n with timer := (s.source n).timer + 1 } := by
  unfold State.timerStep
  dsimp only
  rw [if_neg (by simpa using hne), hr, hc]
  rfl

section
variable (hb : s.blockEndDue = true) (ha : s.ahead.contains (.source n) = false) (hl : sourceIsLevel n = true)
include hb ha hl

theorem exec_sourceQualifies : exec (.sourceQualifies n) s
    = .next (if (s.source n).clearOver ((s.source n).timer + 1) then s else (s.timerStep n).markAhead (.source n)) := by
  change execSourceQualifies n s = _
  unfold execSourceQualifies State.sourceDue
  rw [hb, ha, hl]
  cases (s.source n).clearOver ((s.source n).timer + 1) <;> rfl

theorem exec_sourceLosesQualification : exec (.sourceLosesQualification n) s
    = .next (if (s.source n).raiseOver ((s.source n).timer + 1) then s else (s.timerStep n).markAhead (.source n)) := by
  change execSourceLosesQualification n s = _
  unfold execSourceLosesQualification State.sourceDue
  rw [hb, ha, hl]
  cases (s.source n).raiseOver ((s.source n).timer + 1) <;> rfl

/-- Where no timer of its own ends the other way, either row is the source's timer step. -/
theorem exec_sourceShare {c : Instr} (hc : c ∈ [Instr.sourceQualifies n, .sourceLosesQualification n])
    (hr : (s.source n).raiseOver ((s.source n).timer + 1) = false) (hcl : (s.source n).clearOver ((s.source n).timer + 1) = false) :
    exec c s = .next ((s.timerStep n).markAhead (.source n)) := by
  simp only [List.mem_cons, List.not_mem_nil, or_false] at hc
  rcases hc with rfl | rfl
  · rw [exec_sourceQualifies hb ha hl, hcl]; rfl
  · rw [exec_sourceLosesQualification hb ha hl, hr]; rfl

end

theorem setSource_markAhead_sameBut (s : State) (n : Fin 59) (x : Source) (a : Ahead) :
    s.sameBut [.sources, .attn, .contacts, .ahead] ((s.setSource n x).markAhead a) :=
  sameBut_trans (sameBut_mono (setSource_sameBut_flags s n x) (by decide)) (sameBut_mono (withAhead_sameBut _ _) (by decide))

/-- Settles O53: the row is the source's timer step, which qualifies it, ends its qualification, counts or does nothing. -/
theorem timersQualifyAndLoseQualification : Obligations.TimersQualifyAndLoseQualification := by
  unfold Obligations.TimersQualifyAndLoseQualification
  intro s n hb ha hl
  have hne := level_ne_counterSource hl
  refine ⟨fun hc hq hr => ?_, fun hc hq hr => ?_, fun c hmem => ⟨fun heq => ?_, fun hdiff hrun => ?_⟩⟩
  · have hraise : (s.source n).raiseOver ((s.source n).timer + 1) = true := by simp [Source.raiseOver, hc, hq, hr]
    have hclear : (s.source n).clearOver ((s.source n).timer + 1) = false := by simp [Source.clearOver, hc]
    refine ⟨(s.qualify n).markAhead (.source n), ?_, qualify_source s hne, qualify_attnJudged s n, ?_, (qualify_raised s hne).raisesCounted,
      fun m hm hcs => qualify_source_ne s hcs (fun h => hm (List.mem_singleton.mpr h)), otherCounters_of_same [] (fun c hc => qualify_counter s hc n),
      ?_, ?_⟩
    · rw [exec_sourceQualifies hb ha hl, hclear, timerStep_of_raise hc hq hr]; rfl
    · exact congrArg (Ahead.source n :: ·) (qualify_sameBut s n .ahead (by decide)).symm
    · exact sameBut_trans (sameBut_mono (qualify_sameBut s n) (by decide)) (sameBut_mono (withAhead_sameBut _ _) (by decide))
    · rw [exec_sourceLosesQualification hb ha hl, hraise]; rfl
  · have hraise : (s.source n).raiseOver ((s.source n).timer + 1) = false := by simp [Source.raiseOver, hc]
    have hclear : (s.source n).clearOver ((s.source n).timer + 1) = true := by simp [Source.clearOver, hc, hq, hr]
    refine ⟨(s.setSource n (s.source n).unqualified).markAhead (.source n), ?_, State.source_setSource s n _, rfl, rfl,
      fun m hm => State.source_setSource_ne s hm _, setSource_markAhead_sameBut s n _ _, ?_⟩
    · rw [exec_sourceLosesQualification hb ha hl, hraise, timerStep_of_clear hc hq hr]; rfl
    · rw [exec_sourceQualifies hb ha hl, hclear]; rfl
  · have hraise : (s.source n).raiseOver ((s.source n).timer + 1) = false := by
      unfold Source.raiseOver; rw [heq]; cases (s.source n).qualified <;> rfl
    have hclear : (s.source n).clearOver ((s.source n).timer + 1) = false := by
      unfold Source.clearOver; rw [heq]; cases (s.source n).qualified <;> rfl
    rw [exec_sourceShare hb ha hl hmem hraise hclear, timerStep_of_settled heq]
    rfl
  · have hraise : (s.source n).raiseOver ((s.source n).timer + 1) = false := by
      unfold Source.raiseOver
      cases hc : (s.source n).condition with
      | false => rfl
      | true => rw [hc, if_pos rfl] at hrun; simp [Nat.not_le.mpr hrun]
    have hclear : (s.source n).clearOver ((s.source n).timer + 1) = false := by
      unfold Source.clearOver
      cases hc : (s.source n).condition with
      | true => rfl
      | false => rw [hc, if_neg (by decide)] at hrun; simp [Nat.not_le.mpr hrun]
    refine ⟨(s.setSource n { s.source n with timer := (s.source n).timer + 1 }).markAhead (.source n), ?_, State.source_setSource s n _, rfl, rfl,
      fun m hm => State.source_setSource_ne s hm _, setSource_markAhead_sameBut s n _ _⟩
    rw [exec_sourceShare hb ha hl hmem hraise hclear, timerStep_of_running hdiff hraise hclear]

end Sys2Proof.Machine
end

