-- ==== Sys2Proof/Proofs/CueSettings.lean ====
section
/-! PROOFS. CUE.SET and SNAP.READ (R95, R104), and the FRAME_REF report (R92). -/

namespace Sys2Proof.Machine

variable {s t : State} {g : Fin 4}

/-! ### The FRAME_REF report (R92) -/

theorem reported_condition (hsc : Stamp) (v : Bool) (r : Source) : (r.reported hsc v).condition = v := by
  unfold Source.reported
  split
  · next h => exact h
  · split
    · rfl
    · split <;> rfl

theorem reportFrameRef_condition (s : State) : (s.reportFrameRef.source frameRefSource).condition = (!s.ref.present && s.anyFrameGroup) := by
  unfold State.reportFrameRef
  rw [report_source s frameRefSource_ne_counterSource, reported_condition]

theorem reportFrameRef_otherSources (s : State) : s.otherSources [frameRefSource] s.reportFrameRef :=
  fun _ hn hc => report_source_ne s hc (fun h => hn (List.mem_singleton.mpr h)) _

theorem reportFrameRef_otherCounters (s : State) : s.otherCounters [] s.reportFrameRef :=
  otherCounters_of_same [] (fun _ hc => report_counter s hc _ _)

/-! ### CUE.SET (R95) -/

theorem readCueSource_eq_none_iff (b : Byte) : readCueSource b = none ↔ 4 < b.toNat := by
  unfold readCueSource
  split_ifs with h0 h1 h2 h3 h4
  · simp [h0]
  · simp [h1]
  · simp [h2]
  · simp [h3]
  · simp [h4]
  · simp only [true_iff]; bv_omega

theorem takeCueSet_of_length_ne {body : List Byte} (h : body.length ≠ 6) : takeCueSet body s = refuse s .malformed := by
  unfold takeCueSet
  split
  · exact absurd rfl h
  · rfl

theorem takeCueSet_of_bad_code {a src t1 t0 rs sn : Byte} (h : 4 < src.toNat ∨ 1 < rs.toNat ∨ 1 < sn.toNat) :
    takeCueSet [a, src, t1, t0, rs, sn] s = refuse s .malformed := by
  unfold takeCueSet
  dsimp only
  rcases h with h | h | h
  · rw [(readCueSource_eq_none_iff src).mpr h]
  · rw [(readFlag_eq_none_iff rs).mpr h]
    cases readCueSource src <;> rfl
  · rw [(readFlag_eq_none_iff sn).mpr h]
    cases readCueSource src <;> cases readFlag rs <;> rfl

theorem takeCueSet_of_bad_group {a src t1 t0 rs sn : Byte} (h0 : src.toNat ≤ 4) (h1 : rs.toNat ≤ 1) (h2 : sn.toNat ≤ 1) (ha : 4 ≤ a.toNat) :
    takeCueSet [a, src, t1, t0, rs, sn] s = refuse s .range := by
  obtain ⟨x, hx⟩ : ∃ x, readCueSource src = some x :=
    Option.ne_none_iff_exists'.mp (fun h => by have := (readCueSource_eq_none_iff src).mp h; omega)
  obtain ⟨b, hb⟩ : ∃ b, readFlag rs = some b := Option.ne_none_iff_exists'.mp (fun h => by have := (readFlag_eq_none_iff rs).mp h; omega)
  obtain ⟨c, hc⟩ : ∃ c, readFlag sn = some c := Option.ne_none_iff_exists'.mp (fun h => by have := (readFlag_eq_none_iff sn).mp h; omega)
  simp only [takeCueSet, hx, hb, hc, readId_of_le ha]

/-- The state with the settings of a group stored and FRAME_REF reported. -/
def State.withGroup (s : State) (g : Fin 4) (x : CueGroup) : State := (s.setGroup g x).reportFrameRef

theorem takeCueSet_of_fields {src : CueSource} {timeout : Nat} {restart snapshot : Bool} (ht : timeout < 65536) {x : CueGroup}
    (hx : x = { s.group g with source := src, timeout := max 1 (min 6000 timeout), restart := restart, snapshot := snapshot }) :
    takeCueSet (byte1 g ++ cueSourceCode src :: byte2 timeout ++ flagByte restart ++ flagByte snapshot) s
      = ⟨s.withGroup g x, okOrAdjusted (max 1 (min 6000 timeout) != timeout), groupRecord (s.withGroup g x) g⟩ := by
  subst hx
  have hid := readId_ofNat (show 4 ≤ 256 by decide) g
  have hflag (b : Bool) : readFlag (if b = true then 0x01 else 0x00) = some b := readFlag_flag b
  simp only [takeCueSet, byte1, flagByte, byte2, List.cons_append, List.nil_append, readCueSource_code, hflag, hid, nat2_byte2 ht, clampNat,
    State.withGroup]

theorem withGroup_group (s : State) (g : Fin 4) (x : CueGroup) :
    (s.withGroup g x).group g = x ∧ ∀ k, k ≠ g → (s.withGroup g x).group k = s.group k := by
  have hgroups (k : Fin 4) : (s.withGroup g x).group k = (s.setGroup g x).group k :=
    (State.group_congr (reportFrameRef_sameBut (s.setGroup g x) .groups (by decide)) k).symm
  exact ⟨(hgroups g).trans (State.group_setGroup s g x), fun k hk => (hgroups k).trans (State.group_setGroup_ne s hk x)⟩

theorem anyFrameGroup_congr (h : t.groups = s.groups) : t.anyFrameGroup = s.anyFrameGroup := by unfold State.anyFrameGroup; rw [h]

/-! ### SNAP.READ (R104) -/

theorem takeSnapRead_of_empty (h : (s.snap g).snap = none) : takeSnapRead (byte1 g) s = ⟨s, .empty, []⟩ := by
  simp [takeSnapRead, byte1, readId_ofNat, h]

theorem takeSnapRead_of_snap {x : Snapshot} (h : (s.snap g).snap = some x) : takeSnapRead (byte1 g) s
    = ⟨s.setSnap g { snap := some { x with unread := false }, overrun := false }, .ok, snapshotBytes x (s.snap g).overrun⟩ := by
  simp [takeSnapRead, byte1, readId_ofNat, h]

theorem takeSnapRead_of_length_ne {body : List Byte} (h : body.length ≠ 1) : takeSnapRead body s = refuse s .malformed := by
  unfold takeSnapRead
  split
  · exact absurd rfl h
  · rfl

theorem takeSnapRead_of_bad_group {b : Byte} (h : 4 ≤ b.toNat) : takeSnapRead [b] s = refuse s .range := by
  simp only [takeSnapRead, readId_of_le h]

/-- Settles O39: CUE.SET stores one group and reports FRAME_REF; SNAP.READ marks one entry read. -/
theorem cueSetAndSnapReadActOnTheGroup : Obligations.CueSetAndSnapReadActOnTheGroup := by
  unfold Obligations.CueSetAndSnapReadActOnTheGroup
  refine ⟨fun s tag g src timeout restart snapshot hs ht x hx => ?_, fun s tag hs => ⟨fun body h => ?_, fun g src t1 t0 rs sn => ⟨fun h => ?_, fun h0 h1 h2 ha => ?_⟩⟩,
    fun s tag hs => ⟨fun body h => ?_, fun b h => ?_⟩, fun s tag g hs => ⟨fun h => ?_, fun x h => ?_⟩⟩
  · obtain ⟨q, hq⟩ : ∃ q : Request, q = ⟨tag, 0x40, byte1 g ++ cueSourceCode src :: byte2 timeout ++ flagByte restart ++ flagByte snapshot⟩ := ⟨_, rfl⟩
    have hanswer : takeRequest q.code q.body (s.taking q) = ⟨(s.taking q).withGroup g x, okOrAdjusted (max 1 (min 6000 timeout) != timeout),
        groupRecord ((s.taking q).withGroup g x) g⟩ := by
      rw [hq]; exact takeCueSet_of_fields ht hx
    obtain ⟨hg, hothers⟩ := withGroup_group (s.taking q) g x
    have hprogs : ((s.taking q).withGroup g x).progs = s.progs := (reportFrameRef_sameBut ((s.taking q).setGroup g x) .progs (by decide)).symm
    have hrecord : groupRecord ((s.taking q).withGroup g x) g = cueSourceCode src :: byte2 x.timeout ++ flagByte restart ++ flagByte snapshot
        ++ flagByte x.armed ++ byte2 x.cueCount.toNat ++ progList (s.members g) ++ progList (s.waiting g) := by
      have hmembers : ((s.taking q).withGroup g x).members g = s.members g := by
        unfold State.members
        exact List.filter_congr fun p _ => by rw [State.prog_congr hprogs p]
      rw [groupRecord, hg, hmembers, waiting_of_progs hprogs, hx]
      simp
    have hstatus : okOrAdjusted (max 1 (min 6000 timeout) != timeout) = if 1 ≤ timeout ∧ timeout ≤ 6000 then Status.ok else .adjusted := by
      rw [okOrAdjusted_bne]
      exact if_congr (by omega) rfl rfl
    rw [← hstatus, ← hrecord]
    refine completes_of_answer (a := ⟨_, _, _⟩) (by rw [hq]; rfl) (hs.imp id (fun h => ⟨h, by rw [hq]; rfl⟩)) hanswer ?_
    have hframe := anyFrameGroup_congr (reportFrameRef_sameBut ((s.taking q).setGroup g x) .groups (by decide)).symm
    have hcond : (((s.taking q).withGroup g x).source frameRefSource).condition
        = (!s.ref.present && ((s.taking q).withGroup g x).anyFrameGroup) := by
      unfold State.withGroup
      rw [reportFrameRef_condition, hframe]
      rfl
    refine ⟨hg, hothers, hcond, reportFrameRef_otherSources ((s.taking q).setGroup g x), reportFrameRef_otherCounters ((s.taking q).setGroup g x), ?_⟩
    exact sameBut_of_take (by decide) (sameBut_trans (sameBut_mono (setGroup_sameBut _ g x) (by decide)) (sameBut_mono (reportFrameRef_sameBut _) (by decide)))
  · exact refused_of_answer (r := ⟨tag, 0x40, body⟩) rfl (hs.imp id (fun h => ⟨h, rfl⟩)) (takeCueSet_of_length_ne h)
  · exact refused_of_answer (r := ⟨tag, 0x40, _⟩) rfl (hs.imp id (fun h => ⟨h, rfl⟩)) (takeCueSet_of_bad_code h)
  · exact refused_of_answer (r := ⟨tag, 0x40, _⟩) rfl (hs.imp id (fun h => ⟨h, rfl⟩)) (takeCueSet_of_bad_group h0 h1 h2 ha)
  · exact refused_of_answer (r := ⟨tag, 0x42, _⟩) rfl (.inl hs) (takeSnapRead_of_length_ne h)
  · exact refused_of_answer (r := ⟨tag, 0x42, _⟩) rfl (.inl hs) (takeSnapRead_of_bad_group h)
  · refine (exec_ready (r := ⟨tag, 0x42, byte1 g⟩) rfl hs).trans ?_
    refine congrArg Host.Outcome.next ?_
    exact congrArg (Answer.sent · ⟨tag, 0x42, byte1 g⟩) (takeSnapRead_of_empty (s := s.taking ⟨tag, 0x42, byte1 g⟩) h)
  · refine completes_of_answer (r := ⟨tag, 0x42, byte1 g⟩) (a := ⟨_, _, _⟩) rfl (.inl hs) (takeSnapRead_of_snap (s := s.taking _) h) ?_
    exact ⟨State.snap_setSnap _ g _, fun k hk => State.snap_setSnap_ne _ hk _,
      sameBut_of_take (by decide) (sameBut_mono (setSnap_sameBut _ g _) (by decide))⟩

end Sys2Proof.Machine
end

