-- ==== Sys2Proof/Proofs/Signals.lean ====
section
/-! PROOFS. The counting events, latched events, condition reports and timer steps that an operation sends, as a list in their order, and
what such a list leaves of each counter and each source (R145 to R153, R175). -/

namespace Sys2Proof.Machine

variable {s t u : State}

/-! ### Lists of signals -/

/-- What reaches the alarm sources and the counters. -/
inductive Signal where
  | count (e : CountEvent) (owner : Option (Fin 8)) (amount : Nat)
  | latch (n : Fin 59)
  | report (n : Fin 59) (v : Bool)
  | timer (n : Fin 59)
  deriving DecidableEq

/-- What a signal leaves of a source other than COUNTER. -/
def Signal.atSource (hsc : Stamp) (n : Fin 59) (r : Source) : Signal → Source
  | .count _ _ _ => r
  | .latch m => if n = m then (r.raised hsc).latched else r
  | .report m v => if n = m then r.reported hsc v else r
  | .timer m => if n = m then r.stepped hsc else r

/-- The counting event of a signal. -/
def Signal.sent : Signal → Option Sent
  | .count e o k => some (e, o, k)
  | .latch _ => none
  | .report _ _ => none
  | .timer _ => none

/-- The operation sends these signals in this order, and reaches the counters and the sources by them alone; it keeps HSC. -/
inductive Runs : List Signal → State → State → Prop where
  | frame {s t : State} {ps : List Part} (h : s.sameBut ps t) (hp : ∀ x ∈ sendingParts, x ∉ ps) : Runs [] s t
  | clock {s t : State} (h : s.sameBut [.ref] t) (hc : t.ref.hsc = s.ref.hsc) : Runs [] s t
  | count (s : State) {e : CountEvent} (he : e ≠ .alarmRaise) (o : Option (Fin 8)) (k : Nat) : Runs [.count e o k] s (s.count e o k)
  | latch (s : State) {n : Fin 59} (hl : sourceIsLevel n = false) (hn : n ≠ counterSource) : Runs [.latch n] s (s.latch n)
  | report (s : State) {n : Fin 59} (hl : sourceIsLevel n = true) (v : Bool) : Runs [.report n v] s (s.report n v)
  | timer (s : State) {n : Fin 59} (hl : sourceIsLevel n = true) : Runs [.timer n] s (s.timerStep n)
  | trans {s t u : State} {l m : List Signal} (h : Runs l s t) (k : Runs m t u) : Runs (l ++ m) s u

section
variable {l m : List Signal}

theorem runs_refl (s : State) : Runs [] s s := .frame (ps := []) (sameBut_refl s []) (by simp)

theorem runs_of_sameBut {ps : List Part} (h : s.sameBut ps t) (hp : ∀ x ∈ sendingParts, x ∉ ps := by decide) : Runs [] s t := .frame h hp

theorem Runs.behind {ps : List Part} (k : Runs l t u) (h : s.sameBut ps t) (hp : ∀ x ∈ sendingParts, x ∉ ps := by decide) : Runs l s u :=
  (Runs.frame h hp).trans k

theorem Runs.before {ps : List Part} (k : Runs l s t) (h : t.sameBut ps u) (hp : ∀ x ∈ sendingParts, x ∉ ps := by decide) : Runs l s u := by
  have := k.trans (Runs.frame h hp)
  rwa [List.append_nil] at this

theorem Runs.ite {b : Prop} [Decidable b] (h : Runs l s t) (k : Runs m t u) : Runs (l ++ if b then m else []) s (if b then u else t) := by
  by_cases hb : b
  · rw [if_pos hb, if_pos hb]; exact h.trans k
  · rw [if_neg hb, if_neg hb, List.append_nil]; exact h

theorem Runs.hsc (h : Runs l s t) : t.ref.hsc = s.ref.hsc := by
  induction h with
  | frame h hp => exact congrArg RefUnit.hsc (ref_of_sameBut h (hp _ (by decide)))
  | clock h hc => exact hc
  | count s he o k => exact (count_sends s he o k).hsc
  | latch s hl hn => exact (latch_sends s hn).hsc
  | report s hl v => exact congrArg RefUnit.hsc (ref_of_sameBut (report_sameBut s _ v) (by decide))
  | timer s hl => exact congrArg RefUnit.hsc (ref_of_sameBut (timerStep_sameBut s _) (by decide))
  | trans _ _ h k => exact k.trans h

/-- A source other than COUNTER takes the signals in turn. -/
theorem Runs.source (h : Runs l s t) {n : Fin 59} (hn : n ≠ counterSource) :
    t.source n = l.foldl (Signal.atSource s.ref.hsc n) (s.source n) := by
  induction h with
  | frame h hp => exact (State.source_congr (h .sources (hp _ (by decide))) n).symm
  | clock h hc => exact (State.source_congr (h .sources (by decide)) n).symm
  | count s he o k => exact (count_sends s he o k).source n hn
  | @latch s m hl hm =>
    change _ = if n = m then _ else _
    by_cases hnm : n = m
    · subst hnm; rw [if_pos rfl, latch_source s hn]
    · rw [if_neg hnm, latch_source_ne s hn hnm]
  | @report s m hl v =>
    change _ = if n = m then _ else _
    by_cases hnm : n = m
    · subst hnm; rw [if_pos rfl, report_source s hn]
    · rw [if_neg hnm, report_source_ne s hn hnm]
  | @timer s m hl =>
    change _ = if n = m then _ else _
    by_cases hnm : n = m
    · subst hnm; rw [if_pos rfl, timerStep_source s hn]
    · rw [if_neg hnm, timerStep_source_ne s hn hnm]
  | trans h k ih ik => rw [ik, ih, h.hsc, List.foldl_append]

/-- A counter of another event than ALARM_RAISE is offered the counting events in turn. -/
theorem Runs.counter_and_event (h : Runs l s t) (c : Fin 8) : (t.counter c).event = (s.counter c).event
    ∧ ((s.counter c).event ≠ some .alarmRaise → t.counter c = (s.counter c).offerAll (l.filterMap Signal.sent)) := by
  induction h with
  | frame h hp =>
    have hc := (State.counter_congr (h .counters (hp _ (by decide))) c).symm
    exact ⟨by rw [hc], fun _ => hc⟩
  | clock h _ =>
    have hc := (State.counter_congr (h .counters (by decide)) c).symm
    exact ⟨by rw [hc], fun _ => hc⟩
  | count s he o k => exact ⟨(count_sends s he o k).raised.bank.event c, fun hc => (count_sends s he o k).counter c hc⟩
  | latch s hl hn => exact ⟨(latch_sends s hn).raised.bank.event c, fun hc => (latch_sends s hn).counter c hc⟩
  | report s hl v => exact ⟨(report_raised s (level_ne_counterSource hl) v).bank.event c, fun hc => report_counter s hc _ v⟩
  | timer s hl => exact ⟨(timerStep_raised s (level_ne_counterSource hl)).bank.event c, fun hc => timerStep_counter hc _⟩
  | trans h k ih ik =>
    refine ⟨ik.1.trans ih.1, fun hc => ?_⟩
    rw [ik.2 (by rw [ih.1]; exact hc), ih.2 hc, List.filterMap_append, Counter.offerAll_append]

theorem Runs.counter (h : Runs l s t) {c : Fin 8} (hc : (s.counter c).event ≠ some .alarmRaise) :
    t.counter c = (s.counter c).offerAll (l.filterMap Signal.sent) := (h.counter_and_event c).2 hc

/-- Operations one after the other, each with signals of its own part of the state, send them one list after the other. -/
theorem foldl_runs {ι : Type} {op : ι → State → State} {g : ι → State → List Signal} (own : ∀ i t, Runs (g i t) t (op i t))
    (same : ∀ i k t, k ≠ i → g k (op i t) = g k t) (is : List ι) (his : is.Nodup) (s : State) :
    Runs (is.flatMap (fun i => g i s)) s (is.foldl (fun t i => op i t) s) := by
  induction is generalizing s with
  | nil => exact runs_refl s
  | cons i is ih =>
    obtain ⟨hi, his⟩ := List.nodup_cons.mp his
    have hrest := ih his (op i s)
    rw [List.flatMap_congr (fun k hk => same i k s (fun h => hi (h ▸ hk)))] at hrest
    rw [List.flatMap_cons]
    exact (own i s).trans hrest

theorem forEach_runs {n : Nat} {op : Fin n → State → State} {g : Fin n → State → List Signal} (own : ∀ i t, Runs (g i t) t (op i t))
    (same : ∀ i k t, k ≠ i → g k (op i t) = g k t) (s : State) :
    Runs ((List.finRange n).flatMap (fun i => g i s)) s (forEach n op s) :=
  foldl_runs own same _ (List.nodup_finRange n) s

end

/-! ### The signals at one source -/

/-- The signal reaches the source. -/
def Signal.reaches (n : Fin 59) : Signal → Bool
  | .count _ _ _ => false
  | .latch m => n == m
  | .report m _ => n == m
  | .timer m => n == m

theorem atSource_of_not_reaches {hsc : Stamp} {n : Fin 59} {x : Signal} (h : x.reaches n = false) (r : Source) : x.atSource hsc n r = r := by
  cases x with
  | count _ _ _ => rfl
  | latch m => exact if_neg (by simpa [Signal.reaches] using h)
  | report m v => exact if_neg (by simpa [Signal.reaches] using h)
  | timer m => exact if_neg (by simpa [Signal.reaches] using h)

/-- A source takes the signals that reach it alone. -/
theorem foldl_atSource_filter (hsc : Stamp) (n : Fin 59) (l : List Signal) (r : Source) :
    l.foldl (Signal.atSource hsc n) r = (l.filter (Signal.reaches n)).foldl (Signal.atSource hsc n) r := by
  induction l generalizing r with
  | nil => rfl
  | cons x l ih =>
    rw [List.foldl_cons, ih, List.filter_cons]
    cases h : x.reaches n with
    | true => rfl
    | false => rw [atSource_of_not_reaches h, if_neg (by simp)]

/-- Of the lists of several parts only that of one part reaches the source. -/
theorem filter_flatMap_of_one {α ι : Type} [DecidableEq ι] {q : α → Bool} {g : ι → List α} {i : ι} (h : ∀ k, k ≠ i → (g k).filter q = [])
    {is : List ι} (his : is.Nodup) (hi : i ∈ is) : (is.flatMap g).filter q = (g i).filter q := by
  induction is with
  | nil => cases hi
  | cons k is ih =>
    obtain ⟨hk, his⟩ := List.nodup_cons.mp his
    rw [List.flatMap_cons, List.filter_append]
    by_cases hki : k = i
    · subst hki
      have hrest : (is.flatMap g).filter q = [] := by
        rw [List.filter_flatMap, List.flatMap_eq_nil_iff]
        exact fun j hj => h j (fun he => hk (he ▸ hj))
      rw [hrest, List.append_nil]
    · rw [h k hki, List.nil_append, ih his ((List.mem_cons.mp hi).resolve_left (fun he => hki he.symm))]

theorem filter_flatMap_of_none {α ι : Type} {q : α → Bool} {g : ι → List α} (h : ∀ k, (g k).filter q = []) (is : List ι) :
    (is.flatMap g).filter q = [] := by
  rw [List.filter_flatMap, List.flatMap_eq_nil_iff]
  exact fun k _ => h k

end Sys2Proof.Machine
end

