-- ==== Sys2Proof/Proofs/BlockEnds.lean ====
section
/-! PROOFS. The signals of a block end, part by part, and what it leaves of each link and each programme (R89). -/

namespace Sys2Proof.Machine

variable {s t u : State} {p : Fin 8}

/-! ### One link (R18, R30, R34, R36) -/

/-- What a link sends at a block end. -/
def linkSignals (x : Link) (l : Fin 8) : List Signal :=
  (if (x.conv.judgeWindow x.rx.arrivalCount).lockLoss then [.count .lockLoss (some l) 1] else [])
    ++ (if (x.conv.judgeWindow x.rx.arrivalCount).slip then [.count .slip (some l) 1, .latch (slipSource l)] else [])
    ++ (if x.conv.state.isOff then [] else [.count .fifoOcc (some l) x.conv.fifo.length])
    ++ [.report (lockSource l) (x.rx.enable && !(x.conv.judgeWindow x.rx.arrivalCount).conv.state.isLocked)]

/-- A link after a block end (R8, R11, R33). -/
def Link.atBlockEnd (x : Link) : Link :=
  ⟨x.rx.blockEnd, { (x.conv.judgeWindow x.rx.arrivalCount).conv with notLocked := !(x.conv.judgeWindow x.rx.arrivalCount).conv.state.isLocked }⟩

theorem slipSource_not_level (l : Fin 8) : sourceIsLevel (slipSource l) = false := by revert l; decide

theorem overloadSource_not_level (p : Fin 8) : sourceIsLevel (overloadSource p) = false := by revert p; decide

theorem slipEvents_runs (s : State) (l : Fin 8) : Runs [.count .slip (some l) 1, .latch (slipSource l)] s (s.slipEvents l) :=
  (Runs.count s (by decide) (some l) 1).trans (.latch _ (slipSource_not_level l) (slipSource_ne_counterSource l))

theorem linkEvents_runs (s t : State) (l : Fin 8) :
    Runs ((if ((s.link l).conv.judgeWindow (s.link l).rx.arrivalCount).lockLoss then [.count .lockLoss (some l) 1] else [])
      ++ (if ((s.link l).conv.judgeWindow (s.link l).rx.arrivalCount).slip then [.count .slip (some l) 1, .latch (slipSource l)] else [])
      ++ (if (s.link l).conv.state.isOff then [] else [.count .fifoOcc (some l) (s.link l).conv.fifo.length])) t (s.linkEvents t l) := by
  have h1 := (runs_refl t).ite (b := ((s.link l).conv.judgeWindow (s.link l).rx.arrivalCount).lockLoss = true)
    (Runs.count t (e := .lockLoss) (by decide) (some l) 1)
  have h2 := h1.ite (b := ((s.link l).conv.judgeWindow (s.link l).rx.arrivalCount).slip = true) (slipEvents_runs _ l)
  unfold State.linkEvents
  by_cases hoff : (s.link l).conv.state.isOff = true
  · rw [if_pos hoff, if_pos hoff, List.append_nil]; exact h2
  · rw [if_neg hoff, if_neg hoff]; exact h2.trans (Runs.count _ (by decide) _ _)

theorem linkEvents_links (s t : State) (l : Fin 8) : (s.linkEvents t l).links = t.links := by
  unfold State.linkEvents
  dsimp only
  split <;> split <;> split <;> simp

theorem linkJudged_link (s : State) (l : Fin 8) : (s.linkJudged l).link l = (s.link l).atBlockEnd := State.link_setLink s l _

theorem linkBlockEnd_runs (s : State) (l : Fin 8) : Runs (linkSignals (s.link l) l) s (s.linkBlockEnd l) := by
  have hlink : ((s.linkEvents (s.linkJudged l) l).link l) = (s.link l).atBlockEnd :=
    (State.link_congr (linkEvents_links s _ l) l).trans (linkJudged_link s l)
  rw [linkBlockEnd_eq, hlink]
  exact ((linkEvents_runs s (s.linkJudged l) l).behind (setLink_sameBut s l _)).trans (.report _ (lockSource_level l) _)

theorem linkBlockEnd_link (s : State) (l k : Fin 8) : (s.linkBlockEnd l).link k = if k = l then (s.link k).atBlockEnd else s.link k := by
  rw [State.link_congr (linkBlockEnd_links s l) k]
  by_cases h : k = l
  · subst h; rw [if_pos rfl]; exact State.link_setLink s k _
  · rw [if_neg h]; exact State.link_setLink_ne s h _

/-! ### One programme (R109, R110 to R119, R132 to R134, R139) -/

/-- The programme with its meter and its corrector replaced. -/
def Programme.withUnits (x : Programme) (m : Meter) (c : Corrector) : Programme := { x with meter := m, gain := c }

/-- A programme after a block end of which these lanes were suspect. -/
def Programme.atBlockEnd (suspect : List LaneWeight → Bool) (x : Programme) : Programme :=
  match x.life with
  | .closed => x
  | .clearing _ _ _ => x
  | .live h w =>
    if x.meter.opening then x.withUnits x.meter.closeOpening { x.gain with clip := 0 }
    else
      let r := x.meter.result h.lanes (suspect h.lanes)
      x.withUnits r.1 { (x.gain.resulted x.meter.settings r.2 ((w : Int) - 4800) ((w : Int) - 1 - x.move.dcur)).1 with clip := 0 }

section
variable {x : Programme} {f : List LaneWeight → Bool} {h : Held} {w : Nat}

theorem atBlockEnd_of_not_live (hl : x.life.isLive = false) : x.atBlockEnd f = x := by
  unfold Programme.atBlockEnd
  cases hlife : x.life with
  | closed => rfl
  | clearing _ _ _ => rfl
  | live _ _ => rw [hlife] at hl; cases hl

theorem atBlockEnd_of_opening (hl : x.life = .live h w) (ho : x.meter.opening = true) :
    x.atBlockEnd f = x.withUnits x.meter.closeOpening { x.gain with clip := 0 } := by
  unfold Programme.atBlockEnd
  rw [hl]
  exact if_pos ho

theorem atBlockEnd_of_result (hl : x.life = .live h w) (ho : x.meter.opening = false) :
    ∀ r, r = x.meter.result h.lanes (f h.lanes) → x.atBlockEnd f = x.withUnits r.1
      { (x.gain.resulted x.meter.settings r.2 ((w : Int) - 4800) ((w : Int) - 1 - x.move.dcur)).1 with clip := 0 } := by
  rintro r rfl
  unfold Programme.atBlockEnd
  rw [hl]
  exact if_neg (by rw [ho]; decide)

/-- A block end at a programme leaves all but its meter and its corrector. -/
theorem atBlockEnd_eq (x : Programme) (f : List LaneWeight → Bool) :
    x.atBlockEnd f = x.withUnits (x.atBlockEnd f).meter (x.atBlockEnd f).gain := by
  cases hl : x.life with
  | closed => rw [atBlockEnd_of_not_live (by rw [hl]; rfl)]; rfl
  | clearing _ _ _ => rw [atBlockEnd_of_not_live (by rw [hl]; rfl)]; rfl
  | live h w =>
    cases ho : x.meter.opening with
    | true => rw [atBlockEnd_of_opening hl ho]; rfl
    | false => rw [atBlockEnd_of_result hl ho _ rfl]; rfl

end

/-- The corrector's counting events at a block result (R132, R134). -/
def Programme.gainSignals (x : Programme) (p : Fin 8) (r : BlockResult) : List Signal :=
  if x.gain.mode = .track then
    (if r.freeze != .none then [.count .blockFrozen (some p) 1] else []) ++ (if x.move.dcur < 4800 then [.count .gainLate (some p) 1] else [])
  else []

/-- The meter's reports and its OVERLOAD event at a block result (R117 to R119). -/
def meterSignals (p : Fin 8) (set : LoudSettings) (r : BlockResult) : List Signal :=
  [.report (silenceSource p) (decide (r.m < set.silence)), .report (loudHighSource p) (r.freeze == .none && decide (set.target + set.upper < r.s)),
    .report (loudLowSource p) (r.freeze == .none && decide (r.s < set.target - set.lower))]
    ++ (if r.peaks.any (fun x => decide (set.ceiling ≤ x)) then [.latch (overloadSource p)] else [])

/-- The clip count sent (R139). -/
def Programme.clipSignals (x : Programme) (p : Fin 8) : List Signal := if x.gain.clip = 0 then [] else [.count .clipped (some p) x.gain.clip]

/-- What a programme sends at a block end of which these lanes were suspect. -/
def Programme.blockSignals (x : Programme) (p : Fin 8) (suspect : List LaneWeight → Bool) : List Signal :=
  match x.life with
  | .closed => []
  | .clearing _ _ _ => []
  | .live h _ =>
    if x.meter.opening then x.clipSignals p
    else
      let r := x.meter.result h.lanes (suspect h.lanes)
      x.gainSignals p r.2 ++ meterSignals p x.meter.settings r.2 ++ x.clipSignals p

theorem resulted_snd (c : Corrector) (set : LoudSettings) (r : BlockResult) (due rp : Int) :
    (c.resulted set r due rp).2 = (decide (c.mode = .track) && decide (due ≤ rp)) := by
  unfold Corrector.resulted Corrector.append
  by_cases hm : c.mode = .track
  · rw [if_pos hm, decide_eq_true hm, Bool.true_and]
    split
    · next h => exact (decide_eq_true h).symm
    · next h => exact (decide_eq_false h).symm
  · rw [if_neg hm, decide_eq_false hm]; rfl

theorem resulted_clip (c : Corrector) (set : LoudSettings) (r : BlockResult) (due rp : Int) : (c.resulted set r due rp).1.clip = c.clip := by
  have happend (c : Corrector) : (c.append due rp).1.clip = c.clip := by
    unfold Corrector.append Corrector.setTaken; split <;> rfl
  unfold Corrector.resulted
  split
  · rw [happend]; split <;> rfl
  · rfl

theorem prog_sendClipped (s : State) (p : Fin 8) : (s.sendClipped p).prog p = { s.prog p with gain := { (s.prog p).gain with clip := 0 } } := by
  unfold State.sendClipped
  by_cases h : (s.prog p).gain.clip = 0
  · rw [if_pos h, ← h]
  · rw [if_neg h]; exact (prog_of_sameBut (count_sameBut _ _ _ _) (by decide) p).trans (State.prog_setProg s p _)

theorem sendClipped_runs (s : State) (p : Fin 8) : Runs ((s.prog p).clipSignals p) s (s.sendClipped p) := by
  unfold State.sendClipped Programme.clipSignals
  by_cases h : (s.prog p).gain.clip = 0
  · rw [if_pos h, if_pos h]; exact runs_refl s
  · rw [if_neg h, if_neg h]; exact (Runs.count _ (by decide) _ _).behind (setProg_sameBut s p _)

theorem prog_gainResult (s : State) (p : Fin 8) (set : LoudSettings) (r : BlockResult) (w : Nat) :
    (s.gainResult p set r w).prog p = { s.prog p with
      gain := ((s.prog p).gain.resulted set r ((w : Int) - 4800) ((w : Int) - 1 - (s.prog p).move.dcur)).1 } := by
  have hset (x : Corrector) : (s.setGain p x).prog p = { s.prog p with gain := x } := State.prog_setProg s p _
  have hcount (t : State) (e : CountEvent) : (t.count e (some p) 1).prog p = t.prog p := prog_of_sameBut (count_sameBut _ _ _ _) (by decide) p
  rw [gainResult_eq]
  dsimp only
  split_ifs <;> simp only [hcount, hset]

theorem gainResult_runs (s : State) (p : Fin 8) (set : LoudSettings) (r : BlockResult) (w : Nat) :
    Runs ((s.prog p).gainSignals p r) s (s.gainResult p set r w) := by
  have hset (x : Corrector) : Runs [] s (s.setGain p x) := runs_of_sameBut (setProg_sameBut s p _)
  rw [gainResult_eq]
  unfold Programme.gainSignals
  dsimp only
  by_cases hm : (s.prog p).gain.mode = .track
  · rw [if_pos hm, if_pos hm]
    have hlate : ((s.prog p).gain.resulted set r ((w : Int) - 4800) ((w : Int) - 1 - (s.prog p).move.dcur)).2 = true ↔ (s.prog p).move.dcur < 4800 := by
      rw [resulted_snd, decide_eq_true hm, Bool.true_and, decide_eq_true_eq]; omega
    rw [← if_congr hlate rfl rfl]
    exact Runs.ite (Runs.ite (hset _) (Runs.count _ (by decide) _ _)) (Runs.count _ (by decide) _ _)
  · rw [if_neg hm, if_neg hm]; exact hset _

theorem meterEvents_runs (s : State) (p : Fin 8) (set : LoudSettings) (r : BlockResult) : Runs (meterSignals p set r) s (s.meterEvents p set r) :=
  Runs.ite (((Runs.report s (silenceSource_level p) _).trans (.report _ (loudHighSource_level p) _)).trans (.report _ (loudLowSource_level p) _))
    (.latch _ (overloadSource_not_level p) (overloadSource_ne_counterSource p))

theorem prog_programmeBlockEnd (marks : Vector Bool 8) (p : Fin 8) (s : State) :
    (State.programmeBlockEnd marks p s).prog p = (s.prog p).atBlockEnd (suspectBlock s.feeds marks) := by
  have hset (x : Meter) : (s.setMeter p x).prog p = { s.prog p with meter := x } := State.prog_setProg s p _
  unfold State.programmeBlockEnd Programme.atBlockEnd
  dsimp only
  cases (s.prog p).life with
  | closed => rfl
  | clearing _ _ _ => rfl
  | live h w =>
    dsimp only
    split
    · rw [prog_sendClipped, hset]; rfl
    · rw [prog_sendClipped, prog_of_sameBut (meterEvents_sameBut _ p _ _) (by decide), prog_gainResult, hset]; rfl

theorem programmeBlockEnd_runs (marks : Vector Bool 8) (p : Fin 8) (s : State) :
    Runs ((s.prog p).blockSignals p (suspectBlock s.feeds marks)) s (State.programmeBlockEnd marks p s) := by
  have hset (x : Meter) : (s.setMeter p x).prog p = { s.prog p with meter := x } := State.prog_setProg s p _
  unfold State.programmeBlockEnd Programme.blockSignals
  dsimp only
  cases (s.prog p).life with
  | closed => exact runs_refl s
  | clearing _ _ _ => exact runs_refl s
  | live h w =>
    dsimp only
    split
    · have hclip := sendClipped_runs (s.setMeter p (s.prog p).meter.closeOpening) p
      rw [hset] at hclip
      exact hclip.behind (setProg_sameBut s p _)
    · obtain ⟨r, hr⟩ : ∃ r, r = (s.prog p).meter.result h.lanes (suspectBlock s.feeds marks h.lanes) := ⟨_, rfl⟩
      rw [← hr]
      have hgain := gainResult_runs (s.setMeter p r.1) p (s.prog p).meter.settings r.2 w
      have hevents := meterEvents_runs ((s.setMeter p r.1).gainResult p (s.prog p).meter.settings r.2 w) p (s.prog p).meter.settings r.2
      have hclip := sendClipped_runs (((s.setMeter p r.1).gainResult p (s.prog p).meter.settings r.2 w).meterEvents p (s.prog p).meter.settings r.2) p
      rw [prog_of_sameBut (meterEvents_sameBut _ p _ _) (by decide), prog_gainResult, hset] at hclip
      have hsame : ({ s.prog p with meter := r.1, gain := ((s.prog p).gain.resulted (s.prog p).meter.settings r.2 ((w : Int) - 4800)
          ((w : Int) - 1 - (s.prog p).move.dcur)).1 } : Programme).clipSignals p = (s.prog p).clipSignals p := by
        unfold Programme.clipSignals
        rw [resulted_clip]
      rw [hset] at hgain
      rw [hsame] at hclip
      exact ((hgain.behind (setProg_sameBut s p _)).trans hevents).trans hclip

theorem sendClipped_otherProgs (s : State) (p : Fin 8) : s.otherProgs p (s.sendClipped p) := by
  unfold State.sendClipped
  dsimp only
  split
  · exact fun _ _ => rfl
  · exact otherProgs_trans s (fun k hk => State.prog_setProg_ne s hk _) (otherProgs_of_sameBut (count_sameBut _ _ _ _) (by decide) p)

theorem gainResult_otherProgs (s : State) (p : Fin 8) (set : LoudSettings) (r : BlockResult) (w : Nat) : s.otherProgs p (s.gainResult p set r w) := by
  intro k hk
  have hset (x : Corrector) : (s.setGain p x).prog k = s.prog k := State.prog_setProg_ne s hk _
  have hcount (t : State) (e : CountEvent) : (t.count e (some p) 1).prog k = t.prog k := prog_of_sameBut (count_sameBut _ _ _ _) (by decide) k
  rw [gainResult_eq]
  dsimp only
  split_ifs <;> simp only [hcount, hset]

theorem programmeBlockEnd_otherProgs (marks : Vector Bool 8) (p : Fin 8) (s : State) : s.otherProgs p (State.programmeBlockEnd marks p s) := by
  have hset (x : Meter) : s.otherProgs p (s.setMeter p x) := fun k hk => State.prog_setProg_ne s hk _
  unfold State.programmeBlockEnd
  dsimp only
  cases (s.prog p).life with
  | closed => exact fun _ _ => rfl
  | clearing _ _ _ => exact fun _ _ => rfl
  | live h w =>
    dsimp only
    split
    · exact otherProgs_trans s (hset _) (sendClipped_otherProgs _ p)
    · exact otherProgs_trans s (otherProgs_trans s (otherProgs_trans s (hset _) (gainResult_otherProgs _ p _ _ w))
        (otherProgs_of_sameBut (meterEvents_sameBut _ p _ _) (by decide) p)) (sendClipped_otherProgs _ p)

/-! ### One cue wait (R75) -/

/-- What a move unit sends, as signals: the counting events and then the latched events of its MOVE source. -/
def MoveSent.signals (a : MoveSent) (p : Fin 8) : List Signal :=
  a.1.map (fun e => .count e.1 e.2.1 e.2.2) ++ List.replicate a.2 (.latch (moveSource p))

theorem writeReport_runs (s : State) (p : Fin 8) (y : Report) :
    Runs (((s.prog p).move.lossSent p).map (fun e => .count e.1 e.2.1 e.2.2)) s (s.writeReport p y) := by
  unfold State.writeReport MoveUnit.lossSent MoveUnit.loses
  dsimp only
  rcases (s.prog p).move.reports with _ | ⟨a, _ | ⟨b, l⟩⟩
  · exact runs_of_sameBut (setMove_sameBut s p _)
  · exact runs_of_sameBut (setMove_sameBut s p _)
  · exact (Runs.count _ (e := .reportLost) (by decide) _ _).behind (setMove_sameBut s p _)

theorem moveSource_not_level (p : Fin 8) : sourceIsLevel (moveSource p) = false := by revert p; decide

theorem endMissed_runs (s : State) (p : Fin 8) (r : MoveRecord) : Runs (((s.prog p).endSent p .cueMissed).signals p) s (s.endMissed p r) := by
  have h := ((writeReport_runs s p (reportOf r .cueMissed (s.prog p).move.dcur s.ref.hsc)).trans
    ((Runs.count _ (e := .moveDone) (by decide) (some p) 1).trans (.latch _ (moveSource_not_level p) (moveSource_ne_counterSource p))))
  unfold MoveSent.signals Programme.endSent
  rw [List.map_append, List.append_assoc]
  exact h.before (setMove_sameBut _ p _)

theorem cueWaitStep_runs (s : State) (p : Fin 8) :
    Runs (((s.prog p).waitedSent p (s.timeoutOf (s.prog p).group)).signals p) s (s.cueWaitStep p) := by
  unfold State.cueWaitStep Programme.waitedSent State.cueTimesOut
  cases (s.prog p).move.state with
  | cueWait r k =>
    dsimp only
    by_cases h : s.timeoutOf (s.prog p).group ≤ k + 1
    · rw [if_pos (decide_eq_true h), if_pos h]; exact (endMissed_runs s p r).before (leftWaiting_sameBut _ _)
    · rw [if_neg h, if_neg (by simpa using h)]; exact runs_of_sameBut (setMove_sameBut s p _)
  | still => exact runs_refl s
  | moving _ _ _ => exact runs_refl s
  | readWait _ _ => exact runs_refl s
  | halted _ => exact runs_refl s

/-! ### The whole block end -/

/-- The step of one part, taken for each in turn, leaves each part as its own step does. -/
theorem forEach_part {n : Nat} {α : Type} {part : State → Fin n → α} {op : Fin n → State → State} {F : State → Fin n → α → α}
    (own : ∀ i t, part (op i t) i = F t i (part t i)) (other : ∀ i k t, k ≠ i → part (op i t) k = part t k)
    (same : ∀ i k t x, F (op i t) k x = F t k x) (s : State) (k : Fin n) : part (forEach n op s) k = F s k (part s k) := by
  have hlist : ∀ (is : List (Fin n)) (s : State), is.Nodup →
      part (is.foldl (fun t i => op i t) s) k = if k ∈ is then F s k (part s k) else part s k := by
    intro is
    induction is with
    | nil => exact fun _ _ => rfl
    | cons i is ih =>
      intro s his
      obtain ⟨hi, his⟩ := List.nodup_cons.mp his
      rw [List.foldl_cons, ih _ his, same]
      by_cases hk : k = i
      · subst hk; rw [if_neg hi, own, if_pos (List.mem_cons_self ..)]
      · rw [other i k s hk]; simp [hk]
  exact (hlist _ s (List.nodup_finRange n)).trans (if_pos (List.mem_finRange k))

theorem unlessAhead_runs {a : Ahead} {f : State → State} {l : List Signal} (h : Runs l s (f s)) :
    Runs (if s.ahead.contains a then [] else l) s (s.unlessAhead a f) := by
  unfold State.unlessAhead
  by_cases ha : s.ahead.contains a = true
  · rw [if_pos ha, if_pos ha]; exact runs_refl s
  · rw [if_neg ha, if_neg ha]; exact h

/-- What the cue wait of one programme sends at the block end, unless it has been taken ahead. -/
def State.waitSignals (s : State) (p : Fin 8) : List Signal :=
  if s.ahead.contains (.cueWait p) then [] else ((s.prog p).waitedSent p (s.timeoutOf (s.prog p).group)).signals p

/-- The timer step of one source at the block end, unless it has been taken ahead. -/
def State.timerSignals (s : State) (n : Fin 59) : List Signal :=
  if sourceIsLevel n then if s.ahead.contains (.source n) then [] else [.timer n] else []

/-- The signals of a block end up to the timer steps. -/
def State.endSignals (s : State) : List Signal :=
  (List.finRange 8).flatMap (fun l => linkSignals (s.link l) l)
    ++ ([.count .memOcc none (Config.pages - freePages s.freeList)] ++ [.count .blocks none 1])
    ++ (List.finRange 8).flatMap (fun p => (s.prog p).blockSignals p (suspectBlock s.feeds s.marks))
    ++ (List.finRange 8).flatMap s.waitSignals

theorem endContacts_ref (s : State) : s.endContacts.ref = { s.ref with blockNo := s.ref.blockNo + 1, blockEndTaken := true } :=
  (forEach_sameBut (s := s.endClocked) [.contacts] _ (fun c t => unlessAhead_sameBut (contactStep_sameBut t c)) .ref (by decide)).symm

theorem endLinks_runs (s : State) : Runs ((List.finRange 8).flatMap (fun l => linkSignals (s.link l) l)) s.endContacts s.endLinks := by
  have h := forEach_runs (fun l t => linkBlockEnd_runs t l) (fun l k t hk => by rw [linkBlockEnd_link, if_neg hk]) s.endContacts
  have hlink (l : Fin 8) : s.endContacts.link l = s.link l := (State.link_congr (endContacts_sameBut s .links (by decide)) l).symm
  simp only [hlink] at h
  exact h

theorem endCounted_runs (s : State) :
    Runs ([.count .memOcc none (Config.pages - freePages s.freeList)] ++ [.count .blocks none 1]) s.endLinks s.endCounted := by
  have hfree : s.freeList = s.endLinks.freeList :=
    (endContacts_sameBut s .freeList (by decide)).trans (endLinks_sameBut s .freeList (by decide))
  rw [hfree]
  exact (Runs.count _ (by decide) _ _).trans (.count _ (by decide) _ _)

theorem endCounted_of_start (s : State) : s.sameBut (.ref :: .links :: eventParts) s.endCounted :=
  sameBut_trans (sameBut_trans (sameBut_mono (endContacts_sameBut s) (by decide)) (sameBut_mono (endLinks_sameBut s) (by decide)))
    (sameBut_mono (endCounted_sameBut s) (by decide))

theorem endProgs_runs (s : State) :
    Runs ((List.finRange 8).flatMap (fun p => (s.prog p).blockSignals p (suspectBlock s.feeds s.marks))) s.endCounted s.endProgs := by
  have h := forEach_runs (fun p t => programmeBlockEnd_runs s.marks p t)
    (fun p k t hk => by rw [programmeBlockEnd_otherProgs s.marks p t k hk, ← programmeBlockEnd_sameBut s.marks p t .feeds (by decide)]) s.endCounted
  have hprog (p : Fin 8) : s.endCounted.prog p = s.prog p := prog_of_sameBut (endCounted_of_start s) (by decide) p
  have hfeeds : s.endCounted.feeds = s.feeds := (endCounted_of_start s .feeds (by decide)).symm
  simp only [hprog, hfeeds] at h
  exact h

theorem prog_endProgs (s : State) (p : Fin 8) : s.endProgs.prog p = (s.prog p).atBlockEnd (suspectBlock s.feeds s.marks) := by
  have h := forEach_part (part := State.prog) (F := fun t _ x => x.atBlockEnd (suspectBlock t.feeds s.marks))
    (fun p t => prog_programmeBlockEnd s.marks p t) (fun p k t hk => programmeBlockEnd_otherProgs s.marks p t k hk)
    (fun p k t x => by rw [← programmeBlockEnd_sameBut s.marks p t .feeds (by decide)]) s.endCounted p
  rw [prog_of_sameBut (endCounted_of_start s) (by decide), ← endCounted_of_start s .feeds (by decide)] at h
  exact h

/-! ### The cue waits of a block end -/

theorem timeoutOf_congr (h : ∀ g, (t.group g).timeout = (s.group g).timeout) (g : Option (Fin 4)) : t.timeoutOf g = s.timeoutOf g := by
  cases g with
  | none => rfl
  | some g => exact h g

theorem timeoutOf_of_sameBut {ps : List Part} (h : s.sameBut ps t) (hp : Part.groups ∉ ps) (g : Option (Fin 4)) : t.timeoutOf g = s.timeoutOf g :=
  timeoutOf_congr (fun g => by rw [State.group_congr (h .groups hp) g]) g

theorem endMissed_groups (s : State) (p : Fin 8) (r : MoveRecord) : (s.endMissed p r).groups = s.groups := by
  rw [State.endMissed, State.setMove_groups, ← moveEvents_sameBut _ p .cueMissed .groups (by decide), ← writeReport_sameBut _ p _ .groups (by decide)]

theorem cueWaitStep_timeoutOf (s : State) (p : Fin 8) (g : Option (Fin 4)) : (s.cueWaitStep p).timeoutOf g = s.timeoutOf g := by
  refine timeoutOf_congr (fun g => ?_) g
  unfold State.cueWaitStep
  cases (s.prog p).move.state with
  | cueWait r k =>
    dsimp only
    split
    · rw [leftWaiting_group, State.group_congr (endMissed_groups s p r) g]
      split <;> rfl
    · exact congrArg CueGroup.timeout (State.group_congr (setMove_sameBut s p _ .groups (by decide)) g).symm
  | still => rfl
  | moving _ _ _ => rfl
  | readWait _ _ => rfl
  | halted _ => rfl

/-- A programme behind its share of the cue waits of a block end. -/
def State.waitedProg (s : State) (p : Fin 8) (x : Programme) : Programme :=
  if s.ahead.contains (.cueWait p) then x else x.waited (s.timeoutOf x.group) s.ref.hsc

theorem waitShare_sameBut (s : State) (p : Fin 8) : s.sameBut moveParts (s.unlessAhead (.cueWait p) (fun u => u.cueWaitStep p)) :=
  unlessAhead_sameBut (cueWaitStep_sameBut s p)

theorem waitShare_timeoutOf (s : State) (p : Fin 8) (g : Option (Fin 4)) :
    (s.unlessAhead (.cueWait p) (fun u => u.cueWaitStep p)).timeoutOf g = s.timeoutOf g := by
  unfold State.unlessAhead
  split
  · rfl
  · exact cueWaitStep_timeoutOf s p g

theorem waitShare_prog (s : State) (p : Fin 8) : (s.unlessAhead (.cueWait p) (fun u => u.cueWaitStep p)).prog p = s.waitedProg p (s.prog p) := by
  unfold State.unlessAhead State.waitedProg
  split
  · rfl
  · exact prog_cueWaitStep s p

theorem waitShare_otherProgs (s : State) (p : Fin 8) : s.otherProgs p (s.unlessAhead (.cueWait p) (fun u => u.cueWaitStep p)) := by
  unfold State.unlessAhead
  split
  · exact fun _ _ => rfl
  · exact cueWaitStep_otherProgs s p

theorem waitedProg_congr (ha : t.ahead = s.ahead) (hr : t.ref.hsc = s.ref.hsc) (ht : ∀ g, t.timeoutOf g = s.timeoutOf g) (p : Fin 8) (x : Programme) :
    t.waitedProg p x = s.waitedProg p x := by unfold State.waitedProg; rw [ha, hr, ht]

/-- The stages before the cue waits leave what those read, but for meters and correctors. -/
theorem beforeWaits_sameBut (s : State) : s.sameBut (.ref :: .links :: .feeds :: reportParts) s.endProgs.resetFeeds :=
  sameBut_trans (sameBut_mono (endProgs_of_start s) (by decide)) (sameBut_mono (resetFeeds_sameBut _) (by decide))

theorem beforeWaits_hsc (s : State) : s.endProgs.resetFeeds.ref.hsc = s.ref.hsc := by
  rw [((endProgs_runs s).before (resetFeeds_sameBut _)).hsc, (endCounted_runs s).hsc, (endLinks_runs s).hsc, endContacts_ref]

theorem waitedProg_beforeWaits (s : State) (p : Fin 8) (x : Programme) : s.endProgs.resetFeeds.waitedProg p x = s.waitedProg p x :=
  waitedProg_congr (beforeWaits_sameBut s .ahead (by decide)).symm (beforeWaits_hsc s) (timeoutOf_of_sameBut (beforeWaits_sameBut s) (by decide)) p x

theorem prog_endWaits (s : State) (p : Fin 8) :
    s.endWaits.prog p = s.waitedProg p ((s.prog p).atBlockEnd (suspectBlock s.feeds s.marks)) := by
  have h := forEach_part (part := State.prog) (F := State.waitedProg) (fun p t => waitShare_prog t p) (fun p k t hk => waitShare_otherProgs t p k hk)
    (fun p k t x => waitedProg_congr (waitShare_sameBut t p .ahead (by decide)).symm
      (congrArg RefUnit.hsc (ref_of_sameBut (waitShare_sameBut t p) (by decide))) (waitShare_timeoutOf t p) k x) s.endProgs.resetFeeds p
  rw [waitedProg_beforeWaits, prog_of_sameBut (resetFeeds_sameBut _) (by decide), prog_endProgs] at h
  exact h

theorem endWaits_runs (s : State) : Runs ((List.finRange 8).flatMap s.waitSignals) s.endProgs.resetFeeds s.endWaits := by
  have h := forEach_runs (g := fun p t => t.waitSignals p) (fun p t => unlessAhead_runs (cueWaitStep_runs t p))
    (fun p k t hk => by
      unfold State.waitSignals
      rw [waitShare_otherProgs t p k hk, waitShare_timeoutOf, ← waitShare_sameBut t p .ahead (by decide)]) s.endProgs.resetFeeds
  have hsame (p : Fin 8) : s.endProgs.resetFeeds.waitSignals p = s.waitSignals p := by
    unfold State.waitSignals
    rw [← beforeWaits_sameBut s .ahead (by decide), timeoutOf_of_sameBut (beforeWaits_sameBut s) (by decide),
      prog_of_sameBut (resetFeeds_sameBut _) (by decide), prog_endProgs, atBlockEnd_eq]
    rfl
  simp only [hsame] at h
  exact h

theorem stepTimers_runs (s : State) : Runs ((List.finRange 59).flatMap s.timerSignals) s s.stepTimers := by
  refine forEach_runs (g := fun n t => t.timerSignals n) (fun n t => ?_) (fun n k t _ => ?_) s
  · unfold State.timerSignals
    by_cases hl : sourceIsLevel n = true
    · rw [if_pos hl, if_pos hl]; exact unlessAhead_runs (.timer t hl)
    · rw [if_neg hl, if_neg hl]; exact runs_refl t
  · have hahead : t.ahead = (if sourceIsLevel n then t.unlessAhead (.source n) (fun u => u.timerStep n) else t).ahead := by
      split
      · exact unlessAhead_sameBut (timerStep_sameBut t n) .ahead (by decide)
      · rfl
    unfold State.timerSignals
    rw [← hahead]

theorem endWaits_runs_of_start (s : State) : Runs s.endSignals s.endContacts s.endWaits :=
  ((((endLinks_runs s).trans (endCounted_runs s)).trans (endProgs_runs s)).before (resetFeeds_sameBut _)).trans (endWaits_runs s)

theorem endWaits_ahead (s : State) : s.endWaits.ahead = s.ahead :=
  ((beforeWaits_sameBut s .ahead (by decide)).trans (endWaits_sameBut s .ahead (by decide))).symm

/-- A block end sends these signals behind its contacts' shares. -/
theorem takeBlockEnd_runs (s : State) :
    Runs (s.endSignals ++ (List.finRange 59).flatMap s.timerSignals) s.endContacts s.takeBlockEnd := by
  have h := (endWaits_runs_of_start s).trans (stepTimers_runs s.endWaits)
  have hsame : s.endWaits.timerSignals = s.timerSignals := by
    funext n; unfold State.timerSignals; rw [endWaits_ahead]
  rw [hsame] at h
  rw [takeBlockEnd_eq]
  exact h.before (withAhead_sameBut _ _)

theorem prog_takeBlockEnd (s : State) (p : Fin 8) :
    s.takeBlockEnd.prog p = s.waitedProg p ((s.prog p).atBlockEnd (suspectBlock s.feeds s.marks)) := by
  rw [takeBlockEnd_eq, prog_of_sameBut (withAhead_sameBut _ _) (by decide), prog_of_sameBut (stepTimers_sameBut _) (by decide), prog_endWaits]

theorem takeBlockEnd_link (s : State) (l : Fin 8) : s.takeBlockEnd.link l = (s.link l).atBlockEnd := by
  have h := forEach_part (part := State.link) (F := fun _ _ x => x.atBlockEnd) (op := fun l t => t.linkBlockEnd l)
    (fun l t => (linkBlockEnd_link t l l).trans (if_pos rfl)) (fun l k t hk => (linkBlockEnd_link t l k).trans (if_neg hk)) (fun _ _ _ _ => rfl)
    s.endContacts l
  rw [← State.link_congr (endContacts_sameBut s .links (by decide)) l] at h
  have hprogs : s.endLinks.links = s.endProgs.links := (endCounted_sameBut s .links (by decide)).trans (endProgs_sameBut s .links (by decide))
  have hfeeds : s.endProgs.links = s.endProgs.resetFeeds.links := resetFeeds_sameBut _ .links (by decide)
  have hwaits : s.endProgs.resetFeeds.links = s.endWaits.links := endWaits_sameBut s .links (by decide)
  have htimers : s.endWaits.links = s.endWaits.stepTimers.links := stepTimers_sameBut _ .links (by decide)
  have hahead : s.endWaits.stepTimers.links = s.takeBlockEnd.links := by rw [takeBlockEnd_eq]
  rw [← State.link_congr (hprogs.trans (hfeeds.trans (hwaits.trans (htimers.trans hahead)))) l]
  exact h

end Sys2Proof.Machine
end

