-- ==== Sys2Proof/Proofs/BlockSignals.lean ====
section
/-! PROOFS. What a block end leaves of each source, each counter and each programme, and BLOCK_END as a whole (R89). -/

namespace Sys2Proof.Machine

variable {s t : State} {p : Fin 8}

/-! ### The sources of the links and of the programmes -/

/-- The sources that a link reports to or latches at a block end. -/
abbrev linkSources (l : Fin 8) : List (Fin 59) := [slipSource l, lockSource l]

/-- The sources that a programme's meter reports to or latches at a block end. -/
abbrev meterSources (p : Fin 8) : List (Fin 59) := [silenceSource p, loudHighSource p, loudLowSource p, overloadSource p]

theorem linkSources_disjoint {n : Fin 59} {l k : Fin 8} (h : n ∈ linkSources l) (hk : n ∈ linkSources k) : k = l := by
  simp only [linkSources, List.mem_cons, List.not_mem_nil, or_false, Fin.ext_iff, slipSource, lockSource] at h hk
  omega

theorem meterSources_disjoint {n : Fin 59} {p k : Fin 8} (h : n ∈ meterSources p) (hk : n ∈ meterSources k) : k = p := by
  simp only [meterSources, List.mem_cons, List.not_mem_nil, or_false, Fin.ext_iff, silenceSource, loudHighSource, loudLowSource, overloadSource] at h hk
  omega

theorem linkSource_not_meterSource {n : Fin 59} {l : Fin 8} (h : n ∈ linkSources l) (p : Fin 8) : n ∉ meterSources p ∧ n ≠ moveSource p := by
  simp only [linkSources, meterSources, List.mem_cons, List.not_mem_nil, or_false, Fin.ext_iff, slipSource, lockSource, silenceSource,
    loudHighSource, loudLowSource, overloadSource, moveSource, ne_eq] at h ⊢
  omega

theorem meterSource_not_moveSource {n : Fin 59} {p : Fin 8} (h : n ∈ meterSources p) (k : Fin 8) : n ≠ moveSource k := by
  simp only [meterSources, List.mem_cons, List.not_mem_nil, or_false, Fin.ext_iff, silenceSource, loudHighSource, loudLowSource, overloadSource,
    moveSource, ne_eq] at h ⊢
  omega

theorem moveSource_not_linkSource (p l : Fin 8) : moveSource p ∉ linkSources l :=
  fun h => (linkSource_not_meterSource h p).2 rfl

theorem moveSource_not_meterSource (p k : Fin 8) : moveSource p ∉ meterSources k :=
  fun h => meterSource_not_moveSource h p rfl

theorem meterSource_not_linkSource {n : Fin 59} {p : Fin 8} (h : n ∈ meterSources p) (l : Fin 8) : n ∉ linkSources l :=
  fun hl => (linkSource_not_meterSource hl p).1 h

theorem frameRefSource_of_no_other (p : Fin 8) : frameRefSource ∉ linkSources p ∧ frameRefSource ∉ meterSources p ∧ frameRefSource ≠ moveSource p := by
  revert p; decide

/-- The level sources are LOCK, the loudness conditions and FRAME_REF. -/
theorem levelSource_cases {n : Fin 59} (h : sourceIsLevel n = true) :
    (∃ l, n = lockSource l) ∨ (∃ p, n ∈ loudSources p) ∨ n = frameRefSource := by
  revert n; decide

/-! ### The signals that reach one source -/

/-- The signals of a list that reach the source. -/
def sigAt (n : Fin 59) (l : List Signal) : List Signal := l.filter (Signal.reaches n)

theorem sigAt_nil (n : Fin 59) : sigAt n [] = [] := rfl

theorem sigAt_cons (n : Fin 59) (x : Signal) (l : List Signal) : sigAt n (x :: l) = if x.reaches n = true then x :: sigAt n l else sigAt n l :=
  List.filter_cons

theorem sigAt_append (n : Fin 59) (l m : List Signal) : sigAt n (l ++ m) = sigAt n l ++ sigAt n m := List.filter_append ..

theorem sigAt_ite (n : Fin 59) {b : Prop} [Decidable b] (l m : List Signal) : sigAt n (if b then l else m) = if b then sigAt n l else sigAt n m :=
  apply_ite _ _ _ _

theorem sigAt_flatMap_of_one {n : Fin 59} {m : Nat} {g : Fin m → List Signal} {i : Fin m} (h : ∀ k, k ≠ i → sigAt n (g k) = []) :
    sigAt n ((List.finRange m).flatMap g) = sigAt n (g i) := filter_flatMap_of_one h (List.nodup_finRange m) (List.mem_finRange i)

theorem sigAt_flatMap_of_none {n : Fin 59} {m : Nat} {g : Fin m → List Signal} (h : ∀ k, sigAt n (g k) = []) :
    sigAt n ((List.finRange m).flatMap g) = [] := filter_flatMap_of_none h _

theorem linkSignals_elsewhere {n : Fin 59} {l : Fin 8} (h : n ∉ linkSources l) (x : Link) : sigAt n (linkSignals x l) = [] := by
  have hn : n ≠ slipSource l ∧ n ≠ lockSource l := by simpa using h
  unfold linkSignals
  simp only [sigAt_append, sigAt_ite, sigAt_cons, sigAt_nil, Signal.reaches, hn.1, hn.2, beq_iff_eq,
    Bool.false_eq_true, if_false, ite_self, List.append_nil]

theorem linkSignals_lock (x : Link) (l : Fin 8) : sigAt (lockSource l) (linkSignals x l)
    = [.report (lockSource l) (x.rx.enable && !(x.conv.judgeWindow x.rx.arrivalCount).conv.state.isLocked)] := by
  have hn : lockSource l ≠ slipSource l := by simp only [ne_eq, Fin.ext_iff, slipSource, lockSource]; omega
  unfold linkSignals
  simp only [sigAt_append, sigAt_ite, sigAt_cons, sigAt_nil, Signal.reaches, hn, beq_iff_eq,
    Bool.false_eq_true, if_false, if_true, ite_self, List.nil_append]

theorem linkSignals_slip (x : Link) (l : Fin 8) : sigAt (slipSource l) (linkSignals x l)
    = if (x.conv.judgeWindow x.rx.arrivalCount).slip then [.latch (slipSource l)] else [] := by
  have hn : slipSource l ≠ lockSource l := by simp only [ne_eq, Fin.ext_iff, slipSource, lockSource]; omega
  unfold linkSignals
  simp only [sigAt_append, sigAt_ite, sigAt_cons, sigAt_nil, Signal.reaches, hn, beq_iff_eq,
    Bool.false_eq_true, if_false, if_true, ite_self, List.nil_append, List.append_nil]

theorem gainSignals_elsewhere (n : Fin 59) (x : Programme) (p : Fin 8) (r : BlockResult) : sigAt n (x.gainSignals p r) = [] := by
  unfold Programme.gainSignals
  simp only [sigAt_append, sigAt_ite, sigAt_cons, sigAt_nil, Signal.reaches, Bool.false_eq_true, if_false, ite_self,
    List.append_nil]

theorem clipSignals_elsewhere (n : Fin 59) (x : Programme) (p : Fin 8) : sigAt n (x.clipSignals p) = [] := by
  unfold Programme.clipSignals
  simp only [sigAt_ite, sigAt_cons, sigAt_nil, Signal.reaches, Bool.false_eq_true, if_false, ite_self]

theorem meterSignals_elsewhere {n : Fin 59} {p : Fin 8} (h : n ∉ meterSources p) (set : LoudSettings) (r : BlockResult) :
    sigAt n (meterSignals p set r) = [] := by
  simp only [meterSources, List.mem_cons, List.not_mem_nil, or_false, not_or] at h
  obtain ⟨h1, h2, h3, h4⟩ := h
  unfold meterSignals
  simp only [sigAt_append, sigAt_ite, sigAt_cons, sigAt_nil, Signal.reaches, h1, h2, h3, h4, beq_iff_eq,
    if_false, ite_self, List.append_nil]

/-- What a block result sends to each source of its programme (R117 to R119). -/
theorem meterSignals_at (p : Fin 8) (set : LoudSettings) (r : BlockResult) :
    sigAt (silenceSource p) (meterSignals p set r) = [.report (silenceSource p) (decide (r.m < set.silence))]
    ∧ sigAt (loudHighSource p) (meterSignals p set r) = [.report (loudHighSource p) (r.freeze == .none && decide (set.target + set.upper < r.s))]
    ∧ sigAt (loudLowSource p) (meterSignals p set r) = [.report (loudLowSource p) (r.freeze == .none && decide (r.s < set.target - set.lower))]
    ∧ sigAt (overloadSource p) (meterSignals p set r) = if r.peaks.any (fun x => decide (set.ceiling ≤ x)) then [.latch (overloadSource p)] else [] := by
  have hne : ∀ a b : Fin 5, a ≠ b → (⟨p.val * 5 + a.val, by omega⟩ : Fin 59) ≠ ⟨p.val * 5 + b.val, by omega⟩ :=
    fun a b h hab => h (Fin.ext (by have := congrArg Fin.val hab; simp only at this; omega))
  unfold meterSignals
  refine ⟨?_, ?_, ?_, ?_⟩ <;>
    simp [sigAt_ite, sigAt_cons, sigAt_nil, Signal.reaches, Fin.ext_iff, silenceSource, loudHighSource, loudLowSource, overloadSource]

theorem blockSignals_elsewhere {n : Fin 59} {p : Fin 8} (h : n ∉ meterSources p) (x : Programme) (f : List LaneWeight → Bool) :
    sigAt n (x.blockSignals p f) = [] := by
  unfold Programme.blockSignals
  cases x.life with
  | closed => rfl
  | clearing _ _ _ => rfl
  | live _ _ =>
    dsimp only
    split
    · exact clipSignals_elsewhere n x p
    · rw [sigAt_append, sigAt_append, gainSignals_elsewhere, meterSignals_elsewhere h, clipSignals_elsewhere]; rfl

theorem blockSignals_of_not_live {x : Programme} (h : x.life.isLive = false) (p : Fin 8) (f : List LaneWeight → Bool) : x.blockSignals p f = [] := by
  unfold Programme.blockSignals
  cases hl : x.life with
  | closed => rfl
  | clearing _ _ _ => rfl
  | live _ _ => rw [hl] at h; cases h

theorem blockSignals_of_opening {x : Programme} {h : Held} {w : Nat} (hl : x.life = .live h w) (ho : x.meter.opening = true) (p : Fin 8)
    (f : List LaneWeight → Bool) : x.blockSignals p f = x.clipSignals p := by
  unfold Programme.blockSignals
  rw [hl]
  exact if_pos ho

theorem blockSignals_of_result {x : Programme} {h : Held} {w : Nat} (hl : x.life = .live h w) (ho : x.meter.opening = false) (p : Fin 8)
    (f : List LaneWeight → Bool) : ∀ r, r = (x.meter.result h.lanes (f h.lanes)).2 →
      x.blockSignals p f = x.gainSignals p r ++ meterSignals p x.meter.settings r ++ x.clipSignals p := by
  rintro r rfl
  unfold Programme.blockSignals
  rw [hl]
  exact if_neg (by rw [ho]; decide)

theorem blockSignals_at_result {x : Programme} {h : Held} {w : Nat} (hl : x.life = .live h w) (ho : x.meter.opening = false) (n : Fin 59) (p : Fin 8)
    (f : List LaneWeight → Bool) {r : BlockResult} (hr : r = (x.meter.result h.lanes (f h.lanes)).2) :
    sigAt n (x.blockSignals p f) = sigAt n (meterSignals p x.meter.settings r) := by
  rw [blockSignals_of_result hl ho p f r hr, sigAt_append, sigAt_append, gainSignals_elsewhere, clipSignals_elsewhere,
    List.nil_append, List.append_nil]

theorem moveSignals_at (a : MoveSent) (n : Fin 59) (p : Fin 8) :
    sigAt n (a.signals p) = if n = moveSource p then List.replicate a.2 (.latch (moveSource p)) else [] := by
  have hcounts : sigAt n (a.1.map (fun e => Signal.count e.1 e.2.1 e.2.2)) = [] := by
    refine List.filter_eq_nil_iff.mpr (fun x hx => ?_)
    obtain ⟨e, -, rfl⟩ := List.mem_map.mp hx
    exact Bool.false_ne_true
  unfold MoveSent.signals
  rw [sigAt_append, hcounts, List.nil_append, sigAt, List.filter_replicate]
  by_cases h : n = moveSource p
  · rw [if_pos h, if_pos (by simpa [Signal.reaches] using h)]
  · rw [if_neg h, if_neg (by simpa [Signal.reaches] using h)]

theorem waitSignals_elsewhere {n : Fin 59} {p : Fin 8} (h : n ≠ moveSource p) (s : State) : sigAt n (s.waitSignals p) = [] := by
  unfold State.waitSignals
  split
  · rfl
  · rw [moveSignals_at, if_neg h]

theorem endSignals_at (s : State) (n : Fin 59) : sigAt n s.endSignals
    = sigAt n ((List.finRange 8).flatMap (fun l => linkSignals (s.link l) l))
      ++ sigAt n ((List.finRange 8).flatMap (fun p => (s.prog p).blockSignals p (suspectBlock s.feeds s.marks)))
      ++ sigAt n ((List.finRange 8).flatMap s.waitSignals) := by
  unfold State.endSignals
  rw [sigAt_append, sigAt_append, sigAt_append]
  have hcounts : sigAt n ([Signal.count .memOcc none (Config.pages - freePages s.freeList)] ++ [.count .blocks none 1]) = [] := rfl
  rw [hcounts, List.append_nil]

theorem endSignals_at_link {n : Fin 59} {l : Fin 8} (h : n ∈ linkSources l) (s : State) :
    sigAt n s.endSignals = sigAt n (linkSignals (s.link l) l) := by
  rw [endSignals_at, sigAt_flatMap_of_one (fun k hk => linkSignals_elsewhere (fun hn => hk (linkSources_disjoint h hn)) _), sigAt_flatMap_of_none (fun k => blockSignals_elsewhere (linkSource_not_meterSource h k).1 _ _),
    sigAt_flatMap_of_none (fun k => waitSignals_elsewhere (linkSource_not_meterSource h k).2 s), List.append_nil, List.append_nil]

theorem endSignals_at_meter {n : Fin 59} {p : Fin 8} (h : n ∈ meterSources p) (s : State) :
    sigAt n s.endSignals = sigAt n ((s.prog p).blockSignals p (suspectBlock s.feeds s.marks)) := by
  rw [endSignals_at, sigAt_flatMap_of_none (fun k => linkSignals_elsewhere (meterSource_not_linkSource h k) _),
    sigAt_flatMap_of_one (fun k hk => blockSignals_elsewhere (fun hn => hk (meterSources_disjoint h hn)) _ _), sigAt_flatMap_of_none (fun k => waitSignals_elsewhere (meterSource_not_moveSource h k) s), List.append_nil, List.nil_append]

theorem endSignals_at_move (s : State) (p : Fin 8) : sigAt (moveSource p) s.endSignals = sigAt (moveSource p) (s.waitSignals p) := by
  rw [endSignals_at, sigAt_flatMap_of_none (fun k => linkSignals_elsewhere (moveSource_not_linkSource p k) _),
    sigAt_flatMap_of_none (fun k => blockSignals_elsewhere (moveSource_not_meterSource p k) _ _),
    sigAt_flatMap_of_one (fun k hk => waitSignals_elsewhere (fun hn => hk (moveSource_injective hn).symm) s)]
  rfl

theorem endSignals_at_frameRef (s : State) : sigAt frameRefSource s.endSignals = [] := by
  rw [endSignals_at, sigAt_flatMap_of_none (fun k => linkSignals_elsewhere (frameRefSource_of_no_other k).1 _),
    sigAt_flatMap_of_none (fun k => blockSignals_elsewhere (frameRefSource_of_no_other k).2.1 _ _),
    sigAt_flatMap_of_none (fun k => waitSignals_elsewhere (frameRefSource_of_no_other k).2.2 s)]
  rfl

theorem timerSignals_at (s : State) (n : Fin 59) : sigAt n ((List.finRange 59).flatMap s.timerSignals) = s.timerSignals n := by
  have hother : ∀ k, k ≠ n → sigAt n (s.timerSignals k) = [] := fun k hk => by
    unfold State.timerSignals
    have hno : (Signal.timer k).reaches n = false := by simpa [Signal.reaches] using fun h : n = k => hk h.symm
    split
    · split
      · rfl
      · rw [sigAt_cons, hno]; rfl
    · rfl
  have hown : sigAt n (s.timerSignals n) = s.timerSignals n := by
    unfold State.timerSignals
    have hyes : (Signal.timer n).reaches n = true := by simp [Signal.reaches]
    split
    · split
      · rfl
      · rw [sigAt_cons, hyes]; rfl
    · rfl
  rw [sigAt_flatMap_of_one hother]
  exact hown

/-! ### The sources after a block end -/

theorem atSource_latch (hsc : Stamp) (n : Fin 59) (r : Source) : Signal.atSource hsc n r (.latch n) = r.latchedTimes hsc 1 := if_pos rfl

theorem atSource_report (hsc : Stamp) (n : Fin 59) (r : Source) (v : Bool) : Signal.atSource hsc n r (.report n v) = r.reported hsc v := if_pos rfl

theorem atSource_timer (hsc : Stamp) (n : Fin 59) (r : Source) : Signal.atSource hsc n r (.timer n) = r.stepped hsc := if_pos rfl

theorem takeBlockEnd_source {n : Fin 59} (hn : n ≠ counterSource) (s : State) :
    s.takeBlockEnd.source n = (sigAt n s.endSignals ++ s.timerSignals n).foldl (Signal.atSource s.ref.hsc n) (s.source n) := by
  rw [(takeBlockEnd_runs s).source hn, foldl_atSource_filter, ← sigAt, sigAt_append, timerSignals_at, endContacts_ref,
    State.source_congr (endContacts_sameBut s .sources (by decide)).symm]

/-- A latched source takes no timer step. -/
theorem timerSignals_of_latched {n : Fin 59} (h : sourceIsLevel n = false) (s : State) : s.timerSignals n = [] := if_neg (by rw [h]; decide)

theorem takeBlockEnd_latched {n : Fin 59} (hl : sourceIsLevel n = false) (hn : n ≠ counterSource) {b : Prop} [Decidable b] (s : State)
    (h : sigAt n s.endSignals = if b then [.latch n] else []) :
    (b → s.latchedIn n 1 s.ref.hsc s.takeBlockEnd) ∧ (¬ b → s.takeBlockEnd.source n = s.source n) := by
  have hsource := takeBlockEnd_source hn s
  rw [timerSignals_of_latched hl, List.append_nil, h] at hsource
  refine ⟨fun hb => latchedIn_of_source (by decide) ?_, fun hb => ?_⟩
  · rw [if_pos hb, List.foldl_cons, List.foldl_nil, atSource_latch] at hsource
    exact hsource
  · rw [if_neg hb] at hsource
    exact hsource

theorem takeBlockEnd_slip (s : State) (l : Fin 8) :
    (((s.link l).conv.judgeWindow (s.link l).rx.arrivalCount).slip = true → s.latchedIn (slipSource l) 1 s.ref.hsc s.takeBlockEnd)
    ∧ (¬ ((s.link l).conv.judgeWindow (s.link l).rx.arrivalCount).slip = true → s.takeBlockEnd.source (slipSource l) = s.source (slipSource l)) :=
  takeBlockEnd_latched (slipSource_not_level l) (slipSource_ne_counterSource l) s (by rw [endSignals_at_link (l := l) (by simp), linkSignals_slip])

theorem takeBlockEnd_level {n : Fin 59} (hl : sourceIsLevel n = true) (s : State) : s.takeBlockEnd.source n
    = if s.ahead.contains (.source n) then (sigAt n s.endSignals).foldl (Signal.atSource s.ref.hsc n) (s.source n)
      else ((sigAt n s.endSignals).foldl (Signal.atSource s.ref.hsc n) (s.source n)).stepped s.ref.hsc := by
  rw [takeBlockEnd_source (level_ne_counterSource hl), List.foldl_append, State.timerSignals, if_pos hl]
  by_cases ha : s.ahead.contains (.source n) = true
  · rw [if_pos ha, if_pos ha]; rfl
  · rw [if_neg ha, if_neg ha, List.foldl_cons, List.foldl_nil, atSource_timer]

/-- A level source that its owner reports takes the report and then its timer step, unless that came ahead. -/
theorem takeBlockEnd_reported {n : Fin 59} (hl : sourceIsLevel n = true) {s : State} {v : Bool} (h : sigAt n s.endSignals = [.report n v]) :
    (s.takeBlockEnd.source n).condition = v ∧ s.takeBlockEnd.source n = if s.ahead.contains (.source n) then (s.source n).reported s.ref.hsc v
      else ((s.source n).reported s.ref.hsc v).stepped s.ref.hsc := by
  have hsource := takeBlockEnd_level hl s
  have hfold : (sigAt n s.endSignals).foldl (Signal.atSource s.ref.hsc n) (s.source n) = (s.source n).reported s.ref.hsc v := by
    rw [h, List.foldl_cons, List.foldl_nil, atSource_report]
  rw [hfold] at hsource
  refine ⟨?_, hsource⟩
  rw [hsource]
  split
  · exact reported_condition _ _ _
  · rw [stepped_condition]; exact reported_condition _ _ _

theorem reported_own_condition (hsc : Stamp) (r : Source) : r.reported hsc r.condition = r := if_pos rfl

/-- A level source without a report keeps its condition. -/
theorem takeBlockEnd_unreported {n : Fin 59} (hl : sourceIsLevel n = true) {s : State} (h : sigAt n s.endSignals = []) :
    (s.takeBlockEnd.source n).condition = (s.source n).condition ∧ s.takeBlockEnd.source n
      = if s.ahead.contains (.source n) then (s.source n).reported s.ref.hsc (s.source n).condition
        else ((s.source n).reported s.ref.hsc (s.source n).condition).stepped s.ref.hsc := by
  have hsource := takeBlockEnd_level hl s
  rw [h] at hsource
  rw [reported_own_condition]
  refine ⟨?_, hsource⟩
  rw [hsource]
  split
  · rfl
  · exact stepped_condition _ _

theorem endSignals_at_level {n : Fin 59} (hl : sourceIsLevel n = true) (s : State) :
    sigAt n s.endSignals = [] ∨ ∃ v, sigAt n s.endSignals = [.report n v] := by
  rcases levelSource_cases hl with ⟨l, rfl⟩ | ⟨p, hp⟩ | rfl
  · exact .inr ⟨_, (endSignals_at_link (l := l) (by simp) s).trans (linkSignals_lock _ l)⟩
  · have hmem : n ∈ meterSources p := List.mem_append_left [overloadSource p] hp
    rw [endSignals_at_meter hmem]
    cases hlife : (s.prog p).life with
    | closed => exact .inl (by rw [blockSignals_of_not_live (by rw [hlife]; rfl)]; rfl)
    | clearing _ _ _ => exact .inl (by rw [blockSignals_of_not_live (by rw [hlife]; rfl)]; rfl)
    | live h w =>
      cases ho : (s.prog p).meter.opening with
      | true => exact .inl (by rw [blockSignals_of_opening hlife ho]; exact clipSignals_elsewhere n _ p)
      | false =>
        rw [blockSignals_at_result hlife ho n p _ rfl]
        obtain ⟨h1, h2, h3, -⟩ := meterSignals_at p (s.prog p).meter.settings
          ((s.prog p).meter.result h.lanes (suspectBlock s.feeds s.marks h.lanes)).2
        simp only [loudSources, List.mem_cons, List.not_mem_nil, or_false] at hp
        rcases hp with rfl | rfl | rfl
        · exact .inr ⟨_, h1⟩
        · exact .inr ⟨_, h2⟩
        · exact .inr ⟨_, h3⟩
  · exact .inl (endSignals_at_frameRef s)

theorem takeBlockEnd_level_eq {n : Fin 59} (hl : sourceIsLevel n = true) (s : State) : ∀ v, v = (s.takeBlockEnd.source n).condition →
    s.takeBlockEnd.source n = if s.ahead.contains (.source n) then (s.source n).reported s.ref.hsc v
      else ((s.source n).reported s.ref.hsc v).stepped s.ref.hsc := by
  intro v hv
  rcases endSignals_at_level hl s with h | ⟨w, h⟩
  · obtain ⟨hc, hsource⟩ := takeBlockEnd_unreported hl h
    rw [hv, hc]; exact hsource
  · obtain ⟨hc, hsource⟩ := takeBlockEnd_reported hl h
    rw [hv, hc]; exact hsource

end Sys2Proof.Machine
end

