-- ==== Sys2Proof/Proofs/BlockCounts.lean ====
section
/-! PROOFS. What a block end leaves of each counter, and BLOCK_END as a whole (R89, R175). -/

namespace Sys2Proof.Machine

variable {s t : State} {p : Fin 8}

/-! ### The counting events of one kind -/

/-- The counting events of one kind in a list of signals. -/
def sentOf (e : CountEvent) (l : List Signal) : List Sent := (l.filterMap Signal.sent).filter (fun x => x.1 == e)

theorem sentOf_nil (e : CountEvent) : sentOf e [] = [] := rfl

theorem sentOf_append (e : CountEvent) (l m : List Signal) : sentOf e (l ++ m) = sentOf e l ++ sentOf e m := by
  rw [sentOf, List.filterMap_append, List.filter_append]; rfl

theorem sentOf_ite (e : CountEvent) {b : Prop} [Decidable b] (l m : List Signal) : sentOf e (if b then l else m) = if b then sentOf e l else sentOf e m :=
  apply_ite _ _ _ _

theorem sentOf_count (e k : CountEvent) (o : Option (Fin 8)) (a : Nat) (l : List Signal) :
    sentOf e (.count k o a :: l) = if k = e then (k, o, a) :: sentOf e l else sentOf e l := by
  rw [sentOf, List.filterMap_cons_some (f := Signal.sent) (a := .count k o a) (b := (k, o, a)) rfl, List.filter_cons]
  simp only [beq_iff_eq]
  rfl

theorem sentOf_latch (e : CountEvent) (n : Fin 59) (l : List Signal) : sentOf e (.latch n :: l) = sentOf e l := rfl

theorem sentOf_report (e : CountEvent) (n : Fin 59) (v : Bool) (l : List Signal) : sentOf e (.report n v :: l) = sentOf e l := rfl

/-- The list holds counting events of these kinds alone. -/
def CountsWithin (es : List CountEvent) (l : List Signal) : Prop := ∀ x ∈ l.filterMap Signal.sent, x.1 ∈ es

theorem CountsWithin.append {es : List CountEvent} {l m : List Signal} (h : CountsWithin es l) (k : CountsWithin es m) : CountsWithin es (l ++ m) := by
  intro x hx
  rw [List.filterMap_append, List.mem_append] at hx
  exact hx.elim (h x) (k x)

theorem CountsWithin.mono {es fs : List CountEvent} {l : List Signal} (h : CountsWithin es l) (hs : ∀ e ∈ es, e ∈ fs) : CountsWithin fs l :=
  fun x hx => hs _ (h x hx)

theorem countsWithin_flatMap {es : List CountEvent} {ι : Type} {g : ι → List Signal} (h : ∀ i, CountsWithin es (g i)) (is : List ι) :
    CountsWithin es (is.flatMap g) := by
  induction is with
  | nil => exact fun _ hx => absurd hx (List.not_mem_nil)
  | cons i is ih => rw [List.flatMap_cons]; exact (h i).append ih

theorem CountsWithin.none_of {es : List CountEvent} {l : List Signal} (h : CountsWithin es l) {e : CountEvent} (he : e ∉ es) : sentOf e l = [] :=
  List.filter_eq_nil_iff.mpr (fun x hx hb => he (by rw [← eq_of_beq hb]; exact h x hx))

/-- Each part sends one event of the kind where its condition holds. -/
theorem sentOf_flatMap {e : CountEvent} {g : Fin 8 → List Signal} {b : Fin 8 → Bool} {amount : Fin 8 → Nat}
    (h : ∀ p, sentOf e (g p) = if b p = true then [(e, some p, amount p)] else []) (ps : List (Fin 8)) :
    sentOf e (ps.flatMap g) = (ps.filter b).map (fun p => (e, some p, amount p)) := by
  induction ps with
  | nil => rfl
  | cons p ps ih =>
    rw [List.flatMap_cons, sentOf_append, ih, h, List.filter_cons]
    cases b p <;> rfl

/-! ### What each part of a block end counts -/

abbrev linkCounts : List CountEvent := [.lockLoss, .slip, .fifoOcc]
abbrev meterCounts : List CountEvent := [.blockFrozen, .gainLate, .clipped]

theorem linkSignals_counts (x : Link) (l : Fin 8) : CountsWithin linkCounts (linkSignals x l) := by
  unfold linkSignals
  refine ((CountsWithin.append ?_ ?_).append ?_).append ?_
  · split <;> simp [CountsWithin, Signal.sent]
  · split <;> simp [CountsWithin, Signal.sent]
  · split <;> simp [CountsWithin, Signal.sent]
  · simp [CountsWithin, Signal.sent]

theorem clipSignals_counts (x : Programme) (p : Fin 8) : CountsWithin meterCounts (x.clipSignals p) := by
  unfold Programme.clipSignals
  split <;> simp [CountsWithin, Signal.sent]

theorem gainSignals_counts (x : Programme) (p : Fin 8) (r : BlockResult) : CountsWithin meterCounts (x.gainSignals p r) := by
  unfold Programme.gainSignals
  split
  · refine CountsWithin.append ?_ ?_
    · split <;> simp [CountsWithin, Signal.sent]
    · split <;> simp [CountsWithin, Signal.sent]
  · simp [CountsWithin]

theorem meterSignals_counts (es : List CountEvent) (p : Fin 8) (set : LoudSettings) (r : BlockResult) : CountsWithin es (meterSignals p set r) := by
  unfold meterSignals
  refine CountsWithin.append ?_ ?_
  · simp [CountsWithin, Signal.sent]
  · split <;> simp [CountsWithin, Signal.sent]

theorem blockSignals_counts (x : Programme) (p : Fin 8) (f : List LaneWeight → Bool) : CountsWithin meterCounts (x.blockSignals p f) := by
  unfold Programme.blockSignals
  cases x.life with
  | closed => simp [CountsWithin]
  | clearing _ _ _ => simp [CountsWithin]
  | live h w =>
    dsimp only
    split
    · exact clipSignals_counts x p
    · exact ((gainSignals_counts x p _).append (meterSignals_counts _ p _ _)).append (clipSignals_counts x p)

/-- The counting events of a move unit, and those of its signals. -/
theorem moveSignals_sent (a : MoveSent) (p : Fin 8) : (a.signals p).filterMap Signal.sent = a.1 := by
  have hlatches : (List.replicate a.2 (Signal.latch (moveSource p))).filterMap Signal.sent = [] := by
    rw [List.filterMap_eq_nil_iff]
    intro x hx
    rw [List.eq_of_mem_replicate hx]; rfl
  unfold MoveSent.signals
  rw [List.filterMap_append, hlatches, List.append_nil, List.filterMap_map]
  exact List.filterMap_some

theorem waitSignals_counts (s : State) (p : Fin 8) : CountsWithin moveCounts (s.waitSignals p) := by
  unfold State.waitSignals
  split
  · simp [CountsWithin]
  · unfold CountsWithin
    rw [moveSignals_sent]
    unfold Programme.waitedSent
    cases (s.prog p).move.state with
    | cueWait r k =>
      dsimp only
      split
      · exact endSent_events _ p _
      · simp
    | still => simp
    | moving _ _ _ => simp
    | readWait _ _ => simp
    | halted _ => simp

theorem timerSignals_counts (s : State) (n : Fin 59) : CountsWithin [] (s.timerSignals n) := by
  unfold State.timerSignals
  split
  · split <;> simp [CountsWithin, Signal.sent]
  · simp [CountsWithin]

/-! ### The counters after a block end -/

theorem takeBlockEnd_counter {c : Fin 8} {e : CountEvent} (he : e ≠ .alarmRaise) (hc : (s.counter c).event = some e) :
    s.takeBlockEnd.counter c = (s.counter c).offerAll (sentOf e s.endSignals) := by
  have hstart : s.endContacts.counter c = s.counter c := (State.counter_congr (endContacts_sameBut s .counters (by decide)) c).symm
  have h := (takeBlockEnd_runs s).counter (c := c) (by rw [hstart, hc]; simpa using he)
  rw [hstart, Counter.offerAll_filter hc] at h
  rw [h, ← sentOf, sentOf_append, (countsWithin_flatMap (timerSignals_counts s) _).none_of List.not_mem_nil, List.append_nil]

theorem sentOf_endSignals (s : State) (e : CountEvent) : sentOf e s.endSignals
    = sentOf e ((List.finRange 8).flatMap (fun l => linkSignals (s.link l) l))
      ++ sentOf e ([.count .memOcc none (Config.pages - freePages s.freeList)] ++ [.count .blocks none 1])
      ++ sentOf e ((List.finRange 8).flatMap (fun p => (s.prog p).blockSignals p (suspectBlock s.feeds s.marks)))
      ++ sentOf e ((List.finRange 8).flatMap s.waitSignals) := by
  unfold State.endSignals
  rw [sentOf_append, sentOf_append, sentOf_append]

theorem sentOf_links_of_not {e : CountEvent} (h : e ∉ linkCounts) (s : State) :
    sentOf e ((List.finRange 8).flatMap (fun l => linkSignals (s.link l) l)) = [] :=
  (countsWithin_flatMap (fun l => linkSignals_counts (s.link l) l) _).none_of h

theorem sentOf_counted_of_not {e : CountEvent} (h : e ∉ [CountEvent.memOcc, .blocks]) (k : Nat) :
    sentOf e ([.count .memOcc none k] ++ [.count .blocks none 1]) = [] :=
  CountsWithin.none_of (es := [.memOcc, .blocks]) (by simp [CountsWithin, Signal.sent]) h

theorem sentOf_meters_of_not {e : CountEvent} (h : e ∉ meterCounts) (s : State) :
    sentOf e ((List.finRange 8).flatMap (fun p => (s.prog p).blockSignals p (suspectBlock s.feeds s.marks))) = [] :=
  (countsWithin_flatMap (fun p => blockSignals_counts (s.prog p) p _) _).none_of h

theorem sentOf_waits_of_not {e : CountEvent} (h : e ∉ moveCounts) (s : State) : sentOf e ((List.finRange 8).flatMap s.waitSignals) = [] :=
  (countsWithin_flatMap (waitSignals_counts s) _).none_of h

theorem offerAll_map {ι : Type} (e : CountEvent) (o : ι → Option (Fin 8)) (k : ι → Nat) (is : List ι) (x : Counter) :
    x.offerAll (is.map (fun i => (e, o i, k i))) = is.foldl (fun y i => Counter.offer e (o i) (k i) y) x := List.foldl_map

/-- A counter of an event of the links. -/
theorem takeBlockEnd_link_counter {c : Fin 8} {e : CountEvent} (he : e ∈ linkCounts) (hc : (s.counter c).event = some e) {b : Fin 8 → Bool}
    {amount : Fin 8 → Nat} (h : ∀ l, sentOf e (linkSignals (s.link l) l) = if b l = true then [(e, some l, amount l)] else []) :
    s.takeBlockEnd.counter c = ((List.finRange 8).filter b).foldl (fun x l => Counter.offer e (some l) (amount l) x) (s.counter c) := by
  have hne : e ≠ .alarmRaise ∧ e ∉ [CountEvent.memOcc, .blocks] ∧ e ∉ meterCounts ∧ e ∉ moveCounts := by
    revert he; cases e <;> decide
  rw [takeBlockEnd_counter hne.1 hc, sentOf_endSignals, sentOf_flatMap h, sentOf_counted_of_not hne.2.1, sentOf_meters_of_not hne.2.2.1,
    sentOf_waits_of_not hne.2.2.2, List.append_nil, List.append_nil, List.append_nil, offerAll_map]

/-- A counter of an event of the meters and correctors. -/
theorem takeBlockEnd_meter_counter {c : Fin 8} {e : CountEvent} (he : e ∈ meterCounts) (hc : (s.counter c).event = some e) {b : Fin 8 → Bool}
    {amount : Fin 8 → Nat} (h : ∀ p, sentOf e ((s.prog p).blockSignals p (suspectBlock s.feeds s.marks)) = if b p = true then [(e, some p, amount p)] else []) :
    s.takeBlockEnd.counter c = ((List.finRange 8).filter b).foldl (fun x p => Counter.offer e (some p) (amount p) x) (s.counter c) := by
  have hne : e ≠ .alarmRaise ∧ e ∉ linkCounts ∧ e ∉ [CountEvent.memOcc, .blocks] ∧ e ∉ moveCounts := by
    revert he; cases e <;> decide
  rw [takeBlockEnd_counter hne.1 hc, sentOf_endSignals, sentOf_links_of_not hne.2.1, sentOf_counted_of_not hne.2.2.1, sentOf_flatMap h,
    sentOf_waits_of_not hne.2.2.2, List.append_nil, List.nil_append, List.nil_append, offerAll_map]

/-- A counter of an event of the move units. -/
theorem takeBlockEnd_move_counter {c : Fin 8} {e : CountEvent} (he : e ∈ moveCounts) (hc : (s.counter c).event = some e) {b : Fin 8 → Bool}
    {amount : Fin 8 → Nat} (h : ∀ p, sentOf e (s.waitSignals p) = if b p = true then [(e, some p, amount p)] else []) :
    s.takeBlockEnd.counter c = ((List.finRange 8).filter b).foldl (fun x p => Counter.offer e (some p) (amount p) x) (s.counter c) := by
  have hne : e ≠ .alarmRaise ∧ e ∉ linkCounts ∧ e ∉ [CountEvent.memOcc, .blocks] ∧ e ∉ meterCounts := by
    revert he; cases e <;> decide
  rw [takeBlockEnd_counter hne.1 hc, sentOf_endSignals, sentOf_links_of_not hne.2.1, sentOf_counted_of_not hne.2.2.1, sentOf_meters_of_not hne.2.2.2,
    sentOf_flatMap h, List.nil_append, List.nil_append, List.nil_append, offerAll_map]

/-- A counter of MEM_OCC or BLOCKS. -/
theorem takeBlockEnd_counted_counter {c : Fin 8} {e : CountEvent} (he : e ∈ [CountEvent.memOcc, .blocks]) (hc : (s.counter c).event = some e) :
    s.takeBlockEnd.counter c = (s.counter c).offerAll
      (sentOf e ([.count .memOcc none (Config.pages - freePages s.freeList)] ++ [.count .blocks none 1])) := by
  have hne : e ≠ .alarmRaise ∧ e ∉ linkCounts ∧ e ∉ meterCounts ∧ e ∉ moveCounts := by
    revert he; cases e <;> decide
  rw [takeBlockEnd_counter hne.1 hc, sentOf_endSignals, sentOf_links_of_not hne.2.1, sentOf_meters_of_not hne.2.2.1, sentOf_waits_of_not hne.2.2.2,
    List.append_nil, List.append_nil, List.nil_append]

theorem linkSignals_sentOf (x : Link) (l : Fin 8) :
    sentOf .lockLoss (linkSignals x l) = (if (x.conv.judgeWindow x.rx.arrivalCount).lockLoss then [(.lockLoss, some l, 1)] else [])
    ∧ sentOf .slip (linkSignals x l) = (if (x.conv.judgeWindow x.rx.arrivalCount).slip then [(.slip, some l, 1)] else [])
    ∧ sentOf .fifoOcc (linkSignals x l) = if (!x.conv.state.isOff) = true then [(.fifoOcc, some l, x.conv.fifo.length)] else [] := by
  unfold linkSignals
  simp only [sentOf_append, sentOf_ite, sentOf_count, sentOf_latch, sentOf_report, sentOf_nil, reduceCtorEq, if_true, if_false, ite_self,
    List.append_nil, List.nil_append, true_and]
  cases x.conv.state.isOff <;> rfl

theorem takeBlockEnd_otherCounters (s : State) : s.otherCounters (linkCounts ++ [.memOcc, .blocks] ++ meterCounts ++ moveCounts) s.takeBlockEnd := by
  intro c hc
  have hstart : s.endContacts.counter c = s.counter c := (State.counter_congr (endContacts_sameBut s .counters (by decide)) c).symm
  have hall : CountsWithin (linkCounts ++ [.memOcc, .blocks] ++ meterCounts ++ moveCounts) (s.endSignals ++ (List.finRange 59).flatMap s.timerSignals) := by
    unfold State.endSignals
    refine ((((CountsWithin.mono (countsWithin_flatMap (fun l => linkSignals_counts (s.link l) l) _) ?_).append ?_).append
      (CountsWithin.mono (countsWithin_flatMap (fun p => blockSignals_counts (s.prog p) p _) _) ?_)).append
      (CountsWithin.mono (countsWithin_flatMap (waitSignals_counts s) _) ?_)).append
      (CountsWithin.mono (countsWithin_flatMap (timerSignals_counts s) _) ?_)
    · decide
    · simp [CountsWithin, Signal.sent]
    · decide
    · decide
    · decide
  have h := (takeBlockEnd_runs s).counter (c := c) (by rw [hstart]; exact fun h => (hc _ h).2 rfl)
  rw [h, hstart, Counter.offerAll_of_ne]
  exact fun e he hev => (hc _ hev).1 (hall e he)

end Sys2Proof.Machine
end

