-- ==== Sys2Proof/Proofs/BlockEndLaw.lean ====
section
/-! PROOFS. BLOCK_END as a whole (R89). -/

namespace Sys2Proof.Machine

variable {s t : State} {p : Fin 8}

/-! ### The programmes after a block end -/

theorem waited_rest (x : Programme) (T : Nat) (time : Stamp) : x.waited T time = x.withMove (x.waited T time).move := by
  unfold Programme.waited
  cases x.move.state with
  | cueWait r k => dsimp only; split <;> rfl
  | still => rfl
  | moving _ _ _ => rfl
  | readWait _ _ => rfl
  | halted _ => rfl

theorem waitedProg_rest (s : State) (p : Fin 8) (x : Programme) : s.waitedProg p x = x.withMove (s.waitedProg p x).move := by
  unfold State.waitedProg
  split
  · rfl
  · exact waited_rest x _ _

/-- The cue wait does not read the meter and the corrector. -/
theorem waitedProg_withUnits (s : State) (p : Fin 8) (x : Programme) (m : Meter) (c : Corrector) :
    s.waitedProg p (x.withUnits m c) = (s.waitedProg p x).withUnits m c := by
  have hwaited (T : Nat) (time : Stamp) : (x.withUnits m c).waited T time = (x.waited T time).withUnits m c := by
    unfold Programme.waited
    have hmove : (x.withUnits m c).move = x.move := rfl
    rw [hmove]
    cases x.move.state with
    | cueWait r k => dsimp only; split <;> rfl
    | still => rfl
    | moving _ _ _ => rfl
    | readWait _ _ => rfl
    | halted _ => rfl
  unfold State.waitedProg
  split
  · rfl
  · exact hwaited _ _

/-- A block end leaves of a programme all but its meter, its corrector and its move unit. -/
theorem takeBlockEnd_prog (s : State) (p : Fin 8) :
    (s.takeBlockEnd.prog p).meter = ((s.prog p).atBlockEnd (suspectBlock s.feeds s.marks)).meter
    ∧ (s.takeBlockEnd.prog p).gain = ((s.prog p).atBlockEnd (suspectBlock s.feeds s.marks)).gain
    ∧ (s.takeBlockEnd.prog p).move = (s.waitedProg p (s.prog p)).move
    ∧ s.takeBlockEnd.prog p = { s.prog p with
      move := (s.takeBlockEnd.prog p).move, meter := (s.takeBlockEnd.prog p).meter, gain := (s.takeBlockEnd.prog p).gain } := by
  have h := prog_takeBlockEnd s p
  rw [atBlockEnd_eq, waitedProg_withUnits, waitedProg_rest] at h
  generalize s.takeBlockEnd.prog p = y at h
  subst h
  exact ⟨rfl, rfl, rfl, rfl⟩

/-- The corrector behind a block result and its clip count sent (R132 to R134, R139). -/
theorem resulted_cases (c : Corrector) (set : LoudSettings) (r : BlockResult) (due rp : Int) :
    ∀ x g, x = { c with freeze := r.freeze, clip := 0 } →
      g = (if r.freeze = .none then stepToward x.settings x.g (wantedGain x.settings set r) else x.g) →
    ∀ y, y = { (c.resulted set r due rp).1 with clip := 0 } →
      (x.mode ≠ .track → y = x)
      ∧ (x.mode = .track → rp < due → y = { x with g := g, schedule := x.schedule ++ [⟨due, g⟩] })
      ∧ (x.mode = .track → due ≤ rp → y = { x with g := g, taken := g, ramp := if g = x.applied then 0 else x.ramp }) := by
  rintro x g rfl hg y rfl
  unfold Corrector.resulted
  refine ⟨fun hm => ?_, fun hm hlate => ?_, fun hm hlate => ?_⟩
  · have hm' : c.mode ≠ .track := hm
    rw [if_neg hm']
  · have hm' : c.mode = .track := hm
    have hnot : ¬ due ≤ rp := by omega
    rw [if_pos hm', Corrector.append, if_neg hnot]
    by_cases hf : r.freeze = .none
    · rw [if_pos hf] at hg; rw [if_neg (by simp [hf]), hg]
    · rw [if_neg hf] at hg; rw [if_pos (by simp [hf]), hg]
  · have hm' : c.mode = .track := hm
    rw [if_pos hm', Corrector.append, if_pos hlate]
    unfold Corrector.setTaken
    by_cases hf : r.freeze = .none
    · rw [if_pos hf] at hg; rw [if_neg (by simp [hf]), hg]
    · rw [if_neg hf] at hg; rw [if_pos (by simp [hf]), hg]

/-! ### The counting events of meters and correctors -/

theorem gainSignals_sentOf (x : Programme) (p : Fin 8) (r : BlockResult) :
    sentOf .gainLate (x.gainSignals p r) = (if x.gain.mode = .track ∧ x.move.dcur < 4800 then [(.gainLate, some p, 1)] else [])
    ∧ sentOf .blockFrozen (x.gainSignals p r) = (if x.gain.mode = .track ∧ r.freeze ≠ .none then [(.blockFrozen, some p, 1)] else [])
    ∧ sentOf .clipped (x.gainSignals p r) = [] := by
  unfold Programme.gainSignals
  by_cases hm : x.gain.mode = .track
  · simp only [hm, if_true, true_and, sentOf_append, sentOf_ite, sentOf_count, sentOf_nil, reduceCtorEq, if_false, ite_self, List.append_nil,
      List.nil_append, bne_iff_ne, ne_eq, and_self]
  · simp only [hm, if_false, false_and, sentOf_nil, and_self]

theorem clipSignals_sentOf (x : Programme) (p : Fin 8) :
    sentOf .clipped (x.clipSignals p) = (if (x.gain.clip != 0) = true then [(.clipped, some p, x.gain.clip)] else [])
    ∧ sentOf .gainLate (x.clipSignals p) = [] ∧ sentOf .blockFrozen (x.clipSignals p) = [] := by
  unfold Programme.clipSignals
  by_cases hc : x.gain.clip = 0
  · rw [if_pos hc, if_neg (by simp [hc])]; exact ⟨rfl, rfl, rfl⟩
  · rw [if_neg hc, if_pos (by simpa using hc)]; exact ⟨rfl, rfl, rfl⟩

/-- The meter's and the corrector's events of one programme (R132, R134, R139). -/
theorem blockSignals_sentOf (x : Programme) (p : Fin 8) (f : List LaneWeight → Bool) (late frozen : Bool)
    (hlate : late = true ↔ x.life.isLive = true ∧ x.meter.opening = false ∧ x.gain.mode = .track ∧ x.move.dcur < 4800)
    (hfrozen : frozen = true ↔ ∃ h w, x.life = .live h w ∧ x.meter.opening = false ∧ x.gain.mode = .track
      ∧ (x.meter.result h.lanes (f h.lanes)).2.freeze ≠ .none) :
    sentOf .gainLate (x.blockSignals p f) = (if late = true then [(.gainLate, some p, 1)] else [])
    ∧ sentOf .blockFrozen (x.blockSignals p f) = (if frozen = true then [(.blockFrozen, some p, 1)] else [])
    ∧ sentOf .clipped (x.blockSignals p f) = (if (x.life.isLive && x.gain.clip != 0) = true then [(.clipped, some p, x.gain.clip)] else []) := by
  obtain ⟨hclip, hclipLate, hclipFrozen⟩ := clipSignals_sentOf x p
  have hquiet (hl : x.life.isLive = false) : late ≠ true ∧ frozen ≠ true := by
    refine ⟨fun h => absurd ((hlate.mp h).1.symm.trans hl) (by decide), fun h => ?_⟩
    obtain ⟨e, w, he, -⟩ := hfrozen.mp h
    rw [he] at hl; cases hl
  cases hlife : x.life with
  | closed =>
    have hl : x.life.isLive = false := by rw [hlife]; rfl
    rw [blockSignals_of_not_live hl, if_neg (hquiet hl).1, if_neg (hquiet hl).2]; exact ⟨rfl, rfl, rfl⟩
  | clearing _ _ _ =>
    have hl : x.life.isLive = false := by rw [hlife]; rfl
    rw [blockSignals_of_not_live hl, if_neg (hquiet hl).1, if_neg (hquiet hl).2]; exact ⟨rfl, rfl, rfl⟩
  | live e w =>
    have hlive : (Life.live e w).isLive = true := rfl
    cases ho : x.meter.opening with
    | true =>
      have hnot : late ≠ true ∧ frozen ≠ true :=
        ⟨fun h => absurd ((hlate.mp h).2.1.symm.trans ho) (by decide), fun h => by
          obtain ⟨_, _, -, h, -⟩ := hfrozen.mp h; rw [ho] at h; cases h⟩
      rw [blockSignals_of_opening hlife ho, if_neg hnot.1, if_neg hnot.2, hlive, Bool.true_and]
      exact ⟨hclipLate, hclipFrozen, hclip⟩
    | false =>
      obtain ⟨r, hr⟩ : ∃ r, r = (x.meter.result e.lanes (f e.lanes)).2 := ⟨_, rfl⟩
      obtain ⟨hgainLate, hgainFrozen, hgainClip⟩ := gainSignals_sentOf x p r
      have hmeter (k : CountEvent) : sentOf k (meterSignals p x.meter.settings r) = [] := (meterSignals_counts [] p _ r).none_of List.not_mem_nil
      have hlateIff : (x.gain.mode = .track ∧ x.move.dcur < 4800) ↔ late = true := by
        rw [hlate, hlife]; exact ⟨fun h => ⟨rfl, ho, h⟩, fun h => h.2.2⟩
      have hfrozenIff : (x.gain.mode = .track ∧ r.freeze ≠ .none) ↔ frozen = true := by
        rw [hfrozen, hr]
        refine ⟨fun h => ⟨e, w, hlife, ho, h⟩, ?_⟩
        rintro ⟨e', w', he, -, h⟩
        rw [hlife] at he
        obtain ⟨rfl, rfl⟩ := Life.live.inj he
        exact h
      rw [blockSignals_of_result hlife ho p f r hr]
      simp only [sentOf_append, hmeter, hgainLate, hgainFrozen, hgainClip, hclip, hclipLate, hclipFrozen, List.append_nil, List.nil_append,
        hlateIff, hfrozenIff, hlive, Bool.true_and, and_self]

/-! ### BLOCK_END -/

/-- What a block result leaves of the programme's conditions and of its OVERLOAD source (R117 to R119). -/
theorem takeBlockEnd_conditions {h : Held} {w : Nat} (hl : (s.prog p).life = .live h w) (ho : (s.prog p).meter.opening = false) :
    ∀ r set, r = ((s.prog p).meter.result h.lanes (suspectBlock s.feeds s.marks h.lanes)).2 → set = (s.prog p).meter.settings →
      (s.takeBlockEnd.source (silenceSource p)).condition = decide (r.m < set.silence)
      ∧ (s.takeBlockEnd.source (loudHighSource p)).condition = decide (r.freeze = .none ∧ set.target + set.upper < r.s)
      ∧ (s.takeBlockEnd.source (loudLowSource p)).condition = decide (r.freeze = .none ∧ r.s < set.target - set.lower)
      ∧ ((∃ y ∈ r.peaks, set.ceiling ≤ y) → s.latchedIn (overloadSource p) 1 s.ref.hsc s.takeBlockEnd)
      ∧ ((∀ y ∈ r.peaks, y < set.ceiling) → s.takeBlockEnd.source (overloadSource p) = s.source (overloadSource p)) := by
  rintro r set hr rfl
  have hat (n : Fin 59) (hn : n ∈ meterSources p) : sigAt n s.endSignals = sigAt n (meterSignals p (s.prog p).meter.settings r) :=
    (endSignals_at_meter hn s).trans (blockSignals_at_result hl ho n p _ hr)
  obtain ⟨h1, h2, h3, h4⟩ := meterSignals_at p (s.prog p).meter.settings r
  have hbool (b : Prop) [Decidable b] : (r.freeze == .none && decide b) = decide (r.freeze = .none ∧ b) := by
    rw [Bool.decide_and]; cases r.freeze <;> rfl
  have hany : r.peaks.any (fun y => decide ((s.prog p).meter.settings.ceiling ≤ y)) = true ↔ ∃ y ∈ r.peaks, (s.prog p).meter.settings.ceiling ≤ y := by
    simp only [List.any_eq_true, decide_eq_true_eq]
  obtain ⟨hover, hquiet⟩ := takeBlockEnd_latched (overloadSource_not_level p) (overloadSource_ne_counterSource p) s
    ((hat (overloadSource p) (by simp)).trans h4)
  rw [← hbool, ← hbool]
  refine ⟨(takeBlockEnd_reported (silenceSource_level p) ((hat _ (by simp)).trans h1)).1,
    (takeBlockEnd_reported (loudHighSource_level p) ((hat _ (by simp)).trans h2)).1,
    (takeBlockEnd_reported (loudLowSource_level p) ((hat _ (by simp)).trans h3)).1, fun h => hover (hany.mpr h), fun h => hquiet (fun h0 => ?_)⟩
  obtain ⟨y, hy, hle⟩ := hany.mp h0
  exact absurd (h y hy) (by omega)

/-- Without a block result the conditions and the OVERLOAD source stay. -/
theorem takeBlockEnd_no_result (h : (s.prog p).life.isLive = false ∨ (s.prog p).meter.opening = true) :
    s.takeBlockEnd.source (overloadSource p) = s.source (overloadSource p)
    ∧ ∀ n ∈ loudSources p, (s.takeBlockEnd.source n).condition = (s.source n).condition := by
  have hat (n : Fin 59) (hn : n ∈ meterSources p) : sigAt n s.endSignals = [] := by
    rw [endSignals_at_meter hn]
    cases hl : (s.prog p).life with
    | closed => rw [blockSignals_of_not_live (by rw [hl]; rfl)]; rfl
    | clearing _ _ _ => rw [blockSignals_of_not_live (by rw [hl]; rfl)]; rfl
    | live e w =>
      have ho : (s.prog p).meter.opening = true := h.resolve_left (by rw [hl]; nofun)
      rw [blockSignals_of_opening hl ho]; exact clipSignals_elsewhere n _ p
  refine ⟨?_, fun n hn => ?_⟩
  · have hsource := takeBlockEnd_source (overloadSource_ne_counterSource p) s
    rw [timerSignals_of_latched (overloadSource_not_level p), hat _ (by simp)] at hsource
    exact hsource
  · have hlevel : sourceIsLevel n = true := by
      simp only [loudSources, List.mem_cons, List.not_mem_nil, or_false] at hn
      rcases hn with rfl | rfl | rfl
      · exact silenceSource_level p
      · exact loudHighSource_level p
      · exact loudLowSource_level p
    exact (takeBlockEnd_unreported hlevel (hat n (List.mem_append_left [overloadSource p] hn))).1

/-- The corrector and the meter after a block result. -/
theorem takeBlockEnd_result {h : Held} {w : Nat} (hl : (s.prog p).life = .live h w) (ho : (s.prog p).meter.opening = false) :
    ∀ r, r = (s.prog p).meter.result h.lanes (suspectBlock s.feeds s.marks h.lanes) →
      (s.takeBlockEnd.prog p).meter = r.1 ∧ (s.takeBlockEnd.prog p).gain = { ((s.prog p).gain.resulted (s.prog p).meter.settings r.2 ((w : Int) - 4800)
        ((w : Int) - 1 - (s.prog p).move.dcur)).1 with clip := 0 } := by
  intro r hr
  obtain ⟨hmeter, hgain, -, -⟩ := takeBlockEnd_prog s p
  rw [hmeter, hgain, atBlockEnd_of_result hl ho r hr]
  exact ⟨rfl, rfl⟩

/-- A cue wait that the block end does not end (R75). -/
theorem waitedProg_move (s : State) (p : Fin 8) (x : Programme) :
    ((x.move.state.isCueWait = false ∨ s.ahead.contains (.cueWait p) = true) → (s.waitedProg p x).move = x.move)
    ∧ ∀ r k, x.move.state = .cueWait r k → s.ahead.contains (.cueWait p) = false → k + 1 < s.timeoutOf x.group →
      (s.waitedProg p x).move = { x.move with state := .cueWait r (k + 1) } := by
  unfold State.waitedProg
  refine ⟨fun h => ?_, fun r k hst ha hk => ?_⟩
  · split
    · rfl
    · next ha =>
      have hw : x.move.state.isCueWait = false := h.resolve_right ha
      unfold Programme.waited
      cases hst : x.move.state with
      | cueWait r k => rw [hst] at hw; cases hw
      | still => rfl
      | moving _ _ _ => rfl
      | readWait _ _ => rfl
      | halted _ => rfl
  · rw [if_neg (by rw [ha]; decide)]
    unfold Programme.waited
    rw [hst]
    dsimp only
    rw [if_neg (by omega)]
    rfl

/-- Settles O59: the block end is a list of signals behind the contacts' shares, of which each source and each counter takes its own, and
each link and programme takes its own step. -/
theorem blockEndReachesEveryBlock : Obligations.BlockEndReachesEveryBlock := by
  unfold Obligations.BlockEndReachesEveryBlock
  refine fun s => ⟨fun h => ?_, fun hdue => ⟨s.takeBlockEnd, exec_blockEnd hdue, takeBlockEnd_ref s, fun l j hj => ?_, fun c hc => ?_, fun c hc => ?_, fun c hc => ?_,
    fun c hc => ?_, fun c hc => ?_, fun p hl => ?_, fun p h w hl ho => ?_, fun p h => takeBlockEnd_no_result h, fun p h w hl ho m res set x g hm hres hset hx hg => ?_,
    fun late frozen hlate hfrozen c => ?_, (takeBlockEnd_unreported frameRefSource_level (endSignals_at_frameRef s)).1,
    fun n v hl hv => takeBlockEnd_level_eq hl s v hv, fun p h => ?_, fun p g r k hst hg ha hk => ?_, fun p => (takeBlockEnd_prog s p).2.2.2,
    fun c hc => takeBlockEnd_otherCounters s c (fun e he => ⟨fun hmem => (hc e he).1 ?_, (hc e he).2⟩), ?_, sameBut_mono (takeBlockEnd_sameBut s) (by decide)⟩⟩
  · simp only [exec, execBlockEnd, h, Bool.false_eq_true, if_false]
  · subst hj
    obtain ⟨hslip, hno⟩ := takeBlockEnd_slip s l
    rw [takeBlockEnd_link]
    exact ⟨rfl, rfl, (takeBlockEnd_reported (lockSource_level l) ((endSignals_at_link (l := l) (by simp) s).trans (linkSignals_lock _ l))).1, hslip,
      fun h => hno (by rw [h]; decide)⟩
  · exact takeBlockEnd_link_counter (amount := fun _ => 1) (by decide) hc (fun l => (linkSignals_sentOf _ l).1)
  · exact takeBlockEnd_link_counter (amount := fun _ => 1) (by decide) hc (fun l => (linkSignals_sentOf _ l).2.1)
  · exact takeBlockEnd_link_counter (amount := fun l => (s.link l).conv.fifo.length) (by decide) hc (fun l => (linkSignals_sentOf _ l).2.2)
  · exact takeBlockEnd_counted_counter (by decide) hc
  · exact takeBlockEnd_counted_counter (by decide) hc
  · obtain ⟨hmeter, hgain, -, -⟩ := takeBlockEnd_prog s p
    rw [atBlockEnd_of_not_live hl] at hmeter hgain
    exact ⟨hmeter, hgain⟩
  · obtain ⟨hmeter, hgain, -, -⟩ := takeBlockEnd_prog s p
    rw [atBlockEnd_of_opening hl ho] at hmeter hgain
    exact ⟨hgain, hmeter⟩
  · obtain ⟨hmeter, hgain⟩ := takeBlockEnd_result hl ho _ rfl
    obtain ⟨hkept, hahead, hlate⟩ := resulted_cases (s.prog p).gain (s.prog p).meter.settings res ((w : Int) - 4800)
      ((w : Int) - 1 - (s.prog p).move.dcur) x g hx (by rw [hg, hset]) _ rfl
    rw [← hres] at hgain
    rw [← hgain] at hkept hahead hlate
    exact ⟨hmeter.trans hm.symm, hkept, fun hm hd => hahead hm (by omega), fun hm hd => hlate hm (by omega), takeBlockEnd_conditions hl ho res set hres hset⟩
  · have hsent (q : Fin 8) := blockSignals_sentOf (s.prog q) q (suspectBlock s.feeds s.marks) (late q) (frozen q) (hlate q) (hfrozen q)
    refine ⟨fun hc => ?_, fun hc => ?_, fun hc => ?_⟩
    · exact takeBlockEnd_meter_counter (amount := fun _ => 1) (by decide) hc (fun q => (hsent q).1)
    · exact takeBlockEnd_meter_counter (amount := fun _ => 1) (by decide) hc (fun q => (hsent q).2.1)
    · exact takeBlockEnd_meter_counter (amount := fun q => (s.prog q).gain.clip) (by decide) hc (fun q => (hsent q).2.2)
  · exact (takeBlockEnd_prog s p).2.2.1.trans ((waitedProg_move s p _).1 h)
  · refine (takeBlockEnd_prog s p).2.2.1.trans ((waitedProg_move s p _).2 r k hst ha ?_)
    rw [hg]; exact hk
  · revert hmem; cases e <;> decide
  · rw [takeBlockEnd_eq]
    dsimp only
    rw [← stepTimers_sameBut s.endWaits .ahead (by decide), endWaits_ahead]

end Sys2Proof.Machine
end

