-- ==== Sys2Proof/Proofs/Cues.lean ====
section
/-! PROOFS. What a cue makes of its group, its members and the snapshot store, and CUE.FIRE (R98, R99, R102, R103). -/

namespace Sys2Proof.Machine

variable {s t : State} {p : Fin 8} {g : Fin 4}

/-! ### The cue, part by part -/

theorem members_congr (h : ∀ p, (t.prog p).life = (s.prog p).life ∧ (t.prog p).group = (s.prog p).group) (g : Fin 4) : t.members g = s.members g := by
  unfold State.members
  exact List.filter_congr fun p _ => by rw [(h p).1, (h p).2]

theorem liveMembers_congr (h : ∀ p, (t.prog p).life = (s.prog p).life ∧ (t.prog p).group = (s.prog p).group) (g : Fin 4) :
    t.liveMembers g = s.liveMembers g := by
  unfold State.liveMembers
  rw [members_congr h g]
  exact List.filter_congr fun p _ => by rw [(h p).1]

theorem mem_members (s : State) (g : Fin 4) (p : Fin 8) : p ∈ s.members g ↔ (s.prog p).life.isClosed = false ∧ (s.prog p).group = some g := by
  simp only [State.members, List.mem_filter, List.mem_finRange, true_and, Bool.and_eq_true, Bool.not_eq_true', beq_iff_eq]

theorem members_nodup (s : State) (g : Fin 4) : (s.members g).Nodup := (List.nodup_finRange 8).filter _

theorem waiting_nodup (s : State) (g : Fin 4) : (s.waiting g).Nodup := (members_nodup s g).filter _

theorem mem_waiting_iff (s : State) (g : Fin 4) (p : Fin 8) : p ∈ s.waiting g ↔ p ∈ s.members g ∧ (s.prog p).move.state.isCueWait = true := by
  rw [mem_waiting, mem_members, and_assoc]

/-- A cue leaves alone a unit that does not wait. -/
theorem cueStarted_of_not_waiting {x : Programme} (h : x.move.state.isCueWait = false) : x.cueStarted = x := by
  unfold Programme.cueStarted
  cases hst : x.move.state with
  | cueWait r k => rw [hst] at h; cases h
  | still => rfl
  | moving _ _ _ => rfl
  | readWait _ _ => rfl
  | halted _ => rfl

theorem cueStarted_of_waiting {x : Programme} {r : MoveRecord} {k : Nat} (h : x.move.state = .cueWait r k) :
    x.cueStarted = x.withMove { x.move with state := startState r } := by
  unfold Programme.cueStarted
  rw [h]

theorem cueStarted_rest (x : Programme) : x.cueStarted = x.withMove { x.move with state := x.cueStarted.move.state } := by
  cases h : x.move.state.isCueWait with
  | false => rw [cueStarted_of_not_waiting h]; rfl
  | true =>
    obtain ⟨r, k, hst⟩ := isCueWait_iff.mp h
    rw [cueStarted_of_waiting hst]; rfl

/-- A started move keeps D_cur, the meter and the corrector. -/
theorem cueStarted_kept (x : Programme) : x.cueStarted.move.dcur = x.move.dcur ∧ x.cueStarted.meter = x.meter ∧ x.cueStarted.gain = x.gain := by
  rw [cueStarted_rest]
  exact ⟨rfl, rfl, rfl⟩

/-- A member of a group that takes a cue, its meter begun again when it is LIVE and the group asks for it (R99). -/
def Programme.cued (x : Programme) (restart : Bool) : Programme :=
  x.cueStarted.withUnits (if restart = true ∧ x.life.isLive = true then x.meter.restart else x.meter) x.gain

theorem prog_countCue (s : State) (g : Fin 4) (p : Fin 8) : (s.countCue g).prog p = s.prog p := prog_of_sameBut (countCue_sameBut s g) (by decide) p

theorem prog_cueStarted (s : State) (g : Fin 4) (p : Fin 8) :
    (s.cueStarted g).prog p = if p ∈ s.members g then (s.prog p).cueStarted else s.prog p := by
  have h := forProgs_prog (F := fun _ _ x => x.cueStarted) (fun p t => prog_startWaiting t p) (fun p t => startWaiting_otherProgs t p)
    (fun _ _ _ _ => rfl) ((s.countCue g).waiting g) (waiting_nodup _ g) (s.countCue g) p
  have hwaiting : (s.countCue g).waiting g = s.waiting g := waiting_of_progs (countCue_sameBut s g .progs (by decide)).symm g
  refine h.trans ?_
  rw [prog_countCue, hwaiting, if_congr (mem_waiting_iff s g p) rfl rfl]
  by_cases hm : p ∈ s.members g
  · cases hw : (s.prog p).move.state.isCueWait with
    | true => rw [if_pos ⟨hm, rfl⟩, if_pos hm]
    | false => rw [if_neg (by simp), if_pos hm, cueStarted_of_not_waiting hw]
  · rw [if_neg (fun h => hm h.1), if_neg hm]

theorem group_cueStarted (s : State) (g k : Fin 4) : (s.cueStarted g).group k
    = if k = g then { s.group g with cueCount := (s.group g).cueCount + 1 } else s.group k := by
  have hstart : (s.cueStarted g).groups = (s.countCue g).groups :=
    (forProgs_sameBut (s.countCue g) [.progs] _ _ (fun p t => startWaiting_sameBut t p) .groups (by decide)).symm
  have hcount : (s.countCue g).groups = (s.setGroup g { s.group g with cueCount := (s.group g).cueCount + 1 }).groups :=
    (forProgs_sameBut (s.setGroup g { s.group g with cueCount := (s.group g).cueCount + 1 }) eventParts _ _
      (fun _ t => count_sameBut t _ _ _) .groups (by decide)).symm
  rw [State.group_congr (hstart.trans hcount) k]
  by_cases hk : k = g
  · subst hk; rw [if_pos rfl]; exact State.group_setGroup s k _
  · rw [if_neg hk]; exact State.group_setGroup_ne s hk _

theorem group_cueRestarted (s : State) (g k : Fin 4) (time : Stamp) : (s.cueRestarted g time).group k = (s.cueStarted g).group k :=
  State.group_congr ((snapshotCue_sameBut (s.cueStarted g) g time .groups (by decide)).trans
    (restartCue_sameBut ((s.cueStarted g).snapshotCue g time) g .groups (by decide))).symm k

/-- The group that takes a cue counts it and is disarmed; no other group changes. -/
theorem takeCue_group (s : State) (g k : Fin 4) (time : Stamp) : (s.takeCue g time).group k
    = if k = g then { s.group g with cueCount := (s.group g).cueCount + 1, armed := false } else s.group k := by
  rw [takeCue_eq]
  by_cases hk : k = g
  · subst hk
    rw [if_pos rfl, State.group_setGroup, group_cueRestarted, group_cueStarted, if_pos rfl]
  · rw [if_neg hk, State.group_setGroup_ne _ hk, group_cueRestarted, group_cueStarted, if_neg hk]

theorem liveMembers_cueStarted (s : State) (g : Fin 4) : (s.cueStarted g).liveMembers g = s.liveMembers g := by
  have h := (cueStarted_sameButMoves s g).units
  exact liveMembers_congr (fun p => ⟨h.life p, (by rw [h p])⟩) g

/-- Each member of the group takes its part of the cue, and no other programme does. -/
theorem takeCue_prog (s : State) (g : Fin 4) (time : Stamp) (p : Fin 8) :
    (s.takeCue g time).prog p = if p ∈ s.members g then (s.prog p).cued (s.group g).restart else s.prog p := by
  have hset : (s.takeCue g time).prog p = (s.cueRestarted g time).prog p := by
    rw [takeCue_eq]; exact prog_of_sameBut (setGroup_sameBut _ g _) (by decide) p
  have hsnap (q : Fin 8) : ((s.cueStarted g).snapshotCue g time).prog q = (s.cueStarted g).prog q :=
    prog_of_sameBut (snapshotCue_sameBut _ g time) (by decide) q
  have hgroup : ((s.cueStarted g).snapshotCue g time).group g = (s.cueStarted g).group g :=
    (State.group_congr (snapshotCue_sameBut (s.cueStarted g) g time .groups (by decide)) g).symm
  have hlive : ((s.cueStarted g).snapshotCue g time).liveMembers g = s.liveMembers g := by
    rw [← liveMembers_cueStarted s g]
    exact liveMembers_congr (fun q => ⟨congrArg Programme.life (hsnap q), congrArg Programme.group (hsnap q)⟩) g
  have hrestart : (((s.cueStarted g).snapshotCue g time).group g).restart = (s.group g).restart := by
    rw [hgroup, group_cueStarted, if_pos rfl]
  have hmem : p ∈ s.liveMembers g ↔ p ∈ s.members g ∧ (s.prog p).life.isLive = true := List.mem_filter
  have hunits (x : Programme) : x.cueStarted.withUnits x.meter x.gain = x.cueStarted := by rw [cueStarted_rest]; rfl
  have hmeter (x : Programme) : { x.cueStarted with meter := x.cueStarted.meter.restart } = x.cueStarted.withUnits x.meter.restart x.gain := by
    rw [cueStarted_rest]; rfl
  rw [hset]
  unfold State.cueRestarted State.restartCue Programme.cued
  rw [hrestart, hlive]
  by_cases hr : (s.group g).restart = true
  · rw [if_pos hr]
    have h := forProgs_prog (f := fun p t => t.setMeter p (t.prog p).meter.restart) (F := fun _ _ x => { x with meter := x.meter.restart })
      (fun p t => State.prog_setProg t p _) (fun p t k hk => State.prog_setProg_ne t hk _) (fun _ _ _ _ => rfl) (s.liveMembers g)
      ((members_nodup s g).filter _) ((s.cueStarted g).snapshotCue g time) p
    refine h.trans ?_
    rw [hsnap, prog_cueStarted, if_congr hmem rfl rfl]
    by_cases hm : p ∈ s.members g
    · by_cases hl : (s.prog p).life.isLive = true
      · rw [if_pos ⟨hm, hl⟩, if_pos hm, if_pos hm, if_pos ⟨hr, hl⟩, hmeter]
      · rw [if_neg (fun h => hl h.2), if_pos hm, if_pos hm, if_neg (fun h => hl h.2), hunits]
    · rw [if_neg (fun h => hm h.1), if_neg hm, if_neg hm]
  · rw [if_neg hr, hsnap, prog_cueStarted]
    by_cases hm : p ∈ s.members g
    · rw [if_pos hm, if_pos hm, if_neg (fun h => hr h.1), hunits]
    · rw [if_neg hm, if_neg hm]

theorem snapMember_of_prog (hmove : (t.prog p).move.dcur = (s.prog p).move.dcur) (hmeter : (t.prog p).meter = (s.prog p).meter)
    (hgain : (t.prog p).gain = (s.prog p).gain) : snapMember t p = snapMember s p := by
  unfold snapMember
  dsimp only
  rw [hmove, hmeter, hgain]

theorem State.snap_congr (h : t.snaps = s.snaps) (g : Fin 4) : t.snap g = s.snap g := by unfold State.snap; rw [h]

/-- The snapshot of a cue, when the group asks for one (R102, R103). -/
theorem takeCue_snap (s : State) (g k : Fin 4) (time : Stamp) : (s.takeCue g time).snap k
    = if k = g ∧ (s.group g).snapshot = true then
        { snap := some { group := g, cueNumber := (s.group g).cueCount + 1, hsc := time, unread := true
                         members := (s.liveMembers g).map (snapMember s) }
          overrun := (s.snap g).overrun || (s.snap g).snap.any Snapshot.unread }
      else s.snap k := by
  have hset : (s.takeCue g time).snaps = (s.cueRestarted g time).snaps := by
    rw [takeCue_eq]
    exact (setGroup_sameBut (s.cueRestarted g time) g _ .snaps (by decide)).symm
  have hrestart : (s.cueRestarted g time).snaps = ((s.cueStarted g).snapshotCue g time).snaps :=
    (restartCue_sameBut ((s.cueStarted g).snapshotCue g time) g .snaps (by decide)).symm
  have hstart : (s.cueStarted g).snaps = s.snaps :=
    ((countCue_sameBut s g .snaps (by decide)).trans
      (forProgs_sameBut (s.countCue g) [.progs] _ _ (fun p t => startWaiting_sameBut t p) .snaps (by decide))).symm
  have hmember (p : Fin 8) : snapMember (s.cueStarted g) p = snapMember s p := by
    have hkept : ((s.cueStarted g).prog p).move.dcur = (s.prog p).move.dcur ∧ ((s.cueStarted g).prog p).meter = (s.prog p).meter
        ∧ ((s.cueStarted g).prog p).gain = (s.prog p).gain := by
      rw [prog_cueStarted]
      split
      · exact cueStarted_kept _
      · exact ⟨rfl, rfl, rfl⟩
    exact snapMember_of_prog hkept.1 hkept.2.1 hkept.2.2
  rw [State.snap_congr (hset.trans hrestart) k]
  unfold State.snapshotCue
  rw [group_cueStarted, if_pos rfl]
  dsimp only
  by_cases hsnap : (s.group g).snapshot = true
  · rw [if_pos hsnap, liveMembers_cueStarted, List.map_congr_left (fun p _ => hmember p)]
    unfold State.writeSnapshot
    by_cases hk : k = g
    · subst hk
      rw [if_pos ⟨rfl, hsnap⟩, State.snap_setSnap, State.snap_congr hstart k]
      cases (s.snap k).snap <;> rfl
    · rw [if_neg (fun h => hk h.1), State.snap_setSnap_ne _ hk, State.snap_congr hstart k]
  · rw [if_neg hsnap, if_neg (fun h => hsnap h.2), State.snap_congr hstart k]

end Sys2Proof.Machine
end

