-- ==== Sys2Proof/Proofs/CueFire.lean ====
section
/-! PROOFS. CUE.FIRE (R98, R99). -/

namespace Sys2Proof.Machine

variable {s t u : State} {p : Fin 8} {g : Fin 4} {time : Stamp}

/-! ### A cue taken -/

/-- Between the two states the group has taken a cue, and nothing else has happened but at the port. -/
structure TookCue (g : Fin 4) (time : Stamp) (s t : State) : Prop where
  group : ∀ k, t.group k = if k = g then { s.group g with cueCount := (s.group g).cueCount + 1, armed := false } else s.group k
  prog : ∀ p, t.prog p = if p ∈ s.members g then (s.prog p).cued (s.group g).restart else s.prog p
  snap : ∀ k, t.snap k = if k = g ∧ (s.group g).snapshot = true then
      { snap := some { group := g, cueNumber := (s.group g).cueCount + 1, hsc := time, unread := true
                       members := (s.liveMembers g).map (snapMember s) }
        overrun := (s.snap g).overrun || (s.snap g).snap.any Snapshot.unread }
    else s.snap k
  sends : Sends ((s.members g).map (fun p => (.cueTaken, some p, 1))) [] s t
  kept : s.sameBut (.port :: cueParts) t

theorem takeCue_took (s : State) (g : Fin 4) (time : Stamp) : TookCue g time s (s.takeCue g time) where
  group k := takeCue_group s g k time
  prog := takeCue_prog s g time
  snap k := takeCue_snap s g k time
  sends := takeCue_sends s g time
  kept := sameBut_mono (takeCue_sameBut s g time) (by decide)

/-- A cue that a request brings. -/
theorem TookCue.acrossRequest {r : Request} (h : TookCue g time (s.taking r) u) (st : Status) (b : List Byte) :
    TookCue g time s ((⟨u, st, b⟩ : Answer).sent r) where
  group := h.group
  prog := h.prog
  snap := h.snap
  sends := Sends.acrossRequest h.sends st b
  kept := sameBut_of_take (a := ⟨u, st, b⟩) (by decide) h.kept

section
variable (h : TookCue g time s t)
include h

theorem TookCue.group_own : t.group g = { s.group g with cueCount := (s.group g).cueCount + 1, armed := false } := (h.group g).trans (if_pos rfl)

theorem TookCue.group_other {k : Fin 4} (hk : k ≠ g) : t.group k = s.group k := (h.group k).trans (if_neg hk)

theorem TookCue.prog_member (hp : p ∈ s.members g) : t.prog p = (s.prog p).cued (s.group g).restart := (h.prog p).trans (if_pos hp)

theorem TookCue.prog_other (hp : p ∉ s.members g) : t.prog p = s.prog p := (h.prog p).trans (if_neg hp)

/-- A waiting member starts its record. -/
theorem TookCue.started {r : MoveRecord} {k : Nat} (hp : p ∈ s.members g) (hst : (s.prog p).move.state = .cueWait r k) :
    (t.prog p).move = { (s.prog p).move with state := startState r } := by
  rw [h.prog_member hp, Programme.cued, cueStarted_of_waiting hst]
  rfl

/-- No other unit moves. -/
theorem TookCue.unmoved (hp : p ∉ s.members g ∨ (s.prog p).move.state.isCueWait = false) : (t.prog p).move = (s.prog p).move := by
  by_cases hm : p ∈ s.members g
  · rw [h.prog_member hm, Programme.cued, cueStarted_of_not_waiting (hp.resolve_left (fun h => h hm))]
    rfl
  · rw [h.prog_other hm]

theorem TookCue.meter (p : Fin 8) : (t.prog p).meter = if p ∈ s.members g ∧ (s.group g).restart = true ∧ (s.prog p).life.isLive = true then
    (s.prog p).meter.restart else (s.prog p).meter := by
  by_cases hm : p ∈ s.members g
  · rw [h.prog_member hm]
    exact (if_congr ⟨fun h => ⟨hm, h⟩, fun h => h.2⟩ rfl rfl)
  · rw [h.prog_other hm, if_neg (fun h => hm h.1)]

theorem TookCue.rest (p : Fin 8) : (t.prog p).gain = (s.prog p).gain ∧ (t.prog p).life = (s.prog p).life ∧ (t.prog p).group = (s.prog p).group := by
  by_cases hm : p ∈ s.members g
  · rw [h.prog_member hm, Programme.cued, cueStarted_rest]; exact ⟨rfl, rfl, rfl⟩
  · rw [h.prog_other hm]; exact ⟨rfl, rfl, rfl⟩

theorem TookCue.counter {c : Fin 8} (hc : (s.counter c).event = some .cueTaken) :
    t.counter c = (s.members g).foldl (fun x p => Counter.offer .cueTaken (some p) 1 x) (s.counter c) := by
  rw [h.sends.counter c (by rw [hc]; decide)]
  exact List.foldl_map

theorem TookCue.within : SendsWithin [.cueTaken] [] s t :=
  h.sends.within (fun e he => by obtain ⟨p, -, rfl⟩ := List.mem_map.mp he; simp) (by simp)

end

/-! ### CUE.FIRE -/

theorem takeCueFire_of_length_ne {body : List Byte} (h : body.length ≠ 1) : takeCueFire body s = refuse s .malformed := by
  unfold takeCueFire
  split
  · exact absurd rfl h
  · rfl

theorem takeCueFire_of_bad_group {b : Byte} (h : 4 ≤ b.toNat) : takeCueFire [b] s = refuse s .range := by
  simp only [takeCueFire, readId_of_le h]

theorem takeCueFire_of_none (h : (s.group g).source = .none) : takeCueFire (byte1 g) s = refuse s .state := by
  simp only [takeCueFire, byte1, readId_ofNat (show 4 ≤ 256 by decide), h]

theorem takeCueFire_of_frame (h : (s.group g).source = .frame) :
    takeCueFire (byte1 g) s = ⟨s.armGroup (some g), .ok, byte1 g ++ byte2 (s.group g).cueCount.toNat⟩ := by
  have hcount : ((s.armGroup (some g)).group g).cueCount = (s.group g).cueCount := by rw [armGroup_group, if_pos rfl]
  simp only [takeCueFire, byte1, readId_ofNat (show 4 ≤ 256 by decide), h, hcount]

theorem takeCueFire_of_cue (hn : (s.group g).source ≠ .none) (hf : (s.group g).source ≠ .frame) :
    takeCueFire (byte1 g) s = ⟨s.takeCue g s.ref.hsc, .ok, byte1 g ++ byte2 ((s.group g).cueCount + 1).toNat⟩ := by
  have hcount : ((s.takeCue g s.ref.hsc).group g).cueCount = (s.group g).cueCount + 1 := by rw [takeCue_group, if_pos rfl]
  simp only [takeCueFire, byte1, readId_ofNat (show 4 ≤ 256 by decide), hcount]
  cases hs : (s.group g).source with
  | none => exact absurd hs hn
  | frame => exact absurd hs hf
  | message => rfl
  | cue0 => rfl
  | cue1 => rfl

/-- CUE.FIRE with a source that a cue needs no frame for takes the cue at once (R98). -/
theorem completes_of_cueFire {tag : Byte} (hs : s.ready ∨ s.amidBlockEnd) (hn : (s.group g).source ≠ .none) (hf : (s.group g).source ≠ .frame) :
    Completes (.cueFire tag (byte1 g)) s .ok (byte1 g ++ byte2 ((s.group g).cueCount + 1).toNat) (TookCue g s.ref.hsc s) := by
  refine completes_of_answer (r := ⟨tag, 0x41, byte1 g⟩) (a := ⟨(s.taking ⟨tag, 0x41, byte1 g⟩).takeCue g s.ref.hsc, .ok, _⟩) rfl
    (hs.imp id (fun h => ⟨h, rfl⟩)) (takeCueFire_of_cue (s := s.taking ⟨tag, 0x41, byte1 g⟩) hn hf) ?_
  exact TookCue.acrossRequest (takeCue_took _ g s.ref.hsc) .ok _

end Sys2Proof.Machine
end

