-- ==== Sys2Proof/Proofs/CueTimeouts.lean ====
section
/-! PROOFS. Cue waits that time out, at CUE_TIMEOUT and at BLOCK_END (R71, R75, R100, R101). -/

namespace Sys2Proof.Machine

variable {s t u : State} {p : Fin 8} {g : Fin 4}

/-! ### A wait that the block end ends -/

/-- The cue wait of a programme reaches its timeout at the block end and has not been taken ahead. -/
def State.missesWait (s : State) (p : Fin 8) : Bool := !s.ahead.contains (.cueWait p) && s.cueTimesOut p

/-- The wait that ends is one in this group. -/
def State.missesIn (s : State) (g : Fin 4) (p : Fin 8) : Bool := s.missesWait p && decide ((s.prog p).group = some g)

theorem cueTimesOut_iff : s.cueTimesOut p = true ↔ ∃ r k, (s.prog p).move.state = .cueWait r k ∧ s.timeoutOf (s.prog p).group ≤ k + 1 := by
  unfold State.cueTimesOut
  cases (s.prog p).move.state with
  | cueWait r k =>
    simp only [decide_eq_true_eq]
    exact ⟨fun h => ⟨r, k, rfl, h⟩, fun ⟨_, _, he, h⟩ => by cases he; exact h⟩
  | still => simp
  | moving _ _ _ => simp
  | readWait _ _ => simp
  | halted _ => simp

theorem missesWait_iff : s.missesWait p = true ↔ s.ahead.contains (.cueWait p) = false ∧ ∃ r k, (s.prog p).move.state = .cueWait r k
    ∧ ∀ g, (s.prog p).group = some g → (s.group g).timeout ≤ k + 1 := by
  have htimeout (k : Nat) : s.timeoutOf (s.prog p).group ≤ k + 1 ↔ ∀ g, (s.prog p).group = some g → (s.group g).timeout ≤ k + 1 := by
    cases (s.prog p).group with
    | none => simp [State.timeoutOf]
    | some g => simp [State.timeoutOf]
  simp only [State.missesWait, Bool.and_eq_true, Bool.not_eq_true', cueTimesOut_iff, htimeout]

theorem cueTimesOut_congr (hp : t.prog p = s.prog p) (ht : ∀ g, t.timeoutOf g = s.timeoutOf g) : t.cueTimesOut p = s.cueTimesOut p := by
  unfold State.cueTimesOut
  rw [hp, ht]

theorem missesIn_congr (ha : t.ahead = s.ahead) (hp : t.prog p = s.prog p) (ht : ∀ g, t.timeoutOf g = s.timeoutOf g) : t.missesIn g p = s.missesIn g p := by
  unfold State.missesIn State.missesWait
  rw [ha, cueTimesOut_congr hp ht, hp]

/-- A cue wait that ends is reported CUE_MISSED with its unit STILL (R71, R75, R83). -/
theorem waited_of_timeout {x : Programme} {r : MoveRecord} {k T : Nat} (hst : x.move.state = .cueWait r k) (hT : T ≤ k + 1) (time : Stamp) :
    x.waited T time = x.withMove (MoveUnit.reported { x.move with state := .still, staged := .empty }
      (reportOf r .cueMissed x.move.dcur time)) := by
  rw [← missed_eq]
  unfold Programme.waited
  rw [hst]
  exact if_pos hT

theorem waitedSent_of_timeout {x : Programme} {r : MoveRecord} {k T : Nat} (hst : x.move.state = .cueWait r k) (hT : T ≤ k + 1) (p : Fin 8) :
    x.waitedSent p T = x.endSent p .cueMissed := by
  unfold Programme.waitedSent
  rw [hst]
  exact if_pos hT

theorem waitedSent_of_no_timeout (h : s.cueTimesOut p = false) : (s.prog p).waitedSent p (s.timeoutOf (s.prog p).group) = ([], 0) := by
  unfold State.cueTimesOut at h
  unfold Programme.waitedSent
  cases hst : (s.prog p).move.state with
  | cueWait r k => rw [hst] at h; exact if_neg (of_decide_eq_false h)
  | still => rfl
  | moving _ _ _ => rfl
  | readWait _ _ => rfl
  | halted _ => rfl

theorem reported_state (v : MoveUnit) (z : Report) : (v.reported z).state = v.state := by
  unfold MoveUnit.reported
  split <;> rfl

theorem isCueWait_waited (x : Programme) (T : Nat) (time : Stamp) : (x.waited T time).move.state.isCueWait = true ↔
    ∃ r k, x.move.state = .cueWait r k ∧ k + 1 < T := by
  cases hst : x.move.state with
  | cueWait r k =>
    by_cases hT : T ≤ k + 1
    · rw [waited_of_timeout hst hT, Programme.withMove, reported_state]
      refine ⟨fun h => absurd h Bool.false_ne_true, ?_⟩
      rintro ⟨_, _, he, h⟩
      cases he; omega
    · have hw : x.waited T time = x.withMove { x.move with state := .cueWait r (k + 1) } := by
        unfold Programme.waited; rw [hst]; exact if_neg hT
      rw [hw]
      exact ⟨fun _ => ⟨r, k, rfl, by omega⟩, fun _ => rfl⟩
  | still => simp [Programme.waited, hst, MoveState.isCueWait]
  | moving _ _ _ => simp [Programme.waited, hst, MoveState.isCueWait]
  | readWait _ _ => simp [Programme.waited, hst, MoveState.isCueWait]
  | halted _ => simp [Programme.waited, hst, MoveState.isCueWait]

/-! ### The groups of a block end (R101) -/

/-- One unit's share of the cue waits of a block end. -/
abbrev State.waitShare (p : Fin 8) (s : State) : State := s.unlessAhead (.cueWait p) (fun u => u.cueWaitStep p)

theorem cueWaitStep_of_timeout {r : MoveRecord} {k : Nat} (hst : (s.prog p).move.state = .cueWait r k) (h : s.cueTimesOut p = true) :
    s.cueWaitStep p = (s.endMissed p r).leftWaiting (s.prog p).group := by
  unfold State.cueWaitStep
  rw [hst]
  exact if_pos h

theorem cueWaitStep_groups_of_no_timeout (h : s.cueTimesOut p = false) : (s.cueWaitStep p).groups = s.groups := by
  unfold State.cueWaitStep
  cases (s.prog p).move.state with
  | cueWait r k => dsimp only; rw [if_neg (by rw [h]; decide)]; exact (setMove_sameBut s p _ .groups (by decide)).symm
  | still => rfl
  | moving _ _ _ => rfl
  | readWait _ _ => rfl
  | halted _ => rfl

theorem cueWaitStep_group_of_timeout (h : s.cueTimesOut p = true) (g : Fin 4) : (s.cueWaitStep p).group g
    = if (s.prog p).group = some g ∧ (s.cueWaitStep p).waiting g = [] then { s.group g with armed := false } else s.group g := by
  obtain ⟨r, k, hst, -⟩ := cueTimesOut_iff.mp h
  have hstep := cueWaitStep_of_timeout hst h
  have hgroups := State.group_congr (endMissed_groups s p r) g
  have hwaiting : (s.cueWaitStep p).waiting g = (s.endMissed p r).waiting g := by
    rw [hstep]; exact waiting_of_progs (leftWaiting_sameBut _ _ .progs (by decide)).symm g
  have hgroup : (s.cueWaitStep p).group g = ((s.endMissed p r).leftWaiting (s.prog p).group).group g := by rw [hstep]
  rw [hgroup, leftWaiting_group, hgroups]
  exact if_congr (by rw [hwaiting]) rfl rfl

theorem waitShare_group (s : State) (p : Fin 8) (g : Fin 4) : (s.waitShare p).group g
    = if s.missesIn g p = true ∧ (s.waitShare p).waiting g = [] then { s.group g with armed := false } else s.group g := by
  have hin : s.missesIn g p = true ↔ s.missesWait p = true ∧ (s.prog p).group = some g := by
    rw [State.missesIn, Bool.and_eq_true, decide_eq_true_eq]
  rw [if_congr (and_congr_left' hin) rfl rfl]
  unfold State.waitShare State.unlessAhead
  by_cases ha : s.ahead.contains (.cueWait p) = true
  · have hno : ¬ s.missesWait p = true := by rw [State.missesWait, ha]; exact Bool.false_ne_true
    rw [if_pos ha, if_neg (fun h => hno h.1.1)]
  · have hyes : s.missesWait p = s.cueTimesOut p := by
      rw [State.missesWait, Bool.eq_false_iff.mpr ha]; rfl
    rw [if_neg ha, hyes]
    dsimp only
    cases hout : s.cueTimesOut p with
    | false => rw [if_neg (by simp)]; exact State.group_congr (cueWaitStep_groups_of_no_timeout hout) g
    | true =>
      rw [cueWaitStep_group_of_timeout hout]
      exact if_congr ⟨fun h => ⟨⟨rfl, h.1⟩, h.2⟩, fun h => ⟨h.1.2, h.2⟩⟩ rfl rfl

theorem waitShare_waiting (s : State) (p q : Fin 8) (g : Fin 4) :
    q ∈ (s.waitShare p).waiting g ↔ q ∈ s.waiting g ∧ ¬ (q = p ∧ s.missesIn g p = true) := by
  rw [mem_waiting, mem_waiting]
  by_cases hq : q = p
  · subst hq
    have hprog : (s.waitShare q).prog q = s.waitedProg q (s.prog q) := waitShare_prog s q
    have hrest := waitedProg_rest s q (s.prog q)
    have hlife : (s.waitedProg q (s.prog q)).life = (s.prog q).life := by rw [hrest]; rfl
    have hgroup : (s.waitedProg q (s.prog q)).group = (s.prog q).group := by rw [hrest]; rfl
    have hstays : (s.waitedProg q (s.prog q)).move.state.isCueWait = true
        ↔ (s.prog q).move.state.isCueWait = true ∧ ¬ s.missesWait q = true := by
      unfold State.waitedProg
      by_cases ha : s.ahead.contains (.cueWait q) = true
      · rw [if_pos ha, State.missesWait, ha]; simp
      · rw [if_neg ha, isCueWait_waited, State.missesWait, Bool.eq_false_iff.mpr ha, Bool.not_false, Bool.true_and, cueTimesOut_iff, isCueWait_iff]
        constructor
        · rintro ⟨r, k, hst, h⟩
          refine ⟨⟨r, k, hst⟩, ?_⟩
          rintro ⟨_, _, he, h'⟩
          rw [hst] at he; cases he; omega
        · rintro ⟨⟨r, k, hst⟩, h⟩
          exact ⟨r, k, hst, by by_contra hT; exact h ⟨r, k, hst, by omega⟩⟩
    rw [hprog, hlife, hgroup, hstays, State.missesIn, Bool.and_eq_true, decide_eq_true_eq]
    tauto
  · have hprog : (s.waitShare p).prog q = s.prog q := waitShare_otherProgs s p q hq
    rw [hprog]
    exact ⟨fun h => ⟨h, fun h' => hq h'.1⟩, fun h => h.1⟩

theorem waitShare_missesIn {q : Fin 8} (hq : q ≠ p) (s : State) (g : Fin 4) : (s.waitShare p).missesIn g q = s.missesIn g q :=
  missesIn_congr (waitShare_sameBut s p .ahead (by decide)).symm (waitShare_otherProgs s p q hq) (waitShare_timeoutOf s p)

/-- The shares of several units leave waiting who waited and does not miss the cue. -/
theorem waiting_of_shares {ps : List (Fin 8)} (hps : ps.Nodup) (s : State) (g : Fin 4) (q : Fin 8) :
    q ∈ (forProgs ps State.waitShare s).waiting g ↔ q ∈ s.waiting g ∧ ¬ (q ∈ ps ∧ s.missesIn g q = true) := by
  induction ps generalizing s with
  | nil => exact ⟨fun h => ⟨h, fun h' => absurd h'.1 List.not_mem_nil⟩, fun h => h.1⟩
  | cons p ps ih =>
    obtain ⟨hp, hps⟩ := List.nodup_cons.mp hps
    rw [show forProgs (p :: ps) State.waitShare s = forProgs ps State.waitShare (s.waitShare p) from rfl, ih hps, waitShare_waiting]
    by_cases hq : q = p
    · subst hq; simp [hp]
    · rw [waitShare_missesIn hq]; simp [hq]

/-- A group is disarmed exactly when a wait in it ends and nobody waits there after the block end. -/
theorem groups_of_shares {ps : List (Fin 8)} (hps : ps.Nodup) (s : State) (g : Fin 4) : (forProgs ps State.waitShare s).group g
    = if (∃ q ∈ ps, s.missesIn g q = true) ∧ (forProgs ps State.waitShare s).waiting g = [] then { s.group g with armed := false } else s.group g := by
  induction ps generalizing s with
  | nil => rw [if_neg (by simp)]; rfl
  | cons p ps ih =>
    obtain ⟨hp, hps⟩ := List.nodup_cons.mp hps
    have hrest : forProgs (p :: ps) State.waitShare s = forProgs ps State.waitShare (s.waitShare p) := rfl
    have hsame : (∃ q ∈ ps, (s.waitShare p).missesIn g q = true) ↔ ∃ q ∈ ps, s.missesIn g q = true :=
      exists_congr fun q => and_congr_right fun hq => by rw [waitShare_missesIn (p := p) (fun h => hp (h ▸ hq))]
    have hwaits (q : Fin 8) := waiting_of_shares hps (s.waitShare p) g q
    rw [hrest, ih hps (s.waitShare p), waitShare_group]
    simp only [hsame, List.exists_mem_cons_iff]
    by_cases hall : (forProgs ps State.waitShare (s.waitShare p)).waiting g = []
    · by_cases hsome : ∃ q ∈ ps, s.missesIn g q = true
      · simp only [hall, hsome, and_true, or_true, if_true]
        split <;> rfl
      · have hnow : (s.waitShare p).waiting g = [] := by
          refine List.eq_nil_iff_forall_not_mem.mpr fun q hq => ?_
          have := (hwaits q).mpr ⟨hq, fun h => hsome ⟨q, h.1, by rw [← waitShare_missesIn (p := p) (fun he => hp (he ▸ h.1))]; exact h.2⟩⟩
          rw [hall] at this
          exact List.not_mem_nil this
        rw [if_neg (fun h => hsome h.1)]
        simp only [hnow, hall, hsome, or_false, and_true]
    · have hnow : (s.waitShare p).waiting g ≠ [] := by
        intro h
        refine hall (List.eq_nil_iff_forall_not_mem.mpr fun q hq => ?_)
        have := ((hwaits q).mp hq).1
        rw [h] at this
        exact List.not_mem_nil this
      simp only [hall, hnow, and_false, if_false]

theorem missesIn_beforeWaits (s : State) (p : Fin 8) (g : Fin 4) : s.endProgs.resetFeeds.missesIn g p = s.missesIn g p := by
  have hprog : s.endProgs.resetFeeds.prog p = (s.prog p).withUnits ((s.prog p).atBlockEnd (suspectBlock s.feeds s.marks)).meter
      ((s.prog p).atBlockEnd (suspectBlock s.feeds s.marks)).gain := by
    rw [prog_of_sameBut (resetFeeds_sameBut _) (by decide), prog_endProgs, ← atBlockEnd_eq]
  unfold State.missesIn State.missesWait State.cueTimesOut
  rw [hprog, ← beforeWaits_sameBut s .ahead (by decide), timeoutOf_of_sameBut (beforeWaits_sameBut s) (by decide)]
  rfl

/-- The groups after a block end. -/
theorem takeBlockEnd_group (s : State) (g : Fin 4) : s.takeBlockEnd.group g
    = if (∃ q, s.missesIn g q = true) ∧ s.takeBlockEnd.waiting g = [] then { s.group g with armed := false } else s.group g := by
  have htimers : s.endWaits.groups = s.endWaits.stepTimers.groups := stepTimers_sameBut _ .groups (by decide)
  have hend : s.endWaits.stepTimers.groups = s.takeBlockEnd.groups := by rw [takeBlockEnd_eq]
  have htimersProgs : s.endWaits.progs = s.endWaits.stepTimers.progs := stepTimers_sameBut _ .progs (by decide)
  have hendProgs : s.endWaits.stepTimers.progs = s.takeBlockEnd.progs := by rw [takeBlockEnd_eq]
  have h := groups_of_shares (List.nodup_finRange 8) s.endProgs.resetFeeds g
  have hwaits : forProgs (List.finRange 8) State.waitShare s.endProgs.resetFeeds = s.endWaits := rfl
  rw [hwaits, State.group_congr (beforeWaits_sameBut s .groups (by decide)).symm g] at h
  rw [State.group_congr (htimers.trans hend).symm g, h, waiting_of_progs (htimersProgs.trans hendProgs).symm g]
  exact if_congr (and_congr_left' ⟨fun ⟨q, _, hq⟩ => ⟨q, by rw [← missesIn_beforeWaits]; exact hq⟩,
    fun ⟨q, hq⟩ => ⟨q, List.mem_finRange q, by rw [missesIn_beforeWaits]; exact hq⟩⟩) rfl rfl

/-! ### CUE_TIMEOUT and the cue between two timeouts -/

theorem startState_not_waiting (r : MoveRecord) : (startState r).isCueWait = false := by
  unfold startState
  cases r.kind <;> rfl

theorem exec_cueTimeout (hdue : s.blockEndDue = true) (ha : s.ahead.contains (.cueWait p) = false) :
    exec (.cueTimeout p) s = .next (if s.cueTimesOut p then (s.cueWaitStep p).markAhead (.cueWait p) else s) := by
  change execCueTimeout p s = _
  unfold execCueTimeout
  rw [hdue, ha]
  rfl

/-- A cue wait at its timeout, taken ahead (R71, R75, R83, R101). -/
theorem cueTimeout_ends {r : MoveRecord} {k : Nat} (hdue : s.blockEndDue = true) (ha : s.ahead.contains (.cueWait p) = false)
    (hst : (s.prog p).move.state = .cueWait r k) (hg : (s.prog p).group = some g) (hk : (s.group g).timeout ≤ k + 1) :
    ∃ t, exec (.cueTimeout p) s = .next t
      ∧ t.prog p = { s.prog p with move := ({ (s.prog p).move with state := .still, staged := .empty }.reported
          ⟨r.tag, r.kind, .cueMissed, (s.prog p).move.dcur, s.ref.hsc, r.clamped⟩) }
      ∧ t.group g = (if t.waiting g = [] then { s.group g with armed := false } else s.group g)
      ∧ (∀ j, j ≠ g → t.group j = s.group j) ∧ SendsMove ((s.prog p).endSent p .cueMissed) p s t ∧ s.otherProgs p t
      ∧ t.ahead = .cueWait p :: s.ahead ∧ s.sameBut (.progs :: .groups :: .ahead :: eventParts) t := by
  have htimeout : s.timeoutOf (s.prog p).group ≤ k + 1 := by rw [hg]; exact hk
  have hout : s.cueTimesOut p = true := cueTimesOut_iff.mpr ⟨r, k, hst, htimeout⟩
  have hprog := prog_cueWaitStep s p
  rw [waited_of_timeout hst htimeout] at hprog
  have hgroup (j : Fin 4) := cueWaitStep_group_of_timeout hout j
  have hsends := cueWaitStep_sends s p
  rw [waitedSent_of_timeout hst htimeout] at hsends
  have hothers := cueWaitStep_otherProgs s p
  have hsame := cueWaitStep_sameBut s p
  refine ⟨_, (exec_cueTimeout hdue ha).trans (congrArg _ (if_pos hout)), ?_⟩
  have hahead : s.ahead = (s.cueWaitStep p).ahead := hsame .ahead (by decide)
  generalize s.cueWaitStep p = v at *
  have hmark : v.sameBut [.ahead] (v.markAhead (.cueWait p)) := withAhead_sameBut v _
  refine ⟨hprog, (hgroup g).trans ?_, fun j hj => (hgroup j).trans ?_, Sends.before hsends hmark, hothers, congrArg (Ahead.cueWait p :: ·) hahead.symm, ?_⟩
  · exact if_congr (and_iff_right hg) rfl rfl
  · rw [hg, if_neg (fun h => hj (Option.some.inj h.1).symm)]
  · exact sameBut_trans (sameBut_mono hsame (by decide)) (sameBut_mono hmark (by decide))

theorem waitSignals_of_missed (h : s.missesWait p = true) : s.waitSignals p = ((s.prog p).endSent p .cueMissed).signals p := by
  obtain ⟨ha, hout⟩ : s.ahead.contains (.cueWait p) = false ∧ s.cueTimesOut p = true := by simpa [State.missesWait] using h
  obtain ⟨r, k, hst, hT⟩ := cueTimesOut_iff.mp hout
  rw [State.waitSignals, if_neg (by rw [ha]; exact Bool.false_ne_true), waitedSent_of_timeout hst hT]

theorem waitSignals_of_not_missed (h : s.missesWait p = false) : s.waitSignals p = [] := by
  unfold State.waitSignals
  by_cases ha : s.ahead.contains (.cueWait p) = true
  · rw [if_pos ha]
  · have hout : s.cueTimesOut p = false := by rw [State.missesWait, Bool.eq_false_iff.mpr ha] at h; exact h
    rw [if_neg ha, waitedSent_of_no_timeout hout]
    rfl

theorem endSent_sentOf (x : Programme) (p : Fin 8) : sentOf .moveDone ((x.endSent p .cueMissed).signals p) = [(.moveDone, some p, 1)]
    ∧ sentOf .reportLost ((x.endSent p .cueMissed).signals p) = if 2 ≤ x.move.reports.length then [(.reportLost, some p, 1)] else [] := by
  unfold sentOf
  rw [moveSignals_sent]
  unfold Programme.endSent MoveUnit.lossSent MoveUnit.loses
  by_cases hl : x.move.reports.length < 2
  · have hr : ¬ 2 ≤ x.move.reports.length := by omega
    rw [if_pos hl, if_neg hr]; exact ⟨rfl, rfl⟩
  · have hr : 2 ≤ x.move.reports.length := by omega
    rw [if_neg hl, if_pos hr]; exact ⟨rfl, rfl⟩

/-- A block end that ends the waits at their timeout (R75, R101). -/
theorem blockEnd_ends_waits (s : State) (missed : Fin 8 → Bool)
    (hmissed : ∀ p, missed p = true ↔ s.ahead.contains (.cueWait p) = false ∧ ∃ r k, (s.prog p).move.state = .cueWait r k
      ∧ ∀ g, (s.prog p).group = some g → (s.group g).timeout ≤ k + 1) :
    (∀ p r k, missed p = true → (s.prog p).move.state = .cueWait r k →
      (s.takeBlockEnd.prog p).move = MoveUnit.reported { (s.prog p).move with state := .still, staged := .empty }
        ⟨r.tag, r.kind, .cueMissed, (s.prog p).move.dcur, s.ref.hsc, r.clamped⟩
      ∧ s.latchedIn (moveSource p) 1 s.ref.hsc s.takeBlockEnd)
    ∧ (∀ p, missed p = false → s.takeBlockEnd.source (moveSource p) = s.source (moveSource p))
    ∧ (∀ g, ((∃ p, missed p = true ∧ (s.prog p).group = some g) ∧ s.takeBlockEnd.waiting g = [] →
          s.takeBlockEnd.group g = { s.group g with armed := false })
        ∧ (¬ ((∃ p, missed p = true ∧ (s.prog p).group = some g) ∧ s.takeBlockEnd.waiting g = []) → s.takeBlockEnd.group g = s.group g))
    ∧ (∀ c, (s.counter c).event = some .moveDone → s.takeBlockEnd.counter c =
        ((List.finRange 8).filter missed).foldl (fun x p => Counter.offer .moveDone (some p) 1 x) (s.counter c))
    ∧ ∀ c, (s.counter c).event = some .reportLost → s.takeBlockEnd.counter c =
        ((List.finRange 8).filter (fun p => missed p && decide (2 ≤ (s.prog p).move.reports.length))).foldl
          (fun x p => Counter.offer .reportLost (some p) 1 x) (s.counter c) := by
  have hiff (p : Fin 8) : missed p = s.missesWait p := by rw [Bool.eq_iff_iff, hmissed, missesWait_iff]
  have hlatched (p : Fin 8) : sigAt (moveSource p) s.endSignals = if missed p = true then [.latch (moveSource p)] else [] := by
    rw [endSignals_at_move, hiff]
    cases hm : s.missesWait p with
    | false => rw [waitSignals_of_not_missed hm]; rfl
    | true => rw [waitSignals_of_missed hm, moveSignals_at, if_pos rfl, if_pos rfl]; rfl
  have hsource (p : Fin 8) := takeBlockEnd_latched (moveSource_not_level p) (moveSource_ne_counterSource p) s (hlatched p)
  refine ⟨fun p r k hm hst => ⟨?_, (hsource p).1 hm⟩, fun p hm => (hsource p).2 (by rw [hm]; exact Bool.false_ne_true), fun g => ?_, fun c hc => ?_, fun c hc => ?_⟩
  · obtain ⟨ha, hout⟩ : s.ahead.contains (.cueWait p) = false ∧ s.cueTimesOut p = true := by
      rw [hiff] at hm; simpa [State.missesWait] using hm
    obtain ⟨r', k', hst', hT⟩ := cueTimesOut_iff.mp hout
    rw [hst] at hst'
    cases hst'
    rw [(takeBlockEnd_prog s p).2.2.1, State.waitedProg, if_neg (by rw [ha]; exact Bool.false_ne_true), waited_of_timeout hst hT]
    rfl
  · have hin : (∃ p, missed p = true ∧ (s.prog p).group = some g) ↔ ∃ q, s.missesIn g q = true :=
      exists_congr fun p => by rw [hiff, State.missesIn, Bool.and_eq_true, decide_eq_true_eq]
    rw [hin]
    exact ⟨fun h => (takeBlockEnd_group s g).trans (if_pos h), fun h => (takeBlockEnd_group s g).trans (if_neg h)⟩
  · refine takeBlockEnd_move_counter (amount := fun _ => 1) (by decide) hc (fun p => ?_)
    rw [hiff]
    cases hm : s.missesWait p with
    | false => rw [waitSignals_of_not_missed hm]; rfl
    | true => rw [waitSignals_of_missed hm]; exact (endSent_sentOf _ p).1
  · refine takeBlockEnd_move_counter (amount := fun _ => 1) (by decide) hc (fun p => ?_)
    rw [hiff]
    cases hm : s.missesWait p with
    | false => rw [waitSignals_of_not_missed hm]; rfl
    | true =>
      rw [waitSignals_of_missed hm, (endSent_sentOf _ p).2, Bool.true_and]
      exact if_congr decide_eq_true_iff.symm rfl rfl

/-- Settles O42: the wait ends as a move ends, alone or at the block end; and a cue between two members' timeouts starts those that still
wait, which the block end then finds moving. -/
theorem cueTimeoutEndsTheWait : Obligations.CueTimeoutEndsTheWait := by
  unfold Obligations.CueTimeoutEndsTheWait
  refine ⟨fun s p g r k hdue ha hst hg => ⟨fun hk => ?_, fun hk => ?_⟩, fun s t missed hdue h hmissed => ?_,
    fun s tag p q g r x k j hamid hpq ha hst hg hk hq hqst hn hf => ?_⟩
  · obtain ⟨t, hexec, hprog, hgroup, hgroups, hsends, hothers, -, hsame⟩ := cueTimeout_ends hdue ha hst hg hk
    obtain ⟨hlatched, hdone, hraises, hlost, hsources, hcounters⟩ := hsends.ofEnd (by decide)
    exact ⟨t, hexec, hprog, hgroup, hgroups, hlatched, hdone, hraises, hlost, hothers, hsources, hcounters, hsame⟩
  · have hout : s.cueTimesOut p = false := by
      refine Bool.eq_false_iff.mpr fun h => ?_
      obtain ⟨r', k', hst', hT⟩ := cueTimesOut_iff.mp h
      rw [hst] at hst'
      cases hst'
      rw [hg] at hT
      exact absurd hT (Nat.not_le.mpr hk)
    rw [exec_cueTimeout hdue ha, hout]
    rfl
  · rw [exec_blockEnd hdue, Host.Outcome.next.injEq] at h
    rw [← h]
    exact blockEnd_ends_waits s missed hmissed
  · obtain ⟨t, hexec, hprog, hgroup, -, -, hothers, hahead, hsame⟩ := cueTimeout_ends hamid.2 ha hst hg hk
    have href : t.ref = s.ref := ref_of_sameBut hsame (by decide)
    have hdue : t.blockEndDue = true := by
      rw [State.blockEndDue, href, ← hsame .startUp (by decide)]; exact hamid.2
    have hport : s.port = t.port := hsame .port (by decide)
    obtain ⟨hsource, hcount⟩ : (t.group g).source = (s.group g).source ∧ ∀ b, { t.group g with cueCount := (t.group g).cueCount + 1, armed := b }
        = { s.group g with cueCount := (s.group g).cueCount + 1, armed := b } := by
      rw [hgroup]; split <;> exact ⟨rfl, fun _ => rfl⟩
    have hmembers : t.members g = s.members g := by
      refine members_congr (fun i => ?_) g
      by_cases hi : i = p
      · subst hi; rw [hprog]; exact ⟨rfl, rfl⟩
      · rw [hothers i hi]; exact ⟨rfl, rfl⟩
    obtain ⟨rq, u, -, hfire, -, htook⟩ := completes_of_cueFire (tag := tag) (s := t) (g := g) (.inr ⟨hport ▸ hamid.1, hdue⟩) (by rw [hsource]; exact hn)
      (by rw [hsource]; exact hf)
    have hudue : u.blockEndDue = true := by
      rw [State.blockEndDue, ref_of_sameBut htook.kept (by decide), ← htook.kept .startUp (by decide)]; exact hdue
    have huahead : u.ahead = .cueWait p :: s.ahead := (htook.kept .ahead (by decide)).symm.trans hahead
    have hup : (u.prog p).move = (t.prog p).move := htook.unmoved (.inr (by rw [hprog]; dsimp only; rw [reported_state]; rfl))
    have huq : (u.prog q).move = { (s.prog q).move with state := startState x } := by
      have hother : t.prog q = s.prog q := hothers q (fun h => hpq h.symm)
      have h := htook.started (hmembers ▸ hq) (by rw [hother]; exact hqst)
      rwa [hother] at h
    refine ⟨t, u, u.takeBlockEnd, hexec, hfire, exec_blockEnd hudue, ?_, ?_, ?_⟩
    · rw [(takeBlockEnd_prog u p).2.2.1, (waitedProg_move u p _).1 (.inr (by rw [huahead]; simp)), hup, hprog]
    · rw [(takeBlockEnd_prog u q).2.2.1, (waitedProg_move u q _).1 (.inl (by rw [huq]; exact startState_not_waiting x)), huq]
    · rw [takeBlockEnd_group, htook.group_own, hcount]
      split <;> rfl

end Sys2Proof.Machine
end

