-- ==== Sys2Proof/Proofs/Contacts.lean ====
section
/-! PROOFS. A contact along a list of signals: it follows the demand when that changes at most once (R169, R170). -/

namespace Sys2Proof.Machine

variable {s t u : State} {c : Fin 4} {n : Fin 59}

/-! ### The sources that call a contact -/

/-- A source calls a contact of this ceiling (R169). -/
def Source.callsAt (lim : Option Nat) (r : Source) : Bool :=
  match lim with
  | none => false
  | some k => (r.pending || r.accepted) && !r.masked && decide (r.priority ≤ k)

theorem callsAt_iff (lim : Option Nat) (r : Source) : r.callsAt lim = true ↔ ∃ k, lim = some k ∧ r.priority ≤ k ∧ r.masked = false
    ∧ (r.pending = true ∨ r.accepted = true) := by
  cases lim with
  | none => simp [Source.callsAt]
  | some k => simp [Source.callsAt]; tauto

/-- Two records whose flags and settings agree as far as a contact reads them call alike. -/
theorem callsAt_mono {r x : Source} (hp : x.priority = r.priority) (hm : x.masked = r.masked)
    (ha : r.pending = true ∨ r.accepted = true → x.pending = true ∨ x.accepted = true) (lim : Option Nat) (h : r.callsAt lim = true) :
    x.callsAt lim = true := by
  rw [callsAt_iff] at h ⊢
  obtain ⟨k, hk, hlim, hmask, hflag⟩ := h
  exact ⟨k, hk, by rw [hp]; exact hlim, by rw [hm]; exact hmask, ha hflag⟩

theorem callsAt_congr {r x : Source} (hp : x.priority = r.priority) (hm : x.masked = r.masked) (hf : x.pending = r.pending) (ha : x.accepted = r.accepted)
    (lim : Option Nat) : x.callsAt lim = r.callsAt lim := by
  unfold Source.callsAt
  rw [hp, hm, hf, ha]

/-- The demand of a contact (R169). -/
def State.demandOf (s : State) (c : Fin 4) : Bool := demand s.sources (s.contact c).ceiling

theorem demand_iff (s : State) (lim : Option Nat) : demand s.sources lim = true ↔ ∃ n, (s.source n).callsAt lim = true := by
  cases lim with
  | none => simp [demand, Source.callsAt]
  | some k =>
    simp only [demand, List.any_eq_true, toList_eq_map_finRange, List.mem_map, List.mem_finRange, true_and]
    exact ⟨fun ⟨_, ⟨n, rfl⟩, h⟩ => ⟨n, h⟩, fun ⟨n, h⟩ => ⟨_, ⟨n, rfl⟩, h⟩⟩

/-! ### A contact judged once or more -/

theorem judge_judge (d : Bool) (x : Contact) : (x.judge d).judge d = x.judge d := by
  unfold Contact.judge
  cases d <;> cases ha : x.asserted
  · simp [ha]
  · by_cases hm : x.minOn ≤ x.onTime <;> simp [ha, hm]
  · simp
  · simp [ha]

/-- A contact that stood as its demand asks stands so behind the operation. -/
structure Follows (c : Fin 4) (s t : State) : Prop where
  ceiling : (t.contact c).ceiling = (s.contact c).ceiling
  judged : (s.contact c).judge (s.demandOf c) = s.contact c → t.contact c = (s.contact c).judge (t.demandOf c)

theorem Follows.stands (h : Follows c s t) (hs : (s.contact c).judge (s.demandOf c) = s.contact c) : (t.contact c).judge (t.demandOf c) = t.contact c := by
  rw [h.judged hs, judge_judge]

/-- One operation behind another, when the demand changes at most at one of them. -/
theorem Follows.trans (h : Follows c s t) (k : Follows c t u) (hd : t.demandOf c = s.demandOf c ∨ u.demandOf c = t.demandOf c) : Follows c s u where
  ceiling := k.ceiling.trans h.ceiling
  judged hs := by
    have hu := k.judged (h.stands hs)
    rcases hd with hd | hd
    · rw [hu, h.judged hs, hd, hs]
    · rw [hu, h.judged hs, hd, judge_judge]

theorem contact_of_sameBut {ps : List Part} (h : s.sameBut ps t) (hp : Part.contacts ∉ ps) (c : Fin 4) : t.contact c = s.contact c := by
  have hc : s.contacts = t.contacts := h .contacts hp
  unfold State.contact; rw [hc]

theorem follows_of_same (hc : t.contact c = s.contact c) (hs : t.sources = s.sources) : Follows c s t where
  ceiling := by rw [hc]
  judged h := by
    have hd : t.demandOf c = s.demandOf c := by unfold State.demandOf; rw [hc, hs]
    rw [hc, hd, h]

theorem setSource_contact (s : State) (n : Fin 59) (x : Source) (c : Fin 4) :
    (s.setSource n x).contact c = (s.contact c).judge (demand (s.setSource n x).sources (s.contact c).ceiling) := by
  simp [State.setSource, State.judge, State.contact]

theorem setSource_follows (s : State) (n : Fin 59) (x : Source) (c : Fin 4) : Follows c s (s.setSource n x) where
  ceiling := by rw [setSource_contact, Contact.judge_ceiling]
  judged _ := by rw [State.demandOf, setSource_contact, Contact.judge_ceiling]

/-! ### Operations at which no source stops calling -/

/-- The contact follows its demand, and every source that calls it goes on calling. -/
structure Rises (c : Fin 4) (s t : State) : Prop extends Follows c s t where
  calls : ∀ lim n, (s.source n).callsAt lim = true → (t.source n).callsAt lim = true

theorem Rises.demand (h : Rises c s t) (hd : s.demandOf c = true) : t.demandOf c = true := by
  unfold State.demandOf at hd ⊢
  rw [h.ceiling]
  obtain ⟨n, hn⟩ := (demand_iff s _).mp hd
  exact (demand_iff t _).mpr ⟨n, h.calls _ n hn⟩

theorem Rises.trans (h : Rises c s t) (k : Rises c t u) : Rises c s u where
  toFollows := by
    refine h.toFollows.trans k.toFollows ?_
    cases hs : s.demandOf c with
    | true => exact .inl (h.demand hs)
    | false =>
      cases ht : t.demandOf c with
      | true => exact .inr (k.demand ht)
      | false => exact .inl rfl
  calls lim n hn := k.calls lim n (h.calls lim n hn)

theorem rises_of_same (hc : t.contact c = s.contact c) (hs : t.sources = s.sources) : Rises c s t where
  toFollows := follows_of_same hc hs
  calls lim n hn := by rw [State.source_congr hs]; exact hn

theorem setSource_rises {x : Source} (h : ∀ lim, (s.source n).callsAt lim = true → x.callsAt lim = true) (c : Fin 4) : Rises c s (s.setSource n x) where
  toFollows := setSource_follows s n x c
  calls lim k hk := by
    by_cases hkn : k = n
    · subst hkn; rw [State.source_setSource]; exact h lim hk
    · rw [State.source_setSource_ne s hkn]; exact hk

theorem latched_calls (hsc : Stamp) (r : Source) (lim : Option Nat) (h : r.callsAt lim = true) : (r.raised hsc).latched.callsAt lim = true := by
  refine callsAt_mono (r := r) ?_ ?_ ?_ lim h
  · unfold Source.latched; split <;> rfl
  · unfold Source.latched; split <;> rfl
  · intro hf
    unfold Source.latched
    split
    · exact hf
    · exact .inl rfl

theorem latchFlags_rises (s : State) (n : Fin 59) (c : Fin 4) : Rises c s (s.latchFlags n) := setSource_rises (fun lim => latched_calls _ _ lim) c

theorem latchCounter_rises (k : Nat) (s : State) (c : Fin 4) : Rises c s (State.latchCounter k s) := by
  induction k generalizing s with
  | zero => exact rises_of_same rfl rfl
  | succ k ih => exact (latchFlags_rises s counterSource c).trans (ih _)

theorem countRaises_rises (fuel k : Nat) (s : State) (c : Fin 4) : Rises c s (countRaises fuel k s) := by
  induction fuel generalizing k s with
  | zero => exact rises_of_same rfl rfl
  | succ fuel ih =>
    cases k with
    | zero => exact rises_of_same rfl rfl
    | succ k =>
      have hoffer : Rises c s (s.offerEvent .alarmRaise none 1) := rises_of_same rfl rfl
      exact (hoffer.trans (latchCounter_rises _ _ c)).trans (ih _ _)

theorem count_rises (s : State) (e : CountEvent) (o : Option (Fin 8)) (k : Nat) (c : Fin 4) : Rises c s (s.count e o k) := by
  have hoffer : Rises c s (s.offerEvent e o k) := rises_of_same rfl rfl
  exact (hoffer.trans (latchCounter_rises _ _ c)).trans (countRaises_rises _ _ _ c)

theorem latch_rises (s : State) (n : Fin 59) (c : Fin 4) : Rises c s (s.latch n) := (latchFlags_rises s n c).trans (countRaises_rises _ _ _ c)

theorem qualify_rises (s : State) (n : Fin 59) (c : Fin 4) : Rises c s (s.qualify n) := by
  refine (setSource_rises (fun lim h => ?_) c).trans (countRaises_rises _ _ _ c)
  refine callsAt_mono (r := s.source n) (x := (s.source n).qualifiedAt s.ref.hsc) rfl rfl (fun hf => ?_) lim h
  exact hf.imp (fun h => by simp [Source.qualifiedAt, h]) id

theorem report_follows (s : State) (n : Fin 59) (v : Bool) (c : Fin 4) : Follows c s (s.report n v) := by
  have hset : Rises c s (s.setSource n { s.source n with condition := v, timer := 0 }) :=
    setSource_rises (fun lim h => callsAt_mono (r := s.source n) (x := { s.source n with condition := v, timer := 0 }) rfl rfl id lim h) c
  have hdemand : (s.setSource n { s.source n with condition := v, timer := 0 }).demandOf c = s.demandOf c := by
    unfold State.demandOf
    rw [hset.ceiling, Bool.eq_iff_iff, demand_iff, demand_iff]
    refine exists_congr fun k => ?_
    by_cases hk : k = n
    · subst hk; rw [State.source_setSource]; exact Iff.rfl
    · rw [State.source_setSource_ne s hk]
  unfold State.report
  dsimp only
  split
  · exact follows_of_same rfl rfl
  · split
    · split
      · exact (hset.trans (qualify_rises _ n c)).toFollows
      · exact hset.toFollows
    · split
      · exact hset.toFollows.trans (setSource_follows _ n _ c) (.inl hdemand)
      · exact hset.toFollows

theorem timerStep_follows (s : State) (n : Fin 59) (c : Fin 4) : Follows c s (s.timerStep n) := by
  unfold State.timerStep
  dsimp only
  split
  · exact follows_of_same rfl rfl
  · split
    · exact (qualify_rises s n c).toFollows
    · split
      · exact setSource_follows s n _ c
      · exact setSource_follows s n _ c

/-! ### Signals at a source that make it change its call at most once -/

/-- Of the signals at a source, all are latched events, or they are part of a report and then a timer step. -/
def Mild (n : Fin 59) (l : List Signal) : Prop := (∀ x ∈ l, x = .latch n) ∨ ∃ v, l <:+: [.report n v, .timer n]

theorem Mild.left {l m : List Signal} (h : Mild n (l ++ m)) : Mild n l :=
  h.imp (fun h x hx => h x (List.mem_append_left _ hx)) (fun ⟨v, h⟩ => ⟨v, (List.prefix_append l m).isInfix.trans h⟩)

theorem Mild.right {l m : List Signal} (h : Mild n (l ++ m)) : Mild n m :=
  h.imp (fun h x hx => h x (List.mem_append_right _ hx)) (fun ⟨v, h⟩ => ⟨v, (List.suffix_append l m).isInfix.trans h⟩)

theorem latches_call (hsc : Stamp) {l : List Signal} (h : ∀ x ∈ l, x = .latch n) (r : Source) (lim : Option Nat) (hr : r.callsAt lim = true) :
    (l.foldl (Signal.atSource hsc n) r).callsAt lim = true := by
  induction l generalizing r with
  | nil => exact hr
  | cons x l ih =>
    have hx : x = .latch n := h x (List.mem_cons_self ..)
    subst hx
    rw [List.foldl_cons, show Signal.atSource hsc n r (.latch n) = (r.raised hsc).latched from if_pos rfl]
    exact ih (fun y hy => h y (List.mem_cons_of_mem _ hy)) _ (latched_calls hsc r lim hr)

/-- A report that changes a source's call leaves its condition and its qualification equal, so that no timer step changes it again. -/
theorem reported_settles (hsc : Stamp) (v : Bool) (r : Source) (lim : Option Nat) :
    (r.reported hsc v).callsAt lim = r.callsAt lim ∨ (r.reported hsc v).stepped hsc = r.reported hsc v := by
  unfold Source.reported
  split
  · exact .inl rfl
  · split
    · next h => exact .inr (if_pos h.1)
    · split
      · next h => exact .inr (if_pos h.1)
      · exact .inl (callsAt_congr rfl rfl rfl rfl lim)

/-- Two runs of mild signals: behind the first the call is as before them or as behind both. -/
theorem Mild.once {l m : List Signal} (h : Mild n (l ++ m)) (hsc : Stamp) (r : Source) (lim : Option Nat) :
    (l.foldl (Signal.atSource hsc n) r).callsAt lim = r.callsAt lim
    ∨ ((l ++ m).foldl (Signal.atSource hsc n) r).callsAt lim = (l.foldl (Signal.atSource hsc n) r).callsAt lim := by
  rw [List.foldl_append]
  rcases h with h | ⟨v, h⟩
  · have hl := latches_call hsc (fun x hx => h x (List.mem_append_left m hx)) r lim
    have hm := latches_call hsc (fun x hx => h x (List.mem_append_right l hx)) (l.foldl (Signal.atSource hsc n) r) lim
    cases hr : r.callsAt lim with
    | true => exact .inl (hl hr)
    | false =>
      cases hmid : (l.foldl (Signal.atSource hsc n) r).callsAt lim with
      | true => exact .inr (hm hmid)
      | false => exact .inl rfl
  · cases l with
    | nil => exact .inl rfl
    | cons a l =>
      cases m with
      | nil => exact .inr rfl
      | cons b m =>
        obtain ⟨p, q, hpq⟩ := h
        have hlen := congrArg List.length hpq
        simp only [List.length_append, List.length_cons, List.length_nil] at hlen
        have hp : p = [] := List.eq_nil_of_length_eq_zero (by omega)
        have hl : l = [] := List.eq_nil_of_length_eq_zero (by omega)
        have hm : m = [] := List.eq_nil_of_length_eq_zero (by omega)
        have hq : q = [] := List.eq_nil_of_length_eq_zero (by omega)
        subst hp hl hm hq
        obtain ⟨rfl, rfl⟩ : a = .report n v ∧ b = .timer n := by simpa using hpq
        simp only [List.foldl_cons, List.foldl_nil, atSource_report, atSource_timer]
        rcases reported_settles hsc v r lim with h | h
        · exact .inl h
        · exact .inr (by rw [h])

/-! ### A contact along a list of signals -/

/-- COUNTER takes latched events alone. -/
theorem Runs.counter_latched {l : List Signal} (h : Runs l s t) : ∃ k, t.source counterSource = (s.source counterSource).latchedTimes s.ref.hsc k := by
  induction h with
  | frame h hp => exact ⟨0, (State.source_congr (h .sources (hp _ (by decide))) _).symm⟩
  | clock h _ => exact ⟨0, (State.source_congr (h .sources (by decide)) _).symm⟩
  | count s he o k => exact ⟨_, (count_sends s he o k).raised.latched⟩
  | latch s hl hn => exact ⟨_, (latch_sends s hn).raised.latched⟩
  | report s hl v => exact ⟨_, (report_raised s (level_ne_counterSource hl) v).latched⟩
  | timer s hl => exact ⟨_, (timerStep_raised s (level_ne_counterSource hl)).latched⟩
  | trans h k ih ik =>
    obtain ⟨a, ha⟩ := ih
    obtain ⟨b, hb⟩ := ik
    exact ⟨a + b, by rw [hb, ha, h.hsc, Source.latchedTimes_add]⟩

theorem latchedTimes_call (hsc : Stamp) (k : Nat) (r : Source) (lim : Option Nat) (h : r.callsAt lim = true) : (r.latchedTimes hsc k).callsAt lim = true := by
  induction k with
  | zero => exact h
  | succ k ih => exact latched_calls hsc _ lim ih

theorem Runs.counter_calls {l : List Signal} (h : Runs l s t) (lim : Option Nat) (hs : (s.source counterSource).callsAt lim = true) :
    (t.source counterSource).callsAt lim = true := by
  obtain ⟨k, hk⟩ := h.counter_latched
  rw [hk]
  exact latchedTimes_call _ k _ lim hs

/-- The signals at a latched source are latched events. -/
theorem Runs.latches {l : List Signal} (h : Runs l s t) (hn : sourceIsLevel n = false) : ∀ x ∈ sigAt n l, x = .latch n := by
  have hreach {x y : Signal} (hx : x ∈ sigAt n [y]) : x = y ∧ y.reaches n = true := by
    have := List.mem_filter.mp hx
    exact ⟨List.mem_singleton.mp this.1, by rw [← List.mem_singleton.mp this.1]; exact this.2⟩
  induction h with
  | frame _ _ => exact fun x hx => absurd hx List.not_mem_nil
  | clock _ _ => exact fun x hx => absurd hx List.not_mem_nil
  | count s he o k => exact fun x hx => absurd (hreach hx).2 Bool.false_ne_true
  | latch s hl hm =>
    intro x hx
    obtain ⟨rfl, hr⟩ := hreach hx
    rw [eq_of_beq (show (n == _) = true from hr)]
  | report s hl v =>
    intro x hx
    have hr : n = _ := eq_of_beq (show (n == _) = true from (hreach hx).2)
    rw [hr, hl] at hn; cases hn
  | timer s hl =>
    intro x hx
    have hr : n = _ := eq_of_beq (show (n == _) = true from (hreach hx).2)
    rw [hr, hl] at hn; cases hn
  | trans _ _ ih ik =>
    intro x hx
    rw [sigAt_append, List.mem_append] at hx
    exact hx.elim (ih x) (ik x)

theorem Runs.ceiling {l : List Signal} (h : Runs l s t) (c : Fin 4) : (t.contact c).ceiling = (s.contact c).ceiling := by
  induction h with
  | frame h hp => rw [contact_of_sameBut h (hp _ (by decide)) c]
  | clock h _ => rw [contact_of_sameBut h (by decide) c]
  | count s he o k => exact (count_rises s _ o k c).ceiling
  | latch s hl hn => exact (latch_rises s _ c).ceiling
  | report s hl v => exact (report_follows s _ v c).ceiling
  | timer s hl => exact (timerStep_follows s _ c).ceiling
  | trans _ _ ih ik => exact ik.trans ih

/-- No demand at one of the two ends, or one source that calls at both. -/
def Clear (c : Fin 4) (s t : State) : Prop :=
  s.demandOf c = false ∨ t.demandOf c = false
    ∨ ∃ n, (s.source n).callsAt (s.contact c).ceiling = true ∧ (t.source n).callsAt (s.contact c).ceiling = true

/-- A contact along signals that are mild at each source. -/
theorem Runs.follows {l : List Signal} (h : Runs l s t) (hmild : ∀ n, n ≠ counterSource → Mild n (sigAt n l)) (hclear : Clear c s t) :
    Follows c s t := by
  induction h with
  | frame h hp => exact follows_of_same (contact_of_sameBut h (hp _ (by decide)) c) (h .sources (hp _ (by decide))).symm
  | clock h _ => exact follows_of_same (contact_of_sameBut h (by decide) c) (h .sources (by decide)).symm
  | count s he o k => exact (count_rises s _ o k c).toFollows
  | latch s hl hn => exact (latch_rises s _ c).toFollows
  | report s hl v => exact report_follows s _ v c
  | timer s hl => exact timerStep_follows s _ c
  | @trans s t u l m h k ih ik =>
    have hl (n : Fin 59) (hn : n ≠ counterSource) : Mild n (sigAt n l) := by
      have := hmild n hn; rw [sigAt_append] at this; exact this.left
    have hm (n : Fin 59) (hn : n ≠ counterSource) : Mild n (sigAt n m) := by
      have := hmild n hn; rw [sigAt_append] at this; exact this.right
    obtain ⟨lim, hlim⟩ : ∃ lim, lim = (s.contact c).ceiling := ⟨_, rfl⟩
    have hlt : (t.contact c).ceiling = lim := (h.ceiling c).trans hlim.symm
    have hlu : (u.contact c).ceiling = lim := (k.ceiling c).trans hlt
    have honce (n : Fin 59) : (t.source n).callsAt lim = (s.source n).callsAt lim ∨ (u.source n).callsAt lim = (t.source n).callsAt lim := by
      by_cases hn : n = counterSource
      · subst hn
        cases hs : (s.source counterSource).callsAt lim with
        | true => exact .inl (h.counter_calls lim hs)
        | false =>
          cases ht : (t.source counterSource).callsAt lim with
          | true => exact .inr (k.counter_calls lim ht)
          | false => exact .inl rfl
      · have hmn := hmild n hn
        rw [sigAt_append] at hmn
        have ht := h.source hn
        have hu := (h.trans k).source hn
        rw [foldl_atSource_filter] at ht hu
        rw [ht, hu, ← sigAt, ← sigAt, sigAt_append]
        exact hmn.once s.ref.hsc (s.source n) lim
    have hds : s.demandOf c = true ↔ ∃ n, (s.source n).callsAt lim = true := by rw [State.demandOf, ← hlim]; exact demand_iff s lim
    have hdt : t.demandOf c = true ↔ ∃ n, (t.source n).callsAt lim = true := by rw [State.demandOf, hlt]; exact demand_iff t lim
    have hdu : u.demandOf c = true ↔ ∃ n, (u.source n).callsAt lim = true := by rw [State.demandOf, hlu]; exact demand_iff u lim
    unfold Clear at hclear ih ik
    rw [← hlim] at hclear ih
    rw [hlt] at ik
    rcases hclear with hs | hu | ⟨n, hs, hu⟩
    · cases hdtc : t.demandOf c with
      | false => exact (ih hl (.inl hs)).trans (ik hm (.inl hdtc)) (.inl (by rw [hs, hdtc]))
      | true =>
        obtain ⟨n, hn⟩ := hdt.mp hdtc
        have hsn : (s.source n).callsAt lim = false := Bool.eq_false_iff.mpr fun h => absurd (hds.mpr ⟨n, h⟩) (by rw [hs]; exact Bool.false_ne_true)
        have hun : (u.source n).callsAt lim = true := by
          rcases honce n with h | h
          · rw [hn, hsn] at h; cases h
          · rw [h, hn]
        exact (ih hl (.inl hs)).trans (ik hm (.inr (.inr ⟨n, hn, hun⟩))) (.inr (by rw [hdtc, hdu.mpr ⟨n, hun⟩]))
    · cases hdtc : t.demandOf c with
      | false => exact (ih hl (.inr (.inl hdtc))).trans (ik hm (.inr (.inl hu))) (.inr (by rw [hu, hdtc]))
      | true =>
        obtain ⟨n, hn⟩ := hdt.mp hdtc
        have hun : (u.source n).callsAt lim = false := Bool.eq_false_iff.mpr fun h => absurd (hdu.mpr ⟨n, h⟩) (by rw [hu]; exact Bool.false_ne_true)
        have hsn : (s.source n).callsAt lim = true := by
          rcases honce n with h | h
          · rw [← h, hn]
          · rw [hn, hun] at h; cases h
        exact (ih hl (.inr (.inr ⟨n, hsn, hn⟩))).trans (ik hm (.inr (.inl hu))) (.inl (by rw [hdtc, hds.mpr ⟨n, hsn⟩]))
    · have htn : (t.source n).callsAt lim = true := by
        rcases honce n with h | h
        · rw [h, hs]
        · rw [← h, hu]
      exact (ih hl (.inr (.inr ⟨n, hs, htn⟩))).trans (ik hm (.inr (.inr ⟨n, htn, hu⟩))) (.inl (by rw [hdt.mpr ⟨n, htn⟩, hds.mpr ⟨n, hs⟩]))

end Sys2Proof.Machine
end

