-- ==== Sys2Proof/Proofs/ContactLaw.lean ====
section
/-! PROOFS. CONTACT.SET, CONTACT_RELEASE and the contacts at a block end (R170, R171). -/

namespace Sys2Proof.Machine

variable {s t u : State} {c : Fin 4} {n : Fin 59}

/-! ### A contact's step and its judgement behind it -/

theorem step_of_asserted {x : Contact} (ha : x.asserted = true) (d : Bool) : x.step d
    = if d = false ∧ x.minOn ≤ min 100 (x.onTime + 1) then { x with asserted := false, onTime := 0 }
      else { x with onTime := min 100 (x.onTime + 1) } := by
  unfold Contact.step
  rw [if_pos ha, satInc_eq]
  cases d <;> simp

theorem step_of_released {x : Contact} (ha : x.asserted = false) (d : Bool) : x.step d = x := by
  unfold Contact.step
  rw [if_neg (by rw [ha]; exact Bool.false_ne_true)]

theorem judge_true (x : Contact) : x.judge true = if x.asserted = true then x else { x with asserted := true, onTime := 0 } := by
  unfold Contact.judge
  cases ha : x.asserted <;> simp

theorem judge_false (x : Contact) : x.judge false
    = if x.asserted = true ∧ x.minOn ≤ x.onTime then { x with asserted := false, onTime := 0 } else x := by
  unfold Contact.judge
  cases ha : x.asserted <;> simp

/-- A contact behind its step stands as the demand it was stepped under asks. -/
theorem step_stands {x : Contact} {d : Bool} (h : x.asserted = true ∨ d = false) : (x.step d).judge d = x.step d := by
  cases ha : x.asserted with
  | false =>
    have hd : d = false := h.resolve_left (by rw [ha]; exact Bool.false_ne_true)
    rw [step_of_released ha, hd, judge_false, if_neg (by rw [ha]; simp)]
  | true =>
    rw [step_of_asserted ha]
    cases d with
    | true =>
      have hstep : ¬ (true = false ∧ x.minOn ≤ min 100 (x.onTime + 1)) := by simp
      rw [if_neg hstep, judge_true]
      exact if_pos ha
    | false =>
      by_cases hm : x.minOn ≤ min 100 (x.onTime + 1)
      · rw [if_pos ⟨rfl, hm⟩, judge_false]
        exact if_neg (by simp)
      · rw [if_neg (fun h => hm h.2), judge_false]
        exact if_neg (fun h => hm h.2)

theorem step_judge_false {x : Contact} (ha : x.asserted = true) (d : Bool) : (x.step d).judge false
    = if x.minOn ≤ min 100 (x.onTime + 1) then { x with asserted := false, onTime := 0 } else { x with onTime := min 100 (x.onTime + 1) } := by
  cases d with
  | false =>
    rw [step_stands (.inr rfl), step_of_asserted ha]
    exact if_congr (and_iff_right rfl) rfl rfl
  | true =>
    have hstep : ¬ (true = false ∧ x.minOn ≤ min 100 (x.onTime + 1)) := by simp
    rw [step_of_asserted ha, if_neg hstep, judge_false]
    exact if_congr (and_iff_right ha) rfl rfl

theorem step_judge_true {x : Contact} (ha : x.asserted = true) : (x.step false).judge true
    = { x with onTime := if x.minOn ≤ min 100 (x.onTime + 1) then 0 else min 100 (x.onTime + 1) } := by
  rw [step_of_asserted ha]
  by_cases hm : x.minOn ≤ min 100 (x.onTime + 1)
  · rw [if_pos ⟨rfl, hm⟩, if_pos hm, judge_true, if_neg Bool.false_ne_true, ← ha]
  · rw [if_neg (fun h => hm h.2), if_neg hm, judge_true]
    exact if_pos ha

/-! ### A contact at a block end -/

theorem endSignals_mild (s : State) (n : Fin 59) : Mild n (sigAt n (s.endSignals ++ (List.finRange 59).flatMap s.timerSignals)) := by
  cases hl : sourceIsLevel n with
  | false => exact .inl ((takeBlockEnd_runs s).latches hl)
  | true =>
    rw [sigAt_append, timerSignals_at]
    refine .inr ?_
    unfold State.timerSignals
    rw [if_pos hl]
    rcases endSignals_at_level hl s with h | ⟨v, h⟩
    · rw [h]
      exact ⟨true, by split; exact List.nil_infix; exact (List.suffix_cons ..).isInfix⟩
    · rw [h]
      refine ⟨v, ?_⟩
      split
      · exact (List.prefix_append [Signal.report n v] [Signal.timer n]).isInfix
      · exact List.infix_refl _

theorem contactShare_other {c k : Fin 4} (h : k ≠ c) (s : State) : (s.unlessAhead (.contact c) (fun u => u.contactStep c)).contact k = s.contact k := by
  unfold State.unlessAhead
  split
  · rfl
  · exact State.contact_setContact_ne s h _

/-- The contacts take their step first, unless they have taken it ahead. -/
theorem endContacts_contact (h : s.ahead.contains (.contact c) = false) :
    s.endContacts.contact c = (s.contact c).step (s.demandOf c) := by
  have hall := forEach_part (part := State.contact) (op := fun c t => t.unlessAhead (.contact c) (fun u => u.contactStep c))
    (F := fun t c x => if t.ahead.contains (.contact c) then x else x.step (demand t.sources x.ceiling))
    (fun c t => by
      unfold State.unlessAhead
      split
      · rfl
      · exact State.contact_setContact t c _)
    (fun c k t hk => contactShare_other hk t)
    (fun c k t x => by
      have hahead : t.ahead = (t.unlessAhead (.contact c) (fun u => u.contactStep c)).ahead :=
        unlessAhead_sameBut (contactStep_sameBut t c) .ahead (by decide)
      have hsources : t.sources = (t.unlessAhead (.contact c) (fun u => u.contactStep c)).sources :=
        unlessAhead_sameBut (contactStep_sameBut t c) .sources (by decide)
      rw [← hahead, ← hsources]) s.endClocked c
  refine hall.trans ?_
  have hahead : s.endClocked.ahead.contains (.contact c) = false := h
  rw [hahead]
  rfl

/-- A contact at a block end: its step, and then the demand it ends with, when no demand passes from source to source. -/
theorem takeBlockEnd_contact (ha : s.ahead.contains (.contact c) = false) (hs : (s.contact c).asserted = true ∨ s.demandOf c = false)
    (hclear : s.demandOf c = false ∨ (¬ ∃ n, (s.takeBlockEnd.source n).callsAt (s.contact c).ceiling = true)
      ∨ ∃ n, (s.source n).callsAt (s.contact c).ceiling = true ∧ (s.takeBlockEnd.source n).callsAt (s.contact c).ceiling = true) :
    ∀ d : Bool, (d = true ↔ ∃ n, (s.takeBlockEnd.source n).callsAt (s.contact c).ceiling = true) →
      s.takeBlockEnd.contact c = ((s.contact c).step (s.demandOf c)).judge d := by
  intro d hd
  have hruns := takeBlockEnd_runs s
  have hstart := endContacts_contact ha
  have hceil : (s.endContacts.contact c).ceiling = (s.contact c).ceiling := by rw [hstart, Contact.step_ceiling]
  have hsources : s.endContacts.sources = s.sources := (endContacts_sameBut s .sources (by decide)).symm
  have hdemand : s.endContacts.demandOf c = s.demandOf c := by unfold State.demandOf; rw [hceil, hsources]
  have hend : s.takeBlockEnd.demandOf c = d := by
    rw [Bool.eq_iff_iff, hd, State.demandOf, hruns.ceiling, hceil]; exact demand_iff _ _
  have hfollows := hruns.follows (c := c) (fun n _ => endSignals_mild s n) (by
    unfold Clear
    rw [hdemand, hend, hceil]
    refine hclear.imp id (Or.imp (fun h => Bool.eq_false_iff.mpr fun h' => h (hd.mp h')) (fun ⟨n, h1, h2⟩ => ⟨n, ?_, h2⟩))
    rw [State.source_congr hsources]; exact h1)
  have h := hfollows.judged (by rw [hdemand, hstart]; exact step_stands hs)
  rw [h, hstart, hend]

/-! ### CONTACT.SET -/

theorem takeContactSet_of_length_ne {body : List Byte} (h : body.length ≠ 4) : takeContactSet body s = refuse s .malformed := by
  unfold takeContactSet
  split
  · exact absurd rfl h
  · rfl

theorem readCeiling_of_bad {b : Byte} (h : 8 ≤ b.toNat) (hn : b ≠ 0xFF) : readCeiling b = none := by
  unfold readCeiling
  rw [if_neg hn, if_neg (by omega)]

theorem readCeiling_of_good {b : Byte} (h : b.toNat ≤ 7 ∨ b = 0xFF) : ∃ x, readCeiling b = some x := by
  unfold readCeiling
  by_cases hn : b = 0xFF
  · exact ⟨_, if_pos hn⟩
  · exact ⟨_, by rw [if_neg hn, if_pos (h.resolve_right hn)]⟩

/-- A contact judged at CONTACT.SET (R171). -/
theorem contactSet_eq (x : Contact) (ceil : Option (Fin 8)) (m : Nat) (d : Bool) (hd : ceil = none → d = false) :
    x.set d (ceil.map Fin.val) m = (match ceil with
      | none => { ceiling := none, minOn := m, asserted := false, onTime := 0 }
      | some k => { ceiling := some k.val, minOn := m, asserted := d || (x.asserted && decide (x.onTime < m))
                    onTime := if x.asserted = true ∧ (d = true ∨ x.onTime < m) then x.onTime
                      else if x.asserted = true ∨ d = true then 0 else x.onTime }) := by
  cases ceil with
  | none => rfl
  | some k =>
    change Contact.judge d { x with ceiling := some k.val, minOn := m } = _
    cases d with
    | true =>
      rw [judge_true]
      cases ha : x.asserted <;> simp
    | false =>
      rw [judge_false]
      cases ha : x.asserted with
      | false => simp
      | true =>
        by_cases hm : m ≤ x.onTime
        · simp [hm, Nat.not_lt.mpr hm]
        · simp [hm, Nat.lt_of_not_le hm]

theorem takeContactSet_of_fields {m : Nat} (hm : m < 65536) (ceil : Option (Fin 8)) (s : State) (c : Fin 4) :
    takeContactSet (byte1 c ++ ceilingCode (ceil.map Fin.val) :: byte2 m) s
      = ⟨s.setContact c ((s.contact c).set (demand s.sources (ceil.map Fin.val)) (ceil.map Fin.val) (min m 100)),
        okOrAdjusted (min m 100 != m), contactRecord c ((s.contact c).set (demand s.sources (ceil.map Fin.val)) (ceil.map Fin.val) (min m 100))⟩ := by
  simp only [takeContactSet, byte1, byte2, List.cons_append, List.nil_append, readCeiling_code, readId_ofNat (show 4 ≤ 256 by decide), nat2_byte2 hm]

theorem exec_contactRelease (hdue : s.blockEndDue = true) (ha : s.ahead.contains (.contact c) = false) :
    exec (.contactRelease c) s = .next (if (s.contact c).releasesNext (demand s.sources (s.contact c).ceiling)
      then (s.contactStep c).markAhead (.contact c) else s) := by
  change execContactRelease c s = _
  unfold execContactRelease
  rw [hdue, ha]
  rfl

/-- Settles O54: at a block end the contact takes its step first and then follows the demand, which changes at most once when it does not
pass from source to source. -/
theorem contactsAssertAndRelease : Obligations.ContactsAssertAndRelease := by
  unfold Obligations.ContactsAssertAndRelease
  refine ⟨fun s tag hs => ⟨fun body h => ?_, fun c ceil m1 m0 => ⟨fun h hn => ?_, fun h hc => ?_⟩⟩, fun s c => ⟨fun tag ceil m hs hm d hd y hy => ?_,
    fun hdue ha hset hd => ⟨fun hk => ?_, fun ht hk => ?_⟩, fun t calls before after k hdue h ha hk hcalls hbefore hafter => ?_⟩⟩
  · exact refused_of_answer (r := ⟨tag, 0x66, body⟩) rfl (.inl hs) (takeContactSet_of_length_ne h)
  · refine refused_of_answer (r := ⟨tag, 0x66, [c, ceil, m1, m0]⟩) rfl (.inl hs) ?_
    change takeContactSet [c, ceil, m1, m0] _ = _
    simp only [takeContactSet, readCeiling_of_bad h hn]
  · refine refused_of_answer (r := ⟨tag, 0x66, [c, ceil, m1, m0]⟩) rfl (.inl hs) ?_
    obtain ⟨x, hx⟩ := readCeiling_of_good h
    change takeContactSet [c, ceil, m1, m0] _ = _
    simp only [takeContactSet, hx, readId_of_le hc]
  · have hyset : y = (s.contact c).set (demand s.sources (ceil.map Fin.val)) (ceil.map Fin.val) (min m 100) := by
      rw [hy, contactSet_eq _ _ _ _ (fun h => by rw [h]; rfl), hd]
      cases ceil <;> rfl
    have hstatus : (if m ≤ 100 then Status.ok else .adjusted) = okOrAdjusted (min m 100 != m) := by
      rw [okOrAdjusted_bne]
      exact if_congr (by omega) rfl rfl
    rw [hstatus]
    obtain ⟨q, hq⟩ : ∃ q : Request, q = ⟨tag, 0x66, byte1 c ++ ceilingCode (ceil.map Fin.val) :: byte2 m⟩ := ⟨_, rfl⟩
    refine completes_of_answer (r := q) (a := ⟨(s.taking q).setContact c y, _, _⟩) (by rw [hq]; rfl) (.inl hs) ?_ ?_
    · rw [hyset, hq]; exact takeContactSet_of_fields hm ceil (s.taking _) c
    · exact ⟨State.contact_setContact (s.taking q) c y, fun k hk => State.contact_setContact_ne (s.taking q) hk y,
        sameBut_of_take (by decide) (sameBut_mono (setContact_sameBut (s.taking q) c y) (by decide))⟩
  · have hrel : (s.contact c).releasesNext (demand s.sources (s.contact c).ceiling) = true := by
      rw [Contact.releasesNext, hset, hd, satInc_eq, decide_eq_true hk]; rfl
    refine ⟨_, (exec_contactRelease hdue ha).trans (congrArg _ (if_pos hrel)), ?_, fun k hk => State.contact_setContact_ne s hk _,
      sameBut_trans (sameBut_mono (contactStep_sameBut s c) (by decide)) (sameBut_mono (withAhead_sameBut _ _) (by decide))⟩
    refine (State.contact_setContact s c _).trans ?_
    rw [hd, step_of_asserted hset, if_pos ⟨rfl, hk⟩]
  · have hrel : (s.contact c).releasesNext (demand s.sources (s.contact c).ceiling) = false := by
      rw [Contact.releasesNext, satInc_eq, decide_eq_false (Nat.not_le.mpr hk), Bool.and_false]
    rw [exec_contactRelease hdue ha, hrel]
    rfl
  · rw [exec_blockEnd hdue, Host.Outcome.next.injEq] at h
    subst hk
    have hcall (u : State) (n : Fin 59) : calls u n ↔ (u.source n).callsAt (s.contact c).ceiling = true := (hcalls u n).trans (callsAt_iff _ _).symm
    have hdemand : s.demandOf c = true ↔ before := by
      rw [hbefore, State.demandOf, demand_iff]
      exact exists_congr fun n => (hcall s n).symm
    have hend : after ↔ ∃ n, (s.takeBlockEnd.source n).callsAt (s.contact c).ceiling = true := by
      rw [hafter, h]
      exact exists_congr fun n => hcall t n
    have hidle (hb : ¬ before) : s.demandOf c = false := Bool.eq_false_iff.mpr fun h => hb (hdemand.mp h)
    have hquiet (hno : ¬ after) : false = true ↔ ∃ n, (s.takeBlockEnd.source n).callsAt (s.contact c).ceiling = true :=
      iff_of_false Bool.false_ne_true (fun h => hno (hend.mpr h))
    rw [← h] at hafter ⊢
    refine ⟨fun hset => ⟨fun hno => ?_, fun ⟨n, hn, hm⟩ => ?_, fun hb hyes => ?_⟩, fun hset hb => ⟨fun hno => ?_, fun hyes => ?_⟩⟩
    · rw [takeBlockEnd_contact ha (.inl hset) (.inr (.inl (fun h => hno (hend.mpr h)))) false (hquiet hno)]
      exact step_judge_false hset _
    · have hs : s.demandOf c = true := hdemand.mpr (hbefore.mpr ⟨n, hn⟩)
      rw [takeBlockEnd_contact ha (.inl hset) (.inr (.inr ⟨n, (hcall _ _).mp hn, (hcall _ _).mp hm⟩)) true (iff_of_true rfl ⟨n, (hcall _ _).mp hm⟩),
        hs, step_stands (.inl hset), step_of_asserted hset]
      exact if_neg (by simp)
    · rw [takeBlockEnd_contact ha (.inl hset) (.inl (hidle hb)) true (iff_of_true rfl (hend.mp hyes)), hidle hb]
      exact step_judge_true hset
    · rw [takeBlockEnd_contact ha (.inr (hidle hb)) (.inl (hidle hb)) false (hquiet hno), step_of_released hset, judge_false,
        if_neg (by rw [hset]; simp)]
    · rw [takeBlockEnd_contact ha (.inr (hidle hb)) (.inl (hidle hb)) true (iff_of_true rfl (hend.mp hyes)), step_of_released hset, judge_true,
        if_neg (by rw [hset]; simp)]

end Sys2Proof.Machine
end

