-- ==== Sys2Proof/Proofs/SampleShares.lean ====
section
/-! PROOFS. What each unit sends at its share of a house sample, and what the share leaves of its part (R63, R135, R137, R99). -/

namespace Sys2Proof.Machine

variable {s t u : State} {p : Fin 8}

/-! ### The move step (R63, R70, R71) -/

/-- What a move's end sends, and then what follows it. -/
def Programme.endedSignals (x : Programme) (p : Fin 8) (r : MoveRecord) (o : MoveOutcome) (time : Stamp) : List Signal :=
  (x.endSent p o).signals p ++ ((x.withMove (x.move.written (reportOf r o x.move.dcur time))).followedSent p).signals p

/-- What the move step of a house sample sends. -/
def Programme.steppedSignals (x : Programme) (p : Fin 8) (time : Stamp) : List Signal :=
  match x.move.state with
  | .moving r ph k =>
    match (stepRecord r ph k x.move.pos).ends with
    | none => []
    | some o => (x.withMove { x.move with pos := (stepRecord r ph k x.move.pos).pos, state := (stepRecord r ph k x.move.pos).state }).endedSignals p r o time
  | .still => []
  | .cueWait _ _ => []
  | .readWait _ _ => []
  | .halted _ => []

theorem moveEvents_runs (s : State) (p : Fin 8) (o : MoveOutcome) :
    Runs ([.count .moveDone (some p) 1] ++ List.replicate (if o = .reached then 0 else 1) (.latch (moveSource p))) s (s.moveEvents p o) := by
  have hdone : Runs [.count .moveDone (some p) 1] s (s.count .moveDone (some p) 1) := .count s (by decide) _ _
  unfold State.moveEvents
  by_cases h : o = .reached
  · rw [if_pos h, if_pos h]; exact hdone
  · rw [if_neg h, if_neg h]; exact hdone.trans (.latch _ (moveSource_not_level p) (moveSource_ne_counterSource p))

theorem endEvents_runs (s : State) (p : Fin 8) (y : Report) (o : MoveOutcome) :
    Runs (((s.prog p).endSent p o).signals p) s ((s.writeReport p y).moveEvents p o) := by
  unfold MoveSent.signals Programme.endSent
  rw [List.map_append, List.append_assoc]
  exact (writeReport_runs s p y).trans (moveEvents_runs _ p o)

theorem enterRecord_runs (s : State) (p : Fin 8) (r : MoveRecord) : Runs (((s.prog p).enteredSent p r).signals p) s (s.enterRecord p r) := by
  have hset (u : MoveUnit) : Runs [] s (s.setMove p u) := runs_of_sameBut (setMove_sameBut s p _)
  unfold State.enterRecord Programme.enteredSent
  dsimp only
  split
  · exact hset _
  · split
    · cases (s.prog p).group with
      | none => exact endMissed_runs s p r
      | some g => exact (hset _).before (armGroup_sameBut _ _)
    · exact hset _

theorem afterEnd_runs (s : State) (p : Fin 8) (r : MoveRecord) (o : MoveOutcome) : Runs (((s.prog p).followedSent p).signals p) s (s.afterEnd p r o) := by
  unfold State.afterEnd Programme.followedSent
  cases (s.prog p).move.staged with
  | committed c =>
    have h := enterRecord_runs (s.setStaged p .empty) p c
    rw [prog_setStaged] at h
    exact h.behind (setMove_sameBut s p _)
  | empty => exact runs_of_sameBut (setMove_sameBut s p _)
  | draft d => exact runs_of_sameBut (setMove_sameBut s p _)

theorem endMove_runs (s : State) (p : Fin 8) (r : MoveRecord) (o : MoveOutcome) :
    Runs ((s.prog p).endedSignals p r o s.ref.hsc) s (s.endMove p r o) := by
  have hafter := afterEnd_runs ((s.writeReport p (reportOf r o (s.prog p).move.dcur s.ref.hsc)).moveEvents p o) p r o
  rw [prog_moveEvents, prog_writeReport] at hafter
  exact (endEvents_runs s p _ o).trans hafter

theorem moveStep_runs (s : State) (p : Fin 8) : Runs ((s.prog p).steppedSignals p s.ref.hsc) s (s.moveStep p) := by
  unfold State.moveStep Programme.steppedSignals
  dsimp only
  cases (s.prog p).move.state with
  | moving r ph k =>
    dsimp only
    cases (stepRecord r ph k (s.prog p).move.pos).ends with
    | none => exact runs_of_sameBut (setMove_sameBut s p _)
    | some o =>
      have h := endMove_runs (s.setMove p { (s.prog p).move with
        pos := (stepRecord r ph k (s.prog p).move.pos).pos, state := (stepRecord r ph k (s.prog p).move.pos).state }) p r o
      rw [prog_setMove] at h
      exact h.behind (setMove_sameBut s p _)
  | still => exact runs_refl s
  | cueWait _ _ => exact runs_refl s
  | readWait _ _ => exact runs_refl s
  | halted _ => exact runs_refl s

/-- A move unit's signals reach its own MOVE source alone, and count MOVE_DONE and REPORT_LOST alone. -/
theorem endSent_counts (x : Programme) (p : Fin 8) (o : MoveOutcome) : CountsWithin moveCounts ((x.endSent p o).signals p) := by
  unfold CountsWithin
  rw [moveSignals_sent]
  exact endSent_events x p o

theorem enteredSent_counts (x : Programme) (p : Fin 8) (r : MoveRecord) : CountsWithin moveCounts ((x.enteredSent p r).signals p) := by
  unfold Programme.enteredSent
  split
  · exact fun _ h => absurd h (List.not_mem_nil)
  · split
    · cases x.group with
      | none => exact endSent_counts x p _
      | some g => exact fun _ h => absurd h (List.not_mem_nil)
    · exact fun _ h => absurd h (List.not_mem_nil)

theorem followedSent_counts (x : Programme) (p : Fin 8) : CountsWithin moveCounts ((x.followedSent p).signals p) := by
  unfold Programme.followedSent
  cases x.move.staged with
  | committed c => exact enteredSent_counts _ p c
  | empty => exact fun _ h => absurd h (List.not_mem_nil)
  | draft _ => exact fun _ h => absurd h (List.not_mem_nil)

theorem steppedSignals_counts (x : Programme) (p : Fin 8) (time : Stamp) : CountsWithin moveCounts (x.steppedSignals p time) := by
  unfold Programme.steppedSignals
  cases x.move.state with
  | moving r ph k =>
    dsimp only
    cases (stepRecord r ph k x.move.pos).ends with
    | none => exact fun _ h => absurd h (List.not_mem_nil)
    | some o => exact (endSent_counts _ p o).append (followedSent_counts _ p)
  | still => exact fun _ h => absurd h (List.not_mem_nil)
  | cueWait _ _ => exact fun _ h => absurd h (List.not_mem_nil)
  | readWait _ _ => exact fun _ h => absurd h (List.not_mem_nil)
  | halted _ => exact fun _ h => absurd h (List.not_mem_nil)

theorem steppedSignals_elsewhere {n : Fin 59} (h : n ≠ moveSource p) (x : Programme) (time : Stamp) : sigAt n (x.steppedSignals p time) = [] := by
  unfold Programme.steppedSignals
  cases x.move.state with
  | moving r ph k =>
    dsimp only
    cases (stepRecord r ph k x.move.pos).ends with
    | none => rfl
    | some o =>
      dsimp only
      rw [Programme.endedSignals, sigAt_append, moveSignals_at, moveSignals_at, if_neg h, if_neg h]
      rfl
  | still => rfl
  | cueWait _ _ => rfl
  | readWait _ _ => rfl
  | halted _ => rfl

/-! ### The corrector's share (R135, R137) -/

/-- The corrector takes the entries due at this index and makes one ramp step. -/
def Programme.gained (x : Programme) (w : Nat) : Programme := { x with gain := (x.gain.takeDue ((w : Int) - x.move.dcur)).1.rampStep }

/-- How many schedule entries a corrector skips at this index. -/
def Programme.skips (x : Programme) (w : Nat) : Nat := (x.gain.takeDue ((w : Int) - x.move.dcur)).2

theorem foldl_count_sameBut (s : State) (e : CountEvent) (o : Option (Fin 8)) (k : Nat) :
    s.sameBut eventParts ((List.replicate k ()).foldl (fun u _ => u.count e o 1) s) := by
  induction k generalizing s with
  | zero => exact sameBut_refl s _
  | succ k ih => rw [List.replicate_succ]; exact sameBut_trans (count_sameBut s e o 1) (ih _)

theorem foldl_count_runs (s : State) {e : CountEvent} (he : e ≠ .alarmRaise) (o : Option (Fin 8)) (k : Nat) :
    Runs (List.replicate k (.count e o 1)) s ((List.replicate k ()).foldl (fun u _ => u.count e o 1) s) := by
  induction k generalizing s with
  | zero => exact runs_refl s
  | succ k ih => rw [List.replicate_succ, List.replicate_succ]; exact (Runs.count s he o 1).trans (ih _)

/-- The corrector's share, its counting events behind it. -/
theorem gainStep_eq (s : State) (p : Fin 8) (w : Nat) : s.gainStep p w
    = (List.replicate ((s.prog p).skips w) ()).foldl (fun u _ => u.count .gainSkipped (some p) 1)
        (s.setGain p (((s.prog p).gain.takeDue ((w : Int) - (s.prog p).move.dcur)).1.rampStep)) := by
  unfold State.gainStep Programme.skips
  dsimp only
  split
  · next h => rw [h]; rfl
  · rfl

theorem prog_gainStep (s : State) (p : Fin 8) (w : Nat) : (s.gainStep p w).prog p = (s.prog p).gained w := by
  rw [gainStep_eq, prog_of_sameBut (foldl_count_sameBut _ _ _ _) (by decide)]
  exact State.prog_setProg s p _

theorem gainStep_otherProgs (s : State) (p : Fin 8) (w : Nat) : s.otherProgs p (s.gainStep p w) := by
  rw [gainStep_eq]
  exact otherProgs_trans s (fun k hk => State.prog_setProg_ne s hk _) (otherProgs_of_sameBut (foldl_count_sameBut _ _ _ _) (by decide) p)

theorem gainStep_runs (s : State) (p : Fin 8) (w : Nat) : Runs (List.replicate ((s.prog p).skips w) (.count .gainSkipped (some p) 1)) s (s.gainStep p w) := by
  rw [gainStep_eq]
  exact (foldl_count_runs _ (by decide) (some p) _).behind (setProg_sameBut s p _)

/-! ### A programme's share (R43, R55, R63) -/

/-- A programme's share of a house sample, without what its lanes put out. -/
def State.programmeShare (ins : Vector LaneIn 32) (p : Fin 8) (s : State) : State :=
  match (s.prog p).life with
  | .closed => s
  | .clearing _ _ _ => s
  | .live h w => if s.ahead.contains (.clear p) then s else (s.liveSample ins p h w).1

theorem programmeSample_fst (ins : Vector LaneIn 32) (acc : State × Vector Slot 32) (p : Fin 8) :
    (programmeSample ins acc p).1 = acc.1.programmeShare ins p := by
  unfold programmeSample State.programmeShare
  cases (acc.1.prog p).life with
  | closed => rfl
  | clearing _ _ _ => rfl
  | live h w =>
    dsimp only
    by_cases ha : acc.1.ahead.contains (.clear p) = true
    · rw [if_pos ha, if_pos ha]
    · rw [if_neg ha, if_neg ha]

theorem programmeShare_of_not_live (ins : Vector LaneIn 32) (h : s.liveIndex? p = none) : s.programmeShare ins p = s := by
  unfold State.liveIndex? at h
  unfold State.programmeShare
  cases hl : (s.prog p).life with
  | closed => rfl
  | clearing _ _ _ => rfl
  | live k w =>
    simp only [hl] at h
    by_cases ha : s.ahead.contains (.clear p) = true
    · exact if_pos ha
    · rw [if_neg ha] at h; cases h

theorem programmeShare_of_live (ins : Vector LaneIn 32) {h : Held} {w : Nat} (hl : (s.prog p).life = .live h w)
    (ha : s.ahead.contains (.clear p) = false) : s.programmeShare ins p = (s.liveSample ins p h w).1 := by
  unfold State.programmeShare
  rw [hl]
  exact if_neg (by rw [ha]; decide)

theorem liveIndex_of_live {h : Held} {w : Nat} (hl : (s.prog p).life = .live h w) (ha : s.ahead.contains (.clear p) = false) :
    s.liveIndex? p = some w := by
  unfold State.liveIndex?
  rw [hl]
  exact if_neg (by rw [ha]; decide)

/-- A programme's share is that of a LIVE one which has not taken the sample ahead, or nothing. -/
theorem liveIndex_cases (s : State) (p : Fin 8) : s.liveIndex? p = none
    ∨ ∃ h w, (s.prog p).life = .live h w ∧ s.ahead.contains (.clear p) = false ∧ s.liveIndex? p = some w := by
  cases hl : (s.prog p).life with
  | closed => exact .inl (by rw [State.liveIndex?, hl])
  | clearing _ _ _ => exact .inl (by rw [State.liveIndex?, hl])
  | live h w =>
    cases ha : s.ahead.contains (.clear p) with
    | true => exact .inl (by rw [State.liveIndex?, hl]; exact if_pos ha)
    | false => exact .inr ⟨h, w, rfl, rfl, liveIndex_of_live hl ha⟩

/-- A programme behind the shares of its move unit and its corrector. -/
def State.sampledProg (s : State) (p : Fin 8) (w : Nat) (x : Programme) : Programme :=
  let y := if s.ahead.contains (.move p) then x else x.stepped s.ref.hsc
  if s.ahead.contains (.gain p) then y else y.gained w

/-- What a programme sends at its share of a house sample. -/
def State.shareSignals (s : State) (p : Fin 8) : List Signal :=
  match s.liveIndex? p with
  | none => []
  | some w =>
    (if s.ahead.contains (.move p) then [] else (s.prog p).steppedSignals p s.ref.hsc)
      ++ if s.ahead.contains (.gain p) then []
        else List.replicate ((if s.ahead.contains (.move p) then s.prog p else (s.prog p).stepped s.ref.hsc).skips w) (.count .gainSkipped (some p) 1)

/-- The state behind the shares of a LIVE programme's move unit and corrector. -/
def State.unitsSampled (s : State) (p : Fin 8) (w : Nat) : State :=
  (s.unlessAhead (.move p) (fun u => u.moveStep p)).unlessAhead (.gain p) (fun u => u.gainStep p w)

theorem moveShare_sameBut (s : State) (p : Fin 8) : s.sameBut moveParts (s.unlessAhead (.move p) (fun u => u.moveStep p)) :=
  unlessAhead_sameBut (moveStep_sameBut s p)

theorem unitsSampled_sameBut (s : State) (p : Fin 8) (w : Nat) : s.sameBut moveParts (s.unitsSampled p w) :=
  sameBut_trans (moveShare_sameBut s p) (unlessAhead_sameBut (sameBut_mono (gainStep_sameBut _ p w) (by decide)))

theorem prog_moveShare (s : State) (p : Fin 8) : (s.unlessAhead (.move p) (fun u => u.moveStep p)).prog p
    = if s.ahead.contains (.move p) then s.prog p else (s.prog p).stepped s.ref.hsc := by
  unfold State.unlessAhead
  split
  · rfl
  · exact prog_moveStep s p

theorem prog_unitsSampled (s : State) (p : Fin 8) (w : Nat) : (s.unitsSampled p w).prog p = s.sampledProg p w (s.prog p) := by
  have ha : (s.unlessAhead (.move p) (fun u => u.moveStep p)).ahead = s.ahead := (moveShare_sameBut s p .ahead (by decide)).symm
  have hm := prog_moveShare s p
  unfold State.unitsSampled State.sampledProg
  rw [← hm]
  generalize s.unlessAhead (.move p) (fun u => u.moveStep p) = u at ha
  unfold State.unlessAhead
  rw [ha]
  dsimp only
  split
  · rfl
  · exact prog_gainStep u p w

theorem unitsSampled_otherProgs (s : State) (p : Fin 8) (w : Nat) : s.otherProgs p (s.unitsSampled p w) := by
  have hm : s.otherProgs p (s.unlessAhead (.move p) (fun u => u.moveStep p)) := by
    unfold State.unlessAhead
    split
    · exact fun _ _ => rfl
    · exact moveStep_otherProgs s p
  refine otherProgs_trans s hm ?_
  unfold State.unitsSampled
  generalize s.unlessAhead (.move p) (fun u => u.moveStep p) = u
  unfold State.unlessAhead
  split
  · exact fun _ _ => rfl
  · exact gainStep_otherProgs u p w

theorem unitsSampled_runs (s : State) (p : Fin 8) (w : Nat) (h : s.liveIndex? p = some w) : Runs (s.shareSignals p) s (s.unitsSampled p w) := by
  have ha : (s.unlessAhead (.move p) (fun u => u.moveStep p)).ahead = s.ahead := (moveShare_sameBut s p .ahead (by decide)).symm
  have hgain := unlessAhead_runs (a := .gain p) (f := fun u => u.gainStep p w) (gainStep_runs (s.unlessAhead (.move p) (fun u => u.moveStep p)) p w)
  rw [ha, prog_moveShare] at hgain
  unfold State.shareSignals
  rw [h]
  exact (unlessAhead_runs (moveStep_runs s p)).trans hgain

/-- A LIVE programme behind its share: its write index advanced, its meter's lanes fed, and its clip count up. -/
def Programme.liveSampled (x : Programme) (ins : Vector LaneIn 32) (h : Held) (w clipped : Nat) : Programme :=
  { x with life := .live h ((w + 1) % 281474976710656), meter := x.meter.take ins h.lanes
           gain := { x.gain with clip := x.gain.clip + clipped } }

theorem liveSample_eq (ins : Vector LaneIn 32) (s : State) (p : Fin 8) (h : Held) (w : Nat) : s.liveSample ins p h w
    = (State.setProg { s.unitsSampled p w with mem := writeRings ins h w (s.unitsSampled p w).mem } p
        (((s.unitsSampled p w).prog p).liveSampled ins h w
          ((liveOutputs ins (writeRings ins h w (s.unitsSampled p w).mem) h w ((s.unitsSampled p w).prog p)).countP (fun o => o.2.2))),
      liveOutputs ins (writeRings ins h w (s.unitsSampled p w).mem) h w ((s.unitsSampled p w).prog p)) := rfl

theorem unitsSampled_mem (s : State) (p : Fin 8) (w : Nat) : (s.unitsSampled p w).mem = s.mem := (unitsSampled_sameBut s p w .mem (by decide)).symm

end Sys2Proof.Machine
end

