-- ==== Sys2Proof/Proofs/SampleStages.lean ====
section
/-! PROOFS. A house sample up to the sampling of the lines: what it sends, and what it leaves of each link, each programme and each
group (R16, R43, R52, R55, R63). -/

namespace Sys2Proof.Machine

variable {s t u : State} {p : Fin 8}

/-! ### One part among others -/

/-- Of operations one after the other, those of other parts keep a law up to the own operation, which turns it into another law,
which those of other parts keep. -/
theorem foldl_at {β ι : Type} {op : β → ι → β} {i : ι} {q r : β → Prop} (before : ∀ k b, k ≠ i → q b → q (op b k))
    (own : ∀ b, q b → r (op b i)) (after : ∀ k b, k ≠ i → r b → r (op b k)) {is : List ι} (his : is.Nodup) (hi : i ∈ is) {b : β} (hq : q b) :
    r (is.foldl op b) := by
  have hafter : ∀ (is : List ι) (b : β), i ∉ is → r b → r (is.foldl op b) := by
    intro is
    induction is with
    | nil => exact fun _ _ h => h
    | cons k is ih =>
      intro b hn hb
      rw [List.mem_cons, not_or] at hn
      exact ih _ hn.2 (after k b (fun h => hn.1 h.symm) hb)
  induction is generalizing b with
  | nil => cases hi
  | cons k is ih =>
    obtain ⟨hk, his⟩ := List.nodup_cons.mp his
    by_cases hki : k = i
    · subst hki; exact hafter is _ hk (own b hq)
    · exact ih his ((List.mem_cons.mp hi).resolve_left (fun h => hki h.symm)) (before k b hki hq)

theorem forEach_at {n : Nat} {op : Fin n → State → State} {i : Fin n} {q r : State → Prop} (before : ∀ k t, k ≠ i → q t → q (op k t))
    (own : ∀ t, q t → r (op i t)) (after : ∀ k t, k ≠ i → r t → r (op k t)) (hq : q s) : r (forEach n op s) :=
  foldl_at (op := fun t k => op k t) before own after (List.nodup_finRange n) (List.mem_finRange i) hq

/-! ### The output reads (R16, R17, R29) -/

/-- What a converter's read sends. -/
def readSignals (c : Converter) (l : Fin 8) : List Signal := if c.read.slip then [.count .slip (some l) 1, .latch (slipSource l)] else []

theorem readConverter_runs (s : State) (l : Fin 8) : Runs (readSignals (s.link l).conv l) s (s.readConverter l) := by
  have hset : Runs [] s (s.setConv l (s.link l).conv.read.conv) := runs_of_sameBut (setLink_sameBut s l _)
  unfold State.readConverter readSignals
  split
  · exact hset.trans (slipEvents_runs _ l)
  · exact hset

theorem readConverter_link (s : State) (l : Fin 8) : (s.readConverter l).link l = { s.link l with conv := (s.link l).conv.read.conv } := by
  unfold State.readConverter
  split
  · rw [State.link_congr (State.slipEvents_links _ l)]; exact State.link_setLink s l _
  · exact State.link_setLink s l _

theorem sampleRead_runs (s : State) : Runs ((List.finRange 8).flatMap (fun l => readSignals (s.link l).conv l)) s.ticked s.sampleRead :=
  forEach_runs (fun l t => readConverter_runs t l) (fun l k t hk => by rw [readConverter_otherLinks t l k hk]) s.ticked

theorem sampleRead_link (s : State) (l : Fin 8) : s.sampleRead.link l = { s.link l with conv := (s.link l).conv.read.conv } :=
  forEach_part (part := State.link) (F := fun _ _ x => { x with conv := x.conv.read.conv }) (fun l t => readConverter_link t l)
    (fun l k t hk => readConverter_otherLinks t l k hk) (fun _ _ _ _ => rfl) s.ticked l

theorem sampleRead_of_ticked (s : State) : s.ticked.sameBut (.links :: eventParts) s.sampleRead :=
  forEach_sameBut _ _ _ (fun l t => readConverter_sameBut t l)

theorem sampleRead_ref (s : State) : s.sampleRead.ref = s.ref.tick := ref_of_sameBut (sampleRead_of_ticked s) (by decide)

theorem sampleRead_prog (s : State) (p : Fin 8) : s.sampleRead.prog p = s.prog p := prog_of_sameBut (sampleRead_sameBut s) (by decide) p

theorem sampleRead_ahead (s : State) : s.sampleRead.ahead = s.ahead := (sampleRead_sameBut s .ahead (by decide)).symm

/-! ### The programmes' shares -/

theorem sampleProgs_fst (s : State) : s.sampleProgs.1 = forEach 8 (State.programmeShare s.sampleIns) s.sampleRead := by
  unfold State.sampleProgs forEach
  generalize s.sampleIns.map LaneIn.passed = out
  generalize s.sampleRead = u
  generalize List.finRange 8 = ps
  induction ps generalizing u out with
  | nil => rfl
  | cons p ps ih =>
    rw [List.foldl_cons, List.foldl_cons, ← programmeSample_fst s.sampleIns (u, out) p]
    exact ih _ _

theorem setProgMem_sameBut (s : State) (m : List (Nat × Slot)) (p : Fin 8) (x : Programme) :
    s.sameBut [.mem, .progs] (State.setProg { s with mem := m } p x) := by
  have hmem : s.sameBut [.mem, .progs] { s with mem := m } := by
    intro q hq; cases q <;> first | rfl | exact absurd (by decide) hq
  exact sameBut_trans hmem (sameBut_mono (setProg_sameBut _ p _) (by decide))

section
variable (ins : Vector LaneIn 32)

theorem liveSample_fst (s : State) (p : Fin 8) (h : Held) (w : Nat) : (s.liveSample ins p h w).1
    = State.setProg { s.unitsSampled p w with mem := writeRings ins h w (s.unitsSampled p w).mem } p
        (((s.unitsSampled p w).prog p).liveSampled ins h w
          ((liveOutputs ins (writeRings ins h w (s.unitsSampled p w).mem) h w ((s.unitsSampled p w).prog p)).countP (fun o => o.2.2))) := by
  rw [liveSample_eq]

theorem programmeShare_sameBut (s : State) (p : Fin 8) : s.sameBut (.mem :: moveParts) (s.programmeShare ins p) := by
  rcases liveIndex_cases s p with hn | ⟨h, w, hl, ha, -⟩
  · rw [programmeShare_of_not_live ins hn]; exact sameBut_refl s _
  · rw [programmeShare_of_live ins hl ha, liveSample_fst]
    exact sameBut_trans (sameBut_mono (unitsSampled_sameBut s p w) (by decide)) (sameBut_mono (setProgMem_sameBut _ _ p _) (by decide))

theorem programmeShare_otherProgs (s : State) (p : Fin 8) : s.otherProgs p (s.programmeShare ins p) := by
  rcases liveIndex_cases s p with hn | ⟨h, w, hl, ha, -⟩
  · rw [programmeShare_of_not_live ins hn]; exact fun _ _ => rfl
  · rw [programmeShare_of_live ins hl ha, liveSample_fst]
    exact otherProgs_trans s (unitsSampled_otherProgs s p w) (fun k hk => State.prog_setProg_ne _ hk _)

theorem programmeShare_runs (s : State) (p : Fin 8) : Runs (s.shareSignals p) s (s.programmeShare ins p) := by
  rcases liveIndex_cases s p with hn | ⟨h, w, hl, ha, hi⟩
  · rw [programmeShare_of_not_live ins hn, State.shareSignals, hn]; exact runs_refl s
  · rw [programmeShare_of_live ins hl ha, liveSample_fst]
    exact (unitsSampled_runs s p w hi).before (setProgMem_sameBut _ _ p _)

theorem programmeShare_prog (s : State) {p : Fin 8} {h : Held} {w : Nat} (hl : (s.prog p).life = .live h w) (ha : s.ahead.contains (.clear p) = false) :
    ∃ c, (s.programmeShare ins p).prog p = (s.sampledProg p w (s.prog p)).liveSampled ins h w c := by
  rw [programmeShare_of_live ins hl ha, liveSample_fst]
  exact ⟨_, (State.prog_setProg _ p _).trans (by rw [prog_unitsSampled])⟩

end

theorem liveIndex_congr (hp : t.prog p = s.prog p) (ha : t.ahead = s.ahead) : t.liveIndex? p = s.liveIndex? p := by
  unfold State.liveIndex?
  rw [hp, ha]

theorem sampledProg_congr (ha : t.ahead = s.ahead) (hr : t.ref = s.ref) (w : Nat) (x : Programme) : t.sampledProg p w x = s.sampledProg p w x := by
  unfold State.sampledProg
  rw [ha, hr]

theorem shareSignals_congr (hp : t.prog p = s.prog p) (ha : t.ahead = s.ahead) (hr : t.ref = s.ref) : t.shareSignals p = s.shareSignals p := by
  unfold State.shareSignals
  rw [liveIndex_congr hp ha, hp, ha, hr]

theorem sampleProgs_sameBut (s : State) : s.sampleRead.sameBut (.mem :: moveParts) s.sampleProgs.1 := by
  rw [sampleProgs_fst]
  exact forEach_sameBut _ _ _ (fun p t => programmeShare_sameBut _ t p)

theorem sampleProgs_runs (s : State) : Runs ((List.finRange 8).flatMap s.sampleRead.shareSignals) s.sampleRead s.sampleProgs.1 := by
  rw [sampleProgs_fst]
  exact forEach_runs (g := fun p t => t.shareSignals p) (fun p t => programmeShare_runs _ t p)
    (fun p k t hk => shareSignals_congr (programmeShare_otherProgs _ t p k hk) (programmeShare_sameBut _ t p .ahead (by decide)).symm
      (ref_of_sameBut (programmeShare_sameBut _ t p) (by decide))) s.sampleRead

/-- A programme that does not take the sample as LIVE stands as it stood. -/
theorem sampleProgs_prog_of_not_live (h : s.liveIndex? p = none) : s.sampleProgs.1.prog p = s.prog p := by
  have hstart : s.sampleRead.prog p = s.prog p ∧ s.sampleRead.ahead = s.ahead := ⟨sampleRead_prog s p, sampleRead_ahead s⟩
  have hstep : ∀ k t, (t.prog p = s.prog p ∧ t.ahead = s.ahead) → ((State.programmeShare s.sampleIns k t).prog p = s.prog p
      ∧ (State.programmeShare s.sampleIns k t).ahead = s.ahead) := by
    rintro k t ⟨hp, ha⟩
    refine ⟨?_, (programmeShare_sameBut _ t k .ahead (by decide)).symm.trans ha⟩
    by_cases hk : p = k
    · subst hk
      rw [programmeShare_of_not_live _ ((liveIndex_congr hp ha).trans h)]
      exact hp
    · exact (programmeShare_otherProgs _ t k p hk).trans hp
  rw [sampleProgs_fst]
  exact (forEach_induct _ (fun t : State => t.prog p = s.prog p ∧ t.ahead = s.ahead) _ hstart hstep).1

/-- A programme that takes the sample as LIVE is as its own share leaves it. -/
theorem sampleProgs_prog_of_live {h : Held} {w : Nat} (hl : (s.prog p).life = .live h w) (ha : s.ahead.contains (.clear p) = false) :
    ∃ c, s.sampleProgs.1.prog p = (s.sampleRead.sampledProg p w (s.prog p)).liveSampled s.sampleIns h w c := by
  rw [sampleProgs_fst]
  refine forEach_at (i := p) (q := fun t => t.prog p = s.prog p ∧ t.ahead = s.ahead ∧ t.ref = s.sampleRead.ref)
    (r := fun t => ∃ c, t.prog p = (s.sampleRead.sampledProg p w (s.prog p)).liveSampled s.sampleIns h w c) ?_ ?_ ?_
    ⟨sampleRead_prog s p, sampleRead_ahead s, rfl⟩
  · rintro k t hk ⟨hp, hahead, href⟩
    exact ⟨(programmeShare_otherProgs _ t k p (fun h => hk h.symm)).trans hp, (programmeShare_sameBut _ t k .ahead (by decide)).symm.trans hahead,
      (ref_of_sameBut (programmeShare_sameBut _ t k) (by decide)).trans href⟩
  · rintro t ⟨hp, hahead, href⟩
    obtain ⟨c, hc⟩ := programmeShare_prog s.sampleIns t (p := p) (by rw [hp]; exact hl) (by rw [hahead]; exact ha)
    rw [hp, sampledProg_congr (hahead.trans (sampleRead_ahead s).symm) href] at hc
    exact ⟨c, hc⟩
  · rintro k t hk ⟨c, hc⟩
    exact ⟨c, (programmeShare_otherProgs _ t k p (fun h => hk h.symm)).trans hc⟩

/-! ### The output stage and the clearing (R44, R52) -/

theorem sampleOutputs_sameBut (s : State) : s.sampleProgs.1.sameBut [.outPipe, .outLinks] s.sampleOutputs := pushOutputs_sameBut _ _

theorem clearShare_sameBut (s : State) (p : Fin 8) : s.sameBut [.progs, .mem] (s.unlessAhead (.clear p) (fun u => u.clearStep p)) :=
  unlessAhead_sameBut (clearStep_sameBut s p)

theorem sampleCleared_sameBut (s : State) : s.sampleOutputs.sameBut [.progs, .mem] s.sampleCleared :=
  forEach_sameBut _ _ _ (fun p t => clearShare_sameBut t p)

/-- A programme's life behind its clearing share of a house sample (R52, R53). -/
def Life.cleared : Life → Life
  | .closed => .closed
  | .clearing h left k => if k < 5 then .clearing h left (k + 1) else if left ≤ 1 then .live h 0 else .clearing h (left - 1) 0
  | .live h w => .live h w

theorem prog_clearStep (s : State) (p : Fin 8) : (s.clearStep p).prog p = { s.prog p with life := (s.prog p).life.cleared } := by
  cases hl : (s.prog p).life with
  | closed =>
    have hsame : s.clearStep p = s := by unfold State.clearStep; rw [hl]
    rw [hsame, Life.cleared, ← hl]
  | live h w =>
    have hsame : s.clearStep p = s := by unfold State.clearStep; rw [hl]
    rw [hsame, Life.cleared, ← hl]
  | clearing h left k =>
    rw [Life.cleared]
    by_cases hk : k < 5
    · rw [clearStep_of_not_due hl hk, if_pos hk]; exact State.prog_setProg s p _
    · rw [clearStep_of_due hl (by omega), if_neg hk]; exact State.prog_setProg _ p _

theorem clearStep_otherProgs (s : State) (p : Fin 8) : s.otherProgs p (s.clearStep p) := by
  intro k hk
  cases hl : (s.prog p).life with
  | closed => unfold State.clearStep; rw [hl]
  | live h w => unfold State.clearStep; rw [hl]
  | clearing h left c =>
    by_cases hc : c < 5
    · rw [clearStep_of_not_due hl hc]; exact State.prog_setProg_ne s hk _
    · rw [clearStep_of_due hl (by omega)]; exact State.prog_setProg_ne _ hk _

/-- A programme behind its clearing share, unless that was taken ahead. -/
def State.clearedProg (s : State) (p : Fin 8) (x : Programme) : Programme :=
  if s.ahead.contains (.clear p) then x else { x with life := x.life.cleared }

theorem sampleOutputs_ahead (s : State) : s.sampleOutputs.ahead = s.ahead :=
  ((sampleProgs_sameBut s .ahead (by decide)).trans (sampleOutputs_sameBut s .ahead (by decide))).symm.trans (sampleRead_ahead s)

theorem prog_sampleCleared (s : State) (p : Fin 8) : s.sampleCleared.prog p = s.clearedProg p (s.sampleProgs.1.prog p) := by
  have hown (p : Fin 8) (t : State) : (t.unlessAhead (.clear p) (fun u => u.clearStep p)).prog p = t.clearedProg p (t.prog p) := by
    unfold State.unlessAhead State.clearedProg
    split
    · rfl
    · exact prog_clearStep t p
  have hother (p k : Fin 8) (t : State) (hk : k ≠ p) : (t.unlessAhead (.clear p) (fun u => u.clearStep p)).prog k = t.prog k := by
    unfold State.unlessAhead
    split
    · rfl
    · exact clearStep_otherProgs t p k hk
  have hsame (p k : Fin 8) (t : State) (x : Programme) : (t.unlessAhead (.clear p) (fun u => u.clearStep p)).clearedProg k x = t.clearedProg k x := by
    unfold State.clearedProg
    rw [← clearShare_sameBut t p .ahead (by decide)]
  have h := forEach_part (part := State.prog) (F := State.clearedProg) hown hother hsame s.sampleOutputs p
  have hahead (x : Programme) : s.sampleOutputs.clearedProg p x = s.clearedProg p x := by
    unfold State.clearedProg
    rw [sampleOutputs_ahead]
  rw [hahead, prog_of_sameBut (sampleOutputs_sameBut s) (by decide)] at h
  exact h

theorem sampleCleared_runs (s : State) : Runs ((List.finRange 8).flatMap (fun l => readSignals (s.link l).conv l)
    ++ (List.finRange 8).flatMap s.sampleRead.shareSignals) s.ticked s.sampleCleared :=
  (((sampleRead_runs s).trans (sampleProgs_runs s)).before (sampleOutputs_sameBut s)).before (sampleCleared_sameBut s)

/-- What the stages up to the sampling of the lines reach behind the clock. -/
theorem sampleCleared_of_ticked (s : State) : s.ticked.sameBut (.links :: .mem :: .outPipe :: .outLinks :: moveParts) s.sampleCleared :=
  sameBut_trans (sameBut_trans (sameBut_trans (sameBut_mono (sampleRead_of_ticked s) (by decide)) (sameBut_mono (sampleProgs_sameBut s) (by decide)))
    (sameBut_mono (sampleOutputs_sameBut s) (by decide))) (sameBut_mono (sampleCleared_sameBut s) (by decide))

theorem sampleCleared_ref (s : State) : s.sampleCleared.ref = s.ref.tick := ref_of_sameBut (sampleCleared_of_ticked s) (by decide)

theorem sampleCleared_ahead (s : State) : s.sampleCleared.ahead = s.ahead := (sampleCleared_of_ticked s .ahead (by decide)).symm

theorem sampleCleared_link (s : State) (l : Fin 8) : s.sampleCleared.link l = { s.link l with conv := (s.link l).conv.read.conv } := by
  have h : s.sampleRead.links = s.sampleCleared.links := ((sampleProgs_sameBut s .links (by decide)).trans (sampleOutputs_sameBut s .links (by decide))).trans
    (sampleCleared_sameBut s .links (by decide))
  rw [State.link_congr h.symm]
  exact sampleRead_link s l

/-! ### The groups that the move steps arm (R96) -/

/-- The group that a programme's move step of this house sample arms. -/
def State.shareArms (s : State) (p : Fin 8) : Option (Fin 4) := if s.stepsAt p then (s.prog p).steppedArms s.ref.hsc else none

theorem armedBy_group (s : State) (o : Option (Fin 4)) (g : Fin 4) :
    (s.armGroup o).group g = { s.group g with armed := (s.group g).armed || (o == some g) } := by
  cases o with
  | none => exact (by rw [Bool.or_false] : s.group g = { s.group g with armed := (s.group g).armed || false })
  | some k =>
    rw [armGroup_group]
    by_cases hk : k = g
    · subst hk; rw [if_pos rfl, beq_self_eq_true, Bool.or_true]
    · have hne : (some k == some g) = false := by simpa using hk
      rw [if_neg hk, hne, Bool.or_false]

theorem programmeShare_group (ins : Vector LaneIn 32) (s : State) (p : Fin 8) (g : Fin 4) :
    (s.programmeShare ins p).group g = { s.group g with armed := (s.group g).armed || (s.shareArms p == some g) } := by
  have hnone (o : Option (Fin 4)) (ho : o = none) : s.group g = { s.group g with armed := (s.group g).armed || (o == some g) } := by
    rw [ho]; exact (by rw [Bool.or_false] : s.group g = { s.group g with armed := (s.group g).armed || false })
  rcases liveIndex_cases s p with hn | ⟨h, w, hl, ha, hi⟩
  · rw [programmeShare_of_not_live ins hn]
    exact hnone _ (by rw [State.shareArms, State.stepsAt, hn]; rfl)
  · rw [programmeShare_of_live ins hl ha, liveSample_fst,
      State.group_congr (setProgMem_sameBut (s.unitsSampled p w) _ p _ .groups (by decide)).symm]
    have hgain : (s.unitsSampled p w).groups = (s.unlessAhead (.move p) (fun u => u.moveStep p)).groups :=
      (unlessAhead_sameBut (gainStep_sameBut _ p w) .groups (by decide)).symm
    rw [State.group_congr hgain]
    unfold State.unlessAhead State.shareArms State.stepsAt
    rw [hi]
    by_cases hm : s.ahead.contains (.move p) = true
    · rw [if_pos hm, hm]; exact hnone _ rfl
    · have hm' : s.ahead.contains (.move p) = false := by simpa using hm
      rw [if_neg hm, hm', State.group_congr (moveStep_groups s p)]
      exact armedBy_group s _ g

theorem shareArms_congr (hp : t.prog p = s.prog p) (ha : t.ahead = s.ahead) (hr : t.ref = s.ref) : t.shareArms p = s.shareArms p := by
  unfold State.shareArms State.stepsAt
  rw [liveIndex_congr hp ha, hp, ha, hr]

/-- A group is armed behind the move steps of a house sample when it was before them or one of them arms it. -/
theorem sampleProgs_group (s : State) (g : Fin 4) : s.sampleProgs.1.group g
    = { s.group g with armed := (s.group g).armed || (List.finRange 8).any (fun p => s.sampleRead.shareArms p == some g) } := by
  have fold (ps : List (Fin 8)) (u : State) (hn : ps.Nodup) : (ps.foldl (fun t p => State.programmeShare s.sampleIns p t) u).group g
      = { u.group g with armed := (u.group g).armed || ps.any (fun p => u.shareArms p == some g) } := by
    induction ps generalizing u with
    | nil => exact (by rw [List.any_nil, Bool.or_false] : u.group g = { u.group g with armed := (u.group g).armed || [].any (fun p => u.shareArms p == some g) })
    | cons p ps ih =>
      obtain ⟨hp, hps⟩ := List.nodup_cons.mp hn
      have hsame : ∀ k ∈ ps, ((State.programmeShare s.sampleIns p u).shareArms k == some g) = (u.shareArms k == some g) := by
        intro k hk
        rw [shareArms_congr (programmeShare_otherProgs _ u p k (fun h => hp (h ▸ hk))) (programmeShare_sameBut _ u p .ahead (by decide)).symm
          (ref_of_sameBut (programmeShare_sameBut _ u p) (by decide))]
      rw [List.foldl_cons, ih _ hps, programmeShare_group, List.any_cons, ← Bool.or_assoc]
      have hany : ps.any (fun k => (State.programmeShare s.sampleIns p u).shareArms k == some g) = ps.any (fun k => u.shareArms k == some g) := by
        rw [Bool.eq_iff_iff, List.any_eq_true, List.any_eq_true]
        exact exists_congr fun k => and_congr_right fun hk => by rw [hsame k hk]
      rw [hany]
  have hstart : s.sampleRead.group g = s.group g := (State.group_congr (sampleRead_sameBut s .groups (by decide)) g).symm
  rw [sampleProgs_fst]
  have h := fold (List.finRange 8) s.sampleRead (List.nodup_finRange 8)
  rw [hstart] at h
  exact h

theorem sampleCleared_group (s : State) (g : Fin 4) : s.sampleCleared.group g
    = { s.group g with armed := (s.group g).armed || (List.finRange 8).any (fun p => s.sampleRead.shareArms p == some g) } := by
  have h : s.sampleProgs.1.groups = s.sampleCleared.groups := (sampleOutputs_sameBut s .groups (by decide)).trans (sampleCleared_sameBut s .groups (by decide))
  rw [State.group_congr h.symm]
  exact sampleProgs_group s g

end Sys2Proof.Machine
end

