-- ==== Sys2Proof/Proofs/SampleLines.lean ====
section
/-! PROOFS. FRM, the absence test and the cue lines at a house sample: what they send, and what they leave of the reference unit and of
each group (R90 to R93, R97, R99). -/

namespace Sys2Proof.Machine

variable {s t u : State} {p : Fin 8} {g : Fin 4}

/-! ### One group among others -/

/-- The group, its members and its snapshot are the same in two states. -/
structure SameGroup (g : Fin 4) (s t : State) : Prop where
  group : t.group g = s.group g
  snap : t.snap g = s.snap g
  members : t.members g = s.members g
  progs : ∀ p ∈ s.members g, t.prog p = s.prog p

theorem sameGroup_of_sameBut {ps : List Part} (h : s.sameBut ps t) (hp : ∀ x ∈ [Part.progs, .groups, .snaps], x ∉ ps := by decide) (g : Fin 4) :
    SameGroup g s t where
  group := State.group_congr (h .groups (hp _ (by decide))).symm g
  snap := State.snap_congr (h .snaps (hp _ (by decide))).symm g
  members := members_congr (fun p => by rw [prog_of_sameBut h (hp _ (by decide))]; exact ⟨rfl, rfl⟩) g
  progs p _ := prog_of_sameBut h (hp _ (by decide)) p

theorem SameGroup.trans (h : SameGroup g s t) (k : SameGroup g t u) : SameGroup g s u where
  group := k.group.trans h.group
  snap := k.snap.trans h.snap
  members := k.members.trans h.members
  progs p hp := (k.progs p (by rw [h.members]; exact hp)).trans (h.progs p hp)

theorem sameGroup_refl (s : State) (g : Fin 4) : SameGroup g s s := ⟨rfl, rfl, rfl, fun _ _ => rfl⟩

/-- No programme is a member of two groups. -/
theorem member_of_one {k : Fin 4} (h : p ∈ s.members g) (hk : k ≠ g) : p ∉ s.members k := by
  rw [mem_members] at h ⊢
  rw [h.2]
  exact fun hc => hk (Option.some.inj hc.2).symm

theorem takeCue_members (s : State) (k g : Fin 4) (time : Stamp) : (s.takeCue k time).members g = s.members g :=
  members_congr (fun p => ((takeCue_took s k time).rest p).2) g

theorem takeCue_sameGroup (s : State) {k : Fin 4} (hk : k ≠ g) (time : Stamp) : SameGroup g s (s.takeCue k time) where
  group := (takeCue_group s k g time).trans (if_neg (fun h => hk h.symm))
  snap := (takeCue_snap s k g time).trans (if_neg (fun h => hk h.1.symm))
  members := takeCue_members s k g time
  progs p hp := (takeCue_prog s k time p).trans (if_neg (member_of_one hp hk))

/-- The group takes its cue when it is cued, and nothing else befalls it. -/
theorem cueGroups_at (s : State) (cued : CueGroup → Bool) (time : Stamp) (g : Fin 4) :
    ∃ a, SameGroup g s a ∧ SameGroup g (if cued (s.group g) = true then a.takeCue g time else a) (s.cueGroups cued time) := by
  unfold State.cueGroups
  refine forEach_at (i := g) (q := SameGroup g s)
    (r := fun t => ∃ a, SameGroup g s a ∧ SameGroup g (if cued (s.group g) = true then a.takeCue g time else a) t) ?_ ?_ ?_ (sameGroup_refl s g)
  · intro k t hk ht
    split
    · exact ht.trans (takeCue_sameGroup t hk time)
    · exact ht
  · intro t ht
    rw [ht.group]
    exact ⟨t, ht, sameGroup_refl _ g⟩
  · rintro k t hk ⟨a, ha, ht⟩
    refine ⟨a, ha, ht.trans ?_⟩
    split
    · exact takeCue_sameGroup t hk time
    · exact sameGroup_refl t g

/-- A programme of no group takes no cue. -/
theorem cueGroups_prog_of_alone (cued : CueGroup → Bool) (time : Stamp) (h : ∀ g, p ∉ s.members g) :
    (s.cueGroups cued time).prog p = s.prog p ∧ ∀ g, p ∉ (s.cueGroups cued time).members g := by
  unfold State.cueGroups
  refine forEach_induct s (fun t : State => t.prog p = s.prog p ∧ ∀ g, p ∉ t.members g) _ ⟨rfl, h⟩ ?_
  rintro g t ⟨hp, hm⟩
  split
  · exact ⟨((takeCue_prog t g time p).trans (if_neg (hm g))).trans hp, fun k => by rw [takeCue_members]; exact hm k⟩
  · exact ⟨hp, hm⟩

/-! ### What the cues send -/

/-- What a group sends at the cues of an edge. -/
def State.cueSignals (s : State) (cued : CueGroup → Bool) (g : Fin 4) : List Signal :=
  if cued (s.group g) = true then (s.members g).map (fun p => .count .cueTaken (some p) 1) else []

theorem forProgs_count_runs (s : State) {e : CountEvent} (he : e ≠ .alarmRaise) (ps : List (Fin 8)) :
    Runs (ps.map (fun p => .count e (some p) 1)) s (forProgs ps (fun p t => t.count e (some p) 1) s) := by
  unfold forProgs
  induction ps generalizing s with
  | nil => exact runs_refl _
  | cons p ps ih => exact (Runs.count s he (some p) 1).trans (ih _)

theorem takeCue_runs (s : State) (g : Fin 4) (time : Stamp) : Runs ((s.members g).map (fun p => .count .cueTaken (some p) 1)) s (s.takeCue g time) := by
  have hcount : Runs ((s.members g).map (fun p => .count .cueTaken (some p) 1)) s (s.countCue g) :=
    (forProgs_count_runs _ (by decide) _).behind (setGroup_sameBut s g _)
  rw [takeCue_eq]
  exact (((hcount.before (forProgs_sameBut _ [.progs] _ _ (fun p t => startWaiting_sameBut t p))).before
    (snapshotCue_sameBut _ g time)).before (restartCue_sameBut _ g)).before (setGroup_sameBut _ g _)

theorem cueSignals_congr {cued : CueGroup → Bool} (h : cued (t.group g) = cued (s.group g)) (hm : t.members g = s.members g) :
    t.cueSignals cued g = s.cueSignals cued g := by
  unfold State.cueSignals
  rw [h, hm]

theorem cueGroups_runs (s : State) (cued : CueGroup → Bool) (time : Stamp) :
    Runs ((List.finRange 4).flatMap (s.cueSignals cued)) s (s.cueGroups cued time) := by
  refine forEach_runs (g := fun g t => t.cueSignals cued g) (fun g t => ?_) (fun g k t hk => ?_) s
  · unfold State.cueSignals
    split
    · exact takeCue_runs t g time
    · exact runs_refl t
  · have h : SameGroup k t (if cued (t.group g) then t.takeCue g time else t) := by
      split
      · exact takeCue_sameGroup t (fun h => hk h.symm) time
      · exact sameGroup_refl t k
    exact cueSignals_congr (by rw [h.group]) h.members

theorem cueSignals_elsewhere (n : Fin 59) (s : State) (cued : CueGroup → Bool) (g : Fin 4) : sigAt n (s.cueSignals cued g) = [] := by
  unfold State.cueSignals
  split
  · refine List.filter_eq_nil_iff.mpr (fun x hx => ?_)
    obtain ⟨p, -, rfl⟩ := List.mem_map.mp hx
    exact Bool.false_ne_true
  · rfl

theorem cueSignals_sentOf (s : State) (cued : CueGroup → Bool) (g : Fin 4) : sentOf .cueTaken (s.cueSignals cued g)
    = if cued (s.group g) = true then (s.members g).map (fun p => (.cueTaken, some p, 1)) else [] := by
  have hmap (ps : List (Fin 8)) : sentOf .cueTaken (ps.map (fun p => Signal.count .cueTaken (some p) 1)) = ps.map (fun p => (.cueTaken, some p, 1)) := by
    induction ps with
    | nil => rfl
    | cons p ps ih => rw [List.map_cons, sentOf_count, if_pos rfl, ih]; rfl
  unfold State.cueSignals
  rw [sentOf_ite, hmap]
  rfl

theorem cueSignals_counts (s : State) (cued : CueGroup → Bool) (g : Fin 4) : CountsWithin [.cueTaken] (s.cueSignals cued g) := by
  unfold State.cueSignals CountsWithin
  split
  · intro x hx
    obtain ⟨y, hy, hyx⟩ := List.mem_filterMap.mp hx
    obtain ⟨p, -, rfl⟩ := List.mem_map.mp hy
    cases hyx
    simp
  · simp

/-! ### The reference unit (R90 to R93) -/

/-- FRM rises at an accepted interval (R90). -/
def RefUnit.accepts (r : RefUnit) (lvl : Bool) : Bool := lvl && !r.frmPrev && r.acceptedInterval.isSome

/-- The reference unit once FRM has been sampled (R90, R91). -/
def RefUnit.frmTaken (r : RefUnit) (lvl : Bool) : RefUnit := { (if lvl && !r.frmPrev then r.frmEdge else r) with frmPrev := lvl }

/-- The reference becomes ABSENT at this house sample (R91). -/
def State.absentNext (s : State) (frm : Bool) : Bool := !s.ahead.contains .frameRef && (s.ref.tick.frmTaken frm).absenceDue

/-- The reference unit behind the absence test. -/
def State.refTested (s : State) (frm : Bool) : RefUnit :=
  if s.absentNext frm then { s.ref.tick.frmTaken frm with present := false, run := 0 } else s.ref.tick.frmTaken frm

theorem frmEdge_hsc (r : RefUnit) : r.frmEdge.hsc = r.hsc := by
  unfold RefUnit.frmEdge
  cases r.acceptedInterval <;> rfl

theorem frmTaken_hsc (r : RefUnit) (lvl : Bool) : (r.frmTaken lvl).hsc = r.hsc := by
  unfold RefUnit.frmTaken
  split
  · exact frmEdge_hsc r
  · rfl

theorem sampleFrm_ref (s : State) (lvl : Bool) : (s.sampleFrm lvl).ref = s.ref.frmTaken lvl := by
  have hframe : (s.frmSampled lvl).ref = s.ref.frmTaken lvl := rfl
  rw [sampleFrm_eq]
  split
  · rw [ref_of_sameBut (cueGroups_sameBut _ _ _) (by decide), ref_of_sameBut (reportFrameRef_sameBut _) (by decide)]
    exact hframe
  · exact hframe

theorem absenceTest_ref (s : State) : s.absenceTest.ref
    = if !s.ahead.contains .frameRef && s.ref.absenceDue then { s.ref with present := false, run := 0 } else s.ref := by
  unfold State.absenceTest
  split
  · unfold State.becomeAbsent
    rw [ref_of_sameBut (reportFrameRef_sameBut _) (by decide)]
  · rfl

theorem cuesOf_ref (s : State) (b : Bool) (src : CueSource) : (s.cuesOf b src).ref = s.ref := ref_of_sameBut (cuesOf_sameBut s b src) (by decide)

theorem sampleCues_ref (s : State) (c0 c1 : Bool) : (s.sampleCues c0 c1).ref = { s.ref with cue0Prev := c0, cue1Prev := c1 } := by
  rw [sampleCues_eq, cuesOf_ref, cuesOf_ref]
  rfl

/-! ### The lines, stage by stage -/

/-- A house sample up to FRM's edge and its cues. -/
def State.linesFrm (s : State) (frm : Bool) : State := s.sampleCleared.sampleFrm frm

/-- A house sample up to the absence test. -/
def State.linesTested (s : State) (frm : Bool) : State := (s.linesFrm frm).absenceTest

/-- A house sample up to the cue lines. -/
def State.linesSampled (s : State) (frm c0 c1 : Bool) : State := (s.linesTested frm).sampleCues c0 c1

theorem takeHouseSample_lines (h : s.blockEndDue = false) (frm c0 c1 : Bool) :
    ∃ a, s.takeHouseSample frm c0 c1 = { s.linesSampled frm c0 c1 with ahead := a } := ⟨_, takeHouseSample_eq h frm c0 c1⟩

theorem linesFrm_ref (s : State) (frm : Bool) : (s.linesFrm frm).ref = s.ref.tick.frmTaken frm := by
  rw [State.linesFrm, sampleFrm_ref, sampleCleared_ref]

theorem linesFrm_ahead (s : State) (frm : Bool) : (s.linesFrm frm).ahead = s.ahead :=
  (sampleFrm_sameBut s.sampleCleared frm .ahead (by decide)).symm.trans (sampleCleared_ahead s)

theorem linesTested_ref (s : State) (frm : Bool) : (s.linesTested frm).ref = s.refTested frm := by
  rw [State.linesTested, absenceTest_ref, linesFrm_ref, linesFrm_ahead]
  rfl

theorem linesSampled_ref (s : State) (frm c0 c1 : Bool) :
    (s.linesSampled frm c0 c1).ref = { s.refTested frm with cue0Prev := c0, cue1Prev := c1 } := by
  rw [State.linesSampled, sampleCues_ref, linesTested_ref]

theorem refTested_rest (s : State) (frm : Bool) : (s.refTested frm).hsc = s.ref.tick.hsc
    ∧ (s.refTested frm).cue0Prev = s.ref.cue0Prev ∧ (s.refTested frm).cue1Prev = s.ref.cue1Prev := by
  have hedge (r : RefUnit) : r.frmEdge.cue0Prev = r.cue0Prev ∧ r.frmEdge.cue1Prev = r.cue1Prev := by
    unfold RefUnit.frmEdge
    cases r.acceptedInterval <;> exact ⟨rfl, rfl⟩
  have htaken (r : RefUnit) : (r.frmTaken frm).cue0Prev = r.cue0Prev ∧ (r.frmTaken frm).cue1Prev = r.cue1Prev := by
    unfold RefUnit.frmTaken
    split
    · exact hedge r
    · exact ⟨rfl, rfl⟩
  have htick : s.ref.tick.cue0Prev = s.ref.cue0Prev ∧ s.ref.tick.cue1Prev = s.ref.cue1Prev := by
    unfold RefUnit.tick
    split <;> exact ⟨rfl, rfl⟩
  have hall : (s.ref.tick.frmTaken frm).hsc = s.ref.tick.hsc ∧ (s.ref.tick.frmTaken frm).cue0Prev = s.ref.cue0Prev
      ∧ (s.ref.tick.frmTaken frm).cue1Prev = s.ref.cue1Prev :=
    ⟨frmTaken_hsc _ frm, (htaken _).1.trans htick.1, (htaken _).2.trans htick.2⟩
  unfold State.refTested
  split <;> exact hall

/-- A rising edge on CUE0, and one on CUE1, at a house sample. -/
def RefUnit.rises0 (r : RefUnit) (c0 : Bool) : Bool := c0 && !r.cue0Prev
def RefUnit.rises1 (r : RefUnit) (c1 : Bool) : Bool := c1 && !r.cue1Prev

/-- A house sample up to CUE0's cues. -/
def State.linesCue0 (s : State) (frm c0 c1 : Bool) : State := ((s.linesTested frm).cuesSampled c0 c1).cuesOf (s.ref.rises0 c0) .cue0

theorem linesSampled_eq (s : State) (frm c0 c1 : Bool) : s.linesSampled frm c0 c1 = (s.linesCue0 frm c0 c1).cuesOf (s.ref.rises1 c1) .cue1 := by
  obtain ⟨-, h0, h1⟩ := refTested_rest s frm
  unfold State.linesSampled State.linesCue0 RefUnit.rises0 RefUnit.rises1
  rw [sampleCues_eq, linesTested_ref, h0, h1]

theorem linesCue0_hsc (s : State) (frm c0 c1 : Bool) : (s.linesCue0 frm c0 c1).ref.hsc = s.ref.tick.hsc := by
  have h : ((s.linesTested frm).cuesSampled c0 c1).ref.hsc = (s.linesTested frm).ref.hsc := rfl
  unfold State.linesCue0
  rw [cuesOf_ref, h, linesTested_ref]
  exact (refTested_rest s frm).1

/-! ### Each group at the lines -/

/-- The group takes a cue at this house sample (R93, R97). -/
def State.cuedAt (s : State) (frm c0 c1 : Bool) (g : Fin 4) : Bool :=
  match (s.sampleCleared.group g).source with
  | .none => false
  | .message => false
  | .frame => s.ref.tick.accepts frm && (s.sampleCleared.group g).armed
  | .cue0 => s.ref.rises0 c0
  | .cue1 => s.ref.rises1 c1

/-- The group takes a cue or not between the two states, and nothing else befalls it. -/
def CuedBetween (g : Fin 4) (time : Stamp) (cued : Bool) (s t : State) : Prop :=
  ∃ a, SameGroup g s a ∧ SameGroup g (if cued = true then a.takeCue g time else a) t

theorem cuedBetween_of_same {time : Stamp} (h : SameGroup g s t) : CuedBetween g time false s t := ⟨s, sameGroup_refl s g, h⟩

theorem CuedBetween.of {time : Stamp} {c d : Bool} (k : CuedBetween g time c s t) (h : c = d) : CuedBetween g time d s t := h ▸ k

theorem CuedBetween.behind {time : Stamp} {c : Bool} (k : CuedBetween g time c t u) (h : SameGroup g s t) : CuedBetween g time c s u := by
  obtain ⟨a, ha, hu⟩ := k
  exact ⟨a, h.trans ha, hu⟩

theorem CuedBetween.before {time : Stamp} {c : Bool} (k : CuedBetween g time c s t) (h : SameGroup g t u) : CuedBetween g time c s u := by
  obtain ⟨a, ha, hu⟩ := k
  exact ⟨a, ha, hu.trans h⟩

theorem CuedBetween.source {time : Stamp} {c : Bool} (k : CuedBetween g time c s t) : (t.group g).source = (s.group g).source := by
  obtain ⟨a, ha, hu⟩ := k
  rw [hu.group, ← ha.group]
  split
  · rw [takeCue_group, if_pos rfl]
  · rfl

theorem CuedBetween.same {time : Stamp} (k : CuedBetween g time false s t) : SameGroup g s t := by
  obtain ⟨a, ha, hu⟩ := k
  exact ha.trans hu

theorem CuedBetween.members {time : Stamp} {c : Bool} (k : CuedBetween g time c s t) : t.members g = s.members g := by
  obtain ⟨a, ha, hu⟩ := k
  rw [hu.members, ← ha.members]
  split
  · exact takeCue_members a g g time
  · rfl

theorem sampleFrm_cued (s : State) (frm : Bool) (g : Fin 4) :
    CuedBetween g s.ref.hsc (s.ref.accepts frm && ((s.group g).source == .frame && (s.group g).armed)) s (s.sampleFrm frm) := by
  have hsame : SameGroup g s (s.frmSampled frm) := sameGroup_of_sameBut (frmSampled_sameBut s frm) (by decide) g
  have hreport : SameGroup g s (s.frmSampled frm).reportFrameRef := hsame.trans (sameGroup_of_sameBut (reportFrameRef_sameBut _) (by decide) g)
  have hhsc : (s.frmSampled frm).ref.hsc = s.ref.hsc := frmTaken_hsc s.ref frm
  have hacc : s.frmAccepted frm = s.ref.accepts frm := rfl
  rw [sampleFrm_eq, hacc, hhsc]
  cases ha : s.ref.accepts frm with
  | false => exact cuedBetween_of_same hsame
  | true =>
    have h : CuedBetween g s.ref.hsc _ _ _ := cueGroups_at (s.frmSampled frm).reportFrameRef (fun g => g.source == .frame && g.armed) s.ref.hsc g
    rw [hreport.group] at h
    exact h.behind hreport

theorem absenceTest_same (s : State) (g : Fin 4) : SameGroup g s s.absenceTest := sameGroup_of_sameBut (absenceTest_sameBut s) (by decide) g

theorem cuesOf_cued (s : State) (b : Bool) (src : CueSource) (g : Fin 4) :
    CuedBetween g s.ref.hsc (b && ((s.group g).source == src)) s (s.cuesOf b src) := by
  unfold State.cuesOf
  cases b with
  | false => exact cuedBetween_of_same (sameGroup_refl s g)
  | true => exact cueGroups_at s (fun g => g.source == src) s.ref.hsc g

/-- A group takes at most one cue at a house sample, for it has one source. -/
theorem linesSampled_cued (s : State) (frm c0 c1 : Bool) (g : Fin 4) :
    CuedBetween g s.ref.tick.hsc (s.cuedAt frm c0 c1 g) s.sampleCleared (s.linesSampled frm c0 c1) := by
  have hmid : SameGroup g (s.linesTested frm) ((s.linesTested frm).cuesSampled c0 c1) := sameGroup_of_sameBut (cuesSampled_sameBut _ c0 c1) (by decide) g
  have hhsc : ((s.linesTested frm).cuesSampled c0 c1).ref.hsc = s.ref.tick.hsc := (linesCue0_hsc s frm c0 c1).symm.trans (by rw [State.linesCue0, cuesOf_ref]) |>.symm
  have h1 := (sampleFrm_cued s.sampleCleared frm g).before (absenceTest_same _ g)
  have h2 := (cuesOf_cued ((s.linesTested frm).cuesSampled c0 c1) (s.ref.rises0 c0) .cue0 g).behind hmid
  have h3 := cuesOf_cued (s.linesCue0 frm c0 c1) (s.ref.rises1 c1) .cue1 g
  have hs1 : ((s.linesTested frm).group g).source = (s.sampleCleared.group g).source := h1.source
  have hs2 : ((s.linesCue0 frm c0 c1).group g).source = (s.sampleCleared.group g).source := h2.source.trans hs1
  rw [linesCue0_hsc, ← linesSampled_eq, hs2] at h3
  rw [hmid.group, hs1, hhsc] at h2
  rw [sampleCleared_ref] at h1
  change CuedBetween g _ _ _ (s.linesTested frm) at h1
  change CuedBetween g _ _ _ (s.linesCue0 frm c0 c1) at h2
  unfold State.cuedAt
  cases hsrc : (s.sampleCleared.group g).source with
  | none =>
    rw [hsrc] at h1 h2 h3
    exact ((h3.of (Bool.and_false _)).behind (h2.of (Bool.and_false _)).same).behind (h1.of (Bool.and_false _)).same
  | message =>
    rw [hsrc] at h1 h2 h3
    exact ((h3.of (Bool.and_false _)).behind (h2.of (Bool.and_false _)).same).behind (h1.of (Bool.and_false _)).same
  | frame =>
    rw [hsrc] at h1 h2 h3
    exact (h1.before (h2.of (Bool.and_false _)).same).before (h3.of (Bool.and_false _)).same
  | cue0 =>
    rw [hsrc] at h1 h2 h3
    exact ((h2.of (Bool.and_true _)).behind (h1.of (Bool.and_false _)).same).before (h3.of (Bool.and_false _)).same
  | cue1 =>
    rw [hsrc] at h1 h2 h3
    exact ((h3.of (Bool.and_true _)).behind (h2.of (Bool.and_false _)).same).behind (h1.of (Bool.and_false _)).same

/-- A programme of no group is as the stages before the lines leave it. -/
theorem linesSampled_prog_of_alone (frm c0 c1 : Bool) (h : ∀ g, p ∉ s.sampleCleared.members g) :
    (s.linesSampled frm c0 c1).prog p = s.sampleCleared.prog p := by
  have frame {ps : List Part} {t u : State} (hu : t.sameBut ps u) (hps : Part.progs ∉ ps) (ht : t.prog p = s.sampleCleared.prog p ∧ ∀ g, p ∉ t.members g) :
      u.prog p = s.sampleCleared.prog p ∧ ∀ g, p ∉ u.members g :=
    ⟨(prog_of_sameBut hu hps p).trans ht.1, fun g => by
      have hm : u.members g = t.members g := members_congr (fun k => by rw [prog_of_sameBut hu hps k]; exact ⟨rfl, rfl⟩) g
      rw [hm]; exact ht.2 g⟩
  have cue {t : State} (cued : CueGroup → Bool) (time : Stamp) (ht : t.prog p = s.sampleCleared.prog p ∧ ∀ g, p ∉ t.members g) :
      (t.cueGroups cued time).prog p = s.sampleCleared.prog p ∧ ∀ g, p ∉ (t.cueGroups cued time).members g :=
    ⟨(cueGroups_prog_of_alone cued time ht.2).1.trans ht.1, (cueGroups_prog_of_alone cued time ht.2).2⟩
  have cues {t : State} (b : Bool) (src : CueSource) (ht : t.prog p = s.sampleCleared.prog p ∧ ∀ g, p ∉ t.members g) :
      (t.cuesOf b src).prog p = s.sampleCleared.prog p ∧ ∀ g, p ∉ (t.cuesOf b src).members g := by
    unfold State.cuesOf
    split
    · exact cue _ _ ht
    · exact ht
  have hfrm : (s.linesFrm frm).prog p = s.sampleCleared.prog p ∧ ∀ g, p ∉ (s.linesFrm frm).members g := by
    have hstart := frame (frmSampled_sameBut s.sampleCleared frm) (by decide) ⟨rfl, h⟩
    unfold State.linesFrm
    rw [sampleFrm_eq]
    split
    · exact cue _ _ (frame (reportFrameRef_sameBut _) (by decide) hstart)
    · exact hstart
  have htested := frame (absenceTest_sameBut (s.linesFrm frm)) (by decide) hfrm
  have hcue0 := cues (s.ref.rises0 c0) .cue0 (frame (cuesSampled_sameBut (s.linesTested frm) c0 c1) (by decide) htested)
  rw [linesSampled_eq]
  exact (cues (s.ref.rises1 c1) .cue1 hcue0).1

/-! ### What the lines send -/

/-- What FRM, the absence test and the cue lines send at a house sample. -/
def State.lineSignals (s : State) (frm c0 c1 : Bool) : List Signal :=
  (if s.ref.tick.accepts frm then
      [.report frameRefSource (!(s.ref.tick.frmTaken frm).present && s.anyFrameGroup)]
        ++ (List.finRange 4).flatMap (s.sampleCleared.cueSignals (fun g => g.source == .frame && g.armed))
    else [])
    ++ (if s.absentNext frm then [.report frameRefSource (!(s.refTested frm).present && s.anyFrameGroup)] else [])
    ++ (if s.ref.rises0 c0 then (List.finRange 4).flatMap (s.sampleCleared.cueSignals (fun g => g.source == .cue0)) else [])
    ++ if s.ref.rises1 c1 then (List.finRange 4).flatMap (s.sampleCleared.cueSignals (fun g => g.source == .cue1)) else []

theorem anyFrameGroup_of_sources (h : ∀ g, (t.group g).source = (s.group g).source) : t.anyFrameGroup = s.anyFrameGroup := by
  have hlist (u : State) : u.groups.toList = (List.finRange 4).map u.group := by
    rw [toList_eq_map_finRange]; rfl
  unfold State.anyFrameGroup
  rw [hlist, hlist, List.any_map, List.any_map]
  exact congrArg (List.any (List.finRange 4)) (funext fun g => by simp only [Function.comp, h g])

theorem linesFrm_cued (s : State) (frm : Bool) (g : Fin 4) : ∃ b, CuedBetween g s.sampleCleared.ref.hsc b s.sampleCleared (s.linesFrm frm) :=
  ⟨_, sampleFrm_cued s.sampleCleared frm g⟩

theorem sampleCleared_source (s : State) (g : Fin 4) : (s.sampleCleared.group g).source = (s.group g).source := by rw [sampleCleared_group]

theorem linesFrm_anyFrameGroup (s : State) (frm : Bool) : (s.linesFrm frm).anyFrameGroup = s.anyFrameGroup := by
  refine anyFrameGroup_of_sources (fun g => ?_)
  obtain ⟨b, hb⟩ := linesFrm_cued s frm g
  exact hb.source.trans (sampleCleared_source s g)

theorem reportFrameRef_runs (s : State) : Runs [.report frameRefSource (!s.ref.present && s.anyFrameGroup)] s s.reportFrameRef :=
  .report s frameRefSource_level _

theorem sampleFrm_runs (s : State) (frm : Bool) : Runs
    (if s.ref.accepts frm then
      [.report frameRefSource (!(s.ref.frmTaken frm).present && s.anyFrameGroup)]
        ++ (List.finRange 4).flatMap (s.cueSignals (fun g => g.source == .frame && g.armed))
    else []) s (s.sampleFrm frm) := by
  have hsame (g : Fin 4) : SameGroup g s (s.frmSampled frm).reportFrameRef :=
    (sameGroup_of_sameBut (frmSampled_sameBut s frm) (by decide) g).trans (sameGroup_of_sameBut (reportFrameRef_sameBut _) (by decide) g)
  have hsignals : (s.frmSampled frm).reportFrameRef.cueSignals (fun g => g.source == .frame && g.armed)
      = s.cueSignals (fun g => g.source == .frame && g.armed) :=
    funext fun g => cueSignals_congr (by rw [(hsame g).group]) (hsame g).members
  have hclock : Runs [] s (s.frmSampled frm) := .clock (frmSampled_sameBut s frm) (frmTaken_hsc s.ref frm)
  have hreport : Runs [.report frameRefSource (!(s.ref.frmTaken frm).present && s.anyFrameGroup)] s (s.frmSampled frm).reportFrameRef :=
    hclock.trans (reportFrameRef_runs (s.frmSampled frm))
  have hacc : s.frmAccepted frm = s.ref.accepts frm := rfl
  rw [sampleFrm_eq, hacc]
  split
  · exact hreport.trans (by rw [← hsignals]; exact cueGroups_runs _ _ _)
  · exact hclock

theorem absenceTest_runs (s : State) : Runs (if !s.ahead.contains .frameRef && s.ref.absenceDue then [.report frameRefSource s.anyFrameGroup] else [])
    s s.absenceTest := by
  unfold State.absenceTest
  split
  · have hclock : Runs [] s { s with ref := { s.ref with present := false, run := 0 } } := .clock (withRef_sameBut s _) rfl
    exact hclock.trans (reportFrameRef_runs { s with ref := { s.ref with present := false, run := 0 } })
  · exact runs_refl s

theorem cuesOf_runs (s : State) (b : Bool) (src : CueSource) :
    Runs (if b then (List.finRange 4).flatMap (s.cueSignals (fun g => g.source == src)) else []) s (s.cuesOf b src) := by
  unfold State.cuesOf
  split
  · exact cueGroups_runs s _ _
  · exact runs_refl s

/-- Behind the stages before it a cue line finds the groups' sources and members as they stood. -/
theorem cueSignals_of_cued {time : Stamp} {src : CueSource} (h : ∀ g, ∃ b, CuedBetween g time b s t) :
    t.cueSignals (fun g => g.source == src) = s.cueSignals (fun g => g.source == src) := by
  funext g
  obtain ⟨b, hb⟩ := h g
  exact cueSignals_congr (by rw [hb.source]) hb.members

theorem linesSampled_runs (s : State) (frm c0 c1 : Bool) : Runs (s.lineSignals frm c0 c1) s.sampleCleared (s.linesSampled frm c0 c1) := by
  have hgroups : ∀ g, (s.sampleCleared.group g).source = (s.group g).source := sampleCleared_source s
  have h1 := sampleFrm_runs s.sampleCleared frm
  rw [sampleCleared_ref, anyFrameGroup_of_sources hgroups] at h1
  have h2 := absenceTest_runs (s.linesFrm frm)
  have habsent : (if !(s.linesFrm frm).ahead.contains .frameRef && (s.linesFrm frm).ref.absenceDue then [Signal.report frameRefSource (s.linesFrm frm).anyFrameGroup] else [])
      = if s.absentNext frm then [.report frameRefSource (!(s.refTested frm).present && s.anyFrameGroup)] else [] := by
    rw [linesFrm_ahead, linesFrm_ref, linesFrm_anyFrameGroup, ← State.absentNext]
    unfold State.refTested
    split <;> rfl
  rw [habsent] at h2
  have htested (g : Fin 4) : ∃ b, CuedBetween g s.sampleCleared.ref.hsc b s.sampleCleared ((s.linesTested frm).cuesSampled c0 c1) := by
    obtain ⟨b, hb⟩ := linesFrm_cued s frm g
    exact ⟨b, (hb.before (absenceTest_same _ g)).before (sameGroup_of_sameBut (cuesSampled_sameBut _ c0 c1) (by decide) g)⟩
  have hcue0 (g : Fin 4) : ((s.linesCue0 frm c0 c1).group g).source = (s.sampleCleared.group g).source
      ∧ (s.linesCue0 frm c0 c1).members g = s.sampleCleared.members g := by
    obtain ⟨b, hb⟩ := htested g
    have hc := cuesOf_cued ((s.linesTested frm).cuesSampled c0 c1) (s.ref.rises0 c0) .cue0 g
    exact ⟨hc.source.trans hb.source, hc.members.trans hb.members⟩
  have hclock : Runs [] (s.linesTested frm) ((s.linesTested frm).cuesSampled c0 c1) := .clock (cuesSampled_sameBut _ c0 c1) rfl
  have h3 := hclock.trans (cuesOf_runs ((s.linesTested frm).cuesSampled c0 c1) (s.ref.rises0 c0) .cue0)
  rw [cueSignals_of_cued htested] at h3
  have h4 := cuesOf_runs (s.linesCue0 frm c0 c1) (s.ref.rises1 c1) .cue1
  have hsig4 : (s.linesCue0 frm c0 c1).cueSignals (fun g => g.source == .cue1) = s.sampleCleared.cueSignals (fun g => g.source == .cue1) :=
    funext fun g => cueSignals_congr (by rw [(hcue0 g).1]) (hcue0 g).2
  rw [hsig4, ← linesSampled_eq] at h4
  exact ((h1.trans h2).trans h3).trans h4

end Sys2Proof.Machine
end

