-- ==== Sys2Proof/Proofs/SampleSignals.lean ====
section
/-! PROOFS. What a house sample sends to each source and each counter, in order (R10, R29, R84, R92, R99, R136). -/

namespace Sys2Proof.Machine

variable {s t : State} {p : Fin 8} {n : Fin 59}

/-! ### The signals of a house sample -/

/-- The signals of a house sample that no block end precedes. -/
def State.sampleSignals (s : State) (frm c0 c1 : Bool) : List Signal :=
  (List.finRange 8).flatMap (fun l => readSignals (s.link l).conv l) ++ (List.finRange 8).flatMap s.sampleRead.shareSignals
    ++ s.lineSignals frm c0 c1

/-- A house sample that is taken. -/
theorem houseSample_next {frm c0 c1 : Bool} (hs : s.startUp = false) (h : exec (.houseSample frm c0 c1) s = .next t) :
    s.extentOutside? = none ∧ t = s.takeHouseSample frm c0 c1 := by
  cases he : s.extentOutside? with
  | some p =>
    have hfault : exec (.houseSample frm c0 c1) s = .fault (.extentOutsideMemory p) := by
      simp only [exec, execHouseSample, hs, Bool.false_eq_true, if_false, he]
    rw [hfault] at h
    cases h
  | none =>
    rw [exec_houseSample hs he, Host.Outcome.next.injEq] at h
    exact ⟨rfl, h.symm⟩

theorem takeHouseSample_runs (h : s.blockEndDue = false) (frm c0 c1 : Bool) :
    Runs (s.sampleSignals frm c0 c1) s.ticked (s.takeHouseSample frm c0 c1) := by
  obtain ⟨a, ha⟩ := takeHouseSample_lines h frm c0 c1
  rw [ha]
  exact ((sampleCleared_runs s).trans (linesSampled_runs s frm c0 c1)).before (withAhead_sameBut _ a)

theorem takeHouseSample_ref (h : s.blockEndDue = false) (frm c0 c1 : Bool) :
    (s.takeHouseSample frm c0 c1).ref = { s.refTested frm with cue0Prev := c0, cue1Prev := c1 } := by
  obtain ⟨a, ha⟩ := takeHouseSample_lines h frm c0 c1
  rw [ha]
  exact linesSampled_ref s frm c0 c1

theorem takeHouseSample_hsc (h : s.blockEndDue = false) (frm c0 c1 : Bool) : (s.takeHouseSample frm c0 c1).ref.hsc = s.ref.tick.hsc := by
  rw [takeHouseSample_ref h]
  exact (refTested_rest s frm).1

/-! ### At one source -/

theorem takeHouseSample_source (h : s.blockEndDue = false) (frm c0 c1 : Bool) (hn : n ≠ counterSource) :
    (s.takeHouseSample frm c0 c1).source n = (sigAt n (s.sampleSignals frm c0 c1)).foldl (Signal.atSource s.ref.tick.hsc n) (s.source n) := by
  rw [(takeHouseSample_runs h frm c0 c1).source hn, foldl_atSource_filter]
  rfl

theorem readSignals_elsewhere {l : Fin 8} (h : n ≠ slipSource l) (c : Converter) : sigAt n (readSignals c l) = [] := by
  unfold readSignals
  simp only [sigAt_ite, sigAt_cons, sigAt_nil, Signal.reaches, h, beq_iff_eq, Bool.false_eq_true, if_false, ite_self]

theorem readSignals_slip (c : Converter) (l : Fin 8) : sigAt (slipSource l) (readSignals c l) = if c.read.slip = true then [.latch (slipSource l)] else [] := by
  unfold readSignals
  simp only [sigAt_ite, sigAt_cons, sigAt_nil, Signal.reaches, beq_self_eq_true, Bool.false_eq_true, if_false, if_true]

theorem shareSignals_elsewhere (h : n ≠ moveSource p) (s : State) : sigAt n (s.shareSignals p) = [] := by
  have hskips (k : Nat) : sigAt n (List.replicate k (Signal.count .gainSkipped (some p) 1)) = [] :=
    List.filter_eq_nil_iff.mpr (fun x hx => by rw [List.eq_of_mem_replicate hx]; exact Bool.false_ne_true)
  unfold State.shareSignals
  cases s.liveIndex? p with
  | none => rfl
  | some w =>
    dsimp only
    rw [sigAt_append, sigAt_ite, sigAt_ite, steppedSignals_elsewhere h, hskips, sigAt_nil, ite_self, ite_self]
    rfl

/-- A programme's share reaches its MOVE source as its move step does. -/
theorem shareSignals_move (s : State) (p : Fin 8) : sigAt (moveSource p) (s.shareSignals p)
    = if s.stepsAt p = true then sigAt (moveSource p) ((s.prog p).steppedSignals p s.ref.hsc) else [] := by
  have hskips (k : Nat) : sigAt (moveSource p) (List.replicate k (Signal.count .gainSkipped (some p) 1)) = [] :=
    List.filter_eq_nil_iff.mpr (fun x hx => by rw [List.eq_of_mem_replicate hx]; exact Bool.false_ne_true)
  unfold State.shareSignals State.stepsAt
  cases s.liveIndex? p with
  | none => rfl
  | some w =>
    dsimp only
    rw [sigAt_append, sigAt_ite (moveSource p) (b := s.ahead.contains (.gain p) = true), hskips, sigAt_nil, ite_self, List.append_nil, sigAt_ite]
    cases s.ahead.contains (.move p) <;> rfl

/-- What reaches FRAME_REF at a house sample: the report of an accepted edge, and that of the absence test. -/
def State.frameReports (s : State) (frm : Bool) : List Signal :=
  (if s.ref.tick.accepts frm then [.report frameRefSource (!(s.ref.tick.frmTaken frm).present && s.anyFrameGroup)] else [])
    ++ if s.absentNext frm then [.report frameRefSource (!(s.refTested frm).present && s.anyFrameGroup)] else []

theorem flatMap_cueSignals_elsewhere (n : Fin 59) (s : State) (cued : CueGroup → Bool) : sigAt n ((List.finRange 4).flatMap (s.cueSignals cued)) = [] :=
  sigAt_flatMap_of_none (fun g => cueSignals_elsewhere n s cued g)

theorem lineSignals_at (n : Fin 59) (s : State) (frm c0 c1 : Bool) :
    sigAt n (s.lineSignals frm c0 c1) = if n = frameRefSource then s.frameReports frm else [] := by
  have hreport (v : Bool) : sigAt n [Signal.report frameRefSource v] = if n = frameRefSource then [.report frameRefSource v] else [] := by
    simp only [sigAt_cons, sigAt_nil, Signal.reaches, beq_iff_eq]
  unfold State.lineSignals State.frameReports
  rw [sigAt_append, sigAt_append, sigAt_append, sigAt_ite, sigAt_append, sigAt_ite, sigAt_ite, sigAt_ite, flatMap_cueSignals_elsewhere,
    flatMap_cueSignals_elsewhere, flatMap_cueSignals_elsewhere, hreport, hreport, sigAt_nil, ite_self, ite_self, List.append_nil, List.append_nil,
    List.append_nil]
  by_cases h : n = frameRefSource
  · rw [if_pos h, if_pos h, if_pos h]
  · rw [if_neg h, if_neg h, if_neg h, ite_self, ite_self]; rfl

theorem slipSource_elsewhere (l : Fin 8) : (∀ p, slipSource l ≠ moveSource p) ∧ slipSource l ≠ frameRefSource :=
  ⟨fun p => (linkSource_not_meterSource (l := l) (by simp) p).2, fun h => (frameRefSource_of_no_other l).1 (by rw [← h]; simp)⟩

theorem sampleSignals_at_slip (s : State) (frm c0 c1 : Bool) (l : Fin 8) :
    sigAt (slipSource l) (s.sampleSignals frm c0 c1) = if (s.link l).conv.read.slip = true then [.latch (slipSource l)] else [] := by
  obtain ⟨hmove, hframe⟩ := slipSource_elsewhere l
  unfold State.sampleSignals
  rw [sigAt_append, sigAt_append, sigAt_flatMap_of_one (i := l) (fun k hk => readSignals_elsewhere (fun h => hk (linkSources_disjoint (n := slipSource l) (by simp) (by simp [h]))) _),
    sigAt_flatMap_of_none (fun k => shareSignals_elsewhere (hmove k) _), lineSignals_at, if_neg hframe, readSignals_slip, List.append_nil, List.append_nil]

theorem sampleSignals_at_move (s : State) (frm c0 c1 : Bool) (p : Fin 8) : sigAt (moveSource p) (s.sampleSignals frm c0 c1)
    = if s.sampleRead.stepsAt p = true then sigAt (moveSource p) ((s.prog p).steppedSignals p s.ref.tick.hsc) else [] := by
  have hslip (l : Fin 8) : moveSource p ≠ slipSource l := fun h => (slipSource_elsewhere l).1 p h.symm
  have hframe : moveSource p ≠ frameRefSource := fun h => (frameRefSource_of_no_other p).2.2 h.symm
  unfold State.sampleSignals
  rw [sigAt_append, sigAt_append, sigAt_flatMap_of_none (fun l => readSignals_elsewhere (hslip l) _),
    sigAt_flatMap_of_one (fun k hk => shareSignals_elsewhere (fun h => hk (moveSource_injective h).symm) _), lineSignals_at, if_neg hframe,
    List.append_nil, List.nil_append, shareSignals_move, sampleRead_prog, sampleRead_ref]

theorem sampleSignals_at_frameRef (s : State) (frm c0 c1 : Bool) : sigAt frameRefSource (s.sampleSignals frm c0 c1) = s.frameReports frm := by
  unfold State.sampleSignals
  rw [sigAt_append, sigAt_append, sigAt_flatMap_of_none (fun l => readSignals_elsewhere (fun h => (slipSource_elsewhere l).2 h.symm) _),
    sigAt_flatMap_of_none (fun p => shareSignals_elsewhere (frameRefSource_of_no_other p).2.2 _), lineSignals_at, if_pos rfl]
  rfl

/-! ### At the counters -/

theorem readSignals_counts (c : Converter) (l : Fin 8) : CountsWithin [.slip] (readSignals c l) := by
  unfold readSignals
  split <;> simp [CountsWithin, Signal.sent]

theorem readSignals_sentOf (c : Converter) (l : Fin 8) : sentOf .slip (readSignals c l) = if c.read.slip = true then [(.slip, some l, 1)] else [] := by
  unfold readSignals
  rw [sentOf_ite, sentOf_count, if_pos rfl, sentOf_latch, sentOf_nil]

theorem skips_counts (p : Fin 8) (k : Nat) : CountsWithin [.gainSkipped] (List.replicate k (Signal.count .gainSkipped (some p) 1)) := by
  intro x hx
  obtain ⟨y, hy, hyx⟩ := List.mem_filterMap.mp hx
  rw [List.eq_of_mem_replicate hy] at hyx
  cases hyx
  simp

theorem shareSignals_counts (s : State) (p : Fin 8) : CountsWithin (.gainSkipped :: moveCounts) (s.shareSignals p) := by
  have hnil (es : List CountEvent) : CountsWithin es [] := fun _ hx => absurd hx List.not_mem_nil
  unfold State.shareSignals
  cases s.liveIndex? p with
  | none => exact hnil _
  | some w =>
    refine CountsWithin.append ?_ ?_
    · split
      · exact hnil _
      · exact (steppedSignals_counts _ p _).mono (by decide)
    · split
      · exact hnil _
      · exact (skips_counts p _).mono (by decide)

theorem lineSignals_counts (s : State) (frm c0 c1 : Bool) : CountsWithin [.cueTaken] (s.lineSignals frm c0 c1) := by
  have hnil : CountsWithin [.cueTaken] [] := fun _ hx => absurd hx List.not_mem_nil
  have hreport (v : Bool) : CountsWithin [.cueTaken] [Signal.report frameRefSource v] := fun _ hx => absurd hx List.not_mem_nil
  have hcues (cued : CueGroup → Bool) : CountsWithin [.cueTaken] ((List.finRange 4).flatMap (s.sampleCleared.cueSignals cued)) :=
    countsWithin_flatMap (fun g => cueSignals_counts _ cued g) _
  have hite {b : Bool} {l : List Signal} (h : CountsWithin [.cueTaken] l) : CountsWithin [.cueTaken] (if b then l else []) := by
    split
    · exact h
    · exact hnil
  exact (((hite ((hreport _).append (hcues _))).append (hite (hreport _))).append (hite (hcues _))).append (hite (hcues _))

theorem takeHouseSample_counter (h : s.blockEndDue = false) (frm c0 c1 : Bool) {c : Fin 8} {e : CountEvent} (he : e ≠ .alarmRaise)
    (hc : (s.counter c).event = some e) :
    (s.takeHouseSample frm c0 c1).counter c = (s.counter c).offerAll (sentOf e (s.sampleSignals frm c0 c1)) := by
  have hticked : s.ticked.counter c = s.counter c := rfl
  have hruns := (takeHouseSample_runs h frm c0 c1).counter (c := c) (by rw [hticked, hc]; simpa using he)
  rw [hticked, Counter.offerAll_filter hc, ← sentOf] at hruns
  exact hruns

theorem sentOf_sampleSignals_slip (s : State) (frm c0 c1 : Bool) : sentOf .slip (s.sampleSignals frm c0 c1)
    = ((List.finRange 8).filter (fun l => (s.link l).conv.read.slip)).map (fun l => (.slip, some l, 1)) := by
  unfold State.sampleSignals
  rw [sentOf_append, sentOf_append, sentOf_flatMap (fun l => readSignals_sentOf _ l),
    (countsWithin_flatMap (shareSignals_counts _) _).none_of (by decide), (lineSignals_counts s frm c0 c1).none_of (by decide), List.append_nil,
    List.append_nil]

theorem sentOf_sampleSignals_lines (s : State) (frm c0 c1 : Bool) : sentOf .cueTaken (s.sampleSignals frm c0 c1) = sentOf .cueTaken (s.lineSignals frm c0 c1) := by
  unfold State.sampleSignals
  rw [sentOf_append, sentOf_append, (countsWithin_flatMap (fun l => readSignals_counts _ l) _).none_of (by decide),
    (countsWithin_flatMap (shareSignals_counts _) _).none_of (by decide), List.nil_append, List.nil_append]

theorem sentOf_sampleSignals_skips (s : State) (frm c0 c1 : Bool) : sentOf .gainSkipped (s.sampleSignals frm c0 c1)
    = sentOf .gainSkipped ((List.finRange 8).flatMap s.sampleRead.shareSignals) := by
  unfold State.sampleSignals
  rw [sentOf_append, sentOf_append, (countsWithin_flatMap (fun l => readSignals_counts _ l) _).none_of (by decide),
    (lineSignals_counts s frm c0 c1).none_of (by decide), List.append_nil, List.nil_append]

end Sys2Proof.Machine
end

