-- ==== Sys2Proof/Proofs/OutputReads.lean ====
section
/-! PROOFS. The output reads: the interpolation, what a read removes and keeps, and the slips of a house sample (R16, R17, R29). -/

namespace Sys2Proof.Machine

variable {s t : State}

/-! ### Interpolation (R16) -/

/-- The weighted sum of two samples lies between their multiples. -/
theorem weighted_between {phi : Nat} (h : phi < 1048576) (a b : Int) :
    min a b * (1048576 : Nat) ≤ a * (((1048576 : Nat) : Int) - phi) + b * phi ∧ a * (((1048576 : Nat) : Int) - phi) + b * phi ≤ max a b * (1048576 : Nat) := by
  have hphi : (0 : Int) ≤ ((1048576 : Nat) : Int) - phi := by omega
  have split (x : Int) : x * (1048576 : Nat) = x * (((1048576 : Nat) : Int) - phi) + x * phi := by ring
  rw [split (min a b), split (max a b)]
  exact ⟨add_le_add (mul_le_mul_of_nonneg_right (min_le_left a b) hphi) (mul_le_mul_of_nonneg_right (min_le_right a b) (by omega)),
    add_le_add (mul_le_mul_of_nonneg_right (le_max_left a b) hphi) (mul_le_mul_of_nonneg_right (le_max_right a b) (by omega))⟩

theorem interpolate_toInt {phi : Nat} (h : phi < 1048576) (a b : Sample) :
    (interpolate phi a b).toInt = roundDiv (a.toInt * (((1048576 : Nat) : Int) - phi) + b.toInt * phi) 1048576
      ∧ min a.toInt b.toInt ≤ (interpolate phi a b).toInt ∧ (interpolate phi a b).toInt ≤ max a.toInt b.toInt := by
  obtain ⟨hlo, hhi⟩ := weighted_between h a.toInt b.toInt
  obtain ⟨h1, h2⟩ := roundDiv_bounds (d := 1048576) (by decide) hlo hhi
  have ha := sample_bounds a
  have hb := sample_bounds b
  have hval : interpolate phi a b = BitVec.ofInt 24 (roundDiv (a.toInt * (((1048576 : Nat) : Int) - phi) + b.toInt * phi) 1048576) := rfl
  have heq : (interpolate phi a b).toInt = roundDiv (a.toInt * (((1048576 : Nat) : Int) - phi) + b.toInt * phi) 1048576 := by
    rw [hval]
    exact toInt_ofInt_of_range (by omega) (by omega)
  exact ⟨heq, by rw [heq]; exact h1, by rw [heq]; exact h2⟩

theorem interpolate_self {phi : Nat} (h : phi < 1048576) (a : Sample) : interpolate phi a a = a := by
  obtain ⟨-, h1, h2⟩ := interpolate_toInt h a a
  rw [min_self] at h1
  rw [max_self] at h2
  exact BitVec.eq_of_toInt_eq (le_antisymm h2 h1)

/-! ### One read (R16, R29) -/

section
variable {c : Converter} {k : Lock}

theorem readOnce_of_nonempty (h : c.fifo ≠ []) (ratio : Nat) : ∀ m phi last rest, m = (c.readPhase + ratio) / 1048576 →
    phi = (c.readPhase + ratio) % 1048576 → last = (if m = 0 then c.lastRead else (c.fifo.take m).getLast?) → rest = c.fifo.drop m →
    c.readOnce ratio = { conv := { c with fifo := rest, readPhase := phi, lastRead := last }, frame := convertedFrame phi last rest.head?
                         sounding := true, slip := false } := by
  rintro m phi last rest hm rfl rfl rfl
  have hlast : ((c.fifo.take m).getLast?).orElse (fun _ => c.lastRead) = if m = 0 then c.lastRead else (c.fifo.take m).getLast? := by
    by_cases hz : m = 0
    · rw [hz, if_pos rfl, List.take_zero]; rfl
    · rw [if_neg hz]
      have hne : c.fifo.take m ≠ [] := by simp [List.take_eq_nil_iff, hz, h]
      rw [List.getLast?_eq_some_getLast hne]; rfl
  unfold Converter.readOnce
  rw [if_neg (by simpa using h)]
  dsimp only
  rw [show (c.readPhase + ratio) / Config.unit20 = m from hm.symm, hlast]

theorem read_of_no_lock (h : c.state.lock? = none ∨ ∃ k b, c.state = .holdover k b ∧ c.fifo = []) :
    c.read = { conv := c, frame := silentFrame, sounding := false, slip := false } := by
  unfold Converter.read
  rcases h with h | ⟨k, b, hs, hf⟩
  · cases hs : c.state with
    | off => rfl
    | seek => rfl
    | acquire _ _ => rfl
    | locked k => rw [hs] at h; cases h
    | holdover k b => rw [hs] at h; cases h
  · rw [hs]
    simp only [Converter.readOnce, hf, List.isEmpty_nil, if_true]

/-- A read with a lock is the plain read, but for what follows an underflow in LOCKED. -/
theorem read_of_lock (h : c.state.lock? = some k) :
    (c.read.frame = (c.readOnce k.ratio).frame ∧ c.read.sounding = (c.readOnce k.ratio).sounding)
    ∧ (c.state ≠ .locked k ∨ 4 ≤ (c.readOnce k.ratio).conv.fifo.length → c.read = c.readOnce k.ratio)
    ∧ (c.state = .locked k → (c.readOnce k.ratio).conv.fifo.length ≤ 3 →
        c.read.conv = { refill (c.readOnce k.ratio).conv with slipCount := c.slipCount + 1 } ∧ c.read.slip = true) := by
  unfold Converter.read
  cases hs : c.state with
  | off => rw [hs] at h; cases h
  | seek => rw [hs] at h; cases h
  | acquire _ _ => rw [hs] at h; cases h
  | holdover j b =>
    rw [hs] at h
    cases h
    exact ⟨⟨rfl, rfl⟩, fun _ => rfl, fun hc => by cases hc⟩
  | locked j =>
    rw [hs] at h
    cases h
    dsimp only
    by_cases h3 : (c.readOnce k.ratio).conv.fifo.length ≤ 3
    · rw [if_pos h3]
      exact ⟨⟨rfl, rfl⟩, fun hc => absurd rfl (hc.resolve_right (by omega)), fun _ _ => ⟨rfl, rfl⟩⟩
    · rw [if_neg h3]
      exact ⟨⟨rfl, rfl⟩, fun _ => rfl, fun _ hc => absurd hc h3⟩

end

/-! ### The slips of a house sample (R29) -/

theorem takeHouseSample_slips (h : s.blockEndDue = false) (frm c0 c1 : Bool) (l : Fin 8) :
    ((s.link l).conv.read.slip = true → s.latchedIn (slipSource l) 1 s.ref.tick.hsc (s.takeHouseSample frm c0 c1))
    ∧ ((s.link l).conv.read.slip = false → (s.takeHouseSample frm c0 c1).source (slipSource l) = s.source (slipSource l)) := by
  have hsource := takeHouseSample_source h frm c0 c1 (slipSource_ne_counterSource l)
  rw [sampleSignals_at_slip] at hsource
  refine ⟨fun hslip => latchedIn_of_source (by decide) ?_, fun hslip => ?_⟩
  · rw [if_pos hslip, List.foldl_cons, List.foldl_nil, atSource_latch] at hsource
    exact hsource
  · rw [if_neg (by rw [hslip]; decide)] at hsource
    exact hsource

theorem takeHouseSample_link (h : s.blockEndDue = false) (frm c0 c1 : Bool) (l : Fin 8) :
    (s.takeHouseSample frm c0 c1).link l = { s.link l with conv := (s.link l).conv.read.conv } := by
  obtain ⟨a, ha⟩ := takeHouseSample_lines h frm c0 c1
  have hlines : s.sampleCleared.links = (s.linesSampled frm c0 c1).links :=
    ((sampleFrm_sameBut s.sampleCleared frm .links (by decide)).trans (absenceTest_sameBut (s.linesFrm frm) .links (by decide))).trans
      (sampleCues_sameBut (s.linesTested frm) c0 c1 .links (by decide))
  rw [ha, ← sampleCleared_link]
  exact State.link_congr hlines.symm l

/-- Settles O16: a read is the plain read of the FIFO by the phase, followed in LOCKED by the refill and slip of an underflow; a house
sample takes every converter's read, and each slip is latched and counted. -/
theorem outputReadsConvertTheFifo : Obligations.OutputReadsConvertTheFifo := by
  unfold Obligations.OutputReadsConvertTheFifo
  refine ⟨fun phi a b hphi => ?_, fun c h => read_of_no_lock h, fun c k hk hf m phi last rest hm hphi hlast hrest => ?_,
    fun s t frm c0 c1 hs hb h => ?_⟩
  · obtain ⟨heq, hlo, hhi⟩ := interpolate_toInt hphi a b
    refine ⟨fun n hn => ?_, hlo, hhi, interpolate_self hphi a⟩
    rw [heq, hn]
    rfl
  · have honce := readOnce_of_nonempty hf k.ratio m phi last rest hm hphi hlast hrest
    obtain ⟨⟨hframe, hsound⟩, hplain, hslip⟩ := read_of_lock hk
    rw [honce] at hframe hsound hplain hslip
    refine ⟨hsound, fun a b ha hb j => ?_, fun a ha hr => ?_, fun b hl hb => ?_, fun hc => ?_, fun hc h3 a ha => ?_⟩
    · rw [hframe, ha, hb]
      simp [convertedFrame]
    · rw [hframe, ha, hr]; rfl
    · rw [hframe, hl, hb]; rfl
    · rw [hplain hc]; exact ⟨rfl, rfl⟩
    · obtain ⟨hconv, hs⟩ := hslip hc h3
      refine ⟨?_, hs⟩
      rw [hconv, refill_of_lastRead (c := { c with fifo := rest, readPhase := phi, lastRead := last }) ha]
  · obtain ⟨-, rfl⟩ := houseSample_next hs h
    refine ⟨fun l => ?_, fun c hc => ?_⟩
    · rw [takeHouseSample_link hb, takeHouseSample_hsc hb]
      obtain ⟨hlatch, hsame⟩ := takeHouseSample_slips hb frm c0 c1 l
      exact ⟨rfl, rfl, hlatch, hsame⟩
    · rw [takeHouseSample_counter hb frm c0 c1 (by decide) hc, sentOf_sampleSignals_slip, offerAll_map]

end Sys2Proof.Machine
end

