-- ==== Sys2Proof/Proofs/FrameReference.lean ====
section
/-! PROOFS. The frame reference: its edges, its absence, and the law that the steps keep (R90 to R92). -/

namespace Sys2Proof.Machine

variable {s t : State} {r : RefUnit} {e : Stamp}

/-! ### The reference unit -/

/-- A house sample counted reaches only the clock of the reference unit. -/
theorem tick_eq (r : RefUnit) : r.tick = { r with started := r.tick.started, hsc := r.tick.hsc, phase := r.tick.phase, blockEndTaken := r.tick.blockEndTaken } := by
  unfold RefUnit.tick
  split <;> rfl

theorem absenceDue_iff (r : RefUnit) : r.absenceDue = true ↔ r.present = true
    ∧ ∃ e, r.edgeAccepted = some e ∧ max (3 * (r.history.getLast?).getD 0) 9600 ≤ (r.hsc - e).toNat := by
  unfold RefUnit.absenceDue RefUnit.absenceLimit
  cases r.edgeAccepted with
  | none => simp
  | some e => simp

theorem acceptedInterval_of_edge (h : r.edgePrev = some e) : r.acceptedInterval
    = if 768 ≤ (r.hsc - e).toNat ∧ (r.hsc - e).toNat ≤ 2400 then some (r.hsc - e).toNat else none := by
  unfold RefUnit.acceptedInterval
  rw [h]

theorem acceptedInterval_bounds {d : Nat} (h : r.acceptedInterval = some d) : 768 ≤ d ∧ d ≤ 2400 := by
  cases he : r.edgePrev with
  | none => rw [RefUnit.acceptedInterval, he] at h; cases h
  | some e =>
    rw [acceptedInterval_of_edge he] at h
    split at h
    · next hd => cases h; exact hd
    · cases h

theorem frmEdge_of_rejected (h : r.acceptedInterval = none) : r.frmEdge = { r with edgePrev := some r.hsc } := by
  unfold RefUnit.frmEdge
  rw [h]

theorem frmEdge_of_accepted {d : Nat} (h : r.acceptedInterval = some d) : r.frmEdge = { r with
    edgePrev := some r.hsc, edgeAccepted := some r.hsc, history := (r.history ++ [d]).drop ((r.history ++ [d]).length - 5)
    run := if r.run < 2 then r.run + 1 else 2, present := r.present || (if r.run < 2 then r.run + 1 else 2) == 2 } := by
  unfold RefUnit.frmEdge
  rw [h]

theorem isSome_acceptedInterval_iff (r : RefUnit) : r.acceptedInterval.isSome = true
    ↔ ∃ e, r.edgePrev = some e ∧ 768 ≤ (r.hsc - e).toNat ∧ (r.hsc - e).toNat ≤ 2400 := by
  cases he : r.edgePrev with
  | none => simp [RefUnit.acceptedInterval, he]
  | some e =>
    rw [acceptedInterval_of_edge he]
    constructor
    · intro h
      split at h
      · next hd => exact ⟨e, rfl, hd⟩
      · cases h
    · rintro ⟨x, hx, hd⟩
      cases hx
      rw [if_pos hd]
      rfl

/-- The newest five intervals (R90). -/
theorem newest_five {l : List Nat} (h : l.length ≤ 5) (d : Nat) :
    (l ++ [d]).drop ((l ++ [d]).length - 5) = if l.length = 5 then l.drop 1 ++ [d] else l ++ [d] := by
  rw [List.length_append, List.length_singleton]
  by_cases h5 : l.length = 5
  · rw [if_pos h5, h5, List.drop_append_of_le_length (by omega)]
  · rw [if_neg h5, show l.length + 1 - 5 = 0 by omega, List.drop_zero]

/-! ### The law of the reference unit -/

theorem frmEdge_safe (h : r.safe) : r.frmEdge.safe := by
  obtain ⟨hphase, hlen, hhist, hrun, hrunlen, hpresent, hedge⟩ := h
  cases ha : r.acceptedInterval with
  | none => rw [frmEdge_of_rejected ha]; exact ⟨hphase, hlen, hhist, hrun, hrunlen, hpresent, hedge⟩
  | some d =>
    rw [frmEdge_of_accepted ha, newest_five hlen]
    refine ⟨hphase, ?_, ?_, ?_, ?_, ?_, fun _ => rfl⟩
    · dsimp only
      split
      · simp; omega
      · simp; omega
    · intro x hx
      have hmem : x ∈ r.history ∨ x = d := by
        dsimp only at hx
        split at hx
        · rcases List.mem_append.mp hx with hx | hx
          · exact .inl (List.mem_of_mem_drop hx)
          · exact .inr (List.mem_singleton.mp hx)
        · exact (List.mem_append.mp hx).imp id List.mem_singleton.mp
      rcases hmem with hx | rfl
      · exact hhist x hx
      · exact acceptedInterval_bounds ha
    · dsimp only
      split <;> omega
    · dsimp only
      split <;> split <;> simp <;> omega
    · simp only [Bool.or_eq_true, hpresent, beq_iff_eq]
      split <;> omega

theorem refSafe_reads : Reads [.ref] State.refSafe := by
  intro s t he h
  have href : s.ref = t.ref := he .ref (by simp)
  unfold State.refSafe at h ⊢
  rwa [← href]

theorem tick_safe (h : r.safe) : r.tick.safe := by
  obtain ⟨hphase, hrest⟩ := h
  unfold RefUnit.tick
  split
  · refine ⟨?_, hrest⟩
    dsimp only
    split <;> omega
  · exact ⟨hphase, hrest⟩

theorem absent_safe (h : r.safe) : { r with present := false, run := 0 : RefUnit }.safe := by
  obtain ⟨hphase, hlen, hhist, -, -, -, -⟩ := h
  exact ⟨hphase, hlen, hhist, Nat.zero_le 2, Nat.zero_le _, by simp, fun h => absurd h (Nat.lt_irrefl 0)⟩

theorem refTested_safe (h : s.refSafe) (frm : Bool) : (s.refTested frm).safe := by
  have htaken : (s.ref.tick.frmTaken frm).safe := by
    unfold RefUnit.frmTaken
    split
    · exact frmEdge_safe (tick_safe h)
    · exact tick_safe h
  unfold State.refTested
  split
  · exact absent_safe htaken
  · exact htaken

theorem takeBlockEnd_refSafe (h : s.refSafe) : s.takeBlockEnd.refSafe := by
  unfold State.refSafe
  rw [takeBlockEnd_ref]
  exact h

/-- A share of a house sample leaves the reference unit, but that of the absence test, which makes it ABSENT. -/
theorem share_refSafe {f : State → State} (hf : SampleShare s f) (h : s.refSafe) : (s.onSample f).refSafe := by
  have unclocked {x : RefUnit} (hx : x.safe) : { x with started := s.ref.started, hsc := s.ref.hsc, phase := s.ref.phase
                                                        blockEndTaken := s.ref.blockEndTaken : RefUnit }.safe := by
    obtain ⟨-, hrest⟩ := hx
    exact ⟨h.1, hrest⟩
  have htick : State.refSafe { s with ref := s.ref.tick } := tick_safe h
  refine unclocked ?_
  cases hf with
  | move p => exact refSafe_reads.keep (moveStep_sameBut _ p) (by decide) htick
  | gain p w => exact refSafe_reads.keep (gainStep_sameBut _ p w) (by decide) htick
  | absent => exact refSafe_reads.keep (reportFrameRef_sameBut _) (by decide) (absent_safe htick)
  | clear p _ => exact refSafe_reads.keep (clearStep_sameBut _ p) (by decide) htick

theorem refSafe_kept : Kept State.refSafe where
  outside := refSafe_reads.mono (by decide)
  reset _ _ := resetStateIsSafe.2.2.2.2.2.2.1
  request code body s := refSafe_reads.keep (takeRequest_within s body code) (by decide)
  arrive l f ok s := refSafe_reads.keep (arrive_sameBut s l f ok) (by decide)
  discard s := refSafe_reads.keep (sameBut_trans (latch_sameBut s _) (count_sameBut _ _ _ _)) (by decide)
  blockEnd _ := takeBlockEnd_refSafe
  sample s frm c0 c1 hb _ h := by
    unfold State.refSafe
    rw [takeHouseSample_ref hb]
    exact refTested_safe h frm
  share _ _ := share_refSafe
  wait p s := refSafe_reads.keep (cueWaitStep_sameBut s p) (by decide)
  timer n s _ := refSafe_reads.keep (timerStep_sameBut s n) (by decide)
  contact c s := refSafe_reads.keep (contactStep_sameBut s c) (by decide)

/-! ### FRAME_REFERENCE_ABSENT (R91, R92) -/

theorem tick_absenceDue_iff (he : r.edgeAccepted = some e) (hp : r.present = true) :
    r.tick.absenceDue = true ↔ max (3 * (r.history.getLast?).getD 0) 9600 ≤ (r.tick.hsc - e).toNat := by
  rw [absenceDue_iff, tick_eq r]
  simp [he, hp]

/-- The share of the reference unit: ABSENT, and FRAME_REF reported. -/
theorem onSample_becomeAbsent (s : State) : (s.onSample State.becomeAbsent).ref = { s.ref with present := false, run := 0 }
    ∧ ((s.onSample State.becomeAbsent).source frameRefSource).condition = s.anyFrameGroup
    ∧ s.otherSources [frameRefSource] (s.onSample State.becomeAbsent) ∧ s.otherCounters [] (s.onSample State.becomeAbsent)
    ∧ s.sameBut (.ref :: eventParts) (s.onSample State.becomeAbsent) := by
  refine ⟨?_, reportFrameRef_condition { s with ref := { s.ref.tick with present := false, run := 0 } },
    reportFrameRef_otherSources { s with ref := { s.ref.tick with present := false, run := 0 } },
    reportFrameRef_otherCounters { s with ref := { s.ref.tick with present := false, run := 0 } }, ?_⟩
  · have href : (State.becomeAbsent { s with ref := s.ref.tick }).ref = { s.ref.tick with present := false, run := 0 } :=
      ref_of_sameBut (reportFrameRef_sameBut _) (by decide)
    unfold State.onSample
    dsimp only
    rw [href]
    unfold RefUnit.tick
    split <;> rfl
  · exact sameBut_trans (sameBut_trans (sameBut_mono (withRef_sameBut s _) (by decide)) (becomeAbsent_sameBut _))
      (sameBut_mono (withRef_sameBut _ _) (by decide))

/-! ### FRM and the absence test at a house sample (R90 to R92) -/

theorem frameReports_source (h : s.blockEndDue = false) (frm c0 c1 : Bool) : (s.takeHouseSample frm c0 c1).source frameRefSource
    = (s.frameReports frm).foldl (Signal.atSource s.ref.tick.hsc frameRefSource) (s.source frameRefSource) := by
  rw [takeHouseSample_source h frm c0 c1 frameRefSource_ne_counterSource, sampleSignals_at_frameRef]

/-- FRAME_REF is reported at an accepted edge and at the absence test that is met, and not otherwise. -/
theorem frameReports_condition (hsc : Stamp) (s : State) (frm : Bool) (x : Source) :
    ((s.absentNext frm = true ∨ s.ref.tick.accepts frm = true) →
      ((s.frameReports frm).foldl (Signal.atSource hsc frameRefSource) x).condition = (!(s.refTested frm).present && s.anyFrameGroup))
    ∧ (s.absentNext frm = false → s.ref.tick.accepts frm = false → (s.frameReports frm).foldl (Signal.atSource hsc frameRefSource) x = x) := by
  unfold State.frameReports
  cases ha : s.absentNext frm with
  | true =>
    refine ⟨fun _ => ?_, fun h => by cases h⟩
    rw [if_pos rfl, List.foldl_append, List.foldl_cons, List.foldl_nil, atSource_report]
    exact reported_condition _ _ _
  | false =>
    have hsame : s.refTested frm = s.ref.tick.frmTaken frm := if_neg (by rw [ha]; decide)
    rw [hsame]
    cases hc : s.ref.tick.accepts frm with
    | true =>
      refine ⟨fun _ => ?_, fun _ h => by cases h⟩
      rw [if_pos rfl, if_neg (by decide), List.append_nil, List.foldl_cons, List.foldl_nil, atSource_report]
      exact reported_condition _ _ _
    | false => exact ⟨fun h => by simp at h, fun _ _ => rfl⟩

/-- Settles O41: the absence test and the edges act on the reference unit as R90 and R91 say, FRAME_REF follows it, and every step keeps
the unit's law. -/
theorem frameReferenceComesAndGoes : Obligations.FrameReferenceComesAndGoes := by
  unfold Obligations.FrameReferenceComesAndGoes
  refine ⟨fun s e hdue ha hp he hsc hhsc => ?_, fun r e he => ⟨fun hd hrun hlen => ?_, fun hd => ?_⟩, fun r he => ?_,
    fun s t frm c0 c1 hs hb h r hr absent accepted habsent haccepted => ?_, fun s t hs h => refSafe_kept.step hs h⟩
  · have hexec : exec .frameReferenceAbsent s = .next (if s.ref.tick.absenceDue then (s.onSample State.becomeAbsent).markAhead .frameRef else s) := by
      change execFrameReferenceAbsent s = _
      unfold execFrameReferenceAbsent
      rw [hdue, ha]
      rfl
    rw [hexec, hhsc, ← tick_hsc]
    refine ⟨fun hlim => ?_, fun hlim => ?_⟩
    · rw [if_pos ((tick_absenceDue_iff he hp).mpr hlim)]
      obtain ⟨href, hcond, hsources, hcounters, hsame⟩ := onSample_becomeAbsent s
      exact ⟨_, rfl, href, hcond, hsources, hcounters, sameBut_trans (sameBut_mono hsame (by decide)) (sameBut_mono (withAhead_sameBut _ _) (by decide))⟩
    · rw [if_neg (fun hdue => absurd ((tick_absenceDue_iff he hp).mp hdue) (by omega))]
  · rw [frmEdge_of_accepted ((acceptedInterval_of_edge he).trans (if_pos hd)), newest_five hlen]
    have hrun' : (if r.run < 2 then r.run + 1 else 2) = min 2 (r.run + 1) := by split <;> omega
    have hpresent : (min 2 (r.run + 1) == 2) = decide (1 ≤ r.run) := by
      rw [Bool.eq_iff_iff, beq_iff_eq, decide_eq_true_eq]; omega
    rw [hrun', hpresent]
  · exact frmEdge_of_rejected ((acceptedInterval_of_edge he).trans (if_neg (by omega)))
  · exact frmEdge_of_rejected (by rw [RefUnit.acceptedInterval, he])
  · obtain ⟨-, rfl⟩ := houseSample_next hs h
    have htick : s.ref.tick.frmPrev = s.ref.frmPrev ∧ s.ref.tick.edgePrev = s.ref.edgePrev := by rw [tick_eq]; exact ⟨rfl, rfl⟩
    have htaken : s.ref.tick.frmTaken frm = { r with frmPrev := frm } := by
      have hif : (if frm && !s.ref.tick.frmPrev then s.ref.tick.frmEdge else s.ref.tick) = r := by
        rw [hr, htick.1]
        exact if_congr (by simp) rfl rfl
      unfold RefUnit.frmTaken
      rw [hif]
    have hnext : absent ↔ s.absentNext frm = true := by
      rw [habsent, State.absentNext, htaken, Bool.and_eq_true, Bool.not_eq_true', absenceDue_iff]
    have hacc : accepted ↔ s.ref.tick.accepts frm = true := by
      rw [haccepted, RefUnit.accepts, Bool.and_eq_true, Bool.and_eq_true, Bool.not_eq_true', isSome_acceptedInterval_iff, htick.1, htick.2,
        takeHouseSample_hsc hb, and_assoc]
    have href := takeHouseSample_ref hb frm c0 c1
    have hpresent : (s.takeHouseSample frm c0 c1).ref.present = (s.refTested frm).present := by rw [href]
    obtain ⟨hcond, hsame⟩ := frameReports_condition s.ref.tick.hsc s frm (s.source frameRefSource)
    rw [← frameReports_source hb frm c0 c1] at hcond hsame
    rw [hnext, hacc, hpresent, href]
    refine ⟨fun h => ?_, fun h => ?_, hcond, fun h1 h2 => hsame (by simpa using h1) (by simpa using h2)⟩
    · rw [State.refTested, if_pos h, htaken]
    · rw [State.refTested, if_neg h, htaken]

end Sys2Proof.Machine
end

