-- ==== Sys2Proof/Proofs/SampleUnits.lean ====
section
/-! PROOFS. The programmes and groups behind a house sample up to the lines, and the cues that its edges take (R63, R97, R99). -/

namespace Sys2Proof.Machine

variable {s t : State} {p : Fin 8} {g : Fin 4}

/-! ### A move step reaches the move unit alone -/

theorem entered_rest (x : Programme) (r : MoveRecord) (time : Stamp) : x.entered r time = x.withMove (x.entered r time).move := by
  unfold Programme.entered
  split
  · rfl
  · split
    · cases x.group <;> rfl
    · rfl

theorem followed_rest (x : Programme) (r : MoveRecord) (o : MoveOutcome) (time : Stamp) : x.followed r o time = x.withMove (x.followed r o time).move := by
  unfold Programme.followed
  cases x.move.staged with
  | committed c => exact entered_rest (x.withMove { x.move with staged := .empty }) c time
  | empty => rfl
  | draft _ => rfl

theorem ended_rest (x : Programme) (r : MoveRecord) (o : MoveOutcome) (time : Stamp) : x.ended r o time = x.withMove (x.ended r o time).move := by
  exact followed_rest (x.withMove (x.move.written (reportOf r o x.move.dcur time))) r o time

theorem stepped_rest (x : Programme) (time : Stamp) : x.stepped time = x.withMove (x.stepped time).move := by
  unfold Programme.stepped
  cases x.move.state with
  | moving r ph k =>
    dsimp only
    cases (stepRecord r ph k x.move.pos).ends with
    | none => rfl
    | some o => exact ended_rest _ r o time
  | still => rfl
  | cueWait _ _ => rfl
  | readWait _ _ => rfl
  | halted _ => rfl

/-! ### The programmes up to the lines -/

/-- A programme behind its move step of the house sample now due, if it takes one. -/
def State.movedProg (s : State) (p : Fin 8) : Programme := (s.steppedAt s.ref.tick.hsc p).prog p

theorem movedProg_eq (s : State) (p : Fin 8) : s.movedProg p = if s.stepsAt p = true then (s.prog p).stepped s.ref.tick.hsc else s.prog p := by
  unfold State.movedProg State.steppedAt
  split
  · exact prog_moveStep { s with ref := { s.ref with hsc := s.ref.tick.hsc } } p
  · rfl

theorem movedProg_rest (s : State) (p : Fin 8) : s.movedProg p = (s.prog p).withMove (s.movedProg p).move := by
  rw [movedProg_eq]
  split
  · exact stepped_rest _ _
  · rfl

/-- A programme that does not take the sample as LIVE takes no move step of it. -/
theorem movedProg_of_not_live (h : s.liveIndex? p = none) : s.movedProg p = s.prog p := by
  rw [movedProg_eq, State.stepsAt, h]
  rfl

/-- A programme behind the share of its corrector, unless that was taken ahead. -/
def State.gainedProg (s : State) (p : Fin 8) (w : Nat) (x : Programme) : Programme := if s.ahead.contains (.gain p) then x else x.gained w

theorem gainedProg_rest (s : State) (p : Fin 8) (w : Nat) (x : Programme) : s.gainedProg p w x = { x with gain := (s.gainedProg p w x).gain } := by
  unfold State.gainedProg
  split <;> rfl

theorem sampleRead_sampledProg {w : Nat} (hi : s.liveIndex? p = some w) : s.sampleRead.sampledProg p w (s.prog p) = s.gainedProg p w (s.movedProg p) := by
  have hmove : (if s.ahead.contains (.move p) then s.prog p else (s.prog p).stepped s.ref.tick.hsc) = s.movedProg p := by
    rw [movedProg_eq, State.stepsAt, hi]
    cases s.ahead.contains (.move p) <;> rfl
  unfold State.sampledProg State.gainedProg
  rw [sampleRead_ahead, sampleRead_ref, hmove]

theorem clearedProg_of_live {x : Programme} {h : Held} {w : Nat} (hl : x.life = .live h w) : s.clearedProg p x = x := by
  unfold State.clearedProg
  split
  · rfl
  · rw [hl, Life.cleared, ← hl]

/-- A LIVE programme before the lines of a house sample: its units have taken their shares, and its words are written. -/
theorem sampleCleared_prog_of_live {h : Held} {w : Nat} (hl : (s.prog p).life = .live h w) (ha : s.ahead.contains (.clear p) = false) :
    ∃ c, s.sampleCleared.prog p = (s.gainedProg p w (s.movedProg p)).liveSampled s.sampleIns h w c := by
  obtain ⟨c, hc⟩ := sampleProgs_prog_of_live hl ha
  rw [sampleRead_sampledProg (liveIndex_of_live hl ha)] at hc
  refine ⟨c, ?_⟩
  rw [prog_sampleCleared, hc]
  exact clearedProg_of_live (x := (s.gainedProg p w (s.movedProg p)).liveSampled s.sampleIns h w c) rfl

/-- Any other programme has taken its clearing share alone. -/
theorem sampleCleared_prog_of_not_live (h : s.liveIndex? p = none) : s.sampleCleared.prog p = s.clearedProg p (s.prog p) := by
  rw [prog_sampleCleared, sampleProgs_prog_of_not_live h]

theorem clearedProg_rest (s : State) (p : Fin 8) (x : Programme) : s.clearedProg p x = { x with life := (s.clearedProg p x).life } := by
  unfold State.clearedProg
  split <;> rfl

theorem isClosed_cleared (x : Life) : x.cleared.isClosed = x.isClosed := by
  cases x with
  | closed => rfl
  | clearing h left k => rw [Life.cleared]; split_ifs <;> rfl
  | live _ _ => rfl

/-- Before the lines a programme stands as it stood, but for its write index, its clearing, its move step, its corrector's share and the
samples its meter has taken. -/
theorem sampleCleared_prog (s : State) (p : Fin 8) : (s.sampleCleared.prog p).move = (s.movedProg p).move
    ∧ { (s.sampleCleared.prog p).meter with lanes := (s.prog p).meter.lanes } = (s.prog p).meter
    ∧ (s.sampleCleared.prog p).group = (s.prog p).group ∧ (s.sampleCleared.prog p).life.isClosed = (s.prog p).life.isClosed := by
  rcases liveIndex_cases s p with hn | ⟨h, w, hl, ha, hi⟩
  · rw [sampleCleared_prog_of_not_live hn, movedProg_of_not_live hn, clearedProg_rest]
    refine ⟨rfl, rfl, rfl, ?_⟩
    unfold State.clearedProg
    dsimp only
    split
    · rfl
    · exact isClosed_cleared _
  · obtain ⟨c, hc⟩ := sampleCleared_prog_of_live hl ha
    rw [hc, gainedProg_rest, movedProg_rest, hl]
    exact ⟨rfl, rfl, rfl, rfl⟩

theorem sampleCleared_members (s : State) (g : Fin 4) : s.sampleCleared.members g = s.members g := by
  unfold State.members
  refine List.filter_congr fun p _ => ?_
  obtain ⟨-, -, hg, hc⟩ := sampleCleared_prog s p
  rw [hg, hc]

theorem sampleCleared_snap (s : State) (g : Fin 4) : s.sampleCleared.snap g = s.snap g :=
  State.snap_congr (sampleCleared_of_ticked s .snaps (by decide)).symm g

/-! ### The groups up to the lines (R96, R97) -/

theorem steppedAt_group (s : State) (stamp : Stamp) (p : Fin 8) (g : Fin 4) : ((s.steppedAt stamp p).group g).armed
    = ((s.group g).armed || (s.stepsAt p && ((s.prog p).steppedArms stamp == some g))) := by
  unfold State.steppedAt
  cases s.stepsAt p with
  | false => rw [if_neg (by decide), Bool.false_and, Bool.or_false]
  | true =>
    rw [if_pos rfl, State.group_congr (moveStep_groups _ p), armedBy_group]
    rfl

/-- A group stands armed before the lines when it was armed, or a move step of this house sample arms it. -/
theorem sampleCleared_armed_iff (s : State) (g : Fin 4) : (s.sampleCleared.group g).armed = true
    ↔ (s.group g).armed = true ∨ ∃ p, ((s.steppedAt s.ref.tick.hsc p).group g).armed = true := by
  have harms (p : Fin 8) : (s.sampleRead.shareArms p == some g) = (s.stepsAt p && ((s.prog p).steppedArms s.ref.tick.hsc == some g)) := by
    have hsteps : s.sampleRead.stepsAt p = s.stepsAt p := by
      unfold State.stepsAt
      rw [liveIndex_congr (sampleRead_prog s p) (sampleRead_ahead s), sampleRead_ahead]
    unfold State.shareArms
    rw [hsteps, sampleRead_prog, sampleRead_ref]
    cases s.stepsAt p <;> rfl
  have harmed : (s.sampleCleared.group g).armed
      = ((s.group g).armed || (List.finRange 8).any (fun p => s.stepsAt p && ((s.prog p).steppedArms s.ref.tick.hsc == some g))) := by
    have h := congrArg CueGroup.armed (sampleCleared_group s g)
    simp only [harms] at h
    exact h
  rw [harmed, Bool.or_eq_true, List.any_eq_true]
  constructor
  · rintro (h | ⟨p, -, h⟩)
    · exact .inl h
    · exact .inr ⟨p, by rw [steppedAt_group, h, Bool.or_true]⟩
  · rintro (h | ⟨p, h⟩)
    · exact .inl h
    · rw [steppedAt_group, Bool.or_eq_true] at h
      exact h.imp id (fun h => ⟨p, List.mem_finRange p, h⟩)

theorem rises_iff (lvl prev : Bool) : (lvl && !prev) = true ↔ lvl = true ∧ prev = false := by
  rw [Bool.and_eq_true, Bool.not_eq_true']

/-- When a group takes a cue at a house sample (R93, R97). -/
theorem cuedAt_iff (s : State) (frm c0 c1 : Bool) (g : Fin 4) : s.cuedAt frm c0 c1 g = true
    ↔ ((s.group g).source = .cue0 ∧ c0 = true ∧ s.ref.cue0Prev = false)
      ∨ ((s.group g).source = .cue1 ∧ c1 = true ∧ s.ref.cue1Prev = false)
      ∨ ((s.group g).source = .frame ∧ (s.sampleCleared.group g).armed = true ∧ s.ref.tick.accepts frm = true) := by
  unfold State.cuedAt
  rw [sampleCleared_source]
  cases (s.group g).source with
  | none => simp
  | message => simp
  | frame =>
    rw [Bool.and_eq_true]
    constructor
    · rintro ⟨hacc, harmed⟩
      exact .inr (.inr ⟨rfl, harmed, hacc⟩)
    · rintro (⟨h, -⟩ | ⟨h, -⟩ | ⟨-, harmed, hacc⟩)
      · cases h
      · cases h
      · exact ⟨hacc, harmed⟩
  | cue0 => simp [RefUnit.rises0]
  | cue1 => simp [RefUnit.rises1]

theorem accepts_iff (s : State) (frm : Bool) : s.ref.tick.accepts frm = true ↔ frm = true ∧ s.ref.frmPrev = false
    ∧ ∃ e, s.ref.edgePrev = some e ∧ 768 ≤ (s.ref.tick.hsc - e).toNat ∧ (s.ref.tick.hsc - e).toNat ≤ 2400 := by
  have htick : s.ref.tick.frmPrev = s.ref.frmPrev ∧ s.ref.tick.edgePrev = s.ref.edgePrev := by rw [tick_eq]; exact ⟨rfl, rfl⟩
  rw [RefUnit.accepts, Bool.and_eq_true, rises_iff, isSome_acceptedInterval_iff, htick.1, htick.2, and_assoc]

/-! ### The groups at the lines -/

/-- A group along a whole house sample takes its cue, when it is cued, in the state that the shares before the lines leave. -/
theorem takeHouseSample_cued (h : s.blockEndDue = false) (frm c0 c1 : Bool) (g : Fin 4) :
    CuedBetween g s.ref.tick.hsc (s.cuedAt frm c0 c1 g) s.sampleCleared (s.takeHouseSample frm c0 c1) := by
  obtain ⟨a, ha⟩ := takeHouseSample_lines h frm c0 c1
  rw [ha]
  exact (linesSampled_cued s frm c0 c1 g).before (sameGroup_of_sameBut (withAhead_sameBut _ a) (by decide) g)

/-- A cued group between two states: the cue is taken in a state that agrees with the first at the group, and the second agrees with
what the cue leaves there. -/
theorem CuedBetween.took {time : Stamp} (h : CuedBetween g time true s t) :
    t.group g = { s.group g with cueCount := (s.group g).cueCount + 1, armed := false }
    ∧ (∀ p ∈ s.members g, t.prog p = (s.prog p).cued (s.group g).restart)
    ∧ t.snap g = if (s.group g).snapshot = true then
        { snap := some { group := g, cueNumber := (s.group g).cueCount + 1, hsc := time, unread := true
                         members := (s.liveMembers g).map (snapMember s) }
          overrun := (s.snap g).overrun || (s.snap g).snap.any Snapshot.unread }
      else s.snap g := by
  obtain ⟨a, ha, ht⟩ := h
  rw [if_pos rfl] at ht
  have hlive : (a.liveMembers g).map (snapMember a) = (s.liveMembers g).map (snapMember s) := by
    have hfilter : a.liveMembers g = s.liveMembers g := by
      unfold State.liveMembers
      rw [ha.members]
      exact List.filter_congr fun p hp => by rw [ha.progs p hp]
    rw [hfilter]
    refine List.map_congr_left fun p hp => ?_
    have hprog := ha.progs p (List.mem_of_mem_filter hp)
    exact snapMember_of_prog (by rw [hprog]) (by rw [hprog]) (by rw [hprog])
  refine ⟨?_, fun p hp => ?_, ?_⟩
  · rw [ht.group, takeCue_group, if_pos rfl, ha.group]
  · have hmem : p ∈ a.members g := by rw [ha.members]; exact hp
    rw [ht.progs p (by rw [takeCue_members]; exact hmem), takeCue_prog, if_pos hmem, ha.progs p hp, ha.group]
  · rw [ht.snap, takeCue_snap, ha.group, ha.snap, hlive]
    exact if_congr ⟨fun h => h.2, fun h => ⟨rfl, h⟩⟩ rfl rfl

end Sys2Proof.Machine
end

