-- ==== Sys2Proof/Proofs/SampleCues.lean ====
section
/-! PROOFS. CUE.FIRE, and the cues of the edges of a house sample (R93, R97 to R99). -/

namespace Sys2Proof.Machine

variable {s t : State} {p : Fin 8} {g : Fin 4}

/-! ### CUE_TAKEN at a house sample (R99) -/

/-- The cues of one edge send CUE_TAKEN for the members of the cued groups, in group order. -/
theorem sentOf_cues {s : State} {b : Bool} {cued : CueGroup → Bool} {f : Fin 4 → Bool} (h : ∀ g, f g = (b && cued (s.group g))) :
    sentOf .cueTaken (if b = true then (List.finRange 4).flatMap (s.cueSignals cued) else [])
      = (((List.finRange 4).filter f).flatMap s.members).map (fun p => (.cueTaken, some p, 1)) := by
  cases b with
  | false =>
    have hf : (List.finRange 4).filter f = [] := List.filter_eq_nil_iff.mpr (fun g _ => by rw [h g, Bool.false_and]; exact Bool.false_ne_true)
    rw [if_neg (by decide), hf]
    rfl
  | true =>
    rw [if_pos rfl]
    generalize List.finRange 4 = gs
    induction gs with
    | nil => rfl
    | cons g gs ih =>
      rw [List.flatMap_cons, sentOf_append, ih, cueSignals_sentOf, List.filter_cons, h g, Bool.true_and]
      cases cued (s.group g) with
      | false => rfl
      | true => rw [if_pos rfl, if_pos rfl, List.flatMap_cons, List.map_append]

theorem cuedAt_source (s : State) (frm c0 c1 : Bool) (g : Fin 4) :
    (s.cuedAt frm c0 c1 g && (s.group g).source == .frame) = (s.ref.tick.accepts frm && ((s.sampleCleared.group g).source == .frame && (s.sampleCleared.group g).armed))
    ∧ (s.cuedAt frm c0 c1 g && (s.group g).source == .cue0) = (s.ref.rises0 c0 && (s.sampleCleared.group g).source == .cue0)
    ∧ (s.cuedAt frm c0 c1 g && (s.group g).source == .cue1) = (s.ref.rises1 c1 && (s.sampleCleared.group g).source == .cue1) := by
  have hand (x : Bool) : (x && false) = false ∧ (x && true) = x := ⟨Bool.and_false x, Bool.and_true x⟩
  unfold State.cuedAt
  rw [sampleCleared_source]
  cases (s.group g).source with
  | none => exact ⟨(hand _).1.symm, (hand _).1.symm, (hand _).1.symm⟩
  | message => exact ⟨(hand _).1.symm, (hand _).1.symm, (hand _).1.symm⟩
  | frame => exact ⟨(hand _).2, (hand _).1.trans (hand _).1.symm, (hand _).1.trans (hand _).1.symm⟩
  | cue0 => exact ⟨(hand _).1.trans (hand _).1.symm, rfl, (hand _).1.trans (hand _).1.symm⟩
  | cue1 => exact ⟨(hand _).1.trans (hand _).1.symm, (hand _).1.trans (hand _).1.symm, rfl⟩

/-- The groups that take a cue at a house sample, those of FRM before those of CUE0 before those of CUE1. -/
def State.cuedGroups (s : State) (cued : Fin 4 → Bool) : List (Fin 4) :=
  (List.finRange 4).filter (fun g => cued g && (s.group g).source == .frame) ++ (List.finRange 4).filter (fun g => cued g && (s.group g).source == .cue0)
    ++ (List.finRange 4).filter (fun g => cued g && (s.group g).source == .cue1)

theorem sentOf_lineSignals (s : State) (frm c0 c1 : Bool) : sentOf .cueTaken (s.lineSignals frm c0 c1)
    = ((s.cuedGroups (s.cuedAt frm c0 c1)).flatMap s.members).map (fun p => (.cueTaken, some p, 1)) := by
  have hmembers : s.sampleCleared.members = s.members := funext (sampleCleared_members s)
  have h0 := sentOf_cues (fun g => (cuedAt_source s frm c0 c1 g).1) (cued := fun x => x.source == .frame && x.armed)
  have h1 := sentOf_cues (fun g => (cuedAt_source s frm c0 c1 g).2.1) (cued := fun x => x.source == .cue0)
  have h2 := sentOf_cues (fun g => (cuedAt_source s frm c0 c1 g).2.2) (cued := fun x => x.source == .cue1)
  have hfrm (v : Bool) : sentOf .cueTaken (if s.ref.tick.accepts frm = true then
        [Signal.report frameRefSource v] ++ (List.finRange 4).flatMap (s.sampleCleared.cueSignals (fun g => g.source == .frame && g.armed)) else [])
      = sentOf .cueTaken (if s.ref.tick.accepts frm = true then
        (List.finRange 4).flatMap (s.sampleCleared.cueSignals (fun g => g.source == .frame && g.armed)) else []) := by
    rw [sentOf_ite, sentOf_ite, sentOf_append, sentOf_report, sentOf_nil, List.nil_append]
  have habsent (v : Bool) : sentOf .cueTaken (if s.absentNext frm = true then [Signal.report frameRefSource v] else []) = [] := by
    rw [sentOf_ite, sentOf_report, sentOf_nil, ite_self]
  rw [hmembers] at h0 h1 h2
  unfold State.lineSignals State.cuedGroups
  rw [sentOf_append, sentOf_append, sentOf_append, hfrm, habsent, h0, h1, h2, List.append_nil, List.flatMap_append, List.flatMap_append,
    List.map_append, List.map_append]

/-! ### The members of a cued group -/

theorem takeHouseSample_uncued (h : s.blockEndDue = false) {frm c0 c1 : Bool} (hg : s.cuedAt frm c0 c1 g = false) :
    (s.takeHouseSample frm c0 c1).group g = s.sampleCleared.group g ∧ (s.takeHouseSample frm c0 c1).snap g = s.snap g := by
  have hcued := takeHouseSample_cued h frm c0 c1 g
  rw [hg] at hcued
  exact ⟨hcued.same.group, hcued.same.snap.trans (sampleCleared_snap s g)⟩

theorem cued_kept (x : Programme) (b : Bool) : (x.cued b).life = x.life ∧ (x.cued b).gain = x.gain ∧ (x.cued b).move.dcur = x.move.dcur := by
  unfold Programme.cued
  rw [cueStarted_rest]
  exact ⟨rfl, rfl, rfl⟩

theorem cued_move (x : Programme) (b : Bool) : (x.cued b).move = x.cueStarted.move := rfl

/-- A meter that differs in its lanes alone has the same levels. -/
theorem levels_of_lanes {m n : Meter} {l : List LaneMeter} (h : { m with lanes := l } = n) : m.integrated = n.integrated ∧ m.s = n.s := by
  subst h
  exact ⟨rfl, rfl⟩

/-- The member records of a cue at a house sample, from what the house sample leaves. -/
theorem snapMembers_of_cued (h : ∀ q ∈ s.members g, t.prog q = (s.sampleCleared.prog q).cued (s.sampleCleared.group g).restart) :
    (s.sampleCleared.liveMembers g).map (snapMember s.sampleCleared)
      = ((s.members g).filter (fun p => (t.prog p).life.isLive)).map (fun p =>
          { programme := p, pathDelay := (t.prog p).move.dcur + 59, integrated := (s.prog p).meter.integrated, shortTerm := (s.prog p).meter.s
            applied := (t.prog p).gain.applied }) := by
  have hlive : s.sampleCleared.liveMembers g = (s.members g).filter (fun p => (t.prog p).life.isLive) := by
    unfold State.liveMembers
    rw [sampleCleared_members]
    exact List.filter_congr fun p hp => by rw [h p hp, (cued_kept _ _).1]
  rw [hlive]
  refine List.map_congr_left fun p hp => ?_
  obtain ⟨-, hgain, hdcur⟩ := cued_kept (s.sampleCleared.prog p) (s.sampleCleared.group g).restart
  obtain ⟨-, hmeter, -, -⟩ := sampleCleared_prog s p
  obtain ⟨hint, hshort⟩ := levels_of_lanes hmeter
  rw [h p (List.mem_of_mem_filter hp), hgain, hdcur, ← hint, ← hshort]
  rfl

theorem restart_restart (m : Meter) : m.restart = { m.restart with hist := [], integrated := none, gate := none, entered := 0, suspects := 0 } := rfl

/-- Settles O40: CUE.FIRE takes the cue at once; at a house sample each group takes at most the one cue of its source, in the state that
the shares before the lines leave. -/
theorem cueFireTakesTheCue : Obligations.CueFireTakesTheCue := by
  unfold Obligations.CueFireTakesTheCue
  refine ⟨fun s tag g hs => ⟨fun body h => ?_, fun b h => ?_, fun h => ?_, fun h => ?_, fun hn hf => ?_⟩,
    fun s t frm c0 c1 hs hb hexec armed cued harmed hcued => ?_⟩
  · exact refused_of_answer (r := ⟨tag, 0x41, body⟩) rfl (hs.imp id (fun h => ⟨h, rfl⟩)) (takeCueFire_of_length_ne h)
  · exact refused_of_answer (r := ⟨tag, 0x41, _⟩) rfl (hs.imp id (fun h => ⟨h, rfl⟩)) (takeCueFire_of_bad_group h)
  · exact refused_of_answer (r := ⟨tag, 0x41, byte1 g⟩) rfl (hs.imp id (fun h => ⟨h, rfl⟩)) (takeCueFire_of_none (s := s.taking _) h)
  · refine completes_of_answer (r := ⟨tag, 0x41, byte1 g⟩) (a := ⟨(s.taking ⟨tag, 0x41, byte1 g⟩).armGroup (some g), .ok, _⟩) rfl
      (hs.imp id (fun h => ⟨h, rfl⟩)) (takeCueFire_of_frame (s := s.taking ⟨tag, 0x41, byte1 g⟩) h) ?_
    refine ⟨(armGroup_group _ g g).trans (if_pos rfl), fun k hk => (armGroup_group _ g k).trans (if_neg (fun h => hk h.symm)), ?_⟩
    exact sameBut_of_take (by decide) (sameBut_mono (armGroup_sameBut _ _) (by decide))
  · obtain ⟨r, t, hr, ht, hport, took⟩ := completes_of_cueFire (tag := tag) hs hn hf
    refine ⟨r, t, hr, ht, hport, took.group_own, fun k hk => took.group_other hk, fun p r k hp hst => took.started hp hst, fun p hp => took.unmoved hp,
      took.meter, took.rest, fun hsnap => ?_, fun hsnap => ?_, fun c hc => took.counter hc, took.within.otherSources, took.within.otherCounters, ?_⟩
    · have hall (k : Fin 4) : t.snap k = s.snap k := (took.snap k).trans (if_neg (fun h => by rw [hsnap] at h; exact Bool.false_ne_true h.2))
      exact Vector.ext fun i hi => hall ⟨i, hi⟩
    · have hown := (took.snap g).trans (if_pos ⟨rfl, hsnap⟩)
      refine ⟨?_, ?_, fun k hk => (took.snap k).trans (if_neg (fun h => hk h.1))⟩
      · rw [hown]; rfl
      · rw [hown]
    · exact sameBut_mono took.kept (by decide)
  · obtain ⟨-, rfl⟩ := houseSample_next hs hexec
    have hhsc := takeHouseSample_hsc hb frm c0 c1
    have harmedAt (g : Fin 4) : armed g = (s.sampleCleared.group g).armed := by
      rw [Bool.eq_iff_iff, harmed, hhsc, sampleCleared_armed_iff]
    have hcuedAt : cued = s.cuedAt frm c0 c1 := by
      funext g
      rw [Bool.eq_iff_iff, hcued, hhsc, cuedAt_iff, accepts_iff, harmedAt]
    have hcleared (g : Fin 4) : s.sampleCleared.group g = { s.group g with armed := armed g } := by
      rw [harmedAt, sampleCleared_group]
    rw [hcuedAt, hhsc]
    refine ⟨fun g hg => ?_, fun g hg => ?_, fun c hc => ?_⟩
    · obtain ⟨hgroup, hsnap⟩ := takeHouseSample_uncued hb hg
      exact ⟨hgroup.trans (hcleared g), hsnap⟩
    · have hbetween := takeHouseSample_cued hb frm c0 c1 g
      rw [hg] at hbetween
      obtain ⟨hgroup, hprogs, hsnap⟩ := hbetween.took
      rw [sampleCleared_members] at hprogs
      refine ⟨?_, fun hno => ?_, fun hyes => ?_, fun p u hp hu => ?_⟩
      · rw [hgroup, hcleared]
      · rw [hsnap, hcleared, if_neg (by rw [hno]; decide), sampleCleared_snap]
      · rw [hsnap, snapMembers_of_cued hprogs, hcleared, if_pos hyes, sampleCleared_snap]
      · obtain ⟨hmove, -, -, -⟩ := sampleCleared_prog s p
        have hu' : (s.sampleCleared.prog p).move = u := hmove.trans hu.symm
        refine ⟨fun r k hst => ?_, fun hst => ?_, fun hr hl => ?_⟩
        · rw [hprogs p hp, cued_move, cueStarted_of_waiting (by rw [hu']; exact hst), ← hu']
          rfl
        · rw [hprogs p hp, cued_move, cueStarted_of_not_waiting (by rw [hu']; exact hst), hu']
        · have hl' : (s.sampleCleared.prog p).life.isLive = true := by rw [hprogs p hp, (cued_kept _ _).1] at hl; exact hl
          have hmeter : ((s.takeHouseSample frm c0 c1).prog p).meter = (s.sampleCleared.prog p).meter.restart := by
            rw [hprogs p hp, hcleared]
            exact if_pos ⟨hr, hl'⟩
          rw [hmeter]
          exact restart_restart _
    · rw [takeHouseSample_counter hb frm c0 c1 (by decide) hc, sentOf_sampleSignals_lines, sentOf_lineSignals, offerAll_map]
      rfl

end Sys2Proof.Machine
end

