-- ==== Sys2Proof/Proofs/Rings.lean ====
section
/-! PROOFS. The rings of delay memory at a house sample: the words written, the words left, and the taps (R52, R55, R56). -/

namespace Sys2Proof.Machine

variable {s t : State} {p : Fin 8} {h : Held} {w : Nat}

/-! ### Lists of writes -/

/-- Words written one after the other. -/
def writes (ys : List (Nat × Slot)) (m : List (Nat × Slot)) : List (Nat × Slot) := ys.foldl (fun m y => writeWord m y.1 y.2) m

theorem readWord_writes_of_not_mem {ys : List (Nat × Slot)} {a : Nat} (h : a ∉ ys.map Prod.fst) (m : List (Nat × Slot)) :
    readWord (writes ys m) a = readWord m a := by
  induction ys generalizing m with
  | nil => rfl
  | cons y ys ih =>
    rw [List.map_cons, List.mem_cons, not_or] at h
    exact (ih h.2 _).trans (readWord_writeWord_ne h.1 m y.2)

/-- Of words written to distinct addresses each reads as it was written. -/
theorem readWord_writes_of_mem {ys : List (Nat × Slot)} {y : Nat × Slot} (hd : (ys.map Prod.fst).Nodup) (h : y ∈ ys) {m : List (Nat × Slot)}
    (hm : m.Pairwise (fun x z => x.1 < z.1)) : readWord (writes ys m) y.1 = y.2 := by
  induction ys generalizing m with
  | nil => cases h
  | cons z ys ih =>
    rw [List.map_cons, List.nodup_cons] at hd
    rcases List.mem_cons.mp h with rfl | h
    · exact (readWord_writes_of_not_mem hd.1 _).trans (readWord_writeWord_eq y.1 y.2 m hm)
    · exact ih hd.2 h (pairwise_writeWord z.1 z.2 m hm)

/-- The words of a house sample at one programme. -/
def ringWrites (ins : Vector LaneIn 32) (h : Held) (w : Nat) : List (Nat × Slot) :=
  h.lanes.zipIdx.map (fun x => (ringAddr h x.2 (w % h.rl), ins[x.1.lane].passed))

theorem writeRings_eq (ins : Vector LaneIn 32) (h : Held) (w : Nat) (m : List (Nat × Slot)) : writeRings ins h w m = writes (ringWrites ins h w) m := by
  unfold writeRings writes ringWrites
  rw [List.foldl_map]

theorem ringWrites_addrs (ins : Vector LaneIn 32) (h : Held) (w : Nat) :
    (ringWrites ins h w).map Prod.fst = (List.range h.lanes.length).map (fun k => ringAddr h k (w % h.rl)) := by
  unfold ringWrites
  rw [List.map_map, List.zipIdx_eq_zip_range', ← List.range_eq_range']
  have hsnd : (h.lanes.zip (List.range h.lanes.length)).map Prod.snd = List.range h.lanes.length := List.map_snd_zip (by simp)
  calc _ = ((h.lanes.zip (List.range h.lanes.length)).map Prod.snd).map (fun k => ringAddr h k (w % h.rl)) := by rw [List.map_map]; rfl
    _ = _ := by rw [hsnd]

theorem mem_ringWrites (ins : Vector LaneIn 32) (h : Held) (w : Nat) {k : Nat} (hk : k < h.lanes.length) :
    (ringAddr h k (w % h.rl), ins[h.lanes[k].lane].passed) ∈ ringWrites ins h w :=
  List.mem_map.mpr ⟨(h.lanes[k], k), List.mem_zipIdx_iff_getElem?.mpr (by simp [hk]), rfl⟩

theorem mem_ringWrites_addrs (ins : Vector LaneIn 32) (h : Held) (w a : Nat) :
    a ∈ (ringWrites ins h w).map Prod.fst ↔ ∃ k, k < h.lanes.length ∧ a = ringAddr h k (w % h.rl) := by
  rw [ringWrites_addrs, List.mem_map]
  simp only [List.mem_range, eq_comm]

/-- The rings of two lanes of a programme meet nowhere (R45). -/
theorem ringAddr_injective (hpos : 0 < h.rl) (hrl : h.rl % 512 = 0) {i j v : Nat} (he : ringAddr h i (v % h.rl) = ringAddr h j (v % h.rl)) : i = j := by
  have hq : 0 < h.rl / 512 := by omega
  simp only [ringAddr, Config.pageWords] at he
  have hmul : i * (h.rl / 512) = j * (h.rl / 512) := by omega
  exact Nat.eq_of_mul_eq_mul_right hq hmul

theorem ringWrites_nodup (ins : Vector LaneIn 32) (hpos : 0 < h.rl) (hrl : h.rl % 512 = 0) (w : Nat) : ((ringWrites ins h w).map Prod.fst).Nodup := by
  rw [ringWrites_addrs]
  exact List.Nodup.map (fun i j he => ringAddr_injective hpos hrl he) List.nodup_range

theorem readWord_writeRings_ne (ins : Vector LaneIn 32) {a : Nat} (hne : ∀ k, k < h.lanes.length → a ≠ ringAddr h k (w % h.rl)) (m : List (Nat × Slot)) :
    readWord (writeRings ins h w m) a = readWord m a := by
  rw [writeRings_eq]
  refine readWord_writes_of_not_mem (fun hmem => ?_) m
  obtain ⟨k, hk, hak⟩ := (mem_ringWrites_addrs ins h w a).mp hmem
  exact hne k hk hak

theorem readWord_writeRings_eq (ins : Vector LaneIn 32) (hpos : 0 < h.rl) (hrl : h.rl % 512 = 0) {m : List (Nat × Slot)} (hm : memWf m = true)
    {k : Nat} (hk : k < h.lanes.length) : readWord (writeRings ins h w m) (ringAddr h k (w % h.rl)) = ins[h.lanes[k].lane].passed := by
  rw [writeRings_eq]
  exact readWord_writes_of_mem (ringWrites_nodup ins hpos hrl w) (mem_ringWrites ins h w hk) ((memWf_iff m).mp hm).1

/-- The words written do not depend on what the memory held. -/
theorem readWord_writeRings_congr (ins : Vector LaneIn 32) (hpos : 0 < h.rl) (hrl : h.rl % 512 = 0) {m n : List (Nat × Slot)} (hm : memWf m = true)
    (hn : memWf n = true) {a : Nat} (ha : readWord m a = readWord n a) : readWord (writeRings ins h w m) a = readWord (writeRings ins h w n) a := by
  by_cases hmem : ∃ k, k < h.lanes.length ∧ a = ringAddr h k (w % h.rl)
  · obtain ⟨k, hk, rfl⟩ := hmem
    rw [readWord_writeRings_eq ins hpos hrl hm hk, readWord_writeRings_eq ins hpos hrl hn hk]
  · have hne : ∀ k, k < h.lanes.length → a ≠ ringAddr h k (w % h.rl) := fun k hk he => hmem ⟨k, hk, he⟩
    rw [readWord_writeRings_ne ins hne, readWord_writeRings_ne ins hne, ha]

/-! ### Taps (R56) -/

theorem tapPosition_lt (hpos : 0 < h.rl) (w tap : Nat) : tapPosition h w tap < h.rl := by
  have hne : (h.rl : Int) ≠ 0 := by omega
  have h1 := Int.emod_nonneg ((w : Int) - tap) hne
  have h2 := Int.emod_lt_of_pos ((w : Int) - tap) (by omega : (0 : Int) < h.rl)
  unfold tapPosition
  omega

theorem tapPosition_of_le {tap : Nat} (hle : tap ≤ w) (h : Held) : tapPosition h w tap = (w - tap) % h.rl := by
  have hsub : (w : Int) - tap = ((w - tap : Nat) : Int) := by omega
  unfold tapPosition
  rw [hsub, ← Int.natCast_mod]
  exact Int.toNat_natCast _

/-! ### The pages of a programme (R49) -/

/-- What an extent within memory says of a LIVE programme's rings. -/
theorem rings_of_inside (hi : (Life.live h w).extentInside = true) :
    0 < h.rl ∧ h.rl % 512 = 0 ∧ h.lanes.length * (h.rl / 512) ≤ h.extent.len := by
  simp only [Life.extentInside, Bool.and_eq_true, decide_eq_true_eq, Config.pageWords] at hi
  obtain ⟨⟨⟨-, hpos⟩, hrl⟩, hfit⟩ := hi
  exact ⟨hpos, hrl, hfit⟩

/-- A programme's rings lie in its own pages. -/
theorem ringAddr_page (hi : (Life.live h w).extentInside = true) {k : Nat} (hk : k < h.lanes.length) {j : Nat} (hj : j < h.rl) :
    h.extent.has (ringAddr h k j / 512) := by
  obtain ⟨hpos, hrl, hfit⟩ := rings_of_inside hi
  have hk1 : (k + 1) * (h.rl / 512) ≤ h.extent.len := (Nat.mul_le_mul_right _ hk).trans hfit
  have hk2 : (k + 1) * (h.rl / 512) = k * (h.rl / 512) + h.rl / 512 := Nat.succ_mul _ _
  simp only [ringAddr, Config.pageWords, Extent.has]
  omega

theorem holdsPage_of_held {page : Nat} (hh : (s.prog p).life.held? = some h) : s.holdsPage p page ↔ h.extent.has page := by
  simp only [State.holdsPage, Life.extent?, hh, Option.map_some, Option.some.injEq, exists_eq_left']

/-- No page is held by two programmes (R49). -/
theorem page_of_one (hs : s.pagesSafe) {page : Nat} {k : Fin 8} (hp : s.holdsPage p page) (hk : s.holdsPage k page) : k = p :=
  hs.2.2.2.2.2.1 page k p hk hp

/-! ### Each programme's share in the state the others have left -/

/-- Of operations on the programmes in turn each finds its own programme as it stood at the start. -/
theorem foldl_fresh_at {β : Type} {π : β → State} {op : β → Fin 8 → β} {i : Fin 8} {q r : β → Prop} {s : State}
    (other : ∀ b k j, j ≠ k → (π (op b k)).prog j = (π b).prog j) (before : ∀ k b, k ≠ i → (π b).prog k = s.prog k → q b → q (op b k))
    (own : ∀ b, (π b).prog i = s.prog i → q b → r (op b i)) (after : ∀ k b, k ≠ i → (π b).prog k = s.prog k → r b → r (op b k))
    {b : β} (hb : ∀ k, (π b).prog k = s.prog k) (hq : q b) : r ((List.finRange 8).foldl op b) := by
  have hafter : ∀ (ks : List (Fin 8)) (b : β), ks.Nodup → i ∉ ks → (∀ k ∈ ks, (π b).prog k = s.prog k) → r b → r (ks.foldl op b) := by
    intro ks
    induction ks with
    | nil => exact fun _ _ _ _ h => h
    | cons k ks ih =>
      intro b hn hi hfresh hr
      obtain ⟨hk, hn⟩ := List.nodup_cons.mp hn
      rw [List.mem_cons, not_or] at hi
      exact ih _ hn hi.2 (fun j hj => (other b k j (fun h => hk (h ▸ hj))).trans (hfresh j (List.mem_cons_of_mem _ hj)))
        (after k b (fun h => hi.1 h.symm) (hfresh k List.mem_cons_self) hr)
  have hall : ∀ (ks : List (Fin 8)) (b : β), ks.Nodup → i ∈ ks → (∀ k ∈ ks, (π b).prog k = s.prog k) → q b → r (ks.foldl op b) := by
    intro ks
    induction ks with
    | nil => exact fun _ _ h => absurd h List.not_mem_nil
    | cons k ks ih =>
      intro b hn hi hfresh hq
      obtain ⟨hk, hn⟩ := List.nodup_cons.mp hn
      have hrest : ∀ j ∈ ks, (π (op b k)).prog j = s.prog j := fun j hj =>
        (other b k j (fun h => hk (h ▸ hj))).trans (hfresh j (List.mem_cons_of_mem _ hj))
      by_cases hki : k = i
      · subst hki
        exact hafter ks _ hn hk hrest (own b (hfresh k List.mem_cons_self) hq)
      · exact ih _ hn ((List.mem_cons.mp hi).resolve_left (fun h => hki h.symm)) hrest (before k b hki (hfresh k List.mem_cons_self) hq)
  exact hall _ b (List.nodup_finRange 8) (List.mem_finRange i) (fun k _ => hb k) hq

section
variable {op : Fin 8 → State → State} {i : Fin 8} {q r : State → Prop} {s u : State} (other : ∀ k (t : State), t.otherProgs k (op k t))
include other

theorem forEach_fresh_at (before : ∀ k (t : State), k ≠ i → t.prog k = s.prog k → q t → q (op k t)) (own : ∀ t : State, t.prog i = s.prog i → q t → r (op i t))
    (after : ∀ k (t : State), k ≠ i → t.prog k = s.prog k → r t → r (op k t)) (hu : ∀ k, u.prog k = s.prog k) (hq : q u) : r (forEach 8 op u) :=
  foldl_fresh_at (π := fun t : State => t) (op := fun t k => op k t) (fun b k j hj => other k b j hj) before own after hu hq

theorem forEach_fresh (step : ∀ k (t : State), t.prog k = s.prog k → q t → q (op k t)) (hu : ∀ k, u.prog k = s.prog k) (hq : q u) : q (forEach 8 op u) :=
  forEach_fresh_at other (i := 0) (fun k t _ => step k t) (step 0) (fun k t _ => step k t) hu hq

end

/-! ### The ring writes of a house sample (R55) -/

theorem programmeShare_mem_of_live (ins : Vector LaneIn 32) (hl : (s.prog p).life = .live h w) (ha : s.ahead.contains (.clear p) = false) :
    (s.programmeShare ins p).mem = writeRings ins h w s.mem := by
  rw [programmeShare_of_live ins hl ha, liveSample_fst]
  exact congrArg (writeRings ins h w) (unitsSampled_mem s p w)

/-- A word that no ring write of the programme reaches stands. -/
theorem programmeShare_readWord (ins : Vector LaneIn 32) {a : Nat}
    (hne : ∀ h w k, (s.prog p).life = .live h w → k < h.lanes.length → a ≠ ringAddr h k (w % h.rl)) :
    readWord (s.programmeShare ins p).mem a = readWord s.mem a := by
  rcases liveIndex_cases s p with hn | ⟨h, w, hl, ha, -⟩
  · rw [programmeShare_of_not_live ins hn]
  · rw [programmeShare_mem_of_live ins hl ha]
    exact readWord_writeRings_ne ins (fun k hk => hne h w k hl hk) s.mem

theorem programmeShare_memSafe (ins : Vector LaneIn 32) (hi : (s.prog p).life.extentInside = true) (hm : s.memSafe) : (s.programmeShare ins p).memSafe := by
  rcases liveIndex_cases s p with hn | ⟨h, w, hl, ha, -⟩
  · rw [programmeShare_of_not_live ins hn]; exact hm
  · rw [hl] at hi
    unfold State.memSafe
    rw [programmeShare_mem_of_live ins hl ha]
    exact memWf_writeRings ins h w s.mem hm (fun k hk => ringAddr_lt hi hk w)

theorem sampleRead_mem (s : State) : s.sampleRead.mem = s.mem := (sampleRead_sameBut s .mem (by decide)).symm

/-- A word that no ring write reaches stands (R55). -/
theorem sampleProgs_readWord {a : Nat} (hne : ∀ p h w k, (s.prog p).life = .live h w → k < h.lanes.length → a ≠ ringAddr h k (w % h.rl)) :
    readWord s.sampleProgs.1.mem a = readWord s.mem a := by
  rw [sampleProgs_fst]
  refine forEach_fresh (s := s) (q := fun t => readWord t.mem a = readWord s.mem a) (fun k t => programmeShare_otherProgs _ t k)
    (fun k t hk hq => ?_) (sampleRead_prog s) (by rw [sampleRead_mem])
  exact (programmeShare_readWord s.sampleIns (fun h w j hl hj => hne k h w j (hk ▸ hl) hj)).trans hq

/-- A word of a LIVE programme's pages is, behind all ring writes, what that programme's own ring writes leave (R55). -/
theorem sampleProgs_readWord_live (hp : s.pagesSafe) (hi : s.insideMemory) (hm : s.memSafe) (hl : (s.prog p).life = .live h w)
    (hc : s.ahead.contains (.clear p) = false) {a : Nat} (ha : h.extent.has (a / 512)) :
    readWord s.sampleProgs.1.mem a = readWord (writeRings s.sampleIns h w s.mem) a := by
  have hown : s.holdsPage p (a / 512) := (holdsPage_of_held (by rw [hl]; rfl)).mpr ha
  have helse (k : Fin 8) (hk : k ≠ p) (t : State) (ht : t.prog k = s.prog k) :
      readWord (t.programmeShare s.sampleIns k).mem a = readWord t.mem a := by
    refine programmeShare_readWord s.sampleIns (fun x v j hlk hj he => hk ?_)
    rw [ht] at hlk
    have hin := hi k
    rw [hlk] at hin
    have hpage := ringAddr_page hin hj (Nat.mod_lt v (rings_of_inside hin).1)
    rw [← he] at hpage
    exact page_of_one hp hown ((holdsPage_of_held (by rw [hlk]; rfl)).mpr hpage)
  have hin := hi p
  rw [hl] at hin
  obtain ⟨hpos, hrl, -⟩ := rings_of_inside hin
  rw [sampleProgs_fst]
  refine forEach_fresh_at (s := s) (i := p) (op := State.programmeShare s.sampleIns)
    (q := fun t => t.memSafe ∧ t.ahead = s.ahead ∧ readWord t.mem a = readWord s.mem a)
    (r := fun t => readWord t.mem a = readWord (writeRings s.sampleIns h w s.mem) a)
    (fun k t => programmeShare_otherProgs _ t k) ?_ ?_ ?_ (sampleRead_prog s) ?_
  · rintro k t hk ht ⟨hmt, hat, hr⟩
    exact ⟨programmeShare_memSafe _ (by rw [ht]; exact hi k) hmt,
      (programmeShare_sameBut _ t k .ahead (by decide)).symm.trans hat, (helse k hk t ht).trans hr⟩
  · rintro t ht ⟨hmt, hat, hr⟩
    have hlt : (t.prog p).life = .live h w := by rw [ht]; exact hl
    rw [programmeShare_mem_of_live _ hlt (by rw [hat]; exact hc)]
    exact readWord_writeRings_congr s.sampleIns hpos hrl hmt hm hr
  · exact fun k t hk ht hr => (helse k hk t ht).trans hr
  · exact ⟨memSafe_reads.keep (sampleRead_sameBut s) (by decide) hm, sampleRead_ahead s, by rw [sampleRead_mem]⟩

/-! ### The clearing of a house sample (R52) -/

/-- The page that a clearing share clears, if it clears one. -/
def Life.clearsPage : Life → Option Nat
  | .closed => none
  | .clearing h left k => if 5 ≤ k then some (h.extent.start + (h.extent.len - left)) else none
  | .live _ _ => none

theorem clearStep_readWord (s : State) (p : Fin 8) (a : Nat) :
    readWord (s.clearStep p).mem a = if (s.prog p).life.clearsPage = some (a / 512) then ⟨0, false⟩ else readWord s.mem a := by
  cases hl : (s.prog p).life with
  | closed => rw [if_neg (by rw [Life.clearsPage]; nofun)]; unfold State.clearStep; rw [hl]
  | live h w => rw [if_neg (by rw [Life.clearsPage]; nofun)]; unfold State.clearStep; rw [hl]
  | clearing h left k =>
    by_cases hk : 5 ≤ k
    · rw [clearStep_of_due hl hk, Life.clearsPage, if_pos hk]
      refine (readWord_clearPage s.mem _ a).trans ?_
      exact if_congr (by rw [Option.some.injEq, eq_comm]) rfl rfl
    · rw [clearStep_of_not_due hl (by omega), Life.clearsPage, if_neg hk, if_neg (by nofun)]
      rfl

/-- The clearing share of a programme, unless it was taken ahead. -/
theorem clearShare_readWord (s : State) (p : Fin 8) (a : Nat) : readWord (s.unlessAhead (.clear p) (fun u => u.clearStep p)).mem a
    = if s.ahead.contains (.clear p) = false ∧ (s.prog p).life.clearsPage = some (a / 512) then ⟨0, false⟩ else readWord s.mem a := by
  unfold State.unlessAhead
  by_cases ha : s.ahead.contains (.clear p) = true
  · rw [if_pos ha, if_neg (fun h => by rw [ha] at h; exact Bool.false_ne_true h.1.symm)]
  · rw [if_neg ha, clearStep_readWord]
    exact if_congr ⟨fun h => ⟨by simpa using ha, h⟩, fun h => h.2⟩ rfl rfl

theorem clearShare_otherProgs (s : State) (p : Fin 8) : s.otherProgs p (s.unlessAhead (.clear p) (fun u => u.clearStep p)) := by
  unfold State.unlessAhead
  split
  · exact fun _ _ => rfl
  · exact clearStep_otherProgs s p

/-- A programme clears a page at this house sample. -/
def State.clearsAt (s : State) (p : Fin 8) (a : Nat) : Prop := s.ahead.contains (.clear p) = false ∧ (s.prog p).life.clearsPage = some (a / 512)

theorem sampleOutputs_clears (s : State) (p : Fin 8) : (s.sampleOutputs.prog p).life.clearsPage = (s.prog p).life.clearsPage := by
  rw [prog_of_sameBut (sampleOutputs_sameBut s) (by decide)]
  rcases liveIndex_cases s p with hn | ⟨h, w, hl, ha, -⟩
  · rw [sampleProgs_prog_of_not_live hn]
  · obtain ⟨c, hc⟩ := sampleProgs_prog_of_live hl ha
    rw [hc, hl]
    rfl

theorem clearShare_of_clearsAt {k : Fin 8} (ht : t.prog k = s.sampleOutputs.prog k) (hat : t.ahead = s.ahead) (a : Nat) [Decidable (s.clearsAt k a)] :
    readWord (t.unlessAhead (.clear k) (fun u => u.clearStep k)).mem a = if s.clearsAt k a then ⟨0, false⟩ else readWord t.mem a := by
  rw [clearShare_readWord, ht, hat, sampleOutputs_clears]
  exact if_congr Iff.rfl rfl rfl

/-- A word on no page cleared at this house sample stands as the ring writes leave it. -/
theorem sampleCleared_readWord {a : Nat} (hne : ∀ k, ¬ s.clearsAt k a) : readWord s.sampleCleared.mem a = readWord s.sampleProgs.1.mem a := by
  classical
  unfold State.sampleCleared
  refine (forEach_fresh (s := s.sampleOutputs) (q := fun t => t.ahead = s.ahead ∧ readWord t.mem a = readWord s.sampleProgs.1.mem a)
    (fun k t => clearShare_otherProgs t k) (fun k t ht hq => ?_) (fun _ => rfl) ⟨sampleOutputs_ahead s, ?_⟩).2
  · exact ⟨(clearShare_sameBut t k .ahead (by decide)).symm.trans hq.1, by rw [clearShare_of_clearsAt ht hq.1, if_neg (hne k)]; exact hq.2⟩
  · rw [← sampleOutputs_sameBut s .mem (by decide)]

/-- A page cleared at this house sample reads zeros behind it. -/
theorem sampleCleared_readWord_cleared {a : Nat} (hp : s.clearsAt p a) : readWord s.sampleCleared.mem a = ⟨0, false⟩ := by
  classical
  unfold State.sampleCleared
  refine (forEach_fresh_at (s := s.sampleOutputs) (i := p) (op := fun k t => t.unlessAhead (.clear k) (fun u => u.clearStep k))
    (q := fun t => t.ahead = s.ahead) (r := fun t => t.ahead = s.ahead ∧ readWord t.mem a = ⟨0, false⟩)
    (fun k t => clearShare_otherProgs t k) ?_ ?_ ?_ (fun _ => rfl) (sampleOutputs_ahead s)).2
  · exact fun k t _ _ ht => (clearShare_sameBut t k .ahead (by decide)).symm.trans ht
  · exact fun t ht hat => ⟨(clearShare_sameBut t p .ahead (by decide)).symm.trans hat, by rw [clearShare_of_clearsAt ht hat, if_pos hp]⟩
  · rintro k t hk ht ⟨hat, hr⟩
    refine ⟨(clearShare_sameBut t k .ahead (by decide)).symm.trans hat, ?_⟩
    rw [clearShare_of_clearsAt ht hat]
    split
    · rfl
    · exact hr

/-- A page cleared belongs to the programme that clears it. -/
theorem clearsAt_holds (hs : s.pagesSafe) {a : Nat} (hp : s.clearsAt p a) : s.holdsPage p (a / 512) ∧ (s.prog p).life.isLive = false := by
  obtain ⟨-, hpage⟩ := hp
  cases hl : (s.prog p).life with
  | closed => rw [hl] at hpage; cases hpage
  | live h w => rw [hl] at hpage; cases hpage
  | clearing h left k =>
    obtain ⟨h1, h2⟩ := hs.2.2.2.2.2.2 p h left k hl
    rw [hl, Life.clearsPage] at hpage
    refine ⟨(holdsPage_of_held (by rw [hl]; rfl)).mpr ?_, rfl⟩
    split at hpage
    · rw [Option.some.injEq] at hpage
      unfold Extent.has
      omega
    · cases hpage

/-! ### The whole house sample -/

theorem takeHouseSample_mem (hb : s.blockEndDue = false) (frm c0 c1 : Bool) : (s.takeHouseSample frm c0 c1).mem = s.sampleCleared.mem := by
  obtain ⟨a, ha⟩ := takeHouseSample_lines hb frm c0 c1
  have hlines : s.sampleCleared.mem = (s.linesSampled frm c0 c1).mem :=
    ((sampleFrm_sameBut s.sampleCleared frm .mem (by decide)).trans (absenceTest_sameBut (s.linesFrm frm) .mem (by decide))).trans
      (sampleCues_sameBut (s.linesTested frm) c0 c1 .mem (by decide))
  rw [ha]
  exact hlines.symm

/-- A word of a LIVE programme's pages is, behind the house sample, what that programme's own ring writes leave. -/
theorem takeHouseSample_readWord_live (hb : s.blockEndDue = false) (hs : s.spaceSafe) (hm : s.memSafe) (hl : (s.prog p).life = .live h w)
    (hc : s.ahead.contains (.clear p) = false) {a : Nat} (ha : h.extent.has (a / 512)) (frm c0 c1 : Bool) :
    readWord (s.takeHouseSample frm c0 c1).mem a = readWord (writeRings s.sampleIns h w s.mem) a := by
  rw [takeHouseSample_mem hb, sampleCleared_readWord, sampleProgs_readWord_live hs.1 (spaceSafe_insideMemory hs) hm hl hc ha]
  intro k hk
  obtain ⟨hpage, hlive⟩ := clearsAt_holds hs.1 hk
  have hkp : k = p := page_of_one hs.1 ((holdsPage_of_held (by rw [hl]; rfl)).mpr ha) hpage
  rw [hkp, hl] at hlive
  cases hlive

/-- What the router hands a lane, as a word (R42, R55). -/
theorem sampleIns_passed (s : State) (n : Fin 32) : s.sampleIns[n].passed = s.laneWord n := by
  have hroute : s.sampleIns[n] = laneIn s.reads (s.route n) := by simp [State.sampleIns, State.laneIns, State.route]
  rw [hroute]
  unfold State.laneWord LaneIn.passed
  cases s.route n with
  | unrouted => rfl
  | pair l k => simp only [laneIn, getElem_reads]; rfl

/-- Settles O28: the words written are at distinct addresses of the programme's own pages, and a tap is shorter than the ring. -/
theorem ringWritesAndTapsStayInTheRing : Obligations.RingWritesAndTapsStayInTheRing := by
  unfold Obligations.RingWritesAndTapsStayInTheRing
  refine ⟨fun ins h w m hpos hrl hm => ⟨fun k hk => ?_, fun a hne => ?_⟩, fun dmax dcur cl hd h32 h51 => ?_,
    fun s t frm c0 c1 hs hb hp hl hm hexec p h w k hk hlive hc => ?_⟩
  · exact readWord_writeRings_eq ins hpos hrl hm hk
  · exact readWord_writeRings_ne ins hne m
  · have hring := ringLength_facts dmax
    have hlen : dmax + 512 ≤ ringLength dmax := by unfold ringLength; omega
    have htap : laneTap dcur cl = dcur + 51 - cl := rfl
    refine ⟨by omega, by omega, fun h w hrl => ⟨tapPosition_lt (by omega) w _, fun hle => tapPosition_of_le hle h⟩⟩
  · obtain ⟨-, rfl⟩ := houseSample_next hs hexec
    have hin := spaceSafe_insideMemory ⟨hp, hl⟩ p
    rw [hlive] at hin
    obtain ⟨hpos, hrl, -⟩ := rings_of_inside hin
    rw [takeHouseSample_readWord_live hb ⟨hp, hl⟩ hm hlive hc (ringAddr_page hin hk (Nat.mod_lt w hpos)),
      readWord_writeRings_eq _ hpos hrl hm hk, sampleIns_passed]

end Sys2Proof.Machine
end

