-- ==== Sys2Proof/Proofs/LaneOutputs.lean ====
section
/-! PROOFS. What every lane puts out at a house sample, and the words that were saturated (R43, R53, R57, R138, R139). -/

namespace Sys2Proof.Machine

variable {s t : State} {p : Fin 8} {h : Held} {w : Nat} {n : Fin 32}

/-! ### Lists of lane outputs -/

/-- Lane outputs set one after the other. -/
def setLanes (ys : List (Fin 32 × Slot)) (out : Vector Slot 32) : Vector Slot 32 := ys.foldl (fun o y => o.set y.1 y.2) out

theorem setLanes_of_not_mem {ys : List (Fin 32 × Slot)} (h : n ∉ ys.map Prod.fst) (out : Vector Slot 32) : (setLanes ys out)[n] = out[n] := by
  induction ys generalizing out with
  | nil => rfl
  | cons y ys ih =>
    rw [List.map_cons, List.mem_cons, not_or] at h
    refine (ih h.2 _).trans ?_
    exact Vector.getElem_set_ne _ _ (fun he => h.1 (Fin.ext he.symm))

theorem setLanes_of_mem {ys : List (Fin 32 × Slot)} {y : Fin 32 × Slot} (hd : (ys.map Prod.fst).Nodup) (h : y ∈ ys) (out : Vector Slot 32) :
    (setLanes ys out)[y.1] = y.2 := by
  induction ys generalizing out with
  | nil => cases h
  | cons z ys ih =>
    rw [List.map_cons, List.nodup_cons] at hd
    rcases List.mem_cons.mp h with rfl | h
    · exact (setLanes_of_not_mem hd.1 _).trans (Vector.getElem_set_self _)
    · exact ih hd.2 h _

theorem silenced_eq (lanes : List LaneWeight) (out : Vector Slot 32) : silenced lanes out = setLanes (lanes.map (fun lw => (lw.lane, Slot.silent))) out := by
  unfold silenced setLanes
  rw [List.foldl_map]

theorem mem_map_lane_iff (lanes : List LaneWeight) (n : Fin 32) : n ∈ lanes.map LaneWeight.lane ↔ hasLane lanes n = true := by
  simp [hasLane]

theorem silenced_other {lanes : List LaneWeight} (h : hasLane lanes n = false) (out : Vector Slot 32) : (silenced lanes out)[n] = out[n] := by
  have hn : n ∉ lanes.map LaneWeight.lane := by rw [mem_map_lane_iff, h]; decide
  rw [silenced_eq]
  exact setLanes_of_not_mem (by rwa [List.map_map]) out

theorem silenced_own {lanes : List LaneWeight} (hd : (lanes.map LaneWeight.lane).Nodup) (h : hasLane lanes n = true) (out : Vector Slot 32) :
    (silenced lanes out)[n] = Slot.silent := by
  obtain ⟨lw, hlw, rfl⟩ := List.mem_map.mp ((mem_map_lane_iff lanes n).mpr h)
  rw [silenced_eq]
  exact setLanes_of_mem (y := (lw.lane, Slot.silent)) (by rwa [List.map_map]) (List.mem_map.mpr ⟨lw, hlw, rfl⟩) out

/-! ### The outputs of one programme (R57) -/

/-- The outputs of a LIVE programme as lane outputs. -/
theorem liveOutputs_lanes (ins : Vector LaneIn 32) (m : List (Nat × Slot)) (h : Held) (w : Nat) (x : Programme) :
    (liveOutputs ins m h w x).map (fun o => o.1) = h.lanes.map LaneWeight.lane := by
  unfold liveOutputs
  rw [List.map_map, List.zipIdx_eq_zip_range']
  have hfst : (h.lanes.zip (List.range' 0 h.lanes.length)).map Prod.fst = h.lanes := List.map_fst_zip (by simp)
  calc _ = ((h.lanes.zip (List.range' 0 h.lanes.length)).map Prod.fst).map LaneWeight.lane := by rw [List.map_map]; rfl
    _ = _ := by rw [hfst]

theorem mem_liveOutputs (ins : Vector LaneIn 32) (m : List (Nat × Slot)) (h : Held) (w : Nat) (x : Programme) {k : Nat} (hk : k < h.lanes.length) :
    (h.lanes[k].lane, liveOutput m h w x.move.dcur (gainFactor x.gain.applied) x.move.fade k ins[h.lanes[k].lane]) ∈ liveOutputs ins m h w x :=
  List.mem_map.mpr ⟨(h.lanes[k], k), List.mem_zipIdx_iff_getElem?.mpr (by simp [hk]), rfl⟩

/-- The lane outputs that a LIVE programme sets. -/
def laneSlots (l : List (Fin 32 × (Slot × Bool))) : List (Fin 32 × Slot) := l.map (fun o => (o.1, o.2.1))

theorem foldl_laneSlots (l : List (Fin 32 × (Slot × Bool))) (out : Vector Slot 32) : l.foldl (fun o x => o.set x.1 x.2.1) out = setLanes (laneSlots l) out := by
  unfold setLanes laneSlots
  rw [List.foldl_map]

theorem laneSlots_lanes (l : List (Fin 32 × (Slot × Bool))) : (laneSlots l).map Prod.fst = l.map (fun o => o.1) := by
  unfold laneSlots
  rw [List.map_map]
  rfl

/-- The output of a lane depends on the memory at the words of its own ring alone. -/
theorem liveOutput_congr {m m' : List (Nat × Slot)} (hpos : 0 < h.rl) {k : Nat} (hm : ∀ j, j < h.rl → readWord m (ringAddr h k j) = readWord m' (ringAddr h k j))
    (w dcur g : Nat) (fade : Nat × Nat) (x : LaneIn) : liveOutput m h w dcur g fade k x = liveOutput m' h w dcur g fade k x := by
  unfold liveOutput
  cases x.sounding with
  | false => rfl
  | true =>
    cases x.cl with
    | none => rfl
    | some cl =>
      have hread : ringRead m h k w dcur cl = ringRead m' h k w dcur cl := hm _ (tapPosition_lt hpos w _)
      dsimp only
      rw [hread]

theorem liveOutputs_congr (ins : Vector LaneIn 32) {m m' : List (Nat × Slot)} (hpos : 0 < h.rl)
    (hm : ∀ k, k < h.lanes.length → ∀ j, j < h.rl → readWord m (ringAddr h k j) = readWord m' (ringAddr h k j)) (w : Nat) (x : Programme) :
    liveOutputs ins m h w x = liveOutputs ins m' h w x := by
  unfold liveOutputs
  refine List.map_congr_left fun y hy => ?_
  have hk : y.2 < h.lanes.length := by simpa using (List.mem_zipIdx hy).2.1
  rw [liveOutput_congr hpos (hm y.2 hk)]

/-! ### The programmes' outputs in turn (R43) -/

/-- A lane outside a programme keeps its output through that programme's share. -/
theorem programmeSample_other (ins : Vector LaneIn 32) (acc : State × Vector Slot 32) (h : hasLane (acc.1.prog p).life.lanes n = false) :
    (programmeSample ins acc p).2[n] = acc.2[n] := by
  unfold programmeSample
  cases hl : (acc.1.prog p).life with
  | closed => rfl
  | clearing x left k => rw [hl] at h; exact silenced_other h acc.2
  | live x w =>
    rw [hl] at h
    dsimp only
    by_cases ha : acc.1.ahead.contains (.clear p) = true
    · rw [if_pos ha]; exact silenced_other h acc.2
    · rw [if_neg ha, foldl_laneSlots, setLanes_of_not_mem]
      rw [laneSlots_lanes, liveSample_eq, liveOutputs_lanes, mem_map_lane_iff, show hasLane x.lanes n = false from h]
      decide

theorem programmeSample_otherProgs (ins : Vector LaneIn 32) (acc : State × Vector Slot 32) (k j : Fin 8) (hj : j ≠ k) :
    (programmeSample ins acc k).1.prog j = acc.1.prog j := by
  rw [programmeSample_fst]
  exact programmeShare_otherProgs ins acc.1 k j hj

/-- What the share of each programme keeps or makes, each finding its own programme as it stood before the house sample. -/
theorem sampleProgs_at {i : Fin 8} {q r : State × Vector Slot 32 → Prop}
    (before : ∀ k b, k ≠ i → b.1.prog k = s.prog k → q b → q (programmeSample s.sampleIns b k))
    (own : ∀ b, b.1.prog i = s.prog i → q b → r (programmeSample s.sampleIns b i))
    (after : ∀ k b, k ≠ i → b.1.prog k = s.prog k → r b → r (programmeSample s.sampleIns b k))
    (start : ∀ u out, u = s.sampleRead → out = s.sampleIns.map LaneIn.passed → q (u, out)) : r s.sampleProgs := by
  have hu := sampleRead_prog s
  have hq := start _ _ rfl rfl
  unfold State.sampleProgs
  generalize s.sampleRead = u at hu hq
  exact foldl_fresh_at (π := Prod.fst) (fun b k j hj => programmeSample_otherProgs _ b k j hj) before own after hu hq

/-- A lane outside every programme passes what the router hands it (R43). -/
theorem sampleProgs_passed (hn : ∀ p, hasLane (s.prog p).life.lanes n = false) : s.sampleProgs.2[n] = s.laneWord n := by
  have hout (k : Fin 8) (b : State × Vector Slot 32) (hb : b.1.prog k = s.prog k) (hq : b.2[n] = s.laneWord n) :
      (programmeSample s.sampleIns b k).2[n] = s.laneWord n :=
    (programmeSample_other s.sampleIns b (by rw [hb]; exact hn k)).trans hq
  have hstart : (s.sampleIns.map LaneIn.passed)[n] = s.laneWord n := by
    rw [← sampleIns_passed]
    simp
  exact sampleProgs_at (i := 0) (q := fun b => b.2[n] = s.laneWord n) (r := fun b => b.2[n] = s.laneWord n) (fun k b _ => hout k b) (fun b => hout 0 b)
    (fun k b _ => hout k b) (fun u out _ ho => by rw [ho]; exact hstart)

/-- Lanes of other programmes stand while a programme has the lane to itself. -/
theorem lane_of_one (hs : s.lanesSafe) {k : Fin 8} (hp : hasLane (s.prog p).life.lanes n = true) (hk : k ≠ p) :
    hasLane (s.prog k).life.lanes n = false := by
  cases hl : hasLane (s.prog k).life.lanes n with
  | false => rfl
  | true => exact absurd (hs.2 k p n hl hp) hk

theorem lanes_nodup (hs : s.lanesSafe) (hh : (s.prog p).life.held? = some h) : (h.lanes.map LaneWeight.lane).Nodup := (hs.1 p h hh).2.2.1

/-- A lane of a CLEARING programme is silent (R53). -/
theorem sampleProgs_clearing (hs : s.lanesSafe) {left k : Nat} (hl : (s.prog p).life = .clearing h left k) (hn : hasLane h.lanes n = true) :
    s.sampleProgs.2[n] = ⟨0, false⟩ := by
  have hown : hasLane (s.prog p).life.lanes n = true := by rw [hl]; exact hn
  refine sampleProgs_at (i := p) (q := fun _ => True) (r := fun b => b.2[n] = ⟨0, false⟩) (fun _ _ _ _ _ => trivial) ?_ ?_ (fun _ _ _ _ => trivial)
  · intro b hb _
    have hlb : (b.1.prog p).life = .clearing h left k := by rw [hb]; exact hl
    unfold programmeSample
    rw [hlb]
    exact silenced_own (lanes_nodup hs (by rw [hl]; rfl)) hn b.2
  · exact fun k b hk hb hr => (programmeSample_other s.sampleIns b (by rw [hb]; exact lane_of_one hs hown hk)).trans hr

/-- What a LIVE programme may rely on between the shares of a house sample: the marks and the house clock of the sample, memory in
its canonical form and, in its own pages, the words that stood before it. -/
structure MidSample (s t : State) (h : Held) : Prop where
  memory : t.memSafe
  marks : t.ahead = s.ahead
  clock : t.ref = s.sampleRead.ref
  words : ∀ a, h.extent.has (a / 512) → readWord t.mem a = readWord s.mem a

theorem midSample_sampleRead (hm : s.memSafe) (h : Held) : MidSample s s.sampleRead h where
  memory := memSafe_reads.keep (sampleRead_sameBut s) (by decide) hm
  marks := sampleRead_ahead s
  clock := rfl
  words a _ := by rw [sampleRead_mem]

/-- A LIVE programme behind its share: itself with its clip count, and what its lanes put out, from the words its own ring writes leave. -/
theorem sampleProgs_live (hs : s.spaceSafe) (hm : s.memSafe) (hl : (s.prog p).life = .live h w) (hc : s.ahead.contains (.clear p) = false) :
    ∀ outs, outs = liveOutputs s.sampleIns (writeRings s.sampleIns h w s.mem) h w (s.gainedProg p w (s.movedProg p)) →
    s.sampleProgs.1.prog p = (s.gainedProg p w (s.movedProg p)).liveSampled s.sampleIns h w (outs.countP (fun o => o.2.2))
    ∧ ∀ y ∈ laneSlots outs, s.sampleProgs.2[y.1] = y.2 := by
  intro outs houts
  have hi := spaceSafe_insideMemory hs
  have hin := hi p
  rw [hl] at hin
  obtain ⟨hpos, hrl, -⟩ := rings_of_inside hin
  have hheld : (s.prog p).life.held? = some h := by rw [hl]; rfl
  have hlanes : (laneSlots outs).map Prod.fst = h.lanes.map LaneWeight.lane := by rw [laneSlots_lanes, houts, liveOutputs_lanes]
  have hhas : ∀ y ∈ laneSlots outs, hasLane (s.prog p).life.lanes y.1 = true := by
    intro y hy
    have hmem : y.1 ∈ h.lanes.map LaneWeight.lane := by rw [← hlanes]; exact List.mem_map.mpr ⟨y, hy, rfl⟩
    rw [hl]
    exact (mem_map_lane_iff h.lanes y.1).mp hmem
  have hmem (k : Fin 8) (hk : k ≠ p) (b : State) (hb : b.prog k = s.prog k) {a : Nat} (ha : h.extent.has (a / 512)) :
      readWord (b.programmeShare s.sampleIns k).mem a = readWord b.mem a := by
    refine programmeShare_readWord s.sampleIns (fun x v j hlk hj he => hk ?_)
    rw [hb] at hlk
    have hink := hi k
    rw [hlk] at hink
    have hpage := ringAddr_page hink hj (Nat.mod_lt v (rings_of_inside hink).1)
    rw [← he] at hpage
    exact page_of_one hs.1 ((holdsPage_of_held hheld).mpr ha) ((holdsPage_of_held (by rw [hlk]; rfl)).mpr hpage)
  refine sampleProgs_at (i := p)
    (q := fun b => MidSample s b.1 h)
    (r := fun b => b.1.prog p = (s.gainedProg p w (s.movedProg p)).liveSampled s.sampleIns h w (outs.countP (fun o => o.2.2))
      ∧ ∀ y ∈ laneSlots outs, b.2[y.1] = y.2)
    ?_ ?_ ?_ ?_
  · rintro k b hk hb ⟨hmb, hab, hrb, hread⟩
    rw [programmeSample_fst]
    exact ⟨programmeShare_memSafe _ (by rw [hb]; exact hi k) hmb, (programmeShare_sameBut _ b.1 k .ahead (by decide)).symm.trans hab,
      (ref_of_sameBut (programmeShare_sameBut _ b.1 k) (by decide)).trans hrb, fun a ha => (hmem k hk b.1 hb ha).trans (hread a ha)⟩
  · rintro b hb ⟨hmb, hab, hrb, hread⟩
    have hlb : (b.1.prog p).life = .live h w := by rw [hb]; exact hl
    have hcb : b.1.ahead.contains (.clear p) = false := by rw [hab]; exact hc
    have hprog : (b.1.unitsSampled p w).prog p = s.gainedProg p w (s.movedProg p) := by
      rw [prog_unitsSampled, hb, sampledProg_congr (hab.trans (sampleRead_ahead s).symm) hrb, sampleRead_sampledProg (liveIndex_of_live hl hc)]
    have houts' : liveOutputs s.sampleIns (writeRings s.sampleIns h w (b.1.unitsSampled p w).mem) h w ((b.1.unitsSampled p w).prog p) = outs := by
      rw [hprog, unitsSampled_mem, houts]
      refine liveOutputs_congr s.sampleIns hpos (fun k hk j hj => ?_) w _
      exact readWord_writeRings_congr s.sampleIns hpos hrl hmb hm (hread _ (ringAddr_page hin hk hj))
    have hsample : programmeSample s.sampleIns b p = ((b.1.liveSample s.sampleIns p h w).1, (b.1.liveSample s.sampleIns p h w).2.foldl (fun o x => o.set x.1 x.2.1) b.2) := by
      unfold programmeSample
      rw [hlb]
      exact if_neg (by rw [hcb]; decide)
    rw [hsample, liveSample_eq, houts', foldl_laneSlots]
    refine ⟨(State.prog_setProg _ p _).trans (by rw [hprog]), fun y hy => setLanes_of_mem ?_ hy b.2⟩
    rw [hlanes]
    exact lanes_nodup hs.2 hheld
  · rintro k b hk hb ⟨hprog, hout⟩
    refine ⟨(programmeSample_otherProgs _ b k p (fun h => hk h.symm)).trans hprog, fun y hy => ?_⟩
    exact (programmeSample_other s.sampleIns b (by rw [hb]; exact lane_of_one hs.2 (hhas y hy) hk)).trans (hout y hy)
  · intro u out hu _
    have hmid := midSample_sampleRead hm h
    rw [← hu] at hmid
    exact hmid

/-! ### The output of one lane (R57, R138, R139) -/

/-- A converter keeps its declared latency over a read. -/
theorem read_cl (c : Converter) : c.read.conv.cl = c.cl := by
  unfold Converter.cl
  rw [read_state]

end Sys2Proof.Machine
end

