-- ==== Sys2Proof/Proofs/HouseSamples.lean ====
section
/-! PROOFS. What a house sample leaves of the clock, the programmes' lives, delay memory and the output stage, whether a block end
precedes it or not (R44, R52, R53, R55, R88, R89). -/

namespace Sys2Proof.Machine

variable {s t u : State} {p : Fin 8} {frm c0 c1 : Bool}

/-! ### The clock (R88) -/

/-- The house clock behind a house sample. -/
structure Clocked (r x : RefUnit) (frm c0 c1 : Bool) : Prop where
  started : x.started = true
  hsc : x.hsc = if r.started then r.hsc + 1 else r.hsc
  phase : x.phase = if r.started = false then r.phase else if r.phase = 4799 then 0 else r.phase + 1
  blockNo : x.blockNo = r.blockNo
  levels : x.frmPrev = frm ∧ x.cue0Prev = c0 ∧ x.cue1Prev = c1

theorem tick_clocked (r : RefUnit) : Clocked r r.tick r.frmPrev r.cue0Prev r.cue1Prev := by
  unfold RefUnit.tick
  by_cases h : r.started = true
  · rw [if_pos h]
    exact ⟨h, (if_pos h).symm, (if_neg (by rw [h]; decide)).symm, rfl, rfl, rfl, rfl⟩
  · rw [if_neg h]
    exact ⟨rfl, (if_neg h).symm, (if_pos (by simpa using h)).symm, rfl, rfl, rfl, rfl⟩

theorem frmEdge_clocked {r x : RefUnit} (h : Clocked r x frm c0 c1) : Clocked r x.frmEdge frm c0 c1 := by
  obtain ⟨h1, h2, h3, h4, h5⟩ := h
  unfold RefUnit.frmEdge
  cases x.acceptedInterval <;> exact ⟨h1, h2, h3, h4, h5⟩

theorem frmTaken_clocked {r x : RefUnit} {v : Bool} (h : Clocked r x v c0 c1) (frm : Bool) : Clocked r (x.frmTaken frm) frm c0 c1 := by
  have sampled {y : RefUnit} (hy : Clocked r y v c0 c1) : Clocked r { y with frmPrev := frm } frm c0 c1 :=
    ⟨hy.started, hy.hsc, hy.phase, hy.blockNo, rfl, hy.levels.2⟩
  unfold RefUnit.frmTaken
  split
  · exact sampled (frmEdge_clocked h)
  · exact sampled h

theorem takeHouseSample_clocked (hb : s.blockEndDue = false) (frm c0 c1 : Bool) : Clocked s.ref (s.takeHouseSample frm c0 c1).ref frm c0 c1 := by
  obtain ⟨h1, h2, h3, h4, h5, -⟩ := frmTaken_clocked (tick_clocked s.ref) frm
  rw [takeHouseSample_ref hb]
  unfold State.refTested
  split <;> exact ⟨h1, h2, h3, h4, h5, rfl, rfl⟩

/-! ### The programmes behind the lines -/

theorem State.sameButUnits.rest (h : s.sameButUnits t) (p : Fin 8) (x : Programme) :
    { t.prog p with life := x.life, move := x.move, meter := x.meter, gain := x.gain }
      = { s.prog p with life := x.life, move := x.move, meter := x.meter, gain := x.gain } := by
  have hp := h p
  generalize t.prog p = y at hp
  rw [hp]

theorem linesSampled_sameButUnits (s : State) (frm c0 c1 : Bool) : s.sampleCleared.sameButUnits (s.linesSampled frm c0 c1) :=
  ((sampleFrm_sameButUnits s.sampleCleared frm).trans (sameButUnits_of_sameBut (absenceTest_sameBut (s.linesFrm frm)) (by decide))).trans
    (sampleCues_sameButUnits (s.linesTested frm) c0 c1)

theorem takeHouseSample_sameButUnits (hb : s.blockEndDue = false) (frm c0 c1 : Bool) : s.sampleCleared.sameButUnits (s.takeHouseSample frm c0 c1) := by
  obtain ⟨a, ha⟩ := takeHouseSample_lines hb frm c0 c1
  rw [ha]
  exact (linesSampled_sameButUnits s frm c0 c1).trans (sameButUnits_of_sameBut (withAhead_sameBut _ a) (by decide))

/-- At the lines a programme takes the cue of its group, or stands as the shares before them leave it. -/
theorem takeHouseSample_prog (hb : s.blockEndDue = false) (frm c0 c1 : Bool) (p : Fin 8) :
    (s.takeHouseSample frm c0 c1).prog p = s.sampleCleared.prog p
    ∨ ∃ g b, p ∈ s.members g ∧ s.cuedAt frm c0 c1 g = true ∧ (s.takeHouseSample frm c0 c1).prog p = (s.sampleCleared.prog p).cued b := by
  by_cases hm : ∃ g, p ∈ s.members g
  · obtain ⟨g, hg⟩ := hm
    have hcued := takeHouseSample_cued hb frm c0 c1 g
    have hg' : p ∈ s.sampleCleared.members g := by rw [sampleCleared_members]; exact hg
    cases hc : s.cuedAt frm c0 c1 g with
    | true =>
      rw [hc] at hcued
      obtain ⟨-, hprogs, -⟩ := hcued.took
      exact .inr ⟨g, _, hg, hc, hprogs p hg'⟩
    | false =>
      rw [hc] at hcued
      exact .inl (hcued.same.progs p hg')
  · obtain ⟨a, ha⟩ := takeHouseSample_lines hb frm c0 c1
    rw [ha]
    exact .inl (linesSampled_prog_of_alone frm c0 c1 (fun g hg => hm ⟨g, by rwa [sampleCleared_members] at hg⟩))

/-! ### A programme's life (R52, R53, R55) -/

/-- A programme's life behind a house sample. -/
def Life.sampled : Life → Life
  | .closed => .closed
  | .clearing h left k => (Life.clearing h left k).cleared
  | .live h w => .live h ((w + 1) % 281474976710656)

/-- A programme's life behind a house sample, unless its share was taken ahead. -/
def State.sampledLife (s : State) (p : Fin 8) : Life := if s.ahead.contains (.clear p) then (s.prog p).life else (s.prog p).life.sampled

theorem sampledLife_of_ahead (h : s.ahead.contains (.clear p) = true) : s.sampledLife p = (s.prog p).life := if_pos h

theorem sampledLife_of_not_ahead (h : s.ahead.contains (.clear p) = false) : s.sampledLife p = (s.prog p).life.sampled := if_neg (by rw [h]; decide)

theorem sampledLife_of_closed (h : (s.prog p).life = .closed) : s.sampledLife p = .closed := by
  unfold State.sampledLife
  rw [h]
  exact ite_self _

theorem sampledLife_congr (hl : (t.prog p).life = (s.prog p).life) (ha : t.ahead.contains (.clear p) = s.ahead.contains (.clear p)) :
    t.sampledLife p = s.sampledLife p := by
  unfold State.sampledLife
  rw [hl, ha]

theorem sampleCleared_life (s : State) (p : Fin 8) : (s.sampleCleared.prog p).life = s.sampledLife p := by
  rcases liveIndex_cases s p with hn | ⟨h, w, hl, ha, -⟩
  · rw [sampleCleared_prog_of_not_live hn]
    unfold State.clearedProg State.sampledLife
    by_cases ha : s.ahead.contains (.clear p) = true
    · rw [if_pos ha, if_pos ha]
    · rw [if_neg ha, if_neg ha]
      cases hl : (s.prog p).life with
      | closed => rfl
      | clearing h left k => rfl
      | live h w => rw [liveIndex_of_live hl (by simpa using ha)] at hn; cases hn
  · obtain ⟨c, hc⟩ := sampleCleared_prog_of_live hl ha
    rw [hc, sampledLife_of_not_ahead ha, hl]
    rfl

theorem sampleCleared_prog_rest (s : State) (p : Fin 8) : { s.sampleCleared.prog p with
    life := (s.prog p).life, move := (s.prog p).move, meter := (s.prog p).meter, gain := (s.prog p).gain } = s.prog p := by
  rcases liveIndex_cases s p with hn | ⟨h, w, hl, ha, -⟩
  · rw [sampleCleared_prog_of_not_live hn, clearedProg_rest]
  · obtain ⟨c, hc⟩ := sampleCleared_prog_of_live hl ha
    rw [hc, gainedProg_rest, movedProg_rest]
    rfl

/-! ### The whole house sample -/

/-- What a house sample leaves of the programmes' lives, of delay memory and of the output stage. -/
structure HouseSampled (s t : State) : Prop where
  life : ∀ p, (t.prog p).life = s.sampledLife p
  rest : ∀ p, { t.prog p with life := (s.prog p).life, move := (s.prog p).move, meter := (s.prog p).meter, gain := (s.prog p).gain } = s.prog p
  words : ∀ a, (∀ p h w k, (s.prog p).life = .live h w → k < h.lanes.length → a ≠ ringAddr h k (w % h.rl)) → (∀ p, ¬ s.clearsAt p a) →
    readWord t.mem a = readWord s.mem a
  cleared : ∀ p a, s.clearsAt p a → readWord t.mem a = ⟨0, false⟩
  outputs : ∃ lanes, t.outPipe = (s.outPipe ++ [lanes]).drop 1
    ∧ t.outLinks = Vector.ofFn (outFrame ((s.outPipe ++ [lanes]).headD (Vector.replicate 32 Slot.silent)))

theorem linesSampled_sameBut (s : State) (frm c0 c1 : Bool) : s.sampleCleared.sameBut (.ref :: cueParts) (s.linesSampled frm c0 c1) :=
  sameBut_trans (sameBut_trans (sampleFrm_sameBut s.sampleCleared frm) (sameBut_mono (absenceTest_sameBut (s.linesFrm frm)) (by decide)))
    (sampleCues_sameBut (s.linesTested frm) c0 c1)

theorem takeHouseSample_sameBut_lines (hb : s.blockEndDue = false) (frm c0 c1 : Bool) :
    s.sampleCleared.sameBut (.ahead :: .ref :: cueParts) (s.takeHouseSample frm c0 c1) := by
  obtain ⟨a, ha⟩ := takeHouseSample_lines hb frm c0 c1
  rw [ha]
  exact sameBut_trans (sameBut_mono (linesSampled_sameBut s frm c0 c1) (by decide)) (sameBut_mono (withAhead_sameBut _ a) (by decide))

theorem pushOutputs_outputs (s : State) (lanes : Vector Slot 32) : (s.pushOutputs lanes).outPipe = (s.outPipe ++ [lanes]).drop 1
    ∧ (s.pushOutputs lanes).outLinks = Vector.ofFn (outFrame ((s.outPipe ++ [lanes]).headD (Vector.replicate 32 Slot.silent))) := ⟨rfl, rfl⟩

theorem takeHouseSample_outputs (hb : s.blockEndDue = false) (frm c0 c1 : Bool) :
    (s.takeHouseSample frm c0 c1).outPipe = (s.outPipe ++ [s.sampleProgs.2]).drop 1
    ∧ (s.takeHouseSample frm c0 c1).outLinks = Vector.ofFn (outFrame ((s.outPipe ++ [s.sampleProgs.2]).headD (Vector.replicate 32 Slot.silent))) := by
  have hrest := takeHouseSample_sameBut_lines hb frm c0 c1
  have hpipe : s.sampleProgs.1.outPipe = s.outPipe :=
    ((sampleRead_sameBut s .outPipe (by decide)).trans (sampleProgs_sameBut s .outPipe (by decide))).symm
  have hpush : s.sampleOutputs.outPipe = (s.sampleProgs.1.outPipe ++ [s.sampleProgs.2]).drop 1
      ∧ s.sampleOutputs.outLinks = Vector.ofFn (outFrame ((s.sampleProgs.1.outPipe ++ [s.sampleProgs.2]).headD (Vector.replicate 32 Slot.silent))) :=
    pushOutputs_outputs s.sampleProgs.1 s.sampleProgs.2
  rw [hpipe] at hpush
  exact ⟨((sampleCleared_sameBut s .outPipe (by decide)).trans (hrest .outPipe (by decide))).symm.trans hpush.1,
    ((sampleCleared_sameBut s .outLinks (by decide)).trans (hrest .outLinks (by decide))).symm.trans hpush.2⟩

theorem takeHouseSample_sampled_of_not_due (hb : s.blockEndDue = false) (frm c0 c1 : Bool) : HouseSampled s (s.takeHouseSample frm c0 c1) where
  life p := ((takeHouseSample_sameButUnits hb frm c0 c1).life p).trans (sampleCleared_life s p)
  rest p := ((takeHouseSample_sameButUnits hb frm c0 c1).rest p (s.prog p)).trans (sampleCleared_prog_rest s p)
  words a hne hcl := by rw [takeHouseSample_mem hb, sampleCleared_readWord hcl, sampleProgs_readWord hne]
  cleared p a hp := by rw [takeHouseSample_mem hb]; exact sampleCleared_readWord_cleared hp
  outputs := ⟨_, takeHouseSample_outputs hb frm c0 c1⟩

/-! ### The block end that precedes it (R89) -/

/-- A block end keeps the marks of the house sample. -/
theorem takeBlockEnd_ahead_clear (s : State) (p : Fin 8) : s.takeBlockEnd.ahead.contains (.clear p) = s.ahead.contains (.clear p) := by
  have hahead : s.endWaits.stepTimers.ahead = s.ahead := (stepTimers_sameBut s.endWaits .ahead (by decide)).symm.trans (endWaits_ahead s)
  rw [takeBlockEnd_eq, hahead, Bool.eq_iff_iff, List.contains_iff_mem, List.contains_iff_mem, List.mem_filter]
  exact and_iff_left rfl

theorem HouseSampled.after_blockEnd (h : HouseSampled s.takeBlockEnd t) : HouseSampled s t := by
  have hlife := (takeBlockEnd_sameButUnits s).life
  have hclears (p : Fin 8) (a : Nat) : s.takeBlockEnd.clearsAt p a ↔ s.clearsAt p a := by
    unfold State.clearsAt
    rw [takeBlockEnd_ahead_clear, hlife]
  have hmem : s.takeBlockEnd.mem = s.mem := (takeBlockEnd_sameBut s .mem (by decide)).symm
  have hpipe : s.takeBlockEnd.outPipe = s.outPipe := (takeBlockEnd_sameBut s .outPipe (by decide)).symm
  refine ⟨fun p => ?_, fun p => ?_, fun a hne hcl => ?_, fun p a hp => h.cleared p a ((hclears p a).mpr hp), ?_⟩
  · rw [h.life p, sampledLife_congr (hlife p) (takeBlockEnd_ahead_clear s p)]
  · have hunits := (takeBlockEnd_sameButUnits s).rest p (s.prog p)
    rw [← h.rest p] at hunits
    exact hunits
  · rw [h.words a (fun p x w k hl hk => hne p x w k (by rw [← hlife]; exact hl) hk) (fun p hp => hcl p ((hclears p a).mp hp)), hmem]
  · have houtputs := h.outputs
    rw [hpipe] at houtputs
    exact houtputs

theorem takeHouseSample_sampled (s : State) (frm c0 c1 : Bool) : HouseSampled s (s.takeHouseSample frm c0 c1) := by
  cases hb : s.blockEndDue with
  | false => exact takeHouseSample_sampled_of_not_due hb frm c0 c1
  | true =>
    rw [takeHouseSample_of_due hb]
    exact (takeHouseSample_sampled_of_not_due (takeBlockEnd_blockEndDue s) frm c0 c1).after_blockEnd

/-- The clock of any house sample, the block number counted at the block end that it carries. -/
theorem takeHouseSample_clock (s : State) (frm c0 c1 : Bool) :
    Clocked { s.ref with blockNo := if s.blockEndDue then s.ref.blockNo + 1 else s.ref.blockNo } (s.takeHouseSample frm c0 c1).ref frm c0 c1 := by
  cases hb : s.blockEndDue with
  | false => exact takeHouseSample_clocked hb frm c0 c1
  | true =>
    have h := takeHouseSample_clocked (takeBlockEnd_blockEndDue s) frm c0 c1
    rw [← takeHouseSample_of_due hb, takeBlockEnd_ref] at h
    exact ⟨h.started, h.hsc, h.phase, h.blockNo, h.levels⟩

end Sys2Proof.Machine
end

