-- ==== Sys2Proof/Proofs/LiveSamples.lean ====
section
/-! PROOFS. What a house sample leaves of a programme's units and of its lane outputs (R57, R63, R106, R135 to R139). -/

namespace Sys2Proof.Machine

variable {s t : State} {p l : Fin 8} {h : Held} {w : Nat} {n : Fin 32} {frm c0 c1 : Bool}

/-! ### The corrector's share (R135, R137) -/

theorem rampStep_eq (x : Corrector) : x.rampStep = { x with
    ramp := if x.applied = x.taken ∨ 47 ≤ x.ramp then 0 else x.ramp + 1
    applied := if x.applied = x.taken ∨ x.ramp < 47 then x.applied else if x.applied < x.taken then x.applied + 1 else x.applied - 1 } := by
  by_cases he : x.applied = x.taken
  · rw [Corrector.rampStep, if_pos he, if_pos (.inl he), if_pos (.inl he)]
  · by_cases hr : 47 ≤ x.ramp
    · rw [rampStep_of_due he hr, if_pos (show x.applied = x.taken ∨ 47 ≤ x.ramp from .inr hr),
        if_neg (show ¬(x.applied = x.taken ∨ x.ramp < 47) by omega)]
    · rw [Corrector.rampStep, if_neg he, if_neg (by omega), if_neg (show ¬(x.applied = x.taken ∨ 47 ≤ x.ramp) by omega),
        if_pos (show x.applied = x.taken ∨ x.ramp < 47 by omega)]

theorem takeDue_clip (c : Corrector) (rp : Int) : (c.takeDue rp).1.clip = c.clip := by
  unfold Corrector.takeDue
  by_cases hm : c.mode = .track
  · rw [if_pos hm]
    dsimp only
    cases (c.schedule.filter (fun e => decide (e.due ≤ rp))).getLast? <;> rfl
  · rw [if_neg hm]

theorem gainedProg_of_ahead {x : Programme} (h : s.ahead.contains (.gain p) = true) : s.gainedProg p w x = x := if_pos h

theorem gainedProg_of_not_ahead {x : Programme} (h : s.ahead.contains (.gain p) = false) : s.gainedProg p w x = x.gained w := if_neg (by rw [h]; decide)

theorem movedProg_gain (s : State) (p : Fin 8) : (s.movedProg p).gain = (s.prog p).gain := by rw [movedProg_rest]; rfl

theorem movedProg_lanes (s : State) (p : Fin 8) : (s.movedProg p).meter.lanes = (s.prog p).meter.lanes := by rw [movedProg_rest]; rfl

/-- The corrector behind its share takes the entries due at the D_cur of the move step. -/
theorem gained_gain (s : State) (p : Fin 8) (w : Nat) : ((s.movedProg p).gained w).gain
    = ((s.prog p).gain.takeDue ((w : Int) - (s.movedProg p).move.dcur)).1.rampStep := by
  unfold Programme.gained
  rw [movedProg_gain]

theorem gainedProg_clip (s : State) (p : Fin 8) (w : Nat) : (s.gainedProg p w (s.movedProg p)).gain.clip = (s.prog p).gain.clip := by
  cases ha : s.ahead.contains (.gain p) with
  | true => rw [gainedProg_of_ahead ha, movedProg_gain]
  | false => rw [gainedProg_of_not_ahead ha, gained_gain, rampStep_eq]; exact takeDue_clip _ _

theorem gainedProg_units (s : State) (p : Fin 8) (w : Nat) : (s.gainedProg p w (s.movedProg p)).move = (s.movedProg p).move
    ∧ (s.gainedProg p w (s.movedProg p)).meter.lanes = (s.prog p).meter.lanes := by
  rw [gainedProg_rest]
  exact ⟨rfl, movedProg_lanes s p⟩

/-! ### What the lines leave of a programme's units -/

theorem cued_lanes (x : Programme) (b : Bool) : (x.cued b).meter.lanes = x.meter.lanes := by
  have hmeter : (x.cued b).meter = if b = true ∧ x.life.isLive = true then x.meter.restart else x.meter := rfl
  rw [hmeter]
  split <;> rfl

theorem takeHouseSample_gain (hb : s.blockEndDue = false) (frm c0 c1 : Bool) (p : Fin 8) :
    ((s.takeHouseSample frm c0 c1).prog p).gain = (s.sampleCleared.prog p).gain
    ∧ ((s.takeHouseSample frm c0 c1).prog p).meter.lanes = (s.sampleCleared.prog p).meter.lanes := by
  rcases takeHouseSample_prog hb frm c0 c1 p with h | ⟨g, b, -, -, h⟩
  · rw [h]; exact ⟨rfl, rfl⟩
  · rw [h]; exact ⟨(cued_kept _ b).2.1, cued_lanes _ b⟩

theorem takeHouseSample_closed (hb : s.blockEndDue = false) (hl : (s.prog p).life = .closed) : (s.takeHouseSample frm c0 c1).prog p = s.prog p := by
  have hn : s.liveIndex? p = none := by rw [State.liveIndex?, hl]
  have hcleared : s.sampleCleared.prog p = s.prog p := by
    rw [sampleCleared_prog_of_not_live hn, State.clearedProg, hl, Life.cleared, ← hl]
    exact ite_self _
  rcases takeHouseSample_prog hb frm c0 c1 p with h | ⟨g, b, hg, -, -⟩
  · rw [h, hcleared]
  · rw [mem_members, hl] at hg
    exact absurd hg.1 (by decide)

/-- A programme whose group takes no cue stands at the lines as the shares before them leave it. -/
theorem takeHouseSample_prog_of_uncued (hb : s.blockEndDue = false)
    (h : ∀ g, (s.prog p).group = some g → ((s.takeHouseSample frm c0 c1).group g).cueCount = (s.group g).cueCount) :
    (s.takeHouseSample frm c0 c1).prog p = s.sampleCleared.prog p := by
  rcases takeHouseSample_prog hb frm c0 c1 p with hp | ⟨g, b, hg, hc, -⟩
  · exact hp
  · have hcued := takeHouseSample_cued hb frm c0 c1 g
    rw [hc] at hcued
    have hcount := congrArg CueGroup.cueCount hcued.took.1
    rw [h g ((mem_members s g p).mp hg).2, sampleCleared_group] at hcount
    exact absurd hcount (fun he => by simp at he)

theorem takeHouseSample_uncued_units (hb : s.blockEndDue = false)
    (h : ∀ g, (s.prog p).group = some g → ((s.takeHouseSample frm c0 c1).group g).cueCount = (s.group g).cueCount) :
    ((s.takeHouseSample frm c0 c1).prog p).move = (s.movedProg p).move
    ∧ { ((s.takeHouseSample frm c0 c1).prog p).meter with lanes := (s.prog p).meter.lanes } = (s.prog p).meter := by
  rw [takeHouseSample_prog_of_uncued hb h]
  exact ⟨(sampleCleared_prog s p).1, (sampleCleared_prog s p).2.1⟩

theorem takeHouseSample_not_live (hb : s.blockEndDue = false) (hn : s.liveIndex? p = none) :
    ((s.takeHouseSample frm c0 c1).prog p).gain = (s.prog p).gain
    ∧ ((s.takeHouseSample frm c0 c1).prog p).meter.lanes = (s.prog p).meter.lanes := by
  obtain ⟨hgain, hlanes⟩ := takeHouseSample_gain hb frm c0 c1 p
  rw [hgain, hlanes, sampleCleared_prog_of_not_live hn, clearedProg_rest]
  exact ⟨rfl, rfl⟩

/-- The MOVE source of a programme is as its move step leaves it. -/
theorem takeHouseSample_moveSource (hb : s.blockEndDue = false) (frm c0 c1 : Bool) (p : Fin 8) :
    (s.takeHouseSample frm c0 c1).source (moveSource p) = (s.steppedAt s.ref.tick.hsc p).source (moveSource p) := by
  have hsteps : s.sampleRead.stepsAt p = s.stepsAt p := by
    unfold State.stepsAt
    rw [liveIndex_congr (sampleRead_prog s p) (sampleRead_ahead s), sampleRead_ahead]
  rw [takeHouseSample_source hb frm c0 c1 (moveSource_ne_counterSource p), sampleSignals_at_move, hsteps]
  unfold State.steppedAt
  by_cases h : s.stepsAt p = true
  · have hmove := (moveStep_runs { s with ref := { s.ref with hsc := s.ref.tick.hsc } } p).source (moveSource_ne_counterSource p)
    rw [foldl_atSource_filter] at hmove
    rw [if_pos h, if_pos h]
    exact hmove.symm
  · rw [if_neg h, if_neg h]
    rfl

/-! ### A LIVE programme -/

/-- The words taken by the meter are those that the router hands the lanes (R106). -/
theorem take_lanes (s : State) (lanes : List LaneWeight) (m : Meter) : (m.take s.sampleIns lanes).lanes
    = List.zipWith (fun lw x => LaneMeter.take (s.laneWord lw.lane).sample x) lanes m.lanes := by
  have hfun : (fun (lw : LaneWeight) (x : LaneMeter) => LaneMeter.take s.sampleIns[lw.lane].passed.sample x)
      = fun lw x => LaneMeter.take (s.laneWord lw.lane).sample x := by
    funext lw x
    rw [sampleIns_passed]
  exact congrArg (fun f => List.zipWith f lanes m.lanes) hfun

/-- What a house sample leaves of a LIVE programme's meter lanes and corrector. -/
theorem takeHouseSample_live (hb : s.blockEndDue = false) (hl : (s.prog p).life = .live h w) (ha : s.ahead.contains (.clear p) = false) (frm c0 c1 : Bool) :
    ((s.takeHouseSample frm c0 c1).prog p).meter.lanes
      = List.zipWith (fun lw m => LaneMeter.take (s.laneWord lw.lane).sample m) h.lanes (s.prog p).meter.lanes
    ∧ ∃ c, ((s.takeHouseSample frm c0 c1).prog p).gain = { (s.gainedProg p w (s.movedProg p)).gain with clip := c } := by
  obtain ⟨hgain, hlanes⟩ := takeHouseSample_gain hb frm c0 c1 p
  obtain ⟨c, hc⟩ := sampleCleared_prog_of_live hl ha
  rw [hgain, hlanes, hc]
  refine ⟨?_, _, rfl⟩
  rw [← (gainedProg_units s p w).2]
  exact take_lanes s h.lanes _

/-! ### The output of one lane (R57, R138, R139) -/

theorem sampleIns_route (s : State) (n : Fin 32) : s.sampleIns[n] = laneIn s.reads (s.route n) := by simp [State.sampleIns, State.laneIns, State.route]

theorem liveOutput_unrouted (hr : s.route n = .unrouted) (m : List (Nat × Slot)) (h : Held) (w dcur g : Nat) (fade : Nat × Nat) (k : Nat) :
    liveOutput m h w dcur g fade k s.sampleIns[n] = (⟨0, false⟩, false) := by
  rw [sampleIns_route, hr]
  rfl

/-- The lane's input of a routed lane, from the read of its link's converter. -/
theorem sampleIns_pair {j : Fin 8} (hr : s.route n = .pair l j) :
    s.sampleIns[n] = { slot := (s.link l).conv.read.frame[j], sounding := (s.link l).conv.read.sounding, cl := (s.link l).conv.cl } := by
  rw [sampleIns_route, hr]
  simp only [laneIn, getElem_reads, read_cl]

theorem liveOutput_silent {j : Fin 8} (hr : s.route n = .pair l j) (hs : (s.link l).conv.read.sounding = false ∨ (s.link l).conv.cl = none)
    (m : List (Nat × Slot)) (h : Held) (w dcur g : Nat) (fade : Nat × Nat) (k : Nat) : liveOutput m h w dcur g fade k s.sampleIns[n] = (⟨0, false⟩, false) := by
  rw [sampleIns_pair hr]
  unfold liveOutput
  rcases hs with hs | hs
  · rw [hs]; rfl
  · rw [hs]
    cases (s.link l).conv.read.sounding <;> rfl

theorem liveOutput_sounding {j : Fin 8} {cl : Nat} (hr : s.route n = .pair l j) (hs : (s.link l).conv.read.sounding = true) (hcl : (s.link l).conv.cl = some cl)
    (m : List (Nat × Slot)) (h : Held) (w dcur g : Nat) (fade : Nat × Nat) (k : Nat) : liveOutput m h w dcur g fade k s.sampleIns[n]
      = (outputSlot (readWord m (ringAddr h k (((w : Int) - (dcur + 51 - cl : Nat)) % h.rl).toNat)) g fade,
        clips (readWord m (ringAddr h k (((w : Int) - (dcur + 51 - cl : Nat)) % h.rl).toNat)) g fade) := by
  rw [sampleIns_pair hr]
  unfold liveOutput
  rw [hs, hcl]
  rfl

/-! ### The outputs of a LIVE programme in the words that stand behind the house sample -/

/-- How many lanes of a LIVE programme saturate. -/
theorem countP_liveOutputs (ins : Vector LaneIn 32) (m : List (Nat × Slot)) (h : Held) (w : Nat) (x : Programme) :
    (liveOutputs ins m h w x).countP (fun o => o.2.2)
      = h.lanes.zipIdx.countP (fun y => (liveOutput m h w x.move.dcur (gainFactor x.gain.applied) x.move.fade y.2 ins[y.1.lane]).2) := by
  unfold liveOutputs
  rw [List.countP_map]
  rfl

theorem liveOutputs_behind (hb : s.blockEndDue = false) (hs : s.spaceSafe) (hm : s.memSafe) (hl : (s.prog p).life = .live h w)
    (hc : s.ahead.contains (.clear p) = false) (x : Programme) (frm c0 c1 : Bool) :
    liveOutputs s.sampleIns (writeRings s.sampleIns h w s.mem) h w x = liveOutputs s.sampleIns (s.takeHouseSample frm c0 c1).mem h w x := by
  have hin := spaceSafe_insideMemory hs p
  rw [hl] at hin
  refine liveOutputs_congr s.sampleIns (rings_of_inside hin).1 (fun k hk j hj => ?_) w x
  exact (takeHouseSample_readWord_live hb hs hm hl hc (ringAddr_page hin hk hj) frm c0 c1).symm

theorem applied_behind (hb : s.blockEndDue = false) (hl : (s.prog p).life = .live h w) (hc : s.ahead.contains (.clear p) = false) (frm c0 c1 : Bool) :
    (s.gainedProg p w (s.movedProg p)).gain.applied = ((s.takeHouseSample frm c0 c1).prog p).gain.applied := by
  obtain ⟨-, c, hgain⟩ := takeHouseSample_live hb hl hc frm c0 c1
  rw [hgain]

section
variable (hb : s.blockEndDue = false) (hs : s.spaceSafe) (hm : s.memSafe) (hl : (s.prog p).life = .live h w) (hc : s.ahead.contains (.clear p) = false)
include hb hs hm hl hc

/-- A lane of a LIVE programme puts out the word at its tap, multiplied at the applied gain and fade of this house sample (R57). -/
theorem sampleProgs_lane_live {k : Nat} (hk : k < h.lanes.length) (frm c0 c1 : Bool) : s.sampleProgs.2[h.lanes[k].lane]
    = (liveOutput (s.takeHouseSample frm c0 c1).mem h w (s.movedProg p).move.dcur (gainFactor ((s.takeHouseSample frm c0 c1).prog p).gain.applied)
        (s.movedProg p).move.fade k s.sampleIns[h.lanes[k].lane]).1 := by
  obtain ⟨-, hout⟩ := sampleProgs_live hs hm hl hc _ rfl
  rw [liveOutputs_behind hb hs hm hl hc _ frm c0 c1] at hout
  have hlane := hout _ (List.mem_map.mpr ⟨_, mem_liveOutputs _ _ h w _ hk, rfl⟩)
  rw [(gainedProg_units s p w).1, applied_behind hb hl hc frm c0 c1] at hlane
  exact hlane

/-- The clip count takes one for each lane whose output saturates (R139). -/
theorem takeHouseSample_clip (frm c0 c1 : Bool) : ((s.takeHouseSample frm c0 c1).prog p).gain.clip = (s.prog p).gain.clip
    + h.lanes.zipIdx.countP (fun y => (liveOutput (s.takeHouseSample frm c0 c1).mem h w (s.movedProg p).move.dcur
        (gainFactor ((s.takeHouseSample frm c0 c1).prog p).gain.applied) (s.movedProg p).move.fade y.2 s.sampleIns[y.1.lane]).2) := by
  obtain ⟨hprog, -⟩ := sampleProgs_live hs hm hl hc _ rfl
  rw [liveOutputs_behind hb hs hm hl hc _ frm c0 c1] at hprog
  have hcleared : s.sampleCleared.prog p = s.sampleProgs.1.prog p := by
    rw [prog_sampleCleared]
    exact clearedProg_of_live (by rw [hprog]; rfl)
  have hclip := congrArg (fun x => x.gain.clip) (hcleared.trans hprog)
  refine (congrArg Corrector.clip (takeHouseSample_gain hb frm c0 c1 p).1).trans (hclip.trans ?_)
  change (s.gainedProg p w (s.movedProg p)).gain.clip + _ = _
  rw [gainedProg_clip, countP_liveOutputs, (gainedProg_units s p w).1, applied_behind hb hl hc frm c0 c1]

end

end Sys2Proof.Machine
end

