-- ==== Sys2Proof/Proofs/HouseSample.lean ====
section
/-! PROOFS. HOUSE_SAMPLE as a whole (R43, R44, R52 to R57, R88, R89, R135 to R139). -/

namespace Sys2Proof.Machine

variable {s t : State} {p : Fin 8} {h : Held} {w : Nat} {frm c0 c1 : Bool}

/-! ### GAIN_SKIPPED (R136) -/

theorem sentOf_flatMap_parts (e : CountEvent) (g : Fin 8 → List Signal) (ps : List (Fin 8)) :
    sentOf e (ps.flatMap g) = ps.flatMap (fun p => sentOf e (g p)) := by
  induction ps with
  | nil => rfl
  | cons p ps ih => rw [List.flatMap_cons, sentOf_append, ih, List.flatMap_cons]

/-- A counter offered some equal events of each part in turn. -/
theorem offerAll_flatMap_replicate (e : CountEvent) (k : Fin 8 → Nat) (ps : List (Fin 8)) (x : Counter) :
    x.offerAll (ps.flatMap (fun p => List.replicate (k p) (e, some p, 1))) = ps.foldl (fun y p => Nat.repeat (Counter.offer e (some p) 1) (k p) y) x := by
  induction ps generalizing x with
  | nil => rfl
  | cons p ps ih => rw [List.flatMap_cons, Counter.offerAll_append, Counter.offerAll_replicate, ih, List.foldl_cons]

theorem movedProg_skips (s : State) (p : Fin 8) (w : Nat) :
    (s.movedProg p).skips w = ((s.prog p).gain.takeDue ((w : Int) - (s.movedProg p).move.dcur)).2 := by
  unfold Programme.skips
  rw [movedProg_gain]

theorem movedProg_of_steps (h : s.stepsAt p = true) : s.movedProg p = (s.prog p).stepped s.ref.tick.hsc := by
  rw [movedProg_eq]
  exact if_pos h

/-- A programme's share counts GAIN_SKIPPED once for each entry that its corrector skips. -/
theorem shareSignals_skips (ha : s.ahead = []) {k : Nat} (hn : s.liveIndex? p = none → k = 0) (hl : ∀ w, s.liveIndex? p = some w → k = (s.movedProg p).skips w) :
    sentOf .gainSkipped (s.sampleRead.shareSignals p) = List.replicate k (.gainSkipped, some p, 1) := by
  have hreplicate (k : Nat) : sentOf .gainSkipped (List.replicate k (.count .gainSkipped (some p) 1)) = List.replicate k (.gainSkipped, some p, 1) := by
    induction k with
    | zero => rfl
    | succ k ih => rw [List.replicate_succ, sentOf_count, if_pos rfl, ih, List.replicate_succ]
  unfold State.shareSignals
  rw [liveIndex_congr (sampleRead_prog s p) (sampleRead_ahead s)]
  cases hi : s.liveIndex? p with
  | none => rw [hn hi]; rfl
  | some w =>
    have hsteps : s.stepsAt p = true := by rw [State.stepsAt, hi, ha]; rfl
    rw [hl w hi, movedProg_of_steps hsteps, sampleRead_ahead, ha, sampleRead_prog, sampleRead_ref, ← hreplicate]
    simp only [List.contains_nil, Bool.false_eq_true, if_false]
    rw [sentOf_append, (steppedSignals_counts _ p _).none_of (by decide), List.nil_append]

theorem takeHouseSample_skips (hb : s.blockEndDue = false) (ha : s.ahead = []) {skips : Fin 8 → Nat} (hn : ∀ p, s.liveIndex? p = none → skips p = 0)
    (hl : ∀ p w, s.liveIndex? p = some w → skips p = (s.movedProg p).skips w) {c : Fin 8} (hc : (s.counter c).event = some .gainSkipped) (frm c0 c1 : Bool) :
    (s.takeHouseSample frm c0 c1).counter c
      = (List.finRange 8).foldl (fun x p => Nat.repeat (Counter.offer .gainSkipped (some p) 1) (skips p) x) (s.counter c) := by
  rw [takeHouseSample_counter hb frm c0 c1 (by decide) hc, sentOf_sampleSignals_skips, sentOf_flatMap_parts, ← offerAll_flatMap_replicate]
  exact congrArg (fun g => (s.counter c).offerAll ((List.finRange 8).flatMap g)) (funext fun p => shareSignals_skips ha (hn p) (hl p))

/-! ### The lane outputs of the newest house sample (R44) -/

theorem takeHouseSample_last {last : Vector Slot 32} (hb : s.blockEndDue = false) (h : (s.takeHouseSample frm c0 c1).outPipe.getLast? = some last) :
    last = s.sampleProgs.2 := by
  rw [(takeHouseSample_outputs hb frm c0 c1).1] at h
  generalize s.sampleProgs.2 = lanes at h ⊢
  cases hp : s.outPipe with
  | nil => rw [hp] at h; cases h
  | cons x xs =>
    rw [hp, List.cons_append, List.drop_one, List.tail_cons, List.getLast?_append] at h
    exact (Option.some.inj h).symm

theorem headD_append_of_ne_nil {α : Type} {xs : List α} (h : xs ≠ []) (ys : List α) (d : α) : (xs ++ ys).headD d = xs.headD d := by
  cases xs with
  | nil => exact absurd rfl h
  | cons x xs => rfl

theorem ofFn_outFrame (lanes : Vector Slot 32) (o : Fin 4) (k : Fin 8) : (Vector.ofFn (outFrame lanes))[o][k] = lanes[o.val * 8 + k.val] := by
  simp [outFrame]

theorem movedProg_move {stamp : Stamp} (h : stamp = s.ref.tick.hsc) (p : Fin 8) : ((s.steppedAt stamp p).prog p).move = (s.movedProg p).move := by
  rw [h]
  rfl

theorem not_ahead_of_nil (h : s.ahead = []) (a : Ahead) : s.ahead.contains a = false := by rw [h]; rfl

theorem clearsAt_of_clearing {left k a : Nat} (hl : (s.prog p).life = .clearing h left k) (hk : 5 ≤ k) (ha : s.ahead.contains (.clear p) = false)
    (hpage : a / 512 = h.extent.start + (h.extent.len - left)) : s.clearsAt p a := by
  refine ⟨ha, ?_⟩
  rw [hl, Life.clearsPage, if_pos hk, hpage]

theorem clearing_of_clearsAt {a : Nat} (hp : s.clearsAt p a) :
    ∃ h left k, (s.prog p).life = .clearing h left k ∧ 5 ≤ k ∧ a / 512 = h.extent.start + (h.extent.len - left) := by
  obtain ⟨-, hpage⟩ := hp
  cases hl : (s.prog p).life with
  | closed => rw [hl] at hpage; cases hpage
  | live h w => rw [hl] at hpage; cases hpage
  | clearing h left k =>
    rw [hl, Life.clearsPage] at hpage
    by_cases hk : 5 ≤ k
    · rw [if_pos hk, Option.some.injEq] at hpage
      exact ⟨h, left, k, rfl, hk, hpage.symm⟩
    · rw [if_neg hk] at hpage
      cases hpage

theorem isLive_of_liveIndex_none (ha : s.ahead = []) (hn : s.liveIndex? p = none) : (s.prog p).life.isLive = false := by
  cases hl : (s.prog p).life with
  | closed => rfl
  | clearing h left k => rfl
  | live h w => rw [liveIndex_of_live hl (not_ahead_of_nil ha _)] at hn; cases hn

theorem live_of_liveIndex (hi : s.liveIndex? p = some w) : ∃ h, (s.prog p).life = .live h w := by
  rcases liveIndex_cases s p with hn | ⟨h, v, hl, -, hv⟩
  · rw [hn] at hi; cases hi
  · rw [hv] at hi
    cases hi
    exact ⟨h, hl⟩

/-- Settles O58: the clock, the lives, the memory and the output stage over any house sample; with no block end before it, what every
lane puts out and what each programme's units become, each from its own share. -/
theorem houseSampleAdvancesThePart : Obligations.HouseSampleAdvancesThePart := by
  unfold Obligations.HouseSampleAdvancesThePart
  intro s frm c0 c1 hs
  refine ⟨fun he => ?_, fun hdue u hu => ?_, fun p hp => ?_⟩
  · obtain ⟨hlife, hrest, hwords, hcleared, lanes, hpipe, hlinks⟩ := takeHouseSample_sampled s frm c0 c1
    obtain ⟨hstarted, hhsc, hphase, hblock, hfrm, hcue0, hcue1⟩ := takeHouseSample_clock s frm c0 c1
    refine ⟨s.takeHouseSample frm c0 c1, exec_houseSample hs he frm c0 c1, hstarted, hhsc, hphase, hblock, hfrm, hcue0, hcue1, ?live, ?closed, hrest,
      ?counting, ?clearing, ?ahead, ?words, ?pipe, ?links, ?lanes, ?units, ?skips, fun x m => ⟨rfl, rfl⟩,
      sameBut_mono (takeHouseSample_sameBut s frm c0 c1) (by decide)⟩
    case live =>
      intro p h w hl ha
      rw [hlife p, sampledLife_of_not_ahead ha, hl]
      rfl
    case closed => exact fun p hl => (hlife p).trans (sampledLife_of_closed hl)
    case counting =>
      intro p h left k hl hk ha
      rw [hlife p, sampledLife_of_not_ahead ha, hl]
      exact if_pos hk
    case clearing =>
      intro p h left k hl hk ha
      refine ⟨?_, fun a hpage => hcleared p a (clearsAt_of_clearing hl hk ha hpage)⟩
      rw [hlife p, sampledLife_of_not_ahead ha, hl]
      exact if_neg (by omega)
    case ahead => exact fun p ha => (hlife p).trans (sampledLife_of_ahead ha)
    case words =>
      refine fun a hne hcl => hwords a hne (fun p hp => ?_)
      obtain ⟨h, left, k, hl, hk, hpage⟩ := clearing_of_clearsAt hp
      exact hcl p h left k hl hk hp.1 hpage
    case pipe =>
      refine fun hne => ⟨lanes, ?_⟩
      rw [hpipe]
      exact List.drop_append_of_le_length (List.length_pos_of_ne_nil hne)
    case links =>
      intro hne o k
      rw [hlinks, headD_append_of_ne_nil hne]
      exact ofFn_outFrame _ o k
    case lanes =>
      intro hb n last hlast
      rw [takeHouseSample_last hb hlast]
      refine ⟨sampleProgs_passed, fun hls p h left k hl hn => sampleProgs_clearing hls hl hn, fun hls hps hm ha p h w k hk hl hn u hu => ?_⟩
      subst hn
      rw [sampleProgs_lane_live hb ⟨hps, hls⟩ hm hl (not_ahead_of_nil ha _) hk frm c0 c1, hu, movedProg_move (takeHouseSample_hsc hb frm c0 c1)]
      cases hr : s.route h.lanes[k].lane with
      | unrouted => rw [liveOutput_unrouted hr]
      | pair l j =>
        dsimp only
        cases hsound : (s.link l).conv.read.sounding with
        | false => rw [liveOutput_silent hr (.inl hsound)]
        | true =>
          cases hcl : (s.link l).conv.cl with
          | none => rw [liveOutput_silent hr (.inr hcl)]
          | some cl => rw [liveOutput_sounding hr hsound hcl]
    case units =>
      intro hb p u uncued hu huncued
      rw [movedProg_move (takeHouseSample_hsc hb frm c0 c1)] at hu
      refine ⟨takeHouseSample_closed hb, ?_, fun h => ?_, takeHouseSample_not_live hb, fun h w hl ha => ?_⟩
      · rw [takeHouseSample_hsc hb]
        exact takeHouseSample_moveSource hb frm c0 c1 p
      · rw [hu]
        exact takeHouseSample_uncued_units hb (huncued.mp h)
      obtain ⟨hlanes, c, hgain⟩ := takeHouseSample_live hb hl ha frm c0 c1
      refine ⟨hlanes, fun hg => ?_, fun hg x hx => ?_, fun hls hps hm _ => ?_⟩
      · rw [hgain, gainedProg_of_ahead hg, movedProg_gain]
      · rw [hgain, gainedProg_of_not_ahead hg, gained_gain, ← hu, ← hx, rampStep_eq]
      · rw [takeHouseSample_clip hb ⟨hps, hls⟩ hm hl ha frm c0 c1, hu]
        refine congrArg _ (congrArg (fun f => List.countP f h.lanes.zipIdx) (funext fun y => ?_))
        cases hr : s.route y.1.lane with
        | unrouted => rw [liveOutput_unrouted hr]
        | pair l j =>
          dsimp only
          cases hsound : (s.link l).conv.read.sounding with
          | false => rw [liveOutput_silent hr (.inl hsound)]
          | true =>
            cases hcl : (s.link l).conv.cl with
            | none => rw [liveOutput_silent hr (.inr hcl)]
            | some cl => rw [liveOutput_sounding hr hsound hcl]
    case skips =>
      intro hb ha skips hzero hskips c hc
      refine takeHouseSample_skips hb ha (fun p hn => hzero p (isLive_of_liveIndex_none ha hn)) (fun p w hi => ?_) hc frm c0 c1
      obtain ⟨h, hl⟩ := live_of_liveIndex hi
      rw [hskips p h w hl, movedProg_skips, movedProg_move (takeHouseSample_hsc hb frm c0 c1)]
  · rw [exec_blockEnd hdue, Host.Outcome.next.injEq] at hu
    have hstart : s.takeBlockEnd.startUp = s.startUp := (takeBlockEnd_sameBut s .startUp (by decide)).symm
    rw [← hu]
    change execHouseSample frm c0 c1 s = execHouseSample frm c0 c1 s.takeBlockEnd
    unfold execHouseSample
    rw [takeBlockEnd_extentOutside, hstart, takeHouseSample_of_due hdue, hs, if_neg Bool.false_ne_true, if_neg Bool.false_ne_true]
  · simp only [exec, execHouseSample, hs, Bool.false_eq_true, if_false, hp]

end Sys2Proof.Machine
end
